-- ==== Sys2Proof/Word.lean ====
section
/-! DEFINITION. The word types of Dexdun 3 (00 R2, 03 R82). -/

namespace Sys2Proof

/-- A 32-bit register or code word (03 R82, 04 R104). -/
abbrev Word := BitVec 32

/-- A 64-bit value held in a pair (03 R82). -/
abbrev DWord := BitVec 64

/-- One byte of memory (00 R2). -/
abbrev Byte := BitVec 8

/-- A set of the 32 slots of a group, bit s for slot s (02 R47). -/
abbrev Mask := BitVec 32

end Sys2Proof
end

