-- ==== Sys2Proof/Machine/Float.lean ====
section
/-! DEFINITION. Number formats and rounding (05 R133 to R149, R155 to R158): encodings as natural
numbers, values as exact dyadics, one rounding helper. -/

namespace Sys2Proof.Machine

/-- The floating-point formats (05 R133). -/
inductive NF where
  | f32 | f16 | bf16 | e4m3 | e5m2 | e2m3 | e3m2 | e2m1
  deriving DecidableEq, Repr

/-- Rounding modes (05 R137). -/
inductive RM where
  | rne | rz | rd | ru | sr
  deriving DecidableEq, Repr

/-- Exponent width (05 R133). -/
def NF.eb : NF → Nat
  | .f32 => 8 | .f16 => 5 | .bf16 => 8 | .e4m3 => 4 | .e5m2 => 5 | .e2m3 => 2 | .e3m2 => 3 | .e2m1 => 2

/-- Fraction width M (05 R133). -/
def NF.mb : NF → Nat
  | .f32 => 23 | .f16 => 10 | .bf16 => 7 | .e4m3 => 3 | .e5m2 => 2 | .e2m3 => 3 | .e3m2 => 2 | .e2m1 => 1

/-- Bias (05 R133). -/
def NF.bias : NF → Nat
  | .f32 => 127 | .f16 => 15 | .bf16 => 127 | .e4m3 => 7 | .e5m2 => 15 | .e2m3 => 1 | .e3m2 => 3 | .e2m1 => 1

/-- Bits of an encoding. -/
def NF.width (f : NF) : Nat := 1 + f.eb + f.mb

/-- EMIN: the exponent of the smallest normal value (05 R133). -/
def NF.emin (f : NF) : Int := 1 - (f.bias : Int)

def NF.hasInf : NF → Bool
  | .f32 | .f16 | .bf16 | .e5m2 => true
  | _ => false

/-- Formats on which FCR.FTZ acts (05 R143). -/
def NF.flushes : NF → Bool
  | .f32 | .f16 | .bf16 => true
  | _ => false

def NF.signCode (f : NF) (neg : Bool) : Nat := if neg then 2 ^ (f.eb + f.mb) else 0

/-- The encoding of ±MAXF (05 R133). -/
def NF.maxf (f : NF) (neg : Bool) : Nat :=
  f.signCode neg + match f with
    | .f32 => 0x7F7FFFFF | .f16 => 0x7BFF | .bf16 => 0x7F7F | .e4m3 => 0x7E | .e5m2 => 0x7B
    | .e2m3 => 0x1F | .e3m2 => 0x1F | .e2m1 => 0x7

/-- The significand of MAXF, in units of 2^(emax − M). -/
def NF.maxMan : NF → Nat
  | .f32 => 2 ^ 24 - 1 | .f16 => 2 ^ 11 - 1 | .bf16 => 255 | .e4m3 => 14 | .e5m2 => 7
  | .e2m3 => 15 | .e3m2 => 7 | .e2m1 => 3

/-- The exponent of MAXF. -/
def NF.emax : NF → Int
  | .f32 => 127 | .f16 => 15 | .bf16 => 127 | .e4m3 => 8 | .e5m2 => 15 | .e2m3 => 2 | .e3m2 => 4 | .e2m1 => 2

def NF.inf (f : NF) (neg : Bool) : Nat := f.signCode neg + (2 ^ f.eb - 1) * 2 ^ f.mb

/-- Canon(f) (05 R144); formats without NaN never ask for it. -/
def NF.canon : NF → Nat
  | .f32 => 0x7FC00000 | .f16 => 0x7E00 | .bf16 => 0x7FC0 | .e4m3 => 0x7F | .e5m2 => 0x7E
  | _ => 0

/-- Exception bits in FSR positions (05 R152). -/
def exIV : Nat := 1
def exDZ : Nat := 2
def exOF : Nat := 4
def exUF : Nat := 8
def exIX : Nat := 16

/-- A finite value ±man × 2^exp; with `st`, the magnitude lies strictly between man × 2^exp and
(man + 1) × 2^exp. -/
structure Dy where
  neg : Bool
  man : Nat
  exp : Int
  st : Bool := false
  deriving DecidableEq, Repr

/-- A decoded value. -/
inductive FV where
  | nan (sig : Bool)
  | inf (neg : Bool)
  | fin (d : Dy)
  deriving DecidableEq, Repr

def Dy.isZero (x : Dy) : Bool := x.man == 0 && !x.st

/-- Dec(b, f) with its special values (05 R133, R134). -/
def NF.unpack (f : NF) (c : Nat) : FV :=
  let neg := c / 2 ^ (f.eb + f.mb) % 2 == 1
  let e := c / 2 ^ f.mb % 2 ^ f.eb
  let m := c % 2 ^ f.mb
  if e == 2 ^ f.eb - 1 && f.hasInf then
    if m == 0 then .inf neg else .nan (m < 2 ^ (f.mb - 1))
  else if f == .e4m3 && e == 15 && m == 7 then .nan false
  else if e == 0 then .fin ⟨neg, m, f.emin - f.mb, false⟩
  else .fin ⟨neg, 2 ^ f.mb + m, (e : Int) - f.bias - f.mb, false⟩

/-- floor(log2) of a non-zero magnitude. -/
def Dy.lg (x : Dy) : Int := (Nat.log2 x.man : Int) + x.exp

/-- n of 05 R137 at ulp 2^u, and whether n × ulp is the value itself. `draw` and `lsb` serve SR
(05 R140). -/
def Dy.roundAt (x : Dy) (mode : RM) (u : Int) (draw : Nat) (lsb : Int) : Nat × Bool :=
  let sh := (u - x.exp).toNat
  let n0 := if u ≤ x.exp then x.man * 2 ^ (x.exp - u).toNat else x.man / 2 ^ sh
  let rem := if u ≤ x.exp then 0 else x.man % 2 ^ sh
  let exact := rem == 0 && !x.st
  let up := match mode with
    | .rne => sh != 0 && (2 * rem > 2 ^ sh || (2 * rem == 2 ^ sh && (x.st || n0 % 2 == 1)))
    | .rz => false
    | .ru => !x.neg && !exact
    | .rd => x.neg && !exact
    | .sr =>
      let k := min 16 (u - lsb).toNat
      rem * 2 ^ k + (draw / 2 ^ (64 - k)) * 2 ^ sh ≥ 2 ^ (sh + k)
  (if up then n0 + 1 else n0, exact)

/-- What RoundFmt returns: the encoding, the exceptions of 05 R139 and whether the source is tiny. -/
structure Rnd where
  code : Nat
  ex : Nat
  tiny : Bool := false
  deriving DecidableEq, Repr

/-- Overflow(f, mode, s, sat) of 05 R137. -/
def NF.overflow (f : NF) (mode : RM) (neg sat : Bool) : Nat :=
  if sat || !f.hasInf || mode == .rz || (mode == .ru && neg) || (mode == .rd && !neg) then f.maxf neg
  else f.inf neg

/-- RoundFmt(x, f, mode, sat) (05 R137, R139). -/
def NF.round (f : NF) (mode : RM) (sat : Bool) (x : Dy) (draw : Nat := 0) (lsb : Int := 0) : Rnd :=
  if x.isZero then ⟨f.signCode x.neg, 0, false⟩
  else
    let lg := x.lg
    let u := max lg f.emin - f.mb
    let (n, exact) := x.roundAt mode u draw lsb
    let tiny := lg < f.emin && (lg < f.emin - 1 ||
      (x.roundAt mode (lg - f.mb) draw lsb).1 < 2 ^ (f.mb + 1))
    if u > f.emax - f.mb || (u == f.emax - f.mb && n > f.maxMan) then
      ⟨f.overflow mode x.neg sat, exOF + exIX, false⟩
    else
      ⟨f.signCode x.neg + (u - (f.emin - f.mb)).toNat * 2 ^ f.mb + n,
        if exact then 0 else if tiny then exIX + exUF else exIX, tiny⟩

/-- A rounding with the result flush of 05 R143. -/
def NF.roundFtz (f : NF) (mode : RM) (sat ftz : Bool) (x : Dy) (draw : Nat := 0) (lsb : Int := 0) :
    Nat × Nat :=
  let r := f.round mode sat x draw lsb
  if ftz && f.flushes && r.tiny then (f.signCode x.neg, exUF + exIX) else (r.code, r.ex)

/-- FlushIn(v) (05 R160, R143). -/
def NF.flushIn (f : NF) (ftz : Bool) (c : Nat) : Nat :=
  if ftz && f.flushes && c / 2 ^ f.mb % 2 ^ f.eb == 0 then f.signCode (c / 2 ^ (f.eb + f.mb) % 2 == 1)
  else c

/-- The exact sum of two dyadics without sticky bits, with the sign of zero of 05 R138. -/
def Dy.add (mode : RM) (a b : Dy) : Dy :=
  if a.isZero && b.isZero then
    if a.neg == b.neg then a else ⟨mode == .rd, 0, 0, false⟩
  else
    let e := min a.exp b.exp
    let v (x : Dy) : Int :=
      let m : Int := (x.man * 2 ^ (x.exp - e).toNat : Nat)
      if x.neg then -m else m
    let s := v a + v b
    if s = 0 then ⟨mode == .rd, 0, 0, false⟩ else ⟨s < 0, s.natAbs, e, false⟩

/-- The exact product. -/
def Dy.mul (a b : Dy) : Dy := ⟨a.neg != b.neg, a.man * b.man, a.exp + b.exp, false⟩

/-- The exact scaling by 2^k. -/
def Dy.scale (x : Dy) (k : Int) : Dy := { x with exp := x.exp + k }

def FV.isSig : FV → Bool
  | .nan s => s
  | _ => false

def FV.isNan : FV → Bool
  | .nan _ => true
  | _ => false

/-- The exact product of two values; `none` for 0 × ∞ (05 R145). NaNs are handled before. -/
def FV.mul : FV → FV → Option FV
  | .fin a, .fin b => some (.fin (a.mul b))
  | .inf s, .inf t => some (.inf (s != t))
  | .inf s, .fin b => if b.isZero then none else some (.inf (s != b.neg))
  | .fin a, .inf t => if a.isZero then none else some (.inf (a.neg != t))
  | .nan s, _ => some (.nan s)
  | _, .nan s => some (.nan s)

/-- The exact sum of two values; `none` for ∞ − ∞ (05 R145). NaNs are handled before. -/
def FV.add (mode : RM) : FV → FV → Option FV
  | .fin a, .fin b => some (.fin (a.add mode b))
  | .inf s, .inf t => if s == t then some (.inf s) else none
  | .inf s, .fin _ => some (.inf s)
  | .fin _, .inf t => some (.inf t)
  | .nan s, _ => some (.nan s)
  | _, .nan s => some (.nan s)

def FV.neg : FV → FV
  | .fin d => .fin { d with neg := !d.neg }
  | .inf s => .inf !s
  | .nan s => .nan s

/-- Deliver an exact value in format f: NaN and invalid give Canon(f) (05 R144, R145). -/
def NF.deliver (f : NF) (mode : RM) (ftz : Bool) : Option FV → Nat × Nat
  | none => (f.canon, exIV)
  | some (.nan s) => (f.canon, if s then exIV else 0)
  | some (.inf s) => (f.inf s, 0)
  | some (.fin d) => f.roundFtz mode false ftz d

/-- An operation on flushed sources: a NaN source gives Canon(f), IV if one is signalling or the
operation is invalid (15 R383). `op` is the exact operation. -/
def NF.arith (f : NF) (mode : RM) (ftz : Bool) (srcs : List Nat) (op : List FV → Option FV) : Nat × Nat :=
  let vs := srcs.map fun c => f.unpack (f.flushIn ftz c)
  match op vs with
  | none => (f.canon, exIV)
  | some r =>
    if vs.any FV.isNan then (f.canon, if vs.any FV.isSig then exIV else 0)
    else f.deliver mode ftz (some r)

/-- FADD, and PADD per half (15 R383, 16 R419). -/
def NF.fadd (f : NF) (mode : RM) (ftz : Bool) (a b : Nat) : Nat × Nat :=
  f.arith mode ftz [a, b] fun | [x, y] => x.add mode y | _ => none

/-- FSUB (15 R383). -/
def NF.fsub (f : NF) (mode : RM) (ftz : Bool) (a b : Nat) : Nat × Nat :=
  f.arith mode ftz [a, b] fun | [x, y] => x.add mode y.neg | _ => none

/-- FMUL, and PMUL per half. -/
def NF.fmul (f : NF) (mode : RM) (ftz : Bool) (a b : Nat) : Nat × Nat :=
  f.arith mode ftz [a, b] fun | [x, y] => x.mul y | _ => none

/-- FMA, and PFMA per half: one rounding; 0 × ∞ raises IV even beside a quiet NaN addend. -/
def NF.fma (f : NF) (mode : RM) (ftz : Bool) (a b c : Nat) : Nat × Nat :=
  f.arith mode ftz [a, b, c] fun
    | [x, y, z] => match x.mul y with
      | some p => p.add mode z
      | none => none
    | _ => none

/-- A total order key of a non-NaN encoding: −0 and +0 differ by one. -/
def NF.key (f : NF) (c : Nat) : Int :=
  let m : Int := (c % 2 ^ (f.eb + f.mb) : Nat)
  if c / 2 ^ (f.eb + f.mb) % 2 == 1 then -m - 1 else m

/-- FMIN and FMAX, and PMIN and PMAX per half (15 R388). -/
def NF.fminmax (f : NF) (ftz mx : Bool) (a b : Nat) : Nat × Nat :=
  let a := f.flushIn ftz a
  let b := f.flushIn ftz b
  let x := f.unpack a
  let y := f.unpack b
  if x.isSig || y.isSig then (f.canon, exIV)
  else if x.isNan && y.isNan then (f.canon, 0)
  else if x.isNan then (b, 0)
  else if y.isNan then (a, 0)
  else if mx then (if f.key a < f.key b then b else a, 0)
  else (if f.key b < f.key a then b else a, 0)

/-- First(v): how a first value enters a reduction (05 R155). -/
def NF.first (f : NF) (ftz : Bool) (v : Nat) : Nat × Nat :=
  let v := f.flushIn ftz v
  match f.unpack v with
  | .nan s => (f.canon, if s then exIV else 0)
  | _ => (v, 0)

/-! ## Functions of one argument (05 R146, 15 R385) -/

/-- floor(√x), one bit of the root per unit of fuel, from bit `i − 1` down. -/
def isqrtFrom : Nat → Nat → Nat → Nat
  | 0, _, r => r
  | i + 1, x, r =>
    let r' := r + 2 ^ i
    isqrtFrom i x (if r' * r' ≤ x then r' else r)

/-- floor(√x). -/
def isqrt (x : Nat) : Nat := isqrtFrom (Nat.log2 x / 2 + 1) x 0

/-- floor(π / 2 × 2^400). -/
def halfPi400 : Nat :=
  0x1921fb54442d18469898cc51701b839a252049c1114cf98e804177d4c76273644a29410f31c6809bbdf2a33679a7486366056

/-- floor(ln 2 × 2^256). -/
def ln2x256 : Nat :=
  0xb17217f7d1cf79abc9e3b39803f2f6af40f343267298b62d8a0d175b8baafa2b

/-- The Taylor sum Σ t^k / k! in 256-bit fixed point, from term `t^k/k! = term` on. -/
def expTaylor (t : Nat) : Nat → Nat → Nat → Nat
  | 0, _, _ => 0
  | fuel + 1, k, term => term + expTaylor t fuel (k + 1) (term * t / 2 ^ 256 / (k + 1))

/-- 2^(f / 2^256) in 256-bit fixed point, for f below 2^256. -/
def exp2Fixed (f : Nat) : Nat := expTaylor (f * ln2x256 / 2 ^ 256) 64 0 (2 ^ 256)

/-- Σ ±r^k / k! over every other k (sine from k = 1, cosine from k = 0), 256-bit fixed point. -/
def trigTaylor (r : Nat) : Nat → Nat → Int → Int
  | 0, _, _ => 0
  | fuel + 1, k, term =>
    let r2 : Nat := r * r / (2 ^ 256 : Nat)
    let d : Nat := (k + 1) * (k + 2)
    term + trigTaylor r fuel (k + 2) (-(term * Int.ofNat r2 / 2 ^ 256) / Int.ofNat d)

/-- Σ z^k / k over odd k, 256-bit fixed point: atanh z. -/
def atanhTaylor (z : Nat) : Nat → Nat → Nat → Nat
  | 0, _, _ => 0
  | fuel + 1, k, pow => pow / k + atanhTaylor z fuel (k + 2) (pow * z / 2 ^ 256 * z / 2 ^ 256)

/-- The value just below the magnitude of x, on x's side of zero. -/
def Dy.justBelow (x : Dy) : Dy := ⟨x.neg, x.man * 2 ^ 64 - 1, x.exp - 64, true⟩

/-- The value just above the magnitude of x. -/
def Dy.justAbove (x : Dy) : Dy := ⟨x.neg, x.man * 2 ^ 64, x.exp - 64, true⟩

def Dy.one (neg : Bool) : Dy := ⟨neg, 1, 0, false⟩

/-- 1/x for a non-zero x. UNVERIFIED (log 16). -/
def Dy.rcp (x : Dy) : Dy :=
  let q := 2 ^ 128 / x.man
  ⟨x.neg, q, -x.exp - 128, q * x.man != 2 ^ 128⟩

/-- √x for a positive x. UNVERIFIED (log 16). -/
def Dy.sqrt (x : Dy) : Dy :=
  let m := if x.exp % 2 = 0 then x.man else 2 * x.man
  let e := if x.exp % 2 = 0 then x.exp else x.exp - 1
  let r := isqrt (m * 2 ^ 128)
  ⟨false, r, e / 2 - 64, r * r != m * 2 ^ 128⟩

/-- 1/√x for a positive x. UNVERIFIED (log 16). -/
def Dy.rsq (x : Dy) : Dy :=
  let m := if x.exp % 2 = 0 then x.man else 2 * x.man
  let e := if x.exp % 2 = 0 then x.exp else x.exp - 1
  let r := isqrt (2 ^ 256 / m)
  ⟨false, r, -(e / 2) - 128, r * r * m != 2 ^ 256⟩

/-- x as a signed 256-bit fixed-point number, for |x| below 2^64 and x.exp ≥ −256. -/
def Dy.fixed (x : Dy) : Int :=
  let m : Int := (x.man * 2 ^ (x.exp + 256).toNat : Nat)
  if x.neg then -m else m

/-- 2^x for a non-zero x. UNVERIFIED (log 16). -/
def Dy.exp2 (x : Dy) : Dy :=
  if x.lg ≥ 9 then (if x.neg then ⟨false, 1, -400, true⟩ else ⟨false, 1, 400, true⟩)
  else if x.lg < -40 then (if x.neg then (Dy.one false).justBelow else (Dy.one false).justAbove)
  else
    let v := x.fixed
    let i := v / 2 ^ 256
    let f := (v % 2 ^ 256).toNat
    if f == 0 then ⟨false, 1, i, false⟩ else ⟨false, exp2Fixed f, i - 256, true⟩

/-- log2 x for a positive x. UNVERIFIED (log 16). -/
def Dy.log2 (x : Dy) : Dy :=
  let e := x.lg
  let m := x.man * 2 ^ 256 / 2 ^ Nat.log2 x.man
  if m == 2 ^ 256 then ⟨e < 0, e.natAbs, 0, false⟩
  else
    let z := (m - 2 ^ 256) * 2 ^ 256 / (m + 2 ^ 256)
    let l : Nat := 2 * atanhTaylor z 90 1 z * 2 ^ 256 / ln2x256
    let v : Int := e * 2 ^ 256 + Int.ofNat l
    ⟨v < 0, v.natAbs, -256, true⟩

/-- sin x (or cos x) for a non-zero x: reduction by π/2 exact to 2^-270, then a Taylor sum.
UNVERIFIED (log 16). -/
def Dy.trig (x : Dy) (cos : Bool) : Dy :=
  if x.lg < -13 then (if cos then (Dy.one false).justBelow else x.justBelow)
  else
    let v := x.man * 2 ^ (x.exp + 400).toNat
    let k := v / halfPi400
    let r := (v - k * halfPi400) / 2 ^ 144
    let q := (if cos then k + 1 else k) % 4
    let m : Int := if q % 2 == 0 then trigTaylor r 40 1 (Int.ofNat r) else trigTaylor r 40 0 (2 ^ 256)
    let neg := (decide (q ≥ 2)) != (x.neg && !cos)
    ⟨neg != decide (m < 0), m.natAbs, -256, true⟩

/-- tanh x for a non-zero x. UNVERIFIED (log 16). -/
def Dy.tanh (x : Dy) : Dy :=
  if x.lg < -13 then x.justBelow
  else if x.lg ≥ 5 then (Dy.one x.neg).justBelow
  else
    let t := (2 * x.man * 2 ^ (x.exp + 256).toNat) * 2 ^ 256 / ln2x256
    let e := exp2Fixed (t % 2 ^ 256) * 2 ^ (t / 2 ^ 256)
    ⟨x.neg, (e - 2 ^ 256) * 2 ^ 256 / (e + 2 ^ 256), -256, true⟩

/-- The functions of 15 R385. -/
inductive Fun1 where
  | rcp | rsq | sqrt | ex2 | lg2 | sin | cos | tnh
  deriving DecidableEq, Repr

/-- The table of special values of 15 R385, then RoundF32 of the exact value (05 R146).
UNVERIFIED (log 16). -/
def Fun1.eval (g : Fun1) (mode : RM) (ftz : Bool) (c : Nat) : Nat × Nat :=
  let f := NF.f32
  let rnd (d : Dy) := f.roundFtz mode false ftz d
  match f.unpack (f.flushIn ftz c) with
  | .nan s => (f.canon, if s then exIV else 0)
  | .inf neg =>
    match g with
    | .rcp => (f.signCode neg, 0)
    | .rsq | .sqrt | .lg2 =>
      if neg then (f.canon, exIV) else if g == .rsq then (0, 0) else (f.inf false, 0)
    | .ex2 => (if neg then 0 else f.inf false, 0)
    | .sin | .cos => (f.canon, exIV)
    | .tnh => rnd (Dy.one neg)
  | .fin x =>
    if x.isZero then
      match g with
      | .rcp | .rsq => (f.inf x.neg, exDZ)
      | .sqrt | .sin | .tnh => (f.signCode x.neg, 0)
      | .ex2 | .cos => rnd (Dy.one false)
      | .lg2 => (f.inf true, exDZ)
    else
      match g with
      | .rcp => rnd x.rcp
      | .rsq => if x.neg then (f.canon, exIV) else rnd x.rsq
      | .sqrt => if x.neg then (f.canon, exIV) else rnd x.sqrt
      | .ex2 => rnd x.exp2
      | .lg2 => if x.neg then (f.canon, exIV) else rnd x.log2
      | .sin => rnd (x.trig false)
      | .cos => rnd (x.trig true)
      | .tnh => rnd x.tanh

/-! ## Classes, integral rounding, conversions -/

/-- The one-hot class of FCLS (15 R384). -/
def NF.classBit (f : NF) (c : Nat) : Nat :=
  match f.unpack c with
  | .nan s => if s then 0 else 1
  | .inf neg => if neg then 2 else 9
  | .fin d =>
    if d.isZero then (if d.neg then 5 else 6)
    else if c / 2 ^ f.mb % 2 ^ f.eb == 0 then (if d.neg then 4 else 7)
    else if d.neg then 3 else 8

/-- The integer a mode selects from an exact value, and whether it is the value (05 R149). -/
def Dy.toInt (x : Dy) (mode : RM) : Int × Bool :=
  let (n, exact) := x.roundAt mode 0 0 0
  (if x.neg then -(n : Int) else n, exact)

/-- FRND (15 R389). -/
def frndEval (mode : RM) (ftz : Bool) (c : Nat) : Nat × Nat :=
  let f := NF.f32
  let c := f.flushIn ftz c
  match f.unpack c with
  | .nan s => (f.canon, if s then exIV else 0)
  | .inf _ => (c, 0)
  | .fin d =>
    if d.exp ≥ 0 then (c, 0)
    else
      let n := (d.toInt mode).1.natAbs
      ((f.round .rne false ⟨d.neg, n, 0, false⟩).code, 0)

/-- The exponent of the source's ulp, LSB(x) of 05 R140. -/
def NF.lsbOf (f : NF) (d : Dy) : Int := if d.isZero then f.emin - f.mb else max d.lg f.emin - f.mb

/-- A conversion between FP formats (05 R148), with the flushes of 05 R143. -/
def cvtFp (src dst : NF) (mode : RM) (sat ftz : Bool) (draw c : Nat) : Nat × Nat :=
  match src.unpack (src.flushIn ftz c) with
  | .nan s => (dst.canon, if s then exIV else 0)
  | .inf neg =>
    if sat then (dst.maxf neg, 0)
    else if dst.hasInf then (dst.inf neg, 0)
    else (dst.canon, exIV)
  | .fin d => dst.roundFtz mode sat ftz d draw (src.lsbOf d)

/-- A conversion from FP32 to an integer of range [lo, hi] (05 R149). -/
def cvtToInt (lo hi : Int) (mode : RM) (ftz : Bool) (c : Nat) : Int × Nat :=
  match NF.f32.unpack (NF.f32.flushIn ftz c) with
  | .nan _ => (0, exIV)
  | .inf neg => (if neg then lo else hi, exIV)
  | .fin d =>
    let (n, exact) := d.toInt mode
    if n < lo then (lo, exIV) else if n > hi then (hi, exIV) else (n, if exact then 0 else exIX)

/-- A conversion from an integer to FP32 (05 R149). -/
def cvtFromInt (mode : RM) (ftz : Bool) (draw : Nat) (n : Int) : Nat × Nat :=
  NF.f32.roundFtz mode false ftz ⟨n < 0, n.natAbs, 0, false⟩ draw 0

/-! ## Stochastic rounding draws (05 R141) -/

/-- The key of a thread's generator. -/
def drawKey (seed bix : Word) (tix : Nat) : DWord :=
  (seed ++ bix : BitVec 64) + BitVec.ofNat 64 tix * 0xD1B54A32D192ED03

/-- Draw(key, c). -/
def drawN (key : DWord) (n : Nat) : DWord :=
  let z := key + 0x9E3779B97F4A7C15 * (BitVec.ofNat 64 n + 1)
  let z := (z ^^^ (z >>> 30)) * 0xBF58476D1CE4E5B9
  let z := (z ^^^ (z >>> 27)) * 0x94D049BB133111EB
  z ^^^ (z >>> 31)

/-- The draw that a thread's counter names (05 R141). -/
def draw (key : DWord) (c : Word) : DWord := drawN key c.toNat

/-! ## MX blocks (05 R156, R157) -/

/-- EMAX(f) of an MX element format. -/
def NF.mxEmax : NF → Int
  | .e4m3 => 8 | .e5m2 => 15 | .e2m3 => 2 | .e3m2 => 4 | .e2m1 => 2
  | f => f.emax

/-- MXScale: the scale code of a block of FP32 encodings. -/
def mxScale (xs : List Nat) (f : NF) : Nat :=
  let vs := xs.map NF.f32.unpack
  if vs.any fun | .fin _ => false | _ => true then 0xFF
  else
    let lgs := vs.filterMap fun | .fin d => if d.isZero then none else some d.lg | _ => none
    match lgs with
    | [] => 0x7F
    | l :: r => (min 254 (max 0 (r.foldl max l - f.mxEmax + 127))).toNat

/-- MXElem(x, scale, f, mode) with its exceptions; the caller has a scale below 0xFF. -/
def mxElem (x scale : Nat) (f : NF) (mode : RM) (draw : Nat) : Rnd :=
  match NF.f32.unpack x with
  | .fin d =>
    let k : Int := (scale : Int) - 127
    f.round mode true (d.scale (-k)) draw (NF.f32.lsbOf d - k)
  | _ => ⟨0, 0, false⟩

/-- Decode an element under a scale to FP32 (16 R413). -/
def mxDecode (f : NF) (e scale : Nat) : Nat :=
  if scale == 0xFF then NF.f32.canon
  else match f.unpack e with
    | .nan _ => NF.f32.canon
    | .inf neg => NF.f32.inf neg
    | .fin d => (NF.f32.round .rne false (d.scale ((scale : Int) - 127))).code

/-- FADD of an atomic: never flushes, raises nothing (14 R363). -/
def atomFadd (a b : Nat) : Nat := (NF.f32.fadd .rne false a b).1

/-! ## Matrix summation (05 R158) -/

/-- The exact sum of a block's products; `none` when it is NaN. A zero sum is −0 only when every
product is −0. -/
def blockSum (ps : List (Option FV)) : Option FV :=
  match ps with
  | [] => some (.fin ⟨false, 0, 0, false⟩)
  | p :: r => r.foldl (fun acc q => match acc, q with
      | some x, some y => if x.isNan || y.isNan then none else x.add .rne y
      | _, _ => none) (match p with
        | some x => if x.isNan then none else some x
        | none => none)

/-- One step acc + S of 05 R158; `none` is the canonical NaN, which stays. -/
def accStep (acc : Option Nat) (s : Option FV) : Option Nat :=
  match acc, s with
  | some a, some v =>
    match NF.f32.unpack a with
    | .nan _ => none
    | x => match x.add .rne v with
      | none => none
      | some r => if r.isNan then none else some (NF.f32.deliver .rne false (some r)).1
  | _, _ => none

/-- SatF32 (05 R158). -/
def satF32 (c : Nat) : Nat :=
  match NF.f32.unpack c with
  | .inf neg => NF.f32.maxf neg
  | _ => c

end Sys2Proof.Machine
end

