-- ==== Sys2Proof/Syntax.lean ====
section
/-! DEFINITION. The syntax of every step of the part: the 134 encoded instructions of 04 R123 with
their literals inside, and the 120 rows of the opcode table that have no encoding (spec/95). -/

namespace Sys2Proof

/-- A source operand (04 R121); a literal carries its words (03 R85). -/
inductive Src where
  | v (n : BitVec 6)
  | byp (n : BitVec 2)      -- BY1 to BY4, as n + 1 positions back (03 R86)
  | lit32 (w : Word)
  | lit64 (w : DWord)
  | zero
  | slot
  | q (n : BitVec 4)
  deriving DecidableEq, Repr

/-- A destination operand of format R (04 R121). -/
inductive Dst where
  | v (n : BitVec 6)
  | zero
  | q (n : BitVec 4)
  deriving DecidableEq, Repr

/-- The address register of formats M and MA (04 R121). -/
inductive AReg where
  | v (n : BitVec 6)
  | byp (n : BitVec 2)
  deriving DecidableEq, Repr

/-- The data operand of a store (04 R121). -/
inductive StData where
  | v (n : BitVec 6)
  | byp (n : BitVec 2)
  | zero
  deriving DecidableEq, Repr

/-- The offset of format M: OFF6, or one literal word (04 R117, R118). -/
inductive Off where
  | imm (o : BitVec 6)
  | lit (w : Word)
  deriving DecidableEq, Repr

/-- Fields of a two-source format R instruction (04 R116). -/
structure R3 where
  u : Bool
  nw : Bool
  d : Dst
  a : Src
  b : Src
  deriving DecidableEq, Repr

/-- Fields of a one-source format R instruction (04 R116). -/
structure R2 where
  u : Bool
  nw : Bool
  d : Dst
  a : Src
  deriving DecidableEq, Repr

/-- Fields of a compare: condition and predicate in D (04 R116, 15 R390). -/
structure Cmp where
  u : Bool
  cond : BitVec 4
  p : BitVec 3
  a : Src
  b : Src
  deriving DecidableEq, Repr

/-- Fields of a load of format M (04 R117). -/
structure Ld where
  u : Bool
  t : BitVec 3
  d : BitVec 6
  a : AReg
  off : Off
  deriving DecidableEq, Repr

/-- Fields of a store of format M (04 R117, R118). -/
structure St where
  u : Bool
  t : BitVec 3
  d : StData
  a : AReg
  off : Off
  deriving DecidableEq, Repr

/-- Fields of format MA (04 R119). -/
structure Atm where
  u : Bool
  aop : BitVec 4
  w : Bool
  d : BitVec 6
  a : AReg
  off : BitVec 4
  deriving DecidableEq, Repr

/-- Fields of BRA and CALL (04 R120). -/
structure Bra where
  u : Bool
  p : BitVec 3
  s : Bool
  disp : BitVec 19
  deriving DecidableEq, Repr

/-- Where VOTE puts its result (17 R451). -/
inductive VoteDst where
  | reg (d : Dst)
  | pred (p : BitVec 3)
  deriving DecidableEq, Repr

/-- A live-service operation that firmware starts on its own (01 R43). -/
inductive FwOp where
  | remap (core : Nat)
  | recal (port : Nat)
  | chspare (stack channel : Nat)
  deriving DecidableEq, Repr

/-- A window of the host link (12 R332). -/
inductive Window where
  | pkg
  | vd (v : Nat)
  deriving DecidableEq, Repr

/-- Which ring HEAD counter the host writes (12 R320, R332, 13 R350). -/
inductive RingKind where
  | dirty | usage | pageReq | trace
  deriving DecidableEq, Repr

/-- One step of the part: one constructor per row of spec/opcode_table.json. -/
inductive Instr where
  -- integer (15 R393)
  | iadd (r : R3) (x : Bool)
  | isub (r : R3) (x : Bool)
  | imul (r : R3)
  | imulh (r : R3) (x : Bool)
  | imad (r : R3) (x : Bool)
  | imin (r : R3) (x : Bool)
  | imax (r : R3) (x : Bool)
  | iabs (r : R2) (x : Bool)
  | idp4 (r : R3) (x : Bool)
  -- bits (14 R361, R369 to R371, R374; 16 R416, R421; 17 R442, R455)
  | and_ (r : R3)
  | or_ (r : R3)
  | xor_ (r : R3)
  | andn (r : R3)
  | shl (r : R3) (x : Bool)
  | shr (r : R3) (x : Bool)
  | popc (r : R2)
  | clz (r : R2)
  | brev (r : R2)
  | bfi (r : R3)
  | bfx (r : R3) (x : Bool)
  | bilv (r : R3) (x : Bool)
  | bdlv (r : R3) (x : Bool)
  -- FP32 (15 R382 to R385, R388)
  | fadd (r : R3)
  | fsub (r : R3)
  | fmul (r : R3)
  | fma (r : R3)
  | fmin (r : R3)
  | fmax (r : R3)
  | fabs (r : R2)
  | fneg (r : R2)
  | frcp (r : R2)
  | frsq (r : R2)
  | fsqrt (r : R2)
  | fex2 (r : R2)
  | flg2 (r : R2)
  | fsin (r : R2)
  | fcos (r : R2)
  | ftnh (r : R2)
  -- rounding, classes, packed, conversion, MX
  | frnd (r : R2) (sub : BitVec 7)
  | fcls (r : R2) (sub : BitVec 7)
  | padd (r : R3) (x : Bool)
  | pmul (r : R3) (x : Bool)
  | pfma (r : R3) (x : Bool)
  | pmin (r : R3) (x : Bool)
  | pmax (r : R3) (x : Bool)
  | cvt (r : R2) (pair : BitVec 5) (rnd : BitVec 2) (x : Bool)
  | mxscl (nw : Bool) (d : Dst) (a : Src) (fmt : BitVec 4)
  | mxpk (nw : Bool) (d : Dst) (a : Src) (rnd : BitVec 2) (fmt : BitVec 4)
  | mxupk (nw : Bool) (d : Dst) (a : Src) (fmt : BitVec 4)
  -- compares and predicates (15 R390, 16 R417, 17 R450, R438)
  | itst (c : Cmp) (x : Bool)
  | ftst (c : Cmp)
  | plog (u : Bool) (op : BitVec 4) (p pa pb : BitVec 3)
  | pval (u nw : Bool) (d : Dst) (pa : BitVec 3) (x : Bool)
  | vchk (u : Bool) (p : BitVec 3) (a : Src) (x : Bool)
  | selp (r : R3) (p : BitVec 3)
  -- cross-thread (17 R435 to R451, 15 R380, 16 R427, R430)
  | shfx (nw : Bool) (d : Dst) (a b : Src)
  | shfd (nw : Bool) (d : Dst) (a b : Src)
  | shfb (nw : Bool) (d : Dst) (a b : Src)
  | scan (nw : Bool) (d : Dst) (a : Src) (exc : Bool) (stp : BitVec 4)
  | redx (nw : Bool) (d : Dst) (a : Src) (stp : BitVec 4)
  | vote (nw : Bool) (d : VoteDst) (pa : BitVec 3) (mode : BitVec 2)
  | first (nw : Bool) (d : Dst) (a : Src) (last : Bool)
  | rank (nw : Bool) (d : Dst) (a : Src) (sub : BitVec 2)
  | elect (nw : Bool) (d : Dst) (slot : Bool)
  | ssint (nw : Bool) (d : Dst) (a b : Src)
  -- moves (16 R407 to R410, 14 R360, 17 R443, R449)
  | mov (r : R2) (w : Bool)
  | movs (u nw : Bool) (d : Dst) (sr : BitVec 7)
  | movsw (sr : BitVec 7) (a : Src)
  | movx (u nw : Bool) (d : Dst) (a : AReg)
  | movxw (u : Bool) (a : AReg) (b : Src)
  | aff (nw : Bool) (d : Dst) (a b : Src)
  | unif (d : BitVec 6) (w : Bool)
  | shtag (nw : Bool) (d : Dst) (a : BitVec 6)
  -- memory (15 R398, 17 R445, 16 R420, 14 R362, 16 R428, 15 R386, 17 R452, R454)
  | ldgB8 (m : Ld)
  | ldgB16 (m : Ld)
  | ldgB32 (m : Ld)
  | ldgB64 (m : Ld)
  | ldgB128 (m : Ld)
  | ldgS8 (m : Ld)
  | ldgS16 (m : Ld)
  | ldgAcq (m : Ld)
  | stgB8 (m : St)
  | stgB16 (m : St)
  | stgB32 (m : St)
  | stgB64 (m : St)
  | stgB128 (m : St)
  | pfg (u : Bool) (l1 : Bool) (a : AReg) (off : Off)
  | ldsB8 (m : Ld)
  | ldsB16 (m : Ld)
  | ldsB32 (m : Ld)
  | ldsB64 (m : Ld)
  | ldsB128 (m : Ld)
  | lda (m : Ld)
  | stsB8 (m : St)
  | stsB16 (m : St)
  | stsB32 (m : St)
  | stsB64 (m : St)
  | stsB128 (m : St)
  | sta (m : St)
  | atg (m : Atm)
  | ats (m : Atm)
  | redg (m : Atm)
  | reds (m : Atm)
  | fence (u : Bool) (kind : BitVec 2) (scope : BitVec 3)
  | waitc (u : Bool) (a : Src) (cls : BitVec 2)
  | waita (u nw : Bool) (d : Dst) (a : Src) (acq : Bool) (cond : BitVec 3)
  -- async (08 R226)
  | cpy (a : Src)
  | gath (a : Src)
  | mma (a : Src)
  | mbind (a : Src) (n : Bool)
  | aclr (a : Src)
  | adrn (a : Src)
  | coll (a : Src)
  -- control and system
  | bra (f : Bra)
  | call (f : Bra)
  | jmpr (u : Bool) (a : Src)
  | callr (u : Bool) (a : Src)
  | ret (u : Bool)
  | exit (u : Bool)
  | setm (disp : BitVec 19)
  | join (a : Src)
  | leave (p : BitVec 3)
  | bar (a : Src)
  | qcfg (qn : BitVec 4) (a : Src) (off : Bool)
  | qtry (u : Bool) (p : BitVec 3) (qn : BitVec 4) (b : Src) (w : Bool)
  | yld (u : Bool) (stage : Bool)
  | nap (u : Bool) (a : Src) (cnt : Bool)
  | trap (u : Bool) (n : BitVec 7)
  | rte (skip : Bool)
  | cmack (u : Bool) (a : Src)
  | lnch (nw : Bool) (d : Dst) (a b : Src)
  | rgna (u : Bool)
  | mark (u : Bool) (n : BitVec 7)
  -- package and map (01)
  | dieReset (die : Nat)
  | dieReturn (die : Nat)
  | dieLoss (die : Nat)
  | dieLossPublish (die : Nat)
  | stackLoss (stack : Nat)
  | mapDeadlineExpiry (ctx : Nat)
  | mapgrcWrite (v : Word)
  | lscmdBadop (op : BitVec 4)
  | fwLiveServiceStart (op : FwOp)
  | lsOpComplete (id : Nat) (ok : Bool)
  -- issue and lanes
  | fullIssue (core gid : Nat)
  | resumedIssue (core gid : Nat)
  | hClauseCut (core quad : Nat)
  | cutLaneFree (core lane : Nat)
  | loadDataReturn (core id : Nat) (serveOnly : Bool)
  | atomicResultReturn (core id : Nat)
  | reductionTakesEffect (core id : Nat)
  | fenceComplete (core id : Nat)
  | meetPushDone (core gid slot : Nat)
  | waitaWake (core gid : Nat)
  | napWake (core gid : Nat)
  | joinLeaveCopyDone (core gid : Nat)
  | trapEntry (core gid : Nat)
  -- memory system
  | l1LineEviction (core : Nat) (host : Bool) (line : Nat)
  | pageWalkComplete (die id : Nat)
  | pageResponse (v : Nat) (val : DWord)
  | pageRequestTimeout (v id : Nat)
  | tlbinvCtx (ctx : BitVec 12)
  | tlbinvRange (ctx : BitVec 12) (npg : BitVec 16)
  | regionEntryWrite (entry word : Nat) (val : DWord)
  | rflushGo (entry : BitVec 6)
  | keyInstall (slot : BitVec 6) (owner : BitVec 6)
  | keyClear (slot : BitVec 6) (owner : BitVec 6)
  | keySetkek (slot : BitVec 6) (owner : BitVec 6)
  -- queues and dispatcher
  | wqEnable (q : Nat) (ctl : DWord)
  | wqDisable (q : Nat) (ctl : DWord)
  | wqtailWrite (win : Window) (q : Nat) (val : Word)
  | packetTake (q : Nat)
  | waitCondRead (q i : Nat)
  | sinterSpillDone (core quad : Nat)
  | sinterRestore (core quad : Nat)
  | sinterRestoreDone (core quad : Nat)
  | launchComplete (id : Nat)
  | watchdogExpiry (id : Nat)
  | lnchQueueStep (core id : Nat)
  -- engines
  | accportOpStart (core : Nat)
  | mmaBConsumed (core id : Nat)
  | asyncOpFinish (core id : Nat)
  | asyncOpFault (core id : Nat)
  -- partitions
  | pmGo (mask : BitVec 16)
  | pmCancel (mask : BitVec 16)
  | pqnWrite (p : Nat) (b : Bool) (val : DWord)
  -- contexts
  | ctxCreate (ctx : BitVec 12)
  | ctxDestroy (ctx : BitVec 12)
  | ctxPreempt (ctx : BitVec 12)
  | ctxResume (ctx : BitVec 12)
  | ctxDbggrant (ctx : BitVec 12)
  | ctxDbgrevoke (ctx : BitVec 12)
  | ctxcmdBadop (ctx : BitVec 12) (op : BitVec 4)
  | ctxSaveDone (ctx : Nat)
  | ctxRestoreDone (ctx : Nat)
  | timeSliceExpiry (ctx : Nat)
  | autoResume (ctx : Nat)
  -- virtual devices
  | vdCreate (v : Nat)
  | vdStop (v : Nat)
  | vdStopDone (v : Nat)
  | vdResume (v : Nat)
  | vdReset (v : Nat)
  | vdResetDone (v : Nat)
  | vdDestroy (v : Nat)
  | vdSign (v : Nat) (window : Bool)
  | vdcmdBadop (v : Nat) (op : BitVec 4)
  | prtoWrite (v : Nat) (val : Word)
  | checkpointTick (v : Nat)
  | attestRequest (v : Nat) (dpa : DWord)
  | attestReportDone (v : Nat)
  | dlepochWrite (v : Nat)
  | ringHeadWrite (v : Nat) (ring : RingKind) (val : Word)
  | irqstWrite (win : Window) (val : Word)
  -- fabric
  | fabricFrameReceive (tag : BitVec 16) (src : Nat) (payload : List Byte)
  | fabricAbortReceive (tag : BitVec 16)
  | chcfgWrite (v c : Nat) (val : DWord)
  | fabricGroupWrite (g off : Nat) (val : Word)
  -- class regulation, power
  | clsregWrite (die : Nat) (val : DWord)
  | pwrcapWrite (val : DWord)
  | powerCapMeasure (power : Nat) (move : Bool) (hfrac : BitVec 8)
  | droopDetected (core : Nat)
  | droopRecovered (core : Nat)
  -- observation and debug
  | fumctlWrite (val : DWord)
  | fumheadWrite (val : DWord)
  | fumaroleTick (busy : Bool)
  | traceSample (core : Nat)
  | dbgHalt (v : Nat) (cmd : DWord)
  | dbgRun (v : Nat) (cmd : DWord)
  | dbgStep (v : Nat) (cmd : DWord)
  | dbgRdreg (v : Nat) (cmd : DWord)
  | dbgWrreg (v : Nat) (cmd : DWord)
  | dbgBpset (v : Nat) (cmd : DWord)
  | dbgBpclr (v : Nat) (cmd : DWord)
  | dbgcmdBadop (v : Nat) (cmd : DWord)
  | registerWrite (win : Window) (off : Nat) (val : DWord)
  | storeTakesEffect (core id : Nat)
  | hostWrite (dpa : Nat) (bytes : List Byte)
  | bBufferFree (core : Nat)
  | currentBelowLimit (clear : Bool)
  -- steps without operands
  | bkpt
  | packageReset
  | hostLinkRetrain
  | lsRemap
  | lsRecal
  | lsChspare
  | lsFwload
  | lsFwswitch
  | lsRebin
  | tlbinvAll
  | tlbinvDone
  | rflushDone
  | placement
  | pmTakeEffect
  | usageIntervalTick
  | currentLimitExceeded
  deriving DecidableEq, Repr

end Sys2Proof
end

