-- ==== Sys2Proof/WellFormed.lean ====
section
/-! DEFINITION. The checks an instruction must pass at decode beyond its opcode (04 R116 to R122,
R124 item 3): each `false` is the spec's ILLEGAL_OPERAND. -/

namespace Sys2Proof

/-- A register number that a pair may begin at (03 R82). -/
def evenReg (n : BitVec 6) : Bool := n.toNat % 2 == 0

/-- A source in a 32-bit position (04 R121). -/
def Src.is32 : Src → Bool
  | .lit64 _ => false
  | _ => true

/-- A source in a pair position (04 R121). -/
def Src.isPair : Src → Bool
  | .lit32 _ => false
  | .q _ => false
  | .v n => evenReg n
  | _ => true

/-- A destination in a pair position (04 R121). -/
def Dst.isPair : Dst → Bool
  | .v n => evenReg n
  | .zero => true
  | .q _ => false

def R3.is32 (r : R3) : Bool := r.a.is32 && r.b.is32
def R2.is32 (r : R2) : Bool := r.a.is32

/-- An address register of a global access is an even pair (04 R117, R121). -/
def AReg.isPair : AReg → Bool
  | .v n => evenReg n
  | .byp _ => true

/-- OFF6 = 100000b announces the literal, so it is no immediate (04 R117). -/
def Off.ok : Off → Bool
  | .imm o => o.toNat != 32
  | .lit _ => true

/-- The offset literal of LDS: [31:27] zero and SW below 7 (04 R118). -/
def Off.okLds : Off → Bool
  | .imm o => o.toNat != 32
  | .lit w => w.toNat / 2 ^ 27 == 0 && w.toNat / 2 ^ 24 % 8 != 7

/-- The offset literal of STS, LDA and STA: [31:24] zero (04 R118). -/
def Off.ok24 : Off → Bool
  | .imm o => o.toNat != 32
  | .lit w => w.toNat / 2 ^ 24 == 0

/-- A load destination of `n` words (04 R117). -/
def okDst (n : Nat) (d : BitVec 6) : Bool := d.toNat % n == 0

/-- The data of a store of `n` words (04 R121: no BY code in a quad position). -/
def StData.ok (n : Nat) : StData → Bool
  | .v d => d.toNat % n == 0
  | .byp _ => n != 4
  | .zero => true

def Ld.okG (m : Ld) (n : Nat) : Bool := m.t.toNat != 7 && okDst n m.d && m.a.isPair && m.off.ok
def Ld.okS (m : Ld) (n : Nat) : Bool := m.t.toNat != 7 && okDst n m.d && m.off.okLds
def St.okG (m : St) (n : Nat) : Bool := decide (m.t.toNat < 4) && m.d.ok n && m.a.isPair && m.off.ok
def St.okS (m : St) (n : Nat) : Bool := m.t.toNat != 7 && m.d.ok n && m.off.ok24

/-- The atomic operation codes (04 R119, 14 R362). -/
def Atm.ok (m : Atm) (red glob : Bool) : Bool :=
  decide (m.aop.toNat ≤ 12) && !(m.aop.toNat == 12 && m.w) && (!m.w || evenReg m.d)
    && (!red || (m.aop.toNat != 8 && m.aop.toNat != 9))
    && (m.aop.toNat != 9 || decide (m.d.toNat ≤ if m.w then 60 else 62))
    && (!glob || m.a.isPair)

/-- The special-register numbers of 03 R97 that hold 32 bits. -/
def sr32 (n : Nat) : Bool := decide (n ≤ 0x16)
/-- The special-register numbers of 03 R97 that hold 64 bits. -/
def sr64 (n : Nat) : Bool := decide (0x20 ≤ n) && decide (n ≤ 0x2E) && n % 2 == 0
/-- The special registers that MOVSW writes (16 R408). -/
def srWritable (n : Nat) : Bool := n == 0x09 || n == 0x0A || n == 0x0B || n == 0x0C || n == 0x24

/-- The decode checks of 04 R124 item 3, per instruction. -/
def Instr.wf : Instr → Bool
  | .iadd r _ | .isub r _ | .imul r | .imulh r _ | .imin r _ | .imax r _ | .idp4 r _ => r.is32
  | .imad r x => r.is32 && (!x || r.d.isPair)
  | .iabs r _ => r.is32
  | .and_ r | .or_ r | .xor_ r | .andn r => r.is32
  | .shl r _ | .shr r _ => r.is32
  | .popc r | .clz r | .brev r => r.is32
  | .bfi r => r.a.is32 && r.b.isPair
  | .bfx r _ | .bilv r _ | .bdlv r _ => r.is32
  | .fadd r | .fsub r | .fmul r | .fma r | .fmin r | .fmax r => r.is32
  | .fabs r | .fneg r | .frcp r | .frsq r | .fsqrt r | .fex2 r | .flg2 r | .fsin r | .fcos r
  | .ftnh r => r.is32
  | .frnd r sub => r.is32 && decide (sub.toNat ≤ 4)
  | .fcls r sub => r.is32 && decide (sub.toNat ≤ 2)
  | .padd r _ | .pmul r _ | .pfma r _ | .pmin r _ | .pmax r _ => r.is32
  | .cvt r pair rnd x =>
      r.is32 && decide (pair.toNat ≤ 13) && (!x || decide (pair.toNat ≤ 3))
        && !(rnd.toNat == 3 && (pair.toNat == 8 || pair.toNat == 9 || pair.toNat == 12 || pair.toNat == 13))
  | .mxscl _ _ a f | .mxupk _ _ a f => a.is32 && decide (3 ≤ f.toNat) && decide (f.toNat ≤ 7)
  | .mxpk _ _ a rnd f =>
      a.is32 && decide (3 ≤ f.toNat) && decide (f.toNat ≤ 7) && rnd.toNat != 3
  | .itst c _ => c.a.is32 && c.b.is32 && decide (c.cond.toNat ≤ 5)
  | .ftst c => c.a.is32 && c.b.is32 && decide (c.cond.toNat ≤ 13)
  | .plog _ op _ _ pb => decide (op.toNat ≤ 4) && (op.toNat != 4 || pb.toNat == 0)
  | .pval .. => true
  | .vchk u _ a x => a.is32 && !(u && x)
  | .selp r _ => r.is32
  | .shfx _ _ a b | .shfd _ _ a b | .shfb _ _ a b | .ssint _ _ a b => a.is32 && b.is32
  | .scan _ _ a _ s => a.is32 && decide (s.toNat ≤ 10)
  | .redx _ _ a s => a.is32 && decide (s.toNat ≤ 10)
  | .vote nw d _ mode =>
      match d with
      | .reg _ => true
      | .pred _ => !nw && mode.toNat != 2
  | .first _ _ a _ => a.is32
  | .rank _ _ a sub => a.is32 && sub.toNat != 3 && (sub.toNat != 2 || a == .v 0)
  | .elect .. => true
  | .mov r w => if w then r.a.isPair && r.d.isPair else r.is32
  | .movs _ _ d sr => sr32 sr.toNat || (sr64 sr.toNat && d.isPair)
  | .movsw sr a => srWritable sr.toNat && (if sr.toNat == 0x24 then a.isPair else a.is32)
  | .movx .. => true
  | .movxw _ _ b => b.is32
  | .aff _ _ a b => a.is32 && b.is32
  | .unif d w => !w || evenReg d
  | .shtag .. => true
  | .ldgB8 m | .ldgB16 m | .ldgB32 m | .ldgS8 m | .ldgS16 m => m.okG 1
  | .ldgB64 m => m.okG 2
  | .ldgB128 m => m.okG 4
  | .ldgAcq m => m.okG 1 && m.t.toNat == 6
  | .stgB8 m | .stgB16 m | .stgB32 m => m.okG 1
  | .stgB64 m => m.okG 2
  | .stgB128 m => m.okG 4
  | .pfg _ _ a off => a.isPair && off.ok
  | .ldsB8 m | .ldsB16 m | .ldsB32 m => m.okS 1
  | .ldsB64 m => m.okS 2
  | .ldsB128 m => m.okS 4
  | .lda m => m.t.toNat != 7 && m.off.ok24
  | .stsB8 m | .stsB16 m | .stsB32 m => m.okS 1
  | .stsB64 m => m.okS 2
  | .stsB128 m => m.okS 4
  | .sta m => m.t.toNat == 0 && m.off.ok24
  | .atg m => m.ok false true
  | .ats m => m.ok false false
  | .redg m => m.ok true true
  | .reds m => m.ok true false
  | .fence _ kind scope => kind.toNat != 0 && decide (scope.toNat ≤ 4)
  | .waitc _ a _ => a.is32
  | .waita _ _ _ a _ cond => a.isPair && decide (cond.toNat ≤ 5)
  | .cpy a | .gath a | .mma a | .mbind a _ | .aclr a | .adrn a | .coll a => a.is32
  | .bra _ | .call _ => true
  | .jmpr _ a | .callr _ a => a.isPair
  | .ret _ | .exit _ | .setm _ => true
  | .join a => a.is32
  | .leave _ => true
  | .bar a => a.is32
  | .qcfg _ a off => a.is32 && (!off || a == .v 0)
  | .qtry _ _ _ b _ => b.is32
  | .yld .. => true
  | .nap _ a _ => a.is32
  | .trap .. | .rte _ | .bkpt => true
  | .cmack _ a => a.isPair
  | .lnch _ d a b => a.is32 && b.is32 && (match d with | .q _ => false | _ => true)
  | .rgna _ | .mark .. => true
  -- rows without an encoding carry nothing to check
  | _ => true

end Sys2Proof
end

