-- ==== Sys2Proof/Decode.lean ====
section
/-! DEFINITION. The decoder, total on any word and literals (04 R104 to R124), and the encoder
written from the same tables. Instruction words are read as numbers, bit 0 least significant. -/

namespace Sys2Proof

/-- Bits [lo + n − 1 : lo] of a word (00 R2). -/
def fld (w lo n : Nat) : Nat := w / 2 ^ lo % 2 ^ n

/-- Bit `i` of a word. -/
def bitAt (w i : Nat) : Bool := w / 2 ^ i % 2 == 1

/-- Why a word is no instruction (04 R124 items 2 and 3). -/
inductive DErr where
  | opcode
  | operand
  deriving DecidableEq, Repr

/-- What the decoder makes of a word: an instruction, or why it is none. -/
inductive DRes where
  | ok (i : Instr)
  | error (e : DErr)
  deriving DecidableEq, Repr

/-- The clause class of an opcode (04 R111); `none` for 0xC0 to 0xCF, which are never
instructions, and for opcodes outside the classes' ranges. -/
def classOf (op : Nat) : Option Nat :=
  if op < 0x70 then some 0
  else if 0x80 ≤ op && op < 0xB0 then some 1
  else if 0xB0 ≤ op && op < 0xC0 then some 2
  else if 0xD0 ≤ op && op < 0xFF then some 3
  else none

/-- The assigned opcodes (04 R123). -/
def assigned (op : Nat) : Bool :=
  op ≤ 0x08 || (0x10 ≤ op && op ≤ 0x1C) || (0x20 ≤ op && op ≤ 0x2F) || (0x30 ≤ op && op ≤ 0x3A)
    || (0x40 ≤ op && op ≤ 0x44) || (0x48 ≤ op && op ≤ 0x4F) || (0x50 ≤ op && op ≤ 0x59)
    || (0x60 ≤ op && op ≤ 0x67) || (0x80 ≤ op && op ≤ 0x8C) || op == 0x8F
    || (0x90 ≤ op && op ≤ 0x95) || (0x98 ≤ op && op ≤ 0x9D) || (0xA0 ≤ op && op ≤ 0xA3)
    || (0xA8 ≤ op && op ≤ 0xAA) || (0xB0 ≤ op && op ≤ 0xB6) || (0xD0 ≤ op && op ≤ 0xD6)
    || (0xE0 ≤ op && op ≤ 0xE6) || (0xF0 ≤ op && op ≤ 0xF6)

/-- The control transfers, which stand only at position COUNT (04 R111). -/
def isTransfer (op : Nat) : Bool :=
  op == 0xD0 || op == 0xD1 || op == 0xD2 || op == 0xD3 || op == 0xD4 || op == 0xD5
    || op == 0xF1 || op == 0xF5

/-- The opcodes whose B field is a subfunction (04 R116). -/
def isSubfn (op : Nat) : Bool :=
  op == 0x30 || op == 0x31 || op == 0x37 || op == 0x38 || op == 0x39 || op == 0x3A
    || op == 0x53 || op == 0x54 || op == 0x55 || op == 0x56 || op == 0x57 || op == 0x58
    || op == 0x61 || op == 0x62 || op == 0xA8 || op == 0xA9 || op == 0xAA
    || op == 0xE5 || op == 0xE6 || op == 0xF0 || op == 0xF2 || op == 0xF6

/-- The formats of 04 R123. -/
inductive Fmt where
  | r | m | ma | b
  deriving DecidableEq, Repr

/-- The format of an assigned opcode (04 R123). -/
def fmtOf (op : Nat) : Fmt :=
  if 0x80 ≤ op && op ≤ 0x9F then .m
  else if 0xA0 ≤ op && op ≤ 0xA3 then .ma
  else if op == 0xD0 || op == 0xD1 || op == 0xD6 then .b
  else .r

/-- Literal words that an operand code of format R brings (04 R105). -/
def litsOf (code : Nat) : Nat := if code == 0x44 then 1 else if code == 0x45 then 2 else 0

/-- How many literal words follow an instruction word, legal or not (04 R105). -/
def litCount (w : Nat) : Nat :=
  let op := fld w 24 8
  if !assigned op then 0
  else match fmtOf op with
    | .r => litsOf (fld w 8 7) + (if isSubfn op then 0 else litsOf (fld w 1 7))
    | .m => if fld w 0 6 == 32 then 1 else 0
    | .ma => 0
    | .b => 0

/-- A source operand from its code, taking its literal words (04 R121, 03 R85). -/
def srcOf (code : Nat) (ls : List Word) : Option (Src × List Word) :=
  if code < 0x40 then some (.v (BitVec.ofNat 6 code), ls)
  else if code < 0x44 then some (.byp (BitVec.ofNat 2 (code - 0x40)), ls)
  else if code == 0x44 then
    match ls with
    | l :: r => some (.lit32 l, r)
    | _ => none
  else if code == 0x45 then
    match ls with
    | lo :: hi :: r => some (.lit64 (hi ++ lo), r)
    | _ => none
  else if code == 0x46 then some (.zero, ls)
  else if code == 0x47 then some (.slot, ls)
  else if 0x50 ≤ code && code < 0x60 then some (.q (BitVec.ofNat 4 (code - 0x50)), ls)
  else none

/-- A destination operand of format R (04 R121). -/
def dstOf (code : Nat) : Option Dst :=
  if code < 0x40 then some (.v (BitVec.ofNat 6 code))
  else if code == 0x46 then some .zero
  else if 0x50 ≤ code && code < 0x60 then some (.q (BitVec.ofNat 4 (code - 0x50)))
  else none

/-- A V register code. -/
def vregOf (code : Nat) : Option (BitVec 6) :=
  if code < 0x40 then some (BitVec.ofNat 6 code) else none

/-- The address register of formats M and MA (04 R121). -/
def aregOf (code : Nat) : Option AReg :=
  if code < 0x40 then some (.v (BitVec.ofNat 6 code))
  else if code < 0x44 then some (.byp (BitVec.ofNat 2 (code - 0x40)))
  else none

/-- The data operand of a store (04 R121). -/
def stDataOf (code : Nat) : Option StData :=
  if code < 0x40 then some (.v (BitVec.ofNat 6 code))
  else if code < 0x44 then some (.byp (BitVec.ofNat 2 (code - 0x40)))
  else if code == 0x46 then some .zero
  else none

/-- A channel code, 0x50 to 0x5F (16 R422). -/
def chanOf (code : Nat) : Option (BitVec 4) :=
  if 0x50 ≤ code && code < 0x60 then some (BitVec.ofNat 4 (code - 0x50)) else none

def uBit (w : Nat) : Bool := bitAt w 23
def nwBit (w : Nat) : Bool := bitAt w 22
def xBit (w : Nat) : Bool := bitAt w 0

/-- The fields of a two-source format R word (04 R116). -/
def mkR3 (w : Nat) (ls : List Word) : Option R3 :=
  match dstOf (fld w 15 7), srcOf (fld w 8 7) ls with
  | some d, some (a, r) =>
    match srcOf (fld w 1 7) r with
    | some (b, _) => some ⟨uBit w, nwBit w, d, a, b⟩
    | none => none
  | _, _ => none

/-- The fields of a one-source format R word (04 R116). -/
def mkR2 (w : Nat) (ls : List Word) : Option R2 :=
  match dstOf (fld w 15 7), srcOf (fld w 8 7) ls with
  | some d, some (a, _) => some ⟨uBit w, nwBit w, d, a⟩
  | _, _ => none

def dec3 (w : Nat) (ls : List Word) (f : R3 → Instr) : Option Instr :=
  if xBit w then none else (mkR3 w ls).map f

def dec3x (w : Nat) (ls : List Word) (f : R3 → Bool → Instr) : Option Instr :=
  (mkR3 w ls).map (f · (xBit w))

def dec2 (w : Nat) (ls : List Word) (f : R2 → Instr) : Option Instr :=
  if fld w 0 8 == 0 then (mkR2 w ls).map f else none

def dec2x (w : Nat) (ls : List Word) (f : R2 → Bool → Instr) : Option Instr :=
  if fld w 1 7 == 0 then (mkR2 w ls).map (f · (xBit w)) else none

/-- One source with B a subfunction and X = 0. -/
def decSub (w : Nat) (ls : List Word) (f : R2 → BitVec 7 → Instr) : Option Instr :=
  if xBit w then none else (mkR2 w ls).map (f · (BitVec.ofNat 7 (fld w 1 7)))

/-- Two sources with U = 0 and X = 0 (17 R435). -/
def decX3 (w : Nat) (ls : List Word) (f : Bool → Dst → Src → Src → Instr) : Option Instr :=
  if xBit w || uBit w then none else (mkR3 w ls).map fun r => f r.nw r.d r.a r.b

/-- One source with U = 0, X = 0 and B a subfunction (17 R435). -/
def decX2 (w : Nat) (ls : List Word) (f : Bool → Dst → Src → Nat → Option Instr) : Option Instr :=
  if xBit w || uBit w then none else (mkR2 w ls).bind fun r => f r.nw r.d r.a (fld w 1 7)

/-- The fields of a compare (04 R116, 15 R390); NW must be 0. -/
def decCmp (w : Nat) (ls : List Word) (f : Cmp → Bool → Option Instr) : Option Instr :=
  if nwBit w then none else
  match srcOf (fld w 8 7) ls with
  | some (a, r) =>
    match srcOf (fld w 1 7) r with
    | some (b, _) =>
      f ⟨uBit w, BitVec.ofNat 4 (fld w 18 4), BitVec.ofNat 3 (fld w 15 3), a, b⟩ (xBit w)
    | none => none
  | none => none

/-- OFF6 or the offset literal (04 R117). -/
def offOf (w : Nat) (ls : List Word) : Option Off :=
  if fld w 0 6 == 32 then
    match ls with
    | l :: _ => some (.lit l)
    | [] => none
  else some (.imm (BitVec.ofNat 6 (fld w 0 6)))

def decLd (w : Nat) (ls : List Word) (f : Ld → Instr) : Option Instr :=
  match vregOf (fld w 13 7), aregOf (fld w 6 7), offOf w ls with
  | some d, some a, some o => some (f ⟨uBit w, BitVec.ofNat 3 (fld w 20 3), d, a, o⟩)
  | _, _, _ => none

def decSt (w : Nat) (ls : List Word) (f : St → Instr) : Option Instr :=
  match stDataOf (fld w 13 7), aregOf (fld w 6 7), offOf w ls with
  | some d, some a, some o => some (f ⟨uBit w, BitVec.ofNat 3 (fld w 20 3), d, a, o⟩)
  | _, _, _ => none

def decAtm (w : Nat) (f : Atm → Instr) : Option Instr :=
  match vregOf (fld w 11 7), aregOf (fld w 4 7) with
  | some d, some a =>
    some (f ⟨uBit w, BitVec.ofNat 4 (fld w 19 4), bitAt w 18, d, a, BitVec.ofNat 4 (fld w 0 4)⟩)
  | _, _ => none

/-- The seven async instructions: U = 1, NW = 0, D = 0, B = 0 (08 R226). -/
def decAsync (w : Nat) (ls : List Word) (f : Src → Bool → Option Instr) : Option Instr :=
  if fld w 15 9 == 0x100 && fld w 1 7 == 0 then
    (srcOf (fld w 8 7) ls).bind fun a => f a.1 (xBit w)
  else none

/-- Only A is an operand: NW, D, B and X zero; U may be set. -/
def decA (w : Nat) (ls : List Word) (f : Bool → Src → Instr) : Option Instr :=
  if fld w 15 8 == 0 && fld w 0 8 == 0 then
    (srcOf (fld w 8 7) ls).map fun a => f (uBit w) a.1
  else none

def decBra (w : Nat) (f : Bra → Instr) : Option Instr :=
  some (f ⟨uBit w, BitVec.ofNat 3 (fld w 20 3), bitAt w 19, BitVec.ofNat 19 (fld w 0 19)⟩)

/-- No operand at all: bits [22:0] zero but for U (04 R122). -/
def decU (w : Nat) (f : Bool → Instr) : Option Instr :=
  if fld w 0 23 == 0 then some (f (uBit w)) else none

/-- The integer and bit opcodes, 0x00 to 0x1C. -/
def decodeInt (op w : Nat) (ls : List Word) : Option Instr :=
  match op with
  | 0x00 => dec3x w ls .iadd
  | 0x01 => dec3x w ls .isub
  | 0x02 => dec3 w ls .imul
  | 0x03 => dec3x w ls .imulh
  | 0x04 => dec3x w ls .imad
  | 0x05 => dec3x w ls .imin
  | 0x06 => dec3x w ls .imax
  | 0x07 => dec2x w ls .iabs
  | 0x08 => dec3x w ls .idp4
  | 0x10 => dec3 w ls .and_
  | 0x11 => dec3 w ls .or_
  | 0x12 => dec3 w ls .xor_
  | 0x13 => dec3 w ls .andn
  | 0x14 => dec3x w ls .shl
  | 0x15 => dec3x w ls .shr
  | 0x16 => dec2 w ls .popc
  | 0x17 => dec2 w ls .clz
  | 0x18 => dec2 w ls .brev
  | 0x19 => dec3 w ls .bfi
  | 0x1A => dec3x w ls .bfx
  | 0x1B => dec3x w ls .bilv
  | 0x1C => dec3x w ls .bdlv
  | _ => none

/-- The floating-point, packed, conversion and MX opcodes, 0x20 to 0x3A. -/
def decodeFp (op w : Nat) (ls : List Word) : Option Instr :=
  match op with
  | 0x20 => dec3 w ls .fadd
  | 0x21 => dec3 w ls .fsub
  | 0x22 => dec3 w ls .fmul
  | 0x23 => dec3 w ls .fma
  | 0x24 => dec3 w ls .fmin
  | 0x25 => dec3 w ls .fmax
  | 0x26 => dec2 w ls .fabs
  | 0x27 => dec2 w ls .fneg
  | 0x28 => dec2 w ls .frcp
  | 0x29 => dec2 w ls .frsq
  | 0x2A => dec2 w ls .fsqrt
  | 0x2B => dec2 w ls .fex2
  | 0x2C => dec2 w ls .flg2
  | 0x2D => dec2 w ls .fsin
  | 0x2E => dec2 w ls .fcos
  | 0x2F => dec2 w ls .ftnh
  | 0x30 => decSub w ls .frnd
  | 0x31 => decSub w ls .fcls
  | 0x32 => dec3x w ls .padd
  | 0x33 => dec3x w ls .pmul
  | 0x34 => dec3x w ls .pfma
  | 0x35 => dec3x w ls .pmin
  | 0x36 => dec3x w ls .pmax
  | 0x37 => (mkR2 w ls).map fun r =>
      .cvt r (BitVec.ofNat 5 (fld w 3 5)) (BitVec.ofNat 2 (fld w 1 2)) (xBit w)
  | 0x38 => decX2 w ls fun nw d a s => if s < 16 then some (.mxscl nw d a (BitVec.ofNat 4 s)) else none
  | 0x39 => decX2 w ls fun nw d a s =>
      if s < 64 then some (.mxpk nw d a (BitVec.ofNat 2 (s / 16)) (BitVec.ofNat 4 s)) else none
  | 0x3A => decX2 w ls fun nw d a s => if s < 16 then some (.mxupk nw d a (BitVec.ofNat 4 s)) else none
  | _ => none

/-- Compares, predicates, cross-thread instructions and moves, 0x40 to 0x67. -/
def decodeMove (op w : Nat) (ls : List Word) : Option Instr :=
  match op with
  | 0x40 => decCmp w ls fun c x => some (.itst c x)
  | 0x41 => decCmp w ls fun c x => if x then none else some (.ftst c)
  | 0x42 =>
    if nwBit w || xBit w || fld w 11 4 != 0 || fld w 4 4 != 0 then none
    else some (.plog (uBit w) (BitVec.ofNat 4 (fld w 18 4)) (BitVec.ofNat 3 (fld w 15 3))
      (BitVec.ofNat 3 (fld w 8 3)) (BitVec.ofNat 3 (fld w 1 3)))
  | 0x43 =>
    if fld w 11 4 != 0 || fld w 1 7 != 0 then none
    else (dstOf (fld w 15 7)).map fun d =>
      .pval (uBit w) (nwBit w) d (BitVec.ofNat 3 (fld w 8 3)) (xBit w)
  | 0x44 =>
    if nwBit w || fld w 18 4 != 0 || fld w 1 7 != 0 then none
    else (srcOf (fld w 8 7) ls).map fun a =>
      .vchk (uBit w) (BitVec.ofNat 3 (fld w 15 3)) a.1 (xBit w)
  | 0x48 => dec3 w ls (.selp · 0)
  | 0x49 => dec3 w ls (.selp · 1)
  | 0x4A => dec3 w ls (.selp · 2)
  | 0x4B => dec3 w ls (.selp · 3)
  | 0x4C => dec3 w ls (.selp · 4)
  | 0x4D => dec3 w ls (.selp · 5)
  | 0x4E => dec3 w ls (.selp · 6)
  | 0x4F => dec3 w ls (.selp · 7)
  | 0x50 => decX3 w ls .shfx
  | 0x51 => decX3 w ls .shfd
  | 0x52 => decX3 w ls .shfb
  | 0x53 => decX2 w ls fun nw d a s =>
      if s < 32 then some (.scan nw d a (decide (16 ≤ s)) (BitVec.ofNat 4 s)) else none
  | 0x54 => decX2 w ls fun nw d a s => if s < 16 then some (.redx nw d a (BitVec.ofNat 4 s)) else none
  | 0x55 =>
    if uBit w || xBit w || fld w 11 4 != 0 || fld w 4 4 != 0 then none
    else if bitAt w 3 then
      if fld w 18 4 != 0 then none
      else some (.vote (nwBit w) (.pred (BitVec.ofNat 3 (fld w 15 3))) (BitVec.ofNat 3 (fld w 8 3))
        (BitVec.ofNat 2 (fld w 1 2)))
    else (dstOf (fld w 15 7)).map fun d =>
      .vote (nwBit w) (.reg d) (BitVec.ofNat 3 (fld w 8 3)) (BitVec.ofNat 2 (fld w 1 2))
  | 0x56 => decX2 w ls fun nw d a s => if s < 2 then some (.first nw d a (s == 1)) else none
  | 0x57 => decX2 w ls fun nw d a s => if s < 4 then some (.rank nw d a (BitVec.ofNat 2 s)) else none
  | 0x58 =>
    if uBit w || xBit w || fld w 8 7 != 0 || fld w 2 6 != 0 then none
    else (dstOf (fld w 15 7)).map fun d => .elect (nwBit w) d (bitAt w 1)
  | 0x59 => decX3 w ls .ssint
  | 0x60 => dec2x w ls .mov
  | 0x61 =>
    if fld w 8 7 != 0 || xBit w then none
    else (dstOf (fld w 15 7)).map fun d => .movs (uBit w) (nwBit w) d (BitVec.ofNat 7 (fld w 1 7))
  | 0x62 =>
    if fld w 15 9 != 0x100 || xBit w then none
    else (srcOf (fld w 8 7) ls).map fun a => .movsw (BitVec.ofNat 7 (fld w 1 7)) a.1
  | 0x63 =>
    if fld w 0 8 != 0 then none
    else match dstOf (fld w 15 7), aregOf (fld w 8 7) with
      | some d, some a => some (.movx (uBit w) (nwBit w) d a)
      | _, _ => none
  | 0x64 =>
    if fld w 15 8 != 0 || xBit w then none
    else match aregOf (fld w 8 7), srcOf (fld w 1 7) ls with
      | some a, some (b, _) => some (.movxw (uBit w) a b)
      | _, _ => none
  | 0x65 => decX3 w ls .aff
  | 0x66 =>
    if fld w 1 14 != 0 || fld w 22 2 != 0 then none
    else (vregOf (fld w 15 7)).map fun d => .unif d (xBit w)
  | 0x67 =>
    if fld w 0 8 != 0 || uBit w then none
    else match dstOf (fld w 15 7), vregOf (fld w 8 7) with
      | some d, some a => some (.shtag (nwBit w) d a)
      | _, _ => none
  | _ => none

/-- The memory opcodes, 0x80 to 0xAA. -/
def decodeMem (op w : Nat) (ls : List Word) : Option Instr :=
  match op with
  | 0x80 => decLd w ls .ldgB8
  | 0x81 => decLd w ls .ldgB16
  | 0x82 => decLd w ls .ldgB32
  | 0x83 => decLd w ls .ldgB64
  | 0x84 => decLd w ls .ldgB128
  | 0x85 => decLd w ls .ldgS8
  | 0x86 => decLd w ls .ldgS16
  | 0x87 => decLd w ls .ldgAcq
  | 0x88 => decSt w ls .stgB8
  | 0x89 => decSt w ls .stgB16
  | 0x8A => decSt w ls .stgB32
  | 0x8B => decSt w ls .stgB64
  | 0x8C => decSt w ls .stgB128
  | 0x8F =>
    if fld w 13 7 != 0 || fld w 21 2 != 0 then none
    else match aregOf (fld w 6 7), offOf w ls with
      | some a, some o => some (.pfg (uBit w) (bitAt w 20) a o)
      | _, _ => none
  | 0x90 => decLd w ls .ldsB8
  | 0x91 => decLd w ls .ldsB16
  | 0x92 => decLd w ls .ldsB32
  | 0x93 => decLd w ls .ldsB64
  | 0x94 => decLd w ls .ldsB128
  | 0x95 => decLd w ls .lda
  | 0x98 => decSt w ls .stsB8
  | 0x99 => decSt w ls .stsB16
  | 0x9A => decSt w ls .stsB32
  | 0x9B => decSt w ls .stsB64
  | 0x9C => decSt w ls .stsB128
  | 0x9D => decSt w ls .sta
  | 0xA0 => decAtm w .atg
  | 0xA1 => decAtm w .ats
  | 0xA2 => decAtm w .redg
  | 0xA3 => decAtm w .reds
  | 0xA8 =>
    if fld w 8 15 != 0 || fld w 6 2 != 0 || xBit w then none
    else some (.fence (uBit w) (BitVec.ofNat 2 (fld w 4 2)) (BitVec.ofNat 3 (fld w 1 3)))
  | 0xA9 =>
    if fld w 15 8 != 0 || fld w 3 5 != 0 || xBit w then none
    else (srcOf (fld w 8 7) ls).map fun a => .waitc (uBit w) a.1 (BitVec.ofNat 2 (fld w 1 2))
  | 0xAA =>
    if fld w 5 3 != 0 || xBit w then none
    else match dstOf (fld w 15 7), srcOf (fld w 8 7) ls with
      | some d, some (a, _) =>
        some (.waita (uBit w) (nwBit w) d a (bitAt w 4) (BitVec.ofNat 3 (fld w 1 3)))
      | _, _ => none
  | _ => none

/-- The async, control, group, channel and system opcodes, 0xB0 to 0xF6. -/
def decodeSys (op w : Nat) (ls : List Word) : Option Instr :=
  match op with
  | 0xB0 => decAsync w ls fun a x => if x then none else some (.cpy a)
  | 0xB1 => decAsync w ls fun a x => if x then none else some (.gath a)
  | 0xB2 => decAsync w ls fun a x => if x then none else some (.mma a)
  | 0xB3 => decAsync w ls fun a x => some (.mbind a x)
  | 0xB4 => decAsync w ls fun a x => if x then none else some (.aclr a)
  | 0xB5 => decAsync w ls fun a x => if x then none else some (.adrn a)
  | 0xB6 => decAsync w ls fun a x => if x then none else some (.coll a)
  | 0xD0 => decBra w .bra
  | 0xD1 => decBra w .call
  | 0xD2 => decA w ls .jmpr
  | 0xD3 => decA w ls .callr
  | 0xD4 => decU w .ret
  | 0xD5 => decU w .exit
  | 0xD6 => if fld w 19 5 == 15 then some (.setm (BitVec.ofNat 19 (fld w 0 19))) else none
  | 0xE0 => if uBit w then none else decA w ls fun _ a => .join a
  | 0xE1 =>
    if fld w 18 6 != 0 || fld w 0 15 != 0 then none
    else some (.leave (BitVec.ofNat 3 (fld w 15 3)))
  | 0xE2 => if uBit w then none else decA w ls fun _ a => .bar a
  | 0xE3 =>
    if !uBit w || nwBit w || fld w 1 7 != 0 then none
    else match chanOf (fld w 15 7), srcOf (fld w 8 7) ls with
      | some c, some (a, _) => some (.qcfg c a (xBit w))
      | _, _ => none
  | 0xE4 =>
    if fld w 18 5 != 0 then none
    else match chanOf (fld w 8 7), srcOf (fld w 1 7) ls with
      | some c, some (b, _) => some (.qtry (uBit w) (BitVec.ofNat 3 (fld w 15 3)) c b (xBit w))
      | _, _ => none
  | 0xE5 =>
    if fld w 2 21 != 0 || xBit w then none else some (.yld (uBit w) (bitAt w 1))
  | 0xE6 =>
    if fld w 15 8 != 0 || fld w 2 6 != 0 || xBit w then none
    else (srcOf (fld w 8 7) ls).map fun a => .nap (uBit w) a.1 (bitAt w 1)
  | 0xF0 =>
    if fld w 8 15 != 0 || xBit w then none
    else some (.trap (uBit w) (BitVec.ofNat 7 (fld w 1 7)))
  | 0xF1 => if fld w 1 23 != 0 then none else some (.rte (xBit w))
  | 0xF2 => if fld w 0 24 != 0 then none else some .bkpt
  | 0xF3 => decA w ls .cmack
  | 0xF4 =>
    if !uBit w || xBit w then none
    else (mkR3 w ls).map fun r => .lnch r.nw r.d r.a r.b
  | 0xF5 => decU w .rgna
  | 0xF6 =>
    if fld w 8 15 != 0 || xBit w then none
    else some (.mark (uBit w) (BitVec.ofNat 7 (fld w 1 7)))
  | _ => none

/-- The fields of an instruction word, before the operand checks. -/
def decodeRaw (w : Nat) (ls : List Word) : Option Instr :=
  let op := fld w 24 8
  if op < 0x20 then decodeInt op w ls
  else if op < 0x40 then decodeFp op w ls
  else if op < 0x80 then decodeMove op w ls
  else if op < 0xB0 then decodeMem op w ls
  else decodeSys op w ls

/-- Decode an instruction word and its literal words (04 R124 items 2 and 3). -/
def decode (w : Nat) (ls : List Word) : DRes :=
  if assigned (fld w 24 8) then
    match decodeRaw w ls with
    | some i => if i.wf then .ok i else .error .operand
    | none => .error .operand
  else .error .opcode

/-- Words `n` at a time, first the least significant, of a number. -/
def wordsOfNat : Nat → Nat → List Word
  | 0, _ => []
  | k + 1, w => BitVec.ofNat 32 w :: wordsOfNat k (w / 2 ^ 32)

/-- The instruction this decoder reads from bits `w`, whose later words beyond `nbits` are zero. -/
def decodeTableWord (_nbits w : Nat) : Option Instr :=
  match wordsOfNat 5 w with
  | i :: ls =>
    match decode i.toNat (ls.take (litCount i.toNat)) with
    | .ok x => some x
    | .error _ => none
  | [] => none

/-! ## The encoder -/

def Src.code : Src → Nat
  | .v n => n.toNat
  | .byp n => 0x40 + n.toNat
  | .lit32 _ => 0x44
  | .lit64 _ => 0x45
  | .zero => 0x46
  | .slot => 0x47
  | .q n => 0x50 + n.toNat

def Src.lits : Src → List Word
  | .lit32 w => [w]
  | .lit64 w => [w.extractLsb' 0 32, w.extractLsb' 32 32]
  | _ => []

def Dst.code : Dst → Nat
  | .v n => n.toNat
  | .zero => 0x46
  | .q n => 0x50 + n.toNat

def AReg.code : AReg → Nat
  | .v n => n.toNat
  | .byp n => 0x40 + n.toNat

def StData.code : StData → Nat
  | .v n => n.toNat
  | .byp n => 0x40 + n.toNat
  | .zero => 0x46

def Off.code : Off → Nat
  | .imm o => o.toNat
  | .lit _ => 32

def Off.lits : Off → List Word
  | .imm _ => []
  | .lit w => [w]

/-- A format R word (04 R116). -/
def encR (op : Nat) (u nw : Bool) (d a b : Nat) (x : Bool) : Nat :=
  op * 2 ^ 24 + u.toNat * 2 ^ 23 + nw.toNat * 2 ^ 22 + d * 2 ^ 15 + a * 2 ^ 8 + b * 2 + x.toNat

/-- A format M word (04 R117). -/
def encM (op : Nat) (u : Bool) (t d a off : Nat) : Nat :=
  op * 2 ^ 24 + u.toNat * 2 ^ 23 + t * 2 ^ 20 + d * 2 ^ 13 + a * 2 ^ 6 + off

/-- A format MA word (04 R119). -/
def encMA (op : Nat) (m : Atm) : Nat :=
  op * 2 ^ 24 + m.u.toNat * 2 ^ 23 + m.aop.toNat * 2 ^ 19 + m.w.toNat * 2 ^ 18 + m.d.toNat * 2 ^ 11
    + m.a.code * 2 ^ 4 + m.off.toNat

/-- A format B word (04 R120). -/
def encB (op : Nat) (u : Bool) (p : Nat) (s : Bool) (disp : Nat) : Nat :=
  op * 2 ^ 24 + u.toNat * 2 ^ 23 + p * 2 ^ 20 + s.toNat * 2 ^ 19 + disp

def wordsOf (w : Nat) (ls : List Word) : List Word := BitVec.ofNat 32 w :: ls

def enc3 (op : Nat) (r : R3) (x : Bool) : List Word :=
  wordsOf (encR op r.u r.nw r.d.code r.a.code r.b.code x) (r.a.lits ++ r.b.lits)

def enc2 (op : Nat) (r : R2) (b : Nat) (x : Bool) : List Word :=
  wordsOf (encR op r.u r.nw r.d.code r.a.code b x) r.a.lits

def encX3 (op : Nat) (nw : Bool) (d : Dst) (a b : Src) : List Word := enc3 op ⟨false, nw, d, a, b⟩ false

def encX2 (op : Nat) (nw : Bool) (d : Dst) (a : Src) (b : Nat) : List Word :=
  enc2 op ⟨false, nw, d, a⟩ b false

def encCmp (op : Nat) (c : Cmp) (x : Bool) : List Word :=
  wordsOf (encR op c.u false (c.cond.toNat * 8 + c.p.toNat) c.a.code c.b.code x) (c.a.lits ++ c.b.lits)

def encLd (op : Nat) (m : Ld) : List Word :=
  wordsOf (encM op m.u m.t.toNat m.d.toNat m.a.code m.off.code) m.off.lits

def encSt (op : Nat) (m : St) : List Word :=
  wordsOf (encM op m.u m.t.toNat m.d.code m.a.code m.off.code) m.off.lits

def encA (op : Nat) (u : Bool) (a : Src) (b : Nat) (x : Bool) : List Word :=
  wordsOf (encR op u false 0 a.code b x) a.lits

/-- The words of an encoded instruction (04 R116 to R123); a row without an encoding has none. -/
def encode : Instr → List Word
  | .iadd r x => enc3 0x00 r x
  | .isub r x => enc3 0x01 r x
  | .imul r => enc3 0x02 r false
  | .imulh r x => enc3 0x03 r x
  | .imad r x => enc3 0x04 r x
  | .imin r x => enc3 0x05 r x
  | .imax r x => enc3 0x06 r x
  | .iabs r x => enc2 0x07 r 0 x
  | .idp4 r x => enc3 0x08 r x
  | .and_ r => enc3 0x10 r false
  | .or_ r => enc3 0x11 r false
  | .xor_ r => enc3 0x12 r false
  | .andn r => enc3 0x13 r false
  | .shl r x => enc3 0x14 r x
  | .shr r x => enc3 0x15 r x
  | .popc r => enc2 0x16 r 0 false
  | .clz r => enc2 0x17 r 0 false
  | .brev r => enc2 0x18 r 0 false
  | .bfi r => enc3 0x19 r false
  | .bfx r x => enc3 0x1A r x
  | .bilv r x => enc3 0x1B r x
  | .bdlv r x => enc3 0x1C r x
  | .fadd r => enc3 0x20 r false
  | .fsub r => enc3 0x21 r false
  | .fmul r => enc3 0x22 r false
  | .fma r => enc3 0x23 r false
  | .fmin r => enc3 0x24 r false
  | .fmax r => enc3 0x25 r false
  | .fabs r => enc2 0x26 r 0 false
  | .fneg r => enc2 0x27 r 0 false
  | .frcp r => enc2 0x28 r 0 false
  | .frsq r => enc2 0x29 r 0 false
  | .fsqrt r => enc2 0x2A r 0 false
  | .fex2 r => enc2 0x2B r 0 false
  | .flg2 r => enc2 0x2C r 0 false
  | .fsin r => enc2 0x2D r 0 false
  | .fcos r => enc2 0x2E r 0 false
  | .ftnh r => enc2 0x2F r 0 false
  | .frnd r sub => enc2 0x30 r sub.toNat false
  | .fcls r sub => enc2 0x31 r sub.toNat false
  | .padd r x => enc3 0x32 r x
  | .pmul r x => enc3 0x33 r x
  | .pfma r x => enc3 0x34 r x
  | .pmin r x => enc3 0x35 r x
  | .pmax r x => enc3 0x36 r x
  | .cvt r pair rnd x => enc2 0x37 r (pair.toNat * 4 + rnd.toNat) x
  | .mxscl nw d a f => encX2 0x38 nw d a f.toNat
  | .mxpk nw d a rnd f => encX2 0x39 nw d a (rnd.toNat * 16 + f.toNat)
  | .mxupk nw d a f => encX2 0x3A nw d a f.toNat
  | .itst c x => encCmp 0x40 c x
  | .ftst c => encCmp 0x41 c false
  | .plog u op p pa pb =>
      wordsOf (encR 0x42 u false (op.toNat * 8 + p.toNat) pa.toNat pb.toNat false) []
  | .pval u nw d pa x => wordsOf (encR 0x43 u nw d.code pa.toNat 0 x) []
  | .vchk u p a x => wordsOf (encR 0x44 u false p.toNat a.code 0 x) a.lits
  | .selp r p => enc3 (0x48 + p.toNat) r false
  | .shfx nw d a b => encX3 0x50 nw d a b
  | .shfd nw d a b => encX3 0x51 nw d a b
  | .shfb nw d a b => encX3 0x52 nw d a b
  | .scan nw d a exc s => encX2 0x53 nw d a (exc.toNat * 16 + s.toNat)
  | .redx nw d a s => encX2 0x54 nw d a s.toNat
  | .vote nw d pa mode =>
      match d with
      | .reg d => wordsOf (encR 0x55 false nw d.code pa.toNat mode.toNat false) []
      | .pred p => wordsOf (encR 0x55 false nw p.toNat pa.toNat (4 + mode.toNat) false) []
  | .first nw d a last => encX2 0x56 nw d a last.toNat
  | .rank nw d a sub => encX2 0x57 nw d a sub.toNat
  | .elect nw d slot => wordsOf (encR 0x58 false nw d.code 0 slot.toNat false) []
  | .ssint nw d a b => encX3 0x59 nw d a b
  | .mov r w => enc2 0x60 r 0 w
  | .movs u nw d sr => wordsOf (encR 0x61 u nw d.code 0 sr.toNat false) []
  | .movsw sr a => encA 0x62 true a sr.toNat false
  | .movx u nw d a => wordsOf (encR 0x63 u nw d.code a.code 0 false) []
  | .movxw u a b => wordsOf (encR 0x64 u false 0 a.code b.code false) b.lits
  | .aff nw d a b => encX3 0x65 nw d a b
  | .unif d w => wordsOf (encR 0x66 false false d.toNat 0 0 w) []
  | .shtag nw d a => wordsOf (encR 0x67 false nw d.code a.toNat 0 false) []
  | .ldgB8 m => encLd 0x80 m
  | .ldgB16 m => encLd 0x81 m
  | .ldgB32 m => encLd 0x82 m
  | .ldgB64 m => encLd 0x83 m
  | .ldgB128 m => encLd 0x84 m
  | .ldgS8 m => encLd 0x85 m
  | .ldgS16 m => encLd 0x86 m
  | .ldgAcq m => encLd 0x87 m
  | .stgB8 m => encSt 0x88 m
  | .stgB16 m => encSt 0x89 m
  | .stgB32 m => encSt 0x8A m
  | .stgB64 m => encSt 0x8B m
  | .stgB128 m => encSt 0x8C m
  | .pfg u l1 a off => wordsOf (encM 0x8F u l1.toNat 0 a.code off.code) off.lits
  | .ldsB8 m => encLd 0x90 m
  | .ldsB16 m => encLd 0x91 m
  | .ldsB32 m => encLd 0x92 m
  | .ldsB64 m => encLd 0x93 m
  | .ldsB128 m => encLd 0x94 m
  | .lda m => encLd 0x95 m
  | .stsB8 m => encSt 0x98 m
  | .stsB16 m => encSt 0x99 m
  | .stsB32 m => encSt 0x9A m
  | .stsB64 m => encSt 0x9B m
  | .stsB128 m => encSt 0x9C m
  | .sta m => encSt 0x9D m
  | .atg m => wordsOf (encMA 0xA0 m) []
  | .ats m => wordsOf (encMA 0xA1 m) []
  | .redg m => wordsOf (encMA 0xA2 m) []
  | .reds m => wordsOf (encMA 0xA3 m) []
  | .fence u kind scope => wordsOf (encR 0xA8 u false 0 0 (kind.toNat * 8 + scope.toNat) false) []
  | .waitc u a cls => encA 0xA9 u a cls.toNat false
  | .waita u nw d a acq cond =>
      wordsOf (encR 0xAA u nw d.code a.code (acq.toNat * 8 + cond.toNat) false) a.lits
  | .cpy a => encA 0xB0 true a 0 false
  | .gath a => encA 0xB1 true a 0 false
  | .mma a => encA 0xB2 true a 0 false
  | .mbind a n => encA 0xB3 true a 0 n
  | .aclr a => encA 0xB4 true a 0 false
  | .adrn a => encA 0xB5 true a 0 false
  | .coll a => encA 0xB6 true a 0 false
  | .bra f => wordsOf (encB 0xD0 f.u f.p.toNat f.s f.disp.toNat) []
  | .call f => wordsOf (encB 0xD1 f.u f.p.toNat f.s f.disp.toNat) []
  | .jmpr u a => encA 0xD2 u a 0 false
  | .callr u a => encA 0xD3 u a 0 false
  | .ret u => wordsOf (encR 0xD4 u false 0 0 0 false) []
  | .exit u => wordsOf (encR 0xD5 u false 0 0 0 false) []
  | .setm disp => wordsOf (encB 0xD6 false 7 true disp.toNat) []
  | .join a => encA 0xE0 false a 0 false
  | .leave p => wordsOf (encR 0xE1 false false p.toNat 0 0 false) []
  | .bar a => encA 0xE2 false a 0 false
  | .qcfg c a off => wordsOf (encR 0xE3 true false (0x50 + c.toNat) a.code 0 off) a.lits
  | .qtry u p c b w => wordsOf (encR 0xE4 u false p.toNat (0x50 + c.toNat) b.code w) b.lits
  | .yld u stage => wordsOf (encR 0xE5 u false 0 0 stage.toNat false) []
  | .nap u a cnt => encA 0xE6 u a cnt.toNat false
  | .trap u n => wordsOf (encR 0xF0 u false 0 0 n.toNat false) []
  | .rte skip => wordsOf (encR 0xF1 false false 0 0 0 skip) []
  | .bkpt => wordsOf (encR 0xF2 false false 0 0 0 false) []
  | .cmack u a => encA 0xF3 u a 0 false
  | .lnch nw d a b => enc3 0xF4 ⟨true, nw, d, a, b⟩ false
  | .rgna u => wordsOf (encR 0xF5 u false 0 0 0 false) []
  | .mark u n => wordsOf (encR 0xF6 u false 0 0 n.toNat false) []
  | _ => []

/-- The deepest BY code an instruction names: it must stand at a later position (03 R86). -/
def Src.byDepth : Src → Nat
  | .byp n => n.toNat + 1
  | _ => 0

def AReg.byDepth : AReg → Nat
  | .byp n => n.toNat + 1
  | _ => 0

/-- The deepest BY code in an instruction word read by format (04 R124 item 4). -/
def byDepthOf (w : Nat) : Nat :=
  let f := fun c => if 0x40 ≤ c && c < 0x44 then c - 0x3F else 0
  let op := fld w 24 8
  match fmtOf op with
  | .r => max (f (fld w 8 7)) (if isSubfn op then 0 else f (fld w 1 7))
  | .m => max (f (fld w 6 7)) (f (fld w 13 7))
  | .ma => f (fld w 4 7)
  | .b => 0

/-- The channel a source or destination names (03 R87). -/
def Src.chan : Src → Option Nat
  | .q n => some n.toNat
  | _ => none

def Dst.chan : Dst → Option Nat
  | .q n => some n.toNat
  | _ => none

end Sys2Proof
end

