-- ==== Sys2Proof/Config.lean ====
section
/-! DEFINITION. What one AB380 package fixes for itself and the values the spec leaves free. -/

namespace Sys2Proof.Config

/-- The free values of the model: what the spec leaves open at the n-th choice point.
No body: nothing can be proved about the value (log 4). -/
opaque freeWord : Nat → BitVec 64

/-- A free index below `n` for the `k`-th choice point; of one there is no choice (log 4). -/
def freeIdx (k n : Nat) : Nat := if n ≤ 1 then 0 else (freeWord k).toNat % n

/-- A free yes or no for the `k`-th choice point (log 4). -/
def freeBit (k : Nat) : Bool := (freeWord k).getLsbD 0

/-- The high word that BYn of a 32-bit result gives in a pair position: the spec names the low word
only (03 R86, log 4). DESIGN CHOICE (log 6). -/
opaque byHigh : BitVec 32 → BitVec 32

/-- The public half of the device identity key, 32 bytes, generated at manufacture (12 R327).
DESIGN CHOICE (log 5). -/
opaque publicKey : List Byte

/-- The SLH-DSA-SHA2-128f signature of a message under the private half of the identity key with a public
half (12 R325, R327). The private half never leaves the security processor, so the bytes are free (log 5). -/
opaque sign : List Byte → List Byte → List Byte

/-- Whether the security processor accepts a firmware image (01 R41); the Zholas firmware key is
not in the spec, so the answer is free (log 5). -/
opaque verifyImage : List Byte → Bool

/-- The key-encryption key that ML-KEM-768 decapsulation yields for a virtual device (12 R322).
DESIGN CHOICE (log 5). -/
opaque decapsulate : Nat → List Byte → BitVec 256

/-- The fresh ML-KEM-768 encapsulation key of the n-th attestation report (12 R326).
DESIGN CHOICE (log 5). -/
opaque encapsulationKey : Nat → List Byte

/-- SHA-256 of the signed configuration blob (12 R326), of this package. DESIGN CHOICE (log 5). -/
opaque blobHash : List Byte

/-- The certificate chain that binds a public key to the package, as presented at IDCERT (12 R327).
DESIGN CHOICE (log 5). -/
opaque idCert : List Byte → List Byte

/-- Whether the configuration blob verifies at the n-th boot (01 R45, log 5). -/
opaque blobVerified : Nat → Bool

/-- Whether the image in a slot of a firmware component verifies at the n-th boot (01 R41, R45): boot,
component, slot. DESIGN CHOICE (log 5). -/
opaque slotVerified : Nat → Nat → Bool → Bool

/-- The package's estimate of the energy of a USAGE record, in mJ: n-th record (12 R324). -/
opaque usageEnergy : Nat → BitVec 64

/-- Live banks of every quadrant of a live core as built (01 R14 to R16): all 32 (log 9). -/
def builtBanks : Nat := 32

/-- The position that serves logical core `l` of a die as built: column `l / 24`, row `l % 24`
(01 R11; the layout is the package's own, log 9). -/
def builtPosition (l : Nat) : Nat := 25 * (l / 24) + l % 24

/-- The logical core that position `p` serves as built; the last position of each column is a
spare (01 R11, log 9). -/
def builtLogical (p : Nat) : Option Nat := if p % 25 < 24 then some (24 * (p / 25) + p % 25) else none

/-- The highest bin the signed configuration permits (01 R44): 7 (log 9). -/
def builtFloor : Nat := 7

/-- Entries of the L1 TLB, and sets and ways of a cluster's L2 TLB (06 R176). DESIGN CHOICE (log 22). -/
def l1TlbEntries : Nat := 64
def l2TlbSets : Nat := 512
def l2TlbWays : Nat := 8

/-- Walks that a die runs at once (06 R176). -/
def walksPerDie : Nat := 64

/-- Lines of an L1 of 256 KiB (06 R185). -/
def l1Lines : Nat := 2048

/-- Lines of one way of a die's L2: 48 slices of 8 MiB in 16 ways (00 R1, 06 R190). -/
def l2WayLines : Nat := 196608

end Sys2Proof.Config
end

