-- ==== Sys2Proof/Machine/State.lean ====
section
/-! DEFINITION. The state of the package: everything the spec names, as plain data, and its value
after package reset. Keyed tables (queues, contexts, cores and so on) list only the entries that
differ from their reset value or are in use; an unlisted entry reads as its reset value. -/

namespace Sys2Proof.Machine

/-! ## Register columns -/

/-- How a column of 32 values is stored (03 R90). -/
inductive Shape where
  | uniform (w : Word)
  | affine (base stride : Word)
  | general (ws : List Word)
  deriving DecidableEq, Repr

/-- A V register: its column and the slots whose stored word is uncorrectable (03 R102). -/
structure Reg where
  shape : Shape := .uniform 0
  ue : Mask := 0
  deriving DecidableEq, Repr

/-- A predicate: a bit per slot and its uniform flag (03 R84). -/
structure Pred where
  bits : Mask := 0
  uni : Bool := true
  deriving DecidableEq, Repr

/-! ## Faults -/

/-- The fault codes of 11 R293; `prFail` is PAGE as an engine operation meets it whose page request failed
(08 R251). -/
inductive FCode where
  | illegalOpcode | illegalOperand | illegalClause | uniformOperand | uniformCheck
  | landing | misalignedPc | nestOverflow | nestUnderflow | fpe | trap | bkpt
  | align | page | prot | memUe | memLost | scratchRange | accRange
  | asyncFault | mbindInvalid | regionOverflow | atomicInRegion | regionNest
  | queueCfg | joinInvalid | dieLost | mapUnack | doubleFault | watchdog | prFail
  deriving DecidableEq, Repr

/-- One thread's fault at one clause position (11 R297). -/
structure ThFault where
  slot : Nat
  code : FCode
  faddr : DWord
  deriving DecidableEq, Repr

/-- The faults of one pass: its position, address and what FINFO takes (04 R125, 11 R297). -/
structure PassFault where
  pos : Nat
  pc : DWord
  finfo : Word
  faults : List ThFault
  deriving DecidableEq, Repr

/-! ## Threads and groups -/

/-- Whether a slot is empty, active or exited (02 R49, 03 R100). -/
inductive TState where
  | empty | active | exited
  deriving DecidableEq, Repr

/-- Why an active thread is ineligible beyond meets, parking, RTE and halting (02 R56). -/
inductive TWait where
  | none | load | atomic | fence | setm | lnch | exitLoads
  deriving DecidableEq, Repr

/-- An error recorded against a thread's token load (03 R89): the load, its token, the code, and the
load's address and its target's. -/
structure TokErr where
  id : Nat
  tok : Nat
  code : FCode
  pc : DWord
  ea : DWord
  deriving DecidableEq, Repr

/-- Per-thread state (02 R50, R56, R70; 03 R97; 05 R141; 13 R352); `haltDue` when a debugger's HALT
waits for the end of the thread's move (02 R55). -/
structure Thread where
  st : TState := .empty
  pc : DWord := 0
  meet : DWord := 0xFFFFFFFFFFFFFFFF
  nest : BitVec 8 := 0
  tix : BitVec 16 := 0
  ssadv : BitVec 16 := 0
  srCtr : Word := 0
  starve : Nat := 0
  halted : Bool := false
  haltDue : Bool := false
  noFire : Bool := false
  stepping : Bool := false
  held : Bool := false
  wait : TWait := .none
  redUe : Option (DWord × DWord) := none
  tokErr : List TokErr := []
  deriving DecidableEq, Repr

/-- What a late entrant reads in place of a bypass latch (02 R61). DEDUCED (log 7). -/
inductive Late where
  | zero
  | reg (n : BitVec 6)
  | pred (n : BitVec 3)
  | idx (index : Shape)
  deriving DecidableEq, Repr

/-- The result an instruction left in its bypass latch (03 R86): its low and high words, the
threads that executed it, and whether it is a 64-bit result. -/
structure BRes where
  lo : Shape := .uniform 0
  hi : Shape := .uniform 0
  exec : Mask := 0
  late : Late := .zero
  wide : Bool := false
  deriving DecidableEq, Repr

/-- A clause running on a lane (02 R60, R61; 04 R109, R113): its header address, the position and
address of the next pass, the header position after it, where its header lies in memory (host or
device, address), the bypass latches of the positions passed, the newest first, whether a cut or a
claim (`evict`) ends it within its next pass (09 R270, 10 R280), the map version at its start (01 R27)
and the PC of its issue (04 R125). -/
structure Clause where
  hdr : DWord
  cls : Nat
  count : Nat
  pos : Nat
  pc : DWord
  next : DWord
  yld : Bool
  re : Bool
  pa : Bool × Nat
  res : List BRes
  lane : Nat
  cut : Bool := false
  evict : Bool := false
  cmv : Nat := 1
  issue : DWord := 0
  deriving DecidableEq, Repr

/-- The seven engine instructions less MBIND (08 R226). -/
inductive EOp where
  | cpy | gath | mma | aclr | adrn | coll
  deriving DecidableEq, Repr

/-- Why a group without a running clause is not ready (02 R62, 06 R177, 09 R270, 11 R296, 15 R396): `barEnd` once
the barrier that its threads `m` arrived at has completed, while what they did before it still has to happen
(07 R215); `drain` while the lane that a cut took from it drains. -/
inductive GWait where
  | none
  | walk
  | channel (pops pushes : List (Nat × Nat))
  | bar (arrived : Mask) (pc : DWord)
  | barEnd (m : Mask)
  | drain (lane : Nat)
  | nap (limit : Option Nat) (cnt woken : Bool)
  | waita (since : Nat)
  | waitc (cls : Nat) (bound : Nat)
  | token (t n : Nat)
  | resource (op : EOp) (arg : Nat)
  | load
  | joining (next : DWord) (movers : Mask) (target : Option Nat) (pred seq : Nat) (re : Bool)
  | stopped
  deriving DecidableEq, Repr

/-- A physical address: device memory (DPA) or host memory (06 R172 TGT, R175). -/
structure PA where
  host : Bool
  addr : Nat
  deriving DecidableEq, Repr

/-- One pass of STG, or a recorded release, in a region buffer (07 R221). -/
inductive BufEntry where
  | store (rel : Bool) (strm : Bool) (pc : DWord) (parts : List (Mask × PA × List Byte))
  | fence (scope : BitVec 3) (mask : Mask)
  deriving DecidableEq, Repr

/-- A restartable region in progress (10 R285, R286). -/
structure Region where
  rgpc : DWord
  members : Mask
  ckpt : List (DWord × BitVec 8)
  parked : Mask
  exits : Mask := 0
  buffer : List BufEntry := []
  began : Nat := 0
  deriving DecidableEq, Repr

/-- A held-back fault of an engine operation (08 R250). -/
structure AFault where
  cls : Nat
  sub : BitVec 8
  pc : DWord
  opcode : BitVec 8
  addr : DWord
  deriving DecidableEq, Repr

/-- Where a group's registers are (10 R280, R283). DEDUCED (log 79). -/
inductive Residency where
  | resident
  | spilling
  | evicted (len : Nat)
  | restoring (len : Nat)
  deriving DecidableEq, Repr

/-- A TLB entry (06 R176): one page of one context. -/
structure TlbE where
  ctx : Nat
  vbase : Nat
  bits : Nat
  host : Bool
  pbase : Nat
  rd : Bool
  w : Bool
  x : Bool
  deriving DecidableEq, Repr

/-- A group in a group slot (02 R46 to R79, 03, 08 R228 to R231, 10, 11); `bWait` since when it has waited
for a B buffer (08 R241), `readyAt` the cycle since which it has been ready for a lane (09 R269). -/
structure Group where
  ctx : Nat
  launch : Nat
  blk : Nat
  stage : Nat := 0
  regs : List Reg := List.replicate 64 {}
  preds : List Pred := List.replicate 7 {}
  threads : List Thread := List.replicate 32 {}
  placed : Bool := true
  tile : Nat := 32
  fcr : Word := 0
  fsr : Word := 0
  seed : Word := 0
  engIdx : Word := 0
  trapv : DWord := 0
  cp : BitVec 8 := 0
  gt : BitVec 8 := 0
  mt : BitVec 8 := 0
  cl : BitVec 8 := 0
  tokens : List Nat := List.replicate 6 0
  fmask : Mask := 0
  fcode : List (BitVec 8) := List.replicate 32 0
  finfo : Word := 0
  fpc : DWord := 0
  faddr : List DWord := List.replicate 32 0
  tpc : List DWord := List.replicate 32 0
  handler : Bool := false
  hset : Mask := 0
  rteDone : Mask := 0
  rteSkip : Mask := 0
  region : Option Region := none
  restart : Bool := false
  quartet : Option Word := none
  clause : Option Clause := none
  wait : GWait := .none
  savedWait : GWait := .none
  pend : List PassFault := []
  walkFaults : List (Nat × FCode) := []
  walkHits : List TlbE := []
  asyncFaults : List AFault := []
  residency : Residency := .resident
  debugEdits : List (Nat × Nat × DWord) := []
  globWr : BitVec 4 := 0
  ylast : Bool := false
  bWait : Option Nat := none
  readyAt : Option Nat := none
  deriving DecidableEq, Repr

/-! ## Memory -/

/-- The state of a word in an L1 (06 R185): an unowned copy, stored and registering, or owned. -/
inductive L1St where
  | unowned | pending | owned
  deriving DecidableEq, Repr

/-- The thread that an access in flight came from: its core, group, lowest slot and PC (06 R195). -/
structure Origin where
  core : Nat := 0
  gid : Nat := 0
  slot : Nat := 0
  pc : DWord := 0
  deriving DecidableEq, Repr

/-- A 4-byte word in an L1: valid bytes, value, ownership; `wide` when one 8-byte store wrote it
together with its neighbour (07 R205); `ue` when the stored word is uncorrectable (06 R199); `ctx` the
context whose store made the entry, `also` those whose stores have joined it. -/
structure L1Word where
  pa : PA
  val : Word
  mask : BitVec 4
  st : L1St
  wide : Bool := false
  ue : Bool := false
  ctx : Nat := 0
  also : List Nat := []
  by_ : Origin := {}
  deriving DecidableEq, Repr

/-- A 128-byte line in the L2 of its home die: the way of its set that it stands in, and whether it is
dirty, with the context that wrote it last (06 R190, R191; 12 R324); `was` the bytes that HBM still holds at the
places written since it became dirty, none in an uncorrectable word (06 R195). -/
structure L2Line where
  host : Bool
  line : Nat
  way : Nat
  dirty : Bool
  by_ : Option Nat := none
  was : List (Nat × Option Byte) := []
  deriving DecidableEq, Repr

/-- For what an access reaches a home: its class (true for H), and the context that it serves (10 R272, 12 R324). -/
structure Work where
  h : Bool := false
  ctx : Option Nat := none
  deriving DecidableEq, Repr

/-- Who waits on a page walk: a group, an engine operation, the dispatcher for a queue, or the Sinter
engine for a group (06 R177, R184). -/
inductive Waiter where
  | group (core gid : Nat)
  | op (core id : Nat)
  | disp (q : Nat)
  | sinter (core gid : Nat)
  deriving DecidableEq, Repr

/-- A page walk of one die (06 R177, R178): the page in 4 KiB units, the kinds of access waiting,
who waits, the resolved responses met and the request outstanding (R181, R182). -/
structure Walk where
  id : Nat
  die : Nat
  ctx : Nat
  vpage : Nat
  acc : BitVec 3
  who : List Waiter
  resolved : Nat := 0
  request : Option Nat := none
  deriving DecidableEq, Repr

/-- A region-table entry (06 R192). -/
structure RegionE where
  valid : Bool := false
  stride : BitVec 4 := 0
  key : BitVec 6 := 0
  owner : BitVec 6 := 0
  stkset : BitVec 16 := 0
  base : BitVec 40 := 0
  size : BitVec 40 := 0
  stkbase : BitVec 36 := 0
  deriving DecidableEq, Repr

/-- A line as it stands on a stack while no valid region maps its place (06 R193, R195, R197): the stack and
the line's number there, the DPA line and the key that it was written under, its bytes, and those of its
words that are uncorrectable. -/
structure OldLine where
  stack : Nat
  loc : Nat
  line : Nat
  key : BitVec 512
  bytes : List Byte
  ue : List Nat := []
  deriving DecidableEq, Repr

/-- The value that a word of memory had before a write while some launch could fetch it as code, and a number taken
then (04 R115). -/
structure OldWord where
  pa : PA
  val : Nat
  at_ : Nat
  deriving DecidableEq, Repr

/-! ## Work in flight on a core -/

/-- The space a memory instruction addresses (06). -/
inductive Space where
  | global | scratch | acc
  deriving DecidableEq, Repr

/-- A place of bytes: the space, the core for scratchpad and accumulator, the address, the size (07 R200). -/
structure Place where
  space : Space
  core : Nat
  pa : PA
  n : Nat
  deriving DecidableEq, Repr

/-- An agent (07 R200): a thread of a block of a launch, the dispatcher working for a launch, or an engine operation
of a launch. -/
inductive Agent where
  | thread (launch bix tix : Nat)
  | disp (launch : Nat)
  | op (launch core id : Nat)
  deriving DecidableEq, Repr

/-- What an event is (07 R200 to R217): a plain read or write, an atomic, a read of WAITA or of a wait condition, a
completion word or signal, a fence, an arrival at an instance of a barrier, the issue of an engine operation, an
LNCH, or the taking of a packet, while launches ran. -/
inductive EvKind where
  | read
  | write
  | rmw
  | syncRead
  | syncWrite
  | fence
  | bar (launch bix : Nat) (gen : Word)
  | issue (core id : Nat)
  | enq (queue : Nat) (pkt : Word)
  | take (queue : Nat) (pkt : Word) (alive : List Nat)
  deriving DecidableEq, Repr

/-- An event of an execution (07 R203): its agents and those of their group at the moment, its place, the bytes it
read and wrote, the scopes at which it acquires and releases, whether it is an SC fence and whether a region
buffered it. -/
structure Ev where
  id : Nat
  ctx : Nat
  who : List Agent
  near : List Agent := []
  kind : EvKind
  place : Place := ⟨.global, 0, ⟨false, 0⟩, 0⟩
  got : List Byte := []
  put : List Byte := []
  acq : Option Nat := none
  rel : Option Nat := none
  sc : Bool := false
  buffered : Bool := false
  deriving DecidableEq, Repr

/-- A load that has issued and whose data has not been written (15 R399); `half` is the half that a
16-byte load has taken, the upper one when `up` (07 R205), `racy` when it is in a data race (07 R223), `data` the value it took and the 4-byte words of it that were bad,
with the fault `code` they give; `done` the words of a token load written already (03 R89). -/
structure PLoad where
  id : Nat
  gid : Nat
  slot : Nat
  mask : Mask
  uni : Bool
  tok : Option Nat
  space : Space
  acq : Bool
  ea : DWord
  pa : PA
  srcCore : Nat
  nbytes : Nat
  sext : Bool
  dst : Nat
  pc : DWord
  fwd : List (Option Byte) := []
  cmap : Bool := false
  half : Option (List Byte × List Nat) := none
  up : Bool := false
  racy : Bool := false
  data : Option (List Byte × List Nat) := none
  code : FCode := .memUe
  done : List Nat := []
  deriving DecidableEq, Repr

/-- An ATG, ATS, REDG or REDS event that has issued (14 R362 to R365, 16 R428). Its threads are those
of `gid` and `mask` and, after moves, of `also` (02 R54). -/
structure PAtom where
  id : Nat
  ctx : Nat
  launch : Nat
  gid : Nat
  slot : Nat
  mask : Mask
  uni : Bool
  red : Bool
  space : Space
  aop : BitVec 4
  w : Bool
  ea : DWord
  pa : PA
  tgtCore : Nat
  opnd : DWord
  swap : DWord
  dst : Nat
  pc : DWord
  also : List (Nat × Mask) := []
  deriving DecidableEq, Repr

/-- A FENCE that has not completed (15 R387): the loads, atomics and stores it awaits; `bg` when it is a
recorded release of a region, for which its threads do not wait (07 R222). Its threads are those of
`gid` and `mask` and, after moves, of `also` (02 R54). -/
structure PFence where
  id : Nat
  gid : Nat
  ctx : Nat
  launch : Nat
  mask : Mask
  kind : BitVec 2
  scope : BitVec 3
  loads : List Nat
  atoms : List Nat
  rels : List Nat
  bg : Bool := false
  also : List (Nat × Mask) := []
  deriving DecidableEq, Repr

/-- A store that waits to take effect: a release store, a store behind one, a streaming store, a
cluster-window store, one that meets another of its pass, one that its L1 has no room for, or half of an
8-byte store that must not tear (07 R203, R205, R207; 06 R166, R185, R188; 17 R447). Its threads are
those of `gid` and `mask` and, after moves, of `also` (02 R54); `after` is the store of the lower half of
its 16-byte scratchpad access (06 R164). -/
structure PStore where
  id : Nat
  gid : Nat
  mask : Mask
  ctx : Nat
  launch : Nat
  pc : DWord
  rel : Bool
  strm : Bool
  space : Space
  pa : PA
  tgtCore : Nat
  bytes : List Byte
  after : Option Nat := none
  also : List (Nat × Mask) := []
  deriving DecidableEq, Repr

/-- A byte of the own core's scratchpad as it was before a store that its threads have not released, and the number
of that store (07 R216). -/
structure OldByte where
  addr : Nat
  val : Byte
  gid : Nat
  mask : Mask
  at_ : Nat := 0
  deriving DecidableEq, Repr

/-- A meet-stack push that has not been written (17 R439). -/
structure PPush where
  gid : Nat
  slot : Nat
  pa : PA
  val : DWord
  deriving DecidableEq, Repr

/-- An LNCH that waits for its queue step (15 R402). -/
structure PLnch where
  id : Nat
  gid : Nat
  mask : Mask
  queue : Nat
  packet : List Byte
  dst : Option Nat
  pc : DWord
  finfo : Word := 0
  deriving DecidableEq, Repr

/-- How far an accepted operation has come (08 R228, R241, R246, R250); `paid` when its payload is
written and its completion word is not (07 R217). -/
inductive ESt where
  | accepted
  | started
  | paid
  | finished
  | faulted (sub : BitVec 8) (addr : DWord)
  | cancelled
  deriving DecidableEq, Repr

/-- One write of an engine operation: bytes of the core's scratchpad, bytes of memory, or an accumulator
word with the values it passes through (08 R252), the last being the final one. -/
inductive EWrite where
  | scr (a : Nat) (bs : List Byte)
  | mem (p : PA) (bs : List Byte)
  | acc (w : Nat) (vs : List Word)
  deriving DecidableEq, Repr

/-- A byte or accumulator word that an engine operation has read before the rest (07 R220). -/
inductive ERead where
  | scr (a : Nat) (b : Byte)
  | mem (p : PA) (b : Byte)
  | acc (w : Nat) (v : Word)
  deriving DecidableEq, Repr

/-- NAN, INF, SAT and UF events of a site (13 R347). -/
structure TCount where
  nan : Nat := 0
  inf : Nat := 0
  sat : Nat := 0
  uf : Nat := 0
  deriving DecidableEq, Repr

/-- An accepted engine operation with its own copy of its parameter block (08 R227): `early` is what it
has written so far, `seen` what it has read for good before the rest (07 R220); `count` its census (13 R347); `sent` what a COLL has sent of its own data (08 R249); `status` the status of one whose payload is written and
whose status word is not. -/
structure EngOp where
  id : Nat
  gid : Nat
  op : EOp
  cls : Nat
  ctx : Nat
  launch : Nat
  blk : Nat
  pc : DWord
  st : ESt
  params : List Byte
  mask : Word := 0
  key : DWord := 0
  bbuf : Bool := false
  bcols : Option (List (List Word)) := none
  coll : Nat := 0
  aborted : Bool := false
  early : List EWrite := []
  seen : List ERead := []
  count : TCount := {}
  sent : Option (List Byte) := none
  status : Option Nat := none
  deriving DecidableEq, Repr

/-- A channel of a block (16 R423, R424, R425). -/
structure Chan where
  valid : Bool := false
  count : Nat := 0
  head : Nat := 0
  hi : BitVec 4 := 0
  lo : BitVec 4 := 0
  cstg : BitVec 3 := 0
  pstg : BitVec 3 := 0
  nrow : BitVec 6 := 0
  rowb : BitVec 8 := 0
  deriving DecidableEq, Repr

/-- A block resident on a core (02 R47 to R49, 06 R162, 14 R367). -/
structure Block where
  id : Nat
  ctx : Nat
  launch : Nat
  bix : Nat
  bsize : Nat
  rows : List Nat
  nblk : Nat
  nstg : Nat
  stages : List DWord
  cluster : Option Nat
  fused : Bool
  exited : Nat := 0
  barGen : Word := 0
  barTarget : Word := 0
  barArrived : Nat := 0
  chans : List Chan := List.replicate 16 {}
  cls : Bool
  part : Nat
  retired : Bool := false
  deriving DecidableEq, Repr

/-- One of the 16 lanes of a quadrant; a lane drains after a cut, or after a claim on its group's bank
(09 R269, R270). -/
inductive Lane where
  | free | busy (gid : Nat) (seq : Nat) | draining (cut : Bool)
  deriving DecidableEq, Repr

/-- A group chosen for eviction, and the queue whose G placement claims its bank, none when the
context is switched out (10 R279, R280; 11 R309). -/
structure Spill where
  gid : Nat
  quad : Nat
  forQ : Option Nat
  deriving DecidableEq, Repr

/-- An event counter: EVSEL and EVCNT (13 R341). -/
structure EvCtr where
  sel : DWord := 0
  cnt : DWord := 0
  deriving DecidableEq, Repr

/-- One core (01 R12; 02; 06; 08; 09; 10); `slow` is the CCLK cycles it has lost to stretching since
its die's reset (13 R354), `sampled` the CLK of its last trace sample (13 R353). DESIGN CHOICE (log 10). -/
structure Core where
  slow : Nat := 0
  stretched : Bool := false
  lanes : List Lane := List.replicate 64 .free
  groups : List (Nat × Group) := []
  blocks : List Block := []
  scratch : List Host.Cell := []
  scratchUe : List Nat := []
  accP : List (Nat × Word) := []
  accS : List (Nat × Word) := []
  accUe : List (Bool × Nat) := []
  accOwner : List (Nat × Bool × Nat) := []
  scrOld : List OldByte := []
  l1 : List L1Word := []
  fused : Bool := false
  tlb : List TlbE := []
  loads : List PLoad := []
  atoms : List PAtom := []
  fences : List PFence := []
  stores : List PStore := []
  pushes : List PPush := []
  lnchs : List PLnch := []
  ops : List EngOp := []
  spills : List Spill := []
  evicted : List Nat := []
  evctr : List EvCtr := List.replicate 16 {}
  sampled : Option Nat := none
  deriving DecidableEq, Repr

/-! ## Queues and launches -/

inductive QState where
  | disabled | active | error
  deriving DecidableEq, Repr

/-- A wait condition of a packet (09 R259). -/
structure WaitCond where
  addr : DWord
  val : Word
  cond : Nat
  latched : Bool := false
  deriving DecidableEq, Repr

/-- The packet a queue is working on (09 R262, R263). -/
structure CurPkt where
  launch : Nat
  waits : List WaitCond
  age : Nat
  deriving DecidableEq, Repr

/-- A work queue (09 R253 to R255, 13 R348), with the faults of walks its dispatcher accesses wait
for (06 R177, R182). -/
structure Queue where
  ctl : DWord := 0
  base : DWord := 0
  head : Word := 0
  tail : Word := 0
  code : BitVec 8 := 0
  st : QState := .disabled
  censva : DWord := 0
  cur : Option CurPkt := none
  walkFaults : List (Nat × FCode) := []
  deriving DecidableEq, Repr

/-- The five counts and EXEC of an instruction site (13 R347). -/
structure Site where
  pc : DWord
  opcode : BitVec 8
  exec : Nat := 0
  nan : Nat := 0
  inf : Nat := 0
  sat : Nat := 0
  uf : Nat := 0
  deriving DecidableEq, Repr

/-- A launch taken from a queue (09 R258, R260, R261); `ended` its place in the order in which the launches
of its queue complete; `code` the code lines that it has fetched (10 R292). -/
structure Launch where
  id : Nat
  queue : Nat
  pkt : Word
  ctx : Nat
  allres : Bool
  cluster : Bool
  fusel1 : Bool
  sig : Bool
  nstg : Nat
  nblk : Nat
  entry : DWord
  bsize : Nat
  srows : Nat
  wdog : Nat
  sigaddr : DWord
  sigval : DWord
  stgoff : List Nat
  next : Nat := 0
  retired : Nat := 0
  first : Option Nat := none
  run : Nat := 0
  discarded : Bool := false
  nrest : Nat := 0
  sites : List Site := []
  ended : Option Nat := none
  code : List PA := []
  deriving DecidableEq, Repr

/-- A G placement unit that waits for banks it has claimed from H groups, with its cores in block
order (10 R279). -/
structure Claim where
  queue : Nat
  launch : Nat
  cores : List Nat
  deriving DecidableEq, Repr

/-! ## Contexts and virtual devices -/

/-- The state of a context (11 R304). -/
inductive CState where
  | free | idle | active | draining | saving | saved | stopped | restoring
  deriving DecidableEq, Repr

/-- The reason of a stop (11 R304). -/
inductive CReason where
  | none | fault | restoreReject | restoreNocore | saveovf
  deriving DecidableEq, Repr

/-- A context (11 R302 to R305); `laneCycles` and the bytes moved since its last USAGE record (12 R324), `unplaced` the saved groups
(core, slot) whose threads are not numbered in slot order (02 R46). DESIGN CHOICE (log 10). -/
structure Context where
  st : CState := .free
  cls : Bool := false
  part : Nat := 0
  vd : Nat := 0
  accsave : Bool := false
  slice : Nat := 0
  root : Nat := 0
  meetbase : DWord := 0
  trapbase : DWord := 0
  spill : DWord := 0
  trapv0 : DWord := 0
  savea : Nat := 0
  savesz : Nat := 0
  cmapva : DWord := 0
  ackv : Nat := 0
  tdm : BitVec 2 := 0
  auto : Bool := false
  image : Bool := false
  edited : Bool := false
  editLogged : Bool := false
  halted : Bool := false
  reason : CReason := .none
  code : Option FCode := none
  sub : BitVec 8 := 0
  stoppc : DWord := 0
  stoploc : Word := 0
  grace : Option (Nat × Nat) := none
  activeSince : Nat := 0
  ranInterval : Bool := false
  usageFrom : Nat := 0
  dbgVd : Option Nat := none
  switchSeq : Nat := 0
  saved : List (Nat × Nat × Nat) := []
  laneCycles : Nat := 0
  hbmBytes : Nat := 0
  hostBytes : Nat := 0
  fabBytes : Nat := 0
  unplaced : List (Nat × Nat) := []
  deriving DecidableEq, Repr

/-- The state of a virtual device (12 R319). -/
inductive VState where
  | free | active | stopping | stopped | resetting
  deriving DecidableEq, Repr

/-- A page request of a virtual device (06 R181 to R183). -/
structure PageReq where
  id : Nat
  ctx : Nat
  die : Nat
  vpage : Nat
  acc : BitVec 3
  gen : Word
  sent : Nat
  written : Bool
  deriving DecidableEq, Repr

/-- The kind of a frame (12 R336). -/
inductive FKind where
  | data | abort | credit
  deriving DecidableEq, Repr

/-- A frame sent: its header flit and its payload of at most 63 flits (12 R336). -/
structure TxFrame where
  dst : Nat
  src : Nat
  h : Bool
  tag : BitVec 16
  kind : FKind
  payload : List Byte := []
  deriving DecidableEq, Repr

/-- A virtual device with its registers (12 R319, R320, R332; 13 R350); `report` names the latest
attestation report (12 R326), `credits` the credit that a paused dirty log holds back (12 R329). DESIGN CHOICE (log 10). -/
structure VDev where
  st : VState := .free
  gen : Word := 0
  cmd : DWord := 0
  prto : Word := 1000
  prsp : DWord := 0
  dlring : DWord := 0
  ulring : DWord := 0
  pqring : DWord := 0
  irqaddr : DWord := 0
  irqdata : Word := 0
  irqst : Word := 0
  dbdrop : Word := 0
  dlhead : Word := 0
  dltail : Word := 0
  ulhead : Word := 0
  ultail : Word := 0
  pqhead : Word := 0
  pqtail : Word := 0
  ulhold : Bool := false
  dlpause : Bool := false
  epochPages : List Nat := []
  heldPages : List Nat := []
  ulseq : Nat := 0
  ulprev : List Byte := List.replicate 32 0
  ulbuf : List (List Byte) := []
  kek : Option (BitVec 256) := none
  reqs : List PageReq := []
  attest : Option (Nat × List Byte) := none
  ckptAt : Nat := 0
  report : Nat := 0
  dbgctx : Word := 0
  dbgcmd : DWord := 0
  dbgdata : DWord := 0
  trring : DWord := 0
  trhead : Word := 0
  trtail : Word := 0
  trsamp : Word := 0
  trdrop : Word := 0
  bps : List (Option DWord) := List.replicate 8 none
  credits : List TxFrame := []
  deriving DecidableEq, Repr

/-- A key slot (06 R198, 12 R322). -/
structure KeySlot where
  owner : Option Nat := none
  key : BitVec 512 := 0
  deriving DecidableEq, Repr

/-- A partition's quota: PQA and PQB in force, PQNA and PQNB next (10 R274). -/
structure Part where
  a : DWord := 0
  b : DWord := 0
  na : DWord := 0
  nb : DWord := 0
  deriving DecidableEq, Repr

/-- A fabric group (12 R338). DESIGN CHOICE (log 10). -/
structure FGroup where
  hdr : Word := 0
  ranks : List (Nat × Word) := []
  deriving DecidableEq, Repr

/-- A collective channel of a virtual device (12 R339). -/
structure CollChan where
  cfg : DWord := 0
  deriving DecidableEq, Repr

/-- DATA payload received from a peer for a channel tag (12 R336). -/
structure Frame where
  tag : BitVec 16
  src : Nat
  payload : List Byte
  deriving DecidableEq, Repr

/-! ## The Construction Map -/

/-- A die record (01 R21); `lost` from its loss point, `tested` once its self-test has run since
(01 R14, R36). PRESUMED (log 9). -/
structure DieRec where
  st : BitVec 4 := 1
  lostv : Nat := 0
  d2dbw : Nat := 24000
  lost : Bool := false
  tested : Bool := false
  baseV : Nat := 1
  deriving DecidableEq, Repr

/-- A core record that differs from the built one (01 R22); key 200 d + p. -/
structure CoreRec where
  mapv : Word
  banks : List Nat
  lcore : Option Nat
  failed : Bool
  remap : Bool
  deriving DecidableEq, Repr

/-- A stack record (01 R23). PRESUMED (log 9). -/
structure StackRec where
  st : BitVec 4 := 1
  lostv : Nat := 0
  chspr : Nat := 0
  deriving DecidableEq, Repr

/-- A fabric port record (01 R24) and its FABALW (12 R337). PRESUMED (log 9). -/
structure PortRec where
  lanes : BitVec 2 := 3
  st : BitVec 4 := 1
  speed : Nat := 512
  recals : Nat := 0
  deriving DecidableEq, Repr

/-- A firmware record (01 R24). PRESUMED (log 9). -/
structure FwRec where
  slot : Bool := false
  ver : Word := 1
  veralt : Word := 0
  deriving DecidableEq, Repr

/-- What a live-service operation does (01 R39, R43). -/
inductive LsKind where
  | remap (core : Nat) (spare : Nat)
  | recal (port : Nat)
  | chspare (stack channel : Nat)
  | fwload (comp : Nat) (ver : Word)
  | fwswitch (comp : Nat)
  | rebin (die bin : Nat)
  deriving DecidableEq, Repr

/-- A running live-service operation; `cmd` when LSCMD started it, `gone` once what it works on has been lost while it ran. -/
structure LsOp where
  id : Nat
  kind : LsKind
  cmd : Bool
  gone : Bool := false
  deriving DecidableEq, Repr

/-- The Construction Map and its versions (01 R18 to R32). PRESUMED (log 9). -/
structure CMap where
  cmv : Nat := 1
  seq : Word := 0
  pubt : List (Nat × Nat) := [(1, 0)]
  deadlines : List (Nat × Nat) := [(1, 5000000)]
  grace : Word := 5000
  dies : List DieRec := [{}, {}]
  cores : List (Nat × CoreRec) := []
  stackRecs : List StackRec := List.replicate 16 {}
  ports : List (Nat × PortRec) := []
  linkLanes : Nat := 32
  linkSpeed : Nat := 128
  bins : List Nat := [0, 0]
  fw : List FwRec := List.replicate 6 {}
  deriving DecidableEq, Repr

/-! ## The agenda -/

/-- What the agenda lists (log 1): a step of the opcode table, the next pass of a group's running
clause, passing time, parts of a load (03 R89, 07 R205) and of an engine operation (07 R220) that show before the rest, a load
that is in a data race and the bytes that one leaves open (07 R223), and what arrives from outside: errors of the hardware, and events that only counters see (13 R342). -/
inductive Sched where
  | ev (i : Instr)
  | lane (core gid : Nat)
  | elapse (ns : Nat) (cycles : Nat)
  | memError (host : Bool) (word : Nat)
  | scratchError (core word : Nat)
  | accError (core : Nat) (shadow : Bool) (word : Nat)
  | regError (core gid reg : Nat) (slots : Mask)
  | hostMemWrite (addr : Nat) (bytes : List Byte)
  | loadWord (core id k : Nat)
  | loadUpper (core id : Nat)
  | race (core id : Nat)
  | scramble (a b : Nat)
  | opChunk (core id : Nat)
  | l1Error (core : Nat) (host : Bool) (word : Nat)
  | tlbError (core n : Nat)
  | l2tlbError (n : Nat)
  | walkError (n : Nat)
  | bankFault (die pos quad bank : Nat)
  | counted (die : Bool) (at_ src n : Nat) (ctx : Option Nat)
  deriving DecidableEq, Repr

/-- The whole package. -/
structure State where
  -- the model's own (log 1, 2, 4, 120)
  agenda : List Sched := []
  focus : Option (Nat × Nat) := none
  free : Nat := 0
  nextId : Nat := 1
  hist : List Ev := []
  -- time
  time : Nat := 0
  dieClk : List Nat := [0, 0]
  -- memory
  dmem : List Host.Cell := []
  hmem : List Host.Cell := []
  memUe : List (Bool × Nat) := []
  -- map
  cmap : CMap := {}
  mapgrc : Word := 5
  lsarg : DWord := 0
  lscmd : DWord := 0
  lsops : List LsOp := []
  bootCount : Nat := 1
  linkReady : Bool := true
  mgmtOnly : Bool := false
  badBanks : List (Nat × Nat) := []
  selfTest : List (Nat × List Nat) := []
  -- memory system registers
  tlbinva : DWord := 0
  tlbinvc : DWord := 0
  tlbRun : Option (Nat × Nat × Nat × Nat) := none
  latepr : DWord := 0
  l2ways : List DWord := [0x000F, 0x000F]
  clsreg : List DWord := [0x5502, 0x5502]
  rflush : DWord := 0
  rflushLost : Bool := false
  rtstat : Word := 0
  regions : List (Nat × RegionE) := []
  oldLines : List OldLine := []
  oldWords : List OldWord := []
  l2lines : List L2Line := []
  written : List Nat := []
  l2tlb : List (Nat × TlbE) := []
  walkCache : List (Nat × Nat × DWord) := []
  walks : List Walk := []
  walkKept : List (Waiter × TlbE) := []
  walkFailed : List (Waiter × Nat × FCode) := []
  -- queues, launches
  queues : List (Nat × Queue) := []
  launches : List Launch := []
  claims : List Claim := []
  -- partitions
  parts : List (Nat × Part) := []
  pmctl : DWord := 0
  pmSt : BitVec 2 := 0
  pmCode : BitVec 4 := 0
  closing : BitVec 16 := 0
  -- contexts
  ctxs : List (Nat × Context) := []
  ctxcmd : DWord := 0
  ctxarg : DWord := 0
  -- keys and virtual devices
  keycmd : DWord := 0
  keyarg : DWord := 0
  keys : List (Nat × KeySlot) := []
  vdevs : List (Nat × VDev) := []
  -- package interrupts
  pirqaddr : DWord := 0
  pirqdata : Word := 0
  pirqst : Word := 0
  -- fabric
  fabid : Word := 0x3FF
  fabdrop : DWord := 0
  faballow : List (Nat × DWord) := []
  fgroups : List (Nat × FGroup) := []
  colls : List (Nat × CollChan) := []
  frames : List Frame := []
  sentFrames : List TxFrame := []
  -- observation and power
  dieCtr : List (List EvCtr) := [List.replicate 32 {}, List.replicate 32 {}]
  fumctl : DWord := 320
  fumtail : DWord := 0
  fumhead : DWord := 0
  fumdrop : DWord := 0
  fumtick : Nat := 0
  fumfrom : Nat := 0
  usageTicks : Nat := 0
  pastCtxs : List (Nat × Context) := []
  pwrcap : DWord := 0x80003A98
  pwr : Nat := 0
  pwrStep : Nat := 0
  pwrBin : Nat := 0
  pwrTicks : Nat := 0
  pwrSeen : List Nat := []
  hfrac : BitVec 8 := 0
  ilim : Bool := false
  -- cores
  cores : List (Nat × Core) := []
  deriving DecidableEq, Repr

/-- The machine right after package reset (01 R45): map version 1, no context, no virtual device,
every register at the reset value its table gives, memory with nothing listed. DESIGN CHOICE (log 10). -/
def State.reset : State := {}

/-- Why the machine stops outside the architecture: never. Every fault of the spec is a next state
(11 R293), so the type is empty and no step of the model ends in a fault. Safe. -/
inductive Fault where
  deriving DecidableEq, Repr

/-- Why an instruction has no meaning. -/
inductive Refusal where
  /-- Raised by an arm of `exec` whose instruction is not modelled. Safe. -/
  | notModelled (mnemonic : String)
  deriving DecidableEq, Repr

end Sys2Proof.Machine
end

