-- ==== Sys2Proof/Machine/Ops.lean ====
section
/-! DEFINITION. The named operations: keyed tables, memory cells, groups and threads, registers as
columns, interrupts, faults, taking and leaving a trap, stopping a context. -/

namespace Sys2Proof.Machine

/-- What a step answers. -/
abbrev Out := Host.Outcome State Fault Refusal

/-! ## Keyed tables -/

/-- The entry of key `k`. -/
def alGet {α : Type} (k : Nat) : List (Nat × α) → Option α
  | [] => none
  | (j, v) :: r => if j = k then some v else alGet k r

/-- Set the entry of key `k`, keeping ascending key order. -/
def alSet {α : Type} (k : Nat) (v : α) : List (Nat × α) → List (Nat × α)
  | [] => [(k, v)]
  | (j, w) :: r => if k < j then (k, v) :: (j, w) :: r else if j = k then (k, v) :: r else (j, w) :: alSet k v r

/-- Remove the entry of key `k`. -/
def alDel {α : Type} (k : Nat) : List (Nat × α) → List (Nat × α)
  | [] => []
  | (j, w) :: r => if j = k then r else (j, w) :: alDel k r

/-- Replace element `i` of a list. -/
def listMod {α : Type} (l : List α) (i : Nat) (f : α → α) : List α :=
  match l, i with
  | [], _ => []
  | x :: r, 0 => f x :: r
  | x :: r, k + 1 => x :: listMod r k f

/-! ## Memory cells in canonical form -/

/-- The byte at an address; an unlisted address reads 0 (log 11). -/
def cellGet : List Host.Cell → Nat → Byte
  | [], _ => 0
  | (k, x) :: r, a => if k = a then x else cellGet r a

/-- Write one byte, keeping addresses rising and listing no zero. -/
def cellSet : List Host.Cell → Nat → Byte → List Host.Cell
  | [], a, v => if v = 0 then [] else [(a, v)]
  | (k, x) :: r, a, v =>
    if a < k then (if v = 0 then (k, x) :: r else (a, v) :: (k, x) :: r)
    else if a = k then (if v = 0 then r else (a, v) :: r)
    else (k, x) :: cellSet r a v

/-- The bytes from an address up. -/
def cellsGet (m : List Host.Cell) (a : Nat) : Nat → List Byte
  | 0 => []
  | n + 1 => cellGet m a :: cellsGet m (a + 1) n

/-- Write bytes from an address up. -/
def cellsSet (m : List Host.Cell) (a : Nat) : List Byte → List Host.Cell
  | [] => m
  | b :: r => cellsSet (cellSet m a b) (a + 1) r

/-- Every address is at least `lo`, addresses rise and no byte is zero. -/
def cellsFrom (lo : Nat) : List Host.Cell → Bool
  | [] => true
  | (k, x) :: r => decide (lo ≤ k) && x != 0 && cellsFrom (k + 1) r

/-- The canonical form of a memory. -/
def Memory.wf (m : List Host.Cell) : Bool := cellsFrom 0 m

/-! ## Bytes and words (00 R2) -/

/-- A number as `n` little-endian bytes. -/
def leBytes : Nat → Nat → List Byte
  | 0, _ => []
  | n + 1, w => BitVec.ofNat 8 w :: leBytes n (w / 256)

/-- The number of little-endian bytes. -/
def leNat : List Byte → Nat
  | [] => 0
  | b :: r => b.toNat + 256 * leNat r

/-- `n` bytes of a list from offset `o`, as a number. -/
def fieldAt (bs : List Byte) (o n : Nat) : Nat := leNat ((bs.drop o).take n)

/-- Sign extension from `n` bits to an integer. -/
def sextInt (n w : Nat) : Int := if w < 2 ^ (n - 1) then w else (w : Int) - (2 ^ n : Nat)

/-! ## Sets of slots -/

/-- The set of slots with a property. -/
def maskWhere (p : Nat → Bool) : Mask :=
  (List.range 32).foldl (fun m i => if p i then m ||| (1#32 <<< i) else m) 0

/-- The slots of a set, ascending. -/
def slotsOf (m : Mask) : List Nat := (List.range 32).filter fun i => m.getLsbD i

def slotCount (m : Mask) : Nat := (slotsOf m).length

/-- The lowest slot of a set; 0 for the empty set. -/
def lowSlot (m : Mask) : Nat := (slotsOf m).headD 0

/-! ## Parts of the state -/

def State.core (s : State) (c : Nat) : Core := (alGet c s.cores).getD {}
def State.setCore (s : State) (c : Nat) (k : Core) : State := { s with cores := alSet c k s.cores }
def State.modCore (s : State) (c : Nat) (f : Core → Core) : State := s.setCore c (f (s.core c))
def State.group? (s : State) (c g : Nat) : Option Group := alGet g (s.core c).groups
def State.setGroup (s : State) (c g : Nat) (x : Group) : State :=
  s.modCore c fun k => { k with groups := alSet g x k.groups }
def State.modGroup (s : State) (c g : Nat) (f : Group → Group) : State :=
  match s.group? c g with
  | some x => s.setGroup c g (f x)
  | none => s
def State.ctx (s : State) (c : Nat) : Context := (alGet c s.ctxs).getD {}
def State.setCtx (s : State) (c : Nat) (x : Context) : State := { s with ctxs := alSet c x s.ctxs }
def State.modCtx (s : State) (c : Nat) (f : Context → Context) : State := s.setCtx c (f (s.ctx c))
def State.vd (s : State) (v : Nat) : VDev := (alGet v s.vdevs).getD {}
def State.setVd (s : State) (v : Nat) (x : VDev) : State := { s with vdevs := alSet v x s.vdevs }
def State.modVd (s : State) (v : Nat) (f : VDev → VDev) : State := s.setVd v (f (s.vd v))
def State.queue (s : State) (q : Nat) : Queue := (alGet q s.queues).getD {}
def State.setQueue (s : State) (q : Nat) (x : Queue) : State := { s with queues := alSet q x s.queues }
def State.modQueue (s : State) (q : Nat) (f : Queue → Queue) : State := s.setQueue q (f (s.queue q))
def State.part (s : State) (p : Nat) : Part := (alGet p s.parts).getD {}
def State.region (s : State) (i : Nat) : RegionE := (alGet i s.regions).getD {}
def State.key (s : State) (i : Nat) : KeySlot := (alGet i s.keys).getD {}
def State.coll (s : State) (v c : Nat) : CollChan := (alGet (64 * v + c) s.colls).getD {}
def State.fgroup (s : State) (g : Nat) : FGroup := (alGet g s.fgroups).getD {}
def State.launch? (s : State) (id : Nat) : Option Launch := s.launches.find? (·.id == id)
def State.modLaunch (s : State) (id : Nat) (f : Launch → Launch) : State :=
  { s with launches := s.launches.map fun l => if l.id = id then f l else l }
def Core.block? (k : Core) (id : Nat) : Option Block := k.blocks.find? (·.id == id)
def Core.modBlock (k : Core) (id : Nat) (f : Block → Block) : Core :=
  { k with blocks := k.blocks.map fun b => if b.id = id then f b else b }
def State.fresh (s : State) : Nat × State := (s.nextId, { s with nextId := s.nextId + 1 })

/-- The next free value (log 4). -/
def State.draw (s : State) : DWord × State := (Config.freeWord s.free, { s with free := s.free + 1 })

/-- The free value of the n-th later choice point, taken without moving the counter (log 4). -/
def State.peek (s : State) (n : Nat) : DWord := Config.freeWord (s.free + n)

/-- Change every group of the package that has a property. -/
def State.modGroups (s : State) (p : Nat → Group → Bool) (f : Group → Group) : State :=
  { s with cores := s.cores.map fun (c, k) =>
      (c, { k with groups := k.groups.map fun (g, x) => (g, if p c x then f x else x) }) }

/-- Every group of the package: core, slot, group. -/
def State.allGroups (s : State) : List (Nat × Nat × Group) :=
  s.cores.flatMap fun (c, k) => k.groups.map fun (g, x) => (c, g, x)

/-! ## Where things are (01 R11, R12) -/

/-- The die of a CORE number. -/
def dieOf (core : Nat) : Nat := core / 192

/-- CLUS of a CORE number. -/
def clusOf (core : Nat) : Nat := core / 4

/-- The quadrant of a group slot (02 R47). -/
def quadOf (gid : Nat) : Nat := gid / 32

/-- CLK: the core's CCLK cycles since its die's reset (03 R97, 13 R354). DESIGN CHOICE (log 12). -/
def State.clk (s : State) (c : Nat) : Nat := s.dieClk.getD (dieOf c) 0 - (s.core c).slow

def State.dieLost (s : State) (d : Nat) : Bool := (s.cmap.dies.getD d {}).lost

/-! ## Threads -/

def Group.th (g : Group) (i : Nat) : Thread := g.threads.getD i {}
def Group.setTh (g : Group) (i : Nat) (t : Thread) : Group :=
  { g with threads := listMod g.threads i fun _ => t }
def Group.modTh (g : Group) (i : Nat) (f : Thread → Thread) : Group :=
  { g with threads := listMod g.threads i f }

/-- Change the threads of a set. -/
def Group.modThs (g : Group) (m : Mask) (f : Nat → Thread → Thread) : Group :=
  { g with threads := g.threads.mapIdx fun i t => if m.getLsbD i then f i t else t }

/-- The active threads (02 R49). -/
def Group.active (g : Group) : Mask := maskWhere fun i => (g.th i).st == .active

/-- The slots that no thread has ever held. -/
def Group.freeSlots (g : Group) : Mask := maskWhere fun i => (g.th i).st == .empty

/-- The threads parked outside the group's region (10 R285). -/
def Group.parked (g : Group) : Mask := match g.region with | some r => r.parked | none => 0

/-- Whether the thread of a slot is eligible (02 R56). -/
def Group.eligibleAt (g : Group) (i : Nat) : Bool :=
  let t := g.th i
  t.st == .active && !t.held && !t.halted && t.wait == .none && !g.parked.getLsbD i
    && !(g.handler && g.rteDone.getLsbD i)

def Group.eligible (g : Group) : Mask := maskWhere g.eligibleAt

/-- The active eligible threads at an address (02 R56, R61). -/
def Group.atPc (g : Group) (pc : DWord) : Mask :=
  maskWhere fun i => g.eligibleAt i && (g.th i).pc == pc

/-! ## Register columns (03 R90 to R93) -/

/-- The value a column gives a slot. -/
def Shape.val : Shape → Nat → Word
  | .uniform w, _ => w
  | .affine b d, i => b + BitVec.ofNat 32 i * d
  | .general ws, i => ws.getD i 0

/-- The tag code (03 R90). -/
def Shape.tag : Shape → Nat
  | .uniform _ => 0
  | .affine _ _ => 1
  | .general _ => 2

/-- Whether a uniform-encoded instruction may read the column (03 R91). -/
def Shape.isUni : Shape → Bool
  | .uniform _ => true
  | .affine _ d => d == 0
  | .general _ => false

/-- A column as 32 words. -/
def column (f : Nat → Word) : Shape := .general ((List.range 32).map f)

def Group.reg (g : Group) (n : Nat) : Reg := g.regs.getD n {}
def Group.setReg (g : Group) (n : Nat) (r : Reg) : Group := { g with regs := listMod g.regs n fun _ => r }

/-- A write of a register (03 R92, R93): `full` when every active thread executes and commits;
`special` the row of R92 that then applies, if one does. -/
def Reg.write (old : Reg) (u full : Bool) (ok : Mask) (special : Option Shape) (val : Nat → Word) : Reg :=
  if u then { shape := .uniform (val 0), ue := 0 }
  else
    match full, special with
    | true, some sh => { shape := sh, ue := 0 }
    | _, _ =>
      { shape := column fun i => if ok.getLsbD i then val i else old.shape.val i, ue := old.ue &&& ~~~ok }

def Group.pred (g : Group) (n : Nat) : Pred :=
  if n == 7 then { bits := 0xFFFFFFFF, uni := true } else g.preds.getD n {}

/-- A write of a predicate (03 R84, 15 R391); a write to P7 is discarded. -/
def Group.setPred (g : Group) (n : Nat) (u : Bool) (ok : Mask) (bits : Mask) : Group :=
  { g with preds := listMod g.preds n fun p =>
      if u then { bits := if bits.getLsbD 0 then 0xFFFFFFFF else 0, uni := true }
      else { bits := (p.bits &&& ~~~ok) ||| (bits &&& ok), uni := false } }

/-! ## Counters and tokens (08 R228, 03 R88) -/

/-- The counter of a class: 0 CP, 1 GT, 2 MT, 3 CL (17 R454). -/
def Group.cnt (g : Group) (cls : Nat) : BitVec 8 :=
  match cls with
  | 0 => g.cp
  | 1 => g.gt
  | 2 => g.mt
  | _ => g.cl

def Group.setCnt (g : Group) (cls : Nat) (v : BitVec 8) : Group :=
  match cls with
  | 0 => { g with cp := v }
  | 1 => { g with gt := v }
  | 2 => { g with mt := v }
  | _ => { g with cl := v }

def Group.countersZero (g : Group) : Bool := g.cp == 0 && g.gt == 0 && g.mt == 0 && g.cl == 0

/-- Outstanding loads of the threads of a set (03 R88). -/
def Core.loadsOf (k : Core) (gid : Nat) (m : Mask) : List PLoad :=
  k.loads.filter fun l => l.gid == gid && (l.mask &&& m) != 0

/-- Outstanding reductions of the threads of a set (16 R429). -/
def Core.redsOf (k : Core) (gid : Nat) (m : Mask) : List PAtom :=
  k.atoms.filter fun a => a.red && a.gid == gid && (a.mask &&& m) != 0

/-- Write host memory beside any owner. -/
def State.hostSet (s : State) (a : Nat) (bs : List Byte) : State := { s with hmem := cellsSet s.hmem a bs }

/-! ## Fault codes (11 R293) -/

/-- FCODE of a fault (11 R293). -/
def FCode.code : FCode → Nat
  | .illegalOpcode => 0x01 | .illegalOperand => 0x02 | .illegalClause => 0x03
  | .uniformOperand => 0x04 | .uniformCheck => 0x05 | .landing => 0x06 | .misalignedPc => 0x07
  | .nestOverflow => 0x08 | .nestUnderflow => 0x09 | .fpe => 0x10 | .trap => 0x12 | .bkpt => 0x13
  | .align => 0x20 | .page | .prFail => 0x21 | .prot => 0x22 | .memUe => 0x23 | .memLost => 0x24
  | .scratchRange => 0x25 | .accRange => 0x26 | .asyncFault => 0x30 | .mbindInvalid => 0x32
  | .regionOverflow => 0x40 | .atomicInRegion => 0x41 | .regionNest => 0x42
  | .queueCfg => 0x50 | .joinInvalid => 0x51 | .dieLost => 0x60 | .mapUnack => 0x61
  | .doubleFault => 0x62 | .watchdog => 0x63

/-- Faults delivered to the user handler (11 R293). -/
def FCode.isUser : FCode → Bool
  | .uniformOperand | .uniformCheck | .fpe | .trap | .bkpt | .align => true
  | _ => false

/-- The rank of a stop among stops of one context (01 R37). DEDUCED (log 17). -/
def FCode.rank : FCode → Nat
  | .dieLost => 0
  | .mapUnack => 1
  | _ => 2

/-! ## Lanes -/

/-- Free the lane of a group's running clause. -/
def State.freeLane (s : State) (c lane : Nat) : State :=
  s.modCore c fun k => { k with lanes := listMod k.lanes lane fun
    | .busy _ _ => .free
    | l => l }

/-- One debugger edit of a thread's item (13 R350, R351). -/
def Group.edit (g : Group) (e : Nat × Nat × DWord) : Group :=
  let (i, item, v) := e
  if item < 64 then
    { g with regs := listMod g.regs item fun r =>
        { shape := column fun j => if j = i then v.setWidth 32 else r.shape.val j, ue := r.ue &&& ~~~(1#32 <<< i) } }
  else if item < 0x47 then
    g.setPred (item - 64) false (1#32 <<< i) (if v.getLsbD 0 then 1#32 <<< i else 0)
  else if item = 0x80 then g.modTh i fun t => { t with pc := v }
  else if item = 0x81 then g.modTh i fun t => { t with meet := v }
  else if item = 0x82 then g.modTh i fun t => { t with nest := v.setWidth 8 }
  else g

/-- The debugger edits that waited for the group's clause boundary are made. -/
def Group.applyEdits (g : Group) : Group :=
  if g.debugEdits.isEmpty then g else { g.debugEdits.foldl Group.edit g with debugEdits := [] }

/-- End a group's running clause, if it has one; the lane is free at once (02 R60, R62). -/
def State.dropClause (s : State) (c g : Nat) : State :=
  match s.group? c g with
  | some x =>
    match x.clause with
    | some cl => (s.setGroup c g { x with clause := none }.applyEdits).freeLane c cl.lane
    | none => s
  | none => s

/-! ## Stopping a context (11 R307, 01 R37) -/

/-- Record a stop under R37: the one that ranks first, the earliest among equals. -/
def Context.record (x : Context) (code : FCode) (sub : BitVec 8) (pc : DWord) (loc : Word) : Context :=
  match x.code with
  | some old =>
    if code.rank < old.rank then { x with code := some code, sub, stoppc := pc, stoploc := loc, reason := .fault }
    else x
  | none =>
    if x.st == .saving && x.reason != .none && code.rank = 2 then x
    else { x with code := some code, sub, stoppc := pc, stoploc := loc, reason := .fault }

/-- STOPLOC of the save header (11 R310). -/
def stopLoc (core gid slot : Nat) : Word := BitVec.ofNat 32 (core + 512 * gid + 65536 * slot)

/-- Stop the clauses of a context's groups at their instruction boundary (11 R307 step 1). -/
def State.haltGroups (s : State) (c : Nat) : State :=
  s.allGroups.foldl (fun s (core, gid, x) => if x.ctx = c then s.dropClause core gid else s) s

/-- A stop event strikes a context (11 R305, R307): it goes to SAVING with REASON FAULT; in SAVING
the stop is recorded. States in which it cannot arise are left alone. -/
def State.stopCtx (s : State) (c : Nat) (code : FCode) (sub : BitVec 8) (pc : DWord) (loc : Word) : State :=
  let x := s.ctx c
  match x.st with
  | .active | .draining | .restoring =>
    (s.setCtx c { (x.record code sub pc loc) with st := .saving }).haltGroups c
  | .saving => s.setCtx c (x.record code sub pc loc)
  | _ => s

/-! ## Regions and handlers -/

/-- Leave handler mode, dropping the trap record (10 R284). -/
def Group.dropTrap (g : Group) : Group :=
  { g with handler := false, savedWait := .none, hset := 0, rteDone := 0, rteSkip := 0, fmask := 0, fcode := List.replicate 32 0,
           finfo := 0, fpc := 0, faddr := List.replicate 32 0, tpc := List.replicate 32 0 }

/-- The state a region restart sets in its group (10 R288): members at RGPC with the checkpoint's
MEET and NEST, deferred exits undone, the buffer dropped. -/
def Group.restartRegion (g : Group) : Group :=
  match g.region with
  | none => g
  | some r =>
    let g1 := g.modThs r.members fun i t =>
      let (m, n) := r.ckpt.getD i (t.meet, t.nest)
      { t with st := .active, pc := r.rgpc, meet := m, nest := n, held := false, wait := .none }
    { g1 with region := some { r with buffer := [], exits := 0 }, restart := true, pend := [],
              wait := .none }

/-! ## Taking a trap and returning from it (11 R296, R297, R301) -/

/-- The fault record that a trap entry delivers: the lowest faulting position (11 R297).
DEDUCED (log 17). -/
def Group.firstFault (g : Group) : Option PassFault :=
  g.pend.foldl (fun acc p => match acc with
    | none => some p
    | some q => if p.pos < q.pos then some p else some q) none

/-- The trap registers of a fault: FPC, FMASK, FCODE, FADDR and FINFO (04 R125, 11 R297). -/
def Group.recordFault (g : Group) (p : PassFault) : Group :=
  let at_ (i : Nat) := p.faults.find? (·.slot == i)
  { g with
    fmask := maskWhere fun i => (at_ i).isSome
    fcode := (List.range 32).map fun i => match at_ i with | some f => BitVec.ofNat 8 f.code.code | none => 0
    faddr := (List.range 32).map fun i => match at_ i with | some f => f.faddr | none => 0
    finfo := p.finfo
    fpc := p.pc }

/-- The handler set: every active thread that is not parked (11 R296). -/
def Group.handlerSet (g : Group) : Mask := g.active &&& ~~~g.parked

/-- Trap entry, steps 2, 3 and 5 of 11 R296: the saved PCs and trap registers take their values and
the handler set goes to TRAPV in handler mode. DEDUCED (log 38, 65). -/
def Group.takeTrap (g : Group) (p : PassFault) : Group :=
  let hs := g.handlerSet
  let g1 := { g.recordFault p with
    tpc := (List.range 32).map fun i => if hs.getLsbD i then (g.th i).pc else g.tpc.getD i 0
    handler := true, hset := hs, rteDone := 0, rteSkip := 0, pend := [], wait := .none,
    savedWait := match g.wait with | .bar .. | .barEnd _ | .nap .. => g.wait | _ => .none }
  g1.modThs hs fun _ t => { t with pc := g.trapv, wait := .none }

/-- Whether every thread of the handler set has executed RTE or exited (11 R301). -/
def Group.rteReady (g : Group) : Bool :=
  g.handler && (slotsOf g.hset).all fun i => g.rteDone.getLsbD i || (g.th i).st != .active

/-- The return from the handler (11 R301): `skipTo` gives the address after the instruction at a
TPC for a thread of FMASK that executed RTE.SKIP. -/
def Group.returnTrap (g : Group) (skipTo : DWord → DWord) : Group :=
  let g1 := g.modThs (g.hset &&& g.active) fun i t =>
    let tpc := g.tpc.getD i 0
    { t with pc := if g.fmask.getLsbD i && g.rteSkip.getLsbD i then skipTo tpc else tpc }
  { g1 with handler := false, hset := 0, rteDone := 0, rteSkip := 0, wait := g.savedWait, savedWait := .none }

/-! ## Wake events -/

/-- A wake event on a wait; `cntOnly` when it wakes only a NAP with CNT (16 R415). DEDUCED (log 38). -/
def GWait.wake (cntOnly : Bool) : GWait → GWait
  | .nap l c w => .nap l c (w || !cntOnly || c)
  | w => w

/-- A wake event of a group's NAP. -/
def Group.wakeNap (g : Group) (cntOnly : Bool) : Group :=
  { g with wait := g.wait.wake cntOnly, savedWait := g.savedWait.wake cntOnly }

/-- A counter of the group falls by one (08 R228), which may wake a NAP. -/
def Group.decCnt (g : Group) (cls : Nat) : Group := (g.setCnt cls (g.cnt cls - 1)).wakeNap true

/-! ## Event counters (13 R341, R342) -/

/-- A counter meets `n` events of a source, with the class (true for H) and partition they carry.
DESIGN CHOICE (log 93). -/
def EvCtr.hit (e : EvCtr) (src n : Nat) (who : Option (Bool × Nat)) : EvCtr :=
  let w := e.sel.toNat
  let cls := w / 2 ^ 17 % 4
  let take := match who with
    | none => cls == 0 && !e.sel.getLsbD 19
    | some (h, p) => (cls == 0 || (cls == 1 && !h) || (cls == 2 && h)) && (!e.sel.getLsbD 19 || w / 2 ^ 20 % 16 == p)
  if w % 65536 = src && e.sel.getLsbD 16 && take then { e with cnt := e.cnt + BitVec.ofNat 64 n } else e

/-- The class and partition of a context. -/
def State.carries (s : State) (ctx : Nat) : Option (Bool × Nat) := some ((s.ctx ctx).cls, (s.ctx ctx).part)

/-- Events at a core. -/
def State.countCore (s : State) (c src n : Nat) (who : Option (Bool × Nat)) : State :=
  if (s.core c).evctr.all fun e => e.sel == 0 then s
  else s.modCore c fun k => { k with evctr := k.evctr.map fun e => e.hit src n who }

/-- Events at a die. -/
def State.countDie (s : State) (d src n : Nat) (who : Option (Bool × Nat)) : State :=
  if (s.dieCtr.getD d []).all fun e => e.sel == 0 then s
  else { s with dieCtr := listMod s.dieCtr d fun l => l.map fun e => e.hit src n who }

/-- Set a TDM bit of a context (01 R34). DEDUCED (log 59). -/
def State.touch (s : State) (c d : Nat) : State :=
  s.modCtx c fun x => { x with tdm := x.tdm ||| (1#2 <<< d) }

end Sys2Proof.Machine
end

