-- ==== Sys2Proof/Machine/MapOps.lean ====
section
/-! DEFINITION. The Construction Map (01 R11 to R32): its records as numbers, its page as bytes,
which cores live, and the publication of a version. -/

namespace Sys2Proof.Machine

/-- The die record of a die. -/
def State.die (s : State) (d : Nat) : DieRec := s.cmap.dies.getD d {}

/-- The core record of position `p` of die `d` (01 R22, R36). -/
def State.coreRec (s : State) (d p : Nat) : CoreRec :=
  let x := s.die d
  if x.st == 2 then ⟨BitVec.ofNat 32 x.lostv, [0, 0, 0, 0], none, true, false⟩
  else (alGet (200 * d + p) s.cmap.cores).getD
    ⟨BitVec.ofNat 32 x.baseV, List.replicate 4 Config.builtBanks, Config.builtLogical p, false, false⟩

/-- The position that the core records show to serve a CORE (01 R11, R15, R22). -/
def State.recPos (s : State) (core : Nat) : Option Nat :=
  let d := dieOf core
  let l := core % 192
  if core ≥ 384 then none
  else
    let serves (p : Nat) := let r := s.coreRec d p; r.lcore == some l && !r.failed
    if serves (Config.builtPosition l) then some (Config.builtPosition l)
    else (List.range 25).findSome? fun i =>
      let p := Config.builtPosition l / 25 * 25 + i
      if serves p then some p else none

/-- The position that serves a CORE, if the core is live: none from the loss point of its die on
(01 R35). -/
def State.posOf (s : State) (core : Nat) : Option Nat := if s.dieLost (dieOf core) then none else s.recPos core

def State.liveCore (s : State) (core : Nat) : Bool := (s.posOf core).isSome

/-- Live banks of a quadrant of a live core (01 R14, R16). DEDUCED (log 72). -/
def State.liveBanks (s : State) (core q : Nat) : Nat :=
  match s.posOf core with
  | some p => (s.coreRec (dieOf core) p).banks.getD q 0
  | none => 0

/-- A complete cluster, by CLUS (01 R13). -/
def State.clusterOk (s : State) (cl : Nat) : Bool := (List.range 4).all fun i => s.liveCore (4 * cl + i)

/-- A logical core and a complete cluster as the records show them: a loss changes neither before the
version that publishes it (01 R36). -/
def State.recLive (s : State) (core : Nat) : Bool := (s.recPos core).isSome
def State.recCluster (s : State) (cl : Nat) : Bool := (List.range 4).all fun i => s.recLive (4 * cl + i)

/-- A working position serving no logical core (01 R11). -/
def CoreRec.spare (r : CoreRec) : Bool := r.lcore.isNone && !r.failed

/-- Fields packed from bit 0 upward: (position, value). -/
def packBits (l : List (Nat × Nat)) : Nat := l.foldl (fun n (i, v) => n + v * 2 ^ i) 0

/-- The time a version was published (01 R20, R30). -/
def State.pubtOf (s : State) (n : Nat) : Nat := (alGet n s.cmap.pubt).getD 0

/-- The header (01 R20). -/
def State.mapHeader (s : State) : Nat :=
  packBits [(0, 0x333050414D43485A), (64, s.cmap.cmv), (128, s.cmap.seq.toNat), (160, 1), (192, 0x8000),
    (224, s.cmap.grace.toNat), (256, s.pubtOf s.cmap.cmv)]

/-- A fabric port record (01 R24, R36). -/
def State.port (s : State) (q : Nat) : PortRec :=
  let r := (alGet q s.cmap.ports).getD {}
  if (s.die (q / 64)).st == 2 then { r with lanes := 0, st := 0 } else r

/-- A die record as bits (01 R21). -/
def State.dieBits (s : State) (d : Nat) : Nat :=
  let x := s.die d
  if x.st == 2 then packBits [(0, 2), (128, x.lostv)]
  else packBits [(0, x.st.toNat),
    (16, ((List.range 192).filter fun l => s.recLive (192 * d + l)).length),
    (32, ((List.range 48).filter fun c => s.recCluster (48 * d + c)).length),
    (40, packBits ((List.range 8).map fun i => (i, if (s.cmap.stackRecs.getD (8 * d + i) {}).st == 1 then 1 else 0))),
    (48, ((List.range 64).filter fun q => (s.port (64 * d + q)).st != 0).length),
    (64, x.d2dbw), (128, x.lostv)]

/-- A core record as bits (01 R22). -/
def CoreRec.bits (r : CoreRec) : Nat :=
  let live := r.lcore.isSome && !r.failed
  packBits [(0, live.toNat), (1, r.spare.toNat), (2, (r.remap && live).toNat), (3, r.failed.toNat),
    (8, if live then r.lcore.getD 0xFF else 0xFF), (32, if live then r.lcore.getD 0 / 4 else 0xFF),
    (40, if live then r.banks.foldl (· + ·) 0 else 0), (64, r.mapv.toNat)]

/-- A stack record as bits (01 R23). -/
def StackRec.bits (r : StackRec) : Nat :=
  packBits [(0, r.st.toNat), (16, r.chspr), (24, if r.st == 1 then 32 else 0), (64, r.lostv)]

/-- A region-table entry as its 256 bits (06 R192). -/
def RegionE.bits (r : RegionE) : Nat :=
  packBits [(0, r.valid.toNat), (4, r.stride.toNat), (8, r.key.toNat), (16, r.owner.toNat),
    (32, r.stkset.toNat), (64, r.base.toNat), (128, r.size.toNat), (192, r.stkbase.toNat)]

def PortRec.bits (r : PortRec) : Nat :=
  packBits [(0, r.st.toNat), (4, r.lanes.toNat), (16, r.speed), (32, r.recals)]

/-- FNOM and VSET of a clock bin (01 R44). -/
def binFnom (b : Nat) : Nat := 2000 - 100 * b
def binVset (b : Nat) : Nat := 430 - 4 * b

def State.clockBits (s : State) (d : Nat) : Nat :=
  let b := s.cmap.bins.getD d 0
  packBits [(0, b), (16, binFnom b), (32, binVset b), (48, Config.builtFloor)]

/-- A spare record as bits (01 R24, R36). -/
def State.spareBits (s : State) (d : Nat) : Nat :=
  if (s.die d).st == 2 then 0
  else
    let rs := (List.range 200).map (s.coreRec d)
    packBits [(0, (rs.filter CoreRec.spare).length), (8, (rs.filter fun r => r.remap && r.lcore.isSome && !r.failed).length),
      (16, (rs.map fun r => (r.banks.map (Config.builtBanks - ·)).foldl (· + ·) 0).foldl (· + ·) 0 % 256),
      (24, ((List.range 8).map fun i => (s.cmap.stackRecs.getD (8 * d + i) {}).chspr).foldl (· + ·) 0)]

/-- A firmware record as bits (01 R24). -/
def FwRec.bits (r : FwRec) (comp : Nat) : Nat :=
  packBits [(0, comp), (8, r.slot.toNat), (32, r.ver.toNat), (64, r.veralt.toNat)]

/-- The record that covers a byte of the map for virtual device `v`: its start and bits (01 R18, R19). STATE of the host
link reads DOWN from the loss of a die until its retraining has ended, with no version for it.
DESIGN CHOICE (log 135). -/
def State.mapRecord (s : State) (v off : Nat) : Nat × Nat :=
  if off < 0x40 then (0, s.mapHeader)
  else if off < 0xC0 then let d := (off - 0x40) / 64; (0x40 + 64 * d, s.dieBits d)
  else if off < 0x100 then (0xC0, 0)
  else if off < 0x1A00 then
    let i := (off - 0x100) / 16; (0x100 + 16 * i, (s.coreRec (i / 200) (i % 200)).bits)
  else if off < 0x1C00 then
    let i := (off - 0x1A00) / 32; (0x1A00 + 32 * i, (s.cmap.stackRecs.getD i {}).bits)
  else if off < 0x2400 then
    let i := (off - 0x1C00) / 32
    let r := s.region i
    (0x1C00 + 32 * i, if r.valid && r.owner.toNat == v then r.bits else 0)
  else if off < 0x2800 then let q := (off - 0x2400) / 8; (0x2400 + 8 * q, (s.port q).bits)
  else if off < 0x2840 then (0x2800, packBits [(0, s.cmap.linkLanes), (16, s.cmap.linkSpeed), (32, s.linkReady.toNat)])
  else if off < 0x2880 then let d := (off - 0x2840) / 32; (0x2840 + 32 * d, s.clockBits d)
  else if off < 0x28C0 then let d := (off - 0x2880) / 32; (0x2880 + 32 * d, s.spareBits d)
  else if 0x2A00 ≤ off && off < 0x2AC0 then
    let i := (off - 0x2A00) / 32; (0x2A00 + 32 * i, (s.cmap.fw.getD i {}).bits i)
  else (off, 0)

/-- A byte of the map as a context of virtual device `v` reads it. -/
def State.mapByte (s : State) (v off : Nat) : Byte :=
  let (b, r) := s.mapRecord v off
  BitVec.ofNat 8 (r / 2 ^ (8 * (off - b)))

def State.mapBytes (s : State) (v off : Nat) : Nat → List Byte
  | 0 => []
  | n + 1 => s.mapByte v off :: State.mapBytes s v (off + 1) n

/-- MAPGRACE in ns (01 R31). -/
def State.graceNs (s : State) : Nat := s.mapgrc.toNat % 128 * 1000000

/-- Publish one change of the map (01 R25): the version, its time, its deadline, SEQ twice. MAPCHG is then set for
every context, which wakes what naps (01 R28, 16 R415). DESIGN CHOICE (log 26). -/
def State.publish (s : State) (f : Nat → CMap → CMap) : State :=
  let n := s.cmap.cmv + 1
  let m := f n s.cmap
  { s with cmap := { m with cmv := n, seq := m.seq + 2, pubt := alSet n s.time m.pubt,
                            deadlines := alSet n (s.time + s.graceNs) m.deadlines,
                            grace := BitVec.ofNat 32 (s.mapgrc.toNat % 128 * 1000) }
           cores := s.cores.map fun (c, k) => (c, { k with groups := k.groups.map fun (i, g) => (i, g.wakeNap false) }) }

/-- The deadline of version `n` for a context (01 R30, R32). -/
def State.deadline (s : State) (x : Context) (n : Nat) : Nat :=
  let d := (alGet n s.cmap.deadlines).getD 0
  match x.grace with
  | some (upTo, t) => if n ≤ upTo then t else d
  | none => d

/-- Whether some unacknowledged version's deadline has passed (01 R30). -/
def State.overdue (s : State) (x : Context) : Bool :=
  s.cmap.deadlines.any fun (n, _) => decide (x.ackv < n) && decide (s.deadline x n ≤ s.time)

/-- Move the deadlines of the versions a context has not acknowledged (01 R32). -/
def State.moveDeadlines (s : State) (c : Nat) : State :=
  let x := s.ctx c
  if x.ackv < s.cmap.cmv then s.setCtx c { x with grace := some (s.cmap.cmv, s.time + s.graceNs) } else s

/-- MAPCHG for a context (01 R28). -/
def State.mapchg (s : State) (x : Context) : Bool := s.cmap.cmv > x.ackv

/-- Replace the record of a core position, with MAPV the version (01 R22). -/
def CMap.setCoreRec (m : CMap) (d p : Nat) (r : CoreRec) : CMap := { m with cores := alSet (200 * d + p) r m.cores }

end Sys2Proof.Machine
end

