-- ==== Sys2Proof/Machine/Memory.lean ====
section
/-! DEFINITION. Memory (06): the region table, home memory with the write-owned L1s over it, the
dirty log, translation, the scratchpad windows and the accumulator ranges. -/

namespace Sys2Proof.Machine

/-! ## The region table (06 R192, R193, R175) -/

/-- The valid region entry that holds a DPA. -/
def State.regionAt (s : State) (dpa : Nat) : Option RegionE :=
  (s.regions.find? fun (_, r) => r.valid && r.base.toNat ≤ dpa && dpa < r.base.toNat + r.size.toNat).map (·.2)

/-- The positions of the set bits of a stack set, ascending. -/
def stacksOf (m : BitVec 16) : List Nat := (List.range 16).filter fun i => m.getLsbD i

/-- The stack and the stack-local address of a DPA in a region (06 R193). DESIGN CHOICE (log 67). -/
def RegionE.locate (r : RegionE) (dpa : Nat) : Nat × Nat :=
  let st := stacksOf r.stkset
  let n := max 1 st.length
  let str := 2 ^ (8 + r.stride.toNat)
  let o := dpa - r.base.toNat
  let u := o / str
  (st.getD (u % n) 0, r.stkbase.toNat + u / n * str + o % str)

/-- The die whose L2 caches host memory (06 R190). -/
def State.hostDie (s : State) : Nat := if s.dieLost 0 then 1 else 0

/-- The die that a physical address is homed on (06 R190). -/
def State.homeDie (s : State) (p : PA) : Nat :=
  if p.host then s.hostDie
  else match s.regionAt p.addr with
    | some r => (r.locate p.addr).1 / 8
    | none => 0

def State.stackLost (s : State) (k : Nat) : Bool := (s.cmap.stackRecs.getD k {}).st == 2

/-- The checks of 06 R175, 01 R35 and R38 on a physical address for virtual device `v`. -/
def State.checkPa (s : State) (v : Nat) (p : PA) : Option FCode :=
  if p.host then none
  else match s.regionAt p.addr with
    | none => some .prot
    | some r =>
      if r.owner.toNat != v then some .prot
      else
        let k := (r.locate p.addr).1
        if s.dieLost (k / 8) then some .dieLost
        else if s.stackLost k then some .memLost
        else none

/-! ## Home memory and owners (06 R185, R187) -/

/-- The byte `i` of a word. -/
def byteOf (w : Word) (i : Nat) : Byte := (w >>> (8 * i)).setWidth 8

/-- A word with its byte `i` replaced. -/
def setByte (w : Word) (i : Nat) (b : Byte) : Word :=
  (w &&& ~~~(0xFF#32 <<< (8 * i))) ||| (b.setWidth 32 <<< (8 * i))

/-- The core whose L1 serves a core: the first of its cluster when fused (06 R189). DEDUCED (log 76). -/
def State.l1Of (s : State) (c : Nat) : Nat := if (s.core c).fused then c / 4 * 4 else c

/-- The owner of the word at a word-aligned physical address: its L1 and the entry. -/
def State.ownerOf (s : State) (p : PA) : Option (Nat × L1Word) :=
  s.cores.findSome? fun (c, k) => (k.l1.find? fun w => w.pa == p && w.st == .owned).map (c, ·)

def wordPa (p : PA) : PA := { p with addr := p.addr / 4 * 4 }

/-- The stored byte, beside any owner. DESIGN CHOICE (log 11). -/
def State.rawByte (s : State) (p : PA) : Byte := cellGet (if p.host then s.hmem else s.dmem) p.addr

/-- The byte as the home slice serves it: from its owner, if it has one (06 R187). -/
def State.homeByte (s : State) (p : PA) : Byte :=
  match s.ownerOf (wordPa p) with
  | some (_, w) => if w.mask.getLsbD (p.addr % 4) then byteOf w.val (p.addr % 4) else s.rawByte p
  | none => s.rawByte p

/-- `n` bytes as the home slices serve them. -/
def State.homeBytes (s : State) (p : PA) : Nat → List Byte
  | 0 => []
  | n + 1 => s.homeByte p :: State.homeBytes s { p with addr := p.addr + 1 } n

/-- Whether a byte lies in an uncorrectable word, as its home or its owner holds it: a word stays so
until all four of its bytes are written (06 R199). -/
def State.ueByte (s : State) (p : PA) : Bool :=
  match s.ownerOf (wordPa p) with
  | some (_, w) => w.ue || (s.memUe.contains (p.host, p.addr / 4) && w.mask != 0xF)
  | none => s.memUe.contains (p.host, p.addr / 4)

def State.ueBytes (s : State) (p : PA) (n : Nat) : Bool :=
  (List.range n).any fun i => s.ueByte { p with addr := p.addr + i }

/-- The contexts whose stores an L1 word holds. -/
def L1Word.ctxs (w : L1Word) : List Nat := w.ctx :: w.also

/-- Whether an L1 word holds a store of a context. -/
def L1Word.of (w : L1Word) (ctx : Nat) : Bool := w.ctxs.contains ctx

/-- Store bytes beside any owner. -/
def State.rawSet (s : State) (p : PA) (bs : List Byte) : State :=
  if p.host then { s with hmem := cellsSet s.hmem p.addr bs } else { s with dmem := cellsSet s.dmem p.addr bs }

/-! ## The L2 (06 R190, R191) -/

/-- The ways in which a miss by a class of work may allocate in a die's L2 (06 R191). -/
def State.l2WaysFor (s : State) (d : Nat) (h : Bool) : List Nat :=
  (List.range 16).filter fun w => !h || (s.l2ways.getD d 0).getLsbD w

/-- The class of a context's traffic. -/
def State.clsOf (s : State) (ctx : Nat) : Bool := (s.ctx ctx).cls

/-- An access of a context, of its class. -/
def State.workOf (s : State) (ctx : Nat) : Work := ⟨s.clsOf ctx, some ctx⟩

/-- A line that a context moves between its die's L2 and HBM, or on the host link: its bytes count for its USAGE
record, and those of HBM, read or written, for the die's counters (12 R324, 13 R342). DESIGN CHOICE (log 143). -/
def State.lineMoved (s0 : State) (ctx : Option Nat) (host wr : Bool) (d : Nat) : State :=
  let s := if host then s0 else s0.countDie d (if wr then 0x104 else 0x103) 128 (ctx.bind s0.carries)
  match ctx.filter fun c => (alGet c s.ctxs).isSome with
  | some c => s.modCtx c fun x => if host then { x with hostBytes := x.hostBytes + 128 } else { x with hbmBytes := x.hbmBytes + 128 }
  | none => s

/-- Flits that a context moves on the fabric (12 R324, R336). -/
def State.fabMoved (s : State) (ctx : Option Nat) (flits : Nat) : State :=
  match ctx.filter fun c => (alGet c s.ctxs).isSome with
  | some c => s.modCtx c fun x => { x with fabBytes := x.fabBytes + 64 * flits }
  | none => s

/-- An access for some work reaches a line at its home: it stands in its die's L2, the one used last in front. A
miss allocates in a free way of its set among those of its class, else in place of the least recently used
line among them, which is written back; with HWAYS 0 an H miss does not allocate (06 R190, R191). A line that is read in, written back, or written past the L2
counts as bytes moved (12 R324); the access is a hit or a miss of the L2 (13 R342). DESIGN CHOICE (log 117, 143). -/
def State.l2Enter (s0 : State) (w : Work) (dirty host : Bool) (line : Nat) : State :=
  let mine (y : L2Line) : Bool := y.line == line && y.host == host
  let d := s0.homeDie ⟨host, 128 * line⟩
  let s := s0.countDie d (if s0.l2lines.any mine then 0x100 else 0x101) 1 (w.ctx.map fun c => (w.h, (s0.ctx c).part))
  let rest := s.l2lines.filter fun y => !mine y
  match s.l2lines.find? mine with
  | some y => { s with l2lines := { y with dirty := y.dirty || dirty, by_ := if dirty then w.ctx else y.by_ } :: rest }
  | none =>
    let s1 := if dirty then s else s.lineMoved w.ctx host false d
    let new (way : Nat) : L2Line := { host, line, way, dirty, by_ := if dirty then w.ctx else none }
    let peers := rest.filter fun y => y.line % Config.l2WayLines == line % Config.l2WayLines && s.homeDie ⟨y.host, 128 * y.line⟩ == d
    let ways := s.l2WaysFor d w.h
    match ways.find? fun n => peers.all (·.way != n) with
    | some way => { s1 with l2lines := new way :: rest }
    | none =>
      match (peers.filter fun y => ways.contains y.way).getLast? with
      | some v => { if v.dirty then s1.lineMoved v.by_ v.host true d else s1 with l2lines := new v.way :: rest.erase v }
      | none => if dirty then s1.lineMoved w.ctx host true d else s1

/-- The lines of a span of bytes. -/
def linesOf (a n : Nat) : List Nat := (List.range ((a % 128 + n + 127) / 128)).map fun i => a / 128 + i

/-- A dirty line keeps what HBM still holds at the bytes of a span that is about to be written, unless it holds
older ones already (06 R195). -/
def State.keepWas (s : State) (p : PA) (n l : Nat) : State :=
  let was (y : L2Line) : List (Nat × Option Byte) := ((List.range n).filter fun i => (p.addr + i) / 128 == l).filterMap fun i =>
    let o := (p.addr + i) % 128
    if y.was.any fun x => x.1 == o then none
    else some (o, if s.memUe.contains (false, (p.addr + i) / 4) && y.was.all fun x => x.1 / 4 != o / 4 then none
      else some (s.rawByte { p with addr := p.addr + i }))
  { s with l2lines := s.l2lines.map fun y => if y.line == l && !y.host && y.dirty then { y with was := y.was ++ was y } else y }

/-- The L2 holds the lines of a span of bytes that is about to be written at home for some work, dirty until they are
written back (06 R190, R196). -/
def State.l2Dirty (s : State) (w : Work) (p : PA) (n : Nat) : State :=
  let ls := linesOf p.addr n
  let s1 := ls.foldl (fun s l => (s.l2Enter w true p.host l).keepWas p n l) s
  if p.host then s1 else { s1 with written := ls.foldl (fun w l => if w.contains l then w else l :: w) s1.written }

/-- A read of a span of bytes at home for some work is served through the L2 (06 R191). -/
def State.l2Read (s : State) (w : Work) (p : PA) (n : Nat) : State :=
  (linesOf p.addr n).foldl (fun s l => s.l2Enter w false p.host l) s

/-- The words that bytes from an address up touch. DEDUCED (log 63). -/
def wordsTouched (a n : Nat) : List Nat := (List.range ((a % 4 + n + 3) / 4)).map fun i => a / 4 + i

/-- Words that a write of bytes fills whole are good again (06 R199). DEDUCED (log 63). -/
def State.clearUe (s : State) (p : PA) (n : Nat) : State :=
  { s with memUe := s.memUe.filter fun (h, w) => !(h == p.host && p.addr ≤ 4 * w && 4 * w + 4 ≤ p.addr + n) }

/-! ## Owners give words up (06 R187, R199) -/

/-- Write an L1 entry's valid bytes to its home; an uncorrectable word moves with a pattern that reads
as uncorrectable (06 R199). -/
def State.writeBack (s0 : State) (w : L1Word) : State :=
  let s := s0.l2Dirty (s0.workOf w.ctx) w.pa 4
  let s1 := (List.range 4).foldl (fun s i =>
    if w.mask.getLsbD i then s.rawSet { w.pa with addr := w.pa.addr + i } [byteOf w.val i] else s) s
  let key := (w.pa.host, w.pa.addr / 4)
  if w.ue then { s1 with memUe := if s1.memUe.contains key then s1.memUe else key :: s1.memUe }
  else if w.mask == 0xF then s1.clearUe w.pa 4 else s1

/-- The owner of a word writes it back, drops it and gives up ownership. -/
def State.giveUp (s : State) (p : PA) : State :=
  match s.ownerOf p with
  | none => s
  | some (c, w) =>
    (s.modCore c fun k => { k with l1 := k.l1.filter fun x => !(x.pa == p) }).writeBack w

/-- The words of a span are kept as they stand before a write, for the launches that could fetch them as code
(04 R115). -/
def State.noteOld (s : State) (p : PA) (n : Nat) : State :=
  if s.launches.isEmpty then s
  else
    let now := (wordsTouched p.addr n).map fun w => (⟨⟨p.host, 4 * w⟩, leNat (s.homeBytes ⟨p.host, 4 * w⟩ 4), s.nextId⟩ : OldWord)
    { s with oldWords := now ++ s.oldWords.filter fun o => s.launches.any fun l => decide (l.id < o.at_) }

/-- A write at a home by the host or by the package itself: owners give the words up first (06 R187, R188). In the
L2 it may allocate in every way, as class G does. DEDUCED (log 115). DESIGN CHOICE (log 117). -/
def State.homePut (s : State) (p : PA) (bs : List Byte) : State :=
  let s1 := (wordsTouched p.addr bs.length).foldl (fun s w => s.giveUp ⟨p.host, 4 * w⟩) (s.noteOld p bs.length)
  ((s1.l2Dirty {} p bs.length).rawSet p bs).clearUe p bs.length

/-- A write of host memory by the host, or by the package: messages, interrupts and rings. -/
def State.hostPut (s : State) (a : Nat) (bs : List Byte) : State := s.homePut ⟨true, a⟩ bs

/-! ## Interrupts (12 R334) -/

/-- Raise a package interrupt cause. -/
def State.pirq (s : State) (cause : Nat) : State :=
  if s.pirqst.getLsbD cause then s
  else
    let s1 := { s with pirqst := s.pirqst ||| (1#32 <<< cause) }
    if s.pirqaddr == 0 then s1
    else s1.hostPut s.pirqaddr.toNat (leBytes 4 (s.pirqdata.toNat + cause))

/-- Raise an interrupt cause of a virtual device. -/
def State.virq (s : State) (v cause : Nat) : State :=
  let d := s.vd v
  if d.irqst.getLsbD cause then s
  else
    let s1 := s.modVd v fun d => { d with irqst := d.irqst ||| (1#32 <<< cause) }
    if d.irqaddr == 0 then s1
    else s1.hostPut d.irqaddr.toNat (leBytes 4 (d.irqdata.toNat + cause))

/-! ## Rings and the dirty log (12 R320, R328, R329) -/

/-- A ring register's fields (12 R320). -/
def ringEn (r : DWord) : Bool := r.getLsbD 6
def ringHost (r : DWord) : Bool := r.getLsbD 7
def ringBase (r : DWord) : Nat := r.toNat / 4096 % 2 ^ 40 * 4096
def ringSize (r : DWord) : Nat := 2 ^ (r.toNat % 32 + 12)

/-- Write one entry of a ring, at entry number `n` (12 R320). DEDUCED (log 24). -/
def State.ringPut (s : State) (r : DWord) (n : Nat) (bs : List Byte) : State :=
  s.homePut ⟨ringHost r, ringBase r + n * bs.length % ringSize r⟩ bs

/-- Entries held in a dirty log. -/
def VDev.dlCount (d : VDev) : Nat := (d.dltail - d.dlhead).toNat

/-- Append a page to the dirty log; at 7/8 occupancy DLPAUSE is set and cause 2 is sent (12 R329).
DEDUCED (log 24). -/
def State.dirtyPut (s : State) (v page : Nat) : State :=
  let d := s.vd v
  let s1 := s.ringPut d.dlring d.dltail.toNat (leBytes 8 (page * 4096 + 1))
  let d1 := { d with dltail := d.dltail + 1, epochPages := page :: d.epochPages }
  let full := 8 * d1.dlCount ≥ 7 * (ringSize d.dlring / 8)
  let s2 := s1.setVd v { d1 with dlpause := d.dlpause || full }
  if full && !d.dlpause then s2.virq v 2 else s2

/-- Log a write to device memory (12 R328): once a page and epoch; held while the log is paused.
DESIGN CHOICE (log 23). -/
def State.logDirty (s : State) (p : PA) : State :=
  if p.host then s
  else match s.regionAt p.addr with
    | none => s
    | some r =>
      let v := r.owner.toNat
      let d := s.vd v
      let page := p.addr / 4096
      if !ringEn d.dlring || d.epochPages.contains page || d.heldPages.contains page then s
      else if d.dlpause then s.modVd v fun d => { d with heldPages := page :: d.heldPages }
      else s.dirtyPut v page

/-- Whether a write had to be held by a paused dirty log (12 R329). -/
def State.heldMore (s t : State) : Bool :=
  t.vdevs.any fun (v, d) => d.heldPages.length > (s.vd v).heldPages.length

/-- The pages that a span of bytes touches are logged. DESIGN CHOICE (log 23). -/
def State.logSpan (s : State) (p : PA) (n : Nat) : State :=
  (List.range ((p.addr % 4096 + n + 4095) / 4096)).foldl
    (fun s i => s.logDirty { p with addr := (p.addr / 4096 + i) * 4096 }) s

/-! ## Surrender and home writes (06 R187, R188) -/

/-- The owner of a word surrenders it. Its stores took effect, and were logged, before. -/
def State.surrender (s : State) (p : PA) : State := s.giveUp p

/-- A write at the home slice for some work: owners surrender the words first, and the pages are
logged. -/
def State.homeWrite (s : State) (w : Work) (p : PA) (bs : List Byte) : State :=
  let s1 := (wordsTouched p.addr bs.length).foldl (fun s w => s.surrender ⟨p.host, 4 * w⟩) (s.noteOld p bs.length)
  (((s1.l2Dirty w p bs.length).rawSet p bs).clearUe p bs.length).logSpan p bs.length

/-! ## Accesses that the home refuses (06 R195, 01 R38) -/

/-- An access in flight reaches its home after its region was cleared or its stack lost: it faults for
the thread it came from, which stops the context; in handler mode as DOUBLE_FAULT. A die that is lost
has discarded the context already (01 R35). DEDUCED (log 118). -/
def State.lateFault (s : State) (ctx : Nat) (o : Origin) (f : FCode) : State :=
  if f = .dieLost then s
  else
    let dbl := match s.group? o.core o.gid with | some g => g.handler && g.ctx == ctx | none => false
    s.stopCtx ctx (if dbl then .doubleFault else f) 0 o.pc (stopLoc o.core o.gid o.slot)

/-- One stored word of an L1 is registered: any other owner surrenders it, and the store takes effect
(06 R187), unless its home refuses it. -/
def State.grant1 (s : State) (c : Nat) (p : PA) : State :=
  match (s.core c).l1.find? fun w => w.pa == p && w.st == .pending with
  | none => s
  | some w =>
    match s.checkPa (s.ctx w.ctx).vd p with
    | some f => (s.modCore c fun k => { k with l1 := k.l1.filter fun x => !(x.pa == p) }).lateFault w.ctx w.by_ f
    | none =>
      let s1 := (s.noteOld p 4).surrender p
      (s1.modCore c fun k => { k with l1 := k.l1.map fun w =>
        if w.pa == p then { w with st := .owned } else w }).logDirty p

/-- The other word of an aligned 8-byte pair. -/
def pairPa (p : PA) : PA := { p with addr := if p.addr % 8 = 0 then p.addr + 4 else p.addr - 4 }

/-- Ownership of a stored word is granted, with the other half of an 8-byte store (07 R205). -/
def State.grant (s : State) (c : Nat) (p : PA) : State :=
  match (s.core c).l1.find? fun w => w.pa == p && w.st == .pending with
  | none => s
  | some w =>
    let s1 := s.grant1 c p
    if w.wide && ((s1.core c).l1.any fun x => x.pa == pairPa p && x.st == .pending && x.wide) then s1.grant1 c (pairPa p)
    else s1

/-! ## The write-owned L1 (06 R185, R186) -/

/-- The lines that an L1 holds. -/
def Core.l1Held (k : Core) : List (Bool × Nat) := (k.l1.map fun w => (w.pa.host, w.pa.addr / 128)).eraseDups

/-- Whether an L1 has no room for the line of an address: 2,048 lines, or in a fused L1 as many in each
core's quarter, which address bits [8:7] select (06 R185, R189). DESIGN CHOICE (log 117). -/
def State.l1Full (s : State) (c : Nat) (p : PA) : Bool :=
  let held := (s.core c).l1Held
  !held.contains (p.host, p.addr / 128) &&
    decide (Config.l1Lines ≤ (held.filter fun (_, l) => !(s.core c).fused || l % 4 == p.addr / 128 % 4).length)


/-- A store into an L1: its bytes join the word's entry, which waits for its registration unless
the L1 owns the word already. Over a copy that is uncorrectable the word stays so whole (06 R199). -/
def State.l1StoreByte (s : State) (c ctx : Nat) (o : Origin) (wide : Bool) (p : PA) (b : Byte) : State :=
  let wp := wordPa p
  let i := p.addr % 4
  let m : BitVec 4 := 1#4 <<< i
  s.modCore c fun k =>
    match k.l1.find? fun w => w.pa == wp && w.st != .unowned with
    | some _ => { k with l1 := k.l1.map fun w =>
        if w.pa == wp then { w with val := setByte w.val i b, mask := w.mask ||| m, wide := w.wide || wide, by_ := o
                                    also := if w.of ctx then w.also else ctx :: w.also }
        else w }
    | none =>
      let r := k.l1.filter fun w => !(w.pa == wp)
      match k.l1.find? fun w => w.pa == wp && w.ue with
      | some w => { k with l1 := { pa := wp, val := setByte w.val i b, mask := 0xF, st := .pending, wide, ue := true, ctx, by_ := o } :: r }
      | none => { k with l1 := { pa := wp, val := setByte 0 i b, mask := m, st := .pending, wide, ctx, by_ := o } :: r }

/-- A store of bytes into an L1; a store to an owned word takes effect at once and is logged, and a word
written whole is good again (06 R199). -/
def State.l1Store (s : State) (c ctx : Nat) (o : Origin) (p : PA) (bs : List Byte) : State :=
  let wide := bs.length == 8
  let s1 := (bs.mapIdx fun i b => (i, b)).foldl (fun s (i, b) => s.l1StoreByte c ctx o wide { p with addr := p.addr + i } b) (s.noteOld p bs.length)
  let s2 := s1.modCore c fun k => { k with l1 := k.l1.map fun w =>
    if w.ue && w.pa.host == p.host && decide (p.addr ≤ w.pa.addr) && decide (w.pa.addr + 4 ≤ p.addr + bs.length) then { w with ue := false }
    else w }
  (wordsTouched p.addr bs.length).foldl (fun s w =>
    if ((s.core c).l1.find? fun x => x.pa == (⟨p.host, 4 * w⟩ : PA) && x.st == .owned).isSome then s.logDirty ⟨p.host, 4 * w⟩
    else s) s2

/-- Whether an 8-byte store would show one half before the other: its L1 owns one of the words only
(07 R205). -/
def Core.wouldTear (k : Core) (p : PA) (n : Nat) : Bool :=
  let owned (q : PA) : Bool := k.l1.any fun w => w.pa == q && w.st == .owned
  n == 8 && owned (wordPa p) != owned (pairPa (wordPa p))

/-- The byte a load of the L1 returns, and whether it hits (06 R185). -/
def State.l1Byte (s : State) (c : Nat) (p : PA) : Byte × Bool :=
  match (s.core c).l1.find? fun w => w.pa == wordPa p && w.mask.getLsbD (p.addr % 4) with
  | some w => (byteOf w.val (p.addr % 4), true)
  | none => (s.homeByte p, false)

/-- Whether the byte that a load of the L1 takes is uncorrectable (06 R199). -/
def State.l1Bad (s : State) (c : Nat) (p : PA) : Bool :=
  match (s.core c).l1.find? fun w => w.pa == wordPa p && w.mask.getLsbD (p.addr % 4) with
  | some w => w.ue || (w.mask != 0xF && s.memUe.contains (p.host, p.addr / 4))
  | none => s.ueByte p

/-- Fetch the 128-byte line of an address as it stands now: its unowned words are taken anew; words that
are uncorrectable at home are not (06 R185). An L1 without room for the line keeps nothing of it. -/
def State.fetchLine (s : State) (c : Nat) (p : PA) : State :=
  let base := p.addr / 128 * 128
  if s.l1Full c p then s
  else
    let old := s.modCore c fun k => { k with l1 := k.l1.filter fun w =>
      !(w.st == .unowned && w.pa.host == p.host && w.pa.addr / 128 == p.addr / 128) }
    (List.range 32).foldl (fun s i =>
      let wp : PA := ⟨p.host, base + 4 * i⟩
      if ((s.core c).l1.any fun w => w.pa == wp) || s.ueBytes wp 4 then s
      else
        let v := BitVec.ofNat 32 (leNat (s.homeBytes wp 4))
        s.modCore c fun k => { k with l1 := { pa := wp, val := v, mask := 0xF, st := .unowned } :: k.l1 }) old

/-- Whether a load of bytes hits in an L1. -/
def State.l1Hit (s : State) (c : Nat) (p : PA) (n : Nat) : Bool :=
  (List.range n).all fun i => (s.l1Byte c { p with addr := p.addr + i }).2

/-- The bytes that a load takes through an L1, with the line fetched on a miss (06 R185). -/
def State.l1Load (s : State) (c : Nat) (p : PA) (n : Nat) : List Byte × State :=
  let s1 := if s.l1Hit c p n then s else s.fetchLine c p
  ((List.range n).map fun i => (s1.l1Byte c { p with addr := p.addr + i }).1, s1)

/-- An unowned copy of the words of a span leaves an L1. -/
def State.dropCopies (s : State) (c : Nat) (p : PA) (n : Nat) : State :=
  s.modCore c fun k => { k with l1 := k.l1.filter fun w =>
    !(w.st == .unowned && w.pa.host == p.host && (wordsTouched p.addr n).contains (w.pa.addr / 4)) }

/-- Whether the power controller holds back an HBM request of a class for a span, of which the L2 does not
hold every line (10 R292). DESIGN CHOICE (log 102). -/
def State.hbmHolds (s : State) (h : Bool) (p : PA) (n : Nat) : Bool :=
  decide (2 ≤ s.pwrStep) && h && !p.host && (linesOf p.addr n).any fun l => !s.l2lines.any fun x => x.host == p.host && x.line == l

/-- Whether it holds back a context's request for the line of an address. DESIGN CHOICE (log 102). -/
def State.hbmStopped (s : State) (ctx : Nat) (p : PA) : Bool := s.hbmHolds (s.clsOf ctx) p 1

/-- The L1 action of an acquire: every unowned word is invalidated (06 R186). DEDUCED (log 57, 75). -/
def State.l1Acquire (s : State) (c : Nat) : State :=
  s.modCore c fun k => { k with l1 := k.l1.filter fun w => w.st != .unowned }

/-- A change of the state that a paused dirty log does not hold (12 R329). -/
def State.unlessHeld (s t : State) : State := if s.heldMore t then s else t

/-- Whether the power controller holds back the write-back of a stored word of an L1 (10 R292). DESIGN CHOICE (log 102). -/
def State.wordStopped (s : State) (w : L1Word) : Bool := w.st != .unowned && s.hbmHolds (s.clsOf w.ctx) w.pa 4

/-- Whether it does so for some word that an L1 holds of a line. -/
def State.lineStopped (s : State) (c : Nat) (p : PA) : Bool :=
  (s.core c).l1.any fun w => w.pa.host == p.host && w.pa.addr / 128 == p.addr / 128 && s.wordStopped w

/-- The L1 action of a release: every stored word takes effect, is written back and given up, but for
those that a paused dirty log or the power controller holds (12 R329, 10 R292). -/
def State.l1Release (s : State) (c : Nat) : State :=
  let ws := (s.core c).l1.filter fun w => w.st != .unowned
  ws.foldl (fun s w => if s.wordStopped w then s else s.unlessHeld ((s.grant c w.pa).surrender w.pa)) s

/-- Whether an L1 still holds a stored word of a context's virtual device: its releases wait (12 R329), those of
class G not for one that only the power controller holds back, which stops no G work (10 R292). -/
def State.l1Owes (s : State) (c ctx : Nat) : Bool :=
  (s.core c).l1.any fun w => w.st != .unowned && (w.ctxs.any fun x => (s.ctx x).vd == (s.ctx ctx).vd)
    && (s.clsOf ctx || !s.wordStopped w || s.heldMore ((s.grant c w.pa).surrender w.pa))

/-- An ATG, REDG or streaming store makes its own core's L1 surrender the line and drop it (06 R188). -/
def State.dropLine (s : State) (c : Nat) (p : PA) : State :=
  let ln := p.addr / 128
  let ws := (s.core c).l1.filter fun w => w.pa.host == p.host && w.pa.addr / 128 == ln && w.st != .unowned
  let s1 := ws.foldl (fun s w => (s.grant c w.pa).surrender w.pa) s
  s1.modCore c fun k => { k with l1 := k.l1.filter fun w => !(w.pa.host == p.host && w.pa.addr / 128 == ln) }

/-- An L1 without room for the line of an address makes room: of the lines that neither a paused dirty log nor the
power controller holds there, the one whose words it has held longest leaves it (06 R185, 12 R329). DESIGN CHOICE (log 117). -/
def State.l1MakeRoom (s : State) (c : Nat) (p : PA) : State :=
  if !s.l1Full c p then s
  else
    let k := s.core c
    match k.l1.reverse.find? fun w => (!k.fused || w.pa.addr / 128 % 4 == p.addr / 128 % 4) && !s.lineStopped c w.pa && !s.heldMore (s.dropLine c w.pa) with
    | some w => s.dropLine c w.pa
    | none => s

/-- A streaming store leaves its line in the L2 first in line for eviction (06 R188). -/
def State.l2Demote (s : State) (p : PA) : State :=
  let mine (x : L2Line) : Bool := x.host == p.host && x.line == p.addr / 128
  { s with l2lines := (s.l2lines.filter fun x => !mine x) ++ s.l2lines.filter mine }

/-! ## Translation (06 R170 to R178) -/

/-- The kinds of access (06 R174). -/
inductive AK where
  | rd | wr | rmw | ex
  deriving DecidableEq, Repr

/-- The ACC bits of a page request (06 R181). -/
def AK.bits : AK → BitVec 3
  | .rd => 1 | .wr => 2 | .rmw => 3 | .ex => 4

def AK.allowed (k : AK) (e : TlbE) : Bool :=
  match k with
  | .rd => e.rd
  | .wr => e.w
  | .rmw => e.rd && e.w
  | .ex => e.x

/-- How a translation ends. -/
inductive XRes where
  | ok (p : PA)
  | map (off : Nat)
  | miss
  | fault (c : FCode)
  deriving DecidableEq, Repr

/-- How a page walk ends (06 R173). -/
inductive WRes where
  | leaf (e : TlbE)
  | fault (c : FCode)
  | request
  deriving DecidableEq, Repr

/-- A walk's result, the descriptor addresses it read, and its non-leaf descriptors. -/
structure WOut where
  res : WRes
  reads : List Nat := []
  inner : List (Nat × DWord) := []
  deriving DecidableEq, Repr

/-- Whether a descriptor breaks a rule of 06 R172 at its level, but for the 16 of a 64 KiB page. -/
def malformed (level : Nat) (d : Nat) : Bool :=
  let leaf := d / 2 % 2 == 1
  let p64 := d / 32 % 2 == 1
  let tgt := d / 256 % 16
  let addr := d / 4096 % 2 ^ 40
  d / 2 ^ 52 != 0 || d / 128 % 2 != 0
    || (leaf && level ≥ 3) || (!leaf && level == 0)
    || (p64 && !(leaf && level == 0))
    || (!leaf && tgt != 0) || (leaf && tgt > 1)
    || ((!leaf || tgt == 0) && addr / 2 ^ 28 != 0)
    || (leaf && level == 2 && addr % 2 ^ 18 != 0) || (leaf && level == 1 && addr % 2 ^ 9 != 0)
    || (leaf && level == 0 && p64 && addr % 16 != 0)

/-- One descriptor as a walk of a die reads it: the die's walk cache may serve an older one until
it is invalidated (06 R176, R180; log 4). DESIGN CHOICE (log 27). -/
def State.descAt (s : State) (die level a : Nat) : Nat :=
  let now := leNat (s.homeBytes ⟨false, a⟩ 8)
  match s.walkCache.find? fun (d, x, _) => d == die && x == a with
  | some (_, _, w) => if w.toNat != now && Config.freeBit (s.free + level) then w.toNat else now
  | none => now

/-- The walk from a table at a level down (06 R173). DESIGN CHOICE (log 27). -/
def State.walkFrom (s : State) (die v ctx va : Nat) : Nat → Nat → WOut
  | level, table =>
    let idx := va / 2 ^ (12 + 9 * level) % (if level = 4 then 256 else 512)
    let a := table + 8 * idx
    match s.checkPa v ⟨false, a⟩ with
    | some f => ⟨.fault f, [a], []⟩
    | none =>
      if s.ueBytes ⟨false, a⟩ 8 then ⟨.fault .memUe, [a], []⟩
      else
        let d := s.descAt die level a
        if d % 2 == 0 then (if d / 64 % 2 == 1 then ⟨.request, [a], []⟩ else ⟨.fault .page, [a], []⟩)
        else if malformed level d then ⟨.fault .page, [a], []⟩
        else if d / 2 % 2 == 1 then
          let p64 := d / 32 % 2 == 1
          let base := table + 8 * (idx / 16 * 16)
          if p64 && (List.range 16).any fun i => s.ueBytes ⟨false, base + 8 * i⟩ 8 then ⟨.fault .memUe, [a], []⟩
          else if p64 && !((List.range 16).all fun i => s.descAt die level (base + 8 * i) == d) then
            ⟨.fault .page, [a], []⟩
          else
            let bits := if level = 2 then 30 else if level = 1 then 21 else if p64 then 16 else 12
            ⟨.leaf { ctx, vbase := va / 2 ^ bits, bits, host := d / 256 % 16 == 1,
                     pbase := d / 4096 % 2 ^ 40 * 4096, rd := d / 4 % 2 == 1, w := d / 8 % 2 == 1,
                     x := d / 16 % 2 == 1 }, [a], []⟩
        else
          match level with
          | 0 => ⟨.fault .page, [a], []⟩
          | l + 1 =>
            let r := State.walkFrom s die v ctx va l (d / 4096 % 2 ^ 40 * 4096)
            { r with reads := a :: r.reads, inner := (a, BitVec.ofNat 64 d) :: r.inner }

/-- The walk of a context's virtual address on a die. -/
def State.walk (s : State) (die ctx va : Nat) : WOut :=
  let x := s.ctx ctx
  s.walkFrom die x.vd ctx va 4 x.root

/-- A walk's reads: they set TDM bits (01 R34) and go through the L2. -/
def State.touchReads (s : State) (ctx : Nat) (as : List Nat) : State :=
  as.foldl (fun s a => (s.touch ctx (s.homeDie ⟨false, a⟩)).l2Read (s.workOf ctx) ⟨false, a⟩ 8) s

/-- Whether the power controller holds back a walk of a context (10 R292). -/
def State.walkStopped (s : State) (ctx : Nat) (as : List Nat) : Bool := as.any fun a => s.hbmStopped ctx ⟨false, a⟩

/-- An entry of a TLB that serves an address of a context. -/
def tlbFind (l : List TlbE) (ctx va : Nat) : Option TlbE :=
  l.find? fun e => e.ctx == ctx && va / 2 ^ e.bits == e.vbase

def TlbE.pa (e : TlbE) (va : Nat) : PA := ⟨e.host, e.pbase + va % 2 ^ e.bits⟩

/-- Whether an address lies in a context's map window (01 R18). -/
def Context.inMap (x : Context) (va : Nat) : Bool := x.cmapva.toNat ≤ va && va < x.cmapva.toNat + 0x8000

/-- Permission and region checks of a found translation (06 R174, R175). -/
def State.grantXlat (s : State) (v : Nat) (k : AK) (e : TlbE) (va : Nat) : XRes :=
  if !k.allowed e then .fault .prot
  else match s.checkPa v (e.pa va) with
    | some f => .fault f
    | none => .ok (e.pa va)

/-- Translate an address for a core: the map window, then the L1 TLB with `extra` translations kept
for the asking group, then the cluster's L2 TLB (06 R176, R177; 01 R18). -/
def State.translate (s : State) (c ctx : Nat) (extra : List TlbE) (k : AK) (va : Nat) : XRes :=
  let x := s.ctx ctx
  if va ≥ 2 ^ 56 then .fault .page
  else if x.inMap va then (if k == .rd then .map (va - x.cmapva.toNat) else .fault .prot)
  else
    match tlbFind ((s.core c).tlb ++ extra) ctx va with
    | some e => s.grantXlat x.vd k e va
    | none =>
      match (s.l2tlb.filter fun (cl, _) => cl == clusOf c).findSome? fun (_, e) =>
          if e.ctx == ctx && va / 2 ^ e.bits == e.vbase then some e else none with
      | some e => s.grantXlat x.vd k e va
      | none => .miss

/-- Whether an address misses a core's L1 TLB, and the translations kept for the asking group, and the cluster's
L2 TLB serves it (06 R176). -/
def State.l2Served (s : State) (c ctx : Nat) (extra : List TlbE) (va : Nat) : Bool :=
  !(s.ctx ctx).inMap va && (tlbFind ((s.core c).tlb ++ extra) ctx va).isNone
    && s.l2tlb.any fun (cl, e) => cl == clusOf c && e.ctx == ctx && va / 2 ^ e.bits == e.vbase

/-- The entry of a TLB that serves an address for a core. -/
def State.entryFor (s : State) (c ctx : Nat) (extra : List TlbE) (va : Nat) : Option TlbE :=
  tlbFind ((s.core c).tlb ++ extra ++ (s.l2tlb.filter fun (cl, _) => cl == clusOf c).map (·.2)) ctx va

/-- Whether a fault is its home's answer to an access: the request was issued, which marks the home's die (01 R34). -/
def FCode.atHome (f : FCode) : Bool := f == .memLost || f == .dieLost

/-- An access of a core that its home answers with a fault marks the home's die (01 R34, R35, R38). -/
def State.touchLost (s : State) (c ctx : Nat) (extra : List TlbE) (va : Nat) : State :=
  match s.entryFor c ctx extra va with
  | some e => s.touch ctx (s.homeDie (e.pa va))
  | none => s

/-- The L1 TLB misses of accesses that the L2 TLB serves are counted, once a page (13 R342). -/
def State.tlbMissed (s : State) (c ctx : Nat) (extra : List TlbE) (vas : List Nat) : State :=
  s.countCore c 0xD (((vas.filter fun a => s.l2Served c ctx extra a).map (· / 4096)).eraseDups).length (s.carries ctx)

/-- The L1 TLB misses of accesses that no break of a clause counts are counted, whatever serves them, once a page
(13 R342). -/
def State.missedAll (s : State) (c ctx : Nat) (extra : List TlbE) (vas : List Nat) : State :=
  let miss (a : Nat) : Bool := !(s.ctx ctx).inMap a && (tlbFind ((s.core c).tlb ++ extra) ctx a).isNone
  s.countCore c 0xD (((vas.filter miss).map (· / 4096)).eraseDups).length (s.carries ctx)

/-- Enter a translation into a core's L1 TLB and into its set of its cluster's L2 TLB, the oldest
leaving first. DESIGN CHOICE (log 22). -/
def State.fillTlb (s : State) (c : Nat) (e : TlbE) : State :=
  let s1 := s.modCore c fun k => { k with tlb := (e :: k.tlb.filter (· != e)).take Config.l1TlbEntries }
  let mine (x : Nat × TlbE) : Bool := x.1 == clusOf c && x.2.vbase % Config.l2TlbSets == e.vbase % Config.l2TlbSets
  let set := (s1.l2tlb.filter mine).filter (·.2 != e)
  { s1 with l2tlb := (clusOf c, e) :: set.take (Config.l2TlbWays - 1) ++ s1.l2tlb.filter fun x => !mine x }

/-- Whether a die runs as many walks as it can; one that waits on a page request is running (06 R176).
DESIGN CHOICE (log 133). -/
def State.walksFull (s : State) (die : Nat) : Bool :=
  decide (Config.walksPerDie ≤ (s.walks.filter fun w => w.die == die).length)

/-- Join a waiter to the walk of a page in a die, starting one if none runs and the die can (06 R176,
R178); else the waiter tries again. -/
def State.startWalk (s : State) (die ctx vpage : Nat) (k : AK) (who : Waiter) : State :=
  match s.walks.find? fun w => w.die == die && w.ctx == ctx && w.vpage == vpage with
  | some w =>
    { s with walks := s.walks.map fun x =>
        if x.id = w.id then { x with acc := x.acc ||| k.bits, who := if x.who.contains who then x.who else who :: x.who }
        else x }
  | none =>
    if s.walksFull die then s
    else
    let (i, s1) := s.fresh
    { s1 with walks := s1.walks ++ [{ id := i, die, ctx, vpage, acc := k.bits, who := [who] }] }

/-- Non-leaf descriptors that a walk read enter the walk cache of its die (06 R176).
DESIGN CHOICE (log 27). -/
def State.cacheInner (s : State) (die : Nat) (ds : List (Nat × DWord)) : State :=
  { s with walkCache := ds.foldl (fun l (a, d) => (die, a, d) :: l.filter fun (d', a', _) => !(d' == die && a' == a)) s.walkCache,
           free := if ds.isEmpty then s.free else s.free + 5 }

/-- The fault that an ended walk left with a waiter (06 R177, R182). -/
def State.waiterFault (s : State) (who : Waiter) (va : Nat) : Option FCode :=
  let at_ (l : List (Nat × FCode)) : Option FCode := (l.find? (·.1 == va / 4096)).map (·.2)
  match who with
  | .group c g => (s.group? c g).bind fun x => at_ x.walkFaults
  | .disp q => at_ (s.queue q).walkFaults
  | _ => at_ ((s.walkFailed.filter fun x => x.1 == who).map (·.2))

/-- The faults that walks left a waiter other than a group or a queue are discarded. -/
def State.forgetWalks (s : State) (who : Waiter) : State := { s with walkFailed := s.walkFailed.filter fun x => x.1 != who }

/-- Those that they left the Sinter engines are. -/
def State.forgetSinter (s : State) : State :=
  { s with walkFailed := s.walkFailed.filter fun x => match x.1 with | .sinter _ _ => false | _ => true }

/-- The translation that a walk joined by a waiter left it (06 R178). -/
def State.keptFor (s : State) (who : Waiter) (ctx va : Nat) : Option TlbE :=
  match who with
  | .group c g => (s.group? c g).bind fun x => tlbFind x.walkHits ctx va
  | _ => tlbFind ((s.walkKept.filter fun x => x.1 == who).map (·.2)) ctx va

/-- The places at which a span of one page may change its stack, with their offsets: its first byte and
the multiples of 256 bytes in it (06 R193). -/
def stripesOf (p : PA) (n : Nat) : List (PA × Nat) :=
  (p, 0) :: ((List.range ((p.addr % 256 + n - 1) / 256)).map fun i =>
    let a := (p.addr / 256 + i + 1) * 256
    ({ p with addr := a }, a - p.addr))

/-- An access to a span marks the dies of all of its stripes, up to the first that faults (01 R34). -/
def State.touchSpan (s : State) (ctx : Nat) (p : PA) (n : Nat) : State :=
  (stripesOf p n).foldl (fun s (q, _) => s.touch ctx (s.homeDie q)) s

/-- The first fault of the stripes of a span, with its offset (06 R175, 01 R35, R38). -/
def State.spanFault (s : State) (v : Nat) (p : PA) (n : Nat) : Option (FCode × Nat) :=
  (stripesOf p n).findSome? fun (q, o) => (s.checkPa v q).map (·, o)

/-- Translate for an engine, the dispatcher, Sinter or a save: a walk made in the same step. An access
to a page whose walk runs, or whose walk needs a page request, joins it and answers miss
(06 R178, R184). DESIGN CHOICE (log 28). DEDUCED (log 32). -/
def State.xlatNow (s : State) (die ctx : Nat) (k : AK) (who : Waiter) (va : Nat) : XRes × State :=
  let x := s.ctx ctx
  if va ≥ 2 ^ 56 then (.fault .page, s)
  else if x.inMap va then (if k == .rd then .map (va - x.cmapva.toNat) else .fault .prot, s)
  else
    let finish (s1 : State) (e : TlbE) : XRes × State :=
      match s1.grantXlat x.vd k e va with
      | .ok p => (.ok p, s1.touch ctx (s1.homeDie p))
      | .fault f => (.fault f, if f.atHome then s1.touch ctx (s1.homeDie (e.pa va)) else s1)
      | y => (y, s1)
    match s.waiterFault who va, s.keptFor who ctx va, s.walks.find? fun w => w.die == die && w.ctx == ctx && w.vpage == va / 4096 with
    | some f, _, _ => (.fault f, s)
    | none, some e, _ => finish s e
    | none, none, some _ => (.miss, s.startWalk die ctx (va / 4096) k who)
    | none, none, none =>
      if s.walksFull die then (.miss, s)
      else
      let r := s.walk die ctx va
      if s.walkStopped ctx r.reads then (.miss, s)
      else
      let s0 := (s.touchReads ctx r.reads).countDie die 0x109 1 (s.carries ctx)
      let s1 := match r.res with | .leaf _ => s0.cacheInner die r.inner | _ => s0
      match r.res with
      | .leaf e => finish s1 e
      | .fault f => (.fault f, s1)
      | .request => (.miss, s.startWalk die ctx (va / 4096) k who)

/-- Read bytes of a context's global memory at their homes, page by page; `none` bytes do not occur:
the read answers its bytes, waits, or faults at an address (08 R233, 09 R259). -/
inductive GRead where
  | ok (bs : List Byte)
  | wait
  | fault (c : FCode) (va : Nat)
  deriving DecidableEq, Repr

/-- The class of an access of a context by a waiter: a spill write of the Sinter engine carries G (10 R272). -/
def State.clsFor (s : State) (ctx : Nat) (wr : Bool) : Waiter → Bool
  | .sinter _ _ => !wr && s.clsOf ctx
  | _ => s.clsOf ctx

def State.workFor (s : State) (ctx : Nat) (wr : Bool) (who : Waiter) : Work := ⟨s.clsFor ctx wr who, some ctx⟩

/-- The first byte of a span that lies in an uncorrectable word, by its offset. -/
def State.firstUe (s : State) (p : PA) (n : Nat) : Option Nat := (List.range n).find? fun i => s.ueByte { p with addr := p.addr + i }

/-- Split a span of addresses at 4 KiB pages: (address, bytes). -/
def pageSpans : Nat → Nat → Nat → List (Nat × Nat)
  | 0, _, _ => []
  | fuel + 1, va, n =>
    if n = 0 then []
    else
      let k := min n (4096 - va % 4096)
      (va, k) :: pageSpans fuel (va + k) (n - k)

/-- Read a span of a context's memory. DESIGN CHOICE (log 28). -/
def State.gread (s : State) (die ctx : Nat) (who : Waiter) (va n : Nat) : GRead × State :=
  (pageSpans (n / 4096 + 2) va n).foldl (fun (acc, s) (a, k) =>
    match acc with
    | .ok bs =>
      let a' := a % 2 ^ 64
      match s.xlatNow die ctx .rd who a' with
      | (.ok p, s1) =>
        let s2 := s1.touchSpan ctx p k
        match s2.spanFault (s2.ctx ctx).vd p k with
        | some (f, o) => (.fault f (a' + o), s2)
        | none =>
          let w := s2.workFor ctx false who
          if s2.hbmHolds w.h p k then (.wait, s2)
          else match s2.firstUe p k with
            | some o => (.fault .memUe ((a' + o) / 4 * 4), s2.l2Read w p k)
            | none => (.ok (bs ++ s2.homeBytes p k), s2.l2Read w p k)
      | (.map off, s1) => (.ok (bs ++ s1.mapBytes (s1.ctx ctx).vd off k), s1)
      | (.miss, s1) => (.wait, s1)
      | (.fault f, s1) => (.fault f a', s1)
    | e => (e, s)) (.ok [], s)

/-- Write a span of a context's memory at its homes: up to the first stripe that faults, or the first page
that a paused dirty log or the power controller holds, for which it waits (12 R329, 10 R292).
DESIGN CHOICE (log 28). -/
def State.gwrite (s : State) (die ctx : Nat) (who : Waiter) (va : Nat) (bs : List Byte) : GRead × State :=
  let (r, s1, _) := (pageSpans (bs.length / 4096 + 2) va bs.length).foldl (fun (acc, s, rest) (a, k) =>
    match acc with
    | GRead.ok _ =>
      let a' := a % 2 ^ 64
      match s.xlatNow die ctx .wr who a' with
      | (.ok p, s1) =>
        let s2 := s1.touchSpan ctx p k
        match s2.spanFault (s2.ctx ctx).vd p k with
        | some (f, o) => (.fault f (a' + o), s2.unlessHeld (s2.homeWrite (s2.workFor ctx true who) p (rest.take o)), rest)
        | none =>
          let t := s2.homeWrite (s2.workFor ctx true who) p (rest.take k)
          if s2.heldMore t || s2.hbmHolds (s2.clsFor ctx true who) p k then (.wait, s2, rest) else (.ok [], t, rest.drop k)
      | (.map _, s1) => (.fault .prot a', s1, rest)
      | (.miss, s1) => (.wait, s1, rest)
      | (.fault f, s1) => (.fault f a', s1, rest)
    | e => (e, s, rest)) (GRead.ok [], s, bs)
  (r, s1)

/-- What stays of an access that waits: its walks, the TDM bits of what it has asked for, and what it has written
up to a page that a paused dirty log holds (01 R34, 06 R178, 12 R329). The rest is done anew when it is tried
again. -/
def State.keepWait (s t : State) : State :=
  if s.vdevs.map (·.2.dltail) = t.vdevs.map (·.2.dltail) then
    { s with walks := t.walks, nextId := t.nextId, ctxs := s.ctxs.map fun (c, x) => (c, { x with tdm := x.tdm ||| (t.ctx c).tdm }) }
  else t

/-! ## The scratchpad (06 R161 to R164) -/

/-- The swizzle of code `sw` (06 R163). DEDUCED (log 64). -/
def swizzle (sw a : Nat) : Nat :=
  if sw = 0 then a
  else if sw = 6 then a ^^^ (a / 2 ^ 11 % 32 * 32)
  else a ^^^ (a / 2 ^ 10 % 2 ^ sw * 32)

/-- The core and row-relative place of a window address in a block, or none when it is out of range
(06 R161, R162). -/
def State.scratchAt (s : State) (c : Nat) (b : Block) (a n : Nat) : Option (Nat × Nat) :=
  let off := a % 2 ^ 20
  let w := a / 2 ^ 20
  let place (c' : Nat) (b' : Block) : Option (Nat × Nat) :=
    if off + n ≤ 4096 * b'.rows.length then some (c', 4096 * b'.rows.getD (off / 4096) 0 + off % 4096) else none
  if w = 0 then place c b
  else if w ≤ 4 then
    match b.cluster with
    | none => none
    | some j =>
      let c' := c / 4 * 4 + (w - 1)
      match (s.core c').blocks.find? fun x => x.launch == b.launch && x.cluster == some j with
      | some b' => place c' b'
      | none => none
  else none

def State.scratchGet (s : State) (c a n : Nat) : List Byte := cellsGet (s.core c).scratch a n

def State.scratchUeAt (s : State) (c a n : Nat) : Bool :=
  (wordsTouched a n).any fun w => (s.core c).scratchUe.contains w

/-- What a scratchpad held before a store of its own core's threads, until they release it: an engine
may still read it (07 R216). -/
def State.keepOld (s : State) (c gid : Nat) (m : Mask) (at_ a n : Nat) : State :=
  s.modCore c fun k => { k with scrOld := k.scrOld ++ (List.range n).map fun i => ⟨a + i, cellGet k.scratch (a + i), gid, m, at_⟩ }

/-- A release of threads shows the engines of their core the scratchpad stores that came before it (07 R216). -/
def Core.released (k : Core) (gid : Nat) (m : Mask) (before : Nat) : Core :=
  { k with scrOld := k.scrOld.filter fun o => !(o.gid == gid && (o.mask &&& m) != 0 && decide (o.at_ ≤ before)) }

/-- Rows of a scratchpad go to another block: nobody's older bytes of them stay. -/
def Core.forgetOld (k : Core) (rows : List Nat) : Core :=
  { k with scrOld := k.scrOld.filter fun o => !rows.contains (o.addr / 4096) }

def State.scratchSet (s : State) (c a : Nat) (bs : List Byte) : State :=
  s.modCore c fun k =>
    { k with scratch := cellsSet k.scratch a bs,
             scratchUe := k.scratchUe.filter fun w => !(a ≤ 4 * w && 4 * w + 4 ≤ a + bs.length) }

/-! ## The accumulator store (06 R168, R169) -/

/-- Rows of a context's accumulator range and the first word of it in its bank. -/
def State.accRange (s : State) (ctx : Nat) : Nat × Nat :=
  let b := (s.part (s.ctx ctx).part).b.toNat
  (b / 2 ^ 32 % 2 ^ 12, b / 2 ^ 16 % 2 ^ 11 * 128)

/-- Whether a word address lies in the context's range. -/
def State.accOk (s : State) (ctx w : Nat) : Bool := w < 128 * (s.accRange ctx).1

/-- Tiles of a context's range. -/
def State.accTiles (s : State) (ctx : Nat) : Nat := (s.accRange ctx).1 / 128

def wordGet (m : List (Nat × Word)) (a : Nat) : Word := (alGet a m).getD 0
def wordSet (m : List (Nat × Word)) (a : Nat) (v : Word) : List (Nat × Word) := if v = 0 then alDel a m else alSet a v m

/-- The word of the context's accumulator range on a core. -/
def State.accGet (s : State) (c ctx w : Nat) : Word :=
  let k := s.core c
  wordGet (if (s.ctx ctx).cls then k.accS else k.accP) ((s.accRange ctx).2 + w)

def State.accUeAt (s : State) (c ctx w : Nat) : Bool :=
  (s.core c).accUe.contains ((s.ctx ctx).cls, (s.accRange ctx).2 + w)

def State.accSet (s : State) (c ctx w : Nat) (v : Word) : State :=
  let a := (s.accRange ctx).2 + w
  let h := (s.ctx ctx).cls
  s.modCore c fun k =>
    let k := { k with accUe := k.accUe.filter (· != (h, a)) }
    if h then { k with accS := wordSet k.accS a v } else { k with accP := wordSet k.accP a v }

end Sys2Proof.Machine
end

