-- ==== Sys2Proof/Machine/Operands.lean ====
section
/-! DEFINITION. The operand forms (03 R85 to R95, 04 R121): what a pass reads from registers,
bypass latches, literals and channels, each with its shape tag and its uncorrectable slots. -/

namespace Sys2Proof.Machine

/-- A pass about to execute: the focused group's running clause at its position (02 R56, R61). -/
structure Pass where
  core : Nat
  gid : Nat
  g : Group
  cl : Clause
  ex : Mask

/-- The pass of the focused group, if it has a running clause. -/
def State.pass? (s : State) : Option Pass :=
  match s.focus with
  | none => none
  | some (c, gid) =>
    match s.group? c gid with
    | none => none
    | some g =>
      match g.clause with
      | none => none
      | some cl => some ⟨c, gid, g, cl, g.atPc cl.pc⟩

/-- A source operand as a pass reads it: the value of every slot, the tag under which R91 and R92
judge it (low and high words), and the slots whose stored word is uncorrectable. -/
structure SVal where
  lo : Shape
  hi : Shape := .uniform 0
  tag : Shape
  tagHi : Shape := .uniform 0
  ue : Mask := 0

def SVal.ofShape (lo : Shape) (hi : Shape := .uniform 0) (ue : Mask := 0) : SVal :=
  { lo, hi, tag := lo, tagHi := hi, ue }

/-- The 32-bit value of a slot. -/
def SVal.w (v : SVal) (i : Nat) : Word := v.lo.val i

/-- The 64-bit value of a slot. -/
def SVal.dw (v : SVal) (i : Nat) : DWord := v.hi.val i ++ v.lo.val i

/-- The shape that every slot reads, when it is uniform or affine (03 R92). -/
def SVal.form (v : SVal) : Option Shape :=
  if v.lo = v.tag then match v.lo with | .general _ => none | sh => some sh else none

/-- Whether the operand meets 03 R91. -/
def SVal.isUni (v : SVal) (pair : Bool) : Bool := v.tag.isUni && (!pair || v.tagHi.isUni)

/-- A V register or pair (03 R82). -/
def Group.srcReg (g : Group) (n : Nat) (pair : Bool) : SVal :=
  let r := g.reg n
  let h := g.reg (n + 1)
  if pair then .ofShape r.shape h.shape (r.ue ||| h.ue) else .ofShape r.shape (.uniform 0) r.ue

/-- What a late entrant reads from a latch (02 R61). DEDUCED (log 7). -/
def Group.lateShape (g : Group) (l : Late) : Shape × Mask :=
  match l with
  | .zero => (.uniform 0, 0)
  | .reg n => ((g.reg n.toNat).shape, (g.reg n.toNat).ue)
  | .pred n => (column fun i => if (g.pred n.toNat).bits.getLsbD i then 1 else 0, 0)
  | .idx sh => (column fun i => if (sh.val i).toNat ≤ 63 then (g.reg (sh.val i).toNat).shape.val i else 0,
      maskWhere fun i => decide ((sh.val i).toNat ≤ 63) && (g.reg (sh.val i).toNat).ue.getLsbD i)

def Group.lateHi (g : Group) (b : BRes) (lo : Shape) : Shape :=
  match b.late, b.wide with
  | .zero, _ => .uniform 0
  | .reg n, true => (g.reg (n.toNat + 1)).shape
  | _, _ => match lo with
    | .uniform w => .uniform (Config.byHigh w)
    | sh => column fun i => Config.byHigh (sh.val i)

/-- The high words a latch gives in a pair position (03 R86). -/
def BRes.hiShape (b : BRes) : Shape :=
  if b.wide then b.hi
  else match b.lo with
    | .uniform w => .uniform (Config.byHigh w)
    | sh => column fun i => Config.byHigh (sh.val i)

/-- BYn: the latch for the threads that executed the instruction, its destination for a late
entrant (03 R86, 02 R61). DESIGN CHOICE (log 6). -/
def Pass.byp (p : Pass) (n : Nat) (pair : Bool) : SVal :=
  let b := p.cl.res.getD n {}
  let hi := if pair then b.hiShape else .uniform 0
  let late := p.ex &&& ~~~b.exec
  if late == 0 then .ofShape b.lo hi
  else
    let (ls, ue) := p.g.lateShape b.late
    let lh := if pair then p.g.lateHi b ls else .uniform 0
    if late == p.ex then .ofShape ls lh ue
    else
      { lo := column fun i => if b.exec.getLsbD i then b.lo.val i else ls.val i
        hi := column fun i => if b.exec.getLsbD i then hi.val i else lh.val i
        tag := b.lo, tagHi := hi, ue := ue &&& late }

/-- A source operand that is no channel (03 R85, R86). DEDUCED (log 15). -/
def Pass.src (p : Pass) (a : Src) (pair : Bool) : SVal :=
  match a with
  | .v n => p.g.srcReg n.toNat pair
  | .byp n => p.byp n.toNat pair
  | .lit32 w => .ofShape (.uniform w)
  | .lit64 d => .ofShape (.uniform (d.setWidth 32)) (.uniform (d.extractLsb' 32 32))
  | .zero => .ofShape (.uniform 0)
  | .slot => .ofShape (.affine 0 1)
  | .q _ => .ofShape (.uniform 0)

/-- The address register of formats M and MA. -/
def Pass.areg (p : Pass) (a : AReg) (pair : Bool) : SVal :=
  match a with
  | .v n => p.g.srcReg n.toNat pair
  | .byp n => p.byp n.toNat pair

/-- The data of a store (04 R121). -/
def Pass.stData (p : Pass) (d : StData) (pair : Bool) : SVal :=
  match d with
  | .v n => p.g.srcReg n.toNat pair
  | .byp n => p.byp n.toNat pair
  | .zero => .ofShape (.uniform 0)

/-! ## Channels (02 R74 to R77, 16 R423, R424) -/

/-- Words a channel holds when full. -/
def Chan.capacity (c : Chan) : Nat := 1024 * (c.nrow.toNat + 1)

/-- The block of a group. -/
def State.blockOf (s : State) (core : Nat) (g : Group) : Block :=
  ((s.core core).block? g.blk).getD
    { id := 0, ctx := g.ctx, launch := 0, bix := 0, bsize := 0, rows := [], nblk := 0, nstg := 0, stages := [],
      cluster := none, fused := false, cls := false, part := 0 }

/-- The scratchpad address of word `k` of a channel (16 R423). -/
def Block.chanAddr (b : Block) (c : Chan) (k : Nat) : Nat :=
  let a := 4096 * c.rowb.toNat + 4 * k
  4096 * b.rows.getD (a / 4096) 0 + a % 4096

/-- Words to take from a channel for the slots of a set, from `start` words past the head: one per
slot, or one for all when uniform-encoded (02 R75); and the slots whose word is uncorrectable. -/
def State.popCol (s : State) (core : Nat) (b : Block) (q : Nat) (u : Bool) (ex : Mask) (start : Nat) : SVal :=
  let c := b.chans.getD q {}
  let at_ (k : Nat) : Nat := b.chanAddr c ((c.head + start + k) % c.capacity)
  let word (k : Nat) : Word := BitVec.ofNat 32 (leNat (s.scratchGet core (at_ k) 4))
  let bad (k : Nat) : Bool := s.scratchUeAt core (at_ k) 4
  if u then .ofShape (.uniform (word 0)) (.uniform 0) (if bad 0 then ex else 0)
  else
    let pos (i : Nat) : Nat := ((slotsOf ex).filter (· < i)).length
    .ofShape (column fun i => if ex.getLsbD i then word (pos i) else 0) (.uniform 0)
      (maskWhere fun i => ex.getLsbD i && bad (pos i))

/-- Words moved by one channel operand (02 R75). -/
def chanWords (u : Bool) (ex : Mask) : Nat := if u then 1 else slotCount ex

/-- The counts (channel, words), summed per channel. -/
def sumChans (l : List (Nat × Nat)) : List (Nat × Nat) :=
  l.foldl (fun acc (q, n) => alSet q ((alGet q acc).getD 0 + n) acc) []

/-- Whether every channel can supply its pops and then take its pushes (02 R77). -/
def Block.chansReady (b : Block) (pops pushes : List (Nat × Nat)) : Bool :=
  (sumChans pops).all (fun (q, n) => n ≤ (b.chans.getD q {}).count) &&
    (sumChans pushes).all fun (q, n) =>
      let c := b.chans.getD q {}
      c.count - (alGet q (sumChans pops)).getD 0 + n ≤ c.capacity

/-- Take `n` words from a channel of a block. -/
def State.popN (s : State) (core bid q n : Nat) : State :=
  s.modCore core fun k => k.modBlock bid fun b =>
    { b with chans := listMod b.chans q fun c => { c with head := (c.head + n) % c.capacity, count := c.count - n } }

/-- Push one word into a channel of a block. -/
def State.push1 (s : State) (core bid q : Nat) (w : Word) : State :=
  match (s.core core).block? bid with
  | none => s
  | some b =>
    let c := b.chans.getD q {}
    let s1 := s.scratchSet core (b.chanAddr c ((c.head + c.count) % c.capacity)) (leBytes 4 w.toNat)
    s1.modCore core fun k => k.modBlock bid fun b =>
      { b with chans := listMod b.chans q fun c => { c with count := c.count + 1 } }

end Sys2Proof.Machine
end

