-- ==== Sys2Proof/Machine/Flags.lean ====
section
/-! DEFINITION. The flags: FCR and FSR of a group (05 R151 to R153), and predicates written by
compares (15 R391). -/

namespace Sys2Proof.Machine

/-- The FCR bits a write keeps: the rest are reserved and read zero (05 R151). -/
def fcrMask : Word := 0x1F07

/-- The FSR bits a write keeps (05 R152). -/
def fsrMask : Word := 0x1F

/-- FCR.RM (05 R151). -/
def Group.rm (g : Group) : RM :=
  match g.fcr.toNat % 4 with
  | 0 => .rne
  | 1 => .rz
  | 2 => .rd
  | _ => .ru

/-- FCR.FTZ. -/
def Group.ftz (g : Group) : Bool := g.fcr.getLsbD 2

/-- The exceptions of a set that FCR enables, which raise FPE (05 R153). -/
def Group.fpeOf (g : Group) (ex : Nat) : Bool := ((g.fcr >>> 8) &&& BitVec.ofNat 32 ex &&& fsrMask) != 0

/-- FSR with a set of exceptions added (05 R153). -/
def Group.orFsr (g : Group) (ex : Nat) : Group := { g with fsr := g.fsr ||| (BitVec.ofNat 32 ex &&& fsrMask) }

/-- Whether a predicate meets 03 R91. -/
def Group.predUni (g : Group) (n : Nat) : Bool := (g.pred n).uni

end Sys2Proof.Machine
end

