-- ==== Sys2Proof/Machine/Engine.lean ====
section
/-! DEFINITION. The engine operations (08): their parameter blocks, the checks made at issue, and
the writes each operation makes, as one list that a finish applies whole and a cancellation in
part. -/

namespace Sys2Proof.Machine

/-! ## Parameter blocks as fields -/

/-- A field of a 32-bit word of a block: word offset, low bit, width. -/
def pf (p : List Byte) (o lo n : Nat) : Nat := fieldAt p o 4 / 2 ^ lo % 2 ^ n

/-- A signed 32-bit field. -/
def pi (p : List Byte) (o : Nat) : Int := sextInt 32 (fieldAt p o 4)

/-- Whether the bytes of a span are zero. -/
def pz (p : List Byte) (o n : Nat) : Bool := fieldAt p o n == 0

/-- An address modulo 2^k. -/
def wrap (k : Nat) (a : Int) : Nat := (a % (2 ^ k : Nat)).toNat

/-- The destination element format of a conversion code (08 R232). -/
def convFmt : Nat → NF
  | 1 => .bf16 | 2 => .f16 | 3 => .e4m3 | 4 => .e5m2 | 5 => .e4m3 | 6 => .e5m2 | 7 => .e2m3 | 8 => .e3m2
  | _ => .e2m1

/-- The width of an output element of a conversion code; 0 is FP32 unchanged. -/
def convWidth (conv : Nat) : Nat := if conv = 0 then 32 else (convFmt conv).width

/-- The rounding mode of an RND field (08 R232). -/
def rndMode : Nat → RM
  | 0 => .rne | 1 => .rz | _ => .sr

/-- The element format of a code (05 R136) with at most 16 bits. -/
def fmtCode : Nat → Option NF
  | 1 => some .f16 | 2 => some .bf16 | 3 => some .e4m3 | 4 => some .e5m2 | 5 => some .e2m3 | 6 => some .e3m2
  | 7 => some .e2m1 | _ => none

/-- Elements of width `w` packed little-endian into bytes (05 R156). -/
def packElems (w : Nat) (es : List Nat) : List Byte :=
  leBytes ((w * es.length + 7) / 8) (es.foldr (fun e n => e + 2 ^ w * n) 0)

/-- Element `k` of width `w` of packed bytes. -/
def elemAt (w : Nat) (n : Nat) (k : Nat) : Nat := n / 2 ^ (w * k) % 2 ^ w

/-! ## Census events of a site (13 R347) -/

def TCount.add (a b : TCount) : TCount := ⟨a.nan + b.nan, a.inf + b.inf, a.sat + b.sat, a.uf + b.uf⟩

/-- The magnitude of an FP encoding is zero. -/
def NF.isZeroCode (f : NF) (c : Nat) : Bool := c % 2 ^ (f.eb + f.mb) == 0

/-- The events of one conversion to an FP format. -/
def tcFp (src dst : NF) (c r ex : Nat) : TCount :=
  let v := dst.unpack r
  let infSrc := match src.unpack c with | .inf _ => true | _ => false
  { nan := v.isNan.toNat
    inf := (match v with | .inf _ => true | _ => false).toNat
    sat := ((ex / 4 % 2 == 1 || infSrc) && (r == dst.maxf false || r == dst.maxf true)).toNat
    uf := (!src.isZeroCode c && dst.isZeroCode r).toNat }

/-- The events of one MX block's scale. -/
def tcScale (xs : List Nat) (scale : Nat) : TCount :=
  if scale == 0xFF then
    if xs.any fun c => (NF.f32.unpack c).isNan then { nan := 1 } else { inf := 1 }
  else {}

/-- The events of one MX element (05 R157). -/
def tcElem (f : NF) (c : Nat) (r : Rnd) : TCount :=
  { sat := r.ex / 4 % 2, uf := (!NF.f32.isZeroCode c && f.isZeroCode r.code).toNat }

/-- Blocks of 32 (05 R156). -/
def blocks32 (n : Nat) (xs : List Nat) : List (List Nat) := (List.range n).map fun b => (xs.drop (32 * b)).take 32

/-- Convert a row of FP32 encodings: elements, scales and events (08 R234); `base` is the element
number of its first element in the operation. -/
def convRow (conv rnd : Nat) (sat : Bool) (key : DWord) (base : Nat) (xs : List Nat) :
    List Nat × List Nat × TCount :=
  let mode := rndMode rnd
  let dr (i : Nat) : Nat := if rnd = 2 then (drawN key (base + i)).toNat else 0
  if conv = 0 then (xs, [], {})
  else if conv ≤ 4 then
    let f := convFmt conv
    let rs := xs.mapIdx fun i c => (c, cvtFp .f32 f mode sat false (dr i) c)
    (rs.map (·.2.1), [], rs.foldl (fun t (c, r, ex) => t.add (tcFp .f32 f c r ex)) {})
  else
    let f := convFmt conv
    (blocks32 (xs.length / 32) xs).zipIdx.foldl (fun (es, ss, t) (blk, b) =>
      let sc := mxScale blk f
      let rs := blk.mapIdx fun i c => (c, if sc == 0xFF then (⟨0, 0, false⟩ : Rnd) else mxElem c sc f mode (dr (32 * b + i)))
      let t1 := if sc == 0xFF then t else rs.foldl (fun t (c, r) => t.add (tcElem f c r)) t
      (es ++ rs.map (·.2.code), ss ++ [sc], t1.add (tcScale blk sc))) ([], [], {})

/-! ## A run of an operation -/

/-- An operation's run so far: `seen` what it has read before the run, `before` the operations whose order on the
accumulators comes before it (08 R245), `reads` what the run reads when that is kept. -/
structure ERun where
  s : State
  seen : List ERead := []
  before : List EngOp := []
  log : Bool := false
  reads : List ERead := []
  writes : List EWrite := []
  fault : Option (BitVec 8 × DWord) := none
  lost : Bool := false
  wait : Bool := false
  cnt : TCount := {}

/-- The subcode of a fault of an engine access (08 R251). -/
def FCode.sub : FCode → BitVec 8
  | .page => 1 | .prot => 2 | .memUe => 3 | .memLost => 4 | .prFail => 5 | _ => 0

def ERun.bad (e : ERun) (sub : BitVec 8) (va : Nat) : ERun :=
  { e with fault := some (e.fault.getD (sub, BitVec.ofNat 64 va)) }

def ERun.badCode (e : ERun) (f : FCode) (va : Nat) : ERun :=
  if f = .dieLost then { e with lost := true } else e.bad f.sub va

/-- The scratchpad byte place of a local window address of a block. -/
def Block.local (b : Block) (a : Nat) : Nat := 4096 * b.rows.getD (a / 4096) 0 + a % 4096

/-- The block an operation belongs to. -/
def State.opBlock (s : State) (c : Nat) (o : EngOp) : Block := s.blockOf c
  { ctx := o.ctx, launch := o.launch, blk := o.blk }

/-- A scratchpad byte as an engine of its core reads it: with stores of the core's threads that they have
not released, the value before each or the one that stands, by a free choice (07 R216). -/
def Core.engByte (k : Core) (n a : Nat) : Byte :=
  let vs := cellGet k.scratch a :: (k.scrOld.filter fun o => o.addr == a).map (·.val)
  vs.getD (Config.freeIdx n vs.length) 0

/-- The byte of a place of the scratchpad, or of memory, that the operation has read before. -/
def ERun.seenScr (e : ERun) (a : Nat) : Option Byte :=
  e.seen.findSome? fun | .scr x b => if x = a then some b else none | _ => none
def ERun.seenMem (e : ERun) (p : PA) : Option Byte :=
  e.seen.findSome? fun | .mem x b => if x = p then some b else none | _ => none
def ERun.seenAcc (e : ERun) (w : Nat) : Option Word :=
  e.seen.findSome? fun | .acc x v => if x = w then some v else none | _ => none

def ERun.noteReads (e : ERun) (rs : List ERead) : ERun := if e.log then { e with reads := e.reads ++ rs } else e

/-- Read local scratchpad bytes, each at its swizzled address; none for those of an uncorrectable word, which the
fault names by its address before the swizzle (08 R250). DESIGN CHOICE (log 148). -/
def ERun.readScr (e : ERun) (c : Nat) (b : Block) (sw a n : Nat) : List (Option Byte) × ERun :=
  let k := e.s.core c
  let ps := (List.range n).map fun i => b.local (swizzle sw ((a + i) % 2 ^ 24) % 2 ^ 20)
  let bad (x : Nat) : Bool := k.scratchUe.contains (x / 4) && (e.seenScr x).isNone
  let vs : List (Option Byte) := ps.mapIdx fun i x =>
    if bad x then none
    else some ((e.seenScr x).getD (if k.scrOld.isEmpty then cellGet k.scratch x else k.engByte (e.s.free + i) x))
  let e1 := { e with s := { e.s with free := e.s.free + if k.scrOld.isEmpty then 0 else n } }.noteReads
    ((ps.zip vs).filterMap fun ((x, v) : Nat × Option Byte) => v.map (ERead.scr x))
  (vs, match ps.findIdx? bad with | some i => e1.bad 3 ((a + i) / 4 * 4) | none => e1)

/-- Read bytes of memory that lie in one page, at a virtual address: none for those whose home refuses them or whose
word is uncorrectable (06 R175, R199; 01 R35, R38). -/
def ERun.readPage (e : ERun) (o : EngOp) (p : PA) (va n : Nat) : List (Option Byte) × ERun :=
  let s1 := (e.s.touchSpan o.ctx p n).l2Read (e.s.workOf o.ctx) p n
  let at_ (i : Nat) : PA := { p with addr := p.addr + i }
  let broken (i : Nat) : Option FCode :=
    if (e.seenMem (at_ i)).isSome then none
    else match s1.checkPa (s1.ctx o.ctx).vd (at_ i) with
      | some f => some f
      | none => if s1.ueByte (at_ i) then some .memUe else none
  let vs : List (Option Byte) := (List.range n).map fun i => if (broken i).isSome then none else some ((e.seenMem (at_ i)).getD (s1.homeByte (at_ i)))
  let e1 := { e with s := s1 }.noteReads (vs.zipIdx.filterMap fun ((v, i) : Option Byte × Nat) => v.map (ERead.mem (at_ i)))
  (vs, match (List.range n).find? fun i => (broken i).isSome with
    | some i => match broken i with
      | some .memUe => e1.badCode .memUe ((va + i) / 4 * 4)
      | some f => e1.badCode f (va + i)
      | none => e1
    | none => e1)

/-- Read memory of the operation's context, page by page; none for bytes that wait or fault (08 R250). -/
def ERun.readMem (e : ERun) (c : Nat) (o : EngOp) (va n : Nat) : List (Option Byte) × ERun :=
  (pageSpans (n / 4096 + 2) (va % 2 ^ 64) n).foldl (fun (vs, e) (a, k) =>
    let a' := a % 2 ^ 64
    let none_ : List (Option Byte) := List.replicate k none
    match e.s.xlatNow (dieOf c) o.ctx .rd (.op c o.id) a' with
    | (.ok p, s1) =>
      if s1.hbmHolds (s1.clsOf o.ctx) p k then (vs ++ none_, { e with s := s1, wait := true })
      else let (bs, e1) := { e with s := s1 }.readPage o p a' k; (vs ++ bs, e1)
    | (.map off, s1) => (vs ++ (s1.mapBytes (s1.ctx o.ctx).vd off k).map some, { e with s := s1 })
    | (.miss, s1) => (vs ++ none_, { e with s := s1, wait := true })
    | (.fault f, s1) => (vs ++ none_, { e with s := s1 }.badCode f a')) (([] : List (Option Byte)), e)

/-- All of the values of a list, when there are all. -/
def allSome {α : Type} (l : List (Option α)) : Option (List α) := if l.all Option.isSome then some (l.filterMap id) else none

/-- The runs of values that stand in a list, by offset. -/
def runsFrom (i : Nat) (cur : List Byte) : List (Option Byte) → List (Nat × List Byte)
  | [] => if cur.isEmpty then [] else [(i - cur.length, cur.reverse)]
  | some b :: r => runsFrom (i + 1) (b :: cur) r
  | none :: r => (if cur.isEmpty then [] else [(i - cur.length, cur.reverse)]) ++ runsFrom (i + 1) [] r

/-- Write those bytes of a span that there are. -/
def ERun.putRuns (e : ERun) (put : ERun → Nat → List Byte → ERun) (bs : List (Option Byte)) : ERun :=
  (runsFrom 0 [] bs).foldl (fun e (o, r) => put e o r) e

/-- A row of FP32 encodings converted: the bytes of its elements and of its scales, without those of an element, or of
a block of 32, for which an encoding is missing (08 R234, R250). -/
def convParts (conv rnd : Nat) (sat : Bool) (key : DWord) (base : Nat) (xs : List (Option Nat)) :
    List (Option Byte) × List (Option Byte) × TCount :=
  let n := if conv ≥ 5 then 32 else 1
  let ok (g : Nat) : Bool := ((xs.drop (n * g)).take n).all Option.isSome
  let (es, ss, t) := convRow conv rnd sat key base (xs.map (·.getD 0))
  ((packElems (convWidth conv) es).mapIdx fun i b => if ok (i / (n * convWidth conv / 8)) then some b else none,
    ss.mapIdx fun i x => if ok i then some (BitVec.ofNat 8 x) else none, t)

/-- Write local scratchpad bytes under a swizzle, in spans that stay contiguous. -/
def ERun.writeScr (e : ERun) (b : Block) (sw a : Nat) (bs : List Byte) : ERun :=
  let n := bs.length
  let spans := (List.range ((a % 32 + n + 31) / 32)).map fun i =>
    let lo := if i = 0 then 0 else 32 * i - a % 32
    let hi := min n (32 * (i + 1) - a % 32)
    EWrite.scr (b.local (swizzle sw ((a + lo) % 2 ^ 24) % 2 ^ 20)) ((bs.drop lo).take (hi - lo))
  { e with writes := e.writes ++ spans }

/-- The stripes of a span of one page: place, offset and bytes. -/
def stripeSpans (p : PA) (n : Nat) : List (PA × Nat × Nat) :=
  let ss := stripesOf p n
  ss.zipIdx.map fun ((q, o), i) => (q, o, (match ss[i + 1]? with | some (_, o') => o' | none => n) - o)

/-- Write one page's bytes: those of every stripe whose home takes them (07 R217; 01 R35, R38). -/
def ERun.writePage (e : ERun) (v : Nat) (p : PA) (va : Nat) (bs : List Byte) : ERun :=
  if (e.s.spanFault v p bs.length).isNone then { e with writes := e.writes ++ [EWrite.mem p bs] }
  else (stripeSpans p bs.length).foldl (fun e (q, o, n) => match e.s.checkPa v q with
    | some f => e.badCode f (va + o)
    | none => { e with writes := e.writes ++ [EWrite.mem q ((bs.drop o).take n)] }) e

/-- Write memory of the operation's context, page by page. -/
def ERun.writeMem (e : ERun) (c : Nat) (o : EngOp) (va : Nat) (bs : List Byte) : ERun :=
  (pageSpans (bs.length / 4096 + 2) (va % 2 ^ 64) bs.length).foldl (fun (e, rest) (a, k) =>
    let a' := a % 2 ^ 64
    match e.s.xlatNow (dieOf c) o.ctx .wr (.op c o.id) a' with
    | (.ok p, s1) =>
      let s2 := s1.touchSpan o.ctx p k
      ({ e with s := s2 }.writePage (s2.ctx o.ctx).vd p a' (rest.take k), rest.drop k)
    | (.map _, s1) => ({ e with s := s1 }.badCode .prot a', rest.drop k)
    | (.miss, s1) => ({ e with s := s1, wait := true }, rest.drop k)
    | (.fault f, s1) => ({ e with s := s1 }.badCode f a', rest.drop k)) (e, bs) |>.1

/-! ## CPY (08 R232 to R235) -/

def cpyKind (p : List Byte) : Nat := pf p 0 0 4
def cpyConv (p : List Byte) : Nat := pf p 0 4 4
def cpyRnd (p : List Byte) : Nat := pf p 0 8 2
def cpyCw (p : List Byte) : Bool := pf p 0 14 1 == 1
def cpySrcGlob (p : List Byte) : Bool := cpyKind p == 0 || cpyKind p == 2
def cpyDstGlob (p : List Byte) : Bool := cpyKind p == 1 || cpyKind p == 2
def cpyN0 (p : List Byte) : Nat := pf p 4 0 24
def cpyDLen (p : List Byte) : Nat := if cpyConv p = 0 then cpyN0 p else cpyN0 p * convWidth (cpyConv p) / 32

/-- The (source, destination) addresses of every row, in traversal order, as integers. -/
def cpyRows (p : List Byte) : List (Int × Int) :=
  (List.range (pf p 8 16 16)).flatMap fun (i2 : Nat) => (List.range (pf p 8 0 16)).map fun (i1 : Nat) =>
    ((fieldAt p 12 8 : Int) + (i2 : Int) * pi p 32 + (i1 : Int) * pi p 28,
      (fieldAt p 20 8 : Int) + (i2 : Int) * pi p 40 + (i1 : Int) * pi p 36)

/-- The completion-word fields at an offset (08 R232): CADDR and CVAL zero when CW is 0.
DEDUCED (log 19). -/
def cwOk (p : List Byte) (o : Nat) : Bool :=
  decide (pf p 0 11 3 ≤ 4) && (cpyCw p || (pf p 0 11 3 == 0 && pz p o 12))

def cpyFieldsOk (p : List Byte) : Bool :=
  pf p 0 19 13 == 0 && pf p 0 15 1 == 0 && decide (pf p 0 16 3 ≤ 6) && (!cpyDstGlob p || pf p 0 16 3 == 0)
    && cwOk p 44 && decide (cpyRnd p ≤ 2) && (cpyConv p != 0 || cpyRnd p == 0)
    && decide (cpyConv p ≤ 9) && decide (cpyKind p ≤ 3)
    && pf p 4 24 8 == 0 && cpyN0 p != 0 && pf p 8 0 16 != 0 && pf p 8 16 16 != 0
    && (cpySrcGlob p || pz p 15 5) && (cpyDstGlob p || pz p 23 5)
    && (if cpyConv p ≥ 5 then cpyDstGlob p || pz p 59 5 else pz p 56 8)
    && (cpyConv p == 0 || cpyN0 p % 4 == 0) && (decide (cpyConv p < 5) || cpyN0 p % 128 == 0)

def cpyAligned (p : List Byte) : Bool :=
  (!cpyCw p || fieldAt p 44 8 % 4 == 0)
    && (cpyConv p == 0 || (fieldAt p 12 8 % 4 == 0 && fieldAt p 28 4 % 4 == 0 && fieldAt p 32 4 % 4 == 0))
    && (!(cpyConv p == 1 || cpyConv p == 2)
      || (fieldAt p 20 8 % 2 == 0 && fieldAt p 36 4 % 2 == 0 && fieldAt p 40 4 % 2 == 0))

/-- Whether a span lies in the local window within an allocation of `rows` rows (06 R162). -/
def inAlloc (rows a n : Nat) : Bool := decide (a + n ≤ 4096 * rows) && decide (a + n ≤ 2 ^ 20)

def cpyExtents (p : List Byte) (rows : Nat) : Bool :=
  (cpyRows p).all (fun (s, d) => (cpySrcGlob p || inAlloc rows (wrap 24 s) (cpyN0 p))
      && (cpyDstGlob p || inAlloc rows (wrap 24 d) (cpyDLen p)))
    && (decide (cpyConv p < 5) || cpyDstGlob p
      || inAlloc rows (fieldAt p 56 8) ((cpyRows p).length * (cpyN0 p / 128)))

/-- FP32 encodings of the bytes of a row, none where a byte is missing. -/
def words32 (bs : List (Option Byte)) : List (Option Nat) :=
  (List.range (bs.length / 4)).map fun i => (allSome ((bs.drop (4 * i)).take 4)).map leNat

/-- One row of a CPY: what could be read of its source is converted and written (08 R250). -/
def cpyRow (c : Nat) (b : Block) (o : EngOp) (e : ERun) (r : Nat) : ERun :=
  let p := o.params
  let conv := cpyConv p
  let (sa, da) := (cpyRows p).getD r (0, 0)
  let (bs, e1) := if cpySrcGlob p then e.readMem c o (wrap 64 sa) (cpyN0 p) else e.readScr c b 0 (wrap 24 sa) (cpyN0 p)
  let put (a : Int) (sw : Nat) (e : ERun) (off : Nat) (bs : List Byte) : ERun :=
    if cpyDstGlob p then e.writeMem c o (wrap 64 (a + off)) bs else e.writeScr b sw (wrap 24 (a + off)) bs
  if conv = 0 then e1.putRuns (put da (pf p 0 16 3)) bs
  else
    let xs := words32 bs
    let (es, ss, t) := convParts conv (cpyRnd p) (pf p 0 10 1 == 1) o.key (r * xs.length) xs
    let e2 := { e1 with cnt := e1.cnt.add t }.putRuns (put da (pf p 0 16 3)) es
    if conv ≥ 5 then e2.putRuns (put ((fieldAt p 56 8 : Int) + r * ss.length) 0) ss else e2

/-! ## GATH (08 R236, R237) -/

def gathN (p : List Byte) : Nat := pf p 4 0 16
def gathRowb (p : List Byte) : Nat := pf p 12 0 24

def gathFieldsOk (p : List Byte) : Bool :=
  pf p 0 20 12 == 0 && decide (pf p 0 16 3 ≤ 6) && pf p 0 15 1 == 0 && pf p 0 0 11 == 0 && cwOk p 40
    && gathN p != 0 && pf p 4 16 16 == 0 && pf p 8 24 8 == 0 && pf p 12 24 8 == 0
    && decide (4 ≤ gathRowb p) && gathRowb p % 4 == 0
    && pf p 32 24 8 == 0 && pf p 36 24 8 == 0 && pz p 52 12

def gathAligned (p : List Byte) : Bool :=
  pf p 8 0 24 % 4 == 0 && fieldAt p 16 8 % 4 == 0 && fieldAt p 24 4 % 4 == 0 && pf p 32 0 24 % 4 == 0
    && pf p 36 0 24 % 4 == 0 && (!cpyCw p || fieldAt p 40 8 % 4 == 0)

def gathExtents (p : List Byte) (rows : Nat) : Bool :=
  inAlloc rows (pf p 8 0 24) (4 * gathN p)
    && (List.range (gathN p)).all fun i => inAlloc rows ((pf p 32 0 24 + i * pf p 36 0 24) % 2 ^ 24) (gathRowb p)

/-- One row of a GATH: what could be read of it is written (08 R250). FADDR of a bad index is the table row that it
names. DESIGN CHOICE (log 148). -/
def gathRow (c : Nat) (b : Block) (o : EngOp) (e : ERun) (i : Nat) : ERun :=
  let p := o.params
  let (ib, e1) := e.readScr c b 0 (pf p 8 0 24 + 4 * i) 4
  let d := (pf p 32 0 24 + i * pf p 36 0 24) % 2 ^ 24
  let put (e : ERun) (off : Nat) (bs : List Byte) : ERun := e.writeScr b (pf p 0 16 3) ((d + off) % 2 ^ 24) bs
  match allSome ib with
  | none => e1
  | some ib =>
    let x := leNat ib
    if x < fieldAt p 28 4 then
      let (bs, e2) := e1.readMem c o (fieldAt p 16 8 + x * fieldAt p 24 4) (gathRowb p)
      e2.putRuns put bs
    else if pf p 0 19 1 == 1 then put e1 0 (List.replicate (gathRowb p) 0)
    else e1.bad 6 (fieldAt p 16 8 + x * fieldAt p 24 4)

/-! ## Tiles (06 R169) -/

/-- M and N of a DIM word (08 R242). -/
def dimM (p : List Byte) : Nat := 32 * (pf p 4 0 2 + 1)
def dimN (p : List Byte) : Nat := 32 * (pf p 4 2 2 + 1)

/-- The word of element (i, j) of a tile (06 R169). -/
def tileWord (t i j : Nat) : Nat := 16384 * t + 128 * i + j

/-- How an MT operation touches an accumulator word: whether it reads it, and whether it writes it (08 R242, R246,
R247). -/
def EngOp.touches (x : EngOp) (w : Nat) : Bool × Bool :=
  let p := x.params
  let t := w / 16384
  let inside : Bool := decide (w % 16384 / 128 < dimM p) && decide (w % 128 < dimN p)
  match x.op with
  | .mma => (inside && pf p 0 8 1 == 0 && t == pf p 0 12 4, inside && t == pf p 0 16 4)
  | .aclr => (false, x.mask.getLsbD t)
  | .adrn => (inside && t == pf p 0 0 4, inside && t == pf p 0 0 4 && pf p 0 11 1 == 1)
  | _ => (false, false)

/-- Whether an operation has written, or has read, an accumulator word already. -/
def EngOp.wroteAcc (x : EngOp) (w : Nat) : Bool := x.early.any fun | .acc y _ => y == w | _ => false
def EngOp.readAcc (x : EngOp) (w : Nat) : Bool := x.seen.any fun | .acc y _ => y == w | _ => false

/-- Whether an earlier operation has still to write a word, or with `wr` to read it (08 R245). -/
def ERun.behind (e : ERun) (wr : Bool) (w : Nat) : Bool :=
  e.before.any fun x =>
    let (r, v) := x.touches w
    (v && !x.wroteAcc w) || (wr && r && !x.wroteAcc w && !x.readAcc w)

/-- Read an accumulator word; none when it is uncorrectable, or while an earlier operation has still to write it. -/
def ERun.readAcc (e : ERun) (c ctx w : Nat) : Option Word × ERun :=
  match e.seenAcc w with
  | some v => (some v, e.noteReads [.acc w v])
  | none =>
    if e.behind false w then (none, { e with wait := true })
    else if e.s.accUeAt c ctx w then (none, e.bad 3 w)
    else (some (e.s.accGet c ctx w), e.noteReads [.acc w (e.s.accGet c ctx w)])

/-- Write an accumulator word, which waits while an earlier operation has still to read or write it. -/
def ERun.writeAcc (e : ERun) (w : Nat) (vs : List Word) : ERun :=
  if e.behind true w then { e with wait := true } else { e with writes := e.writes ++ [.acc w vs] }

/-! ## MMA (08 R242, R243; 05 R158) -/

def mmaA (p : List Byte) : NF := (fmtCode (pf p 0 0 4)).getD .e4m3
def mmaB (p : List Byte) : NF := (fmtCode (pf p 0 4 4)).getD .e4m3
def mmaClr (p : List Byte) : Bool := pf p 0 8 1 == 1
def mmaSat (p : List Byte) : Bool := pf p 0 9 1 == 1
def mmaAsc (p : List Byte) : Bool := pf p 0 10 1 == 1
def mmaBsc (p : List Byte) : Bool := pf p 0 11 1 == 1
def mmaC (p : List Byte) : Nat := pf p 0 12 4
def mmaD (p : List Byte) : Nat := pf p 0 16 4
/-- K by the operand width (08 R240). -/
def fmtK (f : NF) : Nat := if f.width = 4 then 256 else if f.width = 16 then 64 else 128
def mmaK (p : List Byte) : Nat := fmtK (mmaB p)
def quartetOf (p : List Byte) : Word := BitVec.ofNat 32 (fieldAt p 20 4)

/-- Whether an operand's scale flag is one that its format admits (08 R242). -/
def scaleFlagOk (f : NF) (flag : Bool) : Bool :=
  if f.width < 8 then flag else if f.width = 16 then !flag else true

def mmaFieldsOk (p : List Byte) : Bool :=
  let a := pf p 0 0 4
  let b := pf p 0 4 4
  pf p 0 23 9 == 0 && decide (pf p 0 20 3 ≤ 6) && (!mmaClr p || mmaC p == 0)
    && ((decide (3 ≤ a) && decide (a ≤ 6) && decide (3 ≤ b) && decide (b ≤ 6)) || (a == 7 && b == 7)
      || (a == 2 && b == 2) || (a == 1 && b == 1))
    && scaleFlagOk (mmaA p) (mmaAsc p) && scaleFlagOk (mmaB p) (mmaBsc p)
    && pf p 4 4 28 == 0 && pf p 8 24 8 == 0 && pf p 12 24 8 == 0
    && pf p 16 24 8 == 0 && (mmaAsc p || pz p 16 4) && pf p 24 24 8 == 0 && (mmaBsc p || pz p 24 4)
    && pz p 28 36

def mmaAligned (p : List Byte) : Bool := pf p 8 0 24 % 32 == 0 && pf p 12 0 24 % 32 == 0

def mmaExtents (p : List Byte) (rows : Nat) : Bool :=
  ((List.range (dimM p)).all fun i =>
      inAlloc rows ((pf p 8 0 24 + i * pf p 12 0 24) % 2 ^ 24) (mmaK p * (mmaA p).width / 8))
    && (!mmaAsc p || inAlloc rows (pf p 16 0 24) (dimM p * (mmaK p / 32)))
    && (!mmaBsc p || inAlloc rows (pf p 24 0 24) (dimN p * (mmaK p / 32)))

def mmaTilesOk (p : List Byte) (tiles : Nat) : Bool :=
  decide (mmaD p < tiles) && (mmaClr p || decide (mmaC p < tiles))

/-- Registers of a quartet member that an MMA reads (08 R240). -/
def mmaRegs (p : List Byte) : Nat := mmaK p * (mmaB p).width / 32

/-- An E8M0 scale as an exact factor: `none` is NaN (05 R157). -/
def scaleE8M0 (n : Nat) : Option Int := if n = 0xFF then none else some ((n : Int) - 127)

/-- The block sum S of 05 R158. -/
def mmaBlock (fa fb : NF) (ra cb : Nat) (b : Nat) (sa sb : Option Int) : Option FV × Bool :=
  let ps := (List.range 32).map fun k =>
    (fa.unpack (elemAt fa.width ra (32 * b + k))).mul (fb.unpack (elemAt fb.width cb (32 * b + k)))
  let nz := ps.any fun | some (.fin d) => !d.isZero | some (.inf _) => true | _ => false
  (match blockSum ps, sa, sb with
    | some (.fin d), some x, some y => some (.fin (d.scale (x + y)))
    | some v, some _, some _ => some v
    | _, _, _ => none, nz)

/-- One element: the values acc passes through, from the first to the last, with SAT the saturated one
after it, and the events (05 R158, 08 R252, 13 R347). -/
def mmaElem (fa fb : NF) (k : Nat) (clr sat : Bool) (cval ra cb : Nat) (sa sb : Nat → Option Int) :
    List Word × TCount :=
  let acc0 : Option Nat := if clr then some 0x80000000 else
    if (NF.f32.unpack cval).isNan then none else some cval
  let (_, vals, nz) := (List.range (k / 32)).foldl (fun (acc, vs, nz) b =>
    let (sum, z) := mmaBlock fa fb ra cb b (sa b) (sb b)
    let a := accStep acc sum
    (a, vs ++ [a.getD NF.f32.canon], nz || z)) (acc0, [], false)
  let first := acc0.getD NF.f32.canon
  let last := vals.getLastD first
  let fin := if sat then satF32 last else last
  let v := NF.f32.unpack fin
  ((first :: vals ++ [fin]).map fun n => BitVec.ofNat 32 n,
    { nan := v.isNan.toNat, inf := (match v with | .inf _ => true | _ => false).toNat,
      sat := (fin != last).toNat, uf := (NF.f32.isZeroCode fin && nz).toNat })

/-- One row of an MMA, less the elements whose operands are uncorrectable (08 R250); `bcols` holds the K-vector of
each column as it was consumed. -/
def mmaRow (c : Nat) (b : Block) (o : EngOp) (e : ERun) (i : Nat) : ERun :=
  let p := o.params
  let k := mmaK p
  let kb := k / 32
  let (bs, e0) := if mmaBsc p then e.readScr c b 0 (pf p 24 0 24) (dimN p * kb) else ([], e)
  let (rb, e1) := e0.readScr c b (pf p 0 20 3) ((pf p 8 0 24 + i * pf p 12 0 24) % 2 ^ 24) (k * (mmaA p).width / 8)
  let (ab, e2) := if mmaAsc p then e1.readScr c b 0 (pf p 16 0 24 + i * kb) kb else ([], e1)
  match allSome rb, allSome ab with
  | some rb, some ab =>
    (List.range (dimN p)).foldl (fun e j =>
      let (cv, e3) := if mmaClr p then (some 0, e) else e.readAcc c o.ctx (tileWord (mmaC p) i j)
      let col := (((o.bcols.getD []).getD j []).foldr (fun w n => w.toNat + 2 ^ 32 * n) 0)
      match cv, allSome ((bs.drop (j * kb)).take kb) with
      | some cv, some bj =>
        let sa (n : Nat) := if mmaAsc p then scaleE8M0 (ab.getD n 0).toNat else some 0
        let sb (n : Nat) := if mmaBsc p then scaleE8M0 (bj.getD n 0).toNat else some 0
        let (vs, t) := mmaElem (mmaA p) (mmaB p) k (mmaClr p) (mmaSat p) cv.toNat (leNat rb) col sa sb
        { e3 with cnt := e3.cnt.add t }.writeAcc (tileWord (mmaD p) i j) vs
      | _, _ => e3) e2
  | _, _ => e2

/-! ## ADRN and ACLR (08 R246, R247) -/

def adrnConv (p : List Byte) : Nat := pf p 0 4 4
def adrnTile (p : List Byte) : Nat := pf p 0 0 4

def adrnFieldsOk (p : List Byte) : Bool :=
  pf p 0 15 17 == 0 && decide (pf p 0 12 3 ≤ 6) && decide (pf p 0 8 2 ≤ 2) && (adrnConv p != 0 || pf p 0 8 2 == 0)
    && decide (adrnConv p ≤ 9) && pf p 4 4 28 == 0 && pf p 8 24 8 == 0 && pf p 12 24 8 == 0
    && pf p 16 24 8 == 0 && (decide (5 ≤ adrnConv p) || pz p 16 4) && pz p 20 44

def adrnAligned (p : List Byte) : Bool := pf p 8 0 24 % 32 == 0 && pf p 12 0 24 % 32 == 0

def adrnExtents (p : List Byte) (rows : Nat) : Bool :=
  ((List.range (dimM p)).all fun i =>
      inAlloc rows ((pf p 8 0 24 + i * pf p 12 0 24) % 2 ^ 24) (dimN p * convWidth (adrnConv p) / 8))
    && (decide (adrnConv p < 5) || inAlloc rows (pf p 16 0 24) (dimM p * (dimN p / 32)))

/-- One row of an ADRN, less the elements that are uncorrectable (08 R250). -/
def adrnRow (c : Nat) (b : Block) (o : EngOp) (e : ERun) (i : Nat) : ERun :=
  let p := o.params
  let conv := adrnConv p
  let (vs, e1) := (List.range (dimN p)).foldl (fun (xs, e) j =>
    let (v, e) := ERun.readAcc e c o.ctx (tileWord (adrnTile p) i j)
    (xs ++ [v], e)) (([] : List (Option Word)), e)
  let (es, ss, t) := convParts conv (pf p 0 8 2) (pf p 0 10 1 == 1) o.key (i * vs.length) (vs.map fun v => v.map (·.toNat))
  let put (sw a : Nat) (e : ERun) (off : Nat) (bs : List Byte) : ERun := e.writeScr b sw ((a + off) % 2 ^ 24) bs
  let e2 := { e1 with cnt := e1.cnt.add t }.putRuns (put (pf p 0 12 3) (pf p 8 0 24 + i * pf p 12 0 24)) es
  let e3 := if conv ≥ 5 then e2.putRuns (put 0 (pf p 16 0 24 + i * (dimN p / 32))) ss else e2
  if pf p 0 11 1 == 1 then
    (vs.zipIdx).foldl (fun e (v, j) => if v.isSome then e.writeAcc (tileWord (adrnTile p) i j) [0] else e) e3
  else e3

/-- One tile of an ACLR. -/
def aclrRow (o : EngOp) (e : ERun) (t : Nat) : ERun :=
  if o.mask.getLsbD t then (List.range 16384).foldl (fun e w => e.writeAcc (16384 * t + w) [0]) e else e

/-! ## Applying the writes -/

/-- The bytes of a span that an earlier write of the operation has written. DESIGN CHOICE (log 40). -/
def EWrite.hits (host : Option Bool) (a : Nat) : EWrite → Bool
  | .scr x bs => host.isNone && decide (x ≤ a) && decide (a < x + bs.length)
  | .mem p bs => host == some p.host && decide (p.addr ≤ a) && decide (a < p.addr + bs.length)
  | .acc _ _ => false

/-- The bytes of a span to be written: with `part` any subset, and of bytes that the operation
writes more than once any one value (07 R220, 08 R235, R250; log 4). DESIGN CHOICE (log 40). -/
def State.keepBytes (s : State) (part : Bool) (done : List EWrite) (host : Option Bool) (a : Nat) (bs : List Byte) :
    List (Nat × List Byte) :=
  runsFrom 0 [] (bs.mapIdx fun i b =>
    if (part || done.any (EWrite.hits host (a + i))) && Config.freeBit (s.free + i) then none else some b)

/-- What is written of one write: of an accumulator word, with `part`, any value it passes through or none (08 R252);
nothing of a word that the operation has written. DESIGN CHOICE (log 40). -/
def State.keepWrite (s : State) (part : Bool) (done : List EWrite) : EWrite → List EWrite × Nat
  | .scr a bs => ((s.keepBytes part done none a bs).map fun (o, r) => .scr (a + o) r, bs.length)
  | .mem p bs => ((s.keepBytes part done (some p.host) p.addr bs).map fun (o, r) => .mem { p with addr := p.addr + o } r, bs.length)
  | .acc w vs =>
    if done.any fun | .acc x _ => x == w | _ => false then ([], 1)
    else if part then
      match (none :: vs.map some).getD (Config.freeIdx s.free (vs.length + 1)) none with
      | some v => ([.acc w [v]], 1)
      | none => ([], 1)
    else ([.acc w vs], 1)

/-- What is written of an operation's writes, `done` being what it has written before: all of them, or
with `part` any subset (07 R220, 08 R250, R252). DESIGN CHOICE (log 40). -/
def State.keepWrites (s : State) (part : Bool) (done ws : List EWrite) : List EWrite × State :=
  let (r, s1, _) := ws.foldl (fun (r, s, done) w =>
    let (x, n) := s.keepWrite part done w
    (r ++ x, { s with free := s.free + n }, done ++ [w])) (([] : List EWrite), s, done)
  (r, s1)

/-- Make one write of an operation of a context on a core. -/
def State.eWrite (s : State) (c ctx : Nat) : EWrite → State
  | .scr a bs => s.scratchSet c a bs
  | .mem p bs => s.homeWrite (s.workOf ctx) p bs
  | .acc w vs => s.accSet c ctx w (vs.getLastD 0)

/-- Make the writes of an operation: all of them, or with `part` any subset. DESIGN CHOICE (log 40). -/
def State.eApply (s : State) (c ctx : Nat) (part : Bool) (done ws : List EWrite) : State :=
  let (r, s1) := s.keepWrites part done ws
  r.foldl (fun s w => s.eWrite c ctx w) s1

/-- One row of the payload of an operation other than COLL. -/
def EngOp.row (o : EngOp) (c : Nat) (b : Block) (e : ERun) (i : Nat) : ERun :=
  match o.op with
  | .cpy => cpyRow c b o e i
  | .gath => gathRow c b o e i
  | .mma => mmaRow c b o e i
  | .aclr => aclrRow o e i
  | .adrn => adrnRow c b o e i
  | .coll => e

/-- The rows of a payload. -/
def EngOp.rows (o : EngOp) : Nat :=
  match o.op with
  | .cpy => (cpyRows o.params).length
  | .gath => gathN o.params
  | .mma | .adrn => dimM o.params
  | .aclr => 16
  | .coll => 0

/-- The payload run of an operation other than COLL. -/
def EngOp.run (o : EngOp) (c : Nat) (b : Block) (e : ERun) : ERun :=
  (List.range o.rows).foldl (fun e i => o.row c b e i) e

/-- The bytes of a list of writes. -/
def writtenBytes (ws : List EWrite) : Nat :=
  ws.foldl (fun n w => n + match w with | .scr _ bs | .mem _ bs => bs.length | .acc _ _ => 4) 0

/-- Run an operation again over memory in which any subset of a run's writes stands (08 R235). -/
def EngOp.again (o : EngOp) (c : Nat) (b : Block) (e : ERun) : ERun :=
  let e2 := o.run c b { e with s := e.s.eApply c o.ctx true [] e.writes, writes := [], cnt := {} }
  { e2 with s := { e.s with free := e2.s.free }, wait := e.wait || e2.wait, lost := e.lost || e2.lost,
            fault := e.fault.orElse fun _ => e2.fault }

def EngOp.live (o : EngOp) : Bool := o.st == .accepted || o.st == .started || o.st == .paid

/-- The start of a run of an operation, after the MT operations of its context that were accepted before it
(08 R245). -/
def State.startRun (s : State) (c : Nat) (o : EngOp) : ERun :=
  { s, seen := o.seen, before := if o.cls == 2 then
      (s.core c).ops.filter fun x => x.cls == 2 && x.live && x.ctx == o.ctx && decide (x.id < o.id) else [] }

/-- The payload of an operation. CPY and GATH read a memory in which, of their own writes, any subset may already
stand, as often as it may be (08 R235). DEDUCED (log 39). DESIGN CHOICE (log 40). -/
def State.payload (s : State) (c : Nat) (o : EngOp) : ERun :=
  let b := s.opBlock c o
  match o.op with
  | .cpy | .gath =>
    let e1 := o.run c b ({ s with free := s.free + 1 }.startRun c o)
    (List.range (Config.freeIdx s.free (writtenBytes e1.writes + 1))).foldl (fun e _ => o.again c b e) e1
  | _ => o.run c b (s.startRun c o)

/-! ## MT order (08 R245, R246) -/

/-- The tiles an MT operation touches, and whether it writes each. -/
def EngOp.tiles (o : EngOp) : List (Nat × Bool) :=
  match o.op with
  | .mma => (mmaD o.params, true) :: (if mmaClr o.params then [] else [(mmaC o.params, false)])
  | .aclr => ((List.range 16).filter fun t => o.mask.getLsbD t).map fun t => (t, true)
  | .adrn => [(adrnTile o.params, pf o.params 0 11 1 == 1)]
  | _ => []

/-- Whether two MT operations of a core touch a word in an order that R245 fixes. -/
def EngOp.clash (o x : EngOp) (ts : List (Nat × Bool)) : Bool :=
  o.ctx == x.ctx && ts.any fun (t, w) => x.tiles.any fun (t', w') => t == t' && (w || w')

/-- Whether an earlier-accepted operation of the core stands before one at some tiles. -/
def Core.mtBlocked (k : Core) (o : EngOp) (ts : List (Nat × Bool)) : Bool :=
  k.ops.any fun x => x.cls == 2 && x.live && decide (x.id < o.id) && o.clash x ts

/-! ## Cancelling (08 R250, R252) -/

/-- Whether an accepted operation may have begun to act. -/
def EngOp.mayRun (o : EngOp) : Bool :=
  match o.op, o.st with
  | .aclr, .started | .adrn, .started => true
  | .cpy, .accepted | .gath, .accepted | .coll, .accepted => true
  | .mma, .accepted => o.bcols.isSome
  | _, _ => false

/-- Whether the matrix arrays have done with every MMA accepted before an operation, if it is one: those whose compute
is over have given up their B buffer (08 R241). -/
def Core.arraysFree (k : Core) (o : EngOp) : Bool :=
  o.op != .mma || k.ops.all fun x => !(x.op == .mma && x.live && x.bbuf && decide (x.id < o.id))

/-- Flits of a frame: its header and its payload in units of 64 bytes (12 R336). -/
def TxFrame.flits (f : TxFrame) : Nat := 1 + (f.payload.length + 63) / 64

/-- Frames go out by a port of a die, for a context (12 R336, 13 R342). -/
def State.putFrames (s : State) (die : Nat) (ctx : Option Nat) (fs : List TxFrame) : State :=
  let n := (fs.map TxFrame.flits).foldl (· + ·) 0
  { (s.countDie die 0x10C n (ctx.bind s.carries)).fabMoved ctx n with sentFrames := s.sentFrames ++ fs }

/-- The frames of a class on a channel of a virtual device to a set of ranks, each of at most 63 payload flits
(12 R336). DESIGN CHOICE (log 20). -/
def State.framesOf (s : State) (v ch : Nat) (h : Bool) (ks : List Nat) (kind : FKind) (bs : List Byte) : List TxFrame :=
  let cfg := (s.coll v ch).cfg.toNat
  let g := s.fgroup (cfg / 256 % 256)
  let parts := if bs.isEmpty then [[]] else (List.range ((bs.length + 4031) / 4032)).map fun i => (bs.drop (4032 * i)).take 4032
  ks.flatMap fun r => parts.map fun p =>
    { dst := ((alGet r g.ranks).getD 0).toNat % 1024, src := s.fabid.toNat % 1024, h,
      tag := BitVec.ofNat 16 (cfg / 2 ^ 32), kind, payload := p }

/-- Frames that a context sends from a core. -/
def State.sendFrames (s : State) (c ctx ch : Nat) (ks : List Nat) (kind : FKind) (bs : List Byte) : State :=
  s.putFrames (dieOf c) (some ctx) (s.framesOf (s.ctx ctx).vd ch (s.clsOf ctx) ks kind bs)

/-- The ranks of a channel's group but this package's. -/
def State.collPeers (s : State) (v ch : Nat) : List Nat :=
  let g := s.fgroup ((s.coll v ch).cfg.toNat / 256 % 256)
  (List.range (g.hdr.toNat % 2048)).filter (· ≠ g.hdr.toNat / 65536 % 1024)

/-- A frame of kind ABORT to every peer of a channel carries no payload; data received for the channel is
dropped (12 R340). DESIGN CHOICE (log 20). -/
def State.sendAbort (s : State) (c ctx ch : Nat) : State :=
  let tag : BitVec 16 := BitVec.ofNat 16 ((s.coll (s.ctx ctx).vd ch).cfg.toNat / 2 ^ 32)
  let s1 := s.sendFrames c ctx ch (s.collPeers (s.ctx ctx).vd ch) .abort []
  { s1 with frames := s1.frames.filter fun f => f.tag != tag }

/-- The 4 KiB chunks of a copy (08 R233). -/
def EngOp.chunks (o : EngOp) (e : ERun) : Nat :=
  match o.op with
  | .cpy | .gath => (writtenBytes e.writes + 4095) / 4096
  | _ => 0

/-- Any subset of what an operation's run writes is written; of an operation that a paused dirty log holds,
nothing (07 R217, 08 R250, 12 R329). How many chunks of a copy had started is free (13 R342, log 4). DESIGN CHOICE (log 40). -/
def State.partWrite (s : State) (c : Nat) (o : EngOp) (e : ERun) : State :=
  let s1 := s.unlessHeld (e.s.eApply c o.ctx true o.early e.writes)
  ({ s1 with free := s1.free + 1 } : State).countDie (dieOf c) 0x107 (Config.freeIdx s1.free (o.chunks e + 1)) (s.carries o.ctx)

/-- Cancel one operation: any subset of its payload may have been written, and a cancelled COLL
aborts its channel towards the peers (10 R280). -/
def State.cancelOp (s : State) (c : Nat) (o : EngOp) : State :=
  if o.live then
    let s1 := if o.mayRun && (s.core c).arraysFree o then s.partWrite c o (s.payload c o) else s
    let s2 := s1.modCore c fun k => { k with ops := k.ops.map fun x =>
      if x.id = o.id then { x with st := .cancelled, bbuf := false } else x }
    (if o.op = .coll then s2.sendAbort c o.ctx o.coll else s2).forgetWalks (.op c o.id)
  else s

/-- Cancel operations, the last accepted first, so that none writes what an earlier one has still to give it
(08 R245). -/
def State.cancelAll (s : State) (c : Nat) (os : List EngOp) : State := os.reverse.foldl (fun s o => s.cancelOp c o) s

/-- Cancel every operation of a group. -/
def State.cancelOps (s : State) (c gid : Nat) : State := s.cancelAll c ((s.core c).ops.filter fun o => o.gid = gid)

end Sys2Proof.Machine
end

