-- ==== Sys2Proof/Machine/Races.lean ====
section
/-! DEFINITION. The events of an execution (07 R200, R203), happens-before over them (07 R207 to R217) and the data
races that it leaves (07 R223). The record is the model's own: only what a data race frees reads it. -/

namespace Sys2Proof.Machine

/-! ## Places (07 R200) -/

/-- Whether two spans of one memory share a byte. -/
def spansMeet (a n b m : Nat) : Bool := decide (a < b + m) && decide (b < a + n)

def Place.meets (p q : Place) : Bool :=
  p.space == q.space && p.pa.host == q.pa.host && (p.space == .global || p.core == q.core)
    && spansMeet p.pa.addr p.n q.pa.addr q.n

/-- Whether two accesses of one thread from core `c` keep their program order: they share a byte
(07 R211), or both go to one other core's window (06 R166). -/
def Place.tied (c : Nat) (p q : Place) : Bool :=
  p.meets q || (p.space == .scratch && q.space == .scratch && p.core == q.core && p.core != c)

/-! ## Recording events (07 R203) -/

/-- The threads of some slots of a group. -/
def State.agentsOf (s : State) (c : Nat) (g : Group) (m : Mask) : List Agent :=
  (slotsOf m).map fun i => .thread g.launch (s.blockOf c g).bix (g.th i).tix.toNat

/-- An event enters the record, or more agents of one that stands in it. -/
def State.note (s : State) (e : Ev) : State :=
  if s.hist.any fun x => x.id == e.id then
    { s with hist := s.hist.map fun x => if x.id = e.id then { x with who := x.who ++ e.who, near := x.near ++ e.near } else x }
  else { s with hist := s.hist ++ [e] }

/-- An event of threads of a group: CLUSTER is BLOCK outside a cluster launch (07 R201). -/
def State.noteThs (s : State) (c gid : Nat) (m : Mask) (e : Ev) : State :=
  match s.group? c gid with
  | none => s
  | some g =>
    let scope (n : Nat) : Nat := if n = 2 && (s.blockOf c g).cluster.isNone then 1 else n
    s.note { e with ctx := g.ctx, who := s.agentsOf c g m, acq := e.acq.map scope, rel := e.rel.map scope
                    near := if e.acq == some 0 || e.rel == some 0 then s.agentsOf c g (maskWhere fun i => (g.th i).st != .empty) else [] }

/-- An event of threads of a group under a new number. -/
def State.noteNew (s : State) (c gid : Nat) (m : Mask) (e : Nat → Ev) : State :=
  let (i, s1) := s.fresh
  s1.noteThs c gid m (e i)

/-- An access takes effect: what it read, and what it wrote. -/
def State.noteGot (s : State) (id : Nat) (got put : List Byte) : State :=
  { s with hist := s.hist.map fun e => if e.id = id then { e with got, put := if put.isEmpty then e.put else put } else e }

/-- The fence of number `id` of threads acts (07 R207, R209). -/
def State.noteFence (s : State) (c gid : Nat) (m : Mask) (id : Nat) (kind : BitVec 2) (scope : BitVec 3) : State :=
  ({ s with nextId := max s.nextId (id + 1) } : State).noteThs c gid m
    { id, ctx := 0, who := [], kind := .fence, sc := kind == 3
      acq := if kind.getLsbD 0 then some scope.toNat else none
      rel := if kind.getLsbD 1 then some scope.toNat else none }

/-- The parts of each unit of a pass that stores, as one access (07 R203). -/
def unitsStored : List (Mask × Place × List Byte) → List (Mask × Place × List Byte)
  | [] => []
  | (m, p, bs) :: r =>
    match unitsStored r with
    | (x, q, cs) :: t =>
      if x == m && q.pa == { p.pa with addr := p.pa.addr + bs.length } && bs.length + cs.length ≤ 16 then
        (m, { p with n := bs.length + cs.length }, bs ++ cs) :: t
      else (m, p, bs) :: (x, q, cs) :: t
    | [] => [(m, p, bs)]

/-- The stores of a pass. -/
def State.noteStores (s : State) (c gid : Nat) (rel buffered : Bool) (parts : List (Mask × Place × List Byte)) : State :=
  (unitsStored parts).foldl (fun s (m, place, put) => s.noteNew c gid m fun id =>
    { id, ctx := 0, who := [], kind := .write, place, put, rel := if rel then some 4 else none, buffered }) s

/-- Rows of a scratchpad go to another block: what was accessed there has nothing to do with it (06 R162). -/
def State.forgetRows (s : State) (c : Nat) (rows : List Nat) : State :=
  { s with hist := s.hist.filter fun e => !(e.place.space == .scratch && e.place.core == c && rows.contains (e.place.pa.addr / 4096)) }

/-! ## Happens-before (07 R208 to R210, R215 to R217) -/

def Agent.launch : Agent → Nat
  | .thread l _ _ | .disp l | .op l _ _ => l

def Agent.isDisp : Agent → Bool
  | .disp _ => true
  | _ => false

/-- Program order: one agent's events, in the order of their numbers (07 R203). -/
def Ev.po (e f : Ev) : Bool := decide (e.id < f.id) && e.who.any fun a => f.who.contains a

/-- Whether an agent lies within a scope of an agent of BLOCK or CLUSTER (07 R201). -/
def Agent.near (a b : Agent) (cluster : Bool) : Bool :=
  match a, b with
  | .thread l x _, .thread k y _ => l == k && (if cluster then x / 4 == y / 4 else x == y)
  | _, _ => false

/-- Whether agents of `f` lie within a scope of agents of `e` (07 R201). -/
def Ev.within (e f : Ev) : Nat → Bool
  | 0 => f.who.any fun b => e.near.contains b
  | 1 => e.who.any fun a => f.who.any fun b => a.near b false
  | 2 => e.who.any fun a => f.who.any fun b => a.near b true
  | _ => true

/-- Whether a release and an acquire share the scope of each (07 R201, R208). -/
def Ev.shares (e f : Ev) : Bool :=
  (match e.rel with | some n => e.within f n | none => false) && (match f.acq with | some n => f.within e n | none => false)

/-- Whether two events are accesses to a common location. -/
def Ev.meets (e f : Ev) : Bool := e.place.meets f.place && (e.place.space != .acc || e.ctx == f.ctx)

/-- Whether a read returns the value of a write, at the bytes that they share (07 R208). -/
def Ev.takes (r w : Ev) : Bool :=
  !r.got.isEmpty && !w.put.isEmpty && r.meets w && (List.range r.got.length).all fun i =>
    let a := r.place.pa.addr + i
    if w.place.pa.addr ≤ a && a < w.place.pa.addr + w.put.length then r.got[i]? == w.put[a - w.place.pa.addr]? else true

/-- A write with its release sequence (07 R208). -/
def relSeq (h : List Ev) (w : Ev) : List Ev :=
  h.foldl (fun seq _ => seq ++ h.filter fun m => m.kind == .rmw && !(seq.any fun x => x.id == m.id) && seq.any fun x => m.takes x) [w]

/-- The writes of a release, and the reads of an acquire (07 R208). -/
def Ev.relWrites (h : List Ev) (e : Ev) : List Ev := if e.kind == .fence then h.filter fun w => !w.put.isEmpty && e.po w else [e]
def Ev.acqReads (h : List Ev) (f : Ev) : List Ev := if f.kind == .fence then h.filter fun r => !r.got.isEmpty && r.po f else [f]

/-- A release synchronizes with an acquire (07 R208). -/
def Ev.syncs (h : List Ev) (e f : Ev) : Bool :=
  e.shares f && (e.relWrites h).any fun w => let seq := relSeq h w; (f.acqReads h).any fun r => seq.any fun x => r.takes x

/-- An SC fence precedes another: their total order is that in which they act (07 R209). -/
def Ev.precedes (h : List Ev) (e f : Ev) : Bool :=
  e.sc && f.sc && e.shares f && ((h.dropWhile fun x => x.id != e.id).drop 1).any fun x => x.id == f.id

/-- Cumulativity: from a write to a release of a thread that has read its value (07 R210). -/
def Ev.seenBy (h : List Ev) (e f : Ev) : Bool := f.rel.isSome && h.any fun r => r.takes e && r.po f

/-- The edges of barriers, launches and engine operations: two arrivals at one instance of a barrier; an LNCH and
the taking of its packet; what the dispatcher reads for a launch, and its threads; those, and the completion signal;
a release before the issue of an operation, and its completion word (07 R215 to R217). A launch that has finished
when a packet is taken comes before it. DESIGN CHOICE (log 120). -/
def Ev.special (h : List Ev) (e f : Ev) : Bool :=
  let ls (x : Ev) : List Nat := x.who.map Agent.launch
  let disp (x : Ev) : Bool := x.who.any Agent.isDisp
  match e.kind, f.kind with
  | .bar l b g, .bar l' b' g' => l == l' && b == b' && g == g'
  | k, .take q n alive => decide (e.id < f.id) && ((match k with | .enq q' n' => q == q' && n == n' | _ => false)
      || (ls e).any fun l => !alive.contains l && !(ls f).contains l)
  | _, .syncWrite =>
    if disp f then (ls e).any fun l => (ls f).contains l
    else (match e.rel with | some n => decide (3 ≤ n) | none => false) && h.any fun i => match i.kind with
      | .issue c o => e.po i && f.who.any fun a => match a with | .op _ c' o' => c == c' && o == o' | _ => false
      | _ => false
  | .syncWrite, _ => false
  | _, _ => disp e && !disp f && (ls e).any fun l => (ls f).contains l

/-- The edges of happens-before (07 R210). -/
def Ev.edge (h : List Ev) (e f : Ev) : Bool := e.po f || e.special h f || e.precedes h f || e.seenBy h f || e.syncs h f

/-- The events that an event happens before, and itself: the closure of the edges. -/
def hbFrom (h : List Ev) (e : Ev) : List Ev :=
  h.foldl (fun past _ => past ++ h.filter fun f => !(past.any fun x => x.id == f.id) && past.any fun x => x.edge h f) [e]

def happensBefore (h : List Ev) (e f : Ev) : Bool := (hbFrom h e).any fun x => x.id == f.id

/-! ## Data races (07 R223) -/

/-- Whether an access is plain and not synchronizing: a read of up to 8 bytes that an acquire fence follows, or a
write of up to 8 bytes that a release fence precedes, synchronizes (07 R223). -/
def Ev.unsynced (h : List Ev) (e : Ev) : Bool :=
  match e.kind with
  | .read => e.acq.isNone && !(decide (e.place.n ≤ 8) && h.any fun f => f.kind == .fence && f.acq.isSome && e.po f)
  | .write => e.rel.isNone && !(decide (e.place.n ≤ 8) && h.any fun f => f.kind == .fence && f.rel.isSome && f.po e)
  | _ => false

/-- Whether two accesses are of a form that can race: of different address or size, of 16 bytes, or buffered by a
region. -/
def Ev.uneven (e f : Ev) : Bool :=
  e.place != { f.place with core := e.place.core } || decide (8 < e.place.n) || e.buffered || f.buffered

/-- A data race (07 R223). -/
def Ev.races (h : List Ev) (e f : Ev) : Bool :=
  e.unsynced h && f.unsynced h && (e.kind == .write || f.kind == .write) && e.meets f && !(e.who.any fun a => f.who.contains a)
    && e.uneven f && !happensBefore h e f && !happensBefore h f e

/-- Whether an access that has been recorded is in a data race. -/
def State.inRace (s : State) (id : Nat) : Bool :=
  match s.hist.find? (·.id == id) with
  | some e => s.hist.any fun f => e.races s.hist f
  | none => false

/-- The bytes that two places share. -/
def Place.common (p q : Place) : Place :=
  let lo := max p.pa.addr q.pa.addr
  { p with pa := { p.pa with addr := lo }, n := min (p.pa.addr + p.n) (q.pa.addr + q.n) - lo }

/-- Bytes of a place become free ones, at home and in every copy (log 4). -/
def State.freeBytes (s : State) (ctx : Nat) (p : Place) : State :=
  let at_ (a : Nat) : Byte := (s.peek (a - p.pa.addr)).setWidth 8
  let bs := (List.range p.n).map fun i => at_ (p.pa.addr + i)
  let s1 := { s with free := s.free + p.n + 1 }
  match p.space with
  | .scratch => s1.modCore p.core fun k => { k with scratch := cellsSet k.scratch p.pa.addr bs }
  | .acc => if s1.accUeAt p.core ctx (p.pa.addr / 4) then s1 else s1.accSet p.core ctx (p.pa.addr / 4) ((s.peek 0).setWidth 32)
  | .global =>
    let word (w : L1Word) : Word := (List.range 4).foldl (fun v i =>
      let a := w.pa.addr + i
      if w.pa.host == p.pa.host && p.pa.addr ≤ a && a < p.pa.addr + p.n then setByte v i (at_ a) else v) w.val
    { s1.rawSet p.pa bs with cores := s1.cores.map fun (c, k) => (c, { k with l1 := k.l1.map fun w => { w with val := word w } }) }

/-- A data race has left the bytes that both of its accesses touch open for every later read (07 R223).
DESIGN CHOICE (log 120). -/
def State.scramble (s : State) (a b : Nat) : State :=
  match s.hist.find? (·.id == a), s.hist.find? (·.id == b) with
  | some e, some f => if e.races s.hist f then s.freeBytes e.ctx (e.place.common f.place) else s
  | _, _ => s

end Sys2Proof.Machine
end

