-- ==== Sys2Proof/Machine/Access.lean ====
section
/-! DEFINITION. Accesses of threads (06, 07): when a load takes its value, how a store issues, and
the order that one thread's accesses to one location keep (07 R211). -/

namespace Sys2Proof.Machine

def PLoad.place (l : PLoad) : Place := ⟨l.space, l.srcCore, l.pa, l.nbytes⟩
def PStore.place (w : PStore) : Place := ⟨w.space, w.tgtCore, w.pa, w.bytes.length⟩
def PAtom.nbytes (a : PAtom) : Nat := if a.w then 8 else 4
def PAtom.place (a : PAtom) : Place := ⟨a.space, a.tgtCore, a.pa, a.nbytes⟩

/-! ## Whose accesses they are (02 R54) -/

/-- The threads of an access: slots of its group, and of the groups that some have moved to. -/
def PLoad.whose (l : PLoad) : List (Nat × Mask) := [(l.gid, l.mask)]
def PStore.whose (w : PStore) : List (Nat × Mask) := (w.gid, w.mask) :: w.also
def PAtom.whose (a : PAtom) : List (Nat × Mask) := (a.gid, a.mask) :: a.also
def PFence.whose (x : PFence) : List (Nat × Mask) := (x.gid, x.mask) :: x.also

/-- Whether two sets of threads share one. -/
def shareThread (a b : List (Nat × Mask)) : Bool := a.any fun (g, m) => b.any fun (h, n) => g == h && (m &&& n) != 0

/-- Whether an access is one of the threads of a set of a group. -/
def PStore.of (w : PStore) (gid : Nat) (m : Mask) : Bool := shareThread w.whose [(gid, m)]
def PAtom.of (a : PAtom) (gid : Nat) (m : Mask) : Bool := shareThread a.whose [(gid, m)]
def PFence.of (x : PFence) (gid : Nat) (m : Mask) : Bool := shareThread x.whose [(gid, m)]

/-- Where threads go when some slots of a group move: (group, set) before, and after. -/
def rekey (gid : Nat) (f : Mask → List (Nat × Mask)) (l : List (Nat × Mask)) : List (Nat × Mask) :=
  (l.flatMap fun (g, m) => if g == gid then f m else [(g, m)]).filter fun (_, m) => m != 0

def PStore.rekey (w : PStore) (gid : Nat) (f : Mask → List (Nat × Mask)) : PStore :=
  match Machine.rekey gid f w.whose with
  | (g, m) :: r => { w with gid := g, mask := m, also := r }
  | [] => w

def PAtom.rekey (a : PAtom) (gid : Nat) (f : Mask → List (Nat × Mask)) : PAtom :=
  match Machine.rekey gid f a.whose with
  | (g, m) :: r => { a with gid := g, mask := m, also := r }
  | [] => a

def PFence.rekey (x : PFence) (gid : Nat) (f : Mask → List (Nat × Mask)) : PFence :=
  match Machine.rekey gid f x.whose with
  | (g, m) :: r => { x with gid := g, mask := m, also := r }
  | [] => x

/-- Threads of a group go elsewhere with the accesses of theirs that are in flight (02 R49, R54). -/
def Core.rekey (k : Core) (gid : Nat) (f : Mask → List (Nat × Mask)) : Core :=
  { k with
    stores := k.stores.map fun w => w.rekey gid f
    atoms := k.atoms.map fun a => a.rekey gid f
    fences := k.fences.map fun x => x.rekey gid f
    scrOld := k.scrOld.flatMap fun o => if o.gid == gid then
        ((f o.mask).filter fun (_, m) => m != 0).map fun (g, m) => { o with gid := g, mask := m }
      else [o] }

/-! ## Loads take their values (06 R185, 07 R221) -/

/-- Whether a queued store is an earlier one of the loading threads that writes all of `n` bytes. -/
def PStore.forwards (w : PStore) (l : PLoad) (a n : Nat) : Bool :=
  shareThread w.whose l.whose && w.id < l.id && w.space == l.space
    && (w.space == .global || w.tgtCore == l.srcCore) && w.pa.host == l.pa.host
    && decide (w.pa.addr ≤ a) && decide (a + n ≤ w.pa.addr + w.bytes.length)

/-- The byte that a queued store of the loading threads gives, the youngest earlier one first. -/
def Core.storeFwd (k : Core) (l : PLoad) (i : Nat) : Option Byte :=
  (k.stores.filter fun w => w.forwards l (l.pa.addr + i) 1).foldl
    (fun _ w => some (w.bytes.getD (l.pa.addr + i - w.pa.addr) 0)) none

/-- Whether a queued store of the loading threads writes all of the word that a byte lies in: the word is good for
them, which one that writes less of it would leave uncorrectable (06 R199). -/
def Core.wordFwd (k : Core) (l : PLoad) (i : Nat) : Bool :=
  !l.cmap && k.stores.any fun w => w.forwards l ((l.pa.addr + i) / 4 * 4) 4

/-- The byte a load's own earlier store gives it: a region buffer's, or a queued store's. -/
def Core.fwdByte (k : Core) (l : PLoad) (i : Nat) : Option Byte :=
  match l.fwd.getD i none with
  | some b => some b
  | none => if l.cmap then none else k.storeFwd l i

/-- An earlier reduction or atomic of the same threads has to come before a load; so has an earlier
message to the same core's window. -/
def Core.loadBlocked (k : Core) (c : Nat) (l : PLoad) : Bool :=
  k.atoms.any (fun a => shareThread a.whose l.whose && a.id < l.id && a.place.tied c l.place)
    || (l.space == .scratch && l.srcCore != c && k.stores.any fun w =>
      shareThread w.whose l.whose && w.id < l.id && w.place.tied c l.place)

/-- Whether the accesses of a launch on a core go past the L1: the fused L1 of a cluster caches only the
accesses of the launches that fused it (06 R189). -/
def State.l1Bypassed (s : State) (c launch : Nat) : Bool :=
  (s.core c).fused && !(s.core c).blocks.any fun b => b.fused && b.launch == launch

/-- The context and launch of the group of a load. -/
def State.loader (s : State) (c : Nat) (l : PLoad) : Nat × Nat := ((s.group? c l.gid).map fun g => (g.ctx, g.launch)).getD (0, 0)

/-- Whether the power controller holds a load back: a global one that neither its L1 nor the L2 can serve
(10 R292). -/
def State.loadStopped (s : State) (c : Nat) (l : PLoad) : Bool :=
  let (ctx, launch) := s.loader c l
  l.space == .global && !l.cmap && s.hbmHolds (s.clsOf ctx) l.pa l.nbytes
    && !(!s.l1Bypassed c launch && s.l1Hit (s.l1Of c) l.pa l.nbytes)

/-- Whether a load cannot take its value yet. -/
def State.loadHeld (s : State) (c : Nat) (l : PLoad) : Bool := (s.core c).loadBlocked c l || s.loadStopped c l

/-- The indices of the 4-byte words of `n` bytes in which some byte is bad. -/
def badWords (n : Nat) (bad : Nat → Bool) : List Nat :=
  (List.range ((n + 3) / 4)).filter fun k => (List.range (min 4 (n - 4 * k))).any fun j => bad (4 * k + j)

/-- The bytes that part of a load finds, the 4-byte words of it that are bad with their code, and the
state after; a global one takes them through the L1 and, on a miss, at the home (06 R185, R195, R199). -/
def State.loadPart (s : State) (c : Nat) (l : PLoad) (o n : Nat) : List Byte × List Nat × FCode × State :=
  let pa : PA := { l.pa with addr := l.pa.addr + o }
  let cured (i : Nat) : Bool := (s.core c).wordFwd l (o + i)
  match l.space with
  | .acc =>
    let g := (s.group? c l.gid).map (·.ctx) |>.getD 0
    (leBytes 4 (s.accGet c g (pa.addr / 4)).toNat, if s.accUeAt c g (pa.addr / 4) && !cured 0 then [0] else [], .memUe, s)
  | .scratch => (s.scratchGet l.srcCore pa.addr n, badWords n fun i => !cured i && s.scratchUeAt l.srcCore (pa.addr + i) 1, .memUe, s)
  | .global =>
    let (ctx, launch) := s.loader c l
    if l.cmap then (s.mapBytes (s.ctx ctx).vd pa.addr n, [], .memUe, s)
    else
      let h := s.l1Of c
      let past := s.l1Bypassed c launch
      let hit := !past && s.l1Hit h pa n
      let s1 := s.countCore c (if hit then 0xB else 0xC) 1 (s.carries ctx)
      match if hit then none else s1.checkPa (s.ctx ctx).vd pa with
      | some e => (List.replicate n 0, List.range ((n + 3) / 4), e, s1)
      | none =>
        let ue := badWords n fun i => (l.fwd.getD (o + i) none).isNone && !cured i && (if past then s1.ueByte { pa with addr := pa.addr + i } else s1.l1Bad h { pa with addr := pa.addr + i })
        let (bs, s2) := if past then (s1.homeBytes pa n, s1) else s1.l1Load h pa n
        (bs, ue, .memUe, if hit then s2 else s2.l2Read (s2.workOf ctx) pa n)

/-- A load takes its value now, or the next half of a 16-byte one: the lower half first, unless the upper one
has been taken (06 R164, 07 R205). Bytes of its own earlier stores come first; the value of a load in a data
race is free (07 R223, log 4). DEDUCED (log 41). DESIGN CHOICE (log 120). -/
def State.serveHalf (s : State) (c : Nat) (l : PLoad) (up : Bool) : State :=
  let s0 := if l.acq then s.l1Acquire (s.l1Of c) else s
  let n := min 8 l.nbytes
  let o := if up then 8 else 0
  let (bs, ue, e, s1) := s0.loadPart c l o n
  let f := (s.core c).fwdByte l
  let mine := bs.mapIdx fun i b => if l.racy then (s.peek (o + i)).setWidth 8 else (f (o + i)).getD b
  let bad := ue.map (· + o / 4)
  let s2 := if l.racy then { s1 with free := s1.free + 16 } else s1
  let got : Option (List Byte) := if l.nbytes ≤ 8 then some mine else l.half.map fun h => if up then h.1 ++ mine else mine ++ h.1
  let s3 : State := match got with | some bs => s2.noteGot l.id bs [] | none => s2
  s3.modCore c fun k => { k with loads := k.loads.map fun x =>
    if x.id ≠ l.id then x
    else if l.nbytes ≤ 8 then { x with data := some (mine, bad), code := e }
    else match l.half with
      | none => { x with half := some (mine, bad), up, code := e }
      | some (other, was) => { x with data := some (if up then other ++ mine else mine ++ other, was ++ bad), code := if was.isEmpty then e else x.code } }

/-- A load takes its value, or the next half of it. -/
def State.serve (s : State) (c : Nat) (l : PLoad) : State := s.serveHalf c l (l.half.isSome && !l.up)

/-- A load takes all of its value now. -/
def State.serveWhole (s : State) (c : Nat) (l : PLoad) : State :=
  let s1 := s.serve c l
  match (s1.core c).loads.find? (·.id == l.id) with
  | some x => if x.data.isNone then s1.serve c x else s1
  | none => s1

/-- The loads without a value that have to come before an access of threads to a place: those of the same
threads, issued before it, that meet it, and those that have to come before these, oldest first (07 R211). -/
def Core.metLoads (k : Core) (c : Nat) (ts : List (Nat × Mask)) (p : Place) (before : Nat) : List PLoad :=
  (k.loads.reverse.foldl (fun (acc : List PLoad × List (List (Nat × Mask) × Place)) l =>
    if l.data.isNone && decide (l.id < before) && acc.2.any fun (us, q) => shareThread l.whose us && l.place.tied c q then
      (l :: acc.1, (l.whose, l.place) :: acc.2)
    else acc) ([], [(ts, p)])).1

/-- Whether a load that has to come before an access cannot take its value yet. -/
def State.metHeld (s : State) (c : Nat) (ts : List (Nat × Mask)) (p : Place) (before : Nat) : Bool :=
  ((s.core c).metLoads c ts p before).any fun l => s.loadHeld c l

/-- The loads that have to come before an access of threads to a place take their values (07 R211). -/
def State.serveFor (s : State) (c : Nat) (ts : List (Nat × Mask)) (p : Place) (before : Nat) : State :=
  ((s.core c).metLoads c ts p before).foldl (fun s l => s.serveWhole c l) s

/-- The same for some threads of a group. -/
def State.serveMet (s : State) (c gid : Nat) (m : Mask) (p : Place) (before : Nat) : State := s.serveFor c [(gid, m)] p before

/-- Serve a load, or the next half of it, after the earlier loads of its threads to the same bytes
(07 R211). -/
def State.serveInOrder (s : State) (c : Nat) (l : PLoad) : State := (s.serveFor c l.whose l.place l.id).serve c l

/-- The earlier loads of a set of threads take their values: what follows a release or a barrier of the
threads comes after them (07 R210, R213, R215). -/
def State.serveAll (s : State) (c gid : Nat) (m : Mask) (before : Nat) : State :=
  ((s.core c).loads.filter fun l => l.gid == gid && (l.mask &&& m) != 0 && l.data.isNone && l.id < before
      && !s.loadHeld c l && !s.metHeld c l.whose l.place l.id).foldl (fun s l => (s.serveFor c l.whose l.place l.id).serveWhole c l) s

/-- Whether an earlier load of threads that has no value yet is held back: what the threads release waits
for it (07 R210, R213). -/
def State.releaseHeld (s : State) (c : Nat) (ts : List (Nat × Mask)) (before : Nat) : Bool :=
  (s.core c).loads.any fun l => l.data.isNone && decide (l.id < before) && shareThread l.whose ts
    && (s.loadHeld c l || s.metHeld c l.whose l.place l.id)

/-! ## Stores issue (17 R446, R447) -/

/-- Whether a recorded release of the same threads that came before an access has still to be made:
the access is ordered after it (07 R212, R222). -/
def Core.behindRelease (k : Core) (ts : List (Nat × Mask)) (id : Nat) : Bool :=
  k.fences.any fun x => x.bg && decide (x.id < id) && shareThread x.whose ts

/-- Whether an earlier queued store or outstanding atomic of the same threads meets a place, or a
recorded release stands before it, so that a new store waits (07 R211, R222). -/
def Core.storeBlocked (k : Core) (c gid : Nat) (m : Mask) (p : Place) : Bool :=
  k.stores.any (fun w => w.of gid m && w.place.tied c p)
    || k.atoms.any (fun a => a.of gid m && a.place.tied c p)
    || k.fences.any fun x => x.bg && x.of gid m

/-- Whose store it is: its context and launch, the threads' group and set, and its PC. -/
structure Storer where
  ctx : Nat
  launch : Nat
  gid : Nat
  mask : Mask
  pc : DWord

/-- The origin of a store of a core (06 R195). -/
def Storer.origin (o : Storer) (c : Nat) : Origin := ⟨c, o.gid, lowSlot o.mask, o.pc⟩

/-- Queue a store. -/
def State.queueStore (s : State) (c : Nat) (w : Storer) (rel strm : Bool) (p : Place) (bs : List Byte) (after : Option Nat := none) : State :=
  let (i, s1) := s.fresh
  s1.modCore c fun k => { k with stores := k.stores ++
    [{ id := i, gid := w.gid, mask := w.mask, ctx := w.ctx, launch := w.launch, pc := w.pc, rel, strm, space := p.space
       pa := p.pa, tgtCore := p.core, bytes := bs, after }] }

/-- Whether a new store of threads waits in the queue: for an earlier store, atomic or release, or for an
earlier load that cannot take its value yet (07 R211). -/
def State.storeHeld (s : State) (c gid : Nat) (m : Mask) (p : Place) : Bool :=
  (s.core c).storeBlocked c gid m p || s.metHeld c [(gid, m)] p s.nextId

/-- One global store of at most 8 bytes issues (06 R185, R188, R189; 17 R447). It waits in the queue when it
has to come after another access, when its L1 has no room for its line or does not cache it, or when one half
of it would show before the other; a store that a paused dirty log holds waits there too, and its thread goes
on (12 R329). -/
def State.storeGlobal (s : State) (c : Nat) (w : Storer) (rel strm : Bool) (pa : PA) (bs : List Byte) : State :=
  let p : Place := ⟨.global, c, pa, bs.length⟩
  let h := s.l1Of c
  if rel then s.queueStore c w true strm p bs
  else if strm then
    let t := s.dropLine h pa
    (if s.heldMore t || s.lineStopped h pa then s else t).queueStore c w false true p bs
  else if s.storeHeld c w.gid w.mask p || s.l1Full h pa || (s.core h).wouldTear pa bs.length || s.l1Bypassed c w.launch then
    s.queueStore c w false false p bs
  else
    let t := (s.serveMet c w.gid w.mask p s.nextId).l1Store h w.ctx (w.origin c) pa bs
    if s.heldMore t then s.queueStore c w false false p bs else t

/-- One scratchpad store of at most 8 bytes: at once in the own core, as a message elsewhere (06 R166), and
after the lower half of its own access (06 R164); an engine may read what was there until the store is
released (07 R216). -/
def State.storeScratch (s : State) (c : Nat) (w : Storer) (tgt a : Nat) (bs : List Byte) (after : Option Nat := none) : State :=
  let p : Place := ⟨.scratch, tgt, ⟨false, a⟩, bs.length⟩
  if tgt ≠ c || after.isSome || s.storeHeld c w.gid w.mask p then s.queueStore c w false false p bs after
  else ((s.serveMet c w.gid w.mask p s.nextId).keepOld c w.gid w.mask s.nextId a bs.length).scratchSet c a bs

/-- One accumulator store (06 R168). -/
def State.storeAcc (s : State) (c : Nat) (w : Storer) (a : Nat) (bs : List Byte) : State :=
  let p : Place := ⟨.acc, c, ⟨false, a⟩, 4⟩
  if s.storeHeld c w.gid w.mask p then s.queueStore c w false false p bs
  else (s.serveMet c w.gid w.mask p s.nextId).accSet c w.ctx (a / 4) (BitVec.ofNat 32 (leNat bs))

/-- The store that has queued the lower half of a unit's scratchpad access since a number. -/
def Core.lowerHalf (k : Core) (gid : Nat) (m : Mask) (since : Nat) : Option Nat :=
  (k.stores.find? fun w => w.space == .scratch && w.gid == gid && w.mask == m && decide (since ≤ w.id)).map (·.id)

/-- The parts of one pass of a store issue, or of one that a region has buffered. Parts of different units that meet wait in the queue, where
either may come first (07 R203, 17 R447); the halves of one scratchpad access keep their order (06 R164). -/
def State.issueStores (s : State) (c ctx launch gid : Nat) (pc : DWord) (rel strm : Bool)
    (parts : List (Mask × Place × List Byte)) (buffered : Bool := false) : State :=
  let s := s.noteStores c gid rel buffered parts
  let since := s.nextId
  parts.foldl (fun s (m, pl, bs) =>
    let w : Storer := ⟨ctx, launch, gid, m, pc⟩
    let after := (s.core c).lowerHalf gid m since
    if !rel && !strm && parts.any (fun (x, q, _) => x != m && q.meets pl) then s.queueStore c w false false pl bs after
    else match pl.space with
      | .global => s.storeGlobal c w rel strm pl.pa bs
      | .scratch => s.storeScratch c w pl.core pl.pa.addr bs after
      | .acc => s.storeAcc c w pl.pa.addr bs) s

/-! ## Fences (06 R186, 07 R207 to R213, 15 R387) -/

/-- The scopes whose L1 action drops and writes back (06 R186). -/
def scopeActs (fused : Bool) (scope : BitVec 3) : Bool := decide (3 ≤ scope.toNat) || (scope.toNat == 2 && !fused)

def fenceAcq (kind : BitVec 2) : Bool := kind.getLsbD 0
def fenceRel (kind : BitVec 2) : Bool := kind.getLsbD 1

/-- Whether an L1 holds a stored word that a release has to write back. -/
def Core.l1Dirty (k : Core) : Bool := k.l1.any fun w => w.st != .unowned

/-- What a fence of threads still waits for: loads, atomics and queued stores (15 R387); an acquire awaits
the reads of atomics too (07 R208). -/
def Core.fenceNeeds (k : Core) (gid : Nat) (m : Mask) (kind : BitVec 2) : List Nat × List Nat × List Nat :=
  (if fenceAcq kind then (k.loadsOf gid m).map (·.id) else [],
    (k.atoms.filter fun a => a.of gid m).map (·.id),
    if fenceRel kind then (k.stores.filter fun w => w.of gid m).map (·.id) else [])

/-- Whether a fence of threads of a core has nothing to wait for. -/
def State.fenceIdle (s : State) (c gid : Nat) (m : Mask) (kind : BitVec 2) (acts : Bool) : Bool :=
  let needs := (s.core c).fenceNeeds gid m kind
  needs.1.isEmpty && needs.2.1.isEmpty && needs.2.2.isEmpty
    && !(fenceRel kind && (s.core c).fences.any fun x => x.bg && x.of gid m)
    && !(fenceRel kind && s.releaseHeld c [(gid, m)] s.nextId)
    && !(acts && fenceRel kind && (s.core (s.l1Of c)).l1Dirty)

/-- A fence acts: at a release the earlier loads of its threads take their values and the engines see
their scratchpad stores (07 R213, R216), then come the L1 actions, the release's before the acquire's. `before` is
its number. -/
def State.fenceAct (s : State) (c gid : Nat) (m : Mask) (before : Nat) (kind : BitVec 2) (scope : BitVec 3) (fused : Bool) : State :=
  let h := s.l1Of c
  let s := s.noteFence c gid m before kind scope
  let s0 := if fenceRel kind then
      (s.serveAll c gid m before).modCore c fun k => if 1 ≤ scope.toNat then k.released gid m before else k
    else s
  if !scopeActs fused scope then s0
  else
    let s1 := if fenceRel kind then s0.l1Release h else s0
    if fenceAcq kind then s1.l1Acquire h else s1

end Sys2Proof.Machine
end

