-- ==== Sys2Proof/Machine/Retire.lean ====
section
/-! DEFINITION. The end of things: faults that stop a context, groups, blocks and launches that
retire, contexts discarded by DIE_LOST, trace records. -/

namespace Sys2Proof.Machine

/-! ## Trace records (13 R353) -/

/-- Write a trace record of a thread, if its context is debugged and the ring is enabled.
DEDUCED (log 52). -/
def State.trace (s : State) (core gid slot typ data : Nat) : State :=
  match s.group? core gid with
  | none => s
  | some g =>
    match (s.ctx g.ctx).dbgVd with
    | none => s
    | some v =>
      let d := s.vd v
      if !ringEn d.trring || d.dbgctx.toNat % 4096 ≠ g.ctx then s
      else if (d.trtail - d.trhead).toNat ≥ ringSize d.trring / 32 then
        s.modVd v fun d => { d with trdrop := d.trdrop + 1 }
      else
        let t := g.th slot
        let rec_ := leBytes 1 typ ++ leBytes 1 (dieOf core) ++ leBytes 2 core ++ leBytes 1 gid ++ leBytes 1 slot
          ++ leBytes 2 t.tix.toNat ++ leBytes 4 (s.blockOf core g).bix ++ leBytes 4 data ++ leBytes 8 t.pc.toNat
          ++ leBytes 8 s.time
        (s.ringPut d.trring d.trtail.toNat rec_).modVd v fun d => { d with trtail := d.trtail + 1 }

/-- One record for each slot of a set. -/
def State.traceAll (s : State) (core gid : Nat) (m : Mask) (typ data : Nat) : State :=
  (slotsOf m).foldl (fun s i => s.trace core gid i typ data) s

/-! ## Stepped threads (13 R351) -/

/-- A thread that commits goes on, and a stepped one halts after its instruction. -/
def Thread.goOn (t : Thread) (pc : DWord) : Thread :=
  { t with pc, noFire := false, halted := t.halted || t.stepping, stepping := false, starve := if t.stepping then 0 else t.starve }

/-- A thread whose instruction faulted stays, and a stepped one halts. -/
def Thread.stay (t : Thread) : Thread :=
  { t with noFire := false, halted := t.halted || t.stepping, stepping := false, starve := if t.stepping then 0 else t.starve }

/-- The stepped threads among some. -/
def Group.steppedIn (g : Group) (m : Mask) : Mask := maskWhere fun i => (g.th i).stepping && m.getLsbD i

/-- The instruction of some threads faults outside a pass: the stepped ones halt, with a TYPE 2 record each. -/
def State.stepFault (s : State) (core gid : Nat) (m : Mask) : State :=
  match s.group? core gid with
  | none => s
  | some g =>
    let d := g.steppedIn m
    if d == 0 then s else (s.setGroup core gid (g.modThs d fun _ t => t.stay)).traceAll core gid d 2 0

/-- The debugging virtual device is notified of halted threads of a group (10 R284, 11 R315): the spec names no
way, so HALT records of them may be written or not. DESIGN CHOICE (log 122). -/
def State.notifyHalts (s : State) (c gid : Nat) : State :=
  match s.group? c gid with
  | none => s
  | some g =>
    let m := maskWhere fun i => (g.th i).halted && (g.th i).st == .active
    if m == 0 then s
    else
      let s1 := { s with free := s.free + 1 }
      if Config.freeBit s.free then s1.traceAll c gid m 5 0 else s1

/-! ## Interrupts of contexts (11 R304) -/

/-- A context enters SAVED or STOPPED, which raises package cause 2 (12 R334). -/
def State.enterStop (s : State) (c : Nat) (x : Context) : State := (s.setCtx c x).pirq 2

/-! ## Discarding a context's work (11 R307) -/

/-- Unfuse a cluster's L1s once none of its blocks is of a FUSEL1 launch: every owned word is written
back first (06 R189), so it waits for a word that a paused dirty log holds (12 R329); a core keeps the copies of its
own quarter. DEDUCED (log 76). -/
def State.unfuse (s : State) (c : Nat) : State :=
  let c0 := c / 4 * 4
  let used := (List.range 4).any fun i => (s.core (c0 + i)).blocks.any (·.fused)
  if (s.core c0).fused && !used then
    let s1 := s.l1Release c0
    if (s1.core c0).l1Dirty then s1
    else
      let copies := (s1.core c0).l1
      (List.range 4).foldl (fun s i => s.modCore (c0 + i) fun k =>
        { k with fused := false, l1 := copies.filter fun w => w.pa.addr / 128 % 4 == i }) s1
  else s

/-- Drop what a core holds for the groups of a context. -/
def Core.dropCtx (k : Core) (ctx : Nat) : Core :=
  let gone (g : Nat) : Bool := match alGet g k.groups with | some x => x.ctx == ctx | none => false
  let lanesOf : List Nat := k.groups.filterMap fun (_, x) => if x.ctx == ctx then x.clause.map (·.lane) else none
  { k with
    groups := k.groups.filter fun (_, x) => x.ctx != ctx
    blocks := k.blocks.filter fun b => b.ctx != ctx
    lanes := k.lanes.mapIdx fun i l => if lanesOf.contains i then .free else l
    loads := k.loads.filter fun l => !gone l.gid
    atoms := k.atoms.filter fun a => a.ctx != ctx
    fences := k.fences.filter fun f => f.ctx != ctx
    stores := k.stores.filter fun w => w.ctx != ctx
    scrOld := k.scrOld.filter fun o => !gone o.gid
    pushes := k.pushes.filter fun p => !gone p.gid
    lnchs := k.lnchs.filter fun l => !gone l.gid
    ops := k.ops.filter fun o => o.ctx != ctx
    spills := k.spills.filter fun p => !gone p.gid
    evicted := k.evicted.filter fun g => !gone g
    accOwner := k.accOwner.filter fun (_, _, x) => x != ctx }

/-- Cancel a context's operations, the last accepted first (08 R245), and discard its groups, blocks, accesses in flight and claims on rows. -/
def State.discardCtx (s : State) (ctx : Nat) : State :=
  let s1 := s.cores.foldl (fun s (c, k) => s.cancelAll c (k.ops.filter fun o => o.ctx = ctx)) s
  let fusedAt := s1.cores.filterMap fun (c, k) => if k.blocks.any fun b => b.ctx == ctx && b.fused then some c else none
  let s2 : State := { s1 with
    cores := s1.cores.map fun (c, k) => (c, k.dropCtx ctx)
    walks := s1.walks.filterMap fun w =>
      if w.ctx ≠ ctx then some w
      else
        let who := w.who.filter fun | .disp _ => true | _ => false
        if who.isEmpty then none else some { w with who } }
  fusedAt.foldl (fun s c => s.unfuse c) s2.forgetSinter

/-- The dies that are lost, as a mask. -/
def State.lostMask (s : State) : BitVec 2 := (if s.dieLost 0 then 1 else 0) ||| (if s.dieLost 1 then 2 else 0)

/-- DIE_LOST strikes a context, which has asked for what a lost die held: it becomes STOPPED without an image
(01 R35; 11 R305, R307). -/
def State.loseCtx (s : State) (ctx : Nat) : State :=
  let x := s.ctx ctx
  if x.st = .free then s
  else
    let y := { x.record .dieLost 0 0 0 with st := .stopped, image := false, tdm := x.tdm ||| s.lostMask }
    let s1 := (s.discardCtx ctx).setCtx ctx y
    if x.st = .stopped then s1 else s1.pirq 2

/-! ## Faults of a pass (11 R295, R299) -/

/-- The Stop fault of the lowest slot among some faults (11 R307). -/
def firstStop (fs : List ThFault) : Option ThFault :=
  (fs.filter fun f => !f.code.isUser).foldl (fun acc f => match acc with
    | none => some f
    | some g => if f.slot < g.slot then some f else some g) none

/-- The slots a list of faults names. DEDUCED (log 65). -/
def faultMask (fs : List ThFault) : Mask := fs.foldl (fun m f => m ||| (1#32 <<< f.slot)) 0

/-- The faults of one pass strike: DIE_LOST first; any fault in handler mode is DOUBLE_FAULT; a Stop
fault stops the context, with the trap registers set by the Stop faults of the pass (04 R125); User
faults wait for the end of the clause. -/
def State.raise (s : State) (core gid : Nat) (pf : PassFault) : State :=
  match s.group? core gid, pf.faults with
  | some g, _ :: _ =>
    if pf.faults.any fun f => f.code == .dieLost then s.loseCtx g.ctx
    else if g.handler then
      s.stopCtx g.ctx .doubleFault 0 pf.pc (stopLoc core gid (lowSlot (faultMask pf.faults)))
    else
      match firstStop pf.faults with
      | some f => (s.setGroup core gid (g.recordFault { pf with faults := pf.faults.filter fun f => !f.code.isUser })).stopCtx
          g.ctx f.code 0 pf.pc (stopLoc core gid f.slot)
      | none => s.setGroup core gid { g with pend := g.pend ++ [pf] }
  | _, _ => s

/-- A clause has ended or broken: with a User fault pending and TRAPV 0 the context stops, with the
FCODE that entry would have recorded (11 R295). DEDUCED (log 49). -/
def State.settle (s : State) (core gid : Nat) : State :=
  match s.group? core gid with
  | none => s
  | some g =>
    match g.firstFault with
    | none => s
    | some p =>
      if g.trapv == 0 then
        let slot := lowSlot (faultMask p.faults)
        let code := ((p.faults.find? (·.slot == slot)).map (·.code)).getD .trap
        (s.setGroup core gid (g.recordFault p)).stopCtx g.ctx code 0 p.pc (stopLoc core gid slot)
      else s

/-! ## Retirement (02 R49, 08 R230, R239) -/

/-- Whether an accepted MMA that names a quartet has not consumed B (08 R241). -/
def Core.quartetBusy (k : Core) (q : Word) : Bool :=
  k.ops.any fun o => o.op == .mma && o.live && o.bcols.isNone && quartetOf o.params == q

/-- The registers of the bound group of a slot that an MMA has still to read: those of the columns of its quadrant,
if the MMA has as many (08 R240, R241). DEDUCED (log 61). -/
def Core.bHeld (k : Core) (gid : Nat) (g : Group) (n : Nat) : Bool :=
  match g.quartet with
  | none => false
  | some q => decide (32 ≤ n) && k.ops.any fun o =>
      o.op == .mma && o.live && o.bcols.isNone && quartetOf o.params == q && decide (n - 32 < mmaRegs o.params)
        && decide (32 * quadOf gid < dimN o.params)

/-- Whether the context has a block resident anywhere: one that holds a group slot. -/
def State.hasBlock (s : State) (ctx : Nat) : Bool :=
  s.cores.any fun (_, k) => k.blocks.any fun b => b.ctx == ctx && !b.retired

/-- The last resident block of a context has retired (11 R305). -/
def State.ctxDrained (s : State) (ctx : Nat) : State :=
  if s.hasBlock ctx then s
  else s.modCtx ctx fun x => match x.st with
    | .active => { x with st := .idle }
    | .draining => { x with st := .saving }
    | _ => x

/-- Whether a store or an atomic in flight goes to rows of a block's allocation. -/
def State.rowsBusy (s : State) (c : Nat) (b : Block) : Bool :=
  let hits (p : Place) : Bool := p.space == .scratch && p.core == c && b.rows.contains (p.pa.addr / 4096)
  s.cores.any fun (_, k) => k.stores.any (fun w => hits w.place) || k.atoms.any fun a => hits a.place

/-- Release the allocations of retired blocks, once nothing in flight goes to them (log 47): a cluster's
together (06 R162), which unfuses its L1s (06 R189). DEDUCED (log 47). -/
def State.releaseBlock (s : State) (c : Nat) (b : Block) : State :=
  match b.cluster with
  | none =>
    if s.rowsBusy c b then s
    else s.modCore c fun k => { k with blocks := k.blocks.filter fun x => x.id != b.id }
  | some j =>
    let mine (x : Block) : Bool := x.launch == b.launch && x.cluster == some j
    let cs := (List.range 4).map fun i => c / 4 * 4 + i
    if cs.all fun c' => (s.core c').blocks.all fun x => !mine x || (x.retired && !s.rowsBusy c' x) then
      let s1 := cs.foldl (fun s c' => s.modCore c' fun k => { k with blocks := k.blocks.filter fun x => !mine x }) s
      if b.fused then s1.unfuse c else s1
    else s

/-- A block retires once all of its threads have exited and its groups have retired (02 R49); the number of the
latest retirement orders the completion signals of a queue (09 R260). -/
def State.tryRetireBlock (s : State) (c bid : Nat) : State :=
  match (s.core c).block? bid with
  | none => s
  | some b =>
    if b.retired || b.exited < b.bsize || (s.core c).groups.any (fun (_, g) => g.blk == bid) then s
    else
      let s1 := s.modCore c fun k => k.modBlock bid fun b => { b with retired := true }
      let (n, s2) := s1.fresh
      let s3 := s2.modLaunch b.launch fun l => { l with retired := l.retired + 1, ended := some n }
      (s3.releaseBlock c b).ctxDrained b.ctx

/-- Unbind every member of a quartet on a core (08 R239). -/
def Core.unbind (k : Core) (q : Word) : Core :=
  { k with groups := k.groups.map fun (n, g) => (n, if g.quartet == some q then { g with quartet := none } else g) }

/-- Stop a context for a held-back fault of an engine operation, which is thereby raised on a set of
threads: FPC, FINFO and FADDR name the operation's instruction and address (08 R250). -/
def State.stopAsync (s : State) (core gid : Nat) (g : Group) (m : Mask) (f : AFault) : State :=
  let pf : PassFault := ⟨0, f.pc, BitVec.ofNat 32 (f.opcode.toNat * 256), (slotsOf m).map fun i => ⟨i, .asyncFault, f.addr⟩⟩
  ((s.stepFault core gid m).modGroup core gid fun g =>
      { (if g.handler then g else g.recordFault pf) with asyncFaults := g.asyncFaults.erase f }).stopCtx g.ctx
    (if g.handler then .doubleFault else .asyncFault) (if g.handler then 0 else f.sub) f.pc (stopLoc core gid (lowSlot m))

/-- Whether a group's registers are in its bank, be it chosen for eviction (10 R280). -/
def Group.holdsState (g : Group) : Bool := g.residency == .resident || g.residency == .spilling

/-- A group retires when none of its threads is active and its counters are zero, and a bound one once B
has been consumed; a held-back engine fault is raised instead (02 R49, 08 R230, R250). What its threads
have in flight goes on under a number that no group slot has; one chosen for eviction retires too, and leaves its
bank. DEDUCED (log 47). -/
def State.tryRetire (s : State) (c gid : Nat) : State :=
  match s.group? c gid with
  | none => s
  | some g =>
    if g.active != 0 || !g.countersZero || g.region.isSome || g.clause.isSome || !g.holdsState
        || (match g.wait with | .joining .. => true | _ => false)
        || (match g.quartet with | some q => (s.core c).quartetBusy q | none => false) then s
    else
      match g.asyncFaults with
      | f :: _ => s.stopAsync c gid g 0 f
      | [] =>
        let (n, s0) := s.fresh
        let s1 := s0.modCore c fun k =>
          let k := ({ k with groups := alDel gid k.groups, spills := k.spills.filter (·.gid != gid) } : Core).rekey gid fun m => [(128 + n, m)]
          match g.quartet with
          | some q => k.unbind q
          | none => k
        s1.tryRetireBlock c g.blk

/-! ## The block barrier (14 R367) -/

/-- Whether a group waits for the end of a barrier that it has met. -/
def Group.ending (g : Group) : Bool :=
  match g.wait, g.savedWait with
  | .barEnd _, _ | _, .barEnd _ => true
  | _, _ => false

/-- The threads of a group that arrived at a barrier that has completed. -/
def Group.endMask (g : Group) : Mask :=
  match g.wait, g.savedWait with
  | .barEnd m, _ | _, .barEnd m => m
  | _, _ => 0

/-- Whether an access before a barrier that has completed, of threads that arrived at it, has still to happen
(07 R215). -/
def Core.barPending (k : Core) (bid : Nat) : Bool :=
  k.groups.any fun (n, g) => g.blk == bid && g.endMask != 0
    && (k.stores.any (fun w => w.of n g.endMask) || k.atoms.any (fun a => a.of n g.endMask)
      || k.fences.any (fun x => x.bg && x.of n g.endMask)
      || k.loads.any fun l => l.gid == n && (l.mask &&& g.endMask) != 0 && l.data.isNone)

/-- Another wait in place of a group's wait at a barrier and of the one it keeps while in its handler. -/
def Group.mapWait (g : Group) (f : GWait → GWait) : Group := { g with wait := f g.wait, savedWait := f g.savedWait }

/-- The end of a barrier's instance: its waiting groups wait only for what they did before it (14 R367, 07 R215). -/
def GWait.barDone : GWait → GWait
  | .bar m _ => .barEnd m
  | w => w

/-- The end of that wait. -/
def GWait.barFree : GWait → GWait
  | .barEnd _ => .none
  | w => w

/-- The groups of a block whose barrier has completed are ready once what they did before it has happened; the
engines of the core see their scratchpad stores from then on (07 R215, R216). -/
def State.releaseBar (s : State) (c bid : Nat) : State :=
  let k := s.core c
  if k.barPending bid || k.groups.all fun (_, g) => g.blk != bid || !g.ending then s
  else s.modCore c fun k => { k with
    scrOld := k.scrOld.filter fun o => !k.groups.any fun (n, g) => g.blk == bid && n == o.gid && (o.mask &&& g.endMask) != 0
    groups := k.groups.map fun (n, g) => (n, if g.blk == bid then g.mapWait GWait.barFree else g) }

/-- Complete the open barrier instance of a block if its target is met, in the pass that meets it (14 R367). -/
def State.checkBarrier (s : State) (c bid : Nat) : State :=
  match (s.core c).block? bid with
  | none => s
  | some b =>
    let done := if b.barTarget == 0 then decide (b.bsize ≤ b.barArrived + b.exited)
      else decide (b.barTarget.toNat ≤ b.barArrived)
    if b.barArrived = 0 || !done then s
    else
      (s.modCore c fun k =>
        { k.modBlock bid (fun b => { b with barGen := b.barGen + 1, barTarget := 0, barArrived := 0 }) with
          groups := k.groups.map fun (n, g) => (n, if g.blk == bid then g.mapWait GWait.barDone else g) }).releaseBar c bid

/-- What accesses in flight of a core held back is tried again: its barriers, and the allocations of its
cluster's retired blocks. -/
def State.sweep (s : State) (c : Nat) : State :=
  let s1 := (s.core c).blocks.foldl (fun s b => s.releaseBar c b.id) s
  ((List.range 4).foldl (fun s i =>
    ((s.core (c / 4 * 4 + i)).blocks.filter (·.retired)).foldl (fun s b => s.releaseBlock (c / 4 * 4 + i) b) s) s1).unfuse c

/-- Threads of a group have exited: the block counts them and tests its barrier again. -/
def State.countExits (s : State) (c bid n : Nat) : State :=
  (s.modCore c fun k => k.modBlock bid fun b => { b with exited := b.exited + n }).checkBarrier c bid

/-! ## The commit point of a region (07 R222, 10 R287) -/

/-- One entry of a region buffer becomes the thread's own store, whose request marks its home, and strikes the context
with DIE_LOST when that is lost (01 R34, R35), or release; a release that has something
to wait for is made later, and what follows it waits behind it (07 R222). DEDUCED (log 42). -/
def State.commitEntry (s : State) (c gid : Nat) (g : Group) (fused : Bool) : BufEntry → State
  | .store rel strm pc parts =>
    let s1 := parts.foldl (fun s (_, pa, _) => s.touch g.ctx (s.homeDie pa)) s
    if (s.group? c gid).isNone then s
    else if parts.any fun (_, pa, _) => s.dieLost (s.homeDie pa) then s1.loseCtx g.ctx
    else s1.issueStores c g.ctx g.launch gid pc rel strm
      (parts.map fun (m, pa, bs) => (m, ⟨.global, c, pa, bs.length⟩, bs)) true
  | .fence scope m =>
    if (s.group? c gid).isNone then s
    else if s.fenceIdle c gid m 2 (scopeActs fused scope) then s.fenceAct c gid m s.nextId 2 scope fused
    else
      let needs := (s.core c).fenceNeeds gid m 2
      let (id, s0) := s.fresh
      let s1 := s0.noteFence c gid m id 2 scope
      s1.modCore c fun k => { k with fences := k.fences ++
        [{ id, gid, ctx := g.ctx, launch := g.launch, mask := m, kind := 2, scope, loads := needs.1, atoms := needs.2.1, rels := needs.2.2,
           bg := true }] }

/-- The commit point: the buffer becomes stores and releases, deferred exits retire their threads,
parked threads become eligible. DEDUCED (log 42). -/
def State.commitRegion (s : State) (c gid : Nat) : State :=
  match s.group? c gid with
  | none => s
  | some g =>
    match g.region with
    | none => s
    | some r =>
      let s1 := s.setGroup c gid { g with region := none, restart := false }
      let fused := (s.blockOf c g).fused
      let s2 := r.buffer.foldl (fun s e => s.commitEntry c gid g fused e) s1
      s2.countExits c g.blk (slotCount r.exits)

/-! ## Region restart (10 R288) -/

/-- Restart a group's region: the buffer is dropped, its operations and loads in the region end, its
members return to RGPC, its launch counts the restart, unless it has restarted already; `drop` also drops token loads, with the errors that
those of this run have recorded, and fences, as an eviction does (10 R280). -/
def State.restartGroup (s : State) (c gid : Nat) (drop : Bool) : State :=
  match s.group? c gid with
  | none => s
  | some g =>
    if g.region.isNone then s
    else
      let s1 := if g.restart then s else (s.cancelOps c gid).dropClause c gid
      let s2 := if g.restart then s else s1.modGroup c gid fun g => (if g.handler then g.dropTrap else g).restartRegion
      let s3 := if drop then s2.modCore c fun k =>
          { k with loads := k.loads.filter fun l => l.gid != gid, fences := k.fences.filter fun f => f.gid != gid || f.bg }
        else s2
      let s4 := if drop then s3.modGroup c gid fun g =>
          { g with tokens := List.replicate 6 0
                   threads := g.threads.map fun t =>
                     { t with tokErr := t.tokErr.filter fun e => decide (e.id < (g.region.map (·.began)).getD 0) } }
        else s3
      if g.restart then s4 else s4.modLaunch g.launch fun l => { l with nrest := l.nrest + 1 }

end Sys2Proof.Machine
end

