-- ==== Sys2Proof/Machine/Lane.lean ====
section
/-! DEFINITION. A pass on a lane (02 R56 to R62, R71 to R77; 04 R125; 11 R294): reading operands,
faults, commit, the bypass latch, and what ends or breaks a clause. -/

namespace Sys2Proof.Machine

/-! ## What a pass leaves -/

/-- Words of an instruction with its literals (04 R104). -/
def lenOf (i : Instr) : Nat := (encode i).length

/-- The first word of an instruction. -/
def headOf (i : Instr) : Nat := ((encode i).headD 0).toNat

/-- FINFO of a fault of an instruction word (04 R125): for an opcode that has no format, with the D field of format M
from 0x80 to 0x9F, of MA from 0xA0 to 0xA3, of R elsewhere. DESIGN CHOICE (log 144). -/
def finfoWord (w : Nat) : Word :=
  let op := fld w 24 8
  let d := match fmtOf op with
    | .r => if op == 0x40 || op == 0x41 then 0 else fld w 15 7
    | .m => fld w 13 7
    | .ma => fld w 11 7
    | .b => 0
  BitVec.ofNat 32 (op * 256 + d)

/-- Whether an instruction word has a 64-bit result. -/
def wideWord (w : Nat) : Bool :=
  match fld w 24 8 with
  | 0x04 | 0x60 | 0x66 => xBit w
  | 0x61 => sr64 (fld w 1 7)
  | 0x83 | 0x84 | 0x93 | 0x94 => true
  | 0xA0 | 0xA1 => bitAt w 18
  | _ => false

/-- What a late entrant reads of an instruction word's result: its destination in the register
file, zero for none. `res` holds the latches before it. -/
def Group.lateOf (g : Group) (res : List BRes) (w : Nat) : Late :=
  let op := fld w 24 8
  let reg (d : Nat) : Late := if d < 64 then .reg (BitVec.ofNat 6 d) else .zero
  let pred : Late := .pred (BitVec.ofNat 3 (fld w 15 3))
  if op == 0x40 || op == 0x41 || op == 0x42 || op == 0x44 || op == 0xE1 || op == 0xE4 || (op == 0x55 && bitAt w 3) then pred
  else if op == 0x64 then
    let a := fld w 8 7
    if a < 64 then .idx (g.reg a).shape
    else .idx (g.lateShape ((res.getD (a - 0x40) {}).late)).1
  else if (0x80 ≤ op && op ≤ 0x87) || (0x90 ≤ op && op ≤ 0x95) then reg (fld w 13 7)
  else if op == 0xA0 || op == 0xA1 then reg (fld w 11 7)
  else if nwBit w then .zero
  else if (op < 0x70 && op != 0x62) || op == 0xAA || op == 0xF4 then reg (fld w 15 7)
  else .zero

/-- The latch of an instruction that leaves no result in it, or that no thread of its pass has executed:
it reads 0, and a late entrant reads its destination (02 R61, 03 R86). -/
def Group.noLatch (g : Group) (res : List BRes) (w : Nat) (ok : Mask) : BRes :=
  let l := g.lateOf res w
  { exec := ok, late := l, wide := l == .zero || wideWord w }

/-- The address of the word after an instruction at the clause's position. -/
def Clause.after (cl : Clause) (len : Nat) : DWord := cl.pc + BitVec.ofNat 64 (4 * len)

/-- End a clause after position COUNT, leaving the group with a wait: RE is the commit point of the
region, YLD ranks the group last (04 R112, 09 R269), pending faults are settled and an emptied group
retires. -/
def State.finishClause (s : State) (c gid : Nat) (w : GWait) : State :=
  match s.group? c gid with
  | none => s
  | some g =>
    match g.clause with
    | none => s
    | some cl =>
      let s1 := s.dropClause c gid
      let s2 := if cl.re then s1.commitRegion c gid else s1
      let s3 := s2.modGroup c gid fun g => { g with ylast := cl.yld, wait := w }
      (s3.settle c gid).tryRetire c gid

def State.endClause (s : State) (c gid : Nat) : State := s.finishClause c gid .none

/-- The clause ends before its last position: the lane is free and the group waits. DEDUCED (log 51). -/
def State.leaveClause (s : State) (c gid : Nat) (w : GWait) : State :=
  ((s.dropClause c gid).modGroup c gid fun g => { g with wait := w }).settle c gid

/-- Break the clause: the break is counted, the lane is free and the group waits (02 R62, 13 R342). -/
def State.breakClause (s : State) (c gid : Nat) (w : GWait) : State :=
  (match s.group? c gid with | some g => s.countCore c 7 1 (s.carries g.ctx) | none => s).leaveClause c gid w

/-- A group after a pass at a clause's position: the threads of `ok` go on, those of `fm` faulted, the
clause stands at its next position. -/
def Group.passed (g : Group) (cl : Clause) (len : Nat) (ok fm : Mask) (latch : BRes) (target : Nat → DWord) : Group :=
  { (g.modThs ok fun i t => t.goOn (target i)).modThs fm fun _ t => t.stay with
    walkHits := [], walkFaults := []
    clause := some { cl with pos := cl.pos + 1, pc := cl.after len, res := (latch :: cl.res).take 4 } }

/-- A pass is over: committed threads take their next address, the latch joins the clause and the
faults strike. -/
def State.passStep (s : State) (c gid : Nat) (len : Nat) (finfo : Word) (ok : Mask) (faults : List ThFault)
    (latch : BRes) (target : Nat → DWord) : State :=
  match s.group? c gid with
  | none => s
  | some g =>
    match g.clause with
    | none => s
    | some cl =>
      let fm := faultMask faults
      let s1 := (s.setGroup c gid (g.passed cl len ok fm latch target)).traceAll c gid (g.steppedIn (ok ||| fm)) 2 0
      s1.raise c gid ⟨cl.pos, cl.pc, finfo, faults⟩

/-- Whether a group's clause has passed position COUNT. -/
def State.clauseOver (s : State) (c gid : Nat) : Bool :=
  match (s.group? c gid).bind (·.clause) with
  | some cl => decide (cl.count < cl.pos)
  | none => false

/-- The end of a pass: after position COUNT the clause ends. -/
def State.passEnd (s : State) (c gid : Nat) (len : Nat) (finfo : Word) (ok : Mask) (faults : List ThFault)
    (latch : BRes) (target : Nat → DWord) : State :=
  let s1 := s.passStep c gid len finfo ok faults latch target
  if s1.clauseOver c gid then s1.endClause c gid else s1

/-- The end of a pass whose threads have gone on and at which the clause ends: at position COUNT as any clause,
before it by `early`. DEDUCED (log 51). -/
def State.passLast (s : State) (c gid : Nat) (len : Nat) (finfo : Word) (ok : Mask) (faults : List ThFault)
    (target : Nat → DWord) (w : GWait) (early : State → State) : State :=
  let s1 := s.passStep c gid len finfo ok faults {} target
  match (s1.group? c gid).bind (·.clause) with
  | none => s1
  | some _ => if s1.clauseOver c gid then s1.finishClause c gid w else early s1

/-- The end of a pass whose threads have gone on and at which the clause breaks (02 R62). DEDUCED (log 51). -/
def State.passBreak (s : State) (c gid : Nat) (len : Nat) (finfo : Word) (ok : Mask) (faults : List ThFault)
    (target : Nat → DWord) (w : GWait) : State :=
  s.passLast c gid len finfo ok faults target w fun s1 => s1.breakClause c gid w

/-! ## Instructions with operands -/

/-- Where a result goes: nowhere, to a V register, pair, ZERO or channel, or to a predicate. -/
inductive LDst where
  | none
  | v (d : Dst) (wide : Bool)
  | pred (p : BitVec 3)
  deriving DecidableEq, Repr

/-- The form of a lane instruction: itself, U, NW, destination, sources with whether each is a
pair, predicates read, and the rules that bind it: all-or-none (02 R72), sources read under R91
whatever U is, uncorrectable words left to the instruction (17 R435), not inside a region (10 R286), what a late
entrant reads and registers written when they depend on the operands (16 R410). -/
structure LOp where
  i : Instr
  u : Bool := false
  nw : Bool := false
  dst : LDst := .none
  srcs : List (Src × Bool) := []
  preds : List (BitVec 3) := []
  all : Bool := false
  forceUni : Bool := false
  lazyUe : Bool := false
  noRegion : Bool := false
  lateAs : Option (Pass → List SVal → Late) := none
  dynRegs : Pass → List SVal → Mask → List Nat := fun _ _ _ => []

/-- A thread's result: its value, the FP exceptions, the events of its Tephra site, its fault. -/
structure TR where
  w : DWord := 0
  ex : Nat := 0
  tc : TCount := {}
  fault : Option (FCode × DWord) := none

def TR.ofWord (w : Word) : TR := { w := w.setWidth 64 }
def TR.ofNat (n : Nat) : TR := { w := BitVec.ofNat 64 n }
def TR.bad (f : FCode) (a : DWord := 0) : TR := { fault := some (f, a) }

def LOp.chanSrcs (o : LOp) : List Nat := o.srcs.filterMap fun (a, _) => a.chan

def LOp.chanDst (o : LOp) : Option Nat :=
  match o.dst with
  | .v d _ => d.chan
  | _ => none

def LOp.hasChan (o : LOp) : Bool := !o.chanSrcs.isEmpty || o.chanDst.isSome

/-- Words popped from each channel and pushed (02 R75). -/
def LOp.pops (o : LOp) (ex : Mask) : List (Nat × Nat) := o.chanSrcs.map fun q => (q, chanWords o.u ex)
def LOp.pushes (o : LOp) (ex : Mask) : List (Nat × Nat) :=
  match o.chanDst with
  | some q => if o.nw then [] else [(q, chanWords o.u ex)]
  | none => []

/-- The sources as the pass reads them; one channel named twice pops twice, A first (02 R75). -/
def State.readSrcs (s : State) (p : Pass) (o : LOp) : List SVal :=
  let b := s.blockOf p.core p.g
  (o.srcs.foldl (fun (vs, taken) (a, pair) =>
    match a.chan with
    | some q =>
      let n := (alGet q taken).getD 0
      (vs ++ [s.popCol p.core b q o.u p.ex n], alSet q (n + chanWords o.u p.ex) taken)
    | none => (vs ++ [p.src a pair], taken)) (([] : List SVal), ([] : List (Nat × Nat)))).1

/-- Whether every source and predicate meets 03 R91. -/
def LOp.uniOk (o : LOp) (p : Pass) (vs : List SVal) : Bool :=
  (vs.zip o.srcs).all (fun (v, (_, pair)) => v.isUni pair) && o.preds.all fun q => p.g.predUni q.toNat

/-- One fault for every thread of a set. -/
def faultsOf (m : Mask) (f : FCode) (a : DWord) : List ThFault := (slotsOf m).map fun i => ⟨i, f, a⟩

/-- What a late entrant reads of a destination (02 R61). DEDUCED (log 7). -/
def LOp.late (o : LOp) : Late :=
  match o.dst with
  | .v (.v n) _ => if o.nw then .zero else .reg n
  | .pred q => .pred q
  | _ => .zero

/-- Registers an instruction writes (08 R241). -/
def LOp.regs (o : LOp) : List Nat :=
  match o.dst with
  | .v (.v n) wide => if o.nw then [] else if wide then [n.toNat, n.toNat + 1] else [n.toNat]
  | _ => []

/-- The column of the results of a set of threads. -/
def resShape (rs : List (Nat × TR)) (hi : Bool) : Shape :=
  column fun i => match rs.find? (·.1 == i) with
    | some (_, r) => if hi then r.w.extractLsb' 32 32 else r.w.setWidth 32
    | none => 0

/-- Write the destination of a pass (03 R92, R93; 02 R75). -/
def State.writeDst (s : State) (p : Pass) (o : LOp) (ok : Mask) (full : Bool) (lo hi : Shape)
    (sp : Option (Shape × Shape)) : State :=
  match o.dst with
  | .none => s
  | .v (.v n) wide =>
    if o.nw then s
    else s.modGroup p.core p.gid fun g =>
      let g1 := g.setReg n.toNat ((g.reg n.toNat).write o.u full ok (sp.map (·.1)) lo.val)
      if wide then g1.setReg (n.toNat + 1) ((g1.reg (n.toNat + 1)).write o.u full ok (sp.map (·.2)) hi.val) else g1
  | .v .zero _ => s
  | .v (.q q) _ =>
    if o.nw then s
    else if o.u then s.push1 p.core p.g.blk q.toNat (lo.val 0)
    else (slotsOf ok).foldl (fun s i => s.push1 p.core p.g.blk q.toNat (lo.val i)) s
  | .pred q =>
    s.modGroup p.core p.gid fun g => g.setPred q.toNat o.u ok (maskWhere fun i => lo.val i != 0)

/-- The front of a pass of a format R instruction: R91, uncorrectable source words, the region rule,
channels (11 R294, 02 R77) and registers an MMA has still to read (08 R241: the lane is held). `k`
takes the sources and the threads whose source words are uncorrectable. -/
def State.laneFront (s : State) (o : LOp) (k : Pass → List SVal → Mask → State) : State :=
  match s.pass? with
  | none => s
  | some p =>
    let stop (fs : List ThFault) : State :=
      s.passEnd p.core p.gid (lenOf o.i) (finfoWord (headOf o.i)) 0 fs (p.g.noLatch p.cl.res (headOf o.i) 0)
        fun _ => p.cl.after (lenOf o.i)
    let vs := s.readSrcs p o
    if p.ex == 0 then stop []
    else if (o.u || o.forceUni) && !o.uniOk p vs || o.forceUni && !o.u && !o.chanSrcs.isEmpty then
      stop (faultsOf p.ex .uniformOperand 0)
    else
      let ue := if o.lazyUe then 0 else p.ex &&& vs.foldl (fun m v => m ||| v.ue) 0
      let ue := if (o.u || o.forceUni) && ue != 0 then p.ex else ue
      let chans := o.chanSrcs ++ o.chanDst.toList
      let b := s.blockOf p.core p.g
      let rest := p.ex &&& ~~~ue
      if (o.hasChan || o.noRegion) && p.g.region.isSome then
        stop (faultsOf ue .memUe 0 ++ faultsOf rest .atomicInRegion 0)
      else if chans.any fun q => !(b.chans.getD q {}).valid then
        stop (faultsOf ue .memUe 0 ++ faultsOf rest .queueCfg 0)
      else if o.hasChan && !b.chansReady (o.pops p.ex) (o.pushes p.ex) then
        s.breakClause p.core p.gid (.channel (o.pops p.ex) (o.pushes p.ex))
      else if (o.regs ++ o.dynRegs p vs rest).any fun n => (s.core p.core).bHeld p.gid p.g n then s
      else k p vs ue

/-- The pops of an instruction that commits (02 R75). -/
def State.popAll (s : State) (p : Pass) (o : LOp) : State :=
  (o.pops p.ex).foldl (fun s (q, n) => s.popN p.core p.g.blk q n) s

/-- The results of a set of threads; a uniform-encoded instruction computes one (02 R58). -/
def laneResults (o : LOp) (p : Pass) (vs : List SVal) (f : Pass → List SVal → Nat → TR) (m : Mask) : List (Nat × TR) :=
  (slotsOf m).map fun i => (i, f p vs (if o.u then lowSlot p.ex else i))

/-- The fault of a result: the instruction's own, else an enabled FP exception (05 R153). -/
def TR.judge (p : Pass) (r : TR) : Option (FCode × DWord) :=
  match r.fault with
  | some x => some x
  | none => if p.g.fpeOf r.ex then some (.fpe, BitVec.ofNat 64 r.ex) else none

/-- The faults of a list of results. -/
def laneFaults (p : Pass) (rs : List (Nat × TR)) : List ThFault :=
  rs.filterMap fun (i, r) => (r.judge p).map fun (c, a) => ⟨i, c, a⟩

/-- Whether a result has 64 bits. -/
def LDst.wide : LDst → Bool
  | .v _ w => w
  | _ => false

/-- The result of a pass as columns: low words, high words, and the row of 03 R92 that applies.
DEDUCED (log 14). -/
structure Cols where
  lo : Shape
  hi : Shape
  sp : Option (Shape × Shape)

/-- The columns of the committed results. DEDUCED (log 14). -/
def laneCols (o : LOp) (p : Pass) (vs : List SVal) (f : Pass → List SVal → Nat → TR)
    (sp : Pass → List SVal → Option (Shape × Shape)) (full : Bool) (good : List (Nat × TR)) : Cols :=
  let one := f p vs (lowSlot p.ex)
  if o.u then ⟨.uniform (one.w.setWidth 32), if o.dst.wide then .uniform (one.w.extractLsb' 32 32) else .uniform 0, none⟩
  else match if full then sp p vs else none with
    | some (a, b) => ⟨a, if o.dst.wide then b else .uniform 0, some (a, b)⟩
    | none => ⟨resShape good false, if o.dst.wide then resShape good true else .uniform 0, none⟩

/-- The effects of the threads that commit: pops, the destination, FSR, and the instruction's own. -/
def State.laneEffect (s : State) (o : LOp) (p : Pass) (ok : Mask) (full : Bool) (good : List (Nat × TR)) (c : Cols)
    (post : Pass → List (Nat × TR) → State → State) : State :=
  post p good (((s.popAll p o).writeDst p o ok full c.lo c.hi c.sp).modGroup p.core p.gid fun g =>
    good.foldl (fun g (_, r) => g.orFsr r.ex) g)

/-- The latch of a pass (03 R86). DEDUCED (log 14). -/
def laneLatch (o : LOp) (p : Pass) (vs : List SVal) (ok : Mask) (c : Cols) : BRes :=
  match o.dst with
  | .none => p.g.noLatch p.cl.res (headOf o.i) ok
  | _ => { lo := c.lo, hi := c.hi, exec := ok, late := (o.lateAs.map fun l => l p vs).getD o.late, wide := o.dst.wide }

/-- Execute the focused pass of an instruction. `f` gives a thread's result; `sp` the row of 03 R92
that keeps a shape, if one applies to the operands; `post` the further effects on the committed
threads. -/
def State.laneOp (s : State) (o : LOp) (f : Pass → List SVal → Nat → TR)
    (sp : Pass → List SVal → Option (Shape × Shape) := fun _ _ => none)
    (post : Pass → List (Nat × TR) → State → State := fun _ _ s => s) : State :=
  s.laneFront o fun p vs ue =>
    let rest := p.ex &&& ~~~ue
    let rs := laneResults o p vs f rest
    let fs := laneFaults p rs
    let faults := faultsOf ue .memUe 0 ++ fs
    let ok := if (o.all || o.hasChan) && !faults.isEmpty then 0 else rest &&& ~~~faultMask fs
    let good := rs.filter fun (i, _) => ok.getLsbD i
    let full := ok == p.g.active && faults.isEmpty
    let cols := laneCols o p vs f sp full good
    let s1 := if ok == 0 then s else s.laneEffect o p ok full good cols post
    s1.passEnd p.core p.gid (lenOf o.i) (finfoWord (headOf o.i)) ok faults (laneLatch o p vs ok cols) fun _ => p.cl.after (lenOf o.i)

/-- The destination as a source, for instructions that read their addend from D (04 R116). -/
def dstSrc : Dst → Src
  | .v n => .v n
  | .zero => .zero
  | .q n => .q n

def sv (vs : List SVal) (n : Nat) : SVal := vs.getD n (.ofShape (.uniform 0))

/-- A two-source instruction. -/
def op3 (i : Instr) (r : R3) : LOp :=
  { i, u := r.u, nw := r.nw, dst := .v r.d false, srcs := [(r.a, false), (r.b, false)] }

/-- A three-source instruction: D is the third source. -/
def op3d (i : Instr) (r : R3) : LOp :=
  { i, u := r.u, nw := r.nw, dst := .v r.d false, srcs := [(r.a, false), (r.b, false), (dstSrc r.d, false)] }

/-- A one-source instruction. -/
def op2 (i : Instr) (r : R2) : LOp := { i, u := r.u, nw := r.nw, dst := .v r.d false, srcs := [(r.a, false)] }

/-- Per-thread word functions. -/
def w1 (f : Word → Word) : Pass → List SVal → Nat → TR := fun _ vs t => .ofWord (f ((sv vs 0).w t))
def w2 (f : Word → Word → Word) : Pass → List SVal → Nat → TR :=
  fun _ vs t => .ofWord (f ((sv vs 0).w t) ((sv vs 1).w t))
def w3 (f : Word → Word → Word → Word) : Pass → List SVal → Nat → TR :=
  fun _ vs t => .ofWord (f ((sv vs 0).w t) ((sv vs 1).w t) ((sv vs 2).w t))

/-- Add to the counts of a Tephra site (13 R347), saturating. -/
def State.tally (s : State) (launch : Nat) (pc : DWord) (opcode exec : Nat) (t : TCount) : State :=
  let cap (n : Nat) : Nat := min n 0xFFFFFFFF
  s.modLaunch launch fun l =>
    let l1 := if l.sites.any (·.pc == pc) then l.sites else l.sites ++ [{ pc, opcode := BitVec.ofNat 8 opcode }]
    { l with sites := l1.map fun x =>
        if x.pc == pc then
          { x with exec := cap (x.exec + exec), nan := cap (x.nan + t.nan), inf := cap (x.inf + t.inf),
                   sat := cap (x.sat + t.sat), uf := cap (x.uf + t.uf) }
        else x }

/-- The census of a lane instruction: its committed executions and the events of their results. -/
def tallyPost (i : Instr) (u : Bool) : Pass → List (Nat × TR) → State → State := fun p rs s =>
  let one := if u then rs.take 1 else rs
  s.tally p.g.launch p.cl.pc (headOf i / 2 ^ 24) one.length (one.foldl (fun t (_, r) => t.add r.tc) {})

end Sys2Proof.Machine
end

