-- ==== Sys2Proof/Machine/Fetch.lean ====
section
/-! DEFINITION. Fetching code (04 R104 to R115, R124, R125): the words of a clause, the owning
header of a resume address, the checks of a pass before its instruction executes, breakpoints and
the cut of an H clause. -/

namespace Sys2Proof.Machine

/-! ## Words of code -/

/-- Where the code at an address of a clause lies. DEDUCED (log 62). -/
def Clause.codePa (cl : Clause) (a : DWord) : PA := ⟨cl.pa.1, cl.pa.2 + (a - cl.hdr).toNat⟩

/-- The first byte of the code line that holds an address. -/
def linePa (p : PA) : PA := { p with addr := p.addr / 256 * 256 }

/-- The values that a code word has had since a launch was taken, where they differ from its value now. -/
def State.codeOlds (s : State) (launch : Nat) (p : PA) : List Nat :=
  (((s.oldWords.filter fun o => o.pa == p && decide (launch < o.at_)).map (·.val)).filter
    fun w => w != leNat (s.homeBytes p 4)).eraseDups

/-- The code word at a physical address, or none when it is uncorrectable: after a write, an old word or
the new one (04 R115, log 4). DEDUCED (log 62). -/
def State.codeWord (s : State) (launch : Nat) (p : PA) : Option Nat :=
  if s.ueBytes p 4 then none
  else
    let new := leNat (s.homeBytes p 4)
    let olds := s.codeOlds launch p
    some ((new :: olds).getD (Config.freeIdx (s.free + p.addr % 256 / 4) (olds.length + 1)) new)

/-- A fetch of words of a line by a launch took free choices among old and new words. -/
def State.codeStep (s : State) (launch : Nat) (p : PA) : State :=
  if s.oldWords.any fun o => linePa o.pa == linePa p && decide (launch < o.at_) then { s with free := s.free + 64 } else s

/-- A launch has fetched a code line, through the L2 (06 R191). -/
def State.codeSeen (s : State) (launch : Nat) (ctx : Nat) (p : PA) : State :=
  (s.modLaunch launch fun l => if l.code.contains (linePa p) then l else { l with code := linePa p :: l.code }).l2Read
    (s.workOf ctx) (linePa p) 256

/-- Whether the power controller holds back the fetch of a code line that the launch has not fetched before
(10 R292). DESIGN CHOICE (log 102). -/
def State.codeStopped (s : State) (g : Group) (p : PA) : Bool :=
  s.hbmHolds (s.clsOf g.ctx) (linePa p) 256 && !(match s.launch? g.launch with | some l => l.code.contains (linePa p) | none => false)

/-- The literal words after an instruction word, or the byte offset of an uncorrectable one. -/
def State.codeLits (s : State) (launch : Nat) (p : PA) : Nat → List Word ⊕ PA
  | 0 => .inl []
  | n + 1 =>
    match s.codeWord launch p with
    | none => .inr p
    | some w => match s.codeLits launch { p with addr := p.addr + 4 } n with
      | .inl ls => .inl (BitVec.ofNat 32 w :: ls)
      | .inr q => .inr q

/-! ## Headers (04 R109, R110) -/

def hdrMark (w : Nat) : Bool := fld w 28 4 == 12
def hdrCount (w : Nat) : Nat := fld w 0 4
def hdrClass (w : Nat) : Nat := fld w 4 2
def hdrWtok (w i : Nat) : Bool := bitAt w (6 + i)
def hdrLand (w : Nat) : Bool := bitAt w 12
def hdrRB (w : Nat) : Bool := bitAt w 13
def hdrRE (w : Nat) : Bool := bitAt w 14
def hdrYld (w : Nat) : Bool := bitAt w 15

/-- A header whose fields are legal, its length aside. -/
def hdrOk (w : Nat) : Bool := hdrMark w && fld w 16 12 == 0 && hdrCount w != 0

/-- What the forward decode of a code line finds at a word of it (04 R113). -/
inductive Own where
  | bad (c : FCode)
  | ue (idx : Nat)
  | own (hdr w p next : Nat) (earlier : List (Nat × Nat))
  deriving DecidableEq, Repr

/-- Step over `n` instructions from word `i`: the word after them, or why the line has none. -/
def lineSkip (get : Nat → Option Nat) : Nat → Nat → Nat ⊕ Own
  | 0, i => if i ≤ 64 then .inl i else .inr (.bad .illegalClause)
  | n + 1, i =>
    if i ≥ 64 then .inr (.bad .illegalClause)
    else match get i with
      | none => .inr (.ue i)
      | some w => lineSkip get n (i + 1 + litCount w)

/-- Look for word `t` among `n` instructions from word `i` of the clause with header `h`: found at
its position, or the header position after them. -/
def lineFind (get : Nat → Option Nat) (t h hw : Nat) : Nat → Nat → List (Nat × Nat) → Nat ⊕ Own
  | 0, i, _ => .inl i
  | n + 1, i, pre =>
    if i = t then
      match lineSkip get (n + 1) i with
      | .inl e => .inr (.own h hw (hdrCount hw - n) e pre)
      | .inr o => .inr o
    else if t < i then .inr (.bad .misalignedPc)
    else match get i with
      | none => .inr (.ue i)
      | some w => lineFind get t h hw n (i + 1 + litCount w) ((i, w) :: pre)

/-- The owning header of word `t` of a code line, by forward decode from word `h`; `earlier` lists
the instructions before it, the nearest first. -/
def lineOwner (get : Nat → Option Nat) (t : Nat) : Nat → Nat → Own
  | 0, _ => .bad .illegalClause
  | fuel + 1, h =>
    if h = t then .bad .illegalClause
    else if t < h then .bad .misalignedPc
    else match get h with
      | none => .ue h
      | some w =>
        if !hdrOk w then .bad .illegalClause
        else match lineFind get t h w (hdrCount w) (h + 1) [] with
          | .inl e => lineOwner get t fuel e
          | .inr o => o

/-! ## Latches of positions passed before a resumed issue (02 R61, 03 R86) -/

/-- The latches of the instructions before a resumed position, the nearest first. DEDUCED (log 13). -/
def Group.lateLatches (g : Group) (earlier : List Nat) : List BRes :=
  (earlier.foldr (fun w res => g.noLatch res w 0 :: res) []).take 4

/-! ## The next pass of a clause -/

/-- What the next pass of a group's clause is: an instruction to execute, with the threads that a
cut leaves behind (09 R270), or a state reached without one. -/
inductive Prep where
  | run (i : Instr) (s : State) (left : Mask)
  | done (s : State)

/-- Instructions that commit for all of their threads or none (02 R72): the cross-thread ones and those that name a Q
operand, which the channel code of QTRY and QCFG is not (16 R422). DESIGN CHOICE (log 150). -/
def allOrNone (w : Nat) : Bool :=
  let op := fld w 24 8
  let q := fun c => decide (0x50 ≤ c) && decide (c < 0x60)
  (0x50 ≤ op && op ≤ 0x59) || (0x38 ≤ op && op ≤ 0x3A)
    || (assigned op && fmtOf op == .r && op != 0xE3 && op != 0xE4
      && (q (fld w 8 7) || (!isSubfn op && q (fld w 1 7)) || (!(op == 0x40 || op == 0x41) && q (fld w 15 7))))

/-- The slots whose next execution fires a breakpoint (13 R352). DEDUCED (log 100). -/
def State.bpHits (s : State) (g : Group) (pc : DWord) (ex : Mask) (all : Bool) : Mask :=
  match (s.ctx g.ctx).dbgVd with
  | none => 0
  | some v =>
    let d := s.vd v
    if d.dbgctx.toNat % 4096 = g.ctx && d.bps.contains (some pc) then
      let hit := maskWhere fun i => ex.getLsbD i && !(g.th i).noFire
      if all && hit != 0 then ex else hit
    else 0

/-- The decode faults of a pass, first to last (04 R124). -/
def decodeFault (cl : Clause) (w : Nat) (r : DRes) : Option FCode :=
  let op := fld w 24 8
  if 0xC0 ≤ op && op ≤ 0xCF then some .illegalClause
  else if assigned op && isTransfer op && cl.pos != cl.count then some .illegalClause
  else if assigned op && !isTransfer op && classOf op != some cl.cls then some .illegalClause
  else match r with
    | .error .opcode => some .illegalOpcode
    | .error .operand => some .illegalOperand
    | .ok _ => if byDepthOf w ≥ cl.pos then some .illegalOperand else none

/-- End a clause at a cut or a claim: its lane drains before it is free, and until then the cut group is not ready
(09 R270). DESIGN CHOICE (log 50). -/
def State.cutClause (s : State) (c gid : Nat) : State :=
  match s.group? c gid with
  | none => s
  | some g =>
    match g.clause with
    | none => s
    | some cl =>
      ((s.setGroup c gid { g with clause := none, wait := if cl.evict then g.wait else .drain cl.lane }.applyEdits).modCore c fun k =>
        { k with lanes := listMod k.lanes cl.lane fun _ => .draining !cl.evict }).settle c gid

/-- After a cut pass: the threads left behind are as before, and the clause has ended.
DESIGN CHOICE (log 50). -/
def State.afterCut (s : State) (c gid : Nat) (left : Mask) : State :=
  if left == 0 then
    match (s.group? c gid).bind (·.clause) with
    | some cl => if cl.cut then s.cutClause c gid else s
    | none => s
  else
    (s.modGroup c gid fun g => g.modThs left fun _ t => { t with held := false }).cutClause c gid

/-- The instructions whose pass is one for its executing set though they are not uniform-encoded: WAITC, BAR,
YLD, NAP, CMACK and RGNA (14 R368, R376; 16 R415, R433; 17 R454, R456). -/
def oncePerPass (w : Nat) : Bool := [0xA9, 0xE2, 0xE5, 0xE6, 0xF3, 0xF5].contains (fld w 24 8)

/-- The threads of a cut pass that stay on the instruction: all of an all-or-none pass, none of one that takes a
single turn for its executing set, else those after any one place of the pass (log 4). DESIGN CHOICE (log 50). -/
def State.cutLeft (s : State) (w : Nat) (ex : Mask) : Mask :=
  if allOrNone w then ex
  else if uBit w || oncePerPass w then 0
  else
    let k := Config.freeIdx s.free (slotCount ex + 1)
    ((slotsOf ex).drop k).foldl (fun m i => m ||| 1#32 <<< i) 0

/-- Lane cycles that an instruction takes for each executing thread: two for the Long kind, for the engine
operations that read a parameter block and for MOVSW of TRAPV (02 R57; 14 R359; 15 R392; 16 R406, R409). -/
def occupancy (w : Nat) : Nat :=
  let op := fld w 24 8
  if op == 0x03 || (0x28 ≤ op && op ≤ 0x2F) || op == 0xD1 || op == 0xD3 || ((op == 0x04 || op == 0x60) && bitAt w 0)
      || (op == 0x61 && sr64 (fld w 1 7)) || (op == 0x62 && fld w 1 7 == 0x24)
      || op == 0xB0 || op == 0xB1 || op == 0xB2 || op == 0xB5 || op == 0xB6 then 2 else 1

/-- Lane cycles of a pass with `k` executing threads (02 R57, R58). -/
def passCycles (w k : Nat) : Nat := if k = 0 then 1 else if uBit w || oncePerPass w then occupancy w else k * occupancy w

/-- A pass is counted, for its core and for the usage of its context (13 R342, 12 R324). -/
def State.countPass (s : State) (c ctx w k : Nat) : State :=
  let n := passCycles w k
  let s1 := ((s.countCore c 4 1 (s.carries ctx)).countCore c 5 (if k ≠ 0 && uBit w then 1 else k) (s.carries ctx)).countCore c 2 n (s.carries ctx)
  s1.modCtx ctx fun x => { x with laneCycles := x.laneCycles + n }

/-- An uncorrectable code word of a clause faults the threads that needed it: FPC names the PC of the
issue, FADDR the word (04 R114, R125). -/
def State.codeFault (s : State) (c gid : Nat) (g : Group) (cl : Clause) (ex : Mask) (a : DWord) : State :=
  ((s.setGroup c gid (g.passed cl 1 0 ex {} fun _ => cl.pc)).traceAll c gid (g.steppedIn ex) 2 0).raise c gid ⟨cl.pos, cl.issue, 0, faultsOf ex .memUe a⟩

/-- Prepare the next pass of a group's clause. An uncorrectable literal word faults before any decode
check of its instruction. DEDUCED (log 62). DESIGN CHOICE (log 128). -/
def State.prepPass (s : State) (c gid : Nat) : Prep :=
  match s.group? c gid with
  | none => .done s
  | some g =>
    match g.clause with
    | none => .done s
    | some cl =>
      let ex := g.atPc cl.pc
      let p := cl.codePa cl.pc
      match s.codeWord g.launch p with
      | none =>
        if ex == 0 then .done ((s.passEnd c gid 1 0 0 [] {} fun _ => cl.pc).afterCut c gid 0)
        else .done (s.codeFault c gid g cl ex cl.pc)
      | some w =>
        let len := 1 + litCount w
        let none_ := g.noLatch cl.res w 0
        let hit := s.bpHits g cl.pc ex (allOrNone w)
        let lits := s.codeLits g.launch { p with addr := p.addr + 4 } (litCount w)
        let s0 := (s.codeStep g.launch p).countPass c g.ctx w (slotCount (ex &&& ~~~hit))
        let s1 := if hit == 0 then s0 else
          (s0.modGroup c gid fun g => g.modThs hit fun _ t => { t with halted := true, stepping := false, starve := 0 }).traceAll
            c gid hit 1 0
        let ex1 := ex &&& ~~~hit
        if ex1 == 0 then .done ((s1.passEnd c gid len (finfoWord w) 0 [] none_ fun _ => cl.pc).afterCut c gid 0)
        else
          match lits with
          | .inr q =>
            .done (match s1.group? c gid with
              | some g1 => s1.codeFault c gid g1 cl ex1 (cl.pc + BitVec.ofNat 64 (q.addr - p.addr))
              | none => s1)
          | .inl ls =>
            let r := decode w ls
            match decodeFault cl w r, r with
            | some f, _ => .done (s1.passEnd c gid len (finfoWord w) 0 (faultsOf ex1 f 0) none_ fun _ => cl.pc)
            | none, .ok i =>
              let s2 := { s1 with focus := some (c, gid) }
              if cl.cut then
                let left := s2.cutLeft w ex1
                if left == ex1 then .done ({ s2 with free := s2.free + 1 }.cutClause c gid)
                else .run i ({ s2 with free := s2.free + 1 }.modGroup c gid fun g =>
                  g.modThs left fun _ t => { t with held := true }) left
              else .run i s2 0
            | none, .error _ => .done s1

end Sys2Proof.Machine
end

