-- ==== Sys2Proof/Machine/Issue.lean ====
section
/-! DEFINITION. Issue (02 R60 to R70; 04 R109 to R114; 09 R268 to R271; 10 R285, R288): the frontier,
when a group is ready, full and resumed issues, cuts of H clauses. -/

namespace Sys2Proof.Machine

/-! ## Resources of the engines (08 R229, R241) -/

/-- Whether the context's virtual device runs (12 R330). DEDUCED (log 74). -/
def State.vdActive (s : State) (ctx : Nat) : Bool := (s.vd (s.ctx ctx).vd).st == .active

/-- The members of a quartet word (08 R239). -/
def quartetMembers (w : Word) : List Nat := (List.range 4).map fun q => w.toNat / 2 ^ (8 * q) % 128

/-- Whether the members of a quartet are all resident (08 R241). -/
def Core.quartetHere (k : Core) (arg : Nat) : Bool :=
  (quartetMembers (BitVec.ofNat 32 arg)).all fun m => match alGet m k.groups with
    | some x => x.residency == .resident
    | none => false

/-- Whether a group waits to issue an MMA whose other resources it has (08 R241). -/
def Core.wantsBuffer (k : Core) (g : Group) : Bool :=
  g.bWait.isSome && decide (g.mt.toNat < 255) && match g.wait with
    | .resource .mma arg => k.quartetHere arg
    | _ => g.clause.isSome

/-- Whether another group has a free B buffer before a group: a G group before an H group, and the one that
has waited longest within a class (08 R241, 10 R273). -/
def State.bufferTaken (s : State) (c : Nat) (g : Group) : Bool :=
  let k := s.core c
  k.groups.any fun (_, x) => k.wantsBuffer x && x.bWait != g.bWait &&
    match (s.ctx x.ctx).cls, (s.ctx g.ctx).cls with
    | false, true => true
    | true, false => false
    | _, _ => match x.bWait, g.bWait with
      | some a, some b => decide (a < b)
      | some _, none => true
      | none, _ => false

/-- Whether an engine operation of a group finds its resources; `arg` is the quartet of an MMA. -/
def State.hasRoom (s : State) (c : Nat) (g : Group) (op : EOp) (arg : Nat) : Bool :=
  let k := s.core c
  match op with
  | .cpy => decide (g.cp.toNat < 255) && decide ((k.ops.filter fun o => o.op == .cpy || o.op == .gath).length < 1024)
  | .gath => decide (g.gt.toNat < 255) && decide ((k.ops.filter fun o => o.op == .cpy || o.op == .gath).length < 1024)
  | .mma => decide (g.mt.toNat < 255) && decide ((k.ops.filter (·.bbuf)).length < 2) && k.quartetHere arg
      && !s.bufferTaken c g
  | .aclr | .adrn => decide (g.mt.toNat < 255)
      && decide ((k.ops.filter fun o => (o.op == .aclr || o.op == .adrn) && o.st == .accepted).length < 16)
  | .coll => decide (g.cl.toNat < 255) && s.vdActive g.ctx

/-! ## The frontier (02 R64, R68, R70) -/

/-- The address of a meet-stack entry (02 R66). -/
def State.meetVa (s : State) (c : Nat) (g : Group) (t : Thread) (depth : Nat) : Nat :=
  ((s.ctx g.ctx).meetbase.toNat + 2048 * ((s.blockOf c g).bix * 1024 + t.tix.toNat) + 8 * depth) % 2 ^ 64

/-- Whether an active member with the same MEET stands lower. -/
def Group.meetHeld (g : Group) (t : Thread) : Bool :=
  g.threads.any fun x => x.st == .active && x.meet == t.meet && decide (x.pc < t.pc)

/-- One fault of one thread outside a clause. -/
def threadFault (slot : Nat) (t : Thread) (f : FCode) (a : Nat) : PassFault :=
  ⟨0, t.pc, 0, [⟨slot, f, BitVec.ofNat 64 a⟩]⟩

/-- Test a thread at its meet: held, released as often as its new MEET equals its PC, or faulted; an
entry in the map window is read as the map's bytes (01 R18). A thread with NEST 0 is held too while a member with
its MEET stands lower, and underflows once none does. A thread whose own push has still to be written is
tested after it (02 R66), and one whose entry the power controller holds back stays held (10 R292).
DEDUCED (log 49). DESIGN CHOICE (log 146). -/
def State.testMeet (s : State) (c gid i : Nat) : Nat → State
  | 0 => s
  | fuel + 1 =>
    match s.group? c gid with
    | none => s
    | some g =>
      let t := g.th i
      let hold (s : State) (b : Bool) : State := s.modGroup c gid fun g =>
        g.modTh i fun t => { t with held := b, starve := if b then 0 else t.starve }
      if t.st != .active || t.pc != t.meet then hold s false
      else if (s.core c).pushes.any fun x => x.gid == gid && x.slot == i then s
      else if g.meetHeld t then hold s true
      else if t.nest == 0 then (hold s true).raise c gid (threadFault i t .nestUnderflow 0)
      else
        let va := s.meetVa c g t (t.nest.toNat - 1)
        let pop (s : State) (bs : List Byte) : State := s.modGroup c gid fun g => g.modTh i fun t =>
          { t with meet := BitVec.ofNat 64 (leNat bs), nest := t.nest - 1, held := false }
        match s.xlatNow (dieOf c) g.ctx .rd (.group c gid) va with
        | (.ok p, s1) =>
          if s1.hbmHolds (s1.clsOf g.ctx) p 8 then hold s1 true
          else
            let s2 := s1.l2Read (s1.workOf g.ctx) p 8
            if s2.ueBytes p 8 then (hold s2 true).raise c gid (threadFault i t .memUe va)
            else (pop s2 (s2.homeBytes p 8)).testMeet c gid i fuel
        | (.map off, s1) => (pop s1 (s1.mapBytes (s1.ctx g.ctx).vd off 8)).testMeet c gid i fuel
        | (.miss, s1) => (hold s1 true).modGroup c gid fun g => { g with wait := .walk }
        | (.fault f, s1) => (hold s1 true).raise c gid (threadFault i t f va)

/-- Translate for a thread of a group: a walk that ended in a fault answers it (06 R177). -/
def State.xlatG (s : State) (c : Nat) (g : Group) (k : AK) (va : Nat) : XRes :=
  match s.translate c g.ctx g.walkHits k va with
  | .miss => match g.walkFaults.find? (·.1 == va / 4096) with
    | some (_, f) => .fault f
    | none => .miss
  | r => r

/-- The address after an instruction in memory and its literal words, for RTE.SKIP; an instruction that cannot be
fetched counts as one word (11 R301). DESIGN CHOICE (log 136). -/
def State.insnAfter (s : State) (c : Nat) (g : Group) (pc : DWord) : DWord :=
  match s.xlatG c g .ex pc.toNat with
  | .ok p => match s.codeWord g.launch p with
    | some w => pc + BitVec.ofNat 64 (4 * (1 + litCount w))
    | none => pc + 4
  | _ => pc + 4

/-- An address at which a return from the handler has to read an instruction and whose translation has still to be
walked (11 R301, 06 R177). -/
def State.skipMiss (s : State) (c : Nat) (g : Group) : Option Nat :=
  ((slotsOf (g.hset &&& g.active &&& g.fmask &&& g.rteSkip)).map fun i => (g.tpc.getD i 0).toNat).find? fun a => s.xlatG c g .ex a == .miss

/-- A fetch for a group misses the TLBs: the miss is counted and the group waits for the walk (06 R177, 13 R342). -/
def State.waitWalk (s : State) (c gid : Nat) (g : Group) (va : Nat) : State :=
  ((s.countCore c 0xD 1 (s.carries g.ctx)).startWalk (dieOf c) g.ctx (va / 4096) .ex (.group c gid)).modGroup c gid
    fun g => { g with wait := .walk }

/-- Recompute a group's frontier: a return from the handler, then the meets in slot order. The return waits for
the walks that RTE.SKIP needs. -/
def State.recompute (s : State) (c gid : Nat) : State :=
  match s.group? c gid with
  | none => s
  | some g =>
    match if g.rteReady then s.skipMiss c g else none with
    | some a => s.waitWalk c gid g a
    | none =>
      let s1 := if g.rteReady then s.setGroup c gid (g.returnTrap (s.insnAfter c g)) else s
      (List.range 32).foldl (fun s i => s.testMeet c gid i 257) s1

/-- The lowest of a list of addresses. -/
def lowestPc : List DWord → Option DWord
  | [] => none
  | a :: r => some (r.foldl (fun m x => if x < m then x else m) a)

/-- The issue PC, by rotation when a thread has starved (02 R70). -/
def Group.issuePc (g : Group) : Option DWord :=
  let el := (slotsOf g.eligible).map g.th
  let starved := el.filter fun t => decide (1024 ≤ t.starve)
  lowestPc ((if starved.isEmpty then el else starved).map (·.pc))

/-! ## Readiness (09 R268, 02 R62) -/

/-- Whether a group's wait has ended. -/
def State.waitOver (s : State) (c gid : Nat) (g : Group) : Bool :=
  match g.wait with
  | .none => true
  | .walk => !(s.walks.any fun w => w.who.contains (.group c gid))
  | .channel pops pushes =>
    let b := s.blockOf c g
    b.chansReady pops pushes || (pops ++ pushes).any fun (q, _) => !(b.chans.getD q {}).valid
  | .drain lane => match (s.core c).lanes.getD lane .free with | .draining _ => false | _ => true
  | .bar _ _ | .barEnd _ | .nap _ _ _ | .waita _ | .joining .. | .stopped => false
  | .waitc cls n => decide ((g.cnt cls).toNat ≤ n) || g.asyncFaults.any (·.cls == cls)
  | .token t n => decide (g.tokens.getD t 0 + n ≤ 255)
  | .resource op arg => s.hasRoom c g op arg
  | .load => g.threads.all fun t => match t.wait with | .none | .setm => true | _ => t.st != .active

/-- Whether another group's JOIN keeps a group from issuing (15 R396 step 4). -/
def Core.joinTarget (k : Core) (gid : Nat) : Bool :=
  k.groups.any fun (_, x) => match x.wait with | .joining _ _ (some t) _ _ _ => t == gid | _ => false

/-- Whether a group may issue, its frontier and header aside. -/
def State.mayIssue (s : State) (c gid : Nat) : Bool :=
  match s.group? c gid with
  | none => false
  | some g =>
    ((s.ctx g.ctx).st == .active || (s.ctx g.ctx).st == .draining) && g.residency == .resident
      && g.clause.isNone && g.pend.isEmpty && g.debugEdits.isEmpty && s.waitOver c gid g
      && !((s.core c).spills.any fun p => p.gid == gid) && !(s.core c).joinTarget gid

/-- What the word at the issue PC is. -/
inductive IFetch where
  | idle
  | miss (pc : DWord)
  | bad (pc : DWord) (f : FCode) (at_ : Option PA)
  | hdr (pc : DWord) (p : PA) (w : Nat)
  | mid (pc : DWord) (p : PA) (w : Nat)
  deriving DecidableEq, Repr

/-- Fetch at the issue PC (04 R113, R114). -/
def State.issueFetch (s : State) (c gid : Nat) : IFetch :=
  match s.group? c gid with
  | none => .idle
  | some g =>
    match g.issuePc with
    | none => .idle
    | some pc =>
      match s.xlatG c g .ex pc.toNat with
      | .ok p =>
        if s.codeStopped g p then .idle
        else match s.codeWord g.launch p with
        | none => .bad pc .memUe (some p)
        | some w => if hdrMark w then .hdr pc p w else .mid pc p w
      | .map _ => .bad pc .prot none
      | .miss => .miss pc
      | .fault f => .bad pc f none

/-- Whether a header's WTOK and RB waits are over (04 R110). -/
def Group.hdrReady (g : Group) (w : Nat) : Bool :=
  ((List.range 6).all fun i => !hdrWtok w i || g.tokens.getD i 0 == 0) && (!hdrRB w || g.countersZero)

def State.isG (s : State) (ctx : Nat) : Bool := !(s.ctx ctx).cls

/-- Whether a group is ready for a lane. -/
def State.ready (s : State) (c gid : Nat) : Bool :=
  s.mayIssue c gid &&
    let s1 := s.recompute c gid
    match s1.issueFetch c gid with
    | .mid .. => true
    | .hdr _ _ w => match s1.group? c gid with
      | some g => g.hdrReady w
      | none => false
    | _ => false

/-- The ready G groups of a quadrant that have no lane (09 R270). -/
def State.waitingG (s : State) (c q : Nat) : List Nat :=
  (s.core c).groups.filterMap fun (n, g) => if quadOf n == q && s.isG g.ctx && s.ready c n then some n else none

/-- The lowest free lane of a quadrant. -/
def Core.freeLane (k : Core) (q : Nat) : Option Nat :=
  ((List.range 16).map (16 * q + ·)).find? fun i => k.lanes.getD i .free == .free

/-- The rank of a ready group for a lane: class, a yield last in its class, the time since when it has been
ready, and its slot (09 R269). -/
def State.arbKey (s : State) (gid : Nat) (g : Group) : List Nat :=
  [if s.isG g.ctx then 0 else 1, g.ylast.toNat, if g.readyAt.isSome then 0 else 1, g.readyAt.getD 0, gid]

/-- Whether a rank comes before another. -/
def keyBefore : List Nat → List Nat → Bool
  | x :: xs, y :: ys => decide (x < y) || (x == y && keyBefore xs ys)
  | _, _ => false

/-- A lane for a group: the lowest free one of its quadrant, for the ready group that ranks first (09 R269),
and none for H while the power cap withholds every cycle from it (10 R292). DESIGN CHOICE (log 50). -/
def State.laneFor (s : State) (c gid : Nat) (g : Group) : Option Nat :=
  if !s.isG g.ctx && s.hfrac == 255 then none
  else if (s.core c).groups.any fun (n, x) => n != gid && quadOf n == quadOf gid && x.clause.isNone
      && keyBefore (s.arbKey n x) (s.arbKey gid g) && s.ready c n then none
  else (s.core c).freeLane (quadOf gid)

/-! ## Starting a clause -/

/-- Starvation counts at an issue at an address (02 R70). -/
def Group.starvation (g : Group) (pc : DWord) : Group :=
  { g with
    threads := g.threads.mapIdx fun i t => { t with starve := if g.eligibleAt i && t.pc != pc then t.starve + 1 else 0 } }

/-- Give a group a lane and a clause, whose code line its launch has then fetched (04 R115). -/
def State.startClause (s : State) (c gid lane : Nat) (cl : Clause) : State :=
  let p : PA := ⟨cl.pa.1, cl.pa.2⟩
  let launch := ((s.group? c gid).map (·.launch)).getD 0
  let (seq, s0) := ((s.codeStep launch p).codeSeen launch (((s.group? c gid).map (·.ctx)).getD 0) p).fresh
  let rotated := match s.group? c gid with
    | some g => (slotsOf g.eligible).any fun i => decide ((g.th i).pc < cl.pc)
    | none => false
  let s1 := if rotated then s0.countCore c 0x11 1 ((s.group? c gid).bind fun g => s.carries g.ctx) else s0
  let s2 := match s.group? c gid with | some g => s1.tlbMissed c g.ctx g.walkHits [cl.issue.toNat] | none => s1
  (s2.modGroup c gid fun g => { (g.starvation cl.pc) with clause := some { cl with lane, cmv := s.cmap.cmv }, wait := .none, ylast := false, readyAt := none }).modCore c
    fun k => { k with lanes := listMod k.lanes lane fun _ => .busy gid seq }

/-- Faults of an issue: nothing of the clause executes (04 R110, R113, R114). -/
def State.issueFault (s : State) (c gid : Nat) (pc : DWord) (op : Nat) (f : FCode) (a : DWord) : State :=
  match s.group? c gid with
  | none => s
  | some g => ((s.stepFault c gid (g.atPc pc)).raise c gid ⟨0, pc, BitVec.ofNat 32 (op * 256), faultsOf (g.atPc pc) f a⟩).settle c gid

/-- The full issue of an RB clause opens a region, or opens it anew after a restart (10 R285, R288),
and resets the generators (05 R142, 08 R231). An active thread that the issue does not take, a halted one on
the header among them, is parked. DEDUCED (log 54). -/
def Group.beginRegion (g : Group) (pc : DWord) (seq : Nat) : Group :=
  let members := g.atPc pc
  let parked := g.active &&& ~~~members
  { g with
    region := some { rgpc := pc, members, parked, ckpt := g.threads.map fun t => (t.meet, t.nest), began := seq }
    restart := false, engIdx := 0
    threads := g.threads.map fun t => { t with srCtr := 0 } }

/-- The threads whose token loads found bad data under a header's WTOK (03 R89). -/
def Group.tokFaults (g : Group) (w : Nat) : List (Nat × TokErr) :=
  (List.range 32).filterMap fun i => ((g.th i).tokErr.find? fun e => hdrWtok w e.tok).map (i, ·)

/-- Raise recorded errors of token loads: FPC and FADDR name the load and its address (03 R89). -/
def State.raiseTok (s : State) (c gid : Nat) (fs : List (Nat × TokErr)) : State :=
  match fs with
  | [] => s
  | (_, e) :: _ =>
    let faults : List ThFault := fs.map fun (i, e) => ⟨i, e.code, e.ea⟩
    ((s.modGroup c gid fun g => g.modThs (faultMask faults) fun _ t => { t with tokErr := [] }).raise c gid
      ⟨0, e.pc, 0, faults⟩).settle c gid

/-- A code word of a line, by index, from the place of a word of the line. -/
def State.lineWord (s : State) (launch : Nat) (pc : DWord) (p : PA) (i : Nat) : Option Nat :=
  s.codeWord launch { p with addr := p.addr - pc.toNat % 256 + 4 * i }

/-- The address of word `i` of the line that holds an address. -/
def lineAddr (pc : DWord) (i : Nat) : DWord := BitVec.ofNat 64 (pc.toNat / 256 * 256 + 4 * i)

/-- A full issue at a header (04 R110): the threads on the header go to position 1. A header that is both an
illegal one and one of a nested region is ILLEGAL_CLAUSE. Of the held-back faults of several classes the one
recorded first is raised (08 R250). DESIGN CHOICE (log 126, 137). -/
def State.fullAt (s : State) (c gid : Nat) (g : Group) (pc : DWord) (p : PA) (w : Nat) : State :=
  let h := pc.toNat % 256 / 4
  let t := s.touch g.ctx (s.homeDie p)
  let bad (f : FCode) (a : DWord) : State := t.issueFault c gid pc (fld w 24 8) f a
  if !hdrOk w then bad .illegalClause 0
  else match lineSkip (s.lineWord g.launch pc p) (hdrCount w) (h + 1) with
    | .inr (.ue i) => t.issueFault c gid pc 0 .memUe (lineAddr pc i)
    | .inr _ => bad .illegalClause 0
    | .inl e =>
      if hdrRB w && (g.handler || (g.region.isSome && !g.restart)) then bad .regionNest 0
      else if !(g.tokFaults w).isEmpty then s.raiseTok c gid (g.tokFaults w)
      else if !g.hdrReady w then s
      else match hdrRB w, g.asyncFaults with
        | true, f :: _ => s.stopAsync c gid g (g.atPc pc) f
        | _, _ =>
          match s.laneFor c gid g with
          | none => s
          | some lane =>
            let (seq, s1) := s.fresh
            let g1 := if hdrRB w then g.beginRegion pc seq else g
            let s2 := s1.setGroup c gid (g1.modThs (g1.atPc pc) fun _ t => { t with pc := pc + 4 })
            (s2.touch g.ctx (s.homeDie p)).startClause c gid lane
              { hdr := pc, cls := hdrClass w, count := hdrCount w, pos := 1, pc := pc + 4, next := lineAddr pc e,
                yld := hdrYld w, re := hdrRE w, pa := (p.host, p.addr), res := [], lane, issue := pc }

/-- What FULL_ISSUE and RESUMED_ISSUE share: the frontier, the fetch and its faults; `full` and
`mid` take the two kinds of word. -/
def State.issueWith (s : State) (c gid : Nat) (full mid : State → Group → DWord → PA → Nat → State) : State :=
  if !s.mayIssue c gid then s
  else
    let s1 := s.recompute c gid
    if !s1.mayIssue c gid then s1
    else
      match s1.group? c gid with
      | none => s1
      | some g =>
        match s1.issueFetch c gid with
        | .idle => s
        | .miss pc => s1.waitWalk c gid g pc.toNat
        | .bad pc f at_ =>
          (match at_ with
            | some p => s1.touch g.ctx (s1.homeDie p)
            | none => if f.atHome then s1.touchLost c g.ctx g.walkHits pc.toNat else s1).issueFault c gid pc 0 f pc
        | .hdr pc p w => full s1 g pc p w
        | .mid pc p w => mid s1 g pc p w

/-- FULL_ISSUE: a ready group is issued a clause from its header (04 R110). DESIGN CHOICE (log 3). -/
def execFullIssue (core gid : Nat) (s : State) : Out :=
  .next (s.issueWith core gid
    (fun s1 g pc p w => s1.fullAt core gid g pc p w) fun _ _ _ _ _ => s)

/-- A resumed issue at an instruction inside a clause (04 R113). At a PC that is no multiple of 4 the word is
the four bytes there, and its index in the line is rounded down. DESIGN CHOICE (log 127). FADDR of MISALIGNED_PC
is 0 (04 R125). DEDUCED (log 66). -/
def State.midAt (s : State) (c gid : Nat) (g : Group) (pc : DWord) (p : PA) (w : Nat) : State :=
  let t := pc.toNat % 256 / 4
  let s1 := s.touch g.ctx (s.homeDie p)
  match lineOwner (s.lineWord g.launch pc p) t 65 0 with
  | .bad f => s1.issueFault c gid pc (fld w 24 8) f 0
  | .ue i => s1.issueFault c gid pc 0 .memUe (lineAddr pc i)
  | .own h hw pos e earlier =>
    match s.laneFor c gid g with
    | none => s
    | some lane =>
      s1.startClause c gid lane
        { hdr := lineAddr pc h, cls := hdrClass hw, count := hdrCount hw, pos, pc, next := lineAddr pc e,
          yld := hdrYld hw, re := hdrRE hw, pa := (p.host, p.addr - 4 * (t - h)),
          res := g.lateLatches (earlier.map (·.2)), lane, issue := pc }

/-- RESUMED_ISSUE: a group whose issue PC is inside a clause issues its remaining positions (04 R113).
DEDUCED (log 13). -/
def execResumedIssue (core gid : Nat) (s : State) : Out :=
  .next (s.issueWith core gid (fun _ _ _ _ _ => s) fun s1 g pc p w => s1.midAt core gid g pc p w)

/-- A block of the own scratchpad as an instruction reads it, after the accesses of the thread to the block that come
before it (07 R211, R216). -/
def State.readBlock (s : State) (p : Pass) (pl : Place) : List Byte × State :=
  let s1 := s.serveMet p.core p.gid p.ex pl s.nextId
  (s1.scratchGet p.core pl.pa.addr pl.n, s1)

/-! ## Cuts (09 R270) -/

/-- The lanes of a quadrant with a cut in flight; a clause that an eviction ends is no cut (09 R271). -/
def Core.cutsInFlight (k : Core) (q : Nat) : Nat :=
  ((List.range 16).filter fun i => k.lanes.getD (16 * q + i) .free == .draining true).length
    + (k.groups.filter fun (n, g) => quadOf n == q && match g.clause with | some cl => cl.cut && !cl.evict | none => false).length

/-- The H clauses of a quadrant that may be cut: (start, lane, group). -/
def State.hClauses (s : State) (c q : Nat) : List (Nat × Nat × Nat) :=
  let k := s.core c
  k.groups.filterMap fun (n, g) =>
    match g.clause with
    | some cl =>
      if quadOf n == q && !s.isG g.ctx && !cl.cut then
        match k.lanes.getD cl.lane .free with
        | .busy _ seq => some (seq, cl.lane, n)
        | _ => none
      else none
    | none => none

/-- The H clause that started most recently. -/
def latest (l : List (Nat × Nat × Nat)) : Option (Nat × Nat × Nat) :=
  l.foldl (fun acc x => match acc with
    | none => some x
    | some y => if y.1 < x.1 then some x else some y) none

/-- H_CLAUSE_CUT: a ready G group without a lane cuts the H clause of its quadrant that started
last (09 R270). DESIGN CHOICE (log 50). -/
def execHClauseCut (core quad : Nat) (s : State) : Out :=
  let need := (s.waitingG core quad).length
  if ((s.core core).freeLane quad).isSome || need ≤ (s.core core).cutsInFlight quad then .next s
  else match latest (s.hClauses core quad) with
    | none => .next s
    | some (_, _, n) =>
    let who := (s.group? core n).bind fun g => s.carries g.ctx
    .next ((s.countCore core 8 1 who).modGroup core n fun g =>
        { g with clause := g.clause.map fun cl => { cl with cut := true } })

/-- CUT_LANE_FREE: the lane of a cut clause is free again, and the group that it was cut from may be ready
(09 R270). -/
def execCutLaneFree (core lane : Nat) (s : State) : Out :=
  .next (s.modCore core fun k =>
    match k.lanes.getD lane .free with
    | .draining _ => { k with
        lanes := listMod k.lanes lane fun _ => .free
        groups := k.groups.map fun (n, g) => (n, if g.wait = .drain lane then { g with wait := .none } else g) }
    | _ => k)

end Sys2Proof.Machine
end

