-- ==== Sys2Proof/Machine/Pass.lean ====
section
/-! DEFINITION. What the memory, engine, control and system instructions share: the checks before
their effect (11 R294), the units that act in a pass (02 R58), and the ends of their passes. -/

namespace Sys2Proof.Machine

/-- What a thread runs through before an instruction's own effect: no pass, an empty set, R91, the
uncorrectable source words and the region rule. `k` takes the sources and the faulting threads. -/
def State.prePass (s : State) (i : Instr) (check : Bool) (all : Bool) (srcs : Pass → List (SVal × Bool))
    (preds : List (BitVec 3)) (noRegion : Bool) (k : Pass → List SVal → Mask → State) : State :=
  match s.pass? with
  | none => s
  | some p =>
    let len := lenOf i
    let finfo := finfoWord (headOf i)
    let next (_ : Nat) : DWord := p.cl.after len
    let vs := srcs p
    let stop (fs : List ThFault) : State := s.passEnd p.core p.gid len finfo 0 fs (p.g.noLatch p.cl.res (headOf i) 0) next
    if p.ex == 0 then stop []
    else if check && !(vs.all (fun (v, pair) => v.isUni pair) && preds.all fun q => p.g.predUni q.toNat) then
      stop (faultsOf p.ex .uniformOperand 0)
    else
      let ue0 := p.ex &&& vs.foldl (fun m (v, _) => m ||| v.ue) 0
      let ue := if all && ue0 != 0 then p.ex else ue0
      if noRegion && p.g.region.isSome then
        stop (faultsOf ue .memUe 0 ++ faultsOf (p.ex &&& ~~~ue) .atomicInRegion 0)
      else k p (vs.map (·.1)) ue

/-- The end of an instruction's pass: the threads of `ok` go on to the next word; without a latch of its own
the instruction leaves no result (03 R86). -/
def State.fin (s : State) (p : Pass) (i : Instr) (ok : Mask) (faults : List ThFault)
    (latch : BRes := p.g.noLatch p.cl.res (headOf i) ok) : State :=
  s.passEnd p.core p.gid (lenOf i) (finfoWord (headOf i)) ok faults latch fun _ => p.cl.after (lenOf i)

/-- The end of a pass at which the clause breaks with its threads past the instruction. -/
def State.finBreak (s : State) (p : Pass) (i : Instr) (ok : Mask) (faults : List ThFault) (w : GWait) : State :=
  s.passBreak p.core p.gid (lenOf i) (finfoWord (headOf i)) ok faults (fun _ => p.cl.after (lenOf i)) w

/-- The end of a pass that gives up its lane, which is no break (17 R456). -/
def State.finLeave (s : State) (p : Pass) (i : Instr) (ok : Mask) : State :=
  s.passLast p.core p.gid (lenOf i) (finfoWord (headOf i)) ok [] (fun _ => p.cl.after (lenOf i)) .none
    fun s1 => s1.leaveClause p.core p.gid .none

/-- The units of a pass: each thread, or one for the executing set when uniform-encoded (02 R58). -/
def unitsOf (u : Bool) (m : Mask) : List (Nat × Mask) :=
  if u then (if m == 0 then [] else [(lowSlot m, m)]) else (slotsOf m).map fun i => (i, 1#32 <<< i)

/-- Put the threads of a set into a wait. -/
def Group.waitThs (g : Group) (m : Mask) (w : TWait) : Group := g.modThs m fun _ t => { t with wait := w, starve := 0 }

/-- Every slot of a register stored as its own word (03 R89). -/
def Reg.spread (r : Reg) : Reg := { r with shape := column r.shape.val }

/-- Whether the group of a block runs with a fused L1 (06 R189). -/
def Pass.fused (p : Pass) (s : State) : Bool := (s.blockOf p.core p.g).fused

end Sys2Proof.Machine
end

