-- ==== Sys2Proof/Machine/Async.lean ====
section
/-! DEFINITION. The engine instructions (08 R226 to R248; 14 R359, R377; 15 R392; 16 R405, R406):
the checks of R227 in order, acceptance, and the binding of B-quartets. -/

namespace Sys2Proof.Machine

/-! ## Collective blocks (08 R248, 12 R338, R339) -/

/-- Bytes of an element of a collective's format; 0 for a code it does not take. -/
def collSize (fmt : Nat) : Nat :=
  match fmt with
  | 0 | 11 | 12 => 4
  | 1 | 2 => 2
  | 3 | 4 | 9 | 10 => 1
  | _ => 0

def collOp (p : List Byte) : Nat := pf p 0 0 3
def collFmt (p : List Byte) : Nat := pf p 0 4 4
def collRop (p : List Byte) : Nat := pf p 0 8 2
def collChan (p : List Byte) : Nat := pf p 4 0 6
def collCount (p : List Byte) : Nat := fieldAt p 8 4
def collPeer (p : List Byte) : Nat := pf p 12 0 10

/-- The fabric group of a channel: ranks, and this package's rank. -/
def State.collRanks (s : State) (v c : Nat) : Nat := (s.fgroup ((s.coll v c).cfg.toNat / 256 % 256)).hdr.toNat % 2048
def State.collRank (s : State) (v c : Nat) : Nat := (s.fgroup ((s.coll v c).cfg.toNat / 256 % 256)).hdr.toNat / 65536 % 1024

/-- Whether a fold format admits all-reduce and reduce-scatter. -/
def foldFmt (fmt : Nat) : Bool := fmt == 0 || fmt == 1 || fmt == 2 || fmt == 11 || fmt == 12

def collFieldsOk (s : State) (v : Nat) (p : List Byte) : Bool :=
  let op := collOp p
  let n := s.collRanks v (collChan p)
  let p2p := op == 3 || op == 4
  pf p 0 15 17 == 0 && decide (pf p 0 11 3 ≤ 4) && (cpyCw p || (pf p 0 11 3 == 0 && pz p 32 12)) && pf p 0 10 1 == 0
    && decide (collRop p ≤ 2) && pf p 0 3 1 == 0 && decide (op ≤ 4)
    && (if op ≤ 1 then foldFmt (collFmt p) else collSize (collFmt p) != 0)
    && pf p 4 6 26 == 0 && decide (1 ≤ collCount p) && decide (collCount p ≤ 2 ^ 28) && pf p 12 10 22 == 0
    && (op != 3 || pz p 24 8) && pz p 52 12 && (s.coll v (collChan p)).cfg.getLsbD 0
    && (if p2p then decide (collPeer p < n) && collPeer p != s.collRank v (collChan p) else collPeer p == 0)

/-- The multiples that CADDR and STADDR have to be. -/
def collAligned (p : List Byte) : Bool := (!cpyCw p || fieldAt p 32 8 % 4 == 0) && fieldAt p 44 8 % 4 == 0

/-! ## The checks of R227 -/

/-- Whether a word names a bound quartet of a block. -/
def Core.quartetBound (k : Core) (bid : Nat) (w : Word) : Bool :=
  k.groups.any fun (_, g) => g.blk == bid && g.quartet == some w

def asyncFields (s : State) (v : Nat) (op : EOp) (p : List Byte) : Bool :=
  match op with
  | .cpy => cpyFieldsOk p
  | .gath => gathFieldsOk p
  | .mma => mmaFieldsOk p
  | .adrn => adrnFieldsOk p
  | .coll => collFieldsOk s v p
  | .aclr => true

def asyncAligned (op : EOp) (p : List Byte) : Bool :=
  match op with
  | .cpy => cpyAligned p
  | .gath => gathAligned p
  | .mma => mmaAligned p
  | .adrn => adrnAligned p
  | .coll => collAligned p
  | .aclr => true

def asyncExtents (op : EOp) (p : List Byte) (rows : Nat) : Bool :=
  match op with
  | .cpy => cpyExtents p rows
  | .gath => gathExtents p rows
  | .mma => mmaExtents p rows
  | .adrn => adrnExtents p rows
  | _ => true

def asyncTiles (op : EOp) (p : List Byte) (tiles : Nat) : Bool :=
  match op with
  | .mma => mmaTilesOk p tiles
  | .adrn => decide (adrnTile p < tiles)
  | _ => true

/-- The counter class of an operation (08 R228). -/
def EOp.cls : EOp → Nat
  | .cpy => 0
  | .gath => 1
  | .mma | .aclr | .adrn => 2
  | .coll => 3

/-- Whether an earlier operation of a group and class has faulted and its fault stands (08 R250).
DEDUCED (log 37). -/
def State.classFaulted (s : State) (core gid : Nat) (g : Group) (cls : Nat) : Bool :=
  g.asyncFaults.any (·.cls == cls) || (s.core core).ops.any fun o =>
    o.gid == gid && o.cls == cls && match o.st with | .faulted _ _ => true | _ => false

/-- Accept an operation: it joins the core's operations and its class counter rises. One that follows
a fault of its class never starts: it only retires in its turn (08 R250). DEDUCED (log 37). -/
def State.acceptOp (s : State) (p : Pass) (op : EOp) (params : List Byte) (mask : Word) : State :=
  let sr := (op == .cpy || op == .adrn) && pf params 0 8 2 == 2
  let tix := (p.g.th (lowSlot p.ex)).tix.toNat
  let bix := (s.blockOf p.core p.g).bix
  let key := drawKey p.g.seed (BitVec.ofNat 32 bix) (tix + 1024 * (p.g.engIdx.toNat + 1))
  let dead := s.classFaulted p.core p.gid p.g op.cls
  let s0 := if dead && op == .coll then s.sendAbort p.core p.g.ctx (collChan params) else s
  let (id, s1) := s0.fresh
  let s2 := s1.noteThs p.core p.gid p.ex { id, ctx := 0, who := [], kind := .issue p.core id }
  (s2.modCore p.core fun k => { k with ops := k.ops ++
    [{ id, gid := p.gid, op, cls := op.cls, ctx := p.g.ctx, launch := p.g.launch, blk := p.g.blk, pc := p.cl.pc,
       st := if dead then .cancelled else .accepted, params, mask, key := if sr then key else 0, bbuf := op == .mma && !dead,
       coll := if op == .coll then collChan params else 0 }] }).modGroup p.core p.gid fun g =>
    { g.setCnt op.cls (g.cnt op.cls + 1) with
      bWait := if op == .mma then none else g.bWait
      engIdx := if sr then g.engIdx + 1 else g.engIdx }

/-- An engine instruction with its common front (14 R359): `k` takes the A value. DEDUCED (log 19). -/
def State.asyncWith (s : State) (i : Instr) (a : Src) (k : Pass → LOp → Nat → State) : State :=
  let o : LOp := { i, u := true, srcs := [(a, false)] }
  s.laneFront o fun p vs ue =>
    if ue != 0 then s.fin p i 0 (faultsOf ue .memUe 0)
    else k p o ((sv vs 0).w (lowSlot p.ex)).toNat

/-- An engine instruction breaks for want of a resource; an MMA that waits for a B buffer keeps its place
among those that do (08 R229, R241). -/
def State.resourceBreak (s : State) (p : Pass) (op : EOp) (arg : Nat) : State :=
  let (n, s1) := s.fresh
  let s2 := if op == .mma then s1.modGroup p.core p.gid fun g => { g with bWait := some (g.bWait.getD n) } else s1
  s2.breakClause p.core p.gid (.resource op arg)

/-- The issue of an operation with a parameter block: the checks of 08 R227 in order. FADDR of a fault raised at
issue is 0, as 04 R125 has it. DEDUCED (log 21). -/
def State.asyncBlock (s : State) (i : Instr) (a : Src) (op : EOp) : State :=
  s.asyncWith i a fun p o av =>
    let b := s.blockOf p.core p.g
    let v := (s.ctx p.g.ctx).vd
    let addr := av % 2 ^ 24
    let pl : Place := ⟨.scratch, p.core, ⟨false, b.local addr⟩, 64⟩
    let stop (f : FCode) : State := s.fin p i 0 (faultsOf p.ex f 0)
    if addr % 64 ≠ 0 then stop .align
    else if !inAlloc b.rows.length addr 64 then stop .scratchRange
    else if s.storeHeld p.core p.gid p.ex pl then s
    else
    let (params, s) := s.readBlock p pl
    let bad (f : FCode) : State := s.fin p i 0 (faultsOf p.ex f 0)
    if s.scratchUeAt p.core (b.local addr) 64 then bad .memUe
    else if !asyncFields s v op params then bad .illegalOperand
    else if !asyncAligned op params then bad .align
    else if !asyncExtents op params b.rows.length then bad .scratchRange
    else if !asyncTiles op params (s.accTiles p.g.ctx) then bad .accRange
    else if op == .coll && p.g.region.isSome then bad .atomicInRegion
    else if op == .mma && !(s.core p.core).quartetBound p.g.blk (quartetOf params) then bad .mbindInvalid
    else if !s.hasRoom p.core p.g op (quartetOf params).toNat then
      s.resourceBreak p op (quartetOf params).toNat
    else
      let s1 := if op == .coll then s.touch p.g.ctx (dieOf p.core) else s
      ((s1.acceptOp p op params 0).popAll p o).fin p i p.ex []

/-- CPY starts a copy (08 R232). -/
def execCpy (a : Src) (s : State) : Out := .next (s.asyncBlock (.cpy a) a .cpy)
/-- GATH starts a gather (08 R236, 15 R392). -/
def execGath (a : Src) (s : State) : Out := .next (s.asyncBlock (.gath a) a .gath)
/-- MMA starts a matrix operation (08 R242, 16 R406). -/
def execMma (a : Src) (s : State) : Out := .next (s.asyncBlock (.mma a) a .mma)
/-- ADRN starts an accumulator drain (08 R247). -/
def execAdrn (a : Src) (s : State) : Out := .next (s.asyncBlock (.adrn a) a .adrn)
/-- COLL starts a collective (08 R248, 14 R377). DEDUCED (log 59). -/
def execColl (a : Src) (s : State) : Out := .next (s.asyncBlock (.coll a) a .coll)

/-- ACLR clears tiles (08 R246). DEDUCED (log 21). -/
def execAclr (a : Src) (s : State) : Out :=
  let i : Instr := .aclr a
  .next (s.asyncWith i a fun p o av =>
    if av ≥ 2 ^ 16 then s.fin p i 0 (faultsOf p.ex .illegalOperand 0)
    else if (List.range 16).any fun t => av.testBit t && decide (s.accTiles p.g.ctx ≤ t) then
      s.fin p i 0 (faultsOf p.ex .accRange 0)
    else if av = 0 then (s.popAll p o).fin p i p.ex []
    else if !s.hasRoom p.core p.g .aclr 0 then s.resourceBreak p .aclr 0
    else ((s.acceptOp p .aclr [] (BitVec.ofNat 32 av)).popAll p o).fin p i p.ex [])

/-! ## MBIND (08 R239, 16 R405) -/

/-- Whether a word may be bound: its zero bits, its quadrants, its groups and their bindings. -/
def Core.bindOk (k : Core) (bid : Nat) (w : Word) : Bool :=
  (w &&& 0x80808080) == 0 && (List.range 4).all fun q =>
    let m := w.toNat / 2 ^ (8 * q) % 128
    m / 32 == q && match alGet m k.groups with
      | some g => g.blk == bid && (g.quartet.isNone || g.quartet == some w)
      | none => false

/-- Bind the members of a word. -/
def Core.bind (k : Core) (w : Word) : Core :=
  { k with groups := k.groups.map fun (n, g) => (n, if (quartetMembers w).contains n then { g with quartet := some w } else g) }

/-- MBIND binds a B-quartet; MBIND.N unbinds one once every MMA that names it has consumed B. -/
def execMbind (a : Src) (n : Bool) (s : State) : Out :=
  let i : Instr := .mbind a n
  .next (s.asyncWith i a fun p o av =>
    let w := BitVec.ofNat 32 av
    let k := s.core p.core
    let bad : State := s.fin p i 0 (faultsOf p.ex .mbindInvalid 0)
    if n then
      if !k.quartetBound p.g.blk w then bad
      else if k.quartetBusy w then s
      else ((s.modCore p.core fun k => k.unbind w).popAll p o).fin p i p.ex []
    else if !k.bindOk p.g.blk w then bad
    else ((s.modCore p.core fun k => k.bind w).popAll p o).fin p i p.ex [])

end Sys2Proof.Machine
end

