-- ==== Sys2Proof/Machine/Integer.lean ====
section
/-! DEFINITION. Integer arithmetic (15 R393, 05 R150). -/

namespace Sys2Proof.Machine

/-- Sat(n, lo, hi) as a word (05 R150). -/
def satWord (n lo hi : Int) : Word := BitVec.ofInt 32 (max lo (min n hi))

/-- Saturate to the signed range. -/
def sat32 (n : Int) : Word := satWord n (-2 ^ 31) (2 ^ 31 - 1)

/-- Two shapes joined word by word: uniform when both are, else affine; a uniform source counts as
stride 0 (03 R92). -/
def joinForm (f : Word → Word → Word) : Shape → Shape → Shape
  | .uniform a, .uniform b => .uniform (f a b)
  | .uniform a, .affine b d => .affine (f a b) (f 0 d)
  | .affine a d, .uniform b => .affine (f a b) (f d 0)
  | .affine a d, .affine b e => .affine (f a b) (f d e)
  | a, _ => a

/-- The affine row of IADD and ISUB (03 R92). -/
def addForm (f : Word → Word → Word) (x : Bool) : Pass → List SVal → Option (Shape × Shape) := fun _ vs =>
  match x, (sv vs 0).form, (sv vs 1).form with
  | false, some a, some b => some (joinForm f a b, .uniform 0)
  | _, _, _ => none

/-- IADD, .SAT with X (15 R393). -/
def execIadd (r : R3) (x : Bool) (s : State) : Out :=
  .next (s.laneOp (op3 (.iadd r x) r) (w2 fun a b => if x then sat32 (a.toInt + b.toInt) else a + b)
    (addForm (· + ·) x))

/-- ISUB, .SAT with X (15 R393). -/
def execIsub (r : R3) (x : Bool) (s : State) : Out :=
  .next (s.laneOp (op3 (.isub r x) r) (w2 fun a b => if x then sat32 (a.toInt - b.toInt) else a - b)
    (addForm (· - ·) x))

/-- The row of IMUL: one source uniform (03 R92). -/
def mulForm : Pass → List SVal → Option (Shape × Shape) := fun _ vs =>
  match (sv vs 0).form, (sv vs 1).form with
  | some (.uniform a), some (.uniform b) => some (.uniform (a * b), .uniform 0)
  | some (.affine a d), some (.uniform c) => some (.affine (a * c) (d * c), .uniform 0)
  | some (.uniform c), some (.affine b d) => some (.affine (b * c) (d * c), .uniform 0)
  | _, _ => none

/-- IMUL (15 R393). -/
def execImul (r : R3) (s : State) : Out := .next (s.laneOp (op3 (.imul r) r) (w2 (· * ·)) mulForm)

/-- The high word of a product. -/
def mulHigh (uns : Bool) (a b : Word) : Word :=
  if uns then BitVec.ofNat 32 (a.toNat * b.toNat / 2 ^ 32) else BitVec.ofInt 32 (a.toInt * b.toInt / 2 ^ 32)

/-- IMULH, .UNS with X (15 R393). -/
def execImulh (r : R3) (x : Bool) (s : State) : Out := .next (s.laneOp (op3 (.imulh r x) r) (w2 (mulHigh x)))

/-- IMAD, .W with X (15 R393). -/
def execImad (r : R3) (x : Bool) (s : State) : Out :=
  if x then
    .next (s.laneOp { op3 (.imad r x) r with dst := .v r.d true, srcs := [(r.a, false), (r.b, false), (dstSrc r.d, true)] }
      fun _ vs t => { w := ((sv vs 0).w t).setWidth 64 * ((sv vs 1).w t).setWidth 64 + (sv vs 2).dw t })
  else .next (s.laneOp (op3d (.imad r x) r) (w3 fun a b d => a * b + d))

/-- The smaller or larger of two words. -/
def minMax (mx uns : Bool) (a b : Word) : Word :=
  let less := if uns then decide (a.toNat < b.toNat) else decide (a.toInt < b.toInt)
  if less != mx then a else b

/-- IMIN, .UNS with X (15 R393). -/
def execImin (r : R3) (x : Bool) (s : State) : Out := .next (s.laneOp (op3 (.imin r x) r) (w2 (minMax false x)))

/-- IMAX, .UNS with X (15 R393). -/
def execImax (r : R3) (x : Bool) (s : State) : Out := .next (s.laneOp (op3 (.imax r x) r) (w2 (minMax true x)))

/-- IABS, .SAT with X (15 R393). -/
def execIabs (r : R2) (x : Bool) (s : State) : Out :=
  .next (s.laneOp (op2 (.iabs r x) r) (w1 fun a =>
    if x then sat32 a.toInt.natAbs else BitVec.ofNat 32 a.toInt.natAbs))

/-- Byte `i` of a word as INT8 or UINT8. -/
def byteInt (uns : Bool) (a : Word) (i : Nat) : Int := if uns then (byteOf a i).toNat else (byteOf a i).toInt

/-- d plus the dot product of four bytes. -/
def dot4 (uns : Bool) (a b d : Word) : Word :=
  BitVec.ofInt 32 (d.toInt + (List.range 4).foldl (fun n i => n + byteInt uns a i * byteInt uns b i) 0)

/-- IDP4, .UNS with X (15 R393). -/
def execIdp4 (r : R3) (x : Bool) (s : State) : Out := .next (s.laneOp (op3d (.idp4 r x) r) (w3 (dot4 x)))

end Sys2Proof.Machine
end

