-- ==== Sys2Proof/Machine/Bits.lean ====
section
/-! DEFINITION. Bit operations (14 R361, R369 to R371, R374; 16 R416, R421; 17 R442, R455). -/

namespace Sys2Proof.Machine

/-- AND (14 R361). -/
def execAnd (r : R3) (s : State) : Out := .next (s.laneOp (op3 (.and_ r) r) (w2 (· &&& ·)))

/-- OR (16 R416). -/
def execOr (r : R3) (s : State) : Out := .next (s.laneOp (op3 (.or_ r) r) (w2 (· ||| ·)))

/-- XOR (17 R455). -/
def execXor (r : R3) (s : State) : Out := .next (s.laneOp (op3 (.xor_ r) r) (w2 (· ^^^ ·)))

/-- ANDN (14 R361). -/
def execAndn (r : R3) (s : State) : Out := .next (s.laneOp (op3 (.andn r) r) (w2 fun a b => a &&& ~~~b))

/-- SHL of a word: 0 from a count of 32 up (17 R442). -/
def shlW (a n : Word) : Word := if n.toNat < 32 then a <<< n.toNat else 0

/-- SHL.SAT (17 R442). -/
def shlSat (a n : Word) : Word :=
  if n.toNat < 32 then sat32 (a.toInt * 2 ^ n.toNat)
  else if a == 0 then 0 else if a.toInt < 0 then 0x80000000 else 0x7FFFFFFF

/-- SHR and SHR.A (17 R442). -/
def shrW (arith : Bool) (a n : Word) : Word :=
  if arith then a.sshiftRight (min n.toNat 31) else if n.toNat < 32 then a >>> n.toNat else 0

/-- The row of SHL with X = 0 (03 R92). -/
def shlForm (x : Bool) : Pass → List SVal → Option (Shape × Shape) := fun _ vs =>
  match x, (sv vs 0).form, (sv vs 1).form with
  | false, some (.uniform a), some (.uniform n) => some (.uniform (shlW a n), .uniform 0)
  | false, some (.affine a d), some (.uniform n) => some (.affine (shlW a n) (shlW d n), .uniform 0)
  | _, _, _ => none

/-- SHL, .SAT with X (17 R442). -/
def execShl (r : R3) (x : Bool) (s : State) : Out :=
  .next (s.laneOp (op3 (.shl r x) r) (w2 fun a n => if x then shlSat a n else shlW a n) (shlForm x))

/-- SHR, .A with X (17 R442). -/
def execShr (r : R3) (x : Bool) (s : State) : Out := .next (s.laneOp (op3 (.shr r x) r) (w2 (shrW x)))

/-- POPC (16 R421). -/
def execPopc (r : R2) (s : State) : Out := .next (s.laneOp (op2 (.popc r) r) (w1 fun a => BitVec.ofNat 32 (slotCount a)))

/-- Zero bits above the highest set bit (14 R374). -/
def clzW (a : Word) : Word := BitVec.ofNat 32 (if a.toNat = 0 then 32 else 31 - Nat.log2 a.toNat)

/-- CLZ (14 R374). -/
def execClz (r : R2) (s : State) : Out := .next (s.laneOp (op2 (.clz r) r) (w1 clzW))

/-- BREV (14 R374). -/
def execBrev (r : R2) (s : State) : Out :=
  .next (s.laneOp (op2 (.brev r) r) (w1 fun a => maskWhere fun i => a.getLsbD (31 - i)))

/-- Insert v into a field of a (14 R370). -/
def bfiW (a v c : Word) : Word :=
  let pos := c.toNat % 256
  let l := min (c.toNat / 256 % 256) 32
  maskWhere fun i => if pos ≤ i && i < pos + l then v.getLsbD (i - pos) else a.getLsbD i

/-- BFI: B is a pair, value then control (14 R370). -/
def execBfi (r : R3) (s : State) : Out :=
  .next (s.laneOp { op3 (.bfi r) r with srcs := [(r.a, false), (r.b, true)] } fun _ vs t =>
    let b := (sv vs 1).dw t
    .ofWord (bfiW ((sv vs 0).w t) (b.setWidth 32) (b.extractLsb' 32 32)))

/-- Extract a field (14 R371). -/
def bfxW (sgn : Bool) (a c : Word) : Word :=
  let pos := c.toNat % 256
  let l := min (c.toNat / 256 % 256) 32
  let e (i : Nat) : Bool := if i < 32 then a.getLsbD i else sgn && a.getLsbD 31
  if l = 0 then 0
  else maskWhere fun i => if i < l then e (pos + i) else sgn && e (pos + l - 1)

/-- BFX, .S with X (14 R371). -/
def execBfx (r : R3) (x : Bool) (s : State) : Out := .next (s.laneOp (op3 (.bfx r x) r) (w2 (bfxW x)))

/-- BILV and BILV.3 (14 R369). -/
def bilvW (three : Bool) (a b d : Word) : Word :=
  if three then maskWhere fun i => i < 30 &&
    (if i % 3 = 0 then a.getLsbD (i / 3) else if i % 3 = 1 then b.getLsbD (i / 3) else d.getLsbD (i / 3))
  else maskWhere fun i => if i % 2 = 0 then a.getLsbD (i / 2) else b.getLsbD (i / 2)

/-- BILV, .3 with X: D is then a source too (14 R369). -/
def execBilv (r : R3) (x : Bool) (s : State) : Out :=
  if x then .next (s.laneOp (op3d (.bilv r x) r) (w3 (bilvW true)))
  else .next (s.laneOp (op3 (.bilv r x) r) (w2 fun a b => bilvW false a b 0))

/-- BDLV and BDLV.3 (14 R369). -/
def bdlvW (three : Bool) (a b : Word) : Word :=
  if three then
    let k := b.toNat % 4
    if k = 3 then 0 else maskWhere fun i => i < 10 && a.getLsbD (3 * i + k)
  else
    let k := b.toNat % 2
    maskWhere fun i => i < 16 && a.getLsbD (2 * i + k)

/-- BDLV, .3 with X (14 R369). -/
def execBdlv (r : R3) (x : Bool) (s : State) : Out := .next (s.laneOp (op3 (.bdlv r x) r) (w2 (bdlvW x)))

end Sys2Proof.Machine
end

