-- ==== Sys2Proof/Machine/Compare.lean ====
section
/-! DEFINITION. Compares, predicates and SELP (15 R390, R391; 16 R417, R418; 17 R450, R438). -/

namespace Sys2Proof.Machine

/-- A condition's latch and predicate value. -/
def TR.ofBool (b : Bool) : TR := { w := if b then 1 else 0 }

/-- The relation of a condition code 0 to 5. -/
def relation (cond : Nat) (eq lt : Bool) : Bool :=
  match cond with
  | 0 => eq
  | 1 => !eq
  | 2 => lt
  | 3 => lt || eq
  | 4 => !(lt || eq)
  | _ => !lt

/-- ITST, .UNS with X (15 R390). -/
def execItst (c : Cmp) (x : Bool) (s : State) : Out :=
  .next (s.laneOp { i := .itst c x, u := c.u, dst := .pred c.p, srcs := [(c.a, false), (c.b, false)] }
    fun _ vs t =>
      let a := (sv vs 0).w t
      let b := (sv vs 1).w t
      .ofBool (relation c.cond.toNat (a == b) (if x then decide (a.toNat < b.toNat) else decide (a.toInt < b.toInt))))

/-- The FTST condition on two flushed FP32 encodings. -/
def ftstCond (cond a b : Nat) : Bool :=
  let nan := (NF.f32.unpack a).isNan || (NF.f32.unpack b).isNan
  let key (c : Nat) : Int := if NF.f32.isZeroCode c then 0 else NF.f32.key c
  let eq := key a == key b
  let lt := decide (key a < key b)
  if cond < 6 then !nan && relation cond eq lt
  else if cond = 6 then !nan
  else if cond = 7 then nan
  else nan || relation (cond - 8) eq lt

/-- FTST (15 R390, R391). -/
def execFtst (c : Cmp) (s : State) : Out :=
  .next (s.laneOp { i := .ftst c, u := c.u, dst := .pred c.p, srcs := [(c.a, false), (c.b, false)] }
    fun p vs t =>
      let a := NF.f32.flushIn p.g.ftz ((sv vs 0).w t).toNat
      let b := NF.f32.flushIn p.g.ftz ((sv vs 1).w t).toNat
      let sig := (NF.f32.unpack a).isSig || (NF.f32.unpack b).isSig
      { TR.ofBool (ftstCond c.cond.toNat a b) with ex := if sig then exIV else 0 })

/-- PLOG (16 R417, R418). -/
def execPlog (u : Bool) (op : BitVec 4) (p pa pb : BitVec 3) (s : State) : Out :=
  .next (s.laneOp { i := .plog u op p pa pb, u, dst := .pred p,
                    preds := if op.toNat = 4 then [pa] else [pa, pb] }
    fun q _ t =>
      let a := (q.g.pred pa.toNat).bits.getLsbD t
      let b := (q.g.pred pb.toNat).bits.getLsbD t
      .ofBool (match op.toNat with
        | 0 => a && b
        | 1 => a || b
        | 2 => a != b
        | 3 => a && !b
        | _ => !a))

/-- PVAL, .M with X (16 R417, R418). -/
def execPval (u nw : Bool) (d : Dst) (pa : BitVec 3) (x : Bool) (s : State) : Out :=
  .next (s.laneOp { i := .pval u nw d pa x, u, nw, dst := .v d false, preds := [pa] }
    fun q _ t => .ofWord (if (q.g.pred pa.toNat).bits.getLsbD t then (if x then 0xFFFFFFFF else 1) else 0))

/-- VCHK, .MASK with X (17 R450). -/
def execVchk (u : Bool) (p : BitVec 3) (a : Src) (x : Bool) (s : State) : Out :=
  .next (s.laneOp { i := .vchk u p a x, u, dst := .pred p, srcs := [(a, false)] }
    fun _ vs t => .ofBool (if x then ((sv vs 0).w t).getLsbD t else (sv vs 0).w t != 0))

/-- SELP (17 R438). -/
def execSelp (r : R3) (p : BitVec 3) (s : State) : Out :=
  .next (s.laneOp { op3 (.selp r p) r with preds := [p] }
    fun q vs t => .ofWord (if (q.g.pred p.toNat).bits.getLsbD t then (sv vs 0).w t else (sv vs 1).w t))

end Sys2Proof.Machine
end

