-- ==== Sys2Proof/Machine/MemOps.lean ====
section
/-! DEFINITION. Loads, stores, atomics and prefetches (06 R161 to R178; 14 R362 to R365; 15 R398 to
R400; 16 R420, R428, R429; 17 R445 to R447): address formation, the checks of each thread, and how
the accesses issue. -/

namespace Sys2Proof.Machine

/-! ## Addresses (04 R117, R118) -/

/-- The offset in bytes of a global access. -/
def offGlob (o : Off) (size : Nat) : Int :=
  match o with
  | .imm x => x.toInt * size
  | .lit w => w.toInt

/-- The offset of a scratchpad or accumulator access: 24 signed bits of a literal. -/
def offNear (o : Off) (size : Nat) : Int :=
  match o with
  | .imm x => x.toInt * size
  | .lit w => sextInt 24 (w.toNat % 2 ^ 24)

/-- The swizzle code of an LDS. -/
def offSw (o : Off) : Nat :=
  match o with
  | .imm _ => 0
  | .lit w => w.toNat / 2 ^ 24 % 8

/-- What a unit's address comes to: a place, a map byte, a walk to wait for, or a fault. -/
inductive ARes where
  | at_ (ea : DWord) (pl : Place)
  | map (ea : DWord) (off : Nat)
  | miss (vpage : Nat)
  | bad (f : FCode) (ea : DWord)
  deriving DecidableEq, Repr

/-- A global access of `n` bytes: ALIGN, then the translation (06 R170 to R177). -/
def State.resGlobal (s : State) (p : Pass) (k : AK) (n : Nat) (ea : DWord) : ARes :=
  if ea.toNat % n ≠ 0 then .bad .align ea
  else match s.xlatG p.core p.g k ea.toNat with
    | .ok pa => .at_ ea ⟨.global, p.core, pa, n⟩
    | .map off => .map ea off
    | .miss => .miss (ea.toNat / 4096)
    | .fault f => .bad f ea

/-- A scratchpad access of `n` bytes at the sum `a`, swizzled (06 R161 to R164). DEDUCED (log 64). -/
def State.resScratch (s : State) (p : Pass) (sw n a : Nat) : ARes :=
  let ea := swizzle sw (a % 2 ^ 24)
  if ea % n ≠ 0 then .bad .align (BitVec.ofNat 64 ea)
  else match s.scratchAt p.core (s.blockOf p.core p.g) ea n with
    | some (c, x) => .at_ (BitVec.ofNat 64 ea) ⟨.scratch, c, ⟨false, x⟩, n⟩
    | none => .bad .scratchRange (BitVec.ofNat 64 ea)

/-- An accumulator word (06 R168). -/
def State.resAcc (s : State) (p : Pass) (w : Nat) : ARes :=
  if s.accOk p.g.ctx (w % 2 ^ 24) then
    .at_ (BitVec.ofNat 64 (w % 2 ^ 24)) ⟨.acc, p.core, ⟨false, 4 * (w % 2 ^ 24)⟩, 4⟩
  else .bad .accRange (BitVec.ofNat 64 (w % 2 ^ 24))

/-- The address of a load or store at a thread: global ones translate for `k`. -/
def State.resolve (s : State) (p : Pass) (sp : Space) (k : AK) (sw n : Nat) (off : Off) (v : SVal) (i : Nat) : ARes :=
  match sp with
  | .global => s.resGlobal p k n (BitVec.ofInt 64 ((v.dw i).toNat + offGlob off n))
  | .scratch => s.resScratch p sw n (wrap 24 ((v.w i).toNat + offNear off n))
  | .acc => s.resAcc p (wrap 24 ((v.w i).toNat + offNear off 1))

/-- The pages that units of a pass wait for. -/
def missesOf (rs : List (Nat × Mask × ARes)) : List Nat :=
  (rs.filterMap fun (_, _, r) => match r with | .miss v => some v | _ => none).eraseDups

/-- The faults of the units. DEDUCED (log 64). -/
def badOf (rs : List (Nat × Mask × ARes)) : List ThFault :=
  rs.flatMap fun (_, m, r) => match r with | .bad f ea => faultsOf m f ea | _ => []

/-- The units that found their place. -/
def goodOf (rs : List (Nat × Mask × ARes)) : List (Nat × Mask × ARes) :=
  rs.filter fun (_, _, r) => match r with | .at_ .. | .map .. => true | _ => false

def maskOf (rs : List (Nat × Mask × ARes)) : Mask := rs.foldl (fun m (_, x, _) => m ||| x) 0

/-- The clause breaks for the walks of a pass: nothing of it issues (06 R177). -/
def State.walkBreak (s : State) (p : Pass) (k : AK) (pages : List Nat) : State :=
  (pages.foldl (fun s v => s.startWalk (dieOf p.core) p.g.ctx v k (.group p.core p.gid))
    (s.countCore p.core 0xD pages.length (s.carries p.g.ctx))).breakClause p.core p.gid .walk

/-- The addresses that units of a pass translate. -/
def translated (rs : List (Nat × Mask × ARes)) : List Nat :=
  rs.filterMap fun (_, _, r) => match r with
    | .at_ ea pl => if pl.space == .global then some ea.toNat else none
    | .bad .prot ea | .bad .memLost ea | .bad .dieLost ea => some ea.toNat
    | _ => none

/-- The addresses of those that their homes refuse: their requests have been issued (01 R34). -/
def refusedAt (rs : List (Nat × Mask × ARes)) : List Nat :=
  rs.filterMap fun (_, _, r) => match r with
    | .bad f ea => if f.atHome then some ea.toNat else none
    | _ => none

/-- The units of a pass that issue are events of their threads, numbered from the next number on (07 R203). -/
def State.noteUnits (s : State) (p : Pass) (kind : EvKind) (acq : Option Nat) (rs : List (Nat × Mask × ARes)) : State :=
  rs.zipIdx.foldl (fun t ((_, m, r), n) => match r with
    | .at_ _ place => t.noteThs p.core p.gid m { id := s.nextId + n, ctx := 0, who := [], kind, place, acq }
    | _ => t) s

/-- The translations of a pass that issues are looked up: its L1 TLB misses are counted (13 R342), and the homes that
refuse an access are marked (01 R34); loads and atomics enter the record of events. -/
def State.looks (s : State) (p : Pass) (e : Option (EvKind × Option Nat)) (rs : List (Nat × Mask × ARes)) : State :=
  let s1 := (refusedAt rs).foldl (fun s va => s.touchLost p.core p.g.ctx p.g.walkHits va)
    (s.tlbMissed p.core p.g.ctx p.g.walkHits (translated rs))
  match e with
  | some (kind, acq) => s1.noteUnits p kind acq (goodOf rs)
  | none => s1

/-- The homes of global accesses mark the context's TDM (01 R34). -/
def State.touchPlace (s : State) (p : Pass) (pl : Place) : State :=
  if pl.space == .global then s.touch p.g.ctx (s.homeDie pl.pa) else s

/-! ## Region buffers (07 R221) -/

/-- The byte that a region buffer forwards to threads of a set: the youngest store's of any of them; one that
only some threads of a uniform load have stored goes to all of them. DESIGN CHOICE (log 141). -/
def Region.fwdAt (r : Region) (m : Mask) (pa : PA) : Option Byte :=
  r.buffer.foldl (fun acc e => match e with
    | .store _ _ _ parts => parts.foldl (fun acc (x, q, bs) =>
        if (x &&& m) != 0 && q.host == pa.host && decide (q.addr ≤ pa.addr) && decide (pa.addr < q.addr + bs.length) then
          some (bs.getD (pa.addr - q.addr) 0)
        else acc) acc
    | .fence _ _ => acc) none

/-- The bytes forwarded to a global read. -/
def Group.fwdBytes (g : Group) (m : Mask) (pl : Place) : List (Option Byte) :=
  match g.region with
  | some r => if pl.space == .global then (List.range pl.n).map fun i => r.fwdAt m { pl.pa with addr := pl.pa.addr + i } else []
  | none => []

/-- STG passes in the buffer. DEDUCED (log 54, 55). -/
def Region.storeCount (r : Region) : Nat :=
  (r.buffer.filter fun e => match e with | .store .. => true | .fence .. => false).length

/-! ## Loads (15 R398, R399) -/

/-- What a load instruction is: its space, bytes, sign extension and acquire. -/
structure LdKind where
  space : Space
  n : Nat
  sext : Bool := false
  acq : Bool := false

/-- The registers a load of `n` bytes writes. -/
def destRegs (d n : Nat) : List Nat := (List.range (if n ≤ 4 then 1 else n / 4)).map (d + ·)

/-- Issue one unit of a load. DEDUCED (log 30). -/
def State.issueLoad (s : State) (p : Pass) (m : Ld) (k : LdKind) (tok : Option Nat) (u : Nat × Mask × ARes) : State :=
  let (i, mask, r) := u
  let put (ea : DWord) (pl : Place) (cmap : Bool) (fwd : List (Option Byte)) (s : State) : State :=
    let (id, s1) := s.fresh
    s1.modCore p.core fun c => { c with loads := c.loads ++
      [{ id, gid := p.gid, slot := i, mask, uni := m.u, tok, space := k.space, acq := k.acq, ea, pa := pl.pa,
         srcCore := pl.core, nbytes := k.n, sext := k.sext, dst := m.d.toNat, pc := p.cl.pc, fwd, cmap }] }
  match r with
  | .at_ ea pl => put ea pl false (p.g.fwdBytes mask pl) (s.touchPlace p pl)
  | .map ea off => put ea ⟨.global, p.core, ⟨false, off⟩, k.n⟩ true [] s
  | _ => s

/-- What BYn reads after a token load: the old or the new value of each word is not fixed (log 4).
DEDUCED (log 29). -/
def State.loadLatch (s : State) (m : Ld) (n : Nat) (ok : Mask) : BRes :=
  { lo := if m.u then .uniform ((s.peek 0).setWidth 32) else column fun i => (s.peek i).setWidth 32
    hi := if m.u then .uniform ((s.peek 0).extractLsb' 32 32) else column fun i => (s.peek i).extractLsb' 32 32
    exec := ok, late := .reg m.d, wide := decide (8 ≤ n) }

/-- The body of a load. DEDUCED (log 30). -/
def State.doLoad (s : State) (i : Instr) (m : Ld) (k : LdKind) (p : Pass) (v : SVal) (ue : Mask) : State :=
  let units := unitsOf m.u (p.ex &&& ~~~ue)
  let t := m.t.toNat
  if t < 6 && decide (255 < p.g.tokens.getD t 0 + chanWords m.u p.ex) then
    s.breakClause p.core p.gid (.token t (chanWords m.u p.ex))
  else
    let rs := units.map fun (j, x) => (j, x, s.resolve p k.space .rd (offSw m.off) k.n m.off v j)
    match missesOf rs with
    | _ :: _ => s.walkBreak p .rd (missesOf rs)
    | [] =>
      let good := goodOf rs
      let ok := maskOf good
      let faults := faultsOf ue .memUe 0 ++ badOf rs
      let tok := if t < 6 then some t else none
      let s1 := good.foldl (fun s u => s.issueLoad p m k tok u) (s.looks p (some (.read, if k.acq then some 4 else none)) rs)
      let s2 := if good.isEmpty then s1 else s1.modGroup p.core p.gid fun g =>
        let g1 := (destRegs m.d.toNat k.n).foldl (fun g n => g.setReg n (g.reg n).spread) g
        if t < 6 then { g1 with tokens := listMod g1.tokens t (· + good.length) } else g1.waitThs ok .load
      if t < 6 then { s2 with free := s2.free + 32 }.fin p i ok faults (s.loadLatch m k.n ok)
      else if ok == 0 then s2.fin p i 0 faults
      else s2.finBreak p i ok faults .load

/-- A load (15 R399). -/
def State.load (s : State) (i : Instr) (m : Ld) (k : LdKind) : State :=
  s.prePass i m.u m.u (fun p => [(p.areg m.a (k.space == .global), k.space == .global)]) [] false fun p vs ue =>
    s.doLoad i m k p (vs.getD 0 (.ofShape (.uniform 0))) ue

/-! ## Stores (17 R445, R446) -/

/-- The bytes that a store of `n` bytes takes from its data operand at a thread. -/
def storeBytes (n : Nat) (lo hi : SVal) (i : Nat) : List Byte :=
  if n ≤ 4 then leBytes n (lo.w i).toNat
  else if n = 8 then leBytes 8 (lo.dw i).toNat
  else leBytes 8 (lo.dw i).toNat ++ leBytes 8 (hi.dw i).toNat

/-- The second pair of a quad. -/
def quadUpper : StData → StData
  | .v n => .v (n + 2)
  | d => d

/-- A store's operands: the address, the data, and a quad's second half. -/
def storeSrcs (m : St) (sp : Space) (n : Nat) (p : Pass) : List (SVal × Bool) :=
  (p.areg m.a (sp == .global), sp == .global) :: (p.stData m.d (decide (8 ≤ n)), decide (8 ≤ n))
    :: (if n = 16 then [(p.stData (quadUpper m.d) true, true)] else [])

/-- The parts of at most 8 bytes of a store, in ascending order (06 R164, 07 R205). -/
def storeParts (bs : List Byte) : List (Nat × List Byte) :=
  if bs.length ≤ 8 then [(0, bs)] else [(0, bs.take 8), (8, bs.drop 8)]

/-- The placed parts of the units of a store. -/
def placedParts (n : Nat) (lo hi : SVal) (good : List (Nat × Mask × ARes)) : List (Mask × Place × List Byte) :=
  good.flatMap fun (i, m, r) => match r with
    | .at_ _ pl => (storeParts (storeBytes n lo hi i)).map fun (o, bs) =>
        (m, ⟨pl.space, pl.core, { pl.pa with addr := pl.pa.addr + o }, bs.length⟩, bs)
    | _ => []

/-- The body of a store. A full region buffer faults the executing set before any address is formed (17 R446);
inside a region a store is buffered, and issues at the commit point (07 R221, R222). DEDUCED (log 55). -/
def State.doStore (s : State) (i : Instr) (m : St) (sp : Space) (n : Nat) (p : Pass) (vs : List SVal) (ue : Mask) : State :=
  let sv (k : Nat) := vs.getD k (.ofShape (.uniform 0))
  let glob := sp == .global
  let past := glob && match p.g.region with | some r => decide (256 ≤ r.storeCount) | none => false
  let sw := if sp == .scratch then m.t.toNat else 0
  let rs := (unitsOf m.u (p.ex &&& ~~~ue)).map fun (j, x) => (j, x, s.resolve p sp .wr sw n m.off (sv 0) j)
  if past then s.fin p i 0 (faultsOf ue .memUe 0 ++ faultsOf (p.ex &&& ~~~ue) .regionOverflow 0)
  else match missesOf rs with
  | _ :: _ => s.walkBreak p .wr (missesOf rs)
  | [] =>
    let good := goodOf rs
    let parts := placedParts n (sv 1) (sv 2) good
    let faults := faultsOf ue .memUe 0 ++ badOf rs
    let rel := glob && m.t.getLsbD 0
    let strm := glob && m.t.getLsbD 1
    let s0 := s.looks p none rs
    let s1 :=
      if glob && p.g.region.isSome then
        if parts.isEmpty then s0 else s0.modGroup p.core p.gid fun g =>
          { g with region := g.region.map fun r =>
              { r with buffer := r.buffer ++ [.store rel strm p.cl.pc (parts.map fun (x, pl, bs) => (x, pl.pa, bs))] } }
      else (parts.foldl (fun s (_, pl, _) => s.touchPlace p pl) s0).issueStores p.core p.g.ctx p.g.launch p.gid p.cl.pc rel strm parts
    s1.fin p i (maskOf good) faults

/-- A store (17 R446). -/
def State.store (s : State) (i : Instr) (m : St) (sp : Space) (n : Nat) : State :=
  s.prePass i m.u m.u (storeSrcs m sp n) [] false fun p vs ue => s.doStore i m sp n p vs ue

/-! ## Atomics and reductions (14 R362 to R365, 16 R428) -/

/-- The address and operands of an atomic: D, and the swap operand of CAS. -/
def atomSrcs (m : Atm) (glob : Bool) (p : Pass) : List (SVal × Bool) :=
  (p.areg m.a glob, glob) :: (p.g.srcReg m.d.toNat m.w, m.w)
    :: (if m.aop.toNat = 9 then [(p.g.srcReg (m.d.toNat + if m.w then 2 else 1) m.w, m.w)] else [])

/-- The address of an atomic (04 R119). -/
def State.resAtom (s : State) (m : Atm) (glob : Bool) (p : Pass) (v : SVal) (i : Nat) : ARes :=
  let n : Nat := if m.w then 8 else 4
  let off : Int := m.off.toInt * n
  if glob then s.resGlobal p .rmw n (BitVec.ofInt 64 ((v.dw i).toNat + off))
  else s.resScratch p 0 n (wrap 24 ((v.w i).toNat + off))

/-- Issue one unit of an atomic or a reduction. -/
def State.issueAtom (s : State) (p : Pass) (m : Atm) (glob red : Bool) (d sw : SVal) (u : Nat × Mask × ARes) : State :=
  let (i, mask, r) := u
  match r with
  | .at_ ea pl =>
    let (id, s1) := (s.touchPlace p pl).fresh
    let val (v : SVal) : DWord := if m.w then v.dw i else (v.w i).setWidth 64
    s1.modCore p.core fun c => { c with atoms := c.atoms ++
      [{ id, ctx := p.g.ctx, launch := p.g.launch, gid := p.gid, slot := i, mask, uni := m.u, red, space := if glob then .global else .scratch, aop := m.aop,
         w := m.w, ea, pa := pl.pa, tgtCore := pl.core, opnd := val d, swap := val sw, dst := m.d.toNat, pc := p.cl.pc }] }
  | _ => s

/-- Whether the bytes of a place are uncorrectable at the home of a global access, or in a scratchpad. -/
def State.ueAt (s : State) (pl : Place) : Bool :=
  if pl.space == .global then s.ueBytes pl.pa pl.n else s.scratchUeAt pl.core pl.pa.addr pl.n

/-- The faults of the units of an atomic or a reduction inside a region, where none of them happens (10 R286):
for an atomic that of the data comes before the region's (11 R294); that of a reduction's data is never its
pass's (16 R429). DEDUCED (log 17). -/
def State.regionAtom (s : State) (red : Bool) (good : List (Nat × Mask × ARes)) : List ThFault :=
  good.flatMap fun (_, m, r) => match r with
    | .at_ ea pl => if !red && s.ueAt pl then faultsOf m .memUe ea else faultsOf m .atomicInRegion 0
    | _ => faultsOf m .atomicInRegion 0

/-- The body of ATG, ATS, REDG and REDS. DEDUCED (log 17). -/
def State.doAtom (s : State) (i : Instr) (m : Atm) (glob red : Bool) (p : Pass) (vs : List SVal) (ue : Mask) : State :=
  let sv (k : Nat) := vs.getD k (.ofShape (.uniform 0))
  let rs := (unitsOf m.u (p.ex &&& ~~~ue)).map fun (j, x) => (j, x, s.resAtom m glob p (sv 0) j)
  match missesOf rs with
  | _ :: _ => s.walkBreak p .rmw (missesOf rs)
  | [] =>
    let good := goodOf rs
    let ok := maskOf good
    let faults := faultsOf ue .memUe 0 ++ badOf rs
    if p.g.region.isSome then s.fin p i 0 (faults ++ s.regionAtom red good)
    else
    let s1 := good.foldl (fun s u => s.issueAtom p m glob red (sv 1) (sv 2) u) (s.looks p (some (.rmw, none)) rs)
    if red || ok == 0 then s1.fin p i ok faults
    else (s1.modGroup p.core p.gid fun g => g.waitThs ok .atomic).finBreak p i ok faults .load

/-- ATG, ATS, REDG or REDS. -/
def State.atom (s : State) (i : Instr) (m : Atm) (glob red : Bool) : State :=
  s.prePass i m.u m.u (atomSrcs m glob) [] false fun p vs ue => s.doAtom i m glob red p vs ue

/-! ## PFG (16 R420) -/

/-- One prefetch: the line enters its home L2 under the class's ways and, for .L1, the L1 that caches the launch's
accesses. Nothing is fetched where a load would miss or fault, or while the power controller holds the request
back (10 R292). DEDUCED (log 116). -/
def State.prefetch (s : State) (p : Pass) (l1 : Bool) (ea : Nat) : State :=
  match s.translate p.core p.g.ctx p.g.walkHits .rd ea with
  | .ok pa =>
    let w := s.workOf p.g.ctx
    let s1 := s.touch p.g.ctx (s.homeDie pa)
    if s1.ueByte pa || s1.hbmHolds w.h pa 1 then s1
    else
      let s2 := s1.l2Read w pa 1
      if l1 && !s2.l1Bypassed p.core p.g.launch then s2.fetchLine (s2.l1Of p.core) pa else s2
  | _ => s

/-! ## The instructions -/

def execLdgB8 (m : Ld) (s : State) : Out := .next (s.load (.ldgB8 m) m { space := .global, n := 1 })
def execLdgB16 (m : Ld) (s : State) : Out := .next (s.load (.ldgB16 m) m { space := .global, n := 2 })
def execLdgB32 (m : Ld) (s : State) : Out := .next (s.load (.ldgB32 m) m { space := .global, n := 4 })
def execLdgB64 (m : Ld) (s : State) : Out := .next (s.load (.ldgB64 m) m { space := .global, n := 8 })
def execLdgB128 (m : Ld) (s : State) : Out := .next (s.load (.ldgB128 m) m { space := .global, n := 16 })
def execLdgS8 (m : Ld) (s : State) : Out := .next (s.load (.ldgS8 m) m { space := .global, n := 1, sext := true })
def execLdgS16 (m : Ld) (s : State) : Out := .next (s.load (.ldgS16 m) m { space := .global, n := 2, sext := true })
def execLdgAcq (m : Ld) (s : State) : Out := .next (s.load (.ldgAcq m) m { space := .global, n := 4, acq := true })
def execLdsB8 (m : Ld) (s : State) : Out := .next (s.load (.ldsB8 m) m { space := .scratch, n := 1 })
def execLdsB16 (m : Ld) (s : State) : Out := .next (s.load (.ldsB16 m) m { space := .scratch, n := 2 })
def execLdsB32 (m : Ld) (s : State) : Out := .next (s.load (.ldsB32 m) m { space := .scratch, n := 4 })
def execLdsB64 (m : Ld) (s : State) : Out := .next (s.load (.ldsB64 m) m { space := .scratch, n := 8 })
def execLdsB128 (m : Ld) (s : State) : Out := .next (s.load (.ldsB128 m) m { space := .scratch, n := 16 })
def execLda (m : Ld) (s : State) : Out := .next (s.load (.lda m) m { space := .acc, n := 4 })

def execStgB8 (m : St) (s : State) : Out := .next (s.store (.stgB8 m) m .global 1)
def execStgB16 (m : St) (s : State) : Out := .next (s.store (.stgB16 m) m .global 2)
def execStgB32 (m : St) (s : State) : Out := .next (s.store (.stgB32 m) m .global 4)
def execStgB64 (m : St) (s : State) : Out := .next (s.store (.stgB64 m) m .global 8)
def execStgB128 (m : St) (s : State) : Out := .next (s.store (.stgB128 m) m .global 16)
def execStsB8 (m : St) (s : State) : Out := .next (s.store (.stsB8 m) m .scratch 1)
def execStsB16 (m : St) (s : State) : Out := .next (s.store (.stsB16 m) m .scratch 2)
def execStsB32 (m : St) (s : State) : Out := .next (s.store (.stsB32 m) m .scratch 4)
def execStsB64 (m : St) (s : State) : Out := .next (s.store (.stsB64 m) m .scratch 8)
def execStsB128 (m : St) (s : State) : Out := .next (s.store (.stsB128 m) m .scratch 16)
def execSta (m : St) (s : State) : Out := .next (s.store (.sta m) m .acc 4)

/-- PFG prefetches the line of each address. DEDUCED (log 116). -/
def execPfg (u l1 : Bool) (a : AReg) (off : Off) (s : State) : Out :=
  let i : Instr := .pfg u l1 a off
  .next (s.prePass i u u (fun p => [(p.areg a true, true)]) [] false fun p vs ue =>
    let v := vs.getD 0 (.ofShape (.uniform 0))
    let ok := p.ex &&& ~~~ue
    let eas := (unitsOf u ok).map fun (j, _) => wrap 64 ((v.dw j).toNat + offGlob off 128)
    let s1 := eas.foldl (fun s ea => s.prefetch p l1 ea) (s.missedAll p.core p.g.ctx p.g.walkHits eas)
    s1.fin p i ok (faultsOf ue .memUe 0))

def execAtg (m : Atm) (s : State) : Out := .next (s.atom (.atg m) m true false)
def execAts (m : Atm) (s : State) : Out := .next (s.atom (.ats m) m false false)
def execRedg (m : Atm) (s : State) : Out := .next (s.atom (.redg m) m true true)
def execReds (m : Atm) (s : State) : Out := .next (s.atom (.reds m) m false true)

end Sys2Proof.Machine
end

