-- ==== Sys2Proof/Machine/Sync.lean ====
section
/-! DEFINITION. FENCE, WAITC and WAITA (07 R207 to R219; 15 R386, R387; 17 R452 to R454). -/

namespace Sys2Proof.Machine

/-! ## FENCE -/

/-- The threads of a set whose reductions met an uncorrectable word (16 R429). -/
def Group.redUeMask (g : Group) (m : Mask) : Mask := maskWhere fun i => m.getLsbD i && (g.th i).redUe.isSome

/-- Raise the recorded errors of reductions of a set of threads: FPC names the reduction, and those that a debugger
steps halt at the instruction that faults (13 R351). -/
def State.raiseRed (s : State) (c gid : Nat) (m : Mask) : State :=
  match s.group? c gid with
  | none => s
  | some g =>
    let bad := g.redUeMask m
    if bad == 0 then s
    else
      let at_ (i : Nat) : DWord × DWord := ((g.th i).redUe).getD (0, 0)
      (((s.stepFault c gid bad).modGroup c gid fun g => g.modThs bad fun _ t => { t with redUe := none }).raise c gid
        ⟨0, (at_ (lowSlot bad)).1, 0, (slotsOf bad).map fun i => ⟨i, .memUe, (at_ i).2⟩⟩).settle c gid

/-- A FENCE that waits: its threads are past it and not eligible. -/
def State.putFence (s : State) (p : Pass) (m : Mask) (kind : BitVec 2) (scope : BitVec 3) : State :=
  let (ls, as, ws) := (s.core p.core).fenceNeeds p.gid m kind
  let (id, s1) := s.fresh
  (s1.modCore p.core fun k => { k with fences := k.fences ++
    [{ id, gid := p.gid, ctx := p.g.ctx, launch := p.g.launch, mask := m, kind, scope, loads := ls, atoms := as, rels := ws }] }).modGroup p.core p.gid
      fun g => g.waitThs m .fence

/-- The halves of a fence that act now: inside a region a release half is only recorded (07 R221). -/
def Group.fenceKind (g : Group) (kind : BitVec 2) : BitVec 2 := if g.region.isSome then kind &&& 1#2 else kind

/-- Record the release half of a fence in a region's buffer. DEDUCED (log 54). -/
def Group.recordFence (g : Group) (kind : BitVec 2) (scope : BitVec 3) (m : Mask) : Group :=
  if fenceRel kind then { g with region := g.region.map fun r => { r with buffer := r.buffer ++ [.fence scope m] } } else g

/-- FENCE orders the accesses of its threads. -/
def execFence (u : Bool) (kind : BitVec 2) (scope : BitVec 3) (s : State) : Out :=
  let i : Instr := .fence u kind scope
  .next (s.laneFront { i, u } fun p _ _ =>
    let bad := p.g.redUeMask p.ex
    let ok := p.ex &&& ~~~bad
    let now := p.g.fenceKind kind
    let fused := p.fused s
    let s1 := s.modGroup p.core p.gid fun g => g.recordFence kind scope ok
    let s2 := if ok == 0 then s1.fin p i 0 []
      else if s1.fenceIdle p.core p.gid ok now (scopeActs fused scope) then
        (s1.fenceAct p.core p.gid ok s1.nextId now scope fused).fin p i ok []
      else (s1.putFence p ok now scope).finBreak p i ok [] .load
    s2.raiseRed p.core p.gid bad)

/-! ## WAITC -/

/-- WAITC waits until at most n operations of a class are outstanding (07 R218, 17 R454).
DEDUCED (log 57). -/
def execWaitc (u : Bool) (a : Src) (cls : BitVec 2) (s : State) : Out :=
  let i : Instr := .waitc u a cls
  let o : LOp := { i, u, srcs := [(a, false)], forceUni := true }
  .next (s.laneFront o fun p vs ue =>
    let n := ((sv vs 0).w (lowSlot p.ex)).toNat
    let k := cls.toNat
    if ue != 0 then s.fin p i 0 (faultsOf ue .memUe 0)
    else match p.g.asyncFaults.find? (·.cls == k) with
      | some f => s.stopAsync p.core p.gid p.g p.ex f
      | none =>
        if (p.g.cnt k).toNat ≤ n then
          let s1 := if p.g.globWr.getLsbD k then s.l1Acquire (s.l1Of p.core) else s
          (s1.popAll p o).fin p i p.ex []
        else s.breakClause p.core p.gid (.waitc k n))

/-! ## WAITA -/

/-- The condition codes of WAITA and of wait conditions (09 R259). -/
def condHolds (cond : Nat) (w d : Word) : Bool :=
  match cond with
  | 0 => w == d
  | 1 => w != d
  | 2 => decide (d.toNat ≤ w.toNat)
  | 3 => decide (w.toNat < d.toNat)
  | 4 => decide (d.toInt ≤ w.toInt)
  | _ => decide (w.toInt < d.toInt)

/-- What one read of WAITA answers: the word, or that it cannot be made yet (an earlier access of the thread to it
has not taken effect, or the power controller holds it back), or an uncorrectable word. -/
inductive WRead where
  | word (w : Word)
  | early
  | ue (ea : DWord)

/-- The read of one unit, at the home slice (06 R187), after the thread's own accesses to the word
(07 R211); its L1 keeps no older copy, and a word that a paused dirty log holds is not read yet
(12 R329). -/
def State.waitRead (s : State) (p : Pass) (m : Mask) (r : ARes) : WRead × State :=
  match r with
  | .at_ ea pl =>
    let w := s.workOf p.g.ctx
    if s.storeHeld p.core p.gid m pl || s.hbmHolds w.h pl.pa 4 then (.early, s)
    else
      let s0 := ((s.touchPlace p pl).serveMet p.core p.gid m pl s.nextId).l2Read w pl.pa 4
      let t := s0.grant (s.l1Of p.core) pl.pa
      let s1 := t.dropCopies (s.l1Of p.core) pl.pa 4
      let f := p.g.fwdBytes m pl
      if s0.heldMore t then (.early, s0)
      else if (List.range 4).any fun i => (f.getD i none).isNone && s1.ueByte { pl.pa with addr := pl.pa.addr + i } then (.ue ea, s1)
      else (.word (BitVec.ofNat 32 (leNat ((s1.homeBytes pl.pa 4).mapIdx fun i b => (f.getD i none).getD b))), s1)
  | .map _ off => (.word (BitVec.ofNat 32 (leNat (s.mapBytes (s.ctx p.g.ctx).vd off 4))), s)
  | _ => (.early, s)

/-- The reads of the units of a pass, in order. -/
def State.waitReads (s : State) (p : Pass) (rs : List (Nat × Mask × ARes)) : List (Nat × Mask × WRead) × State :=
  rs.foldl (fun (acc, s) (i, m, r) => let (x, s1) := s.waitRead p m r; (acc ++ [(i, m, x)], s1)) ([], s)

/-- The reads that satisfy a WAITA enter the record of events (07 R207, R219). -/
def State.noteWaits (s : State) (p : Pass) (acq : Bool) (rs : List (Nat × Mask × ARes)) (good : List (Nat × Mask × Word)) : State :=
  good.foldl (fun s (j, m, w) => match rs.find? (·.1 == j) with
    | some (_, _, .at_ _ place) => s.noteNew p.core p.gid m fun id =>
        { id, ctx := 0, who := [], kind := .syncRead, place, got := leBytes 4 w.toNat, acq := if acq then some 4 else none }
    | _ => s) s

/-- The end of a WAITA pass in which some thread still waits: those that committed go on in a later
clause. DEDUCED (log 51). -/
def State.waitBreak (s : State) (p : Pass) (i : Instr) (ok : Mask) (faults : List ThFault) : State :=
  let s1 := s.passStep p.core p.gid (lenOf i) (finfoWord (headOf i)) ok faults {} fun _ => p.cl.after (lenOf i)
  match (s1.group? p.core p.gid).bind (·.clause) with
  | none => s1
  | some _ => s1.breakClause p.core p.gid (.waita s.time)

/-- WAITA waits on a word of global memory. DEDUCED (log 56). -/
def execWaita (u nw : Bool) (d : Dst) (a : Src) (acq : Bool) (cond : BitVec 3) (s : State) : Out :=
  let i : Instr := .waita u nw d a acq cond
  let o : LOp := { i, u, nw, dst := .v d false, srcs := [(a, true), (dstSrc d, false)] }
  .next (s.laneFront o fun p vs ue =>
    let rs := (unitsOf u (p.ex &&& ~~~ue)).map fun (j, m) => (j, m, s.resGlobal p .rd 4 ((sv vs 0).dw j))
    match missesOf rs with
    | _ :: _ => s.walkBreak p .rd (missesOf rs)
    | [] =>
      let (xs, s0) := (s.looks p none rs).waitReads p (goodOf rs)
      let ueF := xs.flatMap fun (_, m, x) => match x with | .ue ea => faultsOf m .memUe ea | _ => []
      let faults := faultsOf ue .memUe 0 ++ badOf rs ++ ueF
      let good := xs.filterMap fun (j, m, x) => match x with
        | .word w => if condHolds cond.toNat w ((sv vs 1).w j) then some (j, m, w) else none
        | _ => none
      let got := good.foldl (fun m (_, x, _) => m ||| x) 0
      let waiting := p.ex &&& ~~~(got ||| faultMask faults)
      let ok := if o.hasChan && (!faults.isEmpty || waiting != 0) then 0 else got
      let s1 := if ok == 0 then s0 else s0.noteWaits p acq rs good
      let lo : Shape := if u then .uniform ((good.map (·.2.2)).headD 0) else column fun t =>
        match good.find? (·.1 == t) with | some (_, _, w) => w | none => 0
      let s2 := if ok == 0 then s1 else ((s1.popAll p o).writeDst p o ok (ok == p.g.active && faults.isEmpty) lo (.uniform 0) none)
      let s3 := if ok != 0 && acq then s2.l1Acquire (s2.l1Of p.core) else s2
      if waiting == 0 then s3.fin p i ok faults { lo, exec := ok, late := o.late }
      else s3.waitBreak p i ok faults)

/-- WAITA_WAKE: a group that waits at a WAITA is ready again and reads anew (17 R453). DEDUCED (log 56). -/
def execWaitaWake (core gid : Nat) (s : State) : Out :=
  .next (s.modGroup core gid fun g => match g.wait with
    | .waita _ => { g with wait := .none }
    | _ => g)

end Sys2Proof.Machine
end

