-- ==== Sys2Proof/Machine/Complete.lean ====
section
/-! DEFINITION. Accesses that end after their pass (06 R185 to R188; 14 R363 to R365; 15 R387, R399;
16 R429; 17 R447): data returns, atomics and reductions take effect, fences complete, stores take
effect, L1 lines are evicted. An event that cannot arise leaves the state as it is (log 3). -/

namespace Sys2Proof.Machine

/-! ## Loads return their data -/

/-- Sign or zero extension of the loaded bytes to a 32-bit word. -/
def extendLoad (sext : Bool) (n w : Nat) : Word :=
  if sext then BitVec.ofInt 32 (sextInt (8 * n) w) else BitVec.ofNat 32 w

/-- Word `k` of loaded data. DEDUCED (log 41). -/
def PLoad.word (l : PLoad) (bs : List Byte) (k : Nat) : Word :=
  if l.nbytes < 4 then extendLoad l.sext l.nbytes (leNat bs) else BitVec.ofNat 32 (fieldAt bs (4 * k) 4)

/-- Write one word of a result into a register: one slot, or all of them (03 R58, R93). -/
def Group.putWord (g : Group) (n : Nat) (uni : Bool) (slot : Nat) (w : Word) : Group :=
  g.setReg n ((g.reg n).write uni false (1#32 <<< slot) none fun _ => w)

/-- Write the good words of a load that are not written yet. DEDUCED (log 58). -/
def Group.putLoad (g : Group) (l : PLoad) (bs : List Byte) (bad : List Nat) : Group :=
  (destRegs l.dst l.nbytes).foldl (fun g n =>
    if bad.contains (n - l.dst) || l.done.contains (n - l.dst) then g else g.putWord n l.uni l.slot (l.word bs (n - l.dst))) g

/-- Threads of a set whose token loads are all in may execute EXIT again (15 R381). -/
def Group.wakeExit (g : Group) (k : Core) (gid : Nat) (m : Mask) : Group :=
  g.modThs m fun i t => if t.wait == .exitLoads && (k.loadsOf gid (1#32 <<< i)).isEmpty then { t with wait := .none } else t

/-- End the wait of threads past an instruction. -/
def Group.wakeThs (g : Group) (m : Mask) (w : TWait) : Group :=
  g.modThs m fun _ t => if t.wait == w then { t with wait := .none } else t

/-- The opcode and FINFO of a load in flight (04 R125). DEDUCED (log 65). -/
def PLoad.opcode (l : PLoad) : Nat :=
  let size := if l.nbytes = 1 then 0 else if l.nbytes = 2 then 1 else if l.nbytes = 4 then 2 else if l.nbytes = 8 then 3 else 4
  match l.space with
  | .acc => 0x95
  | .scratch => 0x90 + size
  | .global => if l.acq then 0x87 else if l.sext then 0x85 + size else 0x80 + size
def PLoad.finfo (l : PLoad) : Word := BitVec.ofNat 32 (256 * l.opcode + l.dst)

/-- The opcode and FINFO of an atomic in flight (04 R125). DEDUCED (log 65). -/
def PAtom.opcode (a : PAtom) : Nat := 0xA0 + (if a.space == .global then 0 else 1) + (if a.red then 2 else 0)
def PAtom.finfo (a : PAtom) : Word := BitVec.ofNat 32 (256 * a.opcode + a.dst)

/-- Threads that were past an access go back to it and fault (14 R364; 06 R195, R199). -/
def State.faultBack (s : State) (c gid : Nat) (m : Mask) (w : TWait) (f : FCode) (pc : DWord) (finfo : Word) (ea : DWord) : State :=
  ((s.modGroup c gid fun g => (g.wakeThs m w).modThs m fun _ t => { t with pc }).raise c gid
    ⟨0, pc, finfo, faultsOf m f ea⟩).settle c gid

/-- The served data of a load is written. -/
def State.returnLoad (s : State) (c : Nat) (l : PLoad) (bs : List Byte) (bad : List Nat) : State :=
  let s1 := s.modCore c fun k => { k with loads := k.loads.filter (·.id != l.id) }
  match l.tok with
  | some t =>
    let k := s1.core c
    s1.modGroup c l.gid fun g =>
      let g1 := g.putLoad l bs bad
      let g2 := { g1 with tokens := listMod g1.tokens t (· - 1) }
      let g3 := if bad.isEmpty then g2 else g2.modThs l.mask fun _ x => { x with tokErr := x.tokErr ++ [⟨l.id, t, l.code, l.pc, l.ea⟩] }
      g3.wakeExit k l.gid l.mask
  | none =>
    if bad.isEmpty then s1.modGroup c l.gid fun g => (g.putLoad l bs bad).wakeThs l.mask .load
    else s1.faultBack c l.gid l.mask .load l.code l.pc l.finfo l.ea

/-- One word of a token load that has its value is written before the rest (03 R89). -/
def State.loadWord (s : State) (c id n : Nat) : State :=
  match (s.core c).loads.find? (·.id == id) with
  | none => s
  | some l =>
    match l.tok, l.data, s.group? c l.gid with
    | some _, some (bs, bad), some g =>
      if !(destRegs l.dst l.nbytes).contains (l.dst + n) || bad.contains n || l.done.contains n || (s.core c).bHeld l.gid g (l.dst + n) then s
      else (s.modGroup c l.gid fun g => g.putWord (l.dst + n) l.uni l.slot (l.word bs n)).modCore c fun k =>
        { k with loads := k.loads.map fun x => if x.id = id then { x with done := n :: x.done } else x }
    | _, _, _ => s

/-- The upper half of a 16-byte global load is taken before the lower one (07 R205). -/
def State.loadUpper (s : State) (c id : Nat) : State :=
  match (s.core c).loads.find? fun l => l.id == id && l.space == .global && l.nbytes == 16 && l.half.isNone && l.data.isNone with
  | none => s
  | some l =>
    if s.loadHeld c l || s.metHeld c l.whose l.place id then s
    else (s.serveFor c l.whose l.place id).serveHalf c l true

/-- A plain load without a value that is in a data race: nothing bounds what it returns (07 R223, log 4).
DESIGN CHOICE (log 120). -/
def State.loadRace (s : State) (c id : Nat) : State :=
  if !s.inRace id then s
  else s.modCore c fun k => { k with loads := k.loads.map fun l =>
    if l.id = id && l.data.isNone && !l.acq && !l.cmap then { l with racy := true } else l }

/-- LOAD_DATA_RETURN: a load takes its value, or one half of a 16-byte one, and unless only that is meant
its data is written (06 R164, R185; 15 R399). DESIGN CHOICE (log 3). DEDUCED (log 41, 58). -/
def execLoadDataReturn (core id : Nat) (serveOnly : Bool) (s : State) : Out :=
  match (s.core core).loads.find? (·.id == id) with
  | none => .next s
  | some l =>
    if l.data.isNone && (s.loadHeld core l || s.metHeld core l.whose l.place id) then .next s
    else
      let s1 := if l.data.isNone then (if serveOnly then s.serveInOrder core l else (s.serveFor core l.whose l.place id).serveWhole core l)
        else s
      if serveOnly then .next (s1.sweep core)
      else
        match (s1.core core).loads.find? (·.id == id), s1.group? core l.gid with
        | some l1, some g =>
          if (destRegs l.dst l.nbytes).any fun n => (s1.core core).bHeld l.gid g n then .next s
          else match l1.data with
            | some (bs, bad) => .next ((s1.returnLoad core l1 bs bad).sweep core)
            | none => .next s1
        | _, _ => .next s1

/-! ## Atomics and reductions (14 R363) -/

/-- Op(old, d) on n-bit values. -/
def atomOp (aop n old d sw : Nat) : Nat :=
  let m := 2 ^ n
  match aop with
  | 0 => (old + d) % m
  | 1 => min old d
  | 2 => max old d
  | 3 => if sextInt n old ≤ sextInt n d then old else d
  | 4 => if sextInt n old ≤ sextInt n d then d else old
  | 5 => old &&& d
  | 6 => old ||| d
  | 7 => old ^^^ d
  | 8 => d
  | 9 => if old = d then sw else old
  | 10 => if old ≥ d then 0 else old + 1
  | 11 => if old = 0 ∨ old > d then d else old - 1
  | _ => atomFadd old d

/-- Whether an atomic has to wait for an earlier access of its threads, or a recorded release of theirs. -/
def Core.atomBlocked (k : Core) (c : Nat) (a : PAtom) : Bool :=
  k.stores.any (fun w => shareThread w.whose a.whose && w.id < a.id && w.place.tied c a.place)
    || k.atoms.any (fun b => shareThread b.whose a.whose && b.id < a.id && b.place.tied c a.place)
    || k.behindRelease a.whose a.id

/-- How an atomic's event ends: not yet, or with a fault and the target left as it is, or with its old value. -/
inductive AtomRes where
  | held
  | bad (f : FCode) (s : State)
  | done (old : Nat) (s : State)

/-- The value that an atomic writes. -/
def PAtom.newValue (a : PAtom) (old : Nat) : Nat := atomOp a.aop.toNat (8 * a.nbytes) old a.opnd.toNat a.swap.toNat

/-- The record takes what an atomic read and wrote (07 R208). -/
def State.atomSeen (s : State) (a : PAtom) (old : Nat) : State := s.noteGot a.id (leBytes a.nbytes old) (leBytes a.nbytes (a.newValue old))

/-- The indivisible event of an atomic. -/
def State.atomEvent (s : State) (c : Nat) (a : PAtom) : AtomRes :=
  if (s.core c).atomBlocked c a || s.metHeld c a.whose a.place a.id || (a.space == .global && s.hbmStopped a.ctx a.pa) then .held
  else
    let n := a.nbytes
    let s1 := s.serveFor c a.whose a.place a.id
    match a.space with
    | .global =>
      match s1.checkPa (s1.ctx a.ctx).vd a.pa with
      | some f => .bad f s1
      | none =>
      let s2 := s1.dropLine (s1.l1Of c) a.pa
      let s3 := (wordsTouched a.pa.addr n).foldl (fun s w => s.surrender ⟨a.pa.host, 4 * w⟩) s2
      if s.heldMore s3 then .held
      else if s3.ueBytes a.pa n then .bad .memUe s3
      else
        let old := leNat (s3.homeBytes a.pa n)
        let s4 := s3.homeWrite (s3.workOf a.ctx) a.pa (leBytes n (a.newValue old))
        if s.heldMore s4 then .held else .done old (s4.atomSeen a old)
    | _ =>
      if s1.scratchUeAt a.tgtCore a.pa.addr n then .bad .memUe s1
      else
        let old := leNat (s1.scratchGet a.tgtCore a.pa.addr n)
        let s2 := if a.tgtCore = c then a.whose.foldl (fun s (g, m) => s.keepOld c g m a.id a.pa.addr n) s1 else s1
        .done old ((s2.scratchSet a.tgtCore a.pa.addr (leBytes n (a.newValue old))).atomSeen a old)

def State.dropAtom (s : State) (c id : Nat) : State := s.modCore c fun k => { k with atoms := k.atoms.filter (·.id != id) }

/-- Registers that the old value of an atomic goes to. -/
def PAtom.dests (a : PAtom) : List Nat := if a.w then [a.dst, a.dst + 1] else [a.dst]

/-- The old value of an atomic is written. -/
def Group.putOld (g : Group) (a : PAtom) (old : Nat) : Group :=
  let g1 := g.putWord a.dst a.uni a.slot (BitVec.ofNat 32 old)
  (if a.w then g1.putWord (a.dst + 1) a.uni a.slot (BitVec.ofNat 32 (old / 2 ^ 32)) else g1).wakeThs a.mask .atomic

/-- ATOMIC_RESULT_RETURN: an ATG or ATS takes effect and its old value is written (14 R363 to R365). -/
def execAtomicResultReturn (core id : Nat) (s : State) : Out :=
  match (s.core core).atoms.find? (fun a => a.id == id && !a.red) with
  | none => .next s
  | some a =>
    match s.group? core a.gid with
    | none => .next s
    | some g =>
      if a.dests.any fun n => (s.core core).bHeld a.gid g n then .next s
      else match s.atomEvent core a with
        | .held => .next s
        | .bad f s1 => .next (((s1.dropAtom core id).faultBack core a.gid a.mask .atomic f a.pc a.finfo a.ea).sweep core)
        | .done old s1 => .next (((s1.dropAtom core id).modGroup core a.gid fun g => g.putOld a old).sweep core)

/-- An uncorrectable word is recorded against the threads of a reduction (16 R429). -/
def State.recordRed (s : State) (c : Nat) (a : PAtom) : State :=
  a.whose.foldl (fun s (gid, m) => s.modGroup c gid fun g =>
    g.modThs m fun _ t => { t with redUe := t.redUe.orElse fun _ => some (a.pc, a.ea) }) s

/-- REDUCTION_TAKES_EFFECT: a REDG or REDS takes effect; an uncorrectable word is recorded against
its threads (16 R429), and a home that refuses the access stops the context (06 R195). -/
def execReductionTakesEffect (core id : Nat) (s : State) : Out :=
  match (s.core core).atoms.find? (fun a => a.id == id && a.red) with
  | none => .next s
  | some a =>
    match s.atomEvent core a with
    | .held => .next s
    | .bad f s1 =>
      let s2 := s1.dropAtom core id
      .next ((if f = .memUe then s2.recordRed core a else s2.lateFault a.ctx ⟨core, a.gid, lowSlot a.mask, a.pc⟩ f).sweep core)
    | .done _ s1 => .next ((s1.dropAtom core id).sweep core)

/-! ## Fences complete (15 R387) -/

/-- Whether everything a fence waits for is done, the recorded releases before it included. -/
def Core.fenceReady (k : Core) (f : PFence) : Bool :=
  f.loads.all (fun i => k.loads.all (·.id != i)) && f.atoms.all (fun i => k.atoms.all (·.id != i))
    && f.rels.all (fun i => k.stores.all (·.id != i)) && !(fenceRel f.kind && k.behindRelease f.whose f.id)

/-- Whether a fence of a core acts for fused L1s (06 R186, R189). -/
def State.fenceFused (s : State) (c gid : Nat) : Bool :=
  match s.group? c gid with
  | some g => (s.blockOf c g).fused
  | none => (s.core c).fused

/-- FENCE_COMPLETE: the L1 actions of a fence, and its threads go on; an error that a reduction before it has
recorded is raised (16 R429). A release waits for stored words that a paused dirty log or the power controller holds
(12 R329, 10 R292). -/
def execFenceComplete (core id : Nat) (s : State) : Out :=
  match (s.core core).fences.find? (·.id == id) with
  | none => .next s
  | some f =>
    if !(s.core core).fenceReady f || (fenceRel f.kind && s.releaseHeld core f.whose f.id) then .next s
    else
      let fused := s.fenceFused core f.gid
      let s1 := f.whose.foldl (fun s (gid, m) => s.fenceAct core gid m f.id f.kind f.scope fused) s
      if fenceRel f.kind && scopeActs fused f.scope && s1.l1Owes (s1.l1Of core) f.ctx then .next s
      else
        let s2 := s1.modCore core fun k => { k with fences := k.fences.filter (·.id != id) }
        let s3 := if f.bg then s2
          else f.whose.foldl (fun s (gid, m) => (s.modGroup core gid fun g => g.wakeThs m .fence).raiseRed core gid m) s2
        .next (s3.sweep core)

/-! ## Stores take effect (06 R187, 07 R207, 17 R447) -/

/-- Whether two queued stores are the halves of one 16-byte release store, which no order ties (07 R205, 17 R447). -/
def PStore.twin (x w : PStore) : Bool :=
  x.rel && w.rel && x.id + 1 == w.id && x.whose == w.whose && x.pc == w.pc && x.pa.host == w.pa.host
    && x.bytes.length == 8 && w.bytes.length == 8 && x.pa.addr % 16 == 0 && x.pa.addr + 8 == w.pa.addr

/-- Whether a queued store has to wait for an earlier access of its threads. -/
def Core.storeWaits (k : Core) (c : Nat) (w : PStore) : Bool :=
  let mine (ts : List (Nat × Mask)) (id : Nat) : Bool := shareThread ts w.whose && id < w.id
  k.stores.any (fun x => mine x.whose x.id && !x.twin w && (w.rel || x.place.tied c w.place))
    || k.atoms.any (fun a => mine a.whose a.id && (w.rel || a.place.tied c w.place))
    || (w.rel && k.loads.any fun l => mine l.whose l.id && l.data.isNone)
    || w.after.any (fun i => k.stores.any (·.id == i))
    || k.behindRelease w.whose w.id

/-- Whether a queued store waits for an earlier load that cannot take its value yet. -/
def State.storeLate (s : State) (c : Nat) (w : PStore) : Bool :=
  s.metHeld c w.whose w.place w.id || (w.rel && s.releaseHeld c w.whose w.id)

/-- A queued store to global memory takes effect. A streaming one, at its home (06 R188), and one that its L1
does not cache or has no room for; any other, in its L1, from which it is registered later: a release store once every word stored before it has reached its
home, so that readers of its own core may see it first (07 R224). An 8-byte store of which the L1 owns one half
only is registered at once (07 R205). -/
def State.applyGlobal (s : State) (c : Nat) (w : PStore) : State :=
  let h := s.l1Of c
  let o : Origin := ⟨c, w.gid, lowSlot w.mask, w.pc⟩
  let s1 := if w.rel then s.l1Release h else s
  if w.strm then
    match s1.checkPa (s1.ctx w.ctx).vd w.pa with
    | some f => s1.lateFault w.ctx o f
    | none => ((s1.dropLine h w.pa).homeWrite (s1.workOf w.ctx) w.pa w.bytes).l2Demote w.pa
  else
    let s2 := s1.l1MakeRoom h w.pa
    if s2.l1Bypassed c w.launch || s2.l1Full h w.pa then
      match s2.checkPa (s2.ctx w.ctx).vd w.pa with
      | some f => s2.lateFault w.ctx o f
      | none => s2.homeWrite (s2.workOf w.ctx) w.pa w.bytes
    else
    let tear := (s2.core h).wouldTear w.pa w.bytes.length
    let s3 := s2.l1Store h w.ctx o w.pa w.bytes
    if tear then (wordsTouched w.pa.addr w.bytes.length).foldl (fun s x => s.grant h ⟨w.pa.host, 4 * x⟩) s3 else s3

/-- A queued store takes effect; with a release store the engines see the scratchpad stores before it (07 R216). -/
def State.applyStore (s : State) (c : Nat) (w : PStore) : State :=
  let s1 := s.serveFor c w.whose w.place w.id
  match w.space with
  | .global =>
    let s2 := s1.applyGlobal c w
    if w.rel then s2.modCore c fun k => w.whose.foldl (fun k (g, m) => k.released g m w.id) k else s2
  | .scratch =>
    let s2 := if w.tgtCore = c then w.whose.foldl (fun s (g, m) => s.keepOld c g m w.id w.pa.addr w.bytes.length) s1 else s1
    s2.scratchSet w.tgtCore w.pa.addr w.bytes
  | .acc => s1.accSet w.tgtCore w.ctx (w.pa.addr / 4) (BitVec.ofNat 32 (leNat w.bytes))

/-- Whether the power controller holds back a queued store, which would reach a home whose L2 does not hold its line
(10 R292). DESIGN CHOICE (log 102). -/
def State.storeStopped (s : State) (c : Nat) (w : PStore) : Bool :=
  let h := s.l1Of c
  w.space == .global && s.hbmHolds (s.clsOf w.ctx) w.pa w.bytes.length
    && (w.strm || s.l1Bypassed c w.launch || (s.l1MakeRoom h w.pa).l1Full h w.pa)
    || w.strm && s.lineStopped h w.pa

/-- Whether it holds back the registration of an L1's stored word, whose owner would have to write it back first. -/
def State.grantStopped (s : State) (c : Nat) (p : PA) : Bool :=
  match (s.core c).l1.find? fun w => w.pa == p && w.st == .pending, s.ownerOf p with
  | some w, some (_, o) => s.clsOf w.ctx && s.wordStopped o
  | _, _ => false

/-- STORE_TAKES_EFFECT: the queued store 2n, or the stored L1 word 4 (address / 4) + 2 host + 1,
takes effect, unless a paused dirty log or the power controller holds it (06 R187, 12 R329, 10 R292). -/
def execStoreTakesEffect (core id : Nat) (s : State) : Out :=
  if id % 2 = 0 then
    match (s.core core).stores.find? (·.id == id / 2) with
    | none => .next s
    | some w =>
      if (s.core core).storeWaits core w || s.storeLate core w || s.storeStopped core w then .next s
      else
        let s1 := (s.applyStore core w).modCore core fun k => { k with stores := k.stores.filter (·.id != w.id) }
        let owes := w.rel && ((s.l1Release (s.l1Of core)).l1Owes (s.l1Of core) w.ctx)
        if s.heldMore s1 || owes then .next s else .next (s1.sweep core)
  else
    let p : PA := ⟨id / 2 % 2 == 1, 4 * (id / 4)⟩
    let s1 := s.grant core p
    if s.heldMore s1 || s.grantStopped core p then .next s else .next s1

/-- L1_LINE_EVICTION: a line leaves an L1; its stored words go to their homes (06 R185). -/
def execL1LineEviction (core : Nat) (host : Bool) (line : Nat) (s : State) : Out :=
  let s1 := s.dropLine (s.l1Of core) ⟨host, 128 * line⟩
  if s.heldMore s1 || s.lineStopped (s.l1Of core) ⟨host, 128 * line⟩ then .next s else .next s1

end Sys2Proof.Machine
end

