-- ==== Sys2Proof/Machine/Engines.lean ====
section
/-! DEFINITION. The engines at work (08 R228 to R252): B is consumed, accumulator operations start,
operations finish or fault and retire in order, B buffers free; collectives (12 R336, R340). -/

namespace Sys2Proof.Machine

/-! ## Retiring (08 R228, R230, R250) -/

/-- The operations of a group and class, in acceptance order. -/
def Core.opsOf (k : Core) (gid cls : Nat) : List EngOp := k.ops.filter fun o => o.gid == gid && o.cls == cls

/-- Whether a finished operation wrote global memory (07 R218). -/
def EngOp.wroteGlobal (o : EngOp) : Bool :=
  match o.op with
  | .cpy => cpyDstGlob o.params || cpyCw o.params
  | .gath => cpyCw o.params
  | .coll => true
  | _ => false

/-- The opcode of an engine instruction (08 R226). -/
def EOp.opcode : EOp → BitVec 8
  | .cpy => 0xB0 | .gath => 0xB1 | .mma => 0xB2 | .aclr => 0xB4 | .adrn => 0xB5 | .coll => 0xB6

/-- What the retirement of one operation leaves with its group. -/
def Group.retireOp (g : Group) (o : EngOp) : Group :=
  let g1 := g.decCnt o.cls
  match o.st with
  | .faulted sub addr => { g1 with asyncFaults := g1.asyncFaults ++ [⟨o.cls, sub, o.pc, o.op.opcode, addr⟩] }
  | .finished => if o.wroteGlobal then { g1 with globWr := g1.globWr ||| (1#4 <<< o.cls) } else g1
  | _ => g1

/-- The census of an operation that retires, if it is not cancelled and has not faulted (13 R347): CPY, ADRN
and MMA are sites. -/
def State.tallyOp (s : State) (o : EngOp) : State :=
  match o.op, o.st with
  | .cpy, .finished | .adrn, .finished | .mma, .finished => s.tally o.launch o.pc o.op.opcode.toNat 1 o.count
  | _, _ => s

/-- One operation retires. -/
def State.retireOne (s : State) (c : Nat) (o : EngOp) : State :=
  ((s.tallyOp o).modCore c fun k => { k with ops := k.ops.filter (·.id != o.id) }).modGroup c o.gid fun g => g.retireOp o

/-- Retire the operations of a group and class from the oldest on, while they are done in a way. -/
def State.retireClass (s : State) (c gid cls : Nat) (done : EngOp → Bool) : Nat → State
  | 0 => s
  | fuel + 1 =>
    match (s.core c).opsOf gid cls with
    | o :: _ => if done o then (s.retireOne c o).retireClass c gid cls done fuel else s
    | [] => s

/-- Retire what is done of a group, in every class, and the group with it. -/
def State.retireWhile (s : State) (c gid : Nat) (done : EngOp → Bool) : State :=
  ((List.range 4).foldl (fun s cls => s.retireClass c gid cls done (s.core c).ops.length) s).tryRetire c gid

/-- Retire the operations of a group that have finished, those behind none that has not retired; one that faulted or was
cancelled retires in a step of its own (08 R228, 17 R454). -/
def State.retireOps (s : State) (c gid : Nat) : State := s.retireWhile c gid fun o => o.st == .finished

/-- An operation that faulted or was cancelled retires once it is the oldest of its group and class. -/
def State.retireEnded (s : State) (c : Nat) (o : EngOp) : State :=
  match (s.core c).opsOf o.gid o.cls with
  | x :: _ => if x.id = o.id then (s.retireOne c o).retireOps c o.gid else s
  | [] => s

def State.modOp (s : State) (c id : Nat) (f : EngOp → EngOp) : State :=
  s.modCore c fun k => { k with ops := k.ops.map fun o => if o.id = id then f o else o }

/-- An operation faults: the later ones of its group and class are cancelled (08 R250). -/
def State.faultOp (s : State) (c : Nat) (o : EngOp) (sub : BitVec 8) (addr : DWord) : State :=
  let later := ((s.core c).opsOf o.gid o.cls).filter fun x => decide (o.id < x.id)
  (((s.cancelAll c later).modOp c o.id fun o => { o with st := .faulted sub addr, bbuf := false }).forgetWalks (.op c o.id)).retireOps c o.gid

/-- An operation faults while it runs: any subset of its payload may stand (07 R217). -/
def State.faultRun (s : State) (c : Nat) (o : EngOp) (e : ERun) (sub : BitVec 8) (addr : DWord) : State :=
  (if o.mayRun then s.partWrite c o e else s).faultOp c o sub addr

/-! ## MT order (08 R245, R246) -/

/-- ACCPORT_OP_START: the next ACLR or ADRN of a core starts (08 R246). -/
def execAccportOpStart (core : Nat) (s : State) : Out :=
  let k := s.core core
  let ops := k.ops.filter fun o => o.op == .aclr || o.op == .adrn
  if ops.any (·.st == .started) then .next s
  else match ops.filter (·.st == .accepted) with
    | o :: _ =>
      if k.mtBlocked o (o.tiles.take 1) then .next s
      else .next (s.modOp core o.id fun o => { o with st := .started })
    | [] => .next s

/-! ## B operands (08 R240, R241) -/

/-- The K-vector of a column as the quartet's registers hold it. -/
def Core.bColumn (k : Core) (q : Word) (n j : Nat) : List Word :=
  match alGet ((quartetMembers q).getD (j / 32) 0) k.groups with
  | some g => (List.range n).map fun i => (g.reg (32 + i)).shape.val (j % 32)
  | none => List.replicate n 0

/-- Whether a word of the columns read is uncorrectable. -/
def Core.bUe (k : Core) (q : Word) (n cols : Nat) : Bool :=
  (List.range cols).any fun j => match alGet ((quartetMembers q).getD (j / 32) 0) k.groups with
    | some g => (List.range n).any fun i => (g.reg (32 + i)).ue.getLsbD (j % 32)
    | none => false

/-- MMA_B_CONSUMED: an accepted MMA has read its B; held writes and retirements may go on.
DEDUCED (log 39). -/
def execMmaBConsumed (core id : Nat) (s : State) : Out :=
  let k := s.core core
  match k.ops.find? fun o => o.id == id && o.op == .mma && o.st == .accepted && o.bcols.isNone with
  | none => .next s
  | some o =>
    let q := quartetOf o.params
    let n := mmaRegs o.params
    let cols := (List.range (dimN o.params)).map fun j => k.bColumn q n j
    let s1 := s.modOp core id fun o => { o with bcols := some cols }
    let s2 := if k.bUe q n (dimN o.params) then s1.faultOp core { o with bcols := some cols } 3 0 else s1
    .next ((quartetMembers q).foldl (fun s m => s.tryRetire core m) s2)

/-- B_BUFFER_FREE: the buffer of the oldest MMA that has consumed B frees, its compute being over (08 R241): what
it reads of the accumulators has been written (08 R245). -/
def execBBufferFree (core : Nat) (s : State) : Out :=
  match (s.core core).ops.filter fun o => o.bbuf with
  | o :: _ => if o.bcols.isSome && !(s.core core).mtBlocked o (o.tiles.drop 1) then .next (s.modOp core o.id fun o => { o with bbuf := false }) else .next s
  | [] => .next s

/-! ## Collectives (08 R249, 12 R336, R340) -/

/-- What a rank sends for an operation, the receiver of a send too: OP, FMT, ROP and COUNT, then its
elements. DESIGN CHOICE (log 20). -/
def collHead (p : List Byte) : List Byte := leBytes 4 (pf p 0 0 10) ++ leBytes 4 (collCount p)

/-- Bytes of a contribution by its head, in a group of `n` ranks. DESIGN CHOICE (log 20). -/
def contribLen (n : Nat) (h : List Byte) : Nat :=
  let size := collSize (fieldAt h 0 4 / 16 % 16)
  let cnt := fieldAt h 4 4
  size * (if fieldAt h 0 4 % 8 = 4 then 0 else if fieldAt h 0 4 % 8 = 1 then n * cnt else cnt)

/-- The bytes received from a fabric address for a tag, in order. DESIGN CHOICE (log 20). -/
def State.stream (s : State) (tag : BitVec 16) (src : Nat) : List Byte :=
  (s.frames.filter fun f => f.tag == tag && f.src == src).flatMap (·.payload)

/-- The fabric address of a rank of a channel's group. -/
def State.rankAddr (s : State) (v c k : Nat) : Nat :=
  ((alGet k (s.fgroup ((s.coll v c).cfg.toNat / 256 % 256)).ranks).getD 0).toNat % 1024

def State.collTag (s : State) (v c : Nat) : BitVec 16 := BitVec.ofNat 16 ((s.coll v c).cfg.toNat / 2 ^ 32)

/-- A peer's contribution, if all of it has arrived: its head and its elements. DESIGN CHOICE (log 20). -/
def State.contrib (s : State) (v c n k : Nat) : Option (List Byte × List Byte) :=
  let st := s.stream (s.collTag v c) (s.rankAddr v c k)
  if st.length < 8 then none
  else
    let len := contribLen n (st.take 8)
    if st.length < 8 + len then none else some (st.take 8, (st.drop 8).take len)

/-- Take the first `n` bytes of a stream. DESIGN CHOICE (log 20). -/
def State.consume (s : State) (tag : BitVec 16) (src n : Nat) : State :=
  let rest := (s.stream tag src).drop n
  let others := s.frames.filter fun f => !(f.tag == tag && f.src == src)
  { s with frames := if rest.isEmpty then others else others ++ [{ tag, src, payload := rest }] }

/-- One step of Fold. -/
def foldStep (fmt rop a b : Nat) : Nat :=
  let fp (f : NF) : Nat := match rop with
    | 0 => (f.fadd .rne false a b).1
    | 1 => (f.fminmax false false a b).1
    | _ => (f.fminmax false true a b).1
  match fmt with
  | 0 => fp .f32
  | 1 => fp .f16
  | 2 => fp .bf16
  | 11 => if rop = 0 then (a + b) % 2 ^ 32 else if decide (sextInt 32 a ≤ sextInt 32 b) == (rop == 1) then a else b
  | _ => if rop = 0 then (a + b) % 2 ^ 32 else if rop = 1 then min a b else max a b

/-- An element as a fold's result: a NaN is canonical (05 R144, 08 R249). -/
def canonElem (fmt x : Nat) : Nat :=
  let fp (f : NF) : Nat := if (f.unpack x).isNan then f.canon else x
  match fmt with
  | 0 => fp .f32
  | 1 => fp .f16
  | 2 => fp .bf16
  | _ => x

/-- Fold over ranks in ascending order of the element at `off`, be it of one rank only. -/
def foldElem (fmt rop size off : Nat) : List (List Byte) → Nat
  | [] => 0
  | x :: r => canonElem fmt (r.foldl (fun a y => foldStep fmt rop a (fieldAt y off size)) (fieldAt x off size))

/-- The destination of a collective at rank `me`, from every rank's elements. DESIGN CHOICE (log 20). -/
def collResult (p : List Byte) (me : Nat) (xs : List (List Byte)) : List Byte :=
  let size := collSize (collFmt p)
  let cnt := collCount p
  match collOp p with
  | 0 => (List.range cnt).flatMap fun e => leBytes size (foldElem (collFmt p) (collRop p) size (size * e) xs)
  | 1 => (List.range cnt).flatMap fun e => leBytes size (foldElem (collFmt p) (collRop p) size (size * (me * cnt + e)) xs)
  | 2 => xs.flatMap id
  | _ => []

/-- A COLL as it stands: waiting for peers or memory, faulted, with its own elements read and ready to
send, or done with its status and its destination bytes. -/
inductive CollRes where
  | wait (s : State)
  | fault (e : ERun)
  | send (e : ERun) (own : List Byte)
  | done (e : ERun) (status : Nat)

/-- Bytes that this rank reads from SRC, and writes from DST on. -/
def collSrcLen (p : List Byte) (n : Nat) : Nat :=
  if collOp p = 4 then 0 else collSize (collFmt p) * (if collOp p = 1 then n * collCount p else collCount p)
def collDstLen (p : List Byte) (n : Nat) : Nat :=
  if collOp p = 3 then 0 else collSize (collFmt p) * (if collOp p = 2 then n * collCount p else collCount p)

/-- A COLL that ends with a status other than 0: free bytes for its destination, of which any subset that
can be written is (08 R249). DESIGN CHOICE (log 20). -/
def State.collSpoil (s : State) (c : Nat) (o : EngOp) (n : Nat) : ERun :=
  let len := collDstLen o.params n
  let bs := (List.range len).map fun i => (s.peek i).setWidth 8
  let e := ERun.writeMem { s := { s with free := s.free + len } } c o (fieldAt o.params 24 8) bs
  { e with fault := none, wait := false }

/-- The address of a COLL's block that is not aligned to its elements (08 R248). -/
def collBad (p : List Byte) : Option Nat :=
  let size := collSize (collFmt p)
  if fieldAt p 16 8 % size ≠ 0 then some (fieldAt p 16 8)
  else if fieldAt p 24 8 % size ≠ 0 then some (fieldAt p 24 8)
  else none

/-- The ranks whose elements an operation takes, and those that take its own. -/
def State.collPairs (s : State) (v : Nat) (o : EngOp) : List Nat :=
  if collOp o.params ≤ 2 then s.collPeers v o.coll else [collPeer o.params]

/-- The end of a COLL whose peers' contributions are all in: they are taken, and the result is written, or
the operations do not match (08 R249). DESIGN CHOICE (log 20). -/
def State.collJoin (s : State) (c : Nat) (o : EngOp) (own : List Byte) (got : List (Nat × List Byte × List Byte)) : CollRes :=
  let p := o.params
  let v := (s.ctx o.ctx).vd
  let n := s.collRanks v o.coll
  let me := s.collRank v o.coll
  let want := if collOp p = 3 then leBytes 4 (pf p 0 0 10 + 1) ++ leBytes 4 (collCount p)
    else if collOp p = 4 then leBytes 4 (pf p 0 0 10 - 1) ++ leBytes 4 (collCount p) else collHead p
  let s1 := got.foldl (fun s (k, h, x) => s.consume (s.collTag v o.coll) (s.rankAddr v o.coll k) (h.length + x.length)) s
  if !(got.all fun (_, h, _) => h == want) then .done (s1.collSpoil c o n) 2
  else if collOp p = 3 then .done { s := s1 } 0
  else
    let elems (k : Nat) : List Byte := if k = me then own else ((got.find? (·.1 == k)).map (·.2.2)).getD []
    let out := if collOp p = 4 then elems (collPeer p) else collResult p me ((List.range n).map elems)
    let e := ERun.writeMem { s := s1 } c o (fieldAt p 24 8) out
    if e.fault.isSome || e.lost then .fault e
    else if e.wait then .wait (s.keepWait e.s)
    else .done e 0

/-- The run of a COLL: it sends its own elements, then takes its peers'. DESIGN CHOICE (log 20). -/
def State.collRun (s : State) (c : Nat) (o : EngOp) : CollRes :=
  let p := o.params
  let v := (s.ctx o.ctx).vd
  let n := s.collRanks v o.coll
  if o.aborted then .done (s.collSpoil c o n) 1
  else match collBad p, o.sent with
    | some a, _ => .fault ({ s := s : ERun }.bad 7 a)
    | none, none =>
      if collSrcLen p n = 0 then .send { s := s } []
      else
        let (bs, e) := ERun.readMem { s := s, seen := o.seen, log := true } c o (fieldAt p 16 8) (collSrcLen p n)
        match allSome bs with
        | some own => .send e own
        | none => if e.fault.isSome || e.lost then .fault e else .wait (s.keepWait e.s)
    | none, some own =>
      let got := (s.collPairs v o).map fun k => (k, s.contrib v o.coll n k)
      if got.any fun (_, x) => x.isNone then .wait s
      else s.collJoin c o own (got.filterMap fun (k, x) => x.map (k, ·))

/-- A COLL sends its own elements. -/
def State.collSend (s : State) (c : Nat) (o : EngOp) (own : List Byte) : State :=
  (s.sendFrames c o.ctx o.coll (s.collPairs (s.ctx o.ctx).vd o) .data (collHead o.params ++ own)).modOp c o.id
    fun o => { o with sent := some own }

/-! ## Finishing (07 R217, 08 R228) -/

/-- Whether every older operation of the same group and class is done (07 R217). -/
def Core.olderDone (k : Core) (o : EngOp) : Bool :=
  (k.opsOf o.gid o.cls).all fun x => decide (o.id ≤ x.id) || !x.live

/-- Completion word: its address and value, by the operation (08 R232, R236, R248). -/
def EngOp.cword (o : EngOp) : Option (Nat × Nat) :=
  if !(o.op == .cpy || o.op == .gath || o.op == .coll) || !cpyCw o.params then none
  else
    let at_ := match o.op with | .cpy => 44 | .gath => 40 | _ => 32
    some (fieldAt o.params at_ 8, fieldAt o.params (at_ + 8) 4)

/-- An operation is done with everything: it retires in its turn. -/
def State.finishOp (s : State) (c : Nat) (o : EngOp) : State :=
  (s.modOp c o.id fun o => { o with st := .finished, bbuf := false }).retireOps c o.gid

/-- A fault of a word that an operation writes at its end (08 R250). -/
def State.endFault (s : State) (c : Nat) (o : EngOp) (f : FCode) (va : Nat) : State :=
  if f = .dieLost then s.loseCtx o.ctx else s.faultOp c o f.sub (BitVec.ofNat 64 va)

/-- Whether an aligned word that an operation writes at its end is uncorrectable: the write faults (08 R250); with
the state once its home has been asked. -/
def State.endUe (s : State) (c : Nat) (o : EngOp) (va : Nat) : Bool × State :=
  match s.xlatNow (dieOf c) o.ctx .wr (.op c o.id) va with
  | (.ok p, s1) => (s1.ueBytes p 4, s1)
  | (_, s1) => (false, s1)

/-- The completion word enters the record of events: a release by the operation at the scope that its block names
(07 R207). -/
def State.noteWord (s : State) (c : Nat) (o : EngOp) (va w : Nat) : State :=
  match s.xlatNow (dieOf c) o.ctx .wr (.op c o.id) va with
  | (.ok pa, _) =>
    let (id, s1) := s.fresh
    s1.note { id, ctx := o.ctx, who := [.op o.launch c o.id], kind := .syncWrite, place := ⟨.global, c, pa, 4⟩, put := leBytes 4 w
              rel := some (pf o.params 0 11 3) }
  | _ => s

/-- Write the completion word of a paid operation and finish it. DEDUCED (log 39). -/
def State.payWord (s : State) (c : Nat) (o : EngOp) : State :=
  match o.cword with
  | none => s.finishOp c o
  | some (va, w) =>
    if !(s.core c).olderDone o then s
    else if (s.endUe c o va).1 then (s.endUe c o va).2.endFault c o .memUe va
    else match s.gwrite (dieOf c) o.ctx (.op c o.id) va (leBytes 4 w) with
      | (.ok _, s1) => if s.heldMore s1 then s else (s1.noteWord c o va w).finishOp c o
      | (.wait, s1) => s.keepWait s1
      | (.fault f a, s1) => s1.endFault c o f a

/-- The writes of an operation that can be made before one that a paused dirty log holds (12 R329). -/
def State.makeWrites (s : State) (c ctx : Nat) (ws : List EWrite) : List EWrite × State :=
  let (r, s1, _) := ws.foldl (fun (r, s, held) w =>
    let t := s.eWrite c ctx w
    if held || s.heldMore t then (r, s, true) else (r ++ [w], t, false)) (([] : List EWrite), s, false)
  (r, s1)

/-- What an operation has written before a paused dirty log held the rest stays. -/
def State.keepPaid (s : State) (c : Nat) (o : EngOp) (ws : List EWrite) : State :=
  let (made, s1) := s.makeWrites c o.ctx ws
  s1.modOp c o.id fun o => { o with early := o.early ++ made.filter fun w => !o.early.contains w }

/-- The payload is whole: it is written, its census is known, and the completion word follows. -/
def State.payWhole (s : State) (c : Nat) (o : EngOp) (e : ERun) : State :=
  let (ws, s0) := e.s.keepWrites false o.early e.writes
  let (made, s1) := s0.makeWrites c o.ctx ws
  let o1 := { o with st := .paid, count := e.cnt }
  if made.length < ws.length then s.keepPaid c o ws
  else ((s1.countDie (dieOf c) 0x107 (o.chunks e) (s.carries o.ctx)).modOp c o.id fun _ => o1).payWord c o1

/-- Whether an operation may finish now, the order on the accumulators aside (08 R245): the matrix arrays and the
port work in order. -/
def Core.mayFinish (k : Core) (o : EngOp) : Bool :=
  match o.op with
  | .cpy | .gath => true
  | .mma => o.bcols.isSome && k.arraysFree o
  | .aclr | .adrn => o.st == .started
  | .coll => true

/-- Whether a COLL is the oldest on its channel. -/
def State.collFirst (s : State) (o : EngOp) : Bool :=
  s.cores.all fun (_, k) => k.ops.all fun x =>
    !(x.op == .coll && x.live && x.coll == o.coll && (s.ctx x.ctx).vd == (s.ctx o.ctx).vd && decide (x.id < o.id))

/-- Whether an operation stands behind a recorded release of its group, or a release store of it that has still to take
effect (07 R216, R222), or is H traffic that
the power controller has stopped (10 R292). -/
def State.opHeld (s : State) (c : Nat) (o : EngOp) : Bool :=
  (s.core c).fences.any (fun x => x.bg && decide (x.id < o.id) && x.whose.any (·.1 == o.gid))
    || (s.core c).stores.any (fun w => w.rel && decide (w.id < o.id) && w.whose.any (·.1 == o.gid))
    || (decide (2 ≤ s.pwrStep) && s.clsOf o.ctx && match o.op with | .cpy | .gath | .coll => true | _ => false)

/-- Whether an operation may go on now. -/
def State.opReady (s : State) (c : Nat) (o : EngOp) : Bool :=
  o.live && o.st != .paid && (s.core c).mayFinish o && !s.opHeld c o && (o.op != .coll || s.collFirst o)

/-- The status word and the end of a COLL whose payload is written. -/
def State.collStatus (s : State) (c : Nat) (o : EngOp) (status : Nat) : State :=
  let sta := fieldAt o.params 44 8
  let paid (s : State) : State := (s.modOp c o.id fun o => { o with st := .paid }).payWord c { o with st := .paid }
  if sta = 0 then paid s
  else if (s.endUe c o sta).1 then (s.endUe c o sta).2.endFault c o .memUe sta
  else match s.gwrite (dieOf c) o.ctx (.op c o.id) sta (leBytes 4 status) with
    | (.ok _, s1) => if s.heldMore s1 then s else paid s1
    | (.wait, s1) => s.keepWait s1
    | (.fault f a, s1) => s1.endFault c o f a

/-- The payload of a COLL is written, and its status word follows; with a status other than 0 any subset of the
destination may have been written (08 R249). -/
def State.collEnd (s : State) (c : Nat) (o : EngOp) (e : ERun) (status : Nat) : State :=
  let (ws, s0) := e.s.keepWrites (status != 0) o.early e.writes
  let (made, s1) := s0.makeWrites c o.ctx ws
  if made.length < ws.length then s.keepPaid c o ws
  else (s1.modOp c o.id fun o => { o with status := some status }).collStatus c { o with status := some status } status

/-- ASYNC_OP_FINISH: an operation writes its payload and its completion or status word, and retires
in acceptance order (08 R228); a cancelled one only retires. DEDUCED (log 39). -/
def execAsyncOpFinish (core id : Nat) (s : State) : Out :=
  match (s.core core).ops.find? (·.id == id) with
  | none => .next s
  | some o =>
    if o.st == .paid then .next (s.payWord core o)
    else if !o.live then .next (s.retireEnded core o)
    else if !s.opReady core o then .next s
    else if o.op == .coll then
      match o.status, s.collRun core o with
        | some status, _ => .next (s.collStatus core o status)
        | none, .wait s1 => .next s1
        | none, .fault _ => .next s
        | none, .send e own => .next (e.s.collSend core o own)
        | none, .done e status => if e.lost then .next (e.s.loseCtx o.ctx) else .next (s.collEnd core o e status)
    else
      let e := s.payload core o
      if e.lost || e.fault.isSome then .next s
      else if e.wait then .next (s.keepWait e.s)
      else .next (s.payWhole core o e)

/-- The fault that an operation meets. -/
def State.opFault (s : State) (c : Nat) (o : EngOp) : Option ERun :=
  if !s.opReady c o then none
  else if o.op == .coll then
    match o.status, s.collRun c o with
      | none, .fault e => some e
      | _, _ => none
  else
    let e := s.payload c o
    if e.lost || e.fault.isSome then some e else none

/-- ASYNC_OP_FAULT: an operation that cannot complete faults; the later ones of its group and class
are cancelled (08 R250). -/
def execAsyncOpFault (core id : Nat) (s : State) : Out :=
  match (s.core core).ops.find? (·.id == id) with
  | none => .next s
  | some o =>
    match s.opFault core o with
    | none => .next s
    | some e =>
      if e.lost then .next (e.s.loseCtx o.ctx)
      else match e.fault with
        | some (sub, addr) => .next (s.faultRun core o e sub addr)
        | none => .next s

/-! ## What shows of an operation before it ends (07 R220) -/

/-- Any subset of what a run has read stays as it was read, with `acc` every accumulator word of it. DESIGN CHOICE (log 40). -/
def EngOp.keepReads (o : EngOp) (free : Nat) (acc : Bool) (rs : List ERead) : EngOp :=
  let new := (rs.zipIdx.filter fun (r, i) => (acc && match r with | .acc _ _ => true | _ => false) || Config.freeBit (free + i)).map (·.1)
  { o with seen := o.seen ++ new.filter fun r => !o.seen.contains r }

/-- Some of what an operation reads has been read now. -/
def State.earlyRead (s : State) (c : Nat) (o : EngOp) (e : ERun) : State :=
  { e.s.modOp c o.id fun o => o.keepReads (s.free + 1) false e.reads with free := e.s.free + 1 + e.reads.length }

/-- Any subset of some writes of a running operation is written now and remembered. DESIGN CHOICE (log 40). -/
def State.earlyWrite (s : State) (c : Nat) (o : EngOp) (e : ERun) (ws : List EWrite) : State :=
  let (r, s1) := e.s.keepWrites true o.early ws
  let s2 := (r.foldl (fun s w => s.eWrite c o.ctx w) s1).modOp c o.id fun o => { o with early := o.early ++ r }
  if s.heldMore s2 then s else s2

/-- Part of what an operation reads is read, or part of its payload is written, before the rest, row by row: CPY and
GATH may read again after a write, and so may the other operations all but the accumulator words, which their own
order fixes (07 R220, 08 R235, R245). DEDUCED (log 39). DESIGN CHOICE (log 40). -/
def State.opChunk (s : State) (c id : Nat) : State :=
  match (s.core c).ops.find? (·.id == id) with
  | none => s
  | some o =>
    if !s.opReady c o then s
    else
      let k := Config.freeIdx s.free o.rows
      let reading := Config.freeBit (s.free + 1)
      let s0 := { s with free := s.free + 2 }
      let row := o.row c (s.opBlock c o) { s0.startRun c o with log := true } k
      match o.op with
      | .coll => if o.status.isSome then s else match s0.collRun c o with
        | .send e own => if reading then s0.earlyRead c o e else e.s.collSend c o own
        | .done e 0 => s.earlyWrite c o { e with s := s0 } e.writes
        | _ => s
      | .cpy | .gath =>
        if reading then s0.earlyRead c o row
        else let e := s0.payload c o; s.earlyWrite c o e e.writes
      | .mma | .aclr | .adrn =>
        if reading then s0.earlyRead c o row
        else
          let final : List EWrite := row.writes.map fun | .acc w vs => .acc w [vs.getLastD 0] | w => w
          let f := row.s.free
          s.earlyWrite c o { row with s := { row.s.modOp c id fun o => o.keepReads f true row.reads with free := f + row.reads.length } } final

/-! ## Frames from the fabric (12 R336, R340) -/

/-- Whether a channel tag is configured on the package. -/
def State.tagUsed (s : State) (tag : BitVec 16) : Bool :=
  s.colls.any fun (_, x) => x.cfg.getLsbD 0 && BitVec.ofNat 16 (x.cfg.toNat / 2 ^ 32) == tag

/-- The virtual device whose channel a tag names. -/
def State.tagVd (s : State) (tag : BitVec 16) : Nat :=
  ((s.colls.find? fun (_, x) => x.cfg.getLsbD 0 && BitVec.ofNat 16 (x.cfg.toNat / 2 ^ 32) == tag).map (·.1 / 64)).getD 0

/-- Whom a frame received on a tag serves (13 R342): the context of an operation on its channel, without one a
context of its virtual device, by a free choice. DESIGN CHOICE (log 20). -/
def State.tagServes (s : State) (tag : BitVec 16) : Option Nat :=
  let ops := s.cores.flatMap fun (_, k) => k.ops.filter fun o => o.op == .coll && o.live && s.collTag (s.ctx o.ctx).vd o.coll == tag
  let cs := if ops.isEmpty then (s.ctxs.filter fun (_, x) => x.vd == s.tagVd tag).map (·.1) else ops.map (·.ctx)
  cs[Config.freeIdx s.free cs.length]?

/-- A frame received returns its credit, unless a paused dirty log of its device holds the credit back
(12 R329, R336). Its port and class are free. DESIGN CHOICE (log 20). -/
def State.returnCredit (s : State) (tag : BitVec 16) (src : Nat) : State :=
  let v := s.tagVd tag
  let f : TxFrame := { dst := src, src := s.fabid.toNat % 1024, h := Config.freeBit s.free, tag, kind := .credit }
  let s1 := { s with free := s.free + 2 }
  if (s.vd v).dlpause then s1.modVd v fun d => { d with credits := d.credits ++ [f] }
  else s1.putFrames s.hostDie ({ s with free := s.free + 1 }.tagServes tag) [f]

/-- A frame of some flits arrives: they are counted, and it is discarded and counted where its tag is not configured
(12 R336, 13 R342). Its port is free. DESIGN CHOICE (log 20). -/
def State.meetFrame (s : State) (tag : BitVec 16) (flits : Nat) : State :=
  let s1 (ctx : Option Nat) : State := ({ s with free := s.free + 1 }.countDie s.hostDie 0x10D flits (ctx.bind s.carries)).fabMoved ctx flits
  if s.tagUsed tag then s1 (s.tagServes tag) else { s1 none with fabdrop := s.fabdrop + 1 }

/-- FABRIC_FRAME_RECEIVE: a DATA frame of at most 63 payload flits arrives. -/
def execFabricFrameReceive (tag : BitVec 16) (src : Nat) (payload : List Byte) (s : State) : Out :=
  if payload.length > 4032 then .next s
  else
    let s1 := s.meetFrame tag (1 + (payload.length + 63) / 64)
    if s.tagUsed tag then .next ({ s1 with frames := s.frames ++ [({ tag, src, payload } : Frame)] }.returnCredit tag src)
    else .next s1

/-- FABRIC_ABORT_RECEIVE: the operations accepted so far on the channel end with ABORTED_PEER; data
received for them is dropped (12 R340). -/
def execFabricAbortReceive (tag : BitVec 16) (s : State) : Out :=
  if !s.tagUsed tag then .next (s.meetFrame tag 1)
  else
    let hit (o : EngOp) : Bool := o.op == .coll && o.live && o.st != .paid && s.collTag (s.ctx o.ctx).vd o.coll == tag
    .next { s.meetFrame tag 1 with
      frames := s.frames.filter fun f => f.tag != tag
      cores := s.cores.map fun (c, k) => (c, { k with ops := k.ops.map fun o => if hit o then { o with aborted := true } else o }) }

end Sys2Proof.Machine
end

