-- ==== Sys2Proof/Machine/Keywrap.lean ====
section
/-! DEFINITION. AES key unwrap (12 R322): the inverse cipher of AES-256 (FIPS 197) and the unwrap of a 64-byte
key (RFC 3394). PRESUMED (log 132). -/

namespace Sys2Proof.Machine

/-! ## The field and the S-box (FIPS 197) -/

def aesDouble (b : Byte) : Byte := (b <<< 1) ^^^ (if b.msb then 0x1B else 0)

def aesMul (a b : Byte) : Byte :=
  ((List.range 8).foldl (fun (acc, p) i => (if b.getLsbD i then acc ^^^ p else acc, aesDouble p)) ((0 : Byte), a)).1

/-- The inverse of a non-zero element, its 254th power; 0 for 0. -/
def aesInv (a : Byte) : Byte :=
  ((List.range 7).foldl (fun (acc, p) _ => (aesMul acc (aesMul p p), aesMul p p)) ((1 : Byte), a)).1

def aesSub (a : Byte) : Byte :=
  let b := aesInv a
  b ^^^ b.rotateLeft 1 ^^^ b.rotateLeft 2 ^^^ b.rotateLeft 3 ^^^ b.rotateLeft 4 ^^^ 0x63

def aesUnsub (a : Byte) : Byte := aesInv (a.rotateLeft 1 ^^^ a.rotateLeft 3 ^^^ a.rotateLeft 6 ^^^ 0x05)

/-! ## Round keys -/

def xorBytes (a b : List Byte) : List Byte := (a.zip b).map fun (x, y) => x ^^^ y

/-- The next word of the schedule, word `i`, before words in reverse order. -/
def aesNextWord (i : Nat) (ws : List (List Byte)) : List Byte :=
  let t := ws.getD 0 []
  let t1 :=
    if i % 8 = 0 then xorBytes ((t.drop 1 ++ t.take 1).map aesSub) [BitVec.ofNat 8 (2 ^ (i / 8 - 1)), 0, 0, 0]
    else if i % 8 = 4 then t.map aesSub
    else t
  xorBytes (ws.getD 7 []) t1

/-- The fifteen round keys of a 32-byte key. -/
def aesKeys (key : List Byte) : List (List Byte) :=
  let first := (List.range 8).map fun i => (key.drop (4 * i)).take 4
  let ws := ((List.range 52).foldl (fun ws i => aesNextWord (i + 8) ws :: ws) first.reverse).reverse
  (List.range 15).map fun r => ((ws.drop (4 * r)).take 4).flatten

/-! ## The inverse cipher -/

/-- A row shift undone, and the substitution. -/
def aesUnshift (s : List Byte) : List Byte :=
  (List.range 16).map fun i => aesUnsub (s.getD ((i + 16 - 4 * (i % 4)) % 16) 0)

/-- One column mix undone. -/
def aesUnmix (s : List Byte) : List Byte :=
  (List.range 16).map fun i =>
    let x (k : Nat) : Byte := s.getD (i / 4 * 4 + (i + k) % 4) 0
    aesMul (x 0) 0x0E ^^^ aesMul (x 1) 0x0B ^^^ aesMul (x 2) 0x0D ^^^ aesMul (x 3) 0x09

/-- AES-256 decryption of one block under round keys. -/
def aesDecrypt (keys : List (List Byte)) (blk : List Byte) : List Byte :=
  let s0 := xorBytes blk (keys.getD 14 [])
  let s1 := (List.range 13).foldl (fun s i => aesUnmix (xorBytes (aesUnshift s) (keys.getD (13 - i) []))) s0
  xorBytes (aesUnshift s1) (keys.getD 0 [])

/-! ## RFC 3394 -/

/-- One step of the unwrap, the `t`-th of those of the wrap, on the check value and the blocks. -/
def unwrapStep (keys : List (List Byte)) (n t : Nat) (x : List Byte × List (List Byte)) : List Byte × List (List Byte) :=
  let a := xorBytes x.1 (leBytes 8 t).reverse
  let i := (t - 1) % n
  let b := aesDecrypt keys (a ++ x.2.getD i [])
  (b.take 8, listMod x.2 i fun _ => b.drop 8)

/-- The unwrap of wrapped bytes under a key-encryption key; none when the check value is not the one of
RFC 3394. -/
def unwrapBytes (kek : List Byte) (c : List Byte) : Option (List Byte) :=
  let n := c.length / 8 - 1
  let keys := aesKeys kek
  let r := (List.range (6 * n)).foldl (fun x k => unwrapStep keys n (6 * n - k) x)
    (c.take 8, (List.range n).map fun i => (c.drop (8 * i + 8)).take 8)
  if r.1 = List.replicate 8 0xA6 then some r.2.flatten else none

/-- The unwrap of the 72 bytes of a key pair; a key's byte 0 is its low byte. -/
def unwrapKey (kek : BitVec 256) (c : List Byte) : Option (BitVec 512) :=
  (unwrapBytes (leBytes 32 kek.toNat) c).map fun bs => BitVec.ofNat 512 (leNat bs)

end Sys2Proof.Machine
end

