-- ==== Sys2Proof/Machine/Usage.lean ====
section
/-! DEFINITION. The usage log (12 R323 to R327): SHA-256, records, checkpoints with their signatures,
the ring and its buffer. -/

namespace Sys2Proof.Machine

/-! ## SHA-256 (12 R324; FIPS 180-4) -/

def shaK : List Word :=
  [0x428a2f98, 0x71374491, 0xb5c0fbcf, 0xe9b5dba5, 0x3956c25b, 0x59f111f1, 0x923f82a4, 0xab1c5ed5] ++
  [0xd807aa98, 0x12835b01, 0x243185be, 0x550c7dc3, 0x72be5d74, 0x80deb1fe, 0x9bdc06a7, 0xc19bf174] ++
  [0xe49b69c1, 0xefbe4786, 0x0fc19dc6, 0x240ca1cc, 0x2de92c6f, 0x4a7484aa, 0x5cb0a9dc, 0x76f988da] ++
  [0x983e5152, 0xa831c66d, 0xb00327c8, 0xbf597fc7, 0xc6e00bf3, 0xd5a79147, 0x06ca6351, 0x14292967] ++
  [0x27b70a85, 0x2e1b2138, 0x4d2c6dfc, 0x53380d13, 0x650a7354, 0x766a0abb, 0x81c2c92e, 0x92722c85] ++
  [0xa2bfe8a1, 0xa81a664b, 0xc24b8b70, 0xc76c51a3, 0xd192e819, 0xd6990624, 0xf40e3585, 0x106aa070] ++
  [0x19a4c116, 0x1e376c08, 0x2748774c, 0x34b0bcb5, 0x391c0cb3, 0x4ed8aa4a, 0x5b9cca4f, 0x682e6ff3] ++
  [0x748f82ee, 0x78a5636f, 0x84c87814, 0x8cc70208, 0x90befffa, 0xa4506ceb, 0xbef9a3f7, 0xc67178f2]

def shaH : List Word :=
  [0x6a09e667, 0xbb67ae85, 0x3c6ef372, 0xa54ff53a, 0x510e527f, 0x9b05688c, 0x1f83d9ab, 0x5be0cd19]

/-- A big-endian word of a byte list. -/
def beWord (bs : List Byte) (i : Nat) : Word := BitVec.ofNat 32 (leNat ((bs.drop (4 * i)).take 4).reverse)

/-- The message with its padding and length. -/
def shaPad (m : List Byte) : List Byte :=
  m ++ [0x80#8] ++ List.replicate ((119 - m.length % 64) % 64) 0 ++ (leBytes 8 (8 * m.length)).reverse

/-- The message schedule: the words in reverse. -/
def shaSched : Nat → List Word → List Word
  | 0, l => l
  | n + 1, l =>
    let x := l.getD 14 0
    let y := l.getD 1 0
    let s0 := x.rotateRight 7 ^^^ x.rotateRight 18 ^^^ (x >>> 3)
    let s1 := y.rotateRight 17 ^^^ y.rotateRight 19 ^^^ (y >>> 10)
    shaSched n ((s1 + l.getD 6 0 + s0 + l.getD 15 0) :: l)

/-- One round on the eight working words. -/
def shaRound (v : List Word) (kw : Word × Word) : List Word :=
  match v with
  | [a, b, c, d, e, f, g, h] =>
    let t1 := h + (e.rotateRight 6 ^^^ e.rotateRight 11 ^^^ e.rotateRight 25) + ((e &&& f) ^^^ (~~~e &&& g)) + kw.1 + kw.2
    let t2 := (a.rotateRight 2 ^^^ a.rotateRight 13 ^^^ a.rotateRight 22) + ((a &&& b) ^^^ (a &&& c) ^^^ (b &&& c))
    [t1 + t2, a, b, c, d + t1, e, f, g]
  | v => v

/-- Take in one 64-byte block. -/
def shaBlock (h : List Word) (blk : List Byte) : List Word :=
  let w := (shaSched 48 ((List.range 16).map (beWord blk)).reverse).reverse
  let v := (shaK.zip w).foldl shaRound h
  (h.zip v).map fun (a, b) => a + b

/-- SHA-256 of a byte list, 32 bytes. DESIGN CHOICE (log 5). -/
def sha256 (m : List Byte) : List Byte :=
  let p := shaPad m
  let h := (List.range (p.length / 64)).foldl (fun h i => shaBlock h ((p.drop (64 * i)).take 64)) shaH
  h.flatMap fun w => (leBytes 4 w.toNat).reverse

/-! ## The ring and its buffer (12 R320, R323) -/

/-- A byte list cut or filled with zeros to a length. -/
def fitBytes (n : Nat) (bs : List Byte) : List Byte := (bs ++ List.replicate (n - bs.length) 0).take n

/-- Slots of the usage-log ring that are taken. -/
def VDev.ulCount (d : VDev) : Nat := (d.ultail - d.ulhead).toNat

/-- Move waiting slots into the ring while it is enabled and has room. DEDUCED (log 25). -/
def State.ulDrain (s : State) (v : Nat) : Nat → State
  | 0 => s
  | fuel + 1 =>
    let d := s.vd v
    match d.ulbuf with
    | [] => s
    | r :: rest =>
      if !ringEn d.ulring || ringSize d.ulring / 128 ≤ d.ulCount then s
      else
        let s1 := s.ringPut d.ulring d.ultail.toNat (r.take 128)
        let left := r.drop 128
        (s1.modVd v fun d => { d with ultail := d.ultail + 1, ulbuf := if left.isEmpty then rest else left :: rest }).ulDrain v fuel

/-- Drain the buffer and set ULHOLD (12 R323). DEDUCED (log 25). -/
def State.ulFlow (s : State) (v : Nat) : State :=
  (s.ulDrain v ((s.vd v).ulbuf.foldl (fun n r => n + (r.length + 127) / 128) 0)).modVd v
    fun d => { d with ulhold := decide (4096 ≤ d.ulbuf.length) }

/-! ## Records (12 R324, R325) -/

/-- The first 96 bytes of a record. DEDUCED (log 71). -/
def ulHead (seq time typ ctx : Nat) (gen : Word) (data : List Byte) : List Byte :=
  leBytes 8 seq ++ leBytes 8 time ++ leBytes 2 typ ++ leBytes 2 ctx ++ leBytes 4 gen.toNat ++ fitBytes 72 data

/-- Append a record with what follows it in the log. -/
def State.ulPut (s : State) (v typ ctx : Nat) (data : List Byte) (after : List Byte → List Byte) : State :=
  let d := s.vd v
  let r := ulHead d.ulseq s.time typ ctx d.gen data ++ d.ulprev
  (s.setVd v { d with ulseq := d.ulseq + 1, ulprev := sha256 r, ulbuf := d.ulbuf ++ [r ++ after r] }).ulFlow v

/-- Append a usage record. DEDUCED (log 25, 71). -/
def State.ulRec (s : State) (v typ ctx : Nat) (data : List Byte) : State := s.ulPut v typ ctx data fun _ => []

/-- CTX of a record to which no context applies. -/
def noCtx : Nat := 0xFFFF

/-- The package identity hash: SHA-256 of the public half of the device identity key (12 R327). -/
def identityHash : List Byte := sha256 (fitBytes 32 Config.publicKey)

/-- A signature under the device identity key (12 R325, R326). -/
def signed (m : List Byte) : List Byte := fitBytes 17088 (Config.sign (fitBytes 32 Config.publicKey) m)

/-- The package identity hash and the boot count. -/
def State.identity (s : State) : List Byte := identityHash ++ leBytes 8 s.bootCount

/-- A checkpoint: its record and the 134 slots of its signature (12 R325). DEDUCED (log 71). -/
def State.checkpoint (s : State) (v : Nat) : State :=
  s.ulPut v 8 noCtx s.identity fun r => fitBytes 17152 (signed r)

/-- The number of a virtual device's state in VDSTAT (12 R319). -/
def VState.code : VState → Nat
  | .free => 0 | .active => 1 | .stopping => 2 | .stopped => 3 | .resetting => 4

/-- A STATE record and its checkpoint. -/
def State.ulState (s : State) (v : Nat) : State :=
  let d := s.vd v
  (s.ulRec v 6 noCtx (leBytes 1 d.st.code ++ leBytes 4 d.gen.toNat)).checkpoint v

/-- A MAP record of a context. -/
def State.ulMap (s : State) (c : Nat) : State :=
  s.ulRec (s.ctx c).vd 4 c (leBytes 8 s.cmap.cmv ++ leBytes 8 (s.ctx c).ackv)

/-- A DEBUG record: 0 grant, 1 revoke, 2 edit. -/
def State.ulDebug (s : State) (c kind dbg : Nat) : State :=
  s.ulRec (s.ctx c).vd 5 c (leBytes 1 kind ++ leBytes 1 dbg)

/-- A LAUNCH record, status 0 or a WQSTAT CODE. -/
def State.ulLaunch (s : State) (v : Nat) (l : Launch) (status : Nat) : State :=
  s.ulRec v 2 l.ctx (leBytes 2 l.queue ++ leBytes 2 status ++ leBytes 4 l.nblk ++ leBytes 8 l.entry.toNat
    ++ leBytes 8 (l.first.getD 0) ++ leBytes 8 s.time)

end Sys2Proof.Machine
end

