-- ==== Sys2Proof/Machine/Queue.lean ====
section
/-! DEFINITION. Work queues (09 R253 to R257): their registers, the ring, errors, enabling, disabling
and the tail. -/

namespace Sys2Proof.Machine

/-! ## Fields (09 R254) -/

/-- The bits of WQCTL and WQBASE that are not reserved. -/
def wqctlMask : DWord := 0xFFF3F0107F3
def wqbaseMask : DWord := 0xFFFFFFFFFFFC0

def wqCtx (w : DWord) : Nat := w.toNat / 2 ^ 32 % 2 ^ 12
def wqOwner (w : DWord) : Nat := w.toNat / 2 ^ 24 % 2 ^ 6
def wqClass (w : DWord) : Bool := w.getLsbD 16
def wqPrio (w : DWord) : Nat := w.toNat / 2 ^ 8 % 8
def wqSize (w : DWord) : Nat := 2 ^ (w.toNat / 2 ^ 4 % 16 + 4)
def wqHost (w : DWord) : Bool := w.getLsbD 1
def wqEn (w : DWord) : Bool := w.getLsbD 0

/-- Packets written and not taken. -/
def Queue.held (q : Queue) : Nat := (q.tail - q.head).toNat

/-- The place of packet `n` of a ring. -/
def Queue.slotPa (q : Queue) (n : Nat) : PA :=
  ⟨wqHost q.ctl, (q.base &&& wqbaseMask).toNat + 64 * (n % wqSize q.ctl)⟩

/-! ## Errors (09 R257) -/

/-- A queue enters ERROR: CODE, the LAUNCH record of the failing launch, the interrupts. The current
packet is placed no further. -/
def State.queueError (s : State) (q : Nat) (code : Nat) (l : Option Launch) : State :=
  let x := s.queue q
  let v := wqOwner x.ctl
  let s1 := s.setQueue q { x with code := BitVec.ofNat 8 code, st := .error, walkFaults := [] }
  let s2 := { s1 with claims := s1.claims.filter (·.queue != q) }
  let s3 := match l with
    | some l => s2.ulLaunch v l code
    | none => s2.ulRec v 2 (wqCtx x.ctl) (leBytes 2 q ++ leBytes 2 code)
  (s3.virq v 0).pirq 0

/-- A queue is disabled: its current packet is discarded, with the launch if nothing of it runs; its
completion signal is not written (09 R256). -/
def State.queueDisable (s : State) (q : Nat) : State :=
  let x := s.queue q
  let s1 := s.setQueue q { x with ctl := x.ctl &&& ~~~(1 : DWord), st := .disabled, cur := none, walkFaults := [] }
  let s2 := { s1 with claims := s1.claims.filter (·.queue != q) }
  match x.cur with
  | none => s2
  | some p =>
    { s2 with launches := s2.launches.filterMap fun l =>
        if l.id = p.launch then (if l.next = l.retired then none else some { l with discarded := true }) else some l }

/-! ## WQCTL, WQTAIL (09 R256, R262) -/

/-- What a write of WQCTL leaves in its fields: while EN is 1 only EN is written. -/
def Queue.ctlAfter (x : Queue) (ctl : DWord) : DWord := if wqEn x.ctl then x.ctl else ctl &&& wqctlMask

/-- WQTAIL takes a value; more packets than the ring holds is RINGOVF, of a queue that is not ACTIVE once it is enabled
(09 R262). DESIGN CHOICE (log 149). -/
def State.setTail (s : State) (q : Nat) (val : Word) : State :=
  let x := s.queue q
  let s1 := s.setQueue q { x with tail := val }
  if x.st == .active && decide (wqSize x.ctl < { x with tail := val }.held) then s1.queueError q 6 none else s1

/-- WQ_ENABLE: a write that sets EN. -/
def execWqEnable (q : Nat) (ctl : DWord) (s : State) : Out :=
  let x := s.queue q
  let c := ctl &&& wqctlMask
  let y := s.ctx (wqCtx c)
  if q ≥ 1024 || wqEn x.ctl || !wqEn ctl then .next s
  else if y.st != .free && y.vd == wqOwner c && y.cls == wqClass c then
    .next ((s.setQueue q { x with ctl := c, st := .active }).setTail q x.tail)
  else .next (s.setQueue q { x with ctl := c &&& ~~~(1 : DWord), code := 8 })

/-- WQ_DISABLE: a write of EN = 0 makes the queue DISABLED, be it in ERROR with EN 0 already; its other fields are
written only if EN was 0. -/
def execWqDisable (q : Nat) (ctl : DWord) (s : State) : Out :=
  if q ≥ 1024 || wqEn ctl then .next s
  else
    let x := s.queue q
    .next ((s.queueDisable q).modQueue q fun y => { y with ctl := x.ctlAfter ctl &&& ~~~(1 : DWord) })

/-- WQTAIL_WRITE: through the package window, or through the window of a virtual device, which counts
a write to a queue it does not own (12 R332). -/
def execWqtailWrite (win : Window) (q : Nat) (val : Word) (s : State) : Out :=
  if q ≥ 1024 then .next s
  else match win with
    | .pkg => .next (s.setTail q val)
    | .vd v =>
      if wqOwner (s.queue q).ctl = v then .next (s.setTail q val)
      else .next (s.modVd v fun d => { d with dbdrop := d.dbdrop + 1 })

end Sys2Proof.Machine
end

