-- ==== Sys2Proof/Machine/MemEvents.lean ====
section
/-! DEFINITION. Events of the memory system (06): page walks and requests, invalidation of
translations, the region table and its flush; key slots (12 R322). -/

namespace Sys2Proof.Machine

/-! ## Page requests (06 R181, 12 R333) -/

/-- The 16 bytes of a page request. -/
def PageReq.bytes (v : Nat) (r : PageReq) : List Byte :=
  leBytes 16 (packBits [(0, r.acc.toNat), (12, r.vpage), (64, r.id), (78, v), (84, r.ctx), (96, r.gen.toNat)])

/-- Entries held in a page-request ring. -/
def VDev.pqCount (d : VDev) : Nat := (d.pqtail - d.pqhead).toNat

/-- Write the requests that wait inside the device to the ring, while it is enabled and has room: the context's
accesses to the ring's home mark its TDM (01 R34). -/
def State.pqFlow (s : State) (v : Nat) : Nat → State
  | 0 => s
  | fuel + 1 =>
    let d := s.vd v
    match d.reqs.find? fun r => !r.written with
    | none => s
    | some r =>
      if !ringEn d.pqring || ringSize d.pqring / 16 ≤ d.pqCount then s
      else
        let s0 := s.touch r.ctx (s.homeDie ⟨ringHost d.pqring, ringBase d.pqring + d.pqtail.toNat * 16 % ringSize d.pqring⟩)
        let s1 := s0.ringPut d.pqring d.pqtail.toNat (r.bytes v)
        ((s1.modVd v fun d => { d with
          pqtail := d.pqtail + 1
          reqs := d.reqs.map fun x => if x.id = r.id then { x with written := true } else x }).virq v 1).pqFlow v fuel

/-- Replace a walk. -/
def State.modWalk (s : State) (id : Nat) (f : Walk → Walk) : State :=
  { s with walks := s.walks.map fun w => if w.id = id then f w else w }

/-- A walk met PRQ: it joins the request outstanding for its page, or sends one under the lowest free
number; with 64 outstanding it waits. ACC takes the kinds of access that wait then. DESIGN CHOICE (log 134). -/
def State.sendRequest (s : State) (w : Walk) : State :=
  let v := (s.ctx w.ctx).vd
  let d := s.vd v
  match d.reqs.find? fun r => r.ctx == w.ctx && r.vpage == w.vpage with
  | some r => s.modWalk w.id fun w => { w with request := some r.id }
  | none =>
    match (List.range 64).find? fun i => d.reqs.all fun r => r.id != i with
    | none => s
    | some i =>
      let r : PageReq := { id := i, ctx := w.ctx, die := w.die, vpage := w.vpage, acc := w.acc, gen := d.gen, sent := s.time, written := false }
      (((s.countDie w.die 0x10A 1 (s.carries w.ctx)).modWalk w.id fun w => { w with request := some i }).modVd v fun d => { d with reqs := d.reqs ++ [r] }).pqFlow v
        (d.reqs.length + 1)

/-! ## Walks end (06 R173, R177) -/

def State.endWalk (s : State) (id : Nat) : State := { s with walks := s.walks.filter (·.id != id) }

/-- A walk ends in a leaf: it fills the TLBs of the cores that wait, and is kept for their groups
until they issue, and for the other waiters that joined it (06 R178). -/
def State.walkLeaf (s : State) (w : Walk) (e : TlbE) : State :=
  (w.who.foldl (fun s x => match x with
    | .group c g => (s.fillTlb c e).modGroup c g fun x => { x with walkHits := e :: x.walkHits }
    | x => { s with walkKept := (x, e) :: s.walkKept.filter fun y => !(y.1 == x && y.2 == e) }) s).endWalk w.id

/-- What a waiter other than an engine operation meets of a walk's fault: a failed page request is PAGE (06 R182). -/
def FCode.ofWalk : FCode → FCode
  | .prFail => .page
  | f => f

/-- A walk ends in a fault, which is left with every waiter, whose own access to the page then takes it (06 R178). -/
def State.walkFail (s : State) (w : Walk) (f : FCode) : State :=
  let f' := f.ofWalk
  w.who.foldl (fun s x => match x with
    | .group c g => s.modGroup c g fun x => { x with walkFaults := (w.vpage, f') :: x.walkFaults }
    | .disp q => s.modQueue q fun x => { x with walkFaults := (w.vpage, f') :: x.walkFaults }
    | .op c id => if (s.core c).ops.any fun o => o.id == id && o.live then
        { s with walkFailed := (x, w.vpage, f) :: s.walkFailed } else s
    | .sinter _ _ => { s with walkFailed := (x, w.vpage, f') :: s.walkFailed }) (s.endWalk w.id)

/-- PAGE_WALK_COMPLETE: a walk of a die ends in a leaf, a fault or a page request; a third request
for its page is a fault (06 R182). While the power controller holds its reads back it does not end (10 R292). -/
def execPageWalkComplete (die id : Nat) (s : State) : Out :=
  match s.walks.find? fun w => w.id == id && w.die == die && w.request.isNone with
  | none => .next s
  | some w =>
    let r := s.walk die w.ctx (w.vpage * 4096)
    if s.walkStopped w.ctx r.reads then .next s
    else
    let s1 := (s.touchReads w.ctx r.reads).countDie die 0x109 1 (s.carries w.ctx)
    match r.res with
    | .leaf e => .next ((s1.cacheInner die r.inner).walkLeaf w e)
    | .fault f => .next (s1.walkFail w f)
    | .request => if 2 ≤ w.resolved then .next (s1.walkFail w .page) else .next (s1.sendRequest w)

/-! ## Responses and time-outs (06 R182, R183) -/

/-- The walks that wait on a request of a virtual device. -/
def State.walksOn (s : State) (v id : Nat) : List Walk :=
  s.walks.filter fun w => w.request == some id && (s.ctx w.ctx).vd == v

def State.dropReq (s : State) (v id : Nat) : State := s.modVd v fun d => { d with reqs := d.reqs.filter (·.id != id) }

/-- A request ends as failed: every access waiting on it faults PAGE, an engine operation PRFAIL (08 R251). -/
def State.requestFails (s : State) (v id : Nat) : State :=
  (s.walksOn v id).foldl (fun s w => s.walkFail w .prFail) (s.dropReq v id)

/-- PAGE_RESPONSE: the host answers a page request; the register keeps what was written (06 R182). -/
def execPageResponse (v : Nat) (val : DWord) (s : State) : Out :=
  let s := s.modVd v fun d => { d with prsp := val &&& 0xFFFFFFFF0000FF03 }
  let d := s.vd v
  let id := val.toNat / 256 % 256
  if val.toNat / 2 ^ 32 ≠ d.gen.toNat then .next { s with latepr := s.latepr + 1 }
  else if d.reqs.all fun r => r.id != id then .next s
  else if val.toNat % 4 = 0 then
    .next ((s.walksOn v id).foldl
      (fun s w => s.modWalk w.id fun w => { w with resolved := w.resolved + 1, request := none }) (s.dropReq v id))
  else .next (s.requestFails v id)

/-- PAGE_REQUEST_TIMEOUT: a request has been outstanding for longer than PRTO. -/
def execPageRequestTimeout (v id : Nat) (s : State) : Out :=
  let d := s.vd v
  match d.reqs.find? (·.id == id) with
  | none => .next s
  | some r => if r.sent + 1000000 * d.prto.toNat < s.time then .next (s.requestFails v id) else .next s

/-! ## Invalidation of translations (06 R179, R180) -/

def State.tlbBusy (s : State) : Bool := s.tlbinvc.getLsbD 63

/-- A write to TLBINVC: its fields are stored, and a MODE other than 0 starts the command; while one runs,
and with MODE 3 and NPG 0, the write is ignored (06 R179). -/
def State.tlbWrite (s : State) (mode ctx npg : Nat) : State :=
  if s.tlbBusy || (mode == 3 && npg == 0) then s
  else { s with
    tlbinvc := BitVec.ofNat 64 (packBits [(0, mode), (16, ctx), (32, npg), (63, if mode = 0 then 0 else 1)])
    tlbRun := if mode = 0 then none else some (mode, ctx, s.tlbinva.toNat / 4096 % 2 ^ 44, npg) }

/-- CTX and NPG as TLBINVC holds them. -/
def State.tlbCtx (s : State) : Nat := s.tlbinvc.toNat / 2 ^ 16 % 2 ^ 12
def State.tlbNpg (s : State) : Nat := s.tlbinvc.toNat / 2 ^ 32 % 2 ^ 16

/-- TLBINV_ALL: TLBINVC written with MODE 1, its CTX and NPG as they stand; a REGISTER_WRITE writes them
anew with any MODE. -/
def execTlbinvAll (s : State) : Out := .next (s.tlbWrite 1 s.tlbCtx s.tlbNpg)

/-- TLBINV_CTX: TLBINVC written with MODE 2 and a context, its NPG as it stands. -/
def execTlbinvCtx (ctx : BitVec 12) (s : State) : Out := .next (s.tlbWrite 2 ctx.toNat s.tlbNpg)

/-- TLBINV_RANGE: TLBINVC written with MODE 3, a context and a number of pages. -/
def execTlbinvRange (ctx : BitVec 12) (npg : BitVec 16) (s : State) : Out := .next (s.tlbWrite 3 ctx.toNat npg.toNat)

/-- Whether a command drops a translation. -/
def TlbE.dropped (e : TlbE) : Nat × Nat × Nat × Nat → Bool
  | (mode, ctx, vpg, npg) =>
    mode == 1 || (e.ctx == ctx && (mode == 2 || spansMeet (e.vbase * 2 ^ e.bits) (2 ^ e.bits) (4096 * vpg) (4096 * npg)))

/-- TLBINV_DONE: the running command ends: no TLB holds a translation it drops, the walk cache is
empty. -/
def execTlbinvDone (s : State) : Out :=
  match s.tlbRun with
  | none => .next s
  | some r =>
    .next { s with
      tlbRun := none
      tlbinvc := s.tlbinvc &&& ~~~(0x8000000000000003 : DWord)
      l2tlb := s.l2tlb.filter fun (_, e) => !e.dropped r
      walkCache := []
      walkKept := s.walkKept.filter fun (_, e) => !e.dropped r
      cores := s.cores.map fun (c, k) => (c, { k with
        tlb := k.tlb.filter fun e => !e.dropped r
        groups := k.groups.map fun (n, g) => (n, { g with walkHits := g.walkHits.filter fun e => !e.dropped r }) }) }

/-! ## The region table (06 R192 to R195) -/

/-- The end of a region's footprint on each stack of its set. -/
def RegionE.footEnd (r : RegionE) : Nat :=
  let n := max 1 (stacksOf r.stkset).length
  let str := 2 ^ (8 + r.stride.toNat)
  r.stkbase.toNat + (r.size.toNat + n * str - 1) / (n * str) * str

def RegionE.covers (r : RegionE) (dpa : Nat) : Bool := decide (r.base.toNat ≤ dpa) && decide (dpa < r.base.toNat + r.size.toNat)

/-- The first failed condition of R194, for entry `i`. -/
def State.regionCheck (s : State) (i : Nat) (r : RegionE) : Option Nat :=
  let others := (s.regions.filter fun (j, x) => j != i && x.valid).map (·.2)
  let q := 2 ^ 16
  if r.base.toNat % q ≠ 0 ∨ r.size.toNat % q ≠ 0 ∨ r.stkbase.toNat % q ≠ 0 ∨ r.size = 0
      ∨ 2 ^ 40 < r.base.toNat + r.size.toNat then some 1
  else if 8 < r.stride.toNat ∨ r.stkset = 0 then some 2
  else if (stacksOf r.stkset).any fun k => s.stackLost k || s.dieLost (k / 8) then some 3
  else if 2 ^ 36 < r.footEnd then some 4
  else if others.any fun x => spansMeet r.base.toNat r.size.toNat x.base.toNat x.size.toNat then some 5
  else if others.any fun x => x.stkset &&& r.stkset != 0
      && spansMeet r.stkbase.toNat (r.footEnd - r.stkbase.toNat) x.stkbase.toNat (x.footEnd - x.stkbase.toNat) then some 6
  else if (s.key r.key.toNat).owner != some r.owner.toNat then some 7
  else none

/-- The DPA that a region maps to a place on a stack, if it maps one: the inverse of `locate` (06 R193). -/
def RegionE.dpaAt (r : RegionE) (stack loc : Nat) : Option Nat :=
  let st := stacksOf r.stkset
  let str := 2 ^ (8 + r.stride.toNat)
  let o := loc - r.stkbase.toNat
  let off := (o / str * st.length + st.findIdx (· == stack)) * str + o % str
  if st.contains stack && decide (r.stkbase.toNat ≤ loc) && decide (off < r.size.toNat) then some (r.base.toNat + off) else none

/-- The offsets of the uncorrectable words of a line of device memory. -/
def State.lineUe (s : State) (l : Nat) : List Nat := (List.range 32).filter fun i => s.memUe.contains (false, 32 * l + i)

/-- What the stacks hold of a line of a region that is no longer valid: the line as it was written since the region
became valid, or else what stood there before, with its uncorrectable words (06 R195, R197, R199). -/
def State.keepLine (s : State) (r : RegionE) (l : Nat) : State :=
  let (stack, a) := r.locate (128 * l)
  let here (o : OldLine) : Bool := o.stack == stack && o.loc == a / 128
  let now : OldLine := { stack, loc := a / 128, line := l, key := (s.key r.key.toNat).key
                         bytes := cellsGet s.dmem (128 * l) 128, ue := s.lineUe l }
  let old := if s.written.contains l then now else { (s.oldLines.find? here).getD now with ue := s.lineUe l }
  { s with oldLines := old :: s.oldLines.filter fun o => !here o }

/-- The lines of a region that were written, or that hold uncorrectable words. -/
def State.regionLines (s : State) (r : RegionE) : List Nat :=
  ((s.written ++ s.memUe.filterMap fun (h, w) => if h then none else some (w / 32)).filter fun l => r.covers (128 * l)).eraseDups

/-- A region is no longer valid: what its lines hold stays on the stacks (06 R195). -/
def State.archive (s : State) (r : RegionE) : State :=
  let s1 := (s.regionLines r).foldl (fun s l => s.keepLine r l) s
  { s1 with written := s1.written.filter fun l => !r.covers (128 * l) }

/-- The memory of a region that becomes valid is what its places on the stacks hold: a line that was written
under the same DPA and key reads as written, any other written line reads free bytes (06 R193, R197, log 4);
an uncorrectable word stays so (06 R199). DESIGN CHOICE (log 67). -/
def State.mapRegion (s : State) (r : RegionE) : State :=
  let s1 := { s with
    dmem := s.dmem.filter fun x => !r.covers x.1
    memUe := s.memUe.filter fun (h, w) => h || !r.covers (4 * w)
    written := s.written.filter fun l => !r.covers (128 * l)
    free := s.free + 2 ^ 41 }
  s.oldLines.foldl (fun t o => match r.dpaAt o.stack (128 * o.loc) with
    | none => t
    | some a =>
      let same := a == 128 * o.line && o.key == (s.key r.key.toNat).key
      let bs := if same then o.bytes else (List.range 128).map fun i => (Config.freeWord (s.free + a + i)).setWidth 8
      { t with dmem := cellsSet t.dmem a bs, memUe := o.ue.map (fun i => (false, a / 4 + i)) ++ t.memUe }) s1

/-- The owned words of every L1 that lie in a region. -/
def State.ownedIn (s : State) (r : RegionE) : List PA :=
  s.cores.flatMap fun (_, k) => (k.l1.filter fun w => w.st == .owned && !w.pa.host && r.covers w.pa.addr).map (·.pa)

/-- An owned word of a region that is no longer valid is written under the old entry or discarded, and its L1 keeps
an unowned copy of it or none (06 R195, log 4). DESIGN CHOICE (log 68). -/
def State.dropOwned (s : State) (p : PA) : State :=
  match s.ownerOf p with
  | none => s
  | some (c, w) =>
    let s1 := if Config.freeBit s.free then s.giveUp p
      else s.modCore c fun k => { k with l1 := k.l1.filter fun x => !(x.pa == p) }
    let s2 := if Config.freeBit (s.free + 1) then s1.modCore c fun k => { k with l1 := { w with st := .unowned } :: k.l1 } else s1
    { s2 with free := s.free + 2 }

/-- A dirty line of the L2 is written back. -/
def State.lineOut (s : State) (x : L2Line) : State := s.lineMoved x.by_ x.host true (s.homeDie ⟨x.host, 128 * x.line⟩)

/-- A dirty line of device memory is discarded: it reads as HBM holds it (06 R195). -/
def State.lineLost (s : State) (x : L2Line) : State :=
  let a := 128 * x.line
  let bad := x.was.filterMap fun (o, b) => if b.isNone then some (false, (a + o) / 4) else none
  { s with
    dmem := x.was.foldl (fun m (o, b) => match b with | some v => cellSet m (a + o) v | none => m) s.dmem
    memUe := bad.eraseDups ++ s.memUe.filter fun w => !bad.contains w }

/-- The L2 lines of a region that is no longer valid leave the L2; each dirty one is written under the old entry or
discarded (06 R195, log 4). DESIGN CHOICE (log 68). -/
def State.dropLines (s : State) (r : RegionE) : State :=
  let ls := s.l2lines.filter fun x => !x.host && x.dirty && r.covers (128 * x.line)
  let s1 := ls.foldl (fun s x => { (if Config.freeBit s.free then s.lineLost x else s.lineOut x) with free := s.free + 1 }) s
  { s1 with l2lines := s1.l2lines.filter fun x => x.host || !r.covers (128 * x.line) }

def State.setRegion (s : State) (i : Nat) (r : RegionE) : State := { s with regions := alSet i r s.regions }

/-- VALID of an entry is cleared: no cache holds a word of the region that has still to be written, and what the
region held stays on its stacks (06 R195). -/
def State.clearRegion (s : State) (i : Nat) (r : RegionE) : State :=
  ((((s.ownedIn r).foldl (fun s p => s.dropOwned p) s).dropLines r).archive r).setRegion i { r with valid := false }


/-- The fields of word 0 of an entry. -/
def RegionE.word0 (r : RegionE) (val : DWord) : RegionE :=
  { r with stride := BitVec.ofNat 4 (val.toNat / 16), key := BitVec.ofNat 6 (val.toNat / 256),
           owner := BitVec.ofNat 6 (val.toNat / 65536), stkset := BitVec.ofNat 16 (val.toNat / 2 ^ 32) }

/-- REGION_ENTRY_WRITE: a write of one 64-bit word of an entry (06 R194, R195). -/
def execRegionEntryWrite (entry word : Nat) (val : DWord) (s : State) : Out :=
  let r := s.region entry
  if entry ≥ 64 then .next s
  else if r.valid then
    if word = 0 && !val.getLsbD 0 then
      .next (s.clearRegion entry r)
    else .next s
  else match word with
    | 0 =>
      let r1 := r.word0 val
      if !val.getLsbD 0 then .next (s.setRegion entry r1)
      else match s.regionCheck entry r1 with
        | some code => .next { s.setRegion entry r1 with rtstat := BitVec.ofNat 32 (256 * entry + code) }
        | none => .next { (s.mapRegion r1).setRegion entry { r1 with valid := true } with rtstat := 0 }
    | 1 => .next (s.setRegion entry { r with base := val.setWidth 40 })
    | 2 => .next (s.setRegion entry { r with size := val.setWidth 40 })
    | 3 => .next (s.setRegion entry { r with stkbase := val.setWidth 36 })
    | _ => .next s

/-! ## The region flush (06 R196) -/

def State.rflushBusy (s : State) : Bool := s.rflush.getLsbD 63

/-- RFLUSH_GO: a flush of an entry starts; an entry that is not valid will end NOTVALID. -/
def execRflushGo (entry : BitVec 6) (s : State) : Out :=
  if s.rflushBusy then .next s
  else .next { s with
    rflush := BitVec.ofNat 64 (packBits [(0, entry.toNat), (8, if (s.region entry.toNat).valid then 0 else 1), (63, 1)])
    rflushLost := false }

/-- RFLUSH_DONE: the L1s have surrendered the region's words, its L2 lines are written back, and
package cause 3 is sent. -/
def execRflushDone (s : State) : Out :=
  if !s.rflushBusy then .next s
  else
    let r := s.region (s.rflush.toNat % 64)
    let notValid := s.rflush.toNat / 256 % 256 = 1
    let s1 := if notValid then s else (s.ownedIn r).foldl (fun s p => s.surrender p) s
    let s2 := if notValid then s1 else { ((s1.l2lines.filter fun x => !x.host && x.dirty && r.covers (128 * x.line)).foldl State.lineOut s1) with
      l2lines := s1.l2lines.filter fun x => x.host || !r.covers (128 * x.line) }
    if s.heldMore s2 then .next s
    else .next ({ s2 with
      rflush := BitVec.ofNat 64 (packBits [(0, s.rflush.toNat % 64), (8, if notValid then 1 else if s.rflushLost then 2 else 0)])
      rflushLost := false }.pirq 3)

/-! ## Key slots (12 R322) -/

/-- Whether every byte of a span of device memory can be read. -/
def State.dpaOk (s : State) (a n : Nat) : Bool :=
  (List.range ((a % 256 + n + 255) / 256)).all (fun i =>
    match s.regionAt (if i = 0 then a else (a / 256 + i) * 256) with
    | none => false
    | some r => let k := (r.locate (if i = 0 then a else (a / 256 + i) * 256)).1; !s.dieLost (k / 8) && !s.stackLost k)
    && !s.ueBytes ⟨false, a⟩ n

/-- The argument of a key command. DESIGN CHOICE (log 69). -/
def State.keyArg (s : State) (n : Nat) : Option (List Byte) :=
  let a := s.keyarg.toNat
  if a % 8 = 0 && s.dpaOk a n then some (s.homeBytes ⟨false, a⟩ n) else none

/-- A key command ends with a result; of several causes any one is reported (log 4).
DESIGN CHOICE (log 69). -/
def State.keyEnd (s : State) (op : Nat) (slot owner : BitVec 6) (bad : List Nat) (act : State → State) : State :=
  let fin (s : State) (r : Nat) : State :=
    { s with keycmd := BitVec.ofNat 64 (packBits [(0, op), (2, owner.toNat), (8, slot.toNat), (16, r)]) }
  match bad with
  | [] => (fin (act s) 0).ulRec owner.toNat 7 noCtx [BitVec.ofNat 8 op, slot.setWidth 8]
  | b :: r => { fin s ((b :: r).getD (Config.freeIdx s.free (r.length + 1)) b) with free := s.free + 1 }

/-- The causes that hold of those that a slot's use has. DESIGN CHOICE (log 69). -/
def State.slotCauses (s : State) (slot owner : BitVec 6) : List Nat :=
  (if s.regions.any fun (_, r) => r.valid && r.key == slot then [1] else [])
    ++ (match (s.key slot.toNat).owner with | some o => if o = owner.toNat then [] else [2] | none => [])

def State.noVd (s : State) (owner : BitVec 6) : List Nat := if (s.vd owner.toNat).st == .free then [5] else []

def State.setKey (s : State) (slot : BitVec 6) (k : KeySlot) : State := { s with keys := alSet slot.toNat k s.keys }

/-- KEY_INSTALL: the unwrapped key pair goes into the slot. DESIGN CHOICE (log 34). DEDUCED (log 70). -/
def execKeyInstall (slot owner : BitVec 6) (s : State) : Out :=
  let arg := s.keyArg 72
  let kek := (s.vd owner.toNat).kek
  let key := arg.bind fun bs => kek.bind fun k => unwrapKey k bs
  let bad := s.slotCauses slot owner ++ (if arg.isSome && kek.isSome && key.isNone then [3] else [])
    ++ (if kek.isNone then [4] else []) ++ s.noVd owner ++ (if arg.isNone then [6] else [])
  .next (s.keyEnd 1 slot owner bad fun s => s.setKey slot { owner := some owner.toNat, key := key.getD 0 })

/-- KEY_CLEAR: the slot is zeroed and loses its owner. DEDUCED (log 70). -/
def execKeyClear (slot owner : BitVec 6) (s : State) : Out :=
  .next (s.keyEnd 2 slot owner (s.slotCauses slot owner ++ s.noVd owner) fun s => s.setKey slot {})

/-- KEY_SETKEK: the decapsulated secret becomes the key-encryption key of OWNER. DEDUCED (log 70). -/
def execKeySetkek (slot owner : BitVec 6) (s : State) : Out :=
  let arg := s.keyArg 1088
  .next (s.keyEnd 3 slot owner (s.noVd owner ++ (if arg.isNone then [6] else [])) fun s =>
    s.modVd owner.toNat fun d => { d with kek := some (Config.decapsulate d.report (arg.getD [])) })

end Sys2Proof.Machine
end

