-- ==== Sys2Proof/Machine/Quota.lean ====
section
/-! DEFINITION. Partition quotas (10 R274, R275): the slots, banks and rows of a partition on a core,
what groups and pending placements hold of them (09 R264, 10 R279). -/

namespace Sys2Proof.Machine

/-! ## Fields of PQA and PQB -/

def qSrows (a : DWord) : Nat := a.toNat / 2 ^ 32 % 2 ^ 9
def qSrowb (a : DWord) : Nat := a.toNat / 2 ^ 24 % 2 ^ 8
def qBanks (a : DWord) : Nat := a.toNat / 2 ^ 16 % 2 ^ 6
def qSlotcnt (a : DWord) : Nat := a.toNat / 2 ^ 8 % 2 ^ 6
def qSlotb (a : DWord) : Nat := a.toNat % 2 ^ 5
def qAcccnt (b : DWord) : Nat := b.toNat / 2 ^ 32 % 2 ^ 12
def qAccb (b : DWord) : Nat := b.toNat / 2 ^ 16 % 2 ^ 11
def qValid (b : DWord) : Bool := b.getLsbD 0

/-- The bits of PQA and PQB that are not reserved. -/
def pqaMask : DWord := 0x1FFFF3F3F1F
def pqbMask : DWord := 0xFFF07FF0001

/-! ## What a placement holds -/

/-- Groups of a block of `n` threads. -/
def groupsOf (n : Nat) : Nat := (n + 31) / 32

/-- Groups of a block that go to a quadrant (09 R264). -/
def groupsInQuad (n q : Nat) : Nat := ((List.range (groupsOf n)).filter fun i => i % 4 = q).length

/-- The launch of a pending claim. -/
def State.claimLaunch (s : State) (cl : Claim) : Option Launch := s.launch? cl.launch

/-- Sum, over the blocks that pending claims other than queue `me` have on a core for a partition.
DEDUCED (log 73). -/
def State.reserved (s : State) (c part : Nat) (me : Option Nat) (f : Launch → Nat) : Nat :=
  (s.claims.map fun cl => match s.claimLaunch cl with
    | some l => if some cl.queue == me || (s.ctx l.ctx).part ≠ part then 0 else (cl.cores.filter (· == c)).length * f l
    | none => 0).foldl (· + ·) 0

/-- The group slots of a partition in a quadrant, ascending (10 R275). -/
def State.quotaSlots (s : State) (part q : Nat) : List Nat :=
  (List.range (qSlotcnt (s.part part).a)).map fun i => 32 * q + qSlotb (s.part part).a + i

def Core.slotFree (k : Core) (n : Nat) : Bool := (alGet n k.groups).isNone

/-- The free group slots of a partition in a quadrant. -/
def State.freeSlots (s : State) (c part q : Nat) : List Nat := (s.quotaSlots part q).filter (s.core c).slotFree

/-- Whether a group holds a register bank (10 R280, R283). -/
def Group.holdsBank (g : Group) : Bool :=
  match g.residency with
  | .evicted _ => false
  | _ => true

/-- Banks of a quadrant that groups of a partition hold. -/
def State.banksHeld (s : State) (c part q : Nat) : Nat :=
  ((s.core c).groups.filter fun (n, g) => quadOf n == q && (s.ctx g.ctx).part == part && g.holdsBank).length

/-- Banks of a partition's quota in a quadrant of a core. DEDUCED (log 72). -/
def State.bankQuota (s : State) (c part q : Nat) : Nat := min (qBanks (s.part part).a) (s.liveBanks c q)

/-- Banks of a quadrant that groups of any partition hold: no more of them than live banks may (01 R14). -/
def State.banksTaken (s : State) (c q : Nat) : Nat := ((s.core c).groups.filter fun (n, g) => quadOf n == q && g.holdsBank).length

/-- Free banks of a quadrant: of the quota and of the live banks, those that other pending claims need set aside
(01 R14, 03 R103). DEDUCED (log 72). -/
def State.banksFree (s : State) (c part q : Nat) (me : Option Nat) : Nat :=
  min (s.bankQuota c part q - s.banksHeld c part q) (s.liveBanks c q - s.banksTaken c q)
    - s.reserved c part me fun l => groupsInQuad l.bsize q

/-- Free slots of a quadrant, those that other pending claims need set aside. -/
def State.slotsFree (s : State) (c part q : Nat) (me : Option Nat) : Nat :=
  (s.freeSlots c part q).length - s.reserved c part me fun l => groupsInQuad l.bsize q

/-- The scratchpad rows of a partition that no block on a core holds, ascending. -/
def State.freeRows (s : State) (c part : Nat) : List Nat :=
  let a := (s.part part).a
  let used := (s.core c).blocks.flatMap (·.rows)
  ((List.range (qSrows a)).map (qSrowb a + ·)).filter fun r => !used.contains r

/-- Free rows, those that other pending claims need set aside. -/
def State.rowsFree (s : State) (c part : Nat) (me : Option Nat) : Nat :=
  (s.freeRows c part).length - s.reserved c part me (·.srows)

/-- The lowest free slot of a partition whose quadrant has a free bank: where LEAVE puts a new group
(02 R52). -/
def State.leaveSlot (s : State) (c part : Nat) : Option Nat :=
  ((List.range 4).filter fun q => decide (0 < s.slotsFree c part q none) && decide (0 < s.banksFree c part q none)).findSome?
    fun q => (s.freeSlots c part q).head?

/-- Whether a core is being remapped (01 R39). -/
def State.remapping (s : State) (c : Nat) : Bool := s.lsops.any fun o => match o.kind with | .remap core _ => core == c | _ => false

end Sys2Proof.Machine
end

