-- ==== Sys2Proof/Machine/Transfer.lean ====
section
/-! DEFINITION. Control transfers (04 R111, R120; 14 R373, R375; 15 R381, R394; 16 R432, R433) and
SETM with its push (02 R65, R66; 17 R439). -/

namespace Sys2Proof.Machine

/-! ## Targets -/

/-- The checks of a target word: the fetch faults of R114, then its marker and LAND bit; `mark` is the
fault of a word that fails them. -/
def State.codeAt (s : State) (p : Pass) (g : DWord) (mark : FCode) (land : Bool) : ARes :=
  match s.xlatG p.core p.g .ex g.toNat with
  | .miss => .miss (g.toNat / 4096)
  | .map _ => .bad .prot g
  | .fault f => .bad f g
  | .ok pa => match s.codeWord p.g.launch pa with
    | none => .bad .memUe g
    | some w => if hdrMark w && (!land || hdrLand w) then .at_ g ⟨.global, p.core, pa, 4⟩ else .bad mark g

/-- The checks of a target held in a register (14 R375, 16 R432). -/
def State.targetAt (s : State) (p : Pass) (g : DWord) (mark : FCode) (land : Bool) : ARes :=
  if g.toNat ≥ 2 ^ 56 then .bad .page g
  else if g.toNat % 4 ≠ 0 then .bad .misalignedPc g
  else s.codeAt p g mark land

/-- The homes of the places of units mark the context's TDM (01 R34). -/
def State.touchAll (s : State) (p : Pass) (rs : List (Nat × Mask × ARes)) : State :=
  rs.foldl (fun s (_, _, r) => match r with | .at_ _ pl => s.touchPlace p pl | _ => s) s

/-- Write the link pair V62:V63 of a set of threads. -/
def State.link (s : State) (p : Pass) (u : Bool) (ok : Mask) : State :=
  let full := ok == p.g.active
  let one (n : Nat) (w : Word) (g : Group) : Group := g.setReg n ((g.reg n).write u full ok none fun _ => w)
  s.modGroup p.core p.gid fun g => one 63 (p.cl.next.extractLsb' 32 32) (one 62 (p.cl.next.setWidth 32) g)

/-- Whether the link pair must wait for an MMA (08 R241). -/
def State.linkHeld (s : State) (p : Pass) : Bool := (s.core p.core).bHeld p.gid p.g 62 || (s.core p.core).bHeld p.gid p.g 63

/-- The end of a transfer's pass: each committed thread takes its own address. -/
def State.go (s : State) (p : Pass) (i : Instr) (ok : Mask) (faults : List ThFault) (target : Nat → DWord) : State :=
  s.passEnd p.core p.gid (lenOf i) (finfoWord (headOf i)) ok faults (p.g.noLatch p.cl.res (headOf i) ok) target

/-! ## BRA and CALL (14 R373) -/

/-- The target of BRA, CALL and SETM (04 R120). -/
def dispTarget (p : Pass) (disp : BitVec 19) : DWord := p.cl.next + BitVec.ofInt 64 (4 * disp.toInt)

/-- The threads of a pass that take a branch. -/
def takenOf (p : Pass) (f : Bra) : Mask :=
  let bits := (p.g.pred f.p.toNat).bits
  maskWhere fun t => p.ex.getLsbD t && bits.getLsbD (if f.u then lowSlot p.ex else t) == f.s

def State.branch (s : State) (i : Instr) (f : Bra) (call : Bool) : State :=
  s.prePass i f.u f.u (fun _ => []) (if f.u then [f.p] else []) false fun p _ _ =>
    let taken := takenOf p f
    let g := dispTarget p f.disp
    let dest (t : Nat) : DWord := if taken.getLsbD t then g else p.cl.next
    if taken == 0 then s.go p i p.ex [] dest
    else if call && s.linkHeld p then s
    else match s.codeAt p g .misalignedPc false with
      | .miss v => s.walkBreak p .ex [v]
      | .bad c _ =>
        (if c.atHome then s.touchLost p.core p.g.ctx p.g.walkHits g.toNat else s).go p i (p.ex &&& ~~~taken) (faultsOf taken c g) dest
      | .at_ _ pl =>
        let s1 := (s.tlbMissed p.core p.g.ctx p.g.walkHits [g.toNat]).touchPlace p pl
        (if call then s1.link p f.u taken else s1).go p i p.ex [] dest
      | .map _ _ => s

def execBra (f : Bra) (s : State) : Out := .next (s.branch (.bra f) f false)
def execCall (f : Bra) (s : State) : Out := .next (s.branch (.call f) f true)

/-! ## JMPR, CALLR, RET (15 R394, 14 R375, 16 R432) -/

/-- A transfer to an address held in a register. -/
def State.jump (s : State) (i : Instr) (u : Bool) (a : Src) (mark : FCode) (land link : Bool) : State :=
  let o : LOp := { i, u, srcs := [(a, true)], dynRegs := fun _ _ _ => if link then [62, 63] else [] }
  s.laneFront o fun p vs ue =>
    let rs := (unitsOf u (p.ex &&& ~~~ue)).map fun (j, m) => (j, m, s.targetAt p ((sv vs 0).dw j) mark land)
    match missesOf rs with
    | _ :: _ => s.walkBreak p .ex (missesOf rs)
    | [] =>
      let ok := maskOf (goodOf rs)
      let s1 := (s.looks p none rs).touchAll p (goodOf rs)
      (if link && ok != 0 then s1.link p u ok else s1).go p i ok (faultsOf ue .memUe 0 ++ badOf rs)
        fun t => (sv vs 0).dw (if u then lowSlot p.ex else t)

def execJmpr (u : Bool) (a : Src) (s : State) : Out := .next (s.jump (.jmpr u a) u a .landing true false)
def execCallr (u : Bool) (a : Src) (s : State) : Out := .next (s.jump (.callr u a) u a .landing true true)
def execRet (u : Bool) (s : State) : Out := .next (s.jump (.ret u) u (.v 62) .misalignedPc false false)

/-! ## Errors recorded against threads (03 R89, 16 R429) -/

/-- The fault recorded against a thread, with the PC and the address of its access. -/
def Thread.due (t : Thread) : Option (FCode × DWord × DWord) :=
  match t.tokErr with
  | e :: _ => some (e.code, e.pc, e.ea)
  | [] => t.redUe.map fun (pc, ea) => (.memUe, pc, ea)

/-- The threads of a set with a recorded error. -/
def Group.dueMask (g : Group) (m : Mask) : Mask := maskWhere fun i => m.getLsbD i && (g.th i).due.isSome

/-- Raise the recorded errors of a set of threads: FPC names the access, and those that a debugger steps halt at the
instruction that faults (13 R351). -/
def State.raiseDue (s : State) (c gid : Nat) (m : Mask) : State :=
  match s.group? c gid with
  | none => s
  | some g =>
    let bad := g.dueMask m
    if bad == 0 then s
    else
      let at_ (i : Nat) : FCode × DWord × DWord := ((g.th i).due).getD (.memUe, 0, 0)
      (((s.stepFault c gid bad).modGroup c gid fun g => g.modThs bad fun _ t => { t with tokErr := [], redUe := none }).raise c gid
        ⟨0, (at_ (lowSlot bad)).2.1, 0, (slotsOf bad).map fun i => ⟨i, (at_ i).1, (at_ i).2.2⟩⟩).settle c gid

/-! ## EXIT (15 R381) -/

/-- Threads exit: in a region only at its commit point (10 R286), else the block counts them. -/
def State.exitNow (s : State) (c gid : Nat) (m : Mask) : State :=
  match s.group? c gid with
  | none => s
  | some g =>
    let g1 := g.modThs m fun _ t => { t with st := .exited }
    match g.region with
    | some r => s.setGroup c gid { g1 with region := some { r with exits := r.exits ||| m } }
    | none => (s.setGroup c gid g1).countExits c g.blk (slotCount m)

/-- The threads of a set with loads outstanding. -/
def Core.loading (k : Core) (gid : Nat) (m : Mask) : Mask :=
  maskWhere fun t => m.getLsbD t && !(k.loadsOf gid (1#32 <<< t)).isEmpty

def execExit (u : Bool) (s : State) : Out :=
  let i : Instr := .exit u
  .next (s.prePass i false false (fun _ => []) [] false fun p _ _ =>
    let waits := (s.core p.core).loading p.gid p.ex
    let rest := p.ex &&& ~~~waits
    let bad := if u && p.g.dueMask rest != 0 then rest else p.g.dueMask rest
    let ok := rest &&& ~~~bad
    let s1 := s.exitNow p.core p.gid ok
    let s2 :=
      if waits == 0 then s1.go p i ok [] fun _ => p.cl.pc
      else (((s1.modGroup p.core p.gid fun g => g.waitThs waits .exitLoads).passStep p.core p.gid (lenOf i)
        (finfoWord (headOf i)) ok [] {} fun _ => p.cl.pc)).breakClause p.core p.gid .load
    if bad == 0 then s2 else s2.raiseDue p.core p.gid rest)

/-! ## RGNA (16 R433) -/

/-- RGNA restarts the region; one that the group's eviction overtakes leaves the restart to it. -/
def execRgna (u : Bool) (s : State) : Out :=
  let i : Instr := .rgna u
  .next (s.prePass i false false (fun _ => []) [] false fun p _ _ =>
    if p.g.region.isNone then s.go p i 0 (faultsOf p.ex .illegalOpcode 0) fun _ => p.cl.pc
    else
      let s1 := s.passStep p.core p.gid (lenOf i) (finfoWord (headOf i)) p.ex [] {} fun _ => p.cl.pc
      if (s.core p.core).spills.any fun x => x.gid == p.gid then s1.dropClause p.core p.gid
      else s1.restartGroup p.core p.gid false)

/-! ## SETM (17 R439) -/

/-- Where a thread's push goes: NEST_OVERFLOW first, then the address of R66. -/
def State.pushAt (s : State) (p : Pass) (t : Nat) : ARes :=
  let x := p.g.th t
  if x.nest == 255 then .bad .nestOverflow 0
  else
    let va := s.meetVa p.core p.g x x.nest.toNat
    match s.xlatG p.core p.g .wr va with
    | .ok pa => .at_ (BitVec.ofNat 64 va) ⟨.global, p.core, pa, 8⟩
    | .map _ => .bad .prot (BitVec.ofNat 64 va)
    | .miss => .miss (va / 4096)
    | .fault f => .bad f (BitVec.ofNat 64 va)

/-- Issue the pushes of a pass. -/
def State.issuePushes (s : State) (p : Pass) (rs : List (Nat × Mask × ARes)) : State :=
  s.modCore p.core fun k => { k with pushes := k.pushes ++ rs.filterMap fun (t, _, r) => match r with
    | .at_ _ pl => some { gid := p.gid, slot := t, pa := pl.pa, val := (p.g.th t).meet }
    | _ => none }

/-- SETM pushes MEET and sets it to its target. -/
def execSetm (disp : BitVec 19) (s : State) : Out :=
  let i : Instr := .setm disp
  .next (s.prePass i false false (fun _ => []) [] false fun p _ _ =>
    let rs := (unitsOf false p.ex).map fun (t, m) => (t, m, s.pushAt p t)
    match missesOf rs with
    | _ :: _ => s.walkBreak p .wr (missesOf rs)
    | [] =>
      let ok := maskOf (goodOf rs)
      let s1 := ((s.looks p none rs).touchAll p (goodOf rs)).issuePushes p (goodOf rs)
      let s2 := s1.modGroup p.core p.gid fun g => g.modThs ok fun _ t =>
        { t with meet := dispTarget p disp, nest := t.nest + 1, wait := .setm, starve := 0 }
      s2.fin p i ok (badOf rs))

/-- MEET_PUSH_DONE: a push is written and its thread is eligible again (17 R439). -/
def execMeetPushDone (core gid slot : Nat) (s : State) : Out :=
  match (s.core core).pushes.find? (fun x => x.gid == gid && x.slot == slot) with
  | none => .next s
  | some x =>
    let ctx := ((s.group? core gid).map (·.ctx)).getD 0
    let s0 := s.modCore core fun k => { k with pushes := k.pushes.erase x }
    match s.checkPa (s.ctx ctx).vd x.pa with
    | some f => .next (s0.lateFault ctx ⟨core, gid, slot, (((s.group? core gid).map fun g => (g.th slot).pc)).getD 0⟩ f)
    | none =>
      let s1 := (s0.homeWrite (s.workOf ctx) x.pa (leBytes 8 x.val.toNat)).dropCopies (s.l1Of core) x.pa 8
      if s.heldMore s1 || s.hbmHolds (s.clsOf ctx) x.pa 8 then .next s
      else .next (s1.modGroup core gid fun g => g.wakeThs (1#32 <<< slot) .setm)

end Sys2Proof.Machine
end

