-- ==== Sys2Proof/Machine/Member.lean ====
section
/-! DEFINITION. JOIN and LEAVE (02 R51 to R55; 15 R395 to R397): their passes, and the one event at
which the threads move. -/

namespace Sys2Proof.Machine

/-! ## The pass -/

/-- The pass of JOIN or LEAVE ends the clause; the movers stay on the instruction until the move. -/
def State.movePass (s : State) (p : Pass) (i : Instr) (target : Option Nat) (pred : Nat) : State :=
  let (seq, s1) := s.fresh
  let s2 := s1.passStep p.core p.gid (lenOf i) (finfoWord (headOf i)) 0 [] {} fun _ => p.cl.pc
  match (s2.group? p.core p.gid).bind (·.clause) with
  | none => s2
  | some cl =>
    let past := s2.clauseOver p.core p.gid
    ((s2.dropClause p.core p.gid).modGroup p.core p.gid fun g =>
      { g with wait := .joining (p.cl.after (lenOf i)) p.ex target pred seq (past && cl.re), ylast := past && cl.yld }).settle
        p.core p.gid

/-- JOIN moves its threads into another group. -/
def execJoin (a : Src) (s : State) : Out :=
  let i : Instr := .join a
  .next (s.laneFront { i, srcs := [(a, false)], forceUni := true } fun p vs ue =>
    if ue != 0 then s.fin p i 0 (faultsOf p.ex .memUe 0)
    else s.movePass p i (some ((sv vs 0).w (lowSlot p.ex)).toNat) 7)

/-- LEAVE takes its threads out of their group. -/
def execLeave (q : BitVec 3) (s : State) : Out :=
  let i : Instr := .leave q
  .next (s.prePass i false false (fun _ => []) [] false fun p _ _ => s.movePass p i none q.toNat)

/-! ## Moving columns -/

/-- The movers with their new slots: ascending old slots take the given slots in order. -/
def moveMap (movers : Mask) (slots : List Nat) : List (Nat × Nat) := slots.zip (slotsOf movers)

/-- The old slot that a new slot takes. -/
def oldOf (mv : List (Nat × Nat)) (i : Nat) : Option Nat := (mv.find? (·.1 == i)).map (·.2)

/-- A register of the target: the movers' values join its own. -/
def Reg.take (tgt old : Reg) (mv : List (Nat × Nat)) : Reg :=
  { shape := column fun i => match oldOf mv i with | some j => old.shape.val j | none => tgt.shape.val i
    ue := maskWhere fun i => match oldOf mv i with | some _ => false | none => tgt.ue.getLsbD i }

/-- A predicate of the target. -/
def Pred.take (tgt old : Pred) (mv : List (Nat × Nat)) (uni : Bool) : Pred :=
  { bits := maskWhere fun i => match oldOf mv i with | some j => old.bits.getLsbD j | none => tgt.bits.getLsbD i, uni }

/-- A thread whose move is over or abandoned: a debugger's HALT that waited for that takes effect
(02 R55). -/
def Thread.settleHalt (t : Thread) : Thread :=
  if t.haltDue then { t with halted := true, haltDue := false, stepping := false, starve := 0 } else t

/-- The threads of the target. -/
def takeThreads (tgt old : List Thread) (mv : List (Nat × Nat)) (next : DWord) : List Thread :=
  (List.range 32).map fun i => match oldOf mv i with
    | some j => ((old.getD j {}).goOn next).settleHalt
    | none => tgt.getD i {}

/-- A group whose movers have gone: their slots are empty. -/
def Group.vacate (g : Group) (movers : Mask) : Group := g.modThs movers fun _ _ => {}

/-- Whether a word of the movers' columns is uncorrectable (03 R102). -/
def Group.moveUe (g : Group) (movers : Mask) : Bool := g.regs.any fun r => (r.ue &&& movers) != 0

/-- What the unfilled slots of a new group's columns hold: the spec gives no value (log 4).
DESIGN CHOICE (log 46). -/
def State.blankReg (s : State) (n : Nat) : Reg := { shape := column fun i => (s.peek (32 * n + i)).setWidth 32 }

/-- The group that LEAVE forms (02 R52); its engine draw index (08 R231) starts at 0. DESIGN CHOICE (log 46, 147). -/
def State.newGroup (s : State) (g : Group) (mv : List (Nat × Nat)) (next : DWord) : Group :=
  { ctx := g.ctx, launch := g.launch, blk := g.blk, stage := g.stage, placed := false, fcr := g.fcr, seed := g.seed,
    trapv := g.trapv
    regs := (List.range 64).map fun n => match (g.reg n).shape with
      | .uniform w => { shape := .uniform w }
      | _ => (s.blankReg n).take (g.reg n) mv
    preds := (List.range 7).map fun n =>
      let q := g.pred n
      if q.uni then q else ({ bits := (s.peek (2048 + n)).setWidth 32, uni := false } : Pred).take q mv false
    threads := takeThreads [] g.threads mv next }

/-- The target of a JOIN with the movers in it (02 R53). DEDUCED (log 44). -/
def Group.joined (t g : Group) (mv : List (Nat × Nat)) (next : DWord) : Group :=
  { t with
    placed := false
    regs := (List.range 64).map fun n => (t.reg n).take (g.reg n) mv
    preds := (List.range 7).map fun n => (t.pred n).take (g.pred n) mv false
    threads := takeThreads t.threads g.threads mv next }

/-- The old group of a JOIN: every column general, every predicate's flag cleared. DEDUCED (log 44). -/
def Group.loosen (g : Group) : Group :=
  { g with placed := false, regs := g.regs.map Reg.spread, preds := g.preds.map fun q => { q with uni := false } }

/-! ## The move -/

/-- Trace records of threads that have moved: of those that were stepped, and of those whose HALT waited
(13 R353). -/
def State.traceMoved (s : State) (c gid : Nat) (g : Group) (mv : List (Nat × Nat)) : State :=
  mv.foldl (fun s (i, j) =>
    let s1 := if (g.th j).stepping then s.trace c gid i 2 0 else s
    if (g.th j).haltDue then s1.trace c gid i 5 0 else s1) s

/-- The slots of the movers among some slots of their old group. -/
def movedMask (mv : List (Nat × Nat)) (m : Mask) : Mask :=
  maskWhere fun i => match oldOf mv i with | some j => m.getLsbD j | none => false

/-- Movers take what they have in flight with them (02 R54). -/
def State.moveInFlight (s : State) (c gid t : Nat) (movers : Mask) (mv : List (Nat × Nat)) : State :=
  s.modCore c fun k => k.rekey gid fun m => [(gid, m &&& ~~~movers), (t, movedMask mv m)]

/-- Movers that have not moved: their HALTs take effect. -/
def State.settleHalts (s : State) (c gid : Nat) (movers : Mask) : State :=
  match s.group? c gid with
  | none => s
  | some g =>
    let due := maskWhere fun i => movers.getLsbD i && (g.th i).haltDue
    if due == 0 then s
    else (s.setGroup c gid (g.modThs due fun _ t => t.settleHalt)).traceAll c gid due 5 0

/-- A LEAVE that moves nothing reports and goes on. DEDUCED (log 45). -/
def State.leaveStay (s : State) (c gid : Nat) (next : DWord) (movers : Mask) (pred : Nat) (re ok : Bool) : State :=
  let stepped := match s.group? c gid with | some g => g.steppedIn movers | none => 0
  let s1 := (s.modGroup c gid fun g =>
    { (g.setPred pred false movers (if ok then movers else 0)).modThs movers fun _ t => t.goOn next with wait := .none }).traceAll
      c gid stepped 2 0
  ((if re then s1.commitRegion c gid else s1).settleHalts c gid movers).tryRetire c gid

/-- LEAVE's conditions and its move (02 R52, 15 R396). DEDUCED (log 45). DESIGN CHOICE (log 46). -/
def State.leaveMove (s : State) (c gid : Nat) (g : Group) (next : DWord) (movers : Mask) (pred : Nat) (re : Bool) : State :=
  if g.region.isSome || g.quartet.isSome || g.handler then s.leaveStay c gid next movers pred re false
  else if movers == g.active then s.leaveStay c gid next movers pred re true
  else match s.leaveSlot c (s.ctx g.ctx).part with
    | none => s.leaveStay c gid next movers pred re false
    | some n =>
      if g.moveUe movers then (s.stepFault c gid movers).stopCtx g.ctx .memUe 0 0 (stopLoc c gid (lowSlot movers))
      else
        let mv := moveMap movers (List.range (slotCount movers))
        let g1 := s.newGroup g mv next
        let here := maskWhere fun i => (oldOf mv i).isSome
        let s1 := ({ s with free := s.free + 2055 }.setGroup c gid { g.vacate movers with wait := .none }).setGroup c n
          (g1.setPred pred false here here)
        (s1.moveInFlight c gid n movers mv).traceMoved c n g mv

/-- Whether a JOIN is invalid (02 R53, 15 R397). -/
def State.joinBad (s : State) (c gid : Nat) (g : Group) (t : Nat) (movers : Mask) : Bool :=
  match s.group? c t with
  | none => true
  | some x => x.blk != g.blk || t == gid || decide (slotCount x.freeSlots < slotCount movers) || g.quartet.isSome
      || x.quartet.isSome || g.region.isSome || g.handler || x.handler || x.region.isSome

/-- Whether an earlier JOIN to the same target stands before one. DEDUCED (log 43). -/
def Core.joinAfter (k : Core) (t seq : Nat) : Bool :=
  k.groups.any fun (_, y) => match y.wait with
    | .joining _ _ (some t') _ seq' _ => t' == t && decide (seq' < seq)
    | _ => false

/-- Whether the target still holds a lane, is not resident, or is in trap entry, which one whose own JOIN is pending
enters only after it. DEDUCED (log 43). -/
def Core.joinBusy (k : Core) (t : Nat) : Bool :=
  match alGet t k.groups with
  | some x => x.clause.isSome || x.residency != .resident
      || (!x.pend.isEmpty && (match x.wait with | .joining .. => false | _ => true)) || k.spills.any (·.gid == t)
  | none => false

/-- JOIN's conditions and its move. -/
def State.joinMove (s : State) (c gid : Nat) (g : Group) (next : DWord) (movers : Mask) (t seq : Nat) : State :=
  if (s.core c).joinAfter t seq then s
  else if s.joinBad c gid g t movers then
    ((((s.setGroup c gid { g with wait := .none }).settleHalts c gid movers).stepFault c gid movers).raise c gid
      ⟨0, (g.th (lowSlot movers)).pc, 0xE000, faultsOf movers .joinInvalid 0⟩).settle c gid
  else if (s.core c).joinBusy t then s
  else match s.group? c t with
    | none => s
    | some x =>
      if g.moveUe movers then (s.stepFault c gid movers).stopCtx g.ctx .memUe 0 0 (stopLoc c gid (lowSlot movers))
      else
        let mv := moveMap movers (slotsOf x.freeSlots)
        let s1 := (s.setGroup c gid { (g.vacate movers).loosen with wait := .none }).setGroup c t (x.joined g mv next)
        ((s1.moveInFlight c gid t movers mv).traceMoved c t g mv).tryRetire c gid

/-- JOIN_LEAVE_COPY_DONE: the loads of the movers are in, an error recorded against one is raised, the
conditions are tested and the threads move (15 R396). DEDUCED (log 43). -/
def execJoinLeaveCopyDone (core gid : Nat) (s : State) : Out :=
  match s.group? core gid with
  | none => .next s
  | some g =>
    match g.wait with
    | .joining next movers target pred seq re =>
      let k := s.core core
      let st := (s.ctx g.ctx).st
      if !(st == .active || st == .draining) || g.residency != .resident || k.spills.any (·.gid == gid)
          || k.loading gid movers != 0 then .next s
      else if g.dueMask movers != 0 then
        .next (((s.setGroup core gid { g with wait := .none }).settleHalts core gid movers).raiseDue core gid movers)
      else match target with
        | none => .next (s.leaveMove core gid g next movers pred re)
        | some t => .next (s.joinMove core gid g next movers t seq)
    | _ => .next s

end Sys2Proof.Machine
end

