-- ==== Sys2Proof/Machine/Evict.lean ====
section
/-! DEFINITION. Save images of groups (03 R99 to R101, 11 R313), eviction of H groups and their
return by the Sinter engines (10 R279 to R284, 14 R368). -/

namespace Sys2Proof.Machine

/-! ## The image of a group (03 R99, R100) -/

/-- A register in the register area. -/
def Reg.bytes (r : Reg) : List Byte :=
  match r.shape with
  | .uniform w => leBytes 4 w.toNat
  | .affine b d => leBytes 4 b.toNat ++ leBytes 4 d.toNat
  | .general _ => (List.range 32).flatMap fun i => leBytes 4 (r.shape.val i).toNat

/-- A thread-area entry. -/
def Thread.bytes (t : Thread) : List Byte :=
  match t.st with
  | .empty => List.replicate 24 0
  | _ => leBytes 8 t.pc.toNat ++ leBytes 8 t.meet.toNat ++ leBytes 2 t.tix.toNat ++ leBytes 2 t.ssadv.toNat
      ++ [t.nest, if t.st == .exited then 2 else if t.halted then 3 else 1, 0, 0]

/-- The trap record of a group in handler mode (11 R313). -/
def Group.trapRecord (g : Group) : List Byte :=
  leBytes 8 g.fpc.toNat ++ leBytes 4 g.finfo.toNat ++ leBytes 4 g.fmask.toNat ++ leBytes 4 g.hset.toNat
    ++ leBytes 4 g.rteDone.toNat ++ leBytes 4 g.rteSkip.toNat ++ (List.range 32).map (g.fcode.getD · 0) ++ leBytes 4 0

/-- The save image of a group. DEDUCED (log 80). -/
def Group.image (g : Group) : List Byte :=
  leBytes 16 (packBits ((List.range 64).map fun i => (2 * i, (g.reg i).shape.tag)))
    ++ (List.range 64).flatMap (fun i => (g.reg i).bytes)
    ++ (List.range 7).flatMap (fun i => leBytes 4 (g.pred i).bits.toNat)
    ++ [BitVec.ofNat 8 (packBits ((List.range 7).map fun i => (i, (g.pred i).uni.toNat))), 0, 0, 0]
    ++ (List.range 32).flatMap (fun i => (g.th i).bytes)
    ++ leBytes 4 g.tile ++ leBytes 4 g.fcr.toNat ++ leBytes 4 g.fsr.toNat ++ leBytes 4 g.seed.toNat
    ++ (if g.handler then g.trapRecord else [])

/-- Whether some stored word of the group is uncorrectable (03 R102). DEDUCED (log 79). -/
def Group.imageUe (g : Group) : Bool := g.regs.any fun r => r.ue != 0

/-! ## Reading an image (03 R101) -/

/-- Bytes of the register area for tag code `t`. -/
def tagBytes (t : Nat) : Nat := if t = 0 then 4 else if t = 1 then 8 else 128

/-- The registers of a register area. -/
def parseRegs (bs : List Byte) : List Nat → Nat → List Reg
  | [], _ => []
  | t :: r, o =>
    let w (k : Nat) : Word := BitVec.ofNat 32 (fieldAt bs (o + 4 * k) 4)
    { shape := if t = 0 then .uniform (w 0) else if t = 1 then .affine (w 0) (w 1) else .general ((List.range 32).map w) }
      :: parseRegs bs r (o + tagBytes t)

/-- A thread from its entry; `dbg` keeps a halted one halted (11 R315). -/
def parseThread (bs : List Byte) (o : Nat) (dbg : Bool) : Thread :=
  match fieldAt bs (o + 21) 1 with
  | 0 => {}
  | st =>
    { st := if st = 2 then .exited else .active, pc := BitVec.ofNat 64 (fieldAt bs o 8),
      meet := BitVec.ofNat 64 (fieldAt bs (o + 8) 8), tix := BitVec.ofNat 16 (fieldAt bs (o + 16) 2),
      ssadv := BitVec.ofNat 16 (fieldAt bs (o + 18) 2), nest := BitVec.ofNat 8 (fieldAt bs (o + 20) 1),
      halted := st == 3 && dbg }

/-- Whether a thread entry keeps the rules of R100. -/
def threadOk (bs : List Byte) (o : Nat) : Bool :=
  let st := fieldAt bs (o + 21) 1
  decide (st ≤ 3) && pz bs (o + 22) 2 && (st != 0 || pz bs o 24)

/-- Whether a trap record keeps the rules of R101. -/
def trapOk (bs : List Byte) (o : Nat) : Bool :=
  let f (k : Nat) : Word := BitVec.ofNat 32 (fieldAt bs (o + k) 4)
  pz bs (o + 60) 4 && (f 12 &&& ~~~(f 16)) == 0 && (f 20 &&& ~~~(f 16)) == 0 && (f 24 &&& ~~~(f 20)) == 0

/-- The tag codes of an image. -/
def imageTags (bs : List Byte) : List Nat := (List.range 64).map fun i => fieldAt bs 0 16 / 4 ^ i % 4

/-- The end of the register area. -/
def imageRegsEnd (bs : List Byte) : Nat := (imageTags bs).foldl (fun n t => n + tagBytes t) 16

/-- The length of an image that its own tags give. -/
def imageLen (handler : Bool) (bs : List Byte) : Nat := imageRegsEnd bs + 816 + (if handler then 64 else 0)

/-- Whether an image passes every check of R101. -/
def imageOk (handler : Bool) (bs : List Byte) : Bool :=
  let p := imageRegsEnd bs
  decide (16 ≤ bs.length) && (imageTags bs).all (· != 3) && bs.length == imageLen handler bs
    && pf bs (p + 28) 7 1 == 0 && pz bs (p + 29) 3
    && (List.range 32).all (fun i => threadOk bs (p + 32 + 24 * i))
    && [2, 4, 8, 16, 32].contains (fieldAt bs (p + 800) 4)
    && (!handler || trapOk bs (p + 816))

/-- Whether the slots in use hold consecutive thread indices in slot order, as in a group formed at
placement (02 R46; log 31). -/
def contiguous (ts : List Thread) : Bool :=
  let used := ts.zipIdx.filter fun (t, _) => t.st != .empty
  used.all fun (t, i) => used.all fun (u, j) => t.tix.toNat + j == u.tix.toNat + i

/-- The wait that a group keeps while it has no bank: that for the end of a barrier it has met (07 R215). -/
def GWait.kept : GWait → GWait
  | .barEnd m => .barEnd m
  | _ => .none

/-- What an image gives its group; the rest of the group stays as it is. DEDUCED (log 31, 80). -/
def Group.load (g : Group) (bs : List Byte) (dbg : Bool) : Group :=
  let p := imageRegsEnd bs
  let w (o : Nat) : Word := BitVec.ofNat 32 (fieldAt bs o 4)
  let ts := (List.range 32).map fun i =>
    { parseThread bs (p + 32 + 24 * i) dbg with redUe := (g.th i).redUe, tokErr := (g.th i).tokErr }
  let g1 := { g with
    regs := parseRegs bs (imageTags bs) 16
    preds := (List.range 7).map fun i => { bits := w (p + 4 * i), uni := fieldAt bs (p + 28) 1 / 2 ^ i % 2 == 1 }
    threads := ts, tile := fieldAt bs (p + 800) 4
    fcr := w (p + 804) &&& fcrMask, fsr := w (p + 808) &&& fsrMask, seed := w (p + 812)
    engIdx := 0, savedWait := g.savedWait.kept, tokens := List.replicate 6 0, cp := 0, gt := 0, mt := 0, cl := 0
    clause := none, wait := g.wait.kept, pend := [], walkFaults := [], walkHits := [], residency := .resident }
  if g.handler then
    let o := p + 816
    { g1 with fpc := BitVec.ofNat 64 (fieldAt bs o 8), finfo := w (o + 8), fmask := w (o + 12), hset := w (o + 16)
              rteDone := w (o + 20), rteSkip := w (o + 24)
              fcode := (List.range 32).map fun i => BitVec.ofNat 8 (fieldAt bs (o + 28 + i) 1) }
  else g1.dropTrap

/-- How an access of the Sinter engine, or of a save or a restore, ends: with the state after it, which keeps the
dies that it has touched when it faults (01 R34). -/
inductive SRes (α : Type) where
  | ok (x : α) (s : State)
  | wait (s : State)
  | fault (f : FCode) (s : State)

/-- Sinter, a save or a restore writes a context's memory for a group (10 R282). DEDUCED (log 32). -/
def State.sinterWrite (s : State) (c gid ctx va : Nat) (bs : List Byte) : SRes Unit :=
  match s.gwrite (dieOf c) ctx (.sinter c gid) va bs with
  | (.ok _, s1) => .ok () s1
  | (.fault f _, s1) => .fault f s1
  | (.wait, s1) => .wait s1

/-- They read it. DEDUCED (log 32). -/
def State.sinterRead (s : State) (c gid ctx va n : Nat) : SRes (List Byte) :=
  match s.gread (dieOf c) ctx (.sinter c gid) va n with
  | (.ok bs, s1) => .ok bs s1
  | (.fault f _, s1) => .fault f s1
  | (.wait, s1) => .wait s1

/-- TPC and FADDR of the handler set of a group of block `bix`, reloaded from the trap area (11 R313). -/
def State.reloadTrap (s : State) (c gid bix : Nat) (g : Group) : SRes Group :=
  if !g.handler then .ok g s
  else (slotsOf g.hset).foldl (fun r i => match r with
    | .ok g s =>
      match s.sinterRead c gid g.ctx (((s.ctx g.ctx).trapbase.toNat + 16 * (bix * 1024 + (g.th i).tix.toNat)) % 2 ^ 64) 16 with
      | .ok bs s1 => .ok { g with
          tpc := listMod g.tpc i fun _ => BitVec.ofNat 64 (fieldAt bs 0 8)
          faddr := listMod g.faddr i fun _ => BitVec.ofNat 64 (fieldAt bs 8 8) } s1
      | .fault f s1 => .fault f s1
      | .wait s1 => .wait s1
    | e => e) (.ok g s)

/-! ## Where images go (10 R282) -/

/-- The address of a group's image in the spill area. -/
def State.spillVa (s : State) (c ctx gid : Nat) : Nat := ((s.ctx ctx).spill.toNat + 9216 * (c * 128 + gid)) % 2 ^ 64

/-- A fault of an access made for a whole context stops it (10 R282). DEDUCED (log 32). -/
def State.sinterFault (s : State) (c gid ctx : Nat) (f : FCode) : State :=
  let s1 := s.forgetWalks (.sinter c gid)
  if f = .dieLost then s1.loseCtx ctx else s1.stopCtx ctx f 0 0 (stopLoc c gid 0)

/-! ## Eviction begins (10 R280, R284) -/

/-- The group's move is abandoned: its movers stay, and a HALT that waited takes effect (02 R55). -/
def State.abandonMove (s : State) (c gid : Nat) : State :=
  match (s.group? c gid).map Group.wait with
  | some (GWait.joining _ m _ _ _ _) => (s.modGroup c gid fun g => { g with wait := .none }).settleHalts c gid m
  | _ => s

/-- JOINs and LEAVEs of a group, and JOINs to it, are abandoned (02 R55). -/
def State.abandonMoves (s : State) (c gid : Nat) : State :=
  ((s.core c).groups.filterMap fun (n, g) => match g.wait with
    | .joining _ _ t _ _ _ => if n = gid ∨ t = some gid then some n else none
    | _ => none).foldl (fun s n => s.abandonMove c n) s

/-- LNCHs of a group whose queue step has not taken effect are abandoned: their threads go back to
them (15 R403). -/
def State.abandonLnch (s : State) (c gid : Nat) : State :=
  let ls := (s.core c).lnchs.filter (·.gid == gid)
  let s1 := s.modCore c fun k => { k with lnchs := k.lnchs.filter (·.gid != gid) }
  s1.modGroup c gid fun g => ls.foldl (fun g l => g.modThs l.mask fun _ t => { t with pc := l.pc, wait := .none }) g

/-- The threads of a barrier arrival that is in a group's saved wait go back in their TPC, which the trap area holds
(11 R298, log 33). -/
def State.withdrawTpc (s : State) (c gid : Nat) (g : Group) : SRes Unit :=
  match g.savedWait with
  | .bar m pc => (slotsOf (m &&& g.hset)).foldl (fun r i => match r with
      | .ok _ s => s.sinterWrite c gid g.ctx (((s.ctx g.ctx).trapbase.toNat + 16 * ((s.blockOf c g).bix * 1024 + (g.th i).tix.toNat)) % 2 ^ 64)
          (leBytes 8 pc.toNat)
      | e => e) (.ok () s)
  | _ => .ok () s

/-- The arrival of a group at the barrier is withdrawn and its threads go back to the BAR; one that
arrived before its trap entry goes back in its TPC (14 R368). DEDUCED (log 33). -/
def State.withdraw (s : State) (c gid : Nat) : State :=
  match s.group? c gid with
  | none => s
  | some g =>
    let drop (s : State) (m : Mask) : State := s.modCore c fun k => k.modBlock g.blk fun b =>
      let n := b.barArrived - slotCount m
      { b with barArrived := n, barTarget := if n = 0 then 0 else b.barTarget }
    let s1 := match g.wait with
      | .bar m pc => (drop s m).modGroup c gid fun g => { g.modThs m (fun _ t => { t with pc }) with wait := .none }
      | _ => s
    match g.savedWait with
    | .bar m pc =>
      (drop s1 m).modGroup c gid fun g =>
        { g with savedWait := .none, tpc := g.tpc.mapIdx fun i a => if m.getLsbD i && g.hset.getLsbD i then pc else a }
    | _ => s1

/-- A group leaves its barrier, and the trap area is written where it must be. -/
def State.leaveBar (s : State) (c gid : Nat) : SRes Unit :=
  match s.group? c gid with
  | none => .ok () s
  | some g => match s.withdrawTpc c gid g with
    | .ok _ s1 => .ok () (s1.withdraw c gid)
    | e => e

/-- A group has been chosen for eviction: its clause ends in its next pass, be it that a cut ends it already
(09 R270), and a region's loads, buffer and operations
go as soon as no clause runs. -/
def State.beginEvict (s : State) (c gid : Nat) (forQ : Option Nat) : State :=
  match s.group? c gid with
  | none => s
  | some g =>
    let s1 := (s.abandonMoves c gid).abandonLnch c gid
    let s2 := s1.modGroup c gid fun g =>
      { g with residency := .spilling, clause := g.clause.map fun cl => { cl with cut := true, evict := !cl.cut || cl.evict } }
    let s3 := s2.modCore c fun k => { k with spills := k.spills ++ [{ gid, quad := quadOf gid, forQ }] }
    let s4 := s3.countCore c 9 1 (s.carries g.ctx)
    if g.clause.isNone then s4.restartGroup c gid true else s4

/-! ## Choosing groups (10 R279) -/

/-- Whether group a is evicted before group b. -/
def Group.evictBefore (a b : Nat × Group) : Bool :=
  let idle (g : Group) : Bool := g.clause.isNone
  let began (g : Group) : Option Nat := g.region.map (·.began)
  if idle a.2 != idle b.2 then idle a.2
  else match began a.2, began b.2 with
    | some _, none => true
    | none, some _ => false
    | some x, some y => if x ≠ y then decide (y < x) else decide (b.1 < a.1)
    | none, none => decide (b.1 < a.1)

/-- The first of a list under the eviction order. -/
def firstEvict : List (Nat × Group) → Option (Nat × Group)
  | [] => none
  | a :: r => match firstEvict r with
    | some b => if Group.evictBefore a b then some a else some b
    | none => some a

/-- The H groups of a partition in a quadrant that hold a bank no claim has taken yet. -/
def State.evictable (s : State) (c part q : Nat) : List (Nat × Group) :=
  (s.core c).groups.filter fun (n, g) => quadOf n == q && (s.ctx g.ctx).part == part && (s.ctx g.ctx).cls
    && g.holdsBank && g.residency != .spilling

/-- Evict `n` groups of a quadrant for a queue; a restore in progress is abandoned and its bank freed
at once (10 R283). -/
def State.evictSome (s : State) (c part q queue : Nat) : Nat → State
  | 0 => s
  | n + 1 =>
    match firstEvict (s.evictable c part q) with
    | none => s
    | some (gid, g) =>
      (match g.residency with
        | .restoring len => s.setGroup c gid { g with residency := .evicted len }
        | _ => s.beginEvict c gid (some queue)).evictSome c part q queue n

/-! ## The Sinter engines (10 R280 step 3, R281) -/

/-- Whether nothing of a group is outstanding that its image waits for. DEDUCED (log 81). -/
def State.spillReady (s : State) (c gid : Nat) (g : Group) : Bool :=
  let k := s.core c
  g.clause.isNone && !(k.atoms.any fun a => a.whose.any (·.1 == gid)) && !(k.pushes.any (·.gid == gid))
    && (match g.quartet with | some q => !k.quartetBusy q | none => true)
    && (g.region.isSome || ((k.loads.all (·.gid != gid)) && k.fences.all (fun x => x.bg || x.whose.all (·.1 != gid)) && k.ops.all (·.gid != gid)))

/-- A group gives up its bank; its image has `len` bytes, 0 when it was lost. -/
def State.spilled (s : State) (c gid len : Nat) : State :=
  (s.modGroup c gid fun g => { g with residency := .evicted len, wait := g.wait.kept, pend := [] }).modCore c fun k =>
    { k with spills := k.spills.filter (·.gid != gid), evicted := k.evicted ++ [gid] }

/-- The group's restart state, when it is in a region: its run ends without a trace in memory, and the debugger
is notified of its halted threads (10 R284). -/
def State.spillRestart (s : State) (c gid : Nat) : State :=
  let s1 := s.restartGroup c gid true
  match s1.group? c gid with
  | none => s1
  | some g =>
    if g.region.isNone then s1
    else
      let s2 := s1.modCore c fun k =>
        { k with loads := k.loads.filter (·.gid != gid), fences := k.fences.filter fun x => x.bg || x.gid != gid }
      ((s2.modGroup c gid fun g => { g with tokens := List.replicate 6 0 }).notifyHalts c gid).retireWhile c gid fun o => !o.live

/-- A group's image goes to the spill area, or it waits. A write that faults loses the image and stops the
context (10 R282). -/
def State.spillGroup (s : State) (core gid : Nat) : SRes Unit :=
  let lost (s : State) (ctx : Nat) (f : FCode) : SRes Unit := .ok () ((s.spilled core gid 0).sinterFault core gid ctx f)
  match s.group? core gid with
  | none => .ok () (s.modCore core fun k => { k with spills := k.spills.filter (·.gid != gid) })
  | some g0 =>
    if !s.spillReady core gid g0 then .wait s
    else match (s.spillRestart core gid).leaveBar core gid with
      | .wait s1 => .wait s1
      | .fault f s1 => lost s1 g0.ctx f
      | .ok _ s1 =>
        match s1.group? core gid with
        | none => .ok () s1
        | some g =>
          if g.imageUe then lost s1 g.ctx .memUe
          else match s1.sinterWrite core gid g.ctx (s.spillVa core g.ctx gid) g.image with
            | .wait s2 => .wait s2
            | .fault f s2 => lost s2 g.ctx f
            | .ok _ s2 => .ok () ((s2.countCore core 10 g.image.length (some (false, (s.ctx g.ctx).part))).spilled core gid g.image.length)

/-- The first of a list of spills that need not wait is made (10 R281). -/
def State.spillFirst (s : State) (core : Nat) : List Spill → State
  | [] => s
  | sp :: r => match s.spillGroup core sp.gid with
    | .ok _ s1 | .fault _ s1 => s1
    | .wait s1 => (s.keepWait s1).spillFirst core r

/-- SINTER_SPILL_DONE: the quadrant's Sinter engine has written the image of a group of its list; the bank is
free. A group that waits holds up no other (10 R281). -/
def execSinterSpillDone (core quad : Nat) (s : State) : Out :=
  .next (s.spillFirst core ((s.core core).spills.filter (·.quad == quad)))

/-! ## Restores (10 R283) -/

/-- Whether a G placement waits for banks of a quadrant. -/
def State.claimed (s : State) (c q : Nat) : Bool :=
  s.claims.any fun cl => cl.cores.contains c && match s.launch? cl.launch with
    | some l => decide (0 < groupsInQuad l.bsize q)
    | none => false

/-- The group evicted first of a quadrant. -/
def Core.firstEvicted (k : Core) (q : Nat) : Option (Nat × Group) :=
  (k.evicted.find? fun n => quadOf n == q).bind fun n => (alGet n k.groups).map (n, ·)

/-- SINTER_RESTORE: a bank is free and no G placement waits for it: the group evicted first starts
its return. -/
def execSinterRestore (core quad : Nat) (s : State) : Out :=
  match (s.core core).firstEvicted quad with
  | some (n, g) =>
    match g.residency with
    | .evicted len =>
      let part := (s.ctx g.ctx).part
      if (s.ctx g.ctx).st == .active && !s.remapping core && decide (0 < s.banksFree core part quad none) && !s.claimed core quad then
        .next (s.setGroup core n { g with residency := .restoring len })
      else .next s
    | _ => .next s
  | none => .next s

/-- A rejected image stops its context (10 R283). DEDUCED (log 79). -/
def State.rejectImage (s : State) (ctx : Nat) : State :=
  let x := s.ctx ctx
  match x.st with
  | .active | .draining => (s.setCtx ctx { x with st := .saving, reason := .restoreReject, code := none, sub := 0 }).haltGroups ctx
  | _ => s

/-- SINTER_RESTORE_DONE: the image has been read and checked; the group is ready again.
DEDUCED (log 79). -/
def execSinterRestoreDone (core quad : Nat) (s : State) : Out :=
  match (s.core core).firstEvicted quad with
  | some (n, g) =>
    match g.residency with
    | .restoring len =>
      let back (s : State) : State := s.modGroup core n fun g => { g with residency := .evicted len }
      match s.sinterRead core n g.ctx (s.spillVa core g.ctx n) len with
      | .wait s1 => .next (s.keepWait s1)
      | .fault f s1 => .next ((back s1).sinterFault core n g.ctx f)
      | .ok bs s1 =>
        if !imageOk g.handler bs then .next ((back s1).rejectImage g.ctx)
        else match s1.reloadTrap core n (s.blockOf core g).bix (g.load bs (s.ctx g.ctx).dbgVd.isSome) with
          | .wait s2 => .next (s.keepWait s2)
          | .fault f s2 => .next ((back s2).sinterFault core n g.ctx f)
          | .ok g1 s2 =>
            let s3 := (s2.setGroup core n g1).modCore core fun k => { k with evicted := k.evicted.erase n }
            .next ((s3.countCore core 10 len (s.carries g.ctx)).tryRetire core n)
    | _ => .next s
  | none => .next s

end Sys2Proof.Machine
end

