-- ==== Sys2Proof/Machine/Dispatcher.lean ====
section
/-! DEFINITION. The dispatcher (09 R258 to R265; 01 R34; 11 R306; 13 R348): packets, wait conditions,
the choice of work and its placement, launch completion, the watchdog. -/

namespace Sys2Proof.Machine

/-! ## The launch packet (09 R258, R259) -/

/-- Whether a packet breaks a rule of R258. -/
def pktBad (p : List Byte) : Bool :=
  let nwait := pf p 0 16 4
  let nstg := pf p 0 12 3
  pf p 0 20 12 != 0 || pf p 0 15 1 != 0 || pf p 0 8 4 != 0 || pf p 0 3 4 != 0 || decide (4 < nwait)
    || fieldAt p 4 4 == 0 || fieldAt p 8 8 % 256 != 0 || decide (2 ^ 56 ≤ fieldAt p 8 8)
    || fieldAt p 16 2 == 0 || decide (1024 < fieldAt p 16 2) || decide (256 < fieldAt p 18 2)
    || fieldAt p 20 1 == 0 || decide (64 < fieldAt p 20 1) || !pz p 21 1 || fieldAt p 22 2 == 0
    || fieldAt p 24 8 % 8 != 0 || (pf p 0 7 1 == 0 && !pz p 24 16)
    || fieldAt p 40 8 % 64 != 0 || (nwait == 0 && !pz p 40 8)
    || !pz p (48 + 2 * nstg) (14 - 2 * nstg) || !pz p 62 2
    || (pf p 0 2 1 == 1 && pf p 0 1 1 == 0) || (pf p 0 1 1 == 1 && fieldAt p 4 4 % 4 != 0)

/-- The launch that a packet describes. -/
def launchOf (id q : Nat) (x : Queue) (p : List Byte) : Launch :=
  { id, queue := q, pkt := x.head, ctx := wqCtx x.ctl, allres := pf p 0 0 1 == 1, cluster := pf p 0 1 1 == 1,
    fusel1 := pf p 0 2 1 == 1, sig := pf p 0 7 1 == 1, nstg := pf p 0 12 3, nblk := fieldAt p 4 4,
    entry := BitVec.ofNat 64 (fieldAt p 8 8), bsize := fieldAt p 16 2, srows := fieldAt p 18 2,
    wdog := fieldAt p 22 2, sigaddr := BitVec.ofNat 64 (fieldAt p 24 8), sigval := BitVec.ofNat 64 (fieldAt p 32 8),
    stgoff := (List.range 7).map fun i => fieldAt p (48 + 2 * i) 2 }

/-- Whether an entry of a wait block breaks the table of R259. -/
def waitBad (b : List Byte) (i : Nat) : Bool :=
  fieldAt b (16 * i) 8 % 4 != 0 || decide (2 ^ 56 ≤ fieldAt b (16 * i) 8) || decide (5 < fieldAt b (16 * i + 12) 4)

def waitOf (b : List Byte) (i : Nat) : WaitCond :=
  { addr := BitVec.ofNat 64 (fieldAt b (16 * i) 8), val := BitVec.ofNat 32 (fieldAt b (16 * i + 8) 4),
    cond := fieldAt b (16 * i + 12) 4 }

/-- Whether a word meets a condition. -/
def WaitCond.holds (c : WaitCond) (w : Word) : Bool :=
  match c.cond with
  | 0 => w == c.val
  | 1 => w != c.val
  | 2 => decide (c.val.toNat ≤ w.toNat)
  | 3 => decide (w.toNat < c.val.toNat)
  | 4 => decide (c.val.toInt ≤ w.toInt)
  | _ => decide (w.toInt < c.val.toInt)

/-! ## Capacity (09 R263) -/

/-- Blocks of a launch that a core holds with no other work placed. -/
def State.coreCap (s : State) (l : Launch) (c : Nat) : Nat :=
  let part := (s.ctx l.ctx).part
  if !s.liveCore c then 0
  else
    let rows := if l.srows = 0 then l.nblk else qSrows (s.part part).a / l.srows
    (List.range 4).foldl (fun n q =>
      let g := groupsInQuad l.bsize q
      if g = 0 then n else min n (min (qSlotcnt (s.part part).a) (s.bankQuota c part q) / g)) rows

/-- The capacity of every core, or of every complete cluster. -/
def State.capacities (s : State) (l : Launch) : List Nat :=
  if l.cluster then (List.range 96).map fun j =>
    if s.clusterOk j then (List.range 4).foldl (fun n i => min n (s.coreCap l (4 * j + i))) l.nblk else 0
  else (List.range 384).map (s.coreCap l)

/-- The capacity test of a packet that becomes current: NORES, NOFIT, or none. A unit of one block or cluster is
tested again when it is placed. -/
def State.capacityFail (s : State) (l : Launch) : Option Nat :=
  let caps := s.capacities l
  if caps.all (· == 0) then some (if l.allres then 2 else 7)
  else if l.allres && decide (caps.foldl (· + ·) 0 < (if l.cluster then l.nblk / 4 else l.nblk)) then some 2
  else none

/-! ## PACKET_TAKE and WAIT_COND_READ (09 R259, R262) -/

/-- The die whose dispatcher serves (12 R335). -/
def State.dispDie (s : State) : Nat := s.hostDie

/-- A fault of an access the dispatcher makes for a launch or packet. -/
def State.dispFault (s : State) (q ctx : Nat) (f : FCode) (code : Nat) (l : Option Launch) : State :=
  (if f = .dieLost then s.loseCtx ctx else s).queueError q code l

/-- An event of a launch's dispatcher at a global place enters the record (07 R215). -/
def State.noteDisp (s : State) (l : Launch) (va n : Nat) (e : Ev) : State :=
  match s.xlatNow s.dispDie l.ctx .rd (.disp l.queue) va with
  | (.ok p, _) => let (id, s1) := s.fresh; s1.note { e with id, ctx := l.ctx, who := [.disp l.id], place := ⟨.global, 0, p, n⟩ }
  | _ => s

/-- The taking of a packet enters the record, which only launches that have not finished need (07 R215). -/
def State.noteTake (s : State) (l : Launch) : State :=
  let alive := s.launches.map (·.id)
  let (id, s1) := s.fresh
  ({ s1 with hist := if alive.isEmpty then [] else s1.hist } : State).note
    { id, ctx := l.ctx, who := [.disp l.id], kind := .take l.queue l.pkt alive }

/-- A packet that passes its checks becomes the current one. -/
def State.takePacket (s : State) (q : Nat) (l : Launch) (ws : List WaitCond) : State :=
  match s.capacityFail l with
  | some code => s.queueError q code (some l)
  | none =>
    let s := s.noteTake l
    ({ s with launches := s.launches ++ [l] }).modQueue q fun x =>
      { x with head := x.head + 1, cur := some { launch := l.id, waits := ws, age := s.time }, walkFaults := [] }

/-- PACKET_TAKE: packet WQHEAD of a queue without a current packet is read, as memory stands at this step, and
checked (09 R262). DESIGN CHOICE (log 130). -/
def execPacketTake (q : Nat) (s : State) : Out :=
  let x := s.queue q
  let v := wqOwner x.ctl
  let ctx := wqCtx x.ctl
  if x.st != .active || s.mgmtOnly || x.cur.isSome || x.held = 0 || (s.vd v).st != .active then .next s
  else
    let p := x.slotPa x.head.toNat
    let s0 := s.touch ctx (s.homeDie p)
    match s0.checkPa v p with
    | some f => .next (s0.dispFault q ctx f 3 none)
    | none =>
      if s0.hbmHolds (s.clsOf ctx) p 64 then .next s
      else if s0.ueBytes p 64 then .next (s0.queueError q 3 none)
      else
        let bs := s0.homeBytes p 64
        let (id, s1) := s0.fresh
        let l := launchOf id q x bs
        if pktBad bs then .next (s1.queueError q 1 (some l))
        else if pf bs 0 16 4 = 0 then .next (s1.takePacket q l [])
        else match s1.gread s1.dispDie ctx (.disp q) (fieldAt bs 40 8) (16 * pf bs 0 16 4) with
          | (.wait, s2) => .next (s.keepWait s2)
          | (.fault f _, s2) => .next (s2.dispFault q ctx f 4 (some l))
          | (.ok wb, s2) =>
            let is := List.range (pf bs 0 16 4)
            if is.any (waitBad wb) then .next (s2.queueError q 1 (some l))
            else .next (s2.takePacket q l (is.map (waitOf wb)))

/-- WAIT_COND_READ: an unlatched condition of a current packet is read, and latched when true; a read
that faults leaves the queue on the packet (09 R257). -/
def execWaitCondRead (q i : Nat) (s : State) : Out :=
  let x := s.queue q
  match x.st, x.cur with
  | .active, some p =>
    match p.waits[i]? with
    | none => .next s
    | some w =>
      if w.latched then .next s
      else
        match s.launch? p.launch with
        | none => .next s
        | some l =>
          match s.gread s.dispDie l.ctx (.disp q) w.addr.toNat 4 with
          | (.wait, s1) => .next (s.keepWait s1)
          | (.fault f _, s1) => .next ((s1.dispFault q l.ctx f 4 (some l)).modQueue q fun x => { x with head := l.pkt })
          | (.ok bs, s1) =>
            if w.holds (BitVec.ofNat 32 (leNat bs)) then
              .next ((s1.noteDisp l w.addr.toNat 4 { id := 0, ctx := 0, who := [], kind := .syncRead, got := bs, acq := some 4 }).modQueue q fun x =>
                { x with cur := some { p with waits := listMod p.waits i fun w => { w with latched := true } } })
            else .next s1
  | _, _ => .next s

/-! ## Fitting (09 R264, R265) -/

/-- Whether a block of another context of the same partition and class is on a core, or is about to
be placed there. -/
def State.otherCtx (s : State) (l : Launch) (c : Nat) : Bool :=
  let x := s.ctx l.ctx
  let rival (ctx : Nat) : Bool := ctx != l.ctx && (s.ctx ctx).part == x.part && (s.ctx ctx).cls == x.cls
  (s.core c).blocks.any (fun b => !b.retired && rival b.ctx)
    || s.claims.any fun cl => cl.cores.contains c && match s.launch? cl.launch with | some y => rival y.ctx | none => false

/-- Banks of a quadrant that a block may take: free ones, and for a G block those that H groups hold. -/
def State.bankRoom (s : State) (l : Launch) (c q : Nat) : Nat :=
  let x := s.ctx l.ctx
  if x.cls then s.banksFree c x.part q (some l.queue)
  else
    let gHeld := ((s.core c).groups.filter fun (n, g) => quadOf n == q && (s.ctx g.ctx).part == x.part && s.isG g.ctx).length
    let hHeld := s.banksHeld c x.part q - gHeld
    min (s.bankQuota c x.part q - gHeld) (s.liveBanks c q + hHeld - s.banksTaken c q)
      - s.reserved c x.part (some l.queue) fun l => groupsInQuad l.bsize q

/-- Whether one more block of a launch fits a core beside those its unit has there; `free` demands
banks that are free now. -/
def State.blockFits (s : State) (l : Launch) (free : Bool) (chosen : List Nat) (c : Nat) : Bool :=
  let part := (s.ctx l.ctx).part
  let n := (chosen.filter (· == c)).length + 1
  s.liveCore c && !s.remapping c && !s.otherCtx l c && decide (n * l.srows ≤ s.rowsFree c part (some l.queue))
    && (List.range 4).all fun q =>
      let g := n * groupsInQuad l.bsize q
      decide (g ≤ s.slotsFree c part q (some l.queue))
        && decide (g ≤ if free then s.banksFree c part q (some l.queue) else s.bankRoom l c q)

/-- Occupied group slots of a core, with a unit's blocks so far. -/
def State.occupied (s : State) (l : Launch) (chosen : List Nat) (c : Nat) : Nat :=
  (s.core c).groups.length + (chosen.filter (· == c)).length * groupsOf l.bsize

/-- The least of a list by a figure; the earlier wins ties. -/
def leastBy (f : Nat → Nat) : List Nat → Option Nat
  | [] => none
  | a :: r => match leastBy f r with
    | some b => if f b < f a then some b else some a
    | none => some a

/-- The cores of the next block, or of the next four. -/
def State.chooseNext (s : State) (l : Launch) (chosen : List Nat) : Option (List Nat) :=
  if l.cluster then
    let four (j : Nat) : List Nat := (List.range 4).map (4 * j + ·)
    (leastBy (fun j => ((four j).map (s.occupied l chosen)).foldl (· + ·) 0)
      ((List.range 96).filter fun j => s.clusterOk j && (four j).all (s.blockFits l false chosen))).map four
  else
    (leastBy (s.occupied l chosen) ((List.range 384).filter (s.blockFits l false chosen))).map fun c => [c]

/-- The cores of a placement unit, in block order. -/
def State.chooseUnit (s : State) (l : Launch) : Option (List Nat) :=
  let times := if l.allres then (if l.cluster then l.nblk / 4 else l.nblk) else 1
  (List.range times).foldl (fun acc _ => acc.bind fun cs => (s.chooseNext l cs).map (cs ++ ·)) (some [])

/-! ## Candidates (09 R263) -/

/-- Whether a packet may be placed, its fit and its claim aside; `anyState` sets the state of its
context aside (11 R309). DEDUCED (log 74). -/
def State.willing (s : State) (q : Nat) (x : Queue) (anyState : Bool) : Option Launch :=
  match x.st, x.cur with
  | .active, some p =>
    match s.launch? p.launch with
    | some l =>
      let y := s.ctx l.ctx
      if p.waits.all (·.latched) && decide (l.next < l.nblk) && l.queue == q && (anyState || y.st == .idle || y.st == .active)
          && s.vdActive l.ctx && !s.closing.getLsbD y.part && !(s.vd y.vd).ulhold then some l else none
    | none => none
  | _, _ => none

/-- Whether queue a is served before queue b. -/
def State.servedBefore (s : State) (a b : Nat) : Bool :=
  let x := s.queue a
  let y := s.queue b
  let age (q : Queue) : Nat := (q.cur.map (·.age)).getD 0
  if wqClass x.ctl != wqClass y.ctl then !wqClass x.ctl
  else if wqPrio x.ctl ≠ wqPrio y.ctl then decide (wqPrio y.ctl < wqPrio x.ctl)
  else if age x ≠ age y then decide (age x < age y)
  else decide (a < b)

/-- Candidates with a choice of cores, the one to be served first in front. -/
def State.firstCandidate (s : State) : List Nat → Option (Nat × Launch × List Nat)
  | [] => none
  | q :: r =>
    let rest := s.firstCandidate r
    let mine := if s.claims.any (·.queue == q) then none else
      (s.willing q (s.queue q) false).bind fun l => (s.chooseUnit l).map fun cs => (q, l, cs)
    match mine, rest with
    | some a, some b => if s.servedBefore a.1 b.1 then some a else some b
    | some a, none => some a
    | none, b => b

/-! ## Placing a block (02 R47, R50; 06 R162; 11 R300, R306) -/

/-- The rows of a class that another context wrote last are set to +0. -/
def State.claimAcc (s : State) (c ctx : Nat) : State :=
  let x := s.ctx ctx
  let mine := s.core c |>.accOwner.any fun (p, h, o) => p == x.part && h == x.cls && o == ctx
  if mine then s
  else
    let (n, base) := s.accRange ctx
    let inside (a : Nat) : Bool := decide (base ≤ a) && decide (a < base + 128 * n)
    s.modCore c fun k =>
      let k1 := { k with
        accOwner := (x.part, x.cls, ctx) :: k.accOwner.filter fun (p, h, _) => !(p == x.part && h == x.cls)
        accUe := k.accUe.filter fun (h, a) => !(h == x.cls && inside a) }
      if x.cls then { k1 with accS := k1.accS.filter fun (a, _) => !inside a }
      else { k1 with accP := k1.accP.filter fun (a, _) => !inside a }

/-- A group formed at placement: thread `i` of the block takes slot i mod 32. DESIGN CHOICE (log 46). -/
def placedGroup (x : Context) (l : Launch) (bid i : Nat) (entry : DWord) : Group :=
  { ctx := l.ctx, launch := l.id, blk := bid, stage := i % (l.nstg + 1), trapv := x.trapv0,
    threads := (List.range 32).map fun s =>
      if 32 * i + s < l.bsize then { st := .active, pc := entry, tix := BitVec.ofNat 16 (32 * i + s) } else {} }

/-- The entries of a launch's stages. -/
def Launch.entries (l : Launch) : List DWord :=
  l.entry :: (l.stgoff.take l.nstg).map fun o => l.entry + BitVec.ofNat 64 (4 * o)

/-- Fuse the L1s of a cluster (06 R189). DEDUCED (log 76). -/
def State.fuse (s : State) (c : Nat) : State :=
  let cs := (List.range 4).map (c / 4 * 4 + ·)
  if (s.core c).fused then s
  else
    let s1 := cs.foldl (fun s i => (s.l1Release i).l1Acquire i) s
    cs.foldl (fun s i => s.modCore i fun k => { k with fused := true }) s1

/-- Place block `bix` of a launch on a core. DEDUCED (log 75). -/
def State.placeBlock (s : State) (l : Launch) (bix c : Nat) : State :=
  let x := s.ctx l.ctx
  let rows := (s.freeRows c x.part).take l.srows
  let (bid, s0) := s.fresh
  let b : Block :=
    { id := bid, ctx := l.ctx, launch := l.id, bix, bsize := l.bsize, rows, nblk := l.nblk, nstg := l.nstg,
      stages := l.entries, cluster := if l.cluster then some (bix / 4) else none, fused := l.fusel1, cls := x.cls, part := x.part }
  let s1 := (s0.forgetRows c rows).modCore c fun k => { k with
    blocks := k.blocks ++ [b]
    scratch := k.scratch.filter fun (a, _) => !rows.contains (a / 4096)
    scrOld := k.scrOld.filter fun o => !rows.contains (o.addr / 4096)
    scratchUe := k.scratchUe.filter fun w => !rows.contains (w / 1024) }
  let s2 := (if l.fusel1 then s1.fuse c else s1).claimAcc c l.ctx
  let s3 := (List.range (groupsOf l.bsize)).foldl (fun s i =>
    match (s.freeSlots c x.part (i % 4)).head? with
    | some n => s.setGroup c n (placedGroup x l bid i (l.entries.getD (i % (l.nstg + 1)) l.entry))
    | none => s) s2
  (s3.l1Acquire (s3.l1Of c)).touch l.ctx (dieOf c)

/-- The context of a placed block is ACTIVE; after IDLE its map deadlines move (01 R32). -/
def State.activate (s : State) (c : Nat) : State :=
  if (s.ctx c).st == .idle then
    (s.moveDeadlines c).modCtx c fun x => { x with st := .active, activeSince := s.time, ranInterval := true }
  else s

/-- Place a whole unit; the packet is done with when its last block is placed (09 R262). -/
def State.placeUnit (s : State) (q : Nat) (l : Launch) (cs : List Nat) : State :=
  let s1 := { s with claims := s.claims.filter (·.queue != q) }
  let s2 := cs.zipIdx.foldl (fun s (c, i) => s.placeBlock l (l.next + i) c) s1
  let next := l.next + cs.length
  let s3 := s2.modLaunch l.id fun y => { y with next, first := some (y.first.getD s.time) }
  let s4 := if next = l.nblk then s3.modQueue q fun x => { x with cur := none } else s3
  s4.activate l.ctx

/-! ## PLACEMENT (09 R263, 10 R279) -/

/-- Evict the H groups that stand in the way of a unit, for every quadrant of its cores.
DEDUCED (log 73). -/
def State.claimBanks (s : State) (q : Nat) (l : Launch) (cs : List Nat) : State :=
  let part := (s.ctx l.ctx).part
  let s1 := { s with claims := s.claims ++ [{ queue := q, launch := l.id, cores := cs }] }
  cs.eraseDups.foldl (fun s c => (List.range 4).foldl (fun s k =>
    let need := (cs.filter (· == c)).length * groupsInQuad l.bsize k
    let leaving := (s.core c).spills.filter fun x => x.quad == k && (s.group? c x.gid).isSome
    let pending := (leaving.filter fun x => match s.group? c x.gid with
      | some g => (s.ctx g.ctx).part == part
      | none => false).length
    let others := s.reserved c part (some q) fun y => groupsInQuad y.bsize k
    s.evictSome c part k q (need - (min (s.bankQuota c part k + pending - s.banksHeld c part k)
      (s.liveBanks c k + leaving.length - s.banksTaken c k) - others))) s) s1

/-- Whether every block of a unit finds free banks. -/
def State.unitFree (s : State) (l : Launch) (cs : List Nat) : Bool :=
  (cs.zipIdx.all fun (c, i) => s.blockFits l true (cs.take i) c)

/-- The claims whose banks are all free or lost to other events. DEDUCED (log 73). -/
def State.readyClaims (s : State) : List Claim :=
  s.claims.filter fun cl => s.cores.all fun (_, k) => k.spills.all fun x => x.forQ != some cl.queue

/-- The claim whose queue is served first. DEDUCED (log 73). -/
def State.firstClaim (s : State) : List Claim → Option Claim
  | [] => none
  | a :: r => match s.firstClaim r with
    | some b => if s.servedBefore b.queue a.queue then some b else some a
    | none => some a

/-- A packet whose waits are satisfied and whose next block, or cluster of four, fits no live core with no other
work placed. -/
def State.misfit (s : State) : Option (Nat × Launch) :=
  s.queues.findSome? fun (q, x) => (s.willing q x false).bind fun l =>
    if !l.allres && s.capacityFail l == some 7 then some (q, l) else none

/-- Whether fusing the L1s of a unit's clusters waits for words that a paused dirty log holds (12 R329). -/
def State.fuseHeld (s : State) (l : Launch) (cs : List Nat) : Bool :=
  l.fusel1 && cs.any fun c => !(s.core c).fused && ((s.l1Release c).core c).l1Dirty

/-- PLACEMENT: the dispatcher grants a claim whose banks are free, or serves the best candidate: its
unit is placed, or claims banks of H groups; a unit that fits nowhere is NOFIT, and WQHEAD stays on its packet
(09 R257). A claim that can no longer be
placed is dropped. DESIGN CHOICE (log 3). -/
def execPlacement (s : State) : Out :=
  match s.misfit with
  | some (q, l) => .next ((s.queueError q 7 (some l)).modQueue q fun x => { x with head := l.pkt })
  | none =>
  match s.firstClaim s.readyClaims with
  | some cl =>
    match s.willing cl.queue (s.queue cl.queue) false with
    | some l =>
      if s.unitFree l cl.cores then .next (if s.fuseHeld l cl.cores then s else s.placeUnit cl.queue l cl.cores)
      else .next { s with claims := s.claims.filter (·.queue != cl.queue) }
    | none => .next { s with claims := s.claims.filter (·.queue != cl.queue) }
  | none =>
    match s.firstCandidate (s.queues.map (·.1)) with
    | none => .next s
    | some (q, l, cs) =>
      if !s.unitFree l cs then .next (s.claimBanks q l cs)
      else .next (if s.fuseHeld l cs then s else s.placeUnit q l cs)

/-! ## Launch completion (09 R260, 13 R348) -/

/-- A count as a census holds it. -/
def census32 (n : Nat) : Nat := min n (2 ^ 32 - 1)

def Site.bytes (x : Site) : List Byte :=
  leBytes 8 x.pc.toNat ++ leBytes 4 (census32 x.exec) ++ leBytes 4 (census32 x.nan) ++ leBytes 4 (census32 x.inf)
    ++ leBytes 4 (census32 x.sat) ++ leBytes 4 (census32 x.uf) ++ [x.opcode, 0, 0, 0]

/-- Insert a site in ascending PC. DESIGN CHOICE (log 92). -/
def insertSite (x : Site) : List Site → List Site
  | [] => [x]
  | y :: r => if x.pc < y.pc then x :: y :: r else y :: insertSite x r

/-- The census of a launch; of more than 4,096 sites, which have records of their own is free.
DESIGN CHOICE (log 92). -/
def censusOf (l : Launch) (k : Nat) : List Byte :=
  let all := l.sites.foldl (fun r x => insertSite x r) []
  let turned := all.drop (k % (all.length + 1)) ++ all.take (k % (all.length + 1))
  let own := if all.length ≤ 4096 then all else (turned.take 4096).foldl (fun r x => insertSite x r) []
  let rest := if all.length ≤ 4096 then [] else turned.drop 4096
  let sum (f : Site → Nat) : Nat := (rest.map f).foldl (· + ·) 0
  let past : Site := { pc := 0, opcode := 0, exec := sum (·.exec), nan := sum (·.nan), inf := sum (·.inf), sat := sum (·.sat), uf := sum (·.uf) }
  leBytes 8 l.entry.toNat ++ leBytes 4 l.pkt.toNat ++ leBytes 4 own.length ++ leBytes 4 l.nrest
    ++ leBytes 4 (if rest.isEmpty then 0 else 1) ++ leBytes 8 0 ++ past.bytes ++ own.flatMap Site.bytes

/-- Blocks of a launch that are to retire: a discarded one places no more (09 R256). -/
def Launch.goal (l : Launch) : Nat := if l.discarded then l.next else l.nblk

/-- Whether every block of a launch has retired. -/
def Launch.complete (l : Launch) : Bool := l.retired == l.goal && l.retired == l.next

/-- Whether every block and operation of a launch has retired and everything that its threads have done has
taken effect (07 R215). -/
def State.launchDone (s : State) (l : Launch) : Bool :=
  l.complete && s.cores.all fun (_, k) => k.ops.all (·.launch != l.id) && k.stores.all (·.launch != l.id)
      && k.atoms.all (·.launch != l.id) && k.fences.all (·.launch != l.id)
      && k.l1.all fun w => !(w.st == .pending && w.of l.ctx)

/-- Whether a launch of the same queue completed earlier and has its signal still to come (09 R260). -/
def State.signalBehind (s : State) (l : Launch) : Bool :=
  s.launches.any fun y => y.queue == l.queue && y.id != l.id && y.complete && !y.discarded
    && decide (y.ended.getD 0 < l.ended.getD 0)

def State.dropLaunch (s : State) (id : Nat) : State := { s with launches := s.launches.filter (·.id != id) }

/-- A launch ends in an error of its queue, in whatever state the queue is (09 R260). DEDUCED (log 78). -/
def State.launchError (s : State) (l : Launch) (f : FCode) (code : Nat) : State :=
  ((if f = .dieLost then s.loseCtx l.ctx else s).dropLaunch l.id).queueError l.queue code (some l)

/-- The completion signal, and the LAUNCH record. DEDUCED (log 78). DESIGN CHOICE (log 92). -/
def State.signal (s : State) (l : Launch) (orig : State) : State :=
  let fin (s : State) : State := (s.ulLaunch (s.ctx l.ctx).vd l 0).dropLaunch l.id
  if !l.sig then fin s
  else match s.gwrite s.dispDie l.ctx (.disp l.queue) l.sigaddr.toNat (leBytes 8 l.sigval.toNat) with
    | (.ok _, s1) => fin (s1.noteDisp l l.sigaddr.toNat 8
        { id := 0, ctx := 0, who := [], kind := .syncWrite, put := leBytes 8 l.sigval.toNat, rel := some 4 })
    | (.wait, s1) => orig.keepWait s1
    | (.fault f _, s1) => s1.launchError l f 5

/-- LAUNCH_COMPLETE: the census, then the completion signal of a launch whose blocks and operations
have all retired. -/
def execLaunchComplete (id : Nat) (s : State) : Out :=
  match s.launch? id with
  | none => .next s
  | some l =>
    if !s.launchDone l || s.signalBehind l then .next s
    else if l.discarded then .next (s.dropLaunch id)
    else
      let va := (s.queue l.queue).censva.toNat
      if va = 0 then .next (s.signal l s)
      else match s.gwrite s.dispDie l.ctx (.disp l.queue) va (censusOf l (s.peek 0).toNat) with
        | (.ok _, s1) => .next ({ s1 with free := s1.free + 1 }.signal l s)
        | (.wait, s1) => .next (s.keepWait s1)
        | (.fault f _, s1) => .next (s1.launchError l f 9)

/-! ## The watchdog (09 R261) -/

/-- WATCHDOG_EXPIRY: a block of a launch is unretired WDOG ms of counted time after its first
placement: its context stops, once; blocks that a discarded launch no longer places do not count. DEDUCED (log 77). -/
def execWatchdogExpiry (id : Nat) (s : State) : Out :=
  match s.launch? id with
  | none => .next s
  | some l =>
    if l.first.isSome && l.wdog ≠ 0 && l.wdog * 1000000 ≤ l.run && l.retired < l.goal then
      .next ((s.modLaunch id fun l => { l with wdog := 0 }).stopCtx l.ctx .watchdog 0 0 0)
    else .next s

end Sys2Proof.Machine
end

