-- ==== Sys2Proof/Machine/Save.lean ====
section
/-! DEFINITION. The save area of a context (11 R310 to R314): what a save writes, what a restore
checks and gives back. -/

namespace Sys2Proof.Machine

/-! ## When a save can be made (11 R307, R309) -/

/-- The groups of a context on a core. -/
def State.groupsOn (s : State) (c ctx : Nat) : List (Nat × Group) := (s.core c).groups.filter fun (_, g) => g.ctx == ctx

/-- Whether nothing of a context is in flight on a core. -/
def State.quietOn (s : State) (ctx c : Nat) : Bool :=
  let k := s.core c
  let mine (gid : Nat) : Bool := match alGet gid k.groups with | some g => g.ctx == ctx | none => false
  (s.groupsOn c ctx).all (fun (_, g) => g.clause.isNone && g.residency != .spilling)
    && k.loads.all (fun l => !mine l.gid) && k.atoms.all (·.ctx != ctx) && k.fences.all (·.ctx != ctx)
    && k.pushes.all (fun p => !mine p.gid) && k.ops.all (·.ctx != ctx) && k.stores.all (·.ctx != ctx)
    && k.spills.all (fun p => !mine p.gid)

def State.quiet (s : State) (ctx : Nat) : Bool := s.cores.all fun (c, _) => s.quietOn ctx c

/-- The cores that hold blocks or stored words of a context. -/
def State.coresOf (s : State) (ctx : Nat) : List Nat :=
  s.cores.filterMap fun (c, k) => if k.blocks.any (·.ctx == ctx) || k.l1.any (fun w => w.of ctx && w.st != .unowned) then some c else none

/-- The PACKAGE release of a save, on every core that held the context (07 R203). -/
def State.saveRelease (s : State) (ctx : Nat) : State := (s.coresOf ctx).foldl (fun s c => s.l1Release (s.l1Of c)) s

/-! ## Groups take the state they are saved in -/

/-- One group: moves and LNCHs are abandoned, its region restarts, its barrier arrival is withdrawn; an
H group's image goes to the spill area. -/
def State.saveGroup (s : State) (c gid : Nat) : SRes Unit :=
  match s.group? c gid with
  | none => .ok () s
  | some g0 =>
    match g0.residency with
    | .evicted _ => .ok () s
    | .restoring len => .ok () (s.setGroup c gid { g0 with residency := .evicted len })
    | _ =>
      let lost (s : State) (f : FCode) : SRes Unit :=
        .ok () ((s.modGroup c gid fun g => { g with residency := .evicted 0 }).sinterFault c gid g0.ctx f)
      match (((s.abandonMoves c gid).abandonLnch c gid).restartGroup c gid false).leaveBar c gid with
      | .wait s1 => .wait s1
      | .fault f s1 => lost s1 f
      | .ok _ s0 =>
        let s1 := s0.modGroup c gid fun g => { g with pend := [] }
        match s1.group? c gid with
        | none => .ok () s1
        | some g =>
          if g.imageUe then lost s1 .memUe
          else if !(s.ctx g.ctx).cls then .ok () s1
          else match s1.sinterWrite c gid g.ctx (s.spillVa c g.ctx gid) g.image with
            | .wait s2 => .wait s2
            | .fault f s2 => lost s2 f
            | .ok _ s2 => .ok () ((s2.countCore c 10 g.image.length (some (false, (s.ctx g.ctx).part))).setGroup c gid
                { g with residency := .evicted g.image.length })

/-- Every group of a context, and whether one has to wait. -/
def State.saveGroups (s : State) (ctx : Nat) : Bool × State :=
  (s.allGroups.filter fun (_, _, g) => g.ctx = ctx).foldl (fun (w, s) (c, gid, _) => match s.saveGroup c gid with
    | .ok _ s1 | .fault _ s1 => (w, s1)
    | .wait s1 => (true, s.keepWait s1)) (false, s)

/-! ## Records (11 R311, R312; 14 R368; 16 R425) -/

/-- The state word of a channel. -/
def Chan.word (c : Chan) : Nat :=
  if c.valid then packBits [(1, c.rowb.toNat), (9, c.nrow.toNat), (15, c.pstg.toNat), (18, c.cstg.toNat), (21, c.lo.toNat),
    (25, c.hi.toNat), (29, c.head), (45, c.count), (63, 1)] else 0

def Block.record (b : Block) : List Byte :=
  leBytes 4 b.bix ++ leBytes 2 b.bsize ++ leBytes 2 b.rows.length
    ++ leBytes 8 (packBits [(0, b.cluster.isSome.toNat), (1, b.fused.toNat)])
    ++ leBytes 4 b.barGen.toNat ++ leBytes 12 0 ++ (List.range 16).flatMap fun i => leBytes 8 (b.chans.getD i {}).word

/-- A group record with the image that follows it. -/
def State.groupRecord (s : State) (c : Nat) (blocks : List Block) (gid : Nat) (g : Group) : List Byte :=
  let (spill, len, img) : Bool × Nat × List Byte := match g.residency with
    | .evicted n => ((s.ctx g.ctx).cls, n, [])
    | _ => (false, g.image.length, g.image)
  let rg := g.region
  [BitVec.ofNat 8 gid, BitVec.ofNat 8 (blocks.findIdx (·.id == g.blk)),
    BitVec.ofNat 8 (packBits [(0, g.handler.toNat), (1, g.quartet.isSome.toNat), (2, spill.toNat), (3, rg.isSome.toNat)]),
    BitVec.ofNat 8 g.stage]
    ++ leBytes 4 (g.quartet.getD 0).toNat ++ leBytes 8 g.trapv.toNat
    ++ leBytes 8 (if spill then s.spillVa c g.ctx gid else 0) ++ leBytes 4 len
    ++ leBytes 4 (match rg with | some r => r.parked.toNat | none => 0)
    ++ leBytes 8 (match rg with | some r => r.rgpc.toNat | none => 0) ++ leBytes 8 0 ++ img

/-- Accumulator rows of a core that a save of a context holds: with ACCSAVE the rows of its class of every live
core (11 R308, R309). DEDUCED (log 82). -/
def State.savedRows (s : State) (c ctx : Nat) : Nat :=
  if (s.ctx ctx).accsave && s.liveCore c then (s.accRange ctx).1 else 0

/-- Whether the rows of a core hold a context's values; it reads those that another wrote last as +0 (11 R306). -/
def State.ownsAcc (s : State) (c ctx : Nat) : Bool :=
  let x := s.ctx ctx
  (s.core c).accOwner.any fun (p, h, o) => p == x.part && h == x.cls && o == ctx

/-- The words of the scratchpad and of the accumulator rows in a core's record, with their error marks. -/
def State.scratchWords (s : State) (c ctx : Nat) : List (Word × Bool) :=
  ((s.core c).blocks.filter (·.ctx == ctx)).flatMap fun b => b.rows.flatMap fun r => (List.range 1024).map fun i =>
    let a := 4096 * r + 4 * i
    (BitVec.ofNat 32 (leNat (s.scratchGet c a 4)), s.scratchUeAt c a 4)

def State.accWords (s : State) (c ctx : Nat) : List (Word × Bool) :=
  (List.range (128 * s.savedRows c ctx)).map fun w =>
    if s.ownsAcc c ctx then (s.accGet c ctx w, s.accUeAt c ctx w) else (0, false)

/-- The record of a core. DEDUCED (log 82). -/
def State.coreRecord (s : State) (c ctx : Nat) : List Byte :=
  let bl := (s.core c).blocks.filter (·.ctx == ctx)
  let gs := s.groupsOn c ctx
  let body := bl.flatMap Block.record ++ (s.scratchWords c ctx ++ s.accWords c ctx).flatMap (fun (w, _) => leBytes 4 w.toNat)
    ++ gs.flatMap fun (gid, g) => s.groupRecord c bl gid g
  leBytes 2 c ++ leBytes 2 bl.length ++ leBytes 2 gs.length ++ leBytes 2 (s.savedRows c ctx)
    ++ leBytes 8 (32 + body.length) ++ leBytes 16 0 ++ body

/-- The byte offsets in a core's record of the words that stay uncorrectable where they are saved (06 R199). -/
def State.recordMarks (s : State) (c ctx : Nat) : List Nat :=
  let n := ((s.core c).blocks.filter (·.ctx == ctx)).length
  (s.scratchWords c ctx ++ s.accWords c ctx).zipIdx.filterMap fun ((_, ue), i) => if ue then some (32 + 160 * n + 4 * i) else none

/-- The cores that a save records. -/
def State.recordedCores (s : State) (ctx : Nat) : List Nat :=
  (List.range 384).filter fun c => (s.core c).blocks.any (·.ctx == ctx) || s.savedRows c ctx ≠ 0

/-- The records of some cores from an offset on, with the offsets of the uncorrectable words in them. -/
def State.records (s : State) (ctx : Nat) : Nat → List Nat → List Byte × List Nat
  | _, [] => ([], [])
  | o, c :: r =>
    let bs := s.coreRecord c ctx
    let (bs', ms) := s.records ctx (o + bs.length) r
    (bs ++ bs', (s.recordMarks c ctx).map (o + ·) ++ ms)

def saveMagic : Nat := 0x333053585443485A

/-- The header of a save. -/
def State.saveHeader (s : State) (ctx ncore len : Nat) : List Byte :=
  let x := s.ctx ctx
  leBytes 8 saveMagic ++ leBytes 4 ctx ++ leBytes 4 ncore ++ leBytes 8 len ++ leBytes 8 x.ackv ++ leBytes 8 s.cmap.cmv
    ++ leBytes 4 x.tdm.toNat ++ leBytes 4 ((x.code.map FCode.code).getD 0 + 256 * x.sub.toNat) ++ leBytes 8 x.stoppc.toNat
    ++ leBytes 4 x.stoploc.toNat ++ leBytes 196 0

/-! ## The end of a save -/

/-- Whether a saved thread is halted by a debugger. -/
def State.anyHalted (s : State) (ctx : Nat) : Bool :=
  s.allGroups.any fun (_, _, g) => g.ctx == ctx && g.threads.any fun t => t.halted && t.st == .active

/-- The debugging virtual device is notified of the context's halted threads (11 R315; log 122). -/
def State.notifyCtx (s : State) (ctx : Nat) : State :=
  (s.allGroups.filter fun (_, _, g) => g.ctx = ctx).foldl (fun s (c, gid, _) => s.notifyHalts c gid) s

/-- The saved groups whose threads are not numbered in slot order: core and slot (02 R46). DEDUCED (log 31). -/
def State.unplacedGroups (s : State) (ctx : Nat) : List (Nat × Nat) :=
  s.allGroups.filterMap fun (c, gid, g) => if g.ctx = ctx ∧ !g.placed then some (c, gid) else none

/-- The launch of every recorded block: core, index in its record, launch. DEDUCED (log 91). -/
def State.savedBlocks (s : State) (ctx : Nat) : List (Nat × Nat × Nat) :=
  s.cores.flatMap fun (c, k) => (k.blocks.filter (·.ctx == ctx)).mapIdx fun i b => (c, i, b.launch)

/-- The blocks of a saved context release their slots, banks and rows. -/
def State.releaseCtx (s : State) (ctx : Nat) : State :=
  let fusedAt := s.cores.filterMap fun (c, k) => if k.blocks.any fun b => b.ctx == ctx && b.fused then some c else none
  fusedAt.foldl (fun s c => s.unfuse c)
    { s.forgetSinter with cores := s.cores.map fun (c, k) => (c, { k.dropCtx ctx with accOwner := k.accOwner }) }

/-- The context has been saved, or could not be. DEDUCED (log 84). -/
def State.endSave (s : State) (ctx : Nat) (image : Bool) : State :=
  let halted := s.anyHalted ctx
  let saved := s.savedBlocks ctx
  let unplaced := s.unplacedGroups ctx
  let s1 := (s.notifyCtx ctx).releaseCtx ctx
  let x := s1.ctx ctx
  s1.enterStop ctx { x with st := if x.reason == .none then .saved else .stopped, image, halted, saved, unplaced }

/-- A save that cannot be written ends without an image; the CODE of a stop stays with SAVEOVF, and a fault of
its own ranks with it (01 R37). DEDUCED (log 83). -/
def State.saveFails (s : State) (ctx : Nat) (f : Option FCode) : State :=
  match f with
  | some .dieLost => s.loseCtx ctx
  | some f => (s.modCtx ctx fun x => { x.record f 0 0 0 with reason := .fault }).endSave ctx false
  | none => (s.modCtx ctx fun x => { x with reason := .saveovf }).endSave ctx false

/-- Write a span of the save area, up to the first stripe that faults (06 R175), or the first page that a paused
dirty log holds, for which the save waits (12 R329). -/
def State.savePut (s : State) (ctx a : Nat) (bs : List Byte) : SRes Unit :=
  let x := s.ctx ctx
  ((pageSpans (bs.length / 4096 + 2) a bs.length).foldl (fun (r, rest) (a, k) =>
    match r with
    | SRes.ok _ s =>
      let p : PA := ⟨false, a⟩
      let s1 := s.touchSpan ctx p k
      match s1.spanFault x.vd p k with
      | some (f, o) => (.fault f (s1.unlessHeld (s1.homeWrite ⟨x.cls, some ctx⟩ p (rest.take o))), rest)
      | none =>
        let t := s1.homeWrite ⟨x.cls, some ctx⟩ p (rest.take k)
        if s1.heldMore t then (.wait s1, rest) else (.ok () t, rest.drop k)
    | e => (e, rest)) (SRes.ok () s, bs)).1

/-- Write the header, which ends the save. DEDUCED (log 84). -/
def State.putHeader (s : State) (ctx ncore len : Nat) : SRes Unit :=
  let s1 := s.touch ctx (s.homeDie ⟨false, (s.ctx ctx).savea⟩)
  match s1.savePut ctx (s.ctx ctx).savea (s1.saveHeader ctx ncore len) with
  | .fault f s2 => .ok () (s2.saveFails ctx (some f))
  | .wait s2 => .wait s2
  | .ok _ s2 => .ok () (s2.endSave ctx true)

/-- Write the records and the header. A word that was uncorrectable stays so in the image (06 R199).
DEDUCED (log 82, 83). -/
def State.writeSave (s : State) (ctx : Nat) : SRes Unit :=
  let x := s.ctx ctx
  let cs := s.recordedCores ctx
  let (recs, marks) := s.records ctx 256 cs
  let len := 256 + recs.length
  match s.savePut ctx (x.savea + 256) (recs.take (x.savesz - 256)) with
  | .fault f s1 => .ok () (s1.saveFails ctx (some f))
  | .wait s1 => .wait s1
  | .ok _ s1 =>
    let s2 := { s1 with memUe := (marks.filter (· < x.savesz)).map (fun o => (false, (x.savea + o) / 4)) ++ s1.memUe }
    if x.savesz < len then .ok () (s2.saveFails ctx none) else s2.putHeader ctx cs.length len

/-- A stop that struck a restore: the records that the area holds stay as they are, and the header takes the
stop (11 R305, R307). DEDUCED (log 84). -/
def State.resave (s : State) (ctx : Nat) : SRes Unit :=
  let h := s.homeBytes ⟨false, (s.ctx ctx).savea⟩ 256
  s.putHeader ctx (fieldAt h 12 4) (fieldAt h 16 8)

/-- CTX_SAVE_DONE: once nothing of the context is in flight it is saved. A stop that struck a restore
leaves the image that is there. -/
def execCtxSaveDone (ctx : Nat) (s : State) : Out :=
  let x := s.ctx ctx
  if x.st != .saving || !s.quiet ctx then .next s
  else if x.image then
    match s.resave ctx with
    | .wait s1 => .next (s.keepWait s1)
    | .ok _ s1 | .fault _ s1 => .next (s1.modCtx ctx fun y => { y with saved := x.saved, unplaced := x.unplaced, halted := x.halted })
  else
    let s0 := s.saveRelease ctx
    if s0.cores.any fun (_, k) => k.l1.any fun w => w.of ctx && w.st != .unowned then .next s0
    else
      let (waits, s1) := s0.saveGroups ctx
      if waits || (s1.ctx ctx).st != .saving then .next s1
      else match s1.writeSave ctx with
        | .wait s2 => .next (s.keepWait s2)
        | .ok _ s2 | .fault _ s2 => .next s2

/-! ## Reading a save (11 R314) -/

/-- A group record as read, with its image. -/
structure SGroup where
  gid : Nat
  blk : Nat
  flags : Nat
  stage : Nat
  quartet : Word
  trapv : DWord
  va : Nat
  len : Nat
  parked : Mask
  rgpc : DWord
  img : List Byte
  deriving DecidableEq, Repr

structure SBlock where
  bix : Nat
  bsize : Nat
  srows : Nat
  flags : Nat
  gen : Word
  chans : List Nat
  deriving DecidableEq, Repr

structure SCore where
  core : Nat
  start : Nat
  blocks : List SBlock
  scratch : List Byte
  rows : Nat
  acc : List Byte
  groups : List SGroup
  deriving DecidableEq, Repr

/-- A channel from its state word. -/
def chanFrom (w : Nat) : Chan :=
  { valid := w / 2 ^ 63 % 2 == 1, count := w / 2 ^ 45 % 2 ^ 17, head := w / 2 ^ 29 % 2 ^ 16, hi := BitVec.ofNat 4 (w / 2 ^ 25),
    lo := BitVec.ofNat 4 (w / 2 ^ 21), cstg := BitVec.ofNat 3 (w / 2 ^ 18), pstg := BitVec.ofNat 3 (w / 2 ^ 15),
    nrow := BitVec.ofNat 6 (w / 2 ^ 9), rowb := BitVec.ofNat 8 (w / 2) }

def chanWordOk (w : Nat) : Bool :=
  let c := chanFrom w
  let cap := 1024 * (c.nrow.toNat + 1)
  if !c.valid then w == 0 else w % 2 == 0 && w / 2 ^ 62 % 2 == 0 && decide (c.count ≤ cap) && decide (c.head < cap)

def readBlock (bs : List Byte) (o : Nat) : SBlock :=
  { bix := fieldAt bs o 4, bsize := fieldAt bs (o + 4) 2, srows := fieldAt bs (o + 6) 2, flags := fieldAt bs (o + 8) 2,
    gen := BitVec.ofNat 32 (fieldAt bs (o + 16) 4), chans := (List.range 16).map fun i => fieldAt bs (o + 32 + 8 * i) 8 }

def blockRecOk (bs : List Byte) (o : Nat) : Bool :=
  let b := readBlock bs o
  decide (b.flags < 4) && pz bs (o + 10) 6 && pz bs (o + 20) 12 && b.chans.all chanWordOk
    && decide (1 ≤ b.bsize) && decide (b.bsize ≤ 1024) && decide (b.srows ≤ 256)

/-- A group record; the image of an H group is not in it. -/
def readGroup (bs : List Byte) (o : Nat) : SGroup :=
  let flags := fieldAt bs (o + 2) 1
  let len := fieldAt bs (o + 24) 4
  { gid := fieldAt bs o 1, blk := fieldAt bs (o + 1) 1, flags, stage := fieldAt bs (o + 3) 1,
    quartet := BitVec.ofNat 32 (fieldAt bs (o + 4) 4), trapv := BitVec.ofNat 64 (fieldAt bs (o + 8) 8), va := fieldAt bs (o + 16) 8,
    len, parked := BitVec.ofNat 32 (fieldAt bs (o + 28) 4), rgpc := BitVec.ofNat 64 (fieldAt bs (o + 32) 8),
    img := if flags / 4 % 2 = 1 then [] else (bs.drop (o + 48)).take len }

def SGroup.bit (g : SGroup) (i : Nat) : Bool := g.flags / 2 ^ i % 2 == 1

def groupRecOk (nblk : Nat) (bs : List Byte) (o : Nat) : Bool :=
  let g := readGroup bs o
  decide (g.flags < 16) && decide (g.stage < 8) && (g.bit 1 || g.quartet == 0) && (g.bit 2 || g.va == 0)
    && (g.bit 3 || (g.parked == 0 && g.rgpc == 0)) && pz bs (o + 40) 8 && decide (g.gid < 128) && decide (g.blk < nblk)

/-- The group records from an offset: they, and the offset after them. -/
def readGroups (nblk : Nat) (bs : List Byte) : Nat → Nat → Option (List SGroup × Nat)
  | 0, o => some ([], o)
  | n + 1, o =>
    if groupRecOk nblk bs o then
      let g := readGroup bs o
      (readGroups nblk bs n (o + 48 + g.img.length)).map fun (r, e) => (g :: r, e)
    else none

/-- A core record, and the offset after it. -/
def readCore (bs : List Byte) (o : Nat) : Option (SCore × Nat) :=
  let nb := fieldAt bs (o + 2) 2
  let rows := fieldAt bs (o + 6) 2
  let ob := o + 32
  if !pz bs (o + 16) 16 || !((List.range nb).all fun i => blockRecOk bs (ob + 160 * i)) || bs.length < ob + 160 * nb then none
  else
    let blocks := (List.range nb).map fun i => readBlock bs (ob + 160 * i)
    let os := ob + 160 * nb
    let ns := 4096 * (blocks.map (·.srows)).foldl (· + ·) 0
    let oa := os + ns
    let og := oa + 512 * rows
    match readGroups nb bs (fieldAt bs (o + 4) 2) og with
    | none => none
    | some (gs, e) =>
      if bs.length < e || fieldAt bs (o + 8) 8 ≠ e - o then none
      else some ({ core := fieldAt bs o 2, start := os, blocks, scratch := (bs.drop os).take ns, rows, acc := (bs.drop oa).take (512 * rows), groups := gs }, e)

def readCores (bs : List Byte) : Nat → Nat → Option (List SCore × Nat)
  | 0, o => some ([], o)
  | n + 1, o => (readCore bs o).bind fun (c, e) => (readCores bs n e).map fun (r, e') => (c :: r, e')

/-- Whether a word of the save, by its offset, is one of the scratchpad or of the accumulator rows. -/
def SCore.holds (r : SCore) (o : Nat) : Bool := decide (r.start ≤ o) && decide (o < r.start + r.scratch.length + r.acc.length)

/-- Whether a word of the save area is uncorrectable. -/
def State.saveUe (s : State) (ctx o : Nat) : Bool := s.ueBytes ⟨false, (s.ctx ctx).savea + o⟩ 4

/-- The first fault of the bytes of the save area up to an offset. -/
def State.saveFault (s : State) (ctx n : Nat) : Option FCode :=
  (s.spanFault (s.ctx ctx).vd ⟨false, (s.ctx ctx).savea⟩ n).map (·.1)

/-- LEN of the save, when the header can be read and keeps the rules of R314. -/
def State.saveLen (s : State) (ctx : Nat) : Option Nat :=
  let x := s.ctx ctx
  let h := s.homeBytes ⟨false, x.savea⟩ 256
  let len := fieldAt h 16 8
  if (s.saveFault ctx 256).isSome || fieldAt h 0 8 ≠ saveMagic || fieldAt h 8 4 ≠ ctx || x.savesz < len
      || 384 < fieldAt h 12 4 || 4 ≤ fieldAt h 40 4 || !pz h 46 2 || 2 ^ 21 ≤ fieldAt h 56 4 || !pz h 60 196
      || s.ueBytes ⟨false, x.savea⟩ 256 then none
  else some len

/-- Whether no two records of a save are of one core, and no two of a core's group records of one slot. -/
def recordsApart (cs : List SCore) : Bool :=
  (cs.map (·.core)).Nodup && cs.all fun r => (r.groups.map (·.gid)).Nodup

/-- The save of a context as its area holds it, unless R314, or a record that is not whole, rejects it: LEN other than
the end of the records, a length, a count or a number out of its range, a channel word out of range, two records of one
core or of one group.
DESIGN CHOICE (log 138). An uncorrectable word of a
scratchpad or of the accumulator rows does not reject it (06 R199). DEDUCED (log 82, 85). -/
def State.readSave (s : State) (ctx : Nat) : Option (List SCore) :=
  (s.saveLen ctx).bind fun len =>
    let p : PA := ⟨false, (s.ctx ctx).savea⟩
    if (s.saveFault ctx len).isSome then none
    else (readCores (s.homeBytes p len) (fieldAt (s.homeBytes p 16) 12 4) 256).bind fun (cs, e) =>
      if e = len && recordsApart cs && (List.range (len / 4)).all fun i => !s.saveUe ctx (4 * i) || cs.any (·.holds (4 * i)) then some cs else none

/-! ## Putting it back -/

/-- Whether the slots, banks and rows that a core record needs are free; accumulator rows past the quota that the
partition has now wait for it. DESIGN CHOICE (log 152). -/
def State.coreFits (s : State) (ctx : Nat) (r : SCore) : Bool :=
  let x := s.ctx ctx
  let k := s.core r.core
  !s.remapping r.core
    && !(k.blocks.any fun b => !b.retired && b.ctx != ctx && b.part == x.part && b.cls == x.cls)
    && decide ((r.blocks.map (·.srows)).foldl (· + ·) 0 ≤ s.rowsFree r.core x.part none) && decide (r.rows ≤ (s.accRange ctx).1)
    && r.groups.all (fun g => (s.freeSlots r.core x.part (quadOf g.gid)).contains g.gid)
    && (List.range 4).all fun q => decide ((r.groups.filter fun g => quadOf g.gid == q).length ≤ s.banksFree r.core x.part q none)

/-- The image of a saved group, from its record or from the spill area. -/
def State.savedImage (s : State) (c ctx : Nat) (g : SGroup) : SRes (List Byte) :=
  if g.bit 2 then
    match s.sinterRead c g.gid ctx g.va g.len with
    | .ok bs s1 => .ok bs (s1.countCore c 10 bs.length (s.carries ctx))
    | e => e
  else .ok g.img s

/-- A saved group as its record and image give it. -/
def restoredGroup (x : Context) (ctx launch bid c : Nat) (g : SGroup) (bs : List Byte) : Group :=
  let g0 : Group := { ctx, launch, blk := bid, stage := g.stage, trapv := g.trapv, handler := g.bit 0,
                      quartet := if g.bit 1 then some g.quartet else none }
  let g1 := g0.load bs x.dbgVd.isSome
  let g2 := { g1 with placed := contiguous g1.threads && !x.unplaced.contains (c, g.gid) }
  if g.bit 3 then
    { g2 with restart := true
              region := some { rgpc := g.rgpc, members := g2.active &&& ~~~g.parked, ckpt := [], parked := g.parked } }
  else g2

/-- The groups of a save with their images, each of which passes R101, and their entries of the trap area; none
when an image does not pass. DEDUCED (log 86). -/
def State.savedImages (s : State) (ctx : Nat) : List (SCore × SGroup) → SRes (Option (List (Nat × SGroup × Group)))
  | [] => .ok (some []) s
  | (r, g) :: rest =>
    let c := r.core
    match s.savedImage c ctx g with
    | .wait s1 => .wait s1
    | .fault f s1 => .fault f (s1.forgetWalks (.sinter c g.gid))
    | .ok bs s1 =>
      if !(bs.length = g.len && imageOk (g.bit 0) bs) then .ok none s1
      else
        let y := restoredGroup (s.ctx ctx) ctx 0 0 c g bs
        let go (y : Group) (s : State) : SRes (Option (List (Nat × SGroup × Group))) :=
          match s.savedImages ctx rest with
          | .ok (some l) s1 => .ok (some ((c, g, y) :: l)) s1
          | e => e
        match s1.reloadTrap c g.gid ((r.blocks.map (·.bix)).getD g.blk 0) y with
        | .wait s2 => .wait s2
        | .fault f s2 => if f = .dieLost then .fault f s2 else go y (s2.forgetWalks (.sinter c g.gid))
        | .ok y s2 => go y s2

/-- A saved block on its core again: its rows, scratchpad, channels and barrier. DEDUCED (log 91). -/
def State.restoreBlock (s : State) (ctx : Nat) (r : SCore) (i : Nat) (b : SBlock) : State :=
  let x := s.ctx ctx
  let c := r.core
  let launch := ((x.saved.find? fun (a, j, _) => a == c && j == i).map fun (_, _, l) => l).getD 0
  let rows := (s.freeRows c x.part).take b.srows
  let mine := r.groups.filter (·.blk == i)
  let off := 4096 * ((r.blocks.take i).map (·.srows)).foldl (· + ·) 0
  let (bid, s0) := s.fresh
  let l := s.launch? launch
  let blk : Block :=
    { id := bid, ctx, launch, bix := b.bix, bsize := b.bsize, rows, nblk := (l.map (·.nblk)).getD 0, nstg := (l.map (·.nstg)).getD 0,
      stages := (l.map Launch.entries).getD [], cluster := if b.flags % 2 = 1 then some (b.bix / 4) else none, fused := b.flags / 2 % 2 == 1,
      barGen := b.gen, chans := b.chans.map chanFrom, cls := x.cls, part := x.part, retired := mine.isEmpty }
  let s1 := (s0.forgetRows c rows).modCore c fun k => { k.forgetOld rows with blocks := k.blocks ++ [blk] }
  let s2 := rows.zipIdx.foldl (fun s (row, j) => s.scratchSet c (4096 * row) ((r.scratch.drop (off + 4096 * j)).take 4096)) s1
  let ues := rows.zipIdx.flatMap fun (row, j) => (List.range 1024).filterMap fun k =>
    if s2.saveUe ctx (r.start + off + 4096 * j + 4 * k) then some (1024 * row + k) else none
  s2.modCore c fun k => { k with scratchUe := ues ++ k.scratchUe }

/-- Accumulator rows of a core record. -/
def State.restoreAcc (s : State) (ctx : Nat) (r : SCore) : State :=
  let s1 := s.claimAcc r.core ctx
  let s2 := (List.range (128 * r.rows)).foldl (fun s w => s.accSet r.core ctx w (BitVec.ofNat 32 (fieldAt r.acc (4 * w) 4))) s1
  let bad := (List.range (128 * r.rows)).filter fun w => s.saveUe ctx (r.start + r.scratch.length + 4 * w)
  s2.modCore r.core fun k => { k with accUe := bad.map (fun w => ((s.ctx ctx).cls, (s.accRange ctx).2 + w)) ++ k.accUe }

/-- The groups of a core record in their slots. -/
def State.restoreGroups (s : State) (base : Nat) (r : SCore) (gs : List (Nat × SGroup × Group)) : State :=
  (gs.filter fun (c, _, _) => c = r.core).foldl (fun s (c, g, y) =>
    let bid := base + g.blk
    s.setGroup c g.gid { y with blk := bid, launch := (((s.core c).block? bid).map (·.launch)).getD 0 }) s

/-- Threads of a block that have exited: those of its size that no group holds active. -/
def State.recountExits (s : State) (c ctx : Nat) : State :=
  s.modCore c fun k => { k with blocks := k.blocks.map fun b =>
    if b.ctx = ctx then
      { b with exited := b.bsize - ((k.groups.filter fun (_, g) => g.blk == b.id).map fun (_, g) => slotCount g.active).foldl (· + ·) 0 }
    else b }

/-- One core record in place. -/
def State.restoreCore (s : State) (ctx : Nat) (gs : List (Nat × SGroup × Group)) (r : SCore) : State :=
  let base := s.nextId
  let s1 := r.blocks.zipIdx.foldl (fun s (b, i) => s.restoreBlock ctx r i b) s
  let s2 := if r.blocks.any fun b => b.flags / 2 % 2 == 1 then s1.fuse r.core else s1
  let s3 := ((s2.restoreAcc ctx r).restoreGroups base r gs).recountExits r.core ctx
  (s3.l1Acquire (s3.l1Of r.core)).touch ctx (dieOf r.core)

/-- A restore ends without the context running. DEDUCED (log 85). -/
def State.restoreStops (s : State) (ctx : Nat) (r : CReason) : State :=
  s.enterStop ctx { s.ctx ctx with st := .stopped, reason := r, code := none, sub := 0 }

/-- CTX_RESTORE_DONE: the whole save is checked and put back, once there is room for all of it. A save, or an image in
the spill area, that cannot be read is rejected; a lost die stops the context. DEDUCED (log 85, 87).
DESIGN CHOICE (log 151). -/
def execCtxRestoreDone (ctx : Nat) (s : State) : Out :=
  let x := s.ctx ctx
  if x.st != .restoring then .next s
  else
    let len := (s.saveLen ctx).getD 256
    let s0 := s.touchSpan ctx ⟨false, x.savea⟩ len
    if s0.saveFault ctx len = some .dieLost then .next (s0.loseCtx ctx)
    else match s0.readSave ctx with
    | none => .next (s0.restoreStops ctx .restoreReject)
    | some cs =>
      match s0.savedImages ctx (cs.flatMap fun r => r.groups.map (r, ·)) with
      | .wait s1 => .next (s.keepWait s1)
      | .fault f s1 => .next (if f = .dieLost then s1.loseCtx ctx else s1.restoreStops ctx .restoreReject)
      | .ok none s1 => .next (s1.restoreStops ctx .restoreReject)
      | .ok (some gs) s1 =>
        if cs.any fun r => !s.liveCore r.core then .next (s1.restoreStops ctx .restoreNocore)
        else if !(cs.all fun r => s1.coreFits ctx r) then .next s
        else
          let s2 := (cs.foldl (fun s r => s.restoreCore ctx gs r) s1).moveDeadlines ctx
          .next (s2.modCtx ctx fun y => { y with
            st := if cs.all fun r => r.blocks.isEmpty then .idle else .active
            image := false, saved := [], unplaced := [], halted := false, activeSince := s.time, ranInterval := true })

end Sys2Proof.Machine
end

