-- ==== Sys2Proof/Machine/Contexts.lean ====
section
/-! DEFINITION. Context commands (11 R302 to R305, R308, R309, R316), time slices, automatic resume,
map deadlines (01 R30 to R33). -/

namespace Sys2Proof.Machine

/-! ## Leaving the cores (11 R308, R309) -/

/-- Pending G placements of a context are given up. DEDUCED (log 113). -/
def State.dropClaims (s : State) (ctx : Nat) : State :=
  { s with claims := s.claims.filter fun cl => match s.launch? cl.launch with | some l => l.ctx != ctx | none => false }

/-- Every group of an H context is evicted; a restore in progress is abandoned. -/
def State.evictAll (s : State) (ctx : Nat) : State :=
  (s.allGroups.filter fun (_, _, g) => g.ctx = ctx).foldl (fun s (c, gid, g) => match g.residency with
    | .resident => s.beginEvict c gid none
    | .restoring len => s.setGroup c gid { g with residency := .evicted len }
    | _ => s) s

/-- PREEMPT on a context, as the table of R305 has it; `none` where the command reports STATE. Moves under way are
abandoned (02 R55). -/
def State.preempt (s : State) (ctx : Nat) : Option State :=
  let x := s.ctx ctx
  let saving (s : State) : State := s.modCtx ctx fun x => { x with st := .saving, image := false, reason := .none }
  match x.st with
  | .idle => some (saving (s.dropClaims ctx))
  | .active =>
    if x.cls then some ((saving (s.dropClaims ctx)).evictAll ctx)
    else
      let movers := s.allGroups.filter fun (_, _, g) => g.ctx = ctx
      some (movers.foldl (fun s (c, gid, _) => s.abandonMove c gid) ((s.dropClaims ctx).modCtx ctx fun x => { x with st := .draining }))
  | _ => none

/-- RESUME: restoring starts; a context suspended with MAP_UNACK acknowledges the current map version
(01 R33). DEDUCED (log 87). -/
def State.resume (s : State) (ctx : Nat) : Option State :=
  let x := s.ctx ctx
  let go : State := s.setCtx ctx { x with
    st := .restoring, auto := false, reason := .none, code := none, sub := 0, stoppc := 0, stoploc := 0
    ackv := if x.code == some .mapUnack then s.cmap.cmv else x.ackv }
  match x.st with
  | .saved => some go
  | .stopped => if x.image && x.code != some .dieLost then some go else none
  | _ => none

/-- DESTROY: the number is free; every queue that names the context is disabled, and the signals of its launches
are not written. The usage of its current interval is kept for its record (12 R324). DEDUCED (log 90). -/
def State.destroy (s : State) (ctx : Nat) : State :=
  let s1 := s.queues.foldl (fun s (q, x) => if wqCtx x.ctl == ctx then s.queueDisable q else s) (s.dropClaims ctx)
  { s1.setCtx ctx {} with
    launches := s1.launches.filter (·.ctx != ctx)
    pastCtxs := if (s.ctx ctx).ranInterval then s1.pastCtxs ++ [(ctx, s.ctx ctx)] else s1.pastCtxs
    walks := s1.walks.filter (·.ctx != ctx)
    cores := s1.cores.map fun (c, k) => (c, { k with
      accOwner := k.accOwner.filter fun (_, _, x) => x != ctx
      tlb := k.tlb.filter (·.ctx != ctx) })
    l2tlb := s1.l2tlb.filter (·.2.ctx != ctx) }

/-! ## Commands (11 R303) -/

/-- A context command has been taken: its RESULT stands, BUSY is clear (log 34). -/
def State.ctxResult (s : State) (ctx : BitVec 12) (op result : Nat) : State :=
  { s with ctxcmd := BitVec.ofNat 64 (packBits [(0, op), (4, ctx.toNat), (16, result)]) }

/-- A command that a state may not allow. DEDUCED (log 89). -/
def State.ctxTry (s : State) (ctx : BitVec 12) (op : Nat) (r : Option State) : State :=
  match r with
  | some s1 => s1.ctxResult ctx op 0
  | none => s.ctxResult ctx op 5

/-- Whether a span of device memory lies in valid regions of a virtual device. -/
def State.ownedSpan (s : State) (v a n : Nat) : Nat → Bool
  | 0 => false
  | fuel + 1 =>
    match s.regionAt a with
    | none => false
    | some r =>
      r.owner.toNat == v &&
        (let e := r.base.toNat + r.size.toNat
         decide (a + n ≤ e) || s.ownedSpan v e (a + n - e) fuel)

/-- Whether a descriptor breaks a rule of R302 other than the ownership of ROOT and the save area. -/
def descBad (p : List Byte) : Bool :=
  let va (o m : Nat) : Bool := fieldAt p o 8 % m == 0 && decide (fieldAt p o 8 < 2 ^ 56)
  let h := pf p 0 0 1 == 1
  let slice := fieldAt p 4 4
  pf p 0 17 15 != 0 || pf p 0 14 2 != 0 || pf p 0 1 3 != 0
    || !(slice == 0 || (h && decide (100 ≤ slice) && decide (slice ≤ 1000000)))
    || fieldAt p 8 8 % 2048 != 0 || !va 16 8 || !va 24 16 || !va 32 65536 || (!h && fieldAt p 32 8 != 0) || !va 40 4
    || fieldAt p 48 8 % 65536 != 0 || fieldAt p 56 8 == 0 || fieldAt p 56 8 % 65536 != 0 || !va 64 65536 || !pz p 72 56

/-- The context that a descriptor creates. -/
def State.newCtx (s : State) (p : List Byte) : Context :=
  { st := .idle, cls := pf p 0 0 1 == 1, part := pf p 0 4 4, vd := pf p 0 8 6, accsave := pf p 0 16 1 == 1,
    slice := fieldAt p 4 4, root := fieldAt p 8 8, meetbase := BitVec.ofNat 64 (fieldAt p 16 8),
    trapbase := BitVec.ofNat 64 (fieldAt p 24 8), spill := BitVec.ofNat 64 (fieldAt p 32 8),
    trapv0 := BitVec.ofNat 64 (fieldAt p 40 8), savea := fieldAt p 48 8, savesz := fieldAt p 56 8,
    cmapva := BitVec.ofNat 64 (fieldAt p 64 8), ackv := s.cmap.cmv, usageFrom := s.time }

/-- The first check of CREATE that fails. -/
def State.createFails (s : State) (ctx : Nat) : Option Nat :=
  let a := s.ctxarg.toNat
  if (s.ctx ctx).st != .free then some 4
  else if a % 64 ≠ 0 then some 1
  else if !s.dpaOk a 128 then some 7
  else
    let p := s.homeBytes ⟨false, a⟩ 128
    let x := s.newCtx p
    if descBad p then some 1
    else if (s.vd x.vd).st == .free then some 2
    else if !qValid (s.part x.part).b then some 3
    else if !s.ownedSpan x.vd x.root 2048 65 || !s.ownedSpan x.vd x.savea x.savesz 65 then some 1
    else none

/-- CTX_CREATE: a context from the descriptor at CTXARG. -/
def execCtxCreate (ctx : BitVec 12) (s : State) : Out :=
  match s.createFails ctx.toNat with
  | some r => .next (s.ctxResult ctx 1 r)
  | none =>
    .next (((s.setCtx ctx.toNat (s.newCtx (s.homeBytes ⟨false, s.ctxarg.toNat⟩ 128))).moveDeadlines ctx.toNat).ctxResult ctx 1 0)

/-- CTX_DESTROY: an IDLE, SAVED or STOPPED context. DEDUCED (log 90). -/
def execCtxDestroy (ctx : BitVec 12) (s : State) : Out :=
  let c := ctx.toNat
  match (s.ctx c).st with
  | .idle | .saved | .stopped => .next ((s.destroy c).ctxResult ctx 2 0)
  | _ => .next (s.ctxResult ctx 2 5)

/-- CTX_PREEMPT. -/
def execCtxPreempt (ctx : BitVec 12) (s : State) : Out := .next (s.ctxTry ctx 3 (s.preempt ctx.toNat))

/-- CTX_RESUME. DEDUCED (log 87). -/
def execCtxResume (ctx : BitVec 12) (s : State) : Out := .next (s.ctxTry ctx 4 (s.resume ctx.toNat))

/-- CTX_DBGGRANT: the virtual device named by CTXARG may debug the context (11 R316). DEDUCED (log 89). -/
def execCtxDbggrant (ctx : BitVec 12) (s : State) : Out :=
  let c := ctx.toNat
  let v := s.ctxarg.toNat % 64
  if (s.ctx c).st == .free then .next (s.ctxResult ctx 5 5)
  else if (s.vd v).st == .free then .next (s.ctxResult ctx 5 2)
  else .next (((s.modCtx c fun x => { x with dbgVd := some v, editLogged := false }).ulDebug c 0 v).ctxResult ctx 5 0)

/-- What a group's halted threads do when no debugger holds them any more; edits that were accepted stand. -/
def Group.unhalt (g : Group) : Group :=
  { g with threads := g.threads.map fun t => { t with halted := false, haltDue := false, stepping := false, noFire := false } }

/-- A debug right ends: breakpoints go, while DBGCTX of the device names the context; halted threads of resident
groups run. CTXSTAT of a saved context keeps its HALTED. DESIGN CHOICE (log 139, 140). -/
def State.revoke (s : State) (c : Nat) : State :=
  match (s.ctx c).dbgVd with
  | none => s
  | some v =>
    let s1 := s.modCtx c fun x => { x with dbgVd := none }
    let s2 := if (s.vd v).dbgctx.toNat % 4096 = c then s1.modVd v fun d => { d with bps := List.replicate 8 none } else s1
    (s2.modGroups (fun _ g => g.ctx == c && g.residency == .resident) Group.unhalt).ulDebug c 1 v

/-- CTX_DBGREVOKE (11 R316). DEDUCED (log 89). -/
def execCtxDbgrevoke (ctx : BitVec 12) (s : State) : Out :=
  if (s.ctx ctx.toNat).st == .free then .next (s.ctxResult ctx 6 5)
  else .next ((s.revoke ctx.toNat).ctxResult ctx 6 0)

/-- CTXCMD_BADOP: OP 7 to 15 reports BADOP; OP 0 starts nothing. -/
def execCtxcmdBadop (ctx : BitVec 12) (op : BitVec 4) (s : State) : Out :=
  if 7 ≤ op.toNat then .next (s.ctxResult ctx op.toNat 6)
  else if op = 0 then .next { s with ctxcmd := BitVec.ofNat 64 (packBits [(4, ctx.toNat), (16, s.ctxcmd.toNat / 65536 % 256)]) }
  else .next s

/-! ## Time slices (11 R309, 09 R263) -/

/-- Whether a packet of another H context of the partition finds room only once this context's blocks
no longer count under the one-context rule. DEDUCED (log 88). -/
def State.sliceWanted (s : State) (ctx : Nat) : Bool :=
  let x := s.ctx ctx
  let lifted : State := { s with cores := s.cores.map fun (c, k) =>
    (c, { k with blocks := k.blocks.map fun b => if b.ctx = ctx then { b with retired := true } else b }) }
  s.queues.any fun (q, qx) => match s.willing q qx false with
    | some l => l.ctx != ctx && (s.ctx l.ctx).cls && (s.ctx l.ctx).part == x.part && (s.chooseUnit l).isNone && (lifted.chooseUnit l).isSome
    | none => false

/-- TIME_SLICE_EXPIRY: an H context that has been ACTIVE for its slice gives way to another. -/
def execTimeSliceExpiry (ctx : Nat) (s : State) : Out :=
  let x := s.ctx ctx
  if x.st == .active && x.cls && x.slice ≠ 0 && x.activeSince + 1000 * x.slice ≤ s.time && s.sliceWanted ctx then
    match s.preempt ctx with
    | some s1 =>
      let (n, s2) := s1.fresh
      .next (s2.modCtx ctx fun x => { x with auto := true, switchSeq := n })
    | none => .next s
  else .next s

/-- Whether a switched-out context would have a candidate, its state set aside. DEDUCED (log 88). -/
def State.wantsBack (s : State) (ctx : Nat) : Bool :=
  s.queues.any fun (q, x) => match s.willing q x true with
    | some l => l.ctx == ctx && (s.chooseUnit l).isSome
    | none => false

/-- AUTO_RESUME: the context switched out first of those with a candidate again is resumed.
DEDUCED (log 87). -/
def execAutoResume (ctx : Nat) (s : State) : Out :=
  let x := s.ctx ctx
  let out (x : Context) : Bool := x.st == .saved && x.auto
  if out x && s.wantsBack ctx && s.ctxs.all fun (c, y) => !(out y && decide (y.switchSeq < x.switchSeq) && s.wantsBack c) then
    match s.resume ctx with
    | some s1 => .next s1
    | none => .next s
  else .next s

/-! ## Map deadlines (01 R30, R31, R33) -/

/-- MAP_DEADLINE_EXPIRY: a running context has not acknowledged a version in time. No deadline expires in SAVING
and RESTORING, which R32 does not name. DESIGN CHOICE (log 123). -/
def execMapDeadlineExpiry (ctx : Nat) (s : State) : Out :=
  let x := s.ctx ctx
  if (x.st == .active || x.st == .draining) && s.overdue x then .next ((s.ulMap ctx).stopCtx ctx .mapUnack 0 0 0)
  else .next s

/-- MAPGRC_WRITE: MAPGRACE in ms, 1 to 100. -/
def execMapgrcWrite (v : Word) (s : State) : Out :=
  let ms := v.toNat % 128
  if 1 ≤ ms ∧ ms ≤ 100 then .next { s with mapgrc := BitVec.ofNat 32 ms } else .next s

end Sys2Proof.Machine
end

