-- ==== Sys2Proof/Machine/Fp.lean ====
section
/-! DEFINITION. FP32 arithmetic, rounding to integral and classes (15 R382 to R385, R388, R389). -/

namespace Sys2Proof.Machine

/-- A result with its exceptions. -/
def TR.ofFp (r : Nat × Nat) : TR := { w := BitVec.ofNat 64 r.1, ex := r.2 }

/-- A two-source FP operation under FCR. -/
def fp2 (f : RM → Bool → Nat → Nat → Nat × Nat) : Pass → List SVal → Nat → TR := fun p vs t =>
  .ofFp (f p.g.rm p.g.ftz ((sv vs 0).w t).toNat ((sv vs 1).w t).toNat)

/-- FADD (15 R383). -/
def execFadd (r : R3) (s : State) : Out := .next (s.laneOp (op3 (.fadd r) r) (fp2 NF.f32.fadd))

/-- FSUB (15 R383). -/
def execFsub (r : R3) (s : State) : Out := .next (s.laneOp (op3 (.fsub r) r) (fp2 NF.f32.fsub))

/-- FMUL (15 R383). -/
def execFmul (r : R3) (s : State) : Out := .next (s.laneOp (op3 (.fmul r) r) (fp2 NF.f32.fmul))

/-- FMA: the addend is D's old value (15 R383). -/
def execFma (r : R3) (s : State) : Out :=
  .next (s.laneOp (op3d (.fma r) r) fun p vs t =>
    .ofFp (NF.f32.fma p.g.rm p.g.ftz ((sv vs 0).w t).toNat ((sv vs 1).w t).toNat ((sv vs 2).w t).toNat))

/-- FMIN (15 R388). -/
def execFmin (r : R3) (s : State) : Out :=
  .next (s.laneOp (op3 (.fmin r) r) (fp2 fun _ ftz => NF.f32.fminmax ftz false))

/-- FMAX (15 R388). -/
def execFmax (r : R3) (s : State) : Out :=
  .next (s.laneOp (op3 (.fmax r) r) (fp2 fun _ ftz => NF.f32.fminmax ftz true))

/-- FABS: bit 31 cleared (15 R382). -/
def execFabs (r : R2) (s : State) : Out := .next (s.laneOp (op2 (.fabs r) r) (w1 (· &&& 0x7FFFFFFF)))

/-- FNEG: bit 31 inverted (15 R382). -/
def execFneg (r : R2) (s : State) : Out := .next (s.laneOp (op2 (.fneg r) r) (w1 (· ^^^ 0x80000000)))

/-- A function of one argument under FCR (15 R385). -/
def fp1 (f : Fun1) : Pass → List SVal → Nat → TR := fun p vs t =>
  .ofFp (f.eval p.g.rm p.g.ftz ((sv vs 0).w t).toNat)

/-- FRCP (15 R385). -/
def execFrcp (r : R2) (s : State) : Out := .next (s.laneOp (op2 (.frcp r) r) (fp1 .rcp))

/-- FRSQ (15 R385). -/
def execFrsq (r : R2) (s : State) : Out := .next (s.laneOp (op2 (.frsq r) r) (fp1 .rsq))

/-- FSQRT (15 R385). -/
def execFsqrt (r : R2) (s : State) : Out := .next (s.laneOp (op2 (.fsqrt r) r) (fp1 .sqrt))

/-- FEX2 (15 R385). -/
def execFex2 (r : R2) (s : State) : Out := .next (s.laneOp (op2 (.fex2 r) r) (fp1 .ex2))

/-- FLG2 (15 R385). -/
def execFlg2 (r : R2) (s : State) : Out := .next (s.laneOp (op2 (.flg2 r) r) (fp1 .lg2))

/-- FSIN (15 R385). -/
def execFsin (r : R2) (s : State) : Out := .next (s.laneOp (op2 (.fsin r) r) (fp1 .sin))

/-- FCOS (15 R385). -/
def execFcos (r : R2) (s : State) : Out := .next (s.laneOp (op2 (.fcos r) r) (fp1 .cos))

/-- FTNH (15 R385). -/
def execFtnh (r : R2) (s : State) : Out := .next (s.laneOp (op2 (.ftnh r) r) (fp1 .tnh))

/-- FRND: B 0 takes FCR.RM (15 R389). -/
def execFrnd (r : R2) (sub : BitVec 7) (s : State) : Out :=
  .next (s.laneOp (op2 (.frnd r sub) r) fun p vs t =>
    let mode : RM := match sub.toNat with
      | 0 => p.g.rm | 1 => .rne | 2 => .rz | 3 => .rd | _ => .ru
    .ofFp (frndEval mode p.g.ftz ((sv vs 0).w t).toNat))

/-- FCLS: B selects FP32, F16 or BF16 (15 R384). -/
def execFcls (r : R2) (sub : BitVec 7) (s : State) : Out :=
  .next (s.laneOp (op2 (.fcls r sub) r) (w1 fun a =>
    let c := match sub.toNat with
      | 0 => NF.f32.classBit a.toNat
      | 1 => NF.f16.classBit (a.toNat % 2 ^ 16)
      | _ => NF.bf16.classBit (a.toNat % 2 ^ 16)
    1#32 <<< c))

end Sys2Proof.Machine
end

