-- ==== Sys2Proof/Machine/Convert.lean ====
section
/-! DEFINITION. Packed 16-bit arithmetic, conversions and the MX instructions (16 R419, 14 R378,
R379, 16 R411 to R413). -/

namespace Sys2Proof.Machine

/-! ## Packed 16-bit (16 R419) -/

/-- Half `h` of a word. -/
def half (a : Word) (h : Nat) : Nat := a.toNat / 2 ^ (16 * h) % 2 ^ 16

def packFmt (x : Bool) : NF := if x then .bf16 else .f16

/-- The two halves of a result and the union of their exceptions. -/
def packTR (lo hi : Nat × Nat) : TR := { w := BitVec.ofNat 64 (lo.1 + 2 ^ 16 * hi.1), ex := lo.2 ||| hi.2 }

/-- A packed operation on two sources. -/
def packed2 (f : RM → Bool → Nat → Nat → Nat × Nat) : Pass → List SVal → Nat → TR := fun p vs t =>
  let on (h : Nat) := f p.g.rm p.g.ftz (half ((sv vs 0).w t) h) (half ((sv vs 1).w t) h)
  packTR (on 0) (on 1)

/-- PADD. -/
def execPadd (r : R3) (x : Bool) (s : State) : Out :=
  .next (s.laneOp (op3 (.padd r x) r) (packed2 fun m z => (packFmt x).fadd m z))

/-- PMUL. -/
def execPmul (r : R3) (x : Bool) (s : State) : Out :=
  .next (s.laneOp (op3 (.pmul r x) r) (packed2 fun m z => (packFmt x).fmul m z))

/-- PFMA: the addend is D's old half, rounded once. -/
def execPfma (r : R3) (x : Bool) (s : State) : Out :=
  .next (s.laneOp (op3d (.pfma r x) r) fun p vs t =>
    let on (h : Nat) := (packFmt x).fma p.g.rm p.g.ftz (half ((sv vs 0).w t) h) (half ((sv vs 1).w t) h) (half ((sv vs 2).w t) h)
    packTR (on 0) (on 1))

/-- PMIN. -/
def execPmin (r : R3) (x : Bool) (s : State) : Out :=
  .next (s.laneOp (op3 (.pmin r x) r) (packed2 fun _ z => (packFmt x).fminmax z false))

/-- PMAX. -/
def execPmax (r : R3) (x : Bool) (s : State) : Out :=
  .next (s.laneOp (op3 (.pmax r x) r) (packed2 fun _ z => (packFmt x).fminmax z true))

/-! ## Stochastic draws of a thread (05 R140, R141) -/

/-- The draw that the thread of a slot takes now. -/
def State.laneDraw (s : State) (p : Pass) (i : Nat) : Nat :=
  let t := p.g.th i
  (Sys2Proof.Machine.draw (drawKey p.g.seed (BitVec.ofNat 32 (s.blockOf p.core p.g).bix) t.tix.toNat) t.srCtr).toNat

/-- Committed threads advance their generators; a uniform pass only that of its lowest slot. -/
def drawPost (u : Bool) : Pass → List (Nat × TR) → State → State := fun p rs s =>
  let m := if u then 1#32 <<< lowSlot p.ex else rs.foldl (fun m (i, _) => m ||| 1#32 <<< i) 0
  s.modGroup p.core p.gid fun g => g.modThs m fun _ t => { t with srCtr := t.srCtr + 1 }

/-! ## CVT (14 R378, R379) -/

/-- The mode of an RND field of CVT. -/
def cvtMode (g : Group) (rnd : BitVec 2) : RM :=
  match rnd.toNat with
  | 0 => g.rm
  | 1 => .rne
  | 2 => .rz
  | _ => .sr

/-- The FP formats of a PAIR with an FP source and an FP result. -/
def cvtFmts (pair : Nat) : NF × NF :=
  match pair with
  | 0 => (.f32, .f16) | 1 => (.f32, .bf16) | 2 => (.f32, .e4m3) | 3 => (.f32, .e5m2)
  | 4 => (.f16, .f32) | 5 => (.bf16, .f32) | 6 => (.e4m3, .f32) | _ => (.e5m2, .f32)

/-- The range of a PAIR with an integer result. -/
def cvtRange (pair : Nat) : Int × Int :=
  match pair with
  | 0x08 => (-2 ^ 31, 2 ^ 31 - 1)
  | 0x09 => (0, 2 ^ 32 - 1)
  | 0x0C => (-128, 127)
  | _ => (0, 255)

/-- The events of a conversion to an integer (13 R347). -/
def tcInt (c : Nat) (n : Int) (ex : Nat) : TCount :=
  match NF.f32.unpack c with
  | .nan _ => { nan := 1 }
  | .inf _ => { sat := 1 }
  | .fin d => { sat := ex % 2, uf := (!d.isZero && n == 0).toNat }

/-- One conversion of a word. -/
def cvtWord (pair : Nat) (mode : RM) (sat ftz : Bool) (dr : Nat) (a : Word) : TR :=
  if pair < 8 then
    let (src, dst) := cvtFmts pair
    let c := a.toNat % 2 ^ src.width
    let (r, ex) := cvtFp src dst mode sat ftz dr c
    { w := BitVec.ofNat 64 r, ex, tc := tcFp src dst c r ex }
  else if pair == 0x0A || pair == 0x0B then
    let (r, ex) := cvtFromInt mode ftz dr (if pair == 0x0A then a.toInt else a.toNat)
    { w := BitVec.ofNat 64 r, ex }
  else
    let (n, ex) := cvtToInt (cvtRange pair).1 (cvtRange pair).2 mode ftz a.toNat
    { w := (BitVec.ofInt 32 n).setWidth 64, ex, tc := tcInt a.toNat n ex }

/-- CVT, a Tephra site. -/
def execCvt (r : R2) (pair : BitVec 5) (rnd : BitVec 2) (x : Bool) (s : State) : Out :=
  let sr := rnd.toNat == 3
  .next (s.laneOp (op2 (.cvt r pair rnd x) r)
    (fun p vs t => cvtWord pair.toNat (cvtMode p.g rnd) x p.g.ftz
      (if sr then s.laneDraw p (if r.u then lowSlot p.ex else t) else 0) ((sv vs 0).w t))
    (post := fun p rs s =>
      let s1 := tallyPost (.cvt r pair rnd x) r.u p rs s
      if sr then drawPost r.u p rs s1 else s1))

/-! ## MX (16 R411 to R413) -/

/-- The form of an MX instruction. -/
def opMx (i : Instr) (nw : Bool) (d : Dst) (a : Src) : LOp :=
  { i, nw, dst := .v d false, srcs := [(a, false)], all := true }

/-- An MX instruction requires TILE 32. DEDUCED (log 18). -/
def mxTile (f : Pass → List SVal → Nat → TR) : Pass → List SVal → Nat → TR := fun p vs t =>
  if p.g.tile != 32 then .bad .illegalOperand else f p vs t

def mxFmt (fmt : BitVec 4) : NF := (fmtCode fmt.toNat).getD .e4m3

/-- The block of a pass: the source of the executing slots, +0 elsewhere. -/
def mxBlock (p : Pass) (v : SVal) : List Nat := (List.range 32).map fun i => if p.ex.getLsbD i then (v.w i).toNat else 0

/-- MXSCL. DEDUCED (log 18). -/
def execMxscl (nw : Bool) (d : Dst) (a : Src) (fmt : BitVec 4) (s : State) : Out :=
  let i := Instr.mxscl nw d a fmt
  .next (s.laneOp (opMx i nw d a)
    (mxTile fun p vs t =>
      let xs := mxBlock p (sv vs 0)
      let c := mxScale xs (mxFmt fmt)
      { w := BitVec.ofNat 64 c, tc := if t = lowSlot p.ex then tcScale xs c else {} })
    (post := tallyPost i false))

/-- The element of a slot of an MXPK block. -/
def State.mxpkElem (s : State) (p : Pass) (f : NF) (rnd : Nat) (c : Nat) (x i : Nat) : Rnd :=
  if c == 0xFF then ⟨0, 0, false⟩
  else mxElem x c f (rndMode rnd) (if rnd = 2 && p.ex.getLsbD i then s.laneDraw p i else 0)

/-- MXPK. -/
def execMxpk (nw : Bool) (d : Dst) (a : Src) (rnd : BitVec 2) (fmt : BitVec 4) (s : State) : Out :=
  let i := Instr.mxpk nw d a rnd fmt
  let f := mxFmt fmt
  .next (s.laneOp (opMx i nw d a)
    (mxTile fun p vs t =>
      let xs := mxBlock p (sv vs 0)
      let c := mxScale xs f
      let es := xs.mapIdx fun j x => (s.mxpkElem p f rnd.toNat c x j).code
      let own := tcElem f (xs.getD t 0) (s.mxpkElem p f rnd.toNat c (xs.getD t 0) t)
      { w := BitVec.ofNat 64 (if t < f.width then fieldAt (packElems f.width es) (4 * t) 4 else c)
        tc := (if c == 0xFF then {} else own).add (if t = lowSlot p.ex then tcScale xs c else {}) })
    (post := fun p rs s =>
      let s1 := tallyPost i false p rs s
      if rnd.toNat = 2 then drawPost false p rs s1 else s1))

/-- MXUPK: the words of slots 0 to W − 1 and the scale of slot 31, whatever the executing set. -/
def execMxupk (nw : Bool) (d : Dst) (a : Src) (fmt : BitVec 4) (s : State) : Out :=
  let i := Instr.mxupk nw d a fmt
  let f := mxFmt fmt
  .next (s.laneOp { opMx i nw d a with lazyUe := true }
    (mxTile fun _ vs t =>
      let v := sv vs 0
      if (31 :: List.range f.width).any fun j => v.ue.getLsbD j then .bad .memUe
      else
        let blk := (List.range f.width).foldr (fun j n => (v.w j).toNat + 2 ^ 32 * n) 0
        let r := mxDecode f (elemAt f.width blk t) ((v.w 31).toNat % 256)
        { w := BitVec.ofNat 64 r, tc := { nan := (NF.f32.unpack r).isNan.toNat } })
    (post := tallyPost i false))

end Sys2Proof.Machine
end

