-- ==== Sys2Proof/Machine/Cross.lean ====
section
/-! DEFINITION. Cross-thread instructions (17 R435 to R451, 15 R380, 16 R427, R430): each tile on its
own, every source read before any destination is written. -/

namespace Sys2Proof.Machine

/-- The form of a cross-thread instruction. -/
def opX (i : Instr) (nw : Bool) (d : Dst) (srcs : List Src) : LOp :=
  { i, nw, dst := .v d false, srcs := srcs.map fun a => (a, false), all := true }

/-- The executing threads of the tile of a slot, in slot order (02 R63). -/
def Pass.tileOf (p : Pass) (t : Nat) : List Nat :=
  (slotsOf p.ex).filter fun i => i / p.g.tile == t / p.g.tile

/-- A value read from another slot, with the error of its word (17 R435). -/
def fromSlot (v : SVal) (i : Nat) : TR := if v.ue.getLsbD i then .bad .memUe else .ofWord (v.w i)

/-! ## Shuffles (17 R440, R441) -/

/-- A shuffle by a slot choice; its own slot beyond the tile. The control operand is the thread's own. -/
def shuffle (pick : Pass → Nat → Nat → Option Nat) : Pass → List SVal → Nat → TR := fun p vs t =>
  if (sv vs 1).ue.getLsbD t then .bad .memUe
  else fromSlot (sv vs 0) ((pick p t ((sv vs 1).w t).toNat).getD t)

/-- SHFX. -/
def execShfx (nw : Bool) (d : Dst) (a b : Src) (s : State) : Out :=
  .next (s.laneOp { opX (.shfx nw d a b) nw d [a, b] with lazyUe := true }
    (shuffle fun p t v => if v < p.g.tile then some (t / p.g.tile * p.g.tile + v) else none))

/-- SHFB. -/
def execShfb (nw : Bool) (d : Dst) (a b : Src) (s : State) : Out :=
  .next (s.laneOp { opX (.shfb nw d a b) nw d [a, b] with lazyUe := true }
    (shuffle fun p t v => if v < p.g.tile then some (t / p.g.tile * p.g.tile + (t % p.g.tile ^^^ v)) else none))

/-- SHFD: counted among the executing threads of the tile. -/
def execShfd (nw : Bool) (d : Dst) (a b : Src) (s : State) : Out :=
  .next (s.laneOp { opX (.shfd nw d a b) nw d [a, b] with lazyUe := true }
    (shuffle fun p t v =>
      let before := ((p.tileOf t).filter (· < t)).reverse
      if v = 0 then some t else before[v - 1]?))

/-! ## SCAN and REDX (17 R436, R437; 16 R430, R431; 05 R155) -/

/-- The first value of a running result and its exceptions. -/
def stepFirst (g : Group) (stp : Nat) (x : Word) : Nat × Nat :=
  if stp < 8 then (x.toNat, 0) else NF.f32.first g.ftz x.toNat

/-- One step of a running result and its exceptions. -/
def stepNext (g : Group) (stp : Nat) (run : Nat) (x : Word) : Nat × Nat :=
  let a := BitVec.ofNat 32 run
  match stp with
  | 0 => ((a + x).toNat, 0)
  | 1 => ((minMax false true a x).toNat, 0)
  | 2 => ((minMax true true a x).toNat, 0)
  | 3 => ((minMax false false a x).toNat, 0)
  | 4 => ((minMax true false a x).toNat, 0)
  | 5 => ((a &&& x).toNat, 0)
  | 6 => ((a ||| x).toNat, 0)
  | 7 => ((a ^^^ x).toNat, 0)
  | 8 => NF.f32.fadd g.rm g.ftz run x.toNat
  | 9 => NF.f32.fminmax g.ftz false run x.toNat
  | _ => NF.f32.fminmax g.ftz true run x.toNat

/-- The identity of a step. -/
def stepIdent (stp : Nat) : Word :=
  match stp with
  | 1 | 5 => 0xFFFFFFFF
  | 3 => 0x7FFFFFFF
  | 4 => 0x80000000
  | 9 => 0x7F800000
  | 10 => 0xFF800000
  | _ => 0

/-- The inclusive results of a tile: (slot, value, exceptions of its step), in slot order. -/
def prefixes (g : Group) (stp : Nat) (v : SVal) : List Nat → List (Nat × Nat × Nat)
  | [] => []
  | t :: r =>
    let (x, ex) := stepFirst g stp (v.w t)
    (r.foldl (fun (acc, run) i =>
      let (y, e) := stepNext g stp run (v.w i)
      ((i, y, e) :: acc, y)) ([(t, x, ex)], x)).1.reverse

/-- SCAN. -/
def execScan (nw : Bool) (d : Dst) (a : Src) (exc : Bool) (stp : BitVec 4) (s : State) : Out :=
  .next (s.laneOp (opX (.scan nw d a exc stp) nw d [a]) fun p vs t =>
    let ps := prefixes p.g stp.toNat (sv vs 0) (p.tileOf t)
    let inc (i : Nat) : Nat × Nat := ((ps.find? (·.1 == i)).map (·.2)).getD (0, 0)
    let before := (p.tileOf t).filter (· < t)
    let val : Nat := if exc then (match before.getLast? with
      | some i => (inc i).1
      | none => (stepIdent stp.toNat).toNat) else (inc t).1
    { w := BitVec.ofNat 64 val, ex := (inc t).2 })

/-- The uniform row of REDX and VOTE (03 R92): TILE 32. -/
def tileForm (val : Pass → List SVal → Nat → TR) : Pass → List SVal → Option (Shape × Shape) := fun p vs =>
  if p.g.tile = 32 then some (.uniform ((val p vs (lowSlot p.ex)).w.setWidth 32), .uniform 0) else none

/-- The value of a REDX for a thread, with the exceptions of the thread's own step. -/
def redxVal (stp : Nat) : Pass → List SVal → Nat → TR := fun p vs t =>
  let ps := prefixes p.g stp (sv vs 0) (p.tileOf t)
  { w := BitVec.ofNat 64 ((ps.getLast?.map (·.2.1)).getD 0), ex := ((ps.find? (·.1 == t)).map (·.2.2)).getD 0 }

/-- REDX. -/
def execRedx (nw : Bool) (d : Dst) (a : Src) (stp : BitVec 4) (s : State) : Out :=
  .next (s.laneOp (opX (.redx nw d a stp) nw d [a]) (redxVal stp.toNat) (tileForm (redxVal stp.toNat)))

/-! ## VOTE, FIRST, ELECT, RANK -/

/-- The value of a VOTE for a thread (17 R451). -/
def voteVal (pa mode : Nat) : Pass → List SVal → Nat → TR := fun p _ t =>
  let e := p.tileOf t
  let on (i : Nat) : Bool := (p.g.pred pa).bits.getLsbD i
  match mode with
  | 0 => .ofBool (e.all on)
  | 1 => .ofBool (e.any on)
  | 2 => .ofNat (e.foldl (fun n i => if on i then n + 2 ^ (i % p.g.tile) else n) 0)
  | _ => .ofBool (e.all on || e.all fun i => !on i)

/-- VOTE. -/
def execVote (nw : Bool) (d : VoteDst) (pa : BitVec 3) (mode : BitVec 2) (s : State) : Out :=
  let i := Instr.vote nw d pa mode
  match d with
  | .reg r => .next (s.laneOp { i, nw, dst := .v r false, all := true } (voteVal pa.toNat mode.toNat)
      (tileForm (voteVal pa.toNat mode.toNat)))
  | .pred q => .next (s.laneOp { i, dst := .pred q, all := true } (voteVal pa.toNat mode.toNat))

/-- FIRST, .LAST with the flag (15 R380). -/
def execFirst (nw : Bool) (d : Dst) (a : Src) (last : Bool) (s : State) : Out :=
  .next (s.laneOp (opX (.first nw d a last) nw d [a]) fun p vs t =>
    let e := p.tileOf t
    .ofWord ((sv vs 0).w ((if last then e.getLast? else e.head?).getD t)))

/-- ELECT, .SLOT with the flag (15 R380). -/
def execElect (nw : Bool) (d : Dst) (slot : Bool) (s : State) : Out :=
  .next (s.laneOp (opX (.elect nw d slot) nw d []) fun p _ t =>
    let e := ((p.tileOf t).head?).getD t
    if slot then .ofNat (e % p.g.tile) else .ofBool (t == e))

/-- RANK, .PEERS, .IDX (16 R427). -/
def execRank (nw : Bool) (d : Dst) (a : Src) (sub : BitVec 2) (s : State) : Out :=
  .next (s.laneOp (opX (.rank nw d a sub) nw d (if sub.toNat = 2 then [] else [a])) fun p vs t =>
    let e := p.tileOf t
    let same (i : Nat) : Bool := (sv vs 0).w i == (sv vs 0).w t
    .ofNat (match sub.toNat with
      | 0 => (e.filter fun i => decide (i < t) && same i).length
      | 1 => (e.filter same).length
      | _ => (e.filter (· < t)).length))

/-! ## SSINT (17 R444) -/

/-- The advance counts of a tile. -/
def ssAdv (xs ys : List Nat) : Nat :=
  let n (l : List Nat) (m : Nat) : Nat := (l.filter (· ≤ m)).length
  n ys (xs.getLastD 0) * 256 + n xs (ys.getLastD 0)

/-- SSINT; SSADV is written for the committing threads. -/
def execSsint (nw : Bool) (d : Dst) (a b : Src) (s : State) : Out :=
  .next (s.laneOp (opX (.ssint nw d a b) nw d [a, b])
    (fun p vs t =>
      let ys := (p.tileOf t).map fun i => (sv vs 1).w i
      .ofWord (match ys.findIdx? (· == (sv vs 0).w t) with
        | some j => BitVec.ofNat 32 j
        | none => 0xFFFFFFFF))
    (post := fun p rs s0 =>
      let vs := s.readSrcs p (opX (.ssint nw d a b) nw d [a, b])
      let adv (t : Nat) : Nat := ssAdv ((p.tileOf t).map fun i => ((sv vs 0).w i).toNat)
        ((p.tileOf t).map fun i => ((sv vs 1).w i).toNat)
      rs.foldl (fun s (t, _) => s.modGroup p.core p.gid fun g =>
        g.modTh t fun x => { x with ssadv := BitVec.ofNat 16 (adv t) }) s0))

end Sys2Proof.Machine
end

