-- ==== Sys2Proof/Machine/Devices.lean ====
section
/-! DEFINITION. Virtual devices (12 R318 to R331): their commands, usage and checkpoint ticks,
attestation, ring counters, interrupt bits; fabric groups and collective channels (12 R338, R339). -/

namespace Sys2Proof.Machine

/-! ## VDCMD (12 R319, R321) -/

/-- BUSY of VDCMD: a STOP or a RESET is running (log 34). -/
def VDev.busy (d : VDev) : Bool := d.cmd.getLsbD 31

/-- VDCMD with its fields. -/
def vdcmdWord (op result : Nat) (busy : Bool) : DWord :=
  BitVec.ofNat 64 (packBits [(0, op), (16, result), (31, busy.toNat)])

/-- A command has ended with a result. DESIGN CHOICE (log 34). -/
def State.vdResult (s : State) (v op result : Nat) : State :=
  s.modVd v fun d => { d with cmd := vdcmdWord op result false }

/-- A command that the state of the virtual device does not allow reports STATE; one that runs goes
on (log 35). -/
def State.vdRefuse (s : State) (v op : Nat) : State :=
  s.modVd v fun d => { d with cmd := if d.busy then vdcmdWord (d.cmd.toNat % 16) 1 true else vdcmdWord op 1 false }

/-- The contexts of a virtual device. -/
def State.ctxsOf (s : State) (v : Nat) : List (Nat × Context) := s.ctxs.filter fun (_, x) => x.vd == v && x.st != .free

/-- VD_CREATE: a FREE virtual device becomes ACTIVE with VDGEN 1 and begins its usage log. -/
def execVdCreate (v : Nat) (s : State) : Out :=
  if v ≥ 64 then .next s
  else match (s.vd v).st with
    | .free =>
      let s1 := s.modVd v fun d => { d with
        st := .active, gen := 1, ulseq := 0, ulprev := List.replicate 32 0, ckptAt := s.time / 1000000000 }
      .next ((s1.ulRec v 1 noCtx s1.identity).vdResult v 1 0)
    | _ => .next (s.vdRefuse v 1)

/-- VD_STOP: every ACTIVE context is pre-empted; the STOP runs until VD_STOP_DONE (12 R330). -/
def execVdStop (v : Nat) (s : State) : Out :=
  match (s.vd v).st with
  | .active =>
    let s1 := s.modVd v fun d => { d with st := .stopping, cmd := vdcmdWord 2 0 true }
    .next ((s1.ctxsOf v).foldl (fun s (c, x) => if x.st == .active then (s.preempt c).getD s else s) s1)
  | _ => if v ≥ 64 then .next s else .next (s.vdRefuse v 2)

/-- Whether every context of a virtual device has settled, and nothing of what they have done is still to come:
operations, stores, atomics, censuses and completion signals. DEDUCED (log 35). -/
def State.vdSettled (s : State) (v : Nat) : Bool :=
  let mine (ctx : Nat) : Bool := (s.ctx ctx).vd == v
  (s.ctxsOf v).all (fun (_, x) => x.st == .saved || x.st == .stopped || x.st == .idle)
    && s.launches.all (fun l => !(mine l.ctx && l.complete && !l.discarded))
    && s.cores.all fun (_, k) => k.ops.all (fun o => !(mine o.ctx && o.live)) && k.stores.all (fun w => !mine w.ctx)
      && k.atoms.all fun a => !mine a.ctx

/-- Whether a stored word of an L1 is a write of a virtual device. -/
def State.wordOf (s : State) (v : Nat) (w : L1Word) : Bool :=
  w.st != .unowned && ((w.ctxs.any fun x => (s.ctx x).vd == v) ||
    (!w.pa.host && match s.regionAt w.pa.addr with | some r => r.owner.toNat == v | none => false))

/-- Every stored word of a virtual device takes effect and is written back, as a SYSTEM release
would (12 R330 item 1). -/
def State.vdRelease (s : State) (v : Nat) : State :=
  s.cores.foldl (fun s (c, k) => (k.l1.filter (s.wordOf v)).foldl (fun s w => (s.grant c w.pa).surrender w.pa) s) s

/-- VD_STOP_DONE: the writes and their dirty-log entries, then STOPPED with its STATE record and
checkpoint, then cause 4. -/
def execVdStopDone (v : Nat) (s : State) : Out :=
  match (s.vd v).st with
  | .stopping =>
    if !s.vdSettled v then .next s
    else
      let s1 := s.vdRelease v
      if s.heldMore s1 then .next s
      else .next ((((s1.modVd v fun d => { d with st := .stopped }).ulState v).vdResult v 2 0).virq v 4)
  | _ => .next s

/-- VD_RESUME: a STOPPED virtual device becomes ACTIVE. -/
def execVdResume (v : Nat) (s : State) : Out :=
  match (s.vd v).st with
  | .stopped => .next (((s.modVd v fun d => { d with st := .active }).ulState v).vdResult v 3 0)
  | _ => if v ≥ 64 then .next s else .next (s.vdRefuse v 3)

/-! ## Reset (12 R331) -/

/-- Steps 1 and 2: the contexts stop as under DIE_LOST and become FREE, the queues are disabled; their OWNER and CTX
stand as they were, for what a release leaves in them is not stated. DESIGN CHOICE (log 124). -/
def State.resetWork (s : State) (v : Nat) : State :=
  let s1 := (s.ctxsOf v).foldl (fun s (c, _) => (s.loseCtx c).destroy c) s
  s1.queues.foldl (fun s (q, x) => if wqOwner x.ctl == v then s.queueDisable q else s) s1

/-- VD_RESET: the reset begins; a running STOP ends with ABORTED. DEDUCED (log 35). -/
def execVdReset (v : Nat) (s : State) : Out :=
  let d := s.vd v
  match d.st with
  | .free | .resetting => if v ≥ 64 then .next s else .next (s.vdRefuse v 4)
  | st =>
    .next ((s.modVd v fun d => { d with
      st := .resetting, cmd := vdcmdWord 4 (if st = .stopping then 4 else 0) true }).resetWork v)

/-- The configured channels of a virtual device. -/
def State.channelsOf (s : State) (v : Nat) : List Nat := (List.range 64).filter fun c => (s.coll v c).cfg.getLsbD 0

/-- A channel is unconfigured. -/
def State.unconfigure (s : State) (v c : Nat) : State :=
  { s with colls := alSet (64 * v + c) { cfg := (s.coll v c).cfg &&& ~~~(1 : DWord) } s.colls }

/-- Steps 4 and 5: ABORT on every channel to every rank of its group, of a class that is free, then its buffered
frames are purged. DEDUCED (log 96). DESIGN CHOICE (log 20). -/
def State.resetChannels (s : State) (v : Nat) : State :=
  (s.channelsOf v).foldl (fun s c =>
    let tag := s.collTag v c
    let s0 := { s with free := s.free + 1 }
    let s1 := s0.putFrames s.hostDie none (s0.framesOf v c (Config.freeBit s.free) (s.collPeers v c) .abort [])
    { s1 with frames := s1.frames.filter fun f => f.tag != tag }.unconfigure v c) s

/-- VDGEN increments, skipping 0. -/
def nextGen (g : Word) : Word := if g + 1 = 0 then 1 else g + 1

/-- EN of a ring register is cleared. -/
def ringOff (r : DWord) : DWord := r &&& ~~~(0x40 : DWord)

/-- VD_RESET_DONE: steps 3 to 6, then ACTIVE and cause 5. DEDUCED (log 96). -/
def execVdResetDone (v : Nat) (s : State) : Out :=
  match (s.vd v).st with
  | .resetting =>
    let s1 := s.modVd v fun d => { d with gen := nextGen d.gen, reqs := [] }
    let s2 := (s1.resetChannels v).modVd v fun d => { d with
      kek := none, dlring := ringOff d.dlring, pqring := ringOff d.pqring, dlpause := false, heldPages := [], credits := [], st := .active }
    .next (((s2.ulState v).vdResult v 4 0).virq v 5)
  | _ => .next s

/-! ## DESTROY, SIGN and the rest (12 R319, R325) -/

/-- What makes DESTROY report INUSE. -/
def State.vdInUse (s : State) (v : Nat) : Bool :=
  !(s.ctxsOf v).isEmpty || s.queues.any (fun (_, q) => wqEn q.ctl && wqOwner q.ctl == v)
    || s.keys.any (fun (_, k) => k.owner == some v) || s.regions.any fun (_, r) => r.valid && r.owner.toNat == v

/-- The USAGE record of a context: its lane cycles (02 R57), the bytes it moved in HBM, on the host link and on the
fabric, and the package's estimate of its energy (12 R324, log 4). DESIGN CHOICE (log 143). -/
def State.usagePut (s : State) (c : Nat) (x : Context) : State :=
  let figs := leBytes 8 x.hbmBytes ++ leBytes 8 x.hostBytes ++ leBytes 8 x.fabBytes ++ leBytes 8 (Config.usageEnergy s.free).toNat
  let lanes := leBytes 8 (if x.cls then 0 else x.laneCycles) ++ leBytes 8 (if x.cls then x.laneCycles else 0)
  { s with free := s.free + 1 }.ulRec x.vd 3 c (leBytes 8 x.usageFrom ++ lanes ++ figs)

/-- The records of the contexts of a virtual device that were destroyed in the interval, made before it is destroyed
itself; none while its log is full. DEDUCED (log 95). -/
def State.closeUsage (s : State) (v : Nat) : State :=
  let rest : State := { s with pastCtxs := s.pastCtxs.filter fun (_, x) => x.vd != v }
  (s.pastCtxs.filter fun (_, x) => x.vd == v).foldl (fun s (c, x) => if (s.vd v).ulhold then s else s.usagePut c x) rest

/-- VD_DESTROY: an ACTIVE or STOPPED virtual device that owns nothing becomes FREE. The usage of its contexts that were
destroyed in the interval is recorded before, if its log has room. DEDUCED (log 95). -/
def execVdDestroy (v : Nat) (s : State) : Out :=
  match (s.vd v).st with
  | .active | .stopped =>
    if s.vdInUse v then .next (s.vdResult v 5 3)
    else
      .next (((s.closeUsage v).modVd v fun d => { d with st := .free, kek := none }).vdResult v 5 0)
  | _ => if v ≥ 64 then .next s else .next (s.vdRefuse v 5)

/-- VD_SIGN: a signed checkpoint; a write of SIGN in the window acts the same (12 R332).
DESIGN CHOICE (log 34). DEDUCED (log 95). -/
def execVdSign (v : Nat) (_window : Bool) (s : State) : Out :=
  if v ≥ 64 || (s.vd v).busy then .next s
  else if (s.vd v).st == .free then .next (s.vdResult v 6 1)
  else .next ((s.checkpoint v).vdResult v 6 0)

/-- VDCMD_BADOP: OP 7 to 15 reports BADOP; OP 0 starts nothing. -/
def execVdcmdBadop (v : Nat) (op : BitVec 4) (s : State) : Out :=
  if v ≥ 64 || (s.vd v).busy then .next s
  else if 7 ≤ op.toNat then .next (s.vdResult v op.toNat 2)
  else if op = 0 then .next (s.modVd v fun d => { d with cmd := d.cmd &&& ~~~(15 : DWord) })
  else .next s

/-- PRTO_WRITE: 1 to 10,000 ms. -/
def execPrtoWrite (v : Nat) (val : Word) (s : State) : Out :=
  if v < 64 ∧ 1 ≤ val.toNat ∧ val.toNat ≤ 10000 then .next (s.modVd v fun d => { d with prto := val }) else .next s

/-! ## Ticks of one second (12 R323 to R325) -/

/-- The record of a context that exists, whose next interval begins. -/
def State.usageRecord (s : State) (c : Nat) : State :=
  (s.usagePut c (s.ctx c)).modCtx c fun x =>
    { x with usageFrom := s.time, laneCycles := 0, hbmBytes := 0, hostBytes := 0, fabBytes := 0
             ranInterval := x.st == .active || x.st == .draining }

/-- The records of the contexts that were destroyed in the interval. -/
def State.usagePast (s : State) : State :=
  s.pastCtxs.foldl (fun s (c, x) =>
    if (s.vd x.vd).ulhold then { s with pastCtxs := s.pastCtxs ++ [(c, x)] } else s.usagePut c x) { s with pastCtxs := [] }

/-- USAGE_INTERVAL_TICK: a record for each context that ran in the interval; while its log is full
the interval widens instead. -/
def execUsageIntervalTick (s : State) : Out :=
  if s.time < (s.usageTicks + 1) * 1000000000 then .next s
  else
    .next (s.ctxs.foldl (fun s (c, x) =>
      if x.st != .free && x.ranInterval then (if (s.vd x.vd).ulhold then s else s.usageRecord c)
      else s.modCtx c fun x => { x with usageFrom := s.time }) { s.usagePast with usageTicks := s.usageTicks + 1 })

/-- CHECKPOINT_TICK: the checkpoint of every second. -/
def execCheckpointTick (v : Nat) (s : State) : Out :=
  let d := s.vd v
  if v ≥ 64 || d.st == .free || s.time < (d.ckptAt + 1) * 1000000000 then .next s
  else .next ((s.modVd v fun d => { d with ckptAt := d.ckptAt + 1 }).checkpoint v)

/-! ## Attestation (12 R326) -/

/-- ATTEST_REQUEST: the nonce at a DPA is read. DEDUCED (log 94). -/
def execAttestRequest (v : Nat) (dpa : DWord) (s : State) : Out :=
  let a := dpa.toNat
  if v ≥ 64 || a % 64 ≠ 0 || !s.dpaOk a 32 then .next s
  else .next (s.modVd v fun d => { d with attest := some (a, s.homeBytes ⟨false, a⟩ 32) })

/-- A report without its signature, in the order of R326. DEDUCED (log 94). -/
def State.attestBody (s : State) (v : Nat) (nonce : List Byte) (id : Nat) : List Byte :=
  let d := s.vd v
  nonce ++ s.identity ++ (List.range 6).flatMap (fun i => leBytes 4 (s.cmap.fw.getD i {}).ver.toNat)
    ++ fitBytes 32 Config.blobHash ++ leBytes 8 s.cmap.cmv ++ leBytes 4 d.gen.toNat ++ leBytes 8 (d.ulseq - 1) ++ d.ulprev
    ++ fitBytes 1184 (Config.encapsulationKey id)

/-- Write a report page by page, up to the first page that a paused dirty log holds: whether all of it is written
(12 R329). -/
def State.reportPut (s : State) (a : Nat) (bs : List Byte) : Bool × State :=
  let (ok, s1, _) := (pageSpans (bs.length / 4096 + 2) a bs.length).foldl (fun (ok, s, rest) (a, k) =>
    if !ok then (ok, s, rest)
    else
      let t := s.homeWrite {} ⟨false, a⟩ (rest.take k)
      if s.heldMore t then (false, s, rest) else (true, t, rest.drop k)) (true, s, bs)
  (ok, s1)

/-- ATTEST_REPORT_DONE: the signed report is written at the request's address + 64; a page that a paused dirty log
holds waits, and the report with it (12 R329). DEDUCED (log 94). -/
def execAttestReportDone (v : Nat) (s : State) : Out :=
  match (s.vd v).attest with
  | none => .next s
  | some (a, nonce) =>
    let (id, s1) := s.fresh
    let body := s1.attestBody v nonce id
    let report := body ++ signed body
    let s2 := s1.modVd v fun d => { d with attest := none }
    if !s.dpaOk (a + 64) report.length then .next s2
    else
      match s2.reportPut (a + 64) report with
      | (true, s3) => .next ((s3.modVd v fun d => { d with report := id }).virq v 3)
      | (false, _) => .next (s.keepWait (s1.reportPut (a + 64) report).2)

/-! ## Rings and interrupt bits (12 R320, R328, R329, R332, R334) -/

/-- DLEPOCH_WRITE: a new epoch of the dirty log. -/
def execDlepochWrite (v : Nat) (s : State) : Out :=
  if v ≥ 64 then .next s else .next (s.modVd v fun d => { d with epochPages := [] })

/-- The host takes entries of the dirty log: below 7/8 the pause ends, held pages are logged, the credit held back
goes out, and what waited for held words goes on (12 R329). -/
def State.dirtyTaken (s : State) (v : Nat) : State :=
  let d := s.vd v
  if !d.dlpause || 8 * d.dlCount ≥ 7 * (ringSize d.dlring / 8) then s
  else
    let s1 := d.heldPages.foldl (fun s p => s.dirtyPut v p)
      (s.modVd v fun d => { d with dlpause := false, heldPages := [], credits := [] })
    s1.cores.foldl (fun s (c, _) => s.sweep c) (if d.credits.isEmpty then s1 else s1.putFrames s.hostDie none d.credits)

/-- RING_HEAD_WRITE: the host has taken entries; a count larger than the ring is ignored. -/
def execRingHeadWrite (v : Nat) (ring : RingKind) (val : Word) (s : State) : Out :=
  let d := s.vd v
  let fits (tail : Word) (reg : DWord) (size : Nat) : Bool := decide ((tail - val).toNat ≤ ringSize reg / size)
  if v ≥ 64 then .next s
  else match ring with
    | .dirty => if fits d.dltail d.dlring 8 then .next ((s.modVd v fun d => { d with dlhead := val }).dirtyTaken v) else .next s
    | .usage => if fits d.ultail d.ulring 128 then .next ((s.modVd v fun d => { d with ulhead := val }).ulFlow v) else .next s
    | .pageReq =>
      if fits d.pqtail d.pqring 16 then .next ((s.modVd v fun d => { d with pqhead := val }).pqFlow v (d.reqs.length + 1)) else .next s
    | .trace => if fits d.trtail d.trring 32 then .next (s.modVd v fun d => { d with trhead := val }) else .next s

/-- IRQST_WRITE: write-one-to-clear of PIRQST, or of IRQST in a window. -/
def execIrqstWrite (win : Window) (val : Word) (s : State) : Out :=
  match win with
  | .pkg => .next { s with pirqst := s.pirqst &&& ~~~val }
  | .vd v => if v ≥ 64 then .next s else .next (s.modVd v fun d => { d with irqst := d.irqst &&& ~~~val })

/-! ## Collective channels and fabric groups (12 R338, R339) -/

/-- The bits of CHCFG and of FGHDR that are not reserved. DEDUCED (log 97). -/
def chcfgMask : DWord := 0x0000FFFF0000FF01
def fghdrMask : Word := 0x83FF07FF

def chGroup (w : DWord) : Nat := w.toNat / 256 % 256

/-- Whether a COLL is accepted on a channel. -/
def State.collAccepted (s : State) (v c : Nat) : Bool :=
  s.cores.any fun (_, k) => k.ops.any fun o => o.op == .coll && o.live && o.coll == c && (s.ctx o.ctx).vd == v

/-- CHCFG_WRITE: a channel is configured or unconfigured. DEDUCED (log 97). -/
def execChcfgWrite (v c : Nat) (val : DWord) (s : State) : Out :=
  let old := (s.coll v c).cfg
  let w := val &&& chcfgMask
  let put : State := { s with colls := alSet (64 * v + c) { cfg := w } s.colls }
  if v ≥ 64 || c ≥ 64 then .next s
  else if old.getLsbD 0 then
    if !w.getLsbD 0 && !s.collAccepted v c then .next put else .next s
  else if w.getLsbD 0 && ((s.vd v).st != .active || !(s.fgroup (chGroup w)).hdr.getLsbD 31
      || s.tagUsed (BitVec.ofNat 16 (w.toNat / 2 ^ 32))) then .next s
  else .next put

/-- FABRIC_GROUP_WRITE: the header at offset 0, the address of rank k at 2,048 + 2 k, while no
configured channel names the group. -/
def execFabricGroupWrite (g off : Nat) (val : Word) (s : State) : Out :=
  let x := s.fgroup g
  let put (x : FGroup) : State := { s with fgroups := alSet g x s.fgroups }
  if g ≥ 256 || s.colls.any (fun (_, k) => k.cfg.getLsbD 0 && chGroup k.cfg == g) then .next s
  else if off = 0 then .next (put { x with hdr := val &&& fghdrMask })
  else if 2048 ≤ off ∧ off < 4096 ∧ off % 2 = 0 then
    .next (put { x with ranks := alSet ((off - 2048) / 2) (val &&& 0x3FF) x.ranks })
  else .next s

end Sys2Proof.Machine
end

