-- ==== Sys2Proof/Machine/Move.lean ====
section
/-! DEFINITION. Moves, special registers, indexed registers and shapes (16 R407 to R410, 03 R95 to
R98, 14 R360, 17 R443, R449). -/

namespace Sys2Proof.Machine

/-- The shape a copy of an operand half takes (16 R407). -/
def keepShape (lo tag : Shape) : Shape := if lo = tag then lo else column lo.val

/-- MOV, .W with X (16 R407): the destination keeps the source's tag. Written by every active thread, from a channel
or a general latch, it holds 0 in the slots without an executing thread. DESIGN CHOICE (log 142). -/
def execMov (r : R2) (w : Bool) (s : State) : Out :=
  .next (s.laneOp { i := .mov r w, u := r.u, nw := r.nw, dst := .v r.d w, srcs := [(r.a, w)] }
    (fun _ vs t => { w := if w then (sv vs 0).dw t else ((sv vs 0).w t).setWidth 64 })
    fun _ vs =>
      let v := sv vs 0
      some (keepShape v.lo v.tag, keepShape v.hi v.tagHi))

/-! ## Special registers (03 R97) -/

/-- ACNT. -/
def Group.acnt (g : Group) : Word :=
  BitVec.ofNat 32 (g.cp.toNat + 2 ^ 8 * g.gt.toNat + 2 ^ 16 * g.mt.toNat + 2 ^ 24 * g.cl.toNat)

/-- The place of a slot in a pass. -/
def Pass.place (p : Pass) (t : Nat) : Nat := ((slotsOf p.ex).filter (· < t)).length

/-- The value of a special register for a slot. CLK is sampled at the thread's own cycle, two
cycles a thread (02 R57; log 12). -/
def State.srVal (s : State) (p : Pass) (u : Bool) (n t : Nat) : DWord :=
  let g := p.g
  let b := s.blockOf p.core g
  let x := s.ctx g.ctx
  let nat (v : Nat) : DWord := BitVec.ofNat 64 v
  match n with
  | 0x00 => nat t
  | 0x01 => nat (slotCount p.ex)
  | 0x02 => (g.th t).tix.setWidth 64
  | 0x03 => nat b.bix
  | 0x04 => nat b.nblk
  | 0x05 => nat p.gid
  | 0x06 => nat p.core
  | 0x07 => nat (clusOf p.core)
  | 0x08 => nat (dieOf p.core)
  | 0x09 => nat g.tile
  | 0x0A => g.fcr.setWidth 64
  | 0x0B => g.fsr.setWidth 64
  | 0x0C => g.seed.setWidth 64
  | 0x0D => (g.th t).ssadv.setWidth 64
  | 0x0E => g.acnt.setWidth 64
  | 0x0F => nat x.cls.toNat
  | 0x10 => nat x.part
  | 0x11 => nat x.vd
  | 0x12 => nat g.ctx
  | 0x13 => x.tdm.setWidth 64
  | 0x14 => g.fmask.setWidth 64
  | 0x15 => (g.fcode.getD t 0).setWidth 64
  | 0x16 => g.finfo.setWidth 64
  | 0x20 => g.fpc
  | 0x22 => g.faddr.getD t 0
  | 0x24 => g.trapv
  | 0x26 => x.cmapva
  | 0x28 => nat p.cl.cmv
  | 0x2A => nat x.ackv
  | 0x2C => nat (s.clk p.core + if u then 0 else 2 * p.place t)
  | 0x2E => match g.region with | some r => r.rgpc | none => 0
  | _ => 0

/-- The shape a special register reads with (03 R97). -/
def State.srForm (s : State) (p : Pass) (n : Nat) : Option (Shape × Shape) :=
  let v := s.srVal p false n (lowSlot p.ex)
  match n with
  | 0x00 => some (.affine 0 1, .uniform 0)
  | 0x02 =>
    let base : Word := v.setWidth 32 - BitVec.ofNat 32 (lowSlot p.ex)
    if p.g.placed && (slotsOf p.ex).all fun t => (p.g.th t).tix.setWidth 32 == base + BitVec.ofNat 32 t then
      some (.affine base 1, .uniform 0)
    else none
  | 0x0D | 0x15 | 0x22 | 0x2C => none
  | _ => some (.uniform (v.setWidth 32), .uniform (v.extractLsb' 32 32))

/-- MOVS (16 R408, R409). -/
def execMovs (u nw : Bool) (d : Dst) (sr : BitVec 7) (s : State) : Out :=
  .next (s.laneOp { i := .movs u nw d sr, u, nw, dst := .v d (sr64 sr.toNat) }
    (fun p _ t => { w := s.srVal p u sr.toNat t }) fun p _ => s.srForm p sr.toNat)

/-- The fault of a value written to a special register (02 R63, 03 R98). -/
def srwBad (n : Nat) (v : DWord) : Option (FCode × DWord) :=
  match n with
  | 0x09 => if [2, 4, 8, 16, 32].contains v.toNat then none else some (.illegalOperand, 0)
  | 0x24 => if v.toNat % 4 = 0 then none else some (.align, v)
  | _ => none

/-- Write a special register of a group (16 R409). -/
def Group.srWrite (g : Group) (n : Nat) (v : DWord) : Group :=
  let w : Word := v.setWidth 32
  match n with
  | 0x09 => { g with tile := v.toNat }
  | 0x0A => { g with fcr := w &&& fcrMask }
  | 0x0B => { g with fsr := w &&& fsrMask }
  | 0x0C => { g with seed := w, engIdx := 0, threads := g.threads.map fun t => { t with srCtr := 0 } }
  | 0x24 => { g with trapv := v }
  | _ => g

/-- MOVSW (16 R408, R409). -/
def execMovsw (sr : BitVec 7) (a : Src) (s : State) : Out :=
  .next (s.laneOp { i := .movsw sr a, u := true, srcs := [(a, sr64 sr.toNat)] }
    (fun _ vs t =>
      let v := if sr64 sr.toNat then (sv vs 0).dw t else ((sv vs 0).w t).setWidth 64
      { w := v, fault := srwBad sr.toNat v })
    (post := fun p rs s => match rs with
      | (_, r) :: _ => s.modGroup p.core p.gid fun g => g.srWrite sr.toNat r.w
      | [] => s))

/-! ## Indexed registers (16 R410, 03 R95) -/

def aregSrc : AReg → Src
  | .v n => .v n
  | .byp n => .byp n

/-- MOVX. DEDUCED (log 18). -/
def execMovx (u nw : Bool) (d : Dst) (a : AReg) (s : State) : Out :=
  .next (s.laneOp { i := .movx u nw d a, u, nw, dst := .v d false, srcs := [(aregSrc a, false)] }
    fun p vs t =>
      let i := ((sv vs 0).w t).toNat
      let r := p.g.reg i
      if i > 63 then .bad .illegalOperand
      else if u && !r.shape.isUni then .bad .uniformOperand
      else if (if u then r.ue != 0 else r.ue.getLsbD t) then .bad .memUe
      else .ofWord (r.shape.val t))

/-- MOVXW: the target is chosen per thread, or with U = 1 once. DEDUCED (log 18). -/
def execMovxw (u : Bool) (a : AReg) (b : Src) (s : State) : Out :=
  .next (s.laneOp
    { i := .movxw u a b, u, dst := .v .zero false, srcs := [(aregSrc a, false), (b, false)]
      lateAs := some fun p vs => .idx (if u then .uniform ((sv vs 0).w (lowSlot p.ex)) else (sv vs 0).lo)
      dynRegs := fun p vs ex => (if u then [lowSlot p.ex] else slotsOf ex).map fun t => ((sv vs 0).w t).toNat }
    (fun _ vs t => if ((sv vs 0).w t).toNat > 63 then .bad .illegalOperand else .ofWord ((sv vs 1).w t))
    (post := fun p rs s =>
      let ix := p.src (aregSrc a) false
      let at_ : List (Nat × TR) := if u then (rs.take 1).map fun (_, r) => (lowSlot p.ex, r) else rs
      at_.foldl (fun s (t, r) => s.modGroup p.core p.gid fun g =>
        let n := (ix.w t).toNat
        g.setReg n ((g.reg n).write u false (1#32 <<< t) none fun _ => r.w.setWidth 32)) s))

/-! ## Shapes -/

/-- AFF (14 R360). DEDUCED (log 8). -/
def execAff (nw : Bool) (d : Dst) (a b : Src) (s : State) : Out :=
  .next (s.laneOp { i := .aff nw d a b, nw, dst := .v d false, srcs := [(a, false), (b, false)], forceUni := true }
    (fun p vs t => .ofWord ((sv vs 0).w (lowSlot p.ex) + BitVec.ofNat 32 t * (sv vs 1).w (lowSlot p.ex)))
    fun p vs => some (.affine ((sv vs 0).w (lowSlot p.ex)) ((sv vs 1).w (lowSlot p.ex)), .uniform 0))

/-- The check of UNIF over every active thread (17 R449). DEDUCED (log 48). -/
def Group.unifCheck (g : Group) (n : Nat) (w : Bool) : Option FCode :=
  let r := g.reg n
  let h := g.reg (n + 1)
  let t0 := lowSlot g.active
  if (g.active &&& (r.ue ||| if w then h.ue else 0)) != 0 then some .memUe
  else if (slotsOf g.active).all fun i =>
      r.shape.val i == r.shape.val t0 && (!w || h.shape.val i == h.shape.val t0) then none
  else some .uniformCheck

/-- UNIF, .W with X (17 R449). DEDUCED (log 48). -/
def execUnif (d : BitVec 6) (w : Bool) (s : State) : Out :=
  .next (s.laneOp { i := .unif d w, dst := .v (.v d) w, all := true }
    (fun p _ t => { w := (p.g.srcReg d.toNat w).dw t, fault := (p.g.unifCheck d.toNat w).map fun f => (f, 0) })
    fun p _ =>
      let v := p.g.srcReg d.toNat w
      let t := lowSlot p.g.active
      some (.uniform (v.w t), .uniform (v.hi.val t)))

/-- SHTAG (17 R443). -/
def execShtag (nw : Bool) (d : Dst) (a : BitVec 6) (s : State) : Out :=
  .next (s.laneOp { i := .shtag nw d a, nw, dst := .v d false } fun p _ _ => .ofNat (p.g.reg a.toNat).shape.tag)

end Sys2Proof.Machine
end

