-- ==== Sys2Proof/Machine/Observe.lean ====
section
/-! DEFINITION. Class regulation and power (10 R290, R292; 13 R354 to R356), Fumarole (13 R343 to R346),
trace samples and the debugger's commands (13 R350 to R353). -/

namespace Sys2Proof.Machine

/-! ## Class regulation and power -/

/-- CLSREG_WRITE: GSHARE 50 to 85 and HSHARE 0 to 8, else ignored as a whole. -/
def execClsregWrite (die : Nat) (val : DWord) (s : State) : Out :=
  let g := val.toNat / 256 % 128
  let h := val.toNat % 16
  if 50 ≤ g ∧ g ≤ 85 ∧ h ≤ 8 then .next { s with clsreg := listMod s.clsreg die fun _ => val &&& 0x7F0F } else .next s

/-- PWRCAP_WRITE: a cap of 1,000 to 15,000 W. -/
def execPwrcapWrite (val : DWord) (s : State) : Out :=
  let cap := val.toNat % 65536
  if 1000 ≤ cap ∧ cap ≤ 15000 then .next { s with pwrcap := val &&& 0x8000FFFF } else .next s

/-- Bins between each die's BIN and FLOOR, the most that step 3 can move through (10 R292). -/
def State.binRoom (s : State) : Nat := (List.range 2).foldl (fun n d => max n (Config.builtFloor - s.cmap.bins.getD d 0)) 0

/-- The controller applies the next part of a step: the fraction of step 1 grows, and a step follows only when
the one before it is at its limit. DESIGN CHOICE (log 102). -/
def State.powerMore (s : State) (hfrac : BitVec 8) : State :=
  match s.pwrStep with
  | 0 => { s with pwrStep := 1, hfrac := if hfrac = 0 then 1 else hfrac }
  | 1 => if s.hfrac = 255 then { s with pwrStep := 2 } else { s with hfrac := if s.hfrac < hfrac then hfrac else s.hfrac + 1 }
  | 2 => { s with pwrStep := 3, pwrBin := min 1 s.binRoom }
  | _ => { s with pwrBin := min (s.pwrBin + 1) s.binRoom }

/-- The controller releases a part of the last step. DESIGN CHOICE (log 102). -/
def State.powerLess (s : State) (hfrac : BitVec 8) : State :=
  match s.pwrStep with
  | 0 => s
  | 1 =>
    let h := if hfrac ≤ s.hfrac then hfrac else s.hfrac
    { s with hfrac := h, pwrStep := if h = 0 then 0 else 1 }
  | 2 => { s with pwrStep := 1 }
  | _ => if s.pwrBin ≤ 1 then { s with pwrStep := 2, pwrBin := 0 } else { s with pwrBin := s.pwrBin - 1 }

/-- The mean of a list of measurements. -/
def meanOf (l : List Nat) : Nat := l.foldl (· + ·) 0 / l.length

/-- POWER_CAP_MEASURE: the measurement of every 100 µs; PWR is the mean of the last ten. One above the cap applies
a step; whether another releases one, and the fraction withheld from H clauses, come with the event.
DESIGN CHOICE (log 102). -/
def execPowerCapMeasure (power : Nat) (move : Bool) (hfrac : BitVec 8) (s : State) : Out :=
  if s.time < (s.pwrTicks + 1) * 100000 then .next s
  else
    let seen := (power :: s.pwrSeen).take 10
    let s1 := { s with pwrTicks := s.pwrTicks + 1, pwrSeen := seen, pwr := meanOf seen % 65536 }
    if s.pwrcap.getLsbD 31 && decide (s.pwrcap.toNat % 65536 < power) then .next (s1.powerMore hfrac)
    else .next (if move then s1.powerLess hfrac else s1)

/-- CURRENT_LIMIT_EXCEEDED: the limiter acts. DESIGN CHOICE (log 102). -/
def execCurrentLimitExceeded (s : State) : Out := .next { s with ilim := true }

/-- CURRENT_BELOW_LIMIT: the withheld fraction shrinks; at its end ILIM clears. DESIGN CHOICE (log 103). -/
def execCurrentBelowLimit (clear : Bool) (s : State) : Out := .next (if clear then { s with ilim := false } else s)

/-- DROOP_DETECTED: the core's clock is stretched. DESIGN CHOICE (log 103). -/
def execDroopDetected (core : Nat) (s : State) : Out :=
  if !s.liveCore core then .next s
  else .next ((s.modCore core fun k => { k with stretched := true }).countDie (dieOf core) 0x111 1 none)

/-- DROOP_RECOVERED: the clock's period returns to nominal. DESIGN CHOICE (log 103). -/
def execDroopRecovered (core : Nat) (s : State) : Out :=
  if !s.liveCore core then .next s else .next (s.modCore core fun k => { k with stretched := false })

/-! ## Fumarole (13 R343 to R346) -/

def fumEn (w : DWord) : Bool := w.getLsbD 0
def fumK (w : DWord) : Nat := w.toNat / 32 % 32
def fumSize (w : DWord) : Nat := 2 ^ (w.toNat / 2 % 16 + 20)
def fumBase (w : DWord) : Nat := w.toNat / 4096 % 2 ^ 40 * 4096

/-- The bits of FUMCTL that are not reserved. -/
def fumMask : DWord := 0xFFFFFFFFFF3FF

/-- FUMCTL_WRITE: ignored as a whole when it changes a field under EN or sets K outside 10 to 24. -/
def execFumctlWrite (val : DWord) (s : State) : Out :=
  let w := val &&& fumMask
  if fumK w < 10 ∨ 24 < fumK w then .next s
  else if fumEn s.fumctl && (w ||| 1) != (s.fumctl ||| 1) then .next s
  else if fumEn w && !fumEn s.fumctl then
    .next { s with fumctl := w, fumtail := 0, fumhead := 0, fumtick := 0, fumfrom := s.time }
  else .next { s with fumctl := w }

/-- FUMHEAD_WRITE: ignored beyond FUMTAIL. DEDUCED (log 114). -/
def execFumheadWrite (val : DWord) (s : State) : Out :=
  if (s.fumtail - val).toNat < 2 ^ 63 then .next { s with fumhead := val } else .next s

/-- The instant of the next tick. -/
def State.tickAt (s : State) : Nat := s.fumfrom + (s.fumtick + 1) * 2 ^ (fumK s.fumctl - 1)

/-- The live logical cores in order. -/
def State.liveCores (s : State) : List Nat := (List.range 384).filter s.liveCore

/-- The record of tick `n` at time `t`: the counters as they stand at that instant, which no time passes
(13 R344; log 12). -/
def State.fumRecord (s : State) (n t : Nat) : List Byte :=
  let cs := s.liveCores
  let live (d : Nat) : Bool := !s.dieLost d
  let die (d : Nat) : List Byte := (List.range 32).flatMap fun i =>
    leBytes 8 (if live d then ((s.dieCtr.getD d []).getD i {}).cnt.toNat else 0)
  let core (c : Nat) : List Byte := leBytes 2 c ++ leBytes 6 0 ++ (List.range 16).flatMap fun i =>
    leBytes 8 ((s.core c).evctr.getD i {}).cnt.toNat
  leBytes 8 n ++ leBytes 8 t ++ leBytes 8 s.cmap.cmv ++ leBytes 4 (576 + 136 * cs.length) ++ leBytes 2 cs.length
    ++ leBytes 2 ((live 0).toNat + 2 * (live 1).toNat) ++ leBytes 32 0 ++ die 0 ++ die 1 ++ cs.flatMap core

/-- Bytes written around the ring from an offset. -/
def State.fumPut (s : State) (off : Nat) (bs : List Byte) : State :=
  let size := fumSize s.fumctl
  let o := off % size
  (s.hostPut (fumBase s.fumctl + o) (bs.take (size - o))).hostPut (fumBase s.fumctl) (bs.drop (size - o))

/-- FUMAROLE_TICK: the counters are latched; the record is written, or dropped whole when it does not
fit or the one before it is still being written. -/
def execFumaroleTick (busy : Bool) (s : State) : Out :=
  let n := s.fumtick + 1
  let t := s.tickAt
  if !fumEn s.fumctl || s.time < t then .next s
  else
    let len := 576 + 136 * s.liveCores.length
    let s1 := { s with fumtick := n }
    if busy || decide (fumSize s.fumctl < (s.fumtail - s.fumhead).toNat + len) then .next { s1 with fumdrop := s.fumdrop + 1 }
    else
      let s2 := s1.fumPut s.fumtail.toNat (s.fumRecord n t)
      .next { s2 with fumtail := s.fumtail + BitVec.ofNat 64 len }

/-! ## Trace samples (13 R353) -/

/-- The group of the lowest-numbered lane that runs a pass. DESIGN CHOICE (log 101). -/
def Core.lowestLane (k : Core) : Option Nat :=
  k.lanes.findSome? fun | .busy g _ => some g | _ => none

/-- The period of a virtual device's samples in CCLK cycles, when it takes any. -/
def VDev.samplePeriod (d : VDev) : Option Nat :=
  let n := d.trsamp.toNat % 32
  if d.trsamp.toNat / 32 % 2 = 1 ∧ 8 ≤ n ∧ n ≤ 20 then some (2 ^ n) else none

/-- TRACE_SAMPLE: in a cycle of the period, once, the lowest-numbered lane's thread, if it is of the debugged
context. DESIGN CHOICE (log 101). -/
def execTraceSample (core : Nat) (s : State) : Out :=
  match (s.core core).lowestLane with
  | none => .next s
  | some gid =>
    match s.group? core gid with
    | none => .next s
    | some g =>
      match (s.ctx g.ctx).dbgVd, g.clause with
      | some v, some cl =>
        let ts := slotsOf (g.atPc cl.pc)
        match (s.vd v).samplePeriod with
        | some n =>
          if s.clk core % n = 0 ∧ (s.core core).sampled ≠ some (s.clk core) ∧ ts ≠ [] then
            let s1 := { s with free := s.free + 1 }.modCore core fun k => { k with sampled := some (s.clk core) }
            .next (s1.trace core gid (ts.getD (Config.freeIdx s.free ts.length) 0) 3 0)
          else .next s
        | none => .next s
      | _, _ => .next s

/-! ## The debugger's commands (13 R350, R351) -/

/-- Fields of DBGCMD. -/
def dbgCore (w : DWord) : Nat := w.toNat / 2 ^ 39 % 512
def dbgGid (w : DWord) : Nat := w.toNat / 2 ^ 32 % 128
def dbgSlot (w : DWord) : Nat := w.toNat / 2 ^ 27 % 32
def dbgItem (w : DWord) : Nat := w.toNat / 2 ^ 12 % 256

/-- A command has ended: its fields, its OP and its RESULT stand.
DESIGN CHOICE (log 34). DEDUCED (log 99). -/
def State.dbgEnd (s : State) (v : Nat) (cmd : DWord) (op result : Nat) : State :=
  let w := (cmd &&& 0x0000FFFFF80FF000) ||| BitVec.ofNat 64 (op + result * 2 ^ 48)
  s.modVd v fun d => { d with dbgcmd := w }

def State.dbgTarget (s : State) (v : Nat) : Nat := (s.vd v).dbgctx.toNat % 4096

/-- Whether the virtual device holds the right over its DBGCTX. -/
def State.dbgRight (s : State) (v : Nat) : Bool := (s.ctx (s.dbgTarget v)).dbgVd == some v

/-- The thread a command names, or the result that stops it; `halt` when it must be halted. -/
def State.dbgThread (s : State) (v : Nat) (cmd : DWord) (halt : Bool) : Except Nat Group :=
  if !s.dbgRight v then .error 1
  else match s.group? (dbgCore cmd) (dbgGid cmd) with
    | none => .error 2
    | some g =>
      let t := g.th (dbgSlot cmd)
      if g.ctx ≠ s.dbgTarget v || t.st != .active then .error 2
      else if g.residency != .resident then .error 4
      else if halt && !t.halted then .error 3
      else .ok g

/-- A command on a thread. -/
def State.dbgOn (s : State) (v : Nat) (cmd : DWord) (op : Nat) (halt : Bool) (k : Group → Except Nat State) : State :=
  if v ≥ 64 then s
  else match s.dbgThread v cmd halt with
    | .error r => s.dbgEnd v cmd op r
    | .ok g => match k g with
      | .error r => s.dbgEnd v cmd op r
      | .ok s1 => s1.dbgEnd v cmd op 0

/-- Change the thread that a command names. -/
def State.dbgMod (s : State) (cmd : DWord) (f : Thread → Thread) : State :=
  s.modGroup (dbgCore cmd) (dbgGid cmd) fun g => g.modTh (dbgSlot cmd) f

/-- Whether a thread is being moved by a JOIN or LEAVE. -/
def Group.moving (g : Group) (slot : Nat) : Bool :=
  match g.wait with
  | .joining _ m _ _ _ _ => m.getLsbD slot
  | _ => false

/-- DBG_HALT: the thread is halted before its next instruction; one that is being moved, after its move
(02 R55). -/
def execDbgHalt (v : Nat) (cmd : DWord) (s : State) : Out :=
  .next (s.dbgOn v cmd 1 false fun g =>
    .ok (if g.moving (dbgSlot cmd) then s.dbgMod cmd fun t => { t with haltDue := true }
      else (s.dbgMod cmd fun t => { t with halted := true, stepping := false, starve := 0 }).trace (dbgCore cmd) (dbgGid cmd) (dbgSlot cmd) 5 0))

/-- The thread goes on past a breakpoint at its PC, and its group's NAP ends (16 R415).
DEDUCED (log 100). -/
def State.dbgRelease (s : State) (cmd : DWord) (stepping : Bool) : State :=
  (s.dbgMod cmd fun t => { t with halted := false, haltDue := false, noFire := true, stepping }).modGroup (dbgCore cmd) (dbgGid cmd) fun g => g.wakeNap false

/-- DBG_RUN. -/
def execDbgRun (v : Nat) (cmd : DWord) (s : State) : Out :=
  .next (s.dbgOn v cmd 2 false fun _ => .ok (s.dbgRelease cmd false))

/-- DBG_STEP: as RUN, for one instruction. -/
def execDbgStep (v : Nat) (cmd : DWord) (s : State) : Out :=
  .next (s.dbgOn v cmd 3 false fun _ => .ok (s.dbgRelease cmd true))

/-- The value of an item of a thread. DEDUCED (log 98). -/
def Group.item (g : Group) (slot item : Nat) (data : DWord) : Option DWord :=
  let t := g.th slot
  if item < 64 then some (((g.reg item).shape.val slot).setWidth 64)
  else if item < 0x47 then some (BitVec.ofNat 64 ((g.pred (item - 64)).bits.getLsbD slot).toNat)
  else match item with
    | 0x80 => some t.pc
    | 0x81 => some t.meet
    | 0x82 => some (t.nest.setWidth 64)
    | 0x83 =>
      let n := data.toNat / 2 ^ 12 % 256
      if n < 64 then some (BitVec.ofNat 64 (g.reg n).shape.tag) else none
    | _ => none

/-- DBG_RDREG: DBGDATA takes the item. DEDUCED (log 98). -/
def execDbgRdreg (v : Nat) (cmd : DWord) (s : State) : Out :=
  .next (s.dbgOn v cmd 4 true fun g =>
    match g.item (dbgSlot cmd) (dbgItem cmd) (s.vd v).dbgdata with
    | some w => .ok (s.modVd v fun d => { d with dbgdata := w })
    | none => .error 6)

/-- Whether an edit is refused. DEDUCED (log 98). -/
def editBad (item : Nat) (val : DWord) : Bool :=
  !(decide (item < 0x47) || item == 0x80 && val.toNat % 4 == 0 || item == 0x81 || item == 0x82 && decide (val.toNat % 2 ^ 32 ≤ 255))

/-- An edit is made at the group's next clause boundary: at once when no clause runs. -/
def Group.addEdit (g : Group) (e : Nat × Nat × DWord) : Group :=
  let g1 := { g with debugEdits := g.debugEdits ++ [e] }
  if g.clause.isNone then g1.applyEdits else g1

/-- DEBUG_EDITED, with a DEBUG record of the first edit under a right. -/
def State.markEdited (s : State) (c v : Nat) : State :=
  let s1 := if (s.ctx c).editLogged then s else s.ulDebug c 2 v
  s1.modCtx c fun x => { x with edited := true, editLogged := true }

/-- DBG_WRREG: the item takes DBGDATA at the group's next clause boundary. DEDUCED (log 98). -/
def execDbgWrreg (v : Nat) (cmd : DWord) (s : State) : Out :=
  .next (s.dbgOn v cmd 5 true fun _ =>
    let val := (s.vd v).dbgdata
    if editBad (dbgItem cmd) val then .error 6
    else .ok ((s.modGroup (dbgCore cmd) (dbgGid cmd) fun g => g.addEdit (dbgSlot cmd, dbgItem cmd, val)).markEdited (s.dbgTarget v) v))

/-- A breakpoint is set or cleared. -/
def State.dbgBp (s : State) (v : Nat) (cmd : DWord) (op : Nat) (bp : Option DWord) : State :=
  let i := dbgItem cmd
  if v ≥ 64 then s
  else if !s.dbgRight v then s.dbgEnd v cmd op 1
  else if 8 ≤ i || (match bp with | some a => a.toNat % 4 != 0 | none => false) then s.dbgEnd v cmd op 6
  else (s.modVd v fun d => { d with bps := listMod d.bps i fun _ => bp }).dbgEnd v cmd op 0

/-- DBG_BPSET: breakpoint ITEM is the PC in DBGDATA. -/
def execDbgBpset (v : Nat) (cmd : DWord) (s : State) : Out := .next (s.dbgBp v cmd 6 (some (s.vd v).dbgdata))

/-- DBG_BPCLR: breakpoint ITEM is cleared. -/
def execDbgBpclr (v : Nat) (cmd : DWord) (s : State) : Out := .next (s.dbgBp v cmd 7 none)

/-- DBGCMD_BADOP: an unlisted OP reports BADOP; OP 0 starts nothing. DEDUCED (log 99). -/
def execDbgcmdBadop (v : Nat) (cmd : DWord) (s : State) : Out :=
  let op := cmd.toNat % 16
  if v ≥ 64 then .next s
  else if 8 ≤ op then .next (s.dbgEnd v cmd op 5)
  else if op = 0 then .next (s.dbgEnd v cmd 0 ((s.vd v).dbgcmd.toNat / 2 ^ 48 % 256))
  else .next s

end Sys2Proof.Machine
end

