-- ==== Sys2Proof/Machine/Service.lean ====
section
/-! DEFINITION. Boot, the loss and the return of a die, the loss of a stack, live service (01 R10 to
R16, R34 to R45; 12 R335). -/

namespace Sys2Proof.Machine

/-! ## Bytes that a loss leaves open -/

/-- Host-memory lines that the lost die's L2 held dirty: the bytes of one that it still held are free; one
that it had evicted before stands as written (12 R335, 06 R190; log 4). DESIGN CHOICE (log 107). -/
def State.loseHostLines (s : State) : State :=
  let ls := s.l2lines.filter fun x => x.host && x.dirty
  let s1 := ls.foldl (fun s x =>
    if Config.freeBit s.free then
      { s.hostSet (128 * x.line) ((List.range 128).map fun i => (s.peek (i + 1)).setWidth 8) with free := s.free + 129 }
    else { s with free := s.free + 1 }) s
  { s1 with l2lines := s1.l2lines.filter fun x => !x.host }

/-- The die that a device-memory address is homed on. -/
def State.homedOn (s : State) (d a : Nat) : Bool :=
  match s.regionAt a with
  | some r => (r.locate a).1 / 8 == d
  | none => false

/-- The device memory of a die that comes back holds free bytes (log 4), what no region maps among it.
DESIGN CHOICE (log 107). -/
def State.freeMemory (s : State) (d : Nat) : State :=
  { s with
    oldLines := s.oldLines.map fun o => if o.stack / 8 = d then
      { o with bytes := (List.range 128).map fun i => (Config.freeWord (s.free + 2 ^ 40 + 2 ^ 37 * o.stack + 128 * o.loc + i)).setWidth 8 } else o
    dmem := s.written.foldl (fun m l => if s.homedOn d (128 * l) then
      (List.range 128).foldl (fun m i => cellSet m (128 * l + i) ((Config.freeWord (s.free + 128 * l + i)).setWidth 8)) m else m) s.dmem
    free := s.free + 2 ^ 42 }

/-- Whether what an operation works on is lost. -/
def State.lsGone (s : State) : LsKind → Bool
  | .remap core _ => s.dieLost (dieOf core)
  | .recal q => s.dieLost (q / 64)
  | .chspare k _ => s.dieLost (k / 8) || s.stackLost k
  | .fwload c _ | .fwswitch c => (c == 2 && s.dieLost 0) || (c == 3 && s.dieLost 1)
  | .rebin d _ => s.dieLost d

/-- Running operations whose die or stack is lost now will be abandoned, even if it returns before they end
(01 R43). -/
def State.markGone (s : State) : State := { s with lsops := s.lsops.map fun o => { o with gone := o.gone || s.lsGone o.kind } }

/-! ## The loss of a die (01 R35, 12 R335) -/

/-- What the cores of a die and its own units held is gone. -/
def State.clearDie (s : State) (d : Nat) : State :=
  { s with
    cores := s.cores.map fun (c, k) => if dieOf c = d then (c, { k with l1 := [], tlb := [], stores := [], ops := [] }) else (c, k)
    l2tlb := s.l2tlb.filter fun (cl, _) => cl / 48 != d
    walkCache := s.walkCache.filter fun (x, _, _) => x != d
    walks := s.walks.filter fun w => w.die != d
    claims := s.claims.filter fun cl => !(cl.cores.any fun c => dieOf c == d)
    l2lines := s.l2lines.filter fun x => x.host || !s.homedOn d (128 * x.line) }

/-- Whether a running region flush covers a stack of a die. -/
def State.flushHits (s : State) (p : Nat → Bool) : Bool :=
  s.rflushBusy && (stacksOf (s.region (s.rflush.toNat % 64)).stkset).any p

/-- The loss point of a die: every context that touched it traps DIE_LOST. DEDUCED (log 104). -/
def State.loseDie (s : State) (d : Nat) : State :=
  let host := s.hostDie == d
  let s1 := { s with
    cmap := { s.cmap with dies := listMod s.cmap.dies d fun x => { x with lost := true, tested := false } }
    linkReady := false
    rflushLost := s.rflushLost || s.flushHits fun k => k / 8 == d }
  let s2 := s1.ctxs.foldl (fun s (c, x) => if x.tdm.getLsbD d then s.loseCtx c else s) s1
  let s3 := s2.clearDie d
  (if host then s3.loseHostLines else s3).markGone

/-- DIE_LOSS: the surviving die detects the loss. -/
def execDieLoss (die : Nat) (s : State) : Out :=
  if die ≥ 2 || s.dieLost die then .next s else .next (s.loseDie die)

/-- DIE_LOSS_PUBLISH: the loss is one map version (01 R36), and package cause 5 is sent.
DEDUCED (log 105). -/
def execDieLossPublish (die : Nat) (s : State) : Out :=
  if die ≥ 2 || !s.dieLost die || (s.die die).st == 2 then .next s
  else
    .next ((s.publish fun n m => { m with
      dies := listMod (m.dies.map fun x => { x with d2dbw := 0 }) die fun x => { x with st := 2, lostv := n }
      stackRecs := m.stackRecs.mapIdx fun k x => if k / 8 = die && x.st != 2 then { x with st := 2, lostv := n } else x
      linkLanes := 16 }).pirq 5)

/-- HOST_LINK_RETRAIN: the surviving lanes serve; outstanding page requests are sent again under their
own numbers. In the management-only state the link goes on reporting the failure (01 R45). -/
def execHostLinkRetrain (s : State) : Out :=
  if s.linkReady || s.mgmtOnly then .next s
  else
    let s1 := { s with linkReady := true }
    .next (s1.vdevs.foldl (fun s (v, d) =>
      if d.reqs.isEmpty then s
      else (s.modVd v fun d => { d with reqs := d.reqs.map fun r => { r with written := false } }).pqFlow v (d.reqs.length + 1)) s1)

/-- STACK_LOSS: a stack is published lost (01 R38). -/
def execStackLoss (stack : Nat) (s : State) : Out :=
  if stack ≥ 16 || s.stackLost stack then .next s
  else
    let s1 := { s with rflushLost := s.rflushLost || s.flushHits (· == stack) }
    .next (s1.publish fun n m => { m with stackRecs := listMod m.stackRecs stack fun x => { x with st := 2, lostv := n } }).markGone

/-! ## Die reset and return (01 R14, R15, R36, R40) -/

/-- A core record after self-test: a retired core's position is tested again, a position that a remap
left stays failed. DEDUCED (log 108, 109). -/
def CoreRec.tested (r : CoreRec) (mapv : Word) (banks : List Nat) : CoreRec :=
  { r with mapv, banks, failed := (r.failed && r.lcore.isNone) || banks.any (· < 24) }

/-- Live banks of each quadrant of a position, by the persistent faults its banks have (01 R14). -/
def State.banksNow (s : State) (d p : Nat) : List Nat :=
  (List.range 4).map fun q => Config.builtBanks - (s.badBanks.filter fun (k, b) => k == 4 * (200 * d + p) + q && decide (b < 32)).length

/-- The banks that self-test of a die leaves live, for the positions that have lost some. -/
def State.testDie (s : State) (d : Nat) : State :=
  let found := (List.range 200).filterMap fun p =>
    if s.badBanks.any fun (k, _) => k / 4 == 200 * d + p then some (200 * d + p, s.banksNow d p) else none
  { s with selfTest := s.selfTest.filter (fun (k, _) => k / 200 != d) ++ found }

/-- A spare of a failed position's column serves its logical core, the lowest free one (01 R11, R15).
DESIGN CHOICE (log 129). -/
def assignSpare (rs : List CoreRec) (p : Nat) : List CoreRec :=
  match (rs.getD p ⟨0, [], none, true, false⟩) with
  | ⟨_, _, some l, true, _⟩ =>
    match ((List.range 25).map (p / 25 * 25 + ·)).find? fun q => (rs.getD q ⟨0, [], none, true, false⟩).spare with
    | some q => listMod (listMod rs p fun r => { r with lcore := none, remap := false }) q fun r => { r with lcore := some l, remap := true }
    | none => rs
  | _ => rs

/-- The core records of a die after its self-test: banks are mapped out, positions with fewer than 24
live banks in a quadrant fail, and spares are assigned (01 R14, R15, R36, R45). -/
def State.bootRecs (s : State) (d : Nat) (mapv : Word) : List CoreRec :=
  let rs := (List.range 200).map fun p =>
    ((alGet (200 * d + p) s.cmap.cores).getD ⟨mapv, [], Config.builtLogical p, false, false⟩).tested mapv
      ((alGet (200 * d + p) s.selfTest).getD (List.replicate 4 Config.builtBanks))
  (List.range 200).foldl assignSpare rs

/-- The record list with a die's records as self-test leaves them. -/
def State.withBootRecs (s : State) (d : Nat) (mapv : Word) (cs : List (Nat × CoreRec)) : List (Nat × CoreRec) :=
  (s.bootRecs d mapv).zipIdx.foldl (fun l (r, p) =>
    if r = ⟨mapv, List.replicate 4 Config.builtBanks, Config.builtLogical p, false, false⟩ then alDel (200 * d + p) l
    else alSet (200 * d + p) r l) cs

/-- DIE_RESET: self-test of a die; for the rest of the package it is the die's loss point. Its
registers and counters take their reset values. DEDUCED (log 104, 109). -/
def execDieReset (die : Nat) (s : State) : Out :=
  if die ≥ 2 then .next s
  else
    let s1 := (if s.dieLost die then s else s.loseDie die).testDie die
    .next { s1 with
      cmap := { s1.cmap with dies := listMod s1.cmap.dies die fun x => { x with tested := true } }
      cores := s1.cores.filter fun (c, _) => dieOf c != die
      dieClk := listMod s1.dieClk die fun _ => 0
      dieCtr := listMod s1.dieCtr die fun _ => List.replicate 32 {}
      l2ways := listMod s1.l2ways die fun _ => 0x000F
      clsreg := listMod s1.clsreg die fun _ => 0x5502
      faballow := s1.faballow.filter fun (q, _) => q / 64 != die }

/-- DIE_RETURN: a die whose loss has been published, and which a reset has tested since, is published
LIVE again with the results of its self-test (01 R36). DEDUCED (log 105). DESIGN CHOICE (log 106). -/
def execDieReturn (die : Nat) (s : State) : Out :=
  if die ≥ 2 || (s.die die).st != 2 || !(s.die die).tested then .next s
  else
    let bw := if s.dieLost (1 - die) then 0 else 24000
    .next (((s.freeMemory die).publish fun n m => { m with
      dies := listMod (m.dies.map fun x => { x with d2dbw := bw }) die fun x => { x with st := 1, lost := false, tested := false, baseV := n }
      cores := s.withBootRecs die (BitVec.ofNat 32 n) m.cores
      stackRecs := m.stackRecs.mapIdx fun k x => if k / 8 = die then { x with st := 1 } else x
      ports := m.ports.filter fun (q, _) => q / 64 != die }).pirq 5)

/-- The slots of a firmware component after their verification at boot: an image that fails is discarded,
and the other slot serves when the active one fails (01 R41, R45). DESIGN CHOICE (log 119). -/
def FwRec.booted (r : FwRec) (n comp : Nat) : FwRec :=
  let ok := Config.slotVerified n comp r.slot
  let alt := r.veralt != 0 && Config.slotVerified n comp !r.slot
  if ok then (if alt then r else { r with veralt := 0 })
  else if alt then { slot := !r.slot, ver := r.veralt, veralt := 0 }
  else r

/-- Whether some slot of a component verifies at boot. -/
def FwRec.boots (r : FwRec) (n comp : Nat) : Bool :=
  Config.slotVerified n comp r.slot || (r.veralt != 0 && Config.slotVerified n comp !r.slot)

/-- PACKAGE_RESET: boot (01 R45). The firmware slots and the configuration blob are verified, both dies
are tested, banks are mapped out and spares assigned; bins, spare assignments, channel spares and
firmware slots are carried; memory is not touched, but its keys are gone. DEDUCED (log 108). -/
def execPackageReset (s : State) : Out :=
  let n := s.bootCount + 1
  let t := (s.testDie 0).testDie 1
  let old := (s.regions.filter fun (_, r) => r.valid).foldl (fun s (_, r) => s.archive r) s
  let ok := Config.blobVerified n && (s.cmap.fw.zipIdx.all fun (r, c) => r.boots n c)
  .next { State.reset with
    agenda := s.agenda, free := s.free, nextId := s.nextId
    dmem := s.dmem, hmem := s.hmem, memUe := s.memUe, written := old.written, oldLines := old.oldLines
    badBanks := s.badBanks, selfTest := t.selfTest
    cmap := { bins := s.cmap.bins, fw := s.cmap.fw.mapIdx fun c r => r.booted n c
              cores := t.withBootRecs 1 1 (t.withBootRecs 0 1 t.cmap.cores)
              stackRecs := s.cmap.stackRecs.map fun x => { chspr := x.chspr } }
    bootCount := n, mgmtOnly := !ok, linkReady := ok }

/-! ## Live-service commands (01 R39 to R44) -/

/-- BUSY of LSCMD. -/
def State.lsBusy (s : State) : Bool := s.lscmd.getLsbD 63

/-- A command runs; its RESULT reads 0 until it ends (01 R43). DESIGN CHOICE (log 131). -/
def State.lsRun (s : State) (op : Nat) (kind : LsKind) : State :=
  let (id, s1) := s.fresh
  { s1 with lscmd := BitVec.ofNat 64 (packBits [(0, op), (63, 1)]), lsops := s1.lsops ++ [{ id, kind, cmd := true }] }

/-- A command ends with a result, which raises package cause 4. -/
def State.lsEnd (s : State) (op result : Nat) : State :=
  { s with lscmd := BitVec.ofNat 64 (packBits [(0, op), (16, result)]) }.pirq 4

/-- A command that is written: ignored while one runs; it ends at once or runs. DEDUCED (log 112). -/
def State.lsCmd (s : State) (op : Nat) (r : Nat ⊕ LsKind) (k : State → State) : State :=
  if s.lsBusy then s
  else match r with
    | .inl e => s.lsEnd op e
    | .inr kind => k (s.lsRun op kind)

def State.lsHas (s : State) (p : LsKind → Bool) : Bool := s.lsops.any fun o => p o.kind

def onPort (q : Nat) : LsKind → Bool
  | .recal p => p == q
  | _ => false

def onStack (k : Nat) : LsKind → Bool
  | .chspare x _ => x == k
  | _ => false

def onComp (c : Nat) : LsKind → Bool
  | .fwload x _ => x == c
  | .fwswitch x => x == c
  | _ => false

/-- A free spare in the column of a core's position (01 R11). -/
def State.spareFor (s : State) (core : Nat) : Option Nat :=
  match s.posOf core with
  | none => none
  | some p =>
    let d := dieOf core
    ((List.range 25).map (p / 25 * 25 + ·)).find? fun q =>
      (s.coreRec d q).spare && !s.lsHas fun | .remap c x => dieOf c == d && x == q | _ => false

/-- The H groups of a core that is to be remapped are evicted (01 R39). DEDUCED (log 110). -/
def State.remapEvict (s : State) (core : Nat) : State :=
  ((s.core core).groups.filter fun (_, g) => (s.ctx g.ctx).cls).foldl (fun s (gid, g) => match g.residency with
    | .resident => s.beginEvict core gid none
    | .restoring len => s.setGroup core gid { g with residency := .evicted len }
    | _ => s) s

/-- LS_REMAP: LSCMD REMAP of the core in LSARG. DEDUCED (log 112). -/
def execLsRemap (s : State) : Out :=
  let a := s.lsarg.toNat
  .next (s.lsCmd 1
    (if 512 ≤ a || !s.liveCore a then .inl 3
     else if s.remapping a then .inl 1
     else match s.spareFor a with
       | none => .inl 2
       | some p => .inr (.remap a p))
    fun s => s.remapEvict a)

/-- LS_RECAL: LSCMD RECAL of the port in LSARG. -/
def execLsRecal (s : State) : Out :=
  let a := s.lsarg.toNat
  .next (s.lsCmd 2
    (if 128 ≤ a || (s.port a).st == 0 then .inl 3
     else if s.lsHas (onPort a) then .inl 1
     else .inr (.recal a)) id)

/-- LS_CHSPARE: LSCMD CHSPARE of the stack and channel in LSARG. DEDUCED (log 112). -/
def execLsChspare (s : State) : Out :=
  let a := s.lsarg.toNat
  let k := a % 16
  .next (s.lsCmd 3
    (if a / 2 ^ 13 ≠ 0 || a / 16 % 16 ≠ 0 || s.stackLost k then .inl 3
     else if s.lsHas (onStack k) then .inl 1
     else if 2 ≤ (s.cmap.stackRecs.getD k {}).chspr then .inl 2
     else .inr (.chspare k (a / 256))) id)

/-- The header of a firmware image breaks the table of R43. DEDUCED (log 112). -/
def imageBad (h : List Byte) : Bool :=
  let len := fieldAt h 16 8
  fieldAt h 0 8 != 0x33474D495746485A || decide (5 < fieldAt h 8 1) || fieldAt h 9 3 != 0 || fieldAt h 12 4 == 0
    || len == 0 || len % 64 != 0 || decide (2 ^ 26 < len) || !pz h 24 40

/-- LS_FWLOAD: LSCMD FWLOAD of the image at LSARG, which is read and verified. DEDUCED (log 112). -/
def execLsFwload (s : State) : Out :=
  let a := s.lsarg.toNat
  let h := s.homeBytes ⟨false, a⟩ 64
  let n := 64 + fieldAt h 16 8 + 7856
  .next (s.lsCmd 4
    (if a % 4096 ≠ 0 then .inl 3
     else if !s.dpaOk a 64 then .inl 7
     else if imageBad h then .inl 3
     else if !s.dpaOk a n then .inl 7
     else if s.lsHas (onComp (fieldAt h 8 1)) then .inl 1
     else if !Config.verifyImage (s.homeBytes ⟨false, a⟩ n) then .inl 4
     else .inr (.fwload (fieldAt h 8 1) (BitVec.ofNat 32 (fieldAt h 12 4)))) id)

/-- LS_FWSWITCH: LSCMD FWSWITCH of the component in LSARG. -/
def execLsFwswitch (s : State) : Out :=
  let a := s.lsarg.toNat
  .next (s.lsCmd 5
    (if 5 < a || (s.cmap.fw.getD a {}).veralt == 0 then .inl 3
     else if s.lsHas (onComp a) then .inl 1
     else .inr (.fwswitch a)) id)

/-- LS_REBIN: LSCMD REBIN of the die and bin in LSARG. -/
def execLsRebin (s : State) : Out :=
  let a := s.lsarg.toNat
  .next (s.lsCmd 6
    (if a / 2 ^ 17 ≠ 0 || a / 256 % 256 ≠ 0 || Config.builtFloor < a % 256 then .inl 3
     else .inr (.rebin (a / 65536) (a % 256))) id)

/-- LSCMD_BADOP: OP 7 to 15 ends BADOP; OP 0 starts nothing. -/
def execLscmdBadop (op : BitVec 4) (s : State) : Out :=
  if s.lsBusy then .next s
  else if 7 ≤ op.toNat then .next (s.lsEnd op.toNat 6)
  else if op = 0 then .next { s with lscmd := s.lscmd &&& ~~~(15 : DWord) }
  else .next s

/-! ## Operations that firmware starts (01 R40, R43) -/

/-- Firmware starts an operation. -/
def State.fwRun (s : State) (kind : LsKind) : State :=
  let (id, s1) := s.fresh
  { s1 with lsops := s1.lsops ++ [{ id, kind, cmd := false }] }

/-- A core without a spare is retired: one map version (01 R40). Blocks that it still holds run on.
DESIGN CHOICE (log 145). -/
def State.retireCore (s : State) (core p : Nat) : State :=
  let d := dieOf core
  (s.publish fun n m => m.setCoreRec d p { s.coreRec d p with mapv := BitVec.ofNat 32 n, failed := true, remap := false }).pirq 4

/-- FW_LIVE_SERVICE_START: firmware's monitors find a failing core, lane or channel. -/
def execFwLiveServiceStart (op : FwOp) (s : State) : Out :=
  match op with
  | .remap core =>
    if s.remapping core then .next s
    else match s.posOf core, s.spareFor core with
      | none, _ => .next s
      | some _, some q => .next ((s.fwRun (.remap core q)).remapEvict core)
      | some p, none => .next (s.retireCore core p)
  | .recal q => if 128 ≤ q || (s.port q).st == 0 || s.lsHas (onPort q) then .next s else .next (s.fwRun (.recal q))
  | .chspare k ch =>
    if 16 ≤ k || 32 ≤ ch || s.stackLost k || s.lsHas (onStack k) || 2 ≤ (s.cmap.stackRecs.getD k {}).chspr then .next s
    else .next (s.fwRun (.chspare k ch))

/-! ## The end of an operation (01 R39) -/

/-- Whether a remap must still wait: a G block runs on the core, or an H group has not been evicted.
DEDUCED (log 110). -/
def State.lsWaits (s : State) : LsKind → Bool
  | .remap core _ =>
    (s.core core).blocks.any (fun b => !b.retired && !b.cls)
      || (s.core core).groups.any fun (_, g) => match g.residency with | .evicted _ => false | _ => true
  | _ => false

/-- The change that an operation publishes as version `n`. DEDUCED (log 110). DESIGN CHOICE (log 111). -/
def State.lsChange (s : State) (k : LsKind) (n : Nat) (m : CMap) : CMap :=
  let v := BitVec.ofNat 32 n
  match k with
  | .remap core q =>
    let d := dieOf core
    match s.posOf core with
    | none => m
    | some p =>
      (m.setCoreRec d p { s.coreRec d p with mapv := v, lcore := none, failed := true, remap := false }).setCoreRec d q
        { s.coreRec d q with mapv := v, lcore := some (core % 192), failed := false, remap := true }
  | .recal q =>
    let r := s.port q
    let lanes := BitVec.ofNat 2 (Config.freeIdx s.free 4)
    { m with ports := alSet q { r with lanes, st := if lanes = 3 then 1 else if lanes = 0 then 0 else 2, recals := r.recals + 1 } m.ports }
  | .chspare st _ => { m with stackRecs := listMod m.stackRecs st fun x => { x with chspr := x.chspr + 1 } }
  | .fwload c ver => { m with fw := listMod m.fw c fun x => { slot := !x.slot, ver, veralt := x.ver } }
  | .fwswitch c => { m with fw := listMod m.fw c fun x => { slot := !x.slot, ver := x.veralt, veralt := x.ver } }
  | .rebin d b => { m with bins := listMod m.bins d fun _ => b }

/-- OP of the command that starts a kind of operation. -/
def LsKind.op : LsKind → Nat
  | .remap .. => 1 | .recal _ => 2 | .chspare .. => 3 | .fwload .. => 4 | .fwswitch _ => 5 | .rebin .. => 6

/-- LS_OP_COMPLETE: an operation publishes its one version, or is abandoned without one. -/
def execLsOpComplete (id : Nat) (ok : Bool) (s : State) : Out :=
  match s.lsops.find? (·.id == id) with
  | none => .next s
  | some o =>
    let s1 := { s with lsops := s.lsops.filter (·.id != id), free := s.free + 1 }
    if !ok || o.gone || s.lsGone o.kind then .next (if o.cmd then s1.lsEnd o.kind.op 5 else s1)
    else if s.lsWaits o.kind then .next s
    else
      let s2 := s1.publish (s.lsChange o.kind)
      .next (if o.cmd then s2.lsEnd o.kind.op 0 else s2.pirq 4)

end Sys2Proof.Machine
end

