-- ==== Sys2Proof/Machine/Registers.lean ====
section
/-! DEFINITION. Partition mode changes (10 R276 to R278), writes of registers without behaviour of
their own (00 R4, R5; 12 R320, R332), writes of the host to device memory (06 R188). -/

namespace Sys2Proof.Machine

/-! ## The tests of a mode change (10 R277) -/

/-- The quota of a partition that a mode change would leave in force. -/
def State.nextQuota (s : State) (mask : BitVec 16) (p : Nat) : DWord × DWord :=
  let x := s.part p
  if mask.getLsbD p then (x.na, x.nb) else (x.a, x.b)

/-- Whether two ranges share an element. -/
def rangesShare (a n b m : Nat) : Bool := n != 0 && m != 0 && spansMeet a n b m

/-- Whether two quotas share a slot or a row. -/
def quotasShare (x y : DWord × DWord) : Bool :=
  rangesShare (qSlotb x.1) (qSlotcnt x.1) (qSlotb y.1) (qSlotcnt y.1)
    || rangesShare (qSrowb x.1) (qSrows x.1) (qSrowb y.1) (qSrows y.1)
    || rangesShare (qAccb x.2) (qAcccnt x.2) (qAccb y.2) (qAcccnt y.2)

/-- Whether a quota lies within its resources. -/
def quotaFits (x : DWord × DWord) : Bool :=
  decide (qSlotb x.1 + qSlotcnt x.1 ≤ 32) && decide (qSrowb x.1 + qSrows x.1 ≤ 256) && decide (qAccb x.2 + qAcccnt x.2 ≤ 2048)

/-- The first test that fails. DEDUCED (log 113). -/
def State.pmTest (s : State) (mask : BitVec 16) : Option Nat :=
  let ps := List.range 16
  let q := s.nextQuota mask
  let valid := ps.filter fun p => qValid (q p).2
  let banks := (valid.map fun p => qBanks (q p).1).foldl (· + ·) 0
  if mask = 0 then some 1
  else if valid.any fun a => valid.any fun b => decide (a < b) && quotasShare (q a) (q b) then some 2
  else if !ps.all fun p => quotaFits (q p) then some 3
  else if (List.range 384).any fun c => s.liveCore c && (List.range 4).any fun i => decide (s.liveBanks c i < banks) then some 4
  else if ps.any fun p => mask.getLsbD p && !qValid (q p).2 && s.ctxs.any fun (_, x) => x.st != .free && x.part == p then some 5
  else none

/-! ## Mode changes (10 R278) -/

/-- Whether a block of a CLOSING partition is resident. -/
def State.closingBusy (s : State) : Bool :=
  s.cores.any fun (_, k) => k.blocks.any fun b => !b.retired && s.closing.getLsbD b.part

/-- The mode change ends in a state with a CODE. -/
def State.pmEnd (s : State) (st : BitVec 2) (code : Nat) : State :=
  { s with pmSt := st, pmCode := BitVec.ofNat 4 code, closing := 0 }.pirq 1

/-- The new quotas are installed; accumulator rows that move belong to no context any more.
DEDUCED (log 113). -/
def State.installQuotas (s : State) (mask : BitVec 16) : State :=
  let moved (p : Nat) : Bool := mask.getLsbD p && (s.part p).b != (s.part p).nb
  { s with
    parts := (List.range 16).foldl (fun l p =>
      if mask.getLsbD p then alSet p { s.part p with a := (s.part p).na, b := (s.part p).nb } l else l) s.parts
    cores := s.cores.map fun (c, k) => (c, { k with accOwner := k.accOwner.filter fun (p, _, _) => !moved p }) }

/-- The take-effect step: the tests again, then DONE or REJECTED. -/
def State.pmEffect (s : State) : State :=
  match s.pmTest s.closing with
  | some code => s.pmEnd 3 code
  | none => (s.installQuotas s.closing).pmEnd 2 0

/-- PMCTL with its MASK; CMD reads 0. -/
def pmctlWord (mask : BitVec 16) : DWord := BitVec.ofNat 64 (mask.toNat * 65536)

/-- PM_GO: CMD GO with MASK; one that is ignored leaves MASK as it was. DESIGN CHOICE (log 125). -/
def execPmGo (mask : BitVec 16) (s : State) : Out :=
  if s.pmSt = 1 then .next s
  else
    let s0 := { s with pmctl := pmctlWord mask }
    match s0.pmTest mask with
    | some code => .next (s0.pmEnd 3 code)
    | none =>
      let s1 := { s0 with
        pmSt := 1, pmCode := 0, closing := mask
        claims := s0.claims.filter fun cl => match s0.launch? cl.launch with
          | some l => !mask.getLsbD (s0.ctx l.ctx).part
          | none => false }
      .next (if s1.closingBusy then s1 else s1.pmEffect)

/-- PM_CANCEL: CMD CANCEL; only a PENDING change is cancelled, and an ignored one leaves MASK as it was.
DESIGN CHOICE (log 125). -/
def execPmCancel (mask : BitVec 16) (s : State) : Out :=
  if s.pmSt = 1 then .next ({ s with pmctl := pmctlWord mask }.pmEnd 0 0) else .next s

/-- PM_TAKE_EFFECT: the last resident block of the CLOSING partitions has gone. -/
def execPmTakeEffect (s : State) : Out := if s.pmSt = 1 && !s.closingBusy then .next s.pmEffect else .next s

/-- PQN_WRITE: PQNA, or PQNB when `b`, of a partition that is not CLOSING. -/
def execPqnWrite (p : Nat) (b : Bool) (val : DWord) (s : State) : Out :=
  if 16 ≤ p || s.closing.getLsbD p then .next s
  else
    let x := s.part p
    .next { s with parts := alSet p (if b then { x with nb := val &&& pqbMask } else { x with na := val &&& pqaMask }) s.parts }

/-! ## Registers without behaviour of their own -/

/-- The bits of a ring register that are not reserved. -/
def ringMask : DWord := 0xFFFFFFFFFF0DF

/-- What a write leaves in a ring register: while EN is 1 only EN is written (12 R320).
DEDUCED (log 114). -/
def ringAfter (old val : DWord) : DWord :=
  if ringEn old then (old &&& ~~~(0x40 : DWord)) ||| (val &&& 0x40) else val &&& ringMask

/-- A ring register of a virtual device's block, by its offset there. -/
def State.ringWrite (s : State) (v o : Nat) (val : DWord) : State :=
  match o with
  | 0x18 =>
    let d := s.vd v
    let r := ringAfter d.dlring val
    s.modVd v fun d => { d with dlring := r, epochPages := if ringEn r && !ringEn d.dlring then [] else d.epochPages }
  | 0x20 => (s.modVd v fun d => { d with ulring := ringAfter d.ulring val }).ulFlow v
  | 0x28 => (s.modVd v fun d => { d with pqring := ringAfter d.pqring val }).pqFlow v ((s.vd v).reqs.length + 1)
  | 0x30 => s.modVd v fun d => { d with irqaddr := val }
  | 0x38 => s.modVd v fun d => { d with irqdata := val.setWidth 32 }
  | _ => s

/-- EVSEL or EVCNT of one counter. -/
def ctrWrite (o : Nat) (val : DWord) (e : EvCtr) : EvCtr :=
  if o % 16 = 0 then { e with sel := val &&& 0xFFFFFF } else if o % 16 = 8 then { e with cnt := val } else e

/-- Registers of a virtual device's window (13 R350). -/
def State.windowWrite (s : State) (v off : Nat) (val : DWord) : State :=
  match off with
  | 0x2000 => s.modVd v fun d => { d with dbgctx := val.setWidth 32 &&& 0xFFF }
  | 0x2010 => s.modVd v fun d => { d with dbgdata := val }
  | 0x2018 => s.modVd v fun d => { d with trring := ringAfter d.trring val }
  | 0x2028 => s.modVd v fun d => { d with trsamp := val.setWidth 32 &&& 0x3F }
  | _ => s

/-- The fields of a queue's registers that a plain write sets: WQBASE while EN is 0 (09 R256). -/
def State.wqWrite (s : State) (q o : Nat) (val : DWord) : State :=
  if o = 8 && !wqEn (s.queue q).ctl then s.modQueue q fun x => { x with base := val &&& wqbaseMask } else s

/-- Single registers of the package management window. -/
def State.pkgWrite (s : State) (off : Nat) (val : DWord) : State :=
  match off with
  | 0x10810 => { s with l2ways := listMod s.l2ways 0 fun _ => val &&& 0xFFFF }
  | 0x10818 => { s with l2ways := listMod s.l2ways 1 fun _ => val &&& 0xFFFF }
  | 0x10820 => { s with tlbinva := val &&& 0x00FFFFFFFFFFF000 }
  | 0x10828 => s.tlbWrite (val.toNat % 4) (val.toNat / 2 ^ 16 % 2 ^ 12) (val.toNat / 2 ^ 32 % 2 ^ 16)
  | 0x10858 =>
    if !s.rflushBusy && !val.getLsbD 7 then { s with rflush := (s.rflush &&& 0xFF00) ||| (val &&& 0x3F) } else s
  | 0x10860 => { s with pirqaddr := val }
  | 0x10868 => { s with pirqdata := val.setWidth 32 }
  | 0x10888 => { s with lsarg := val }
  | 0x30200 => if val.toNat % 4 = 0 ∨ val.toNat % 4 = 3 then { s with pmctl := val &&& 0xFFFF0000 } else s
  | 0x40008 => { s with ctxarg := val }
  | 0x51000 =>
    if val.toNat % 4 = 0 then { s with keycmd := (s.keycmd &&& 0xFF0000) ||| (val &&& 0x3FFC) } else s
  | 0x51008 => { s with keyarg := val }
  | 0x61000 => { s with fabid := val.setWidth 32 &&& 0x3FF }
  | _ => s

/-- A write at an offset of the package management window. -/
def State.mgmtWrite (s : State) (off : Nat) (val : DWord) : State :=
  if 0x20000 ≤ off ∧ off < 0x28000 then s.wqWrite ((off - 0x20000) / 32) (off % 32) val
  else if 0x50000 ≤ off ∧ off < 0x51000 then s.ringWrite ((off - 0x50000) / 64) (off % 64) val
  else if 0x60000 ≤ off ∧ off < 0x60400 ∧ off % 8 = 0 then
    { s with faballow := alSet ((off - 0x60000) / 8) (val &&& 0x3FF03FF) s.faballow }
  else if 0xC0000 ≤ off ∧ off < 0xD8000 then
    s.modCore ((off - 0xC0000) / 256) fun k => { k with evctr := listMod k.evctr (off % 256 / 16) (ctrWrite off val) }
  else if 0xE0000 ≤ off ∧ off < 0xE0400 then
    { s with dieCtr := listMod s.dieCtr ((off - 0xE0000) / 512) fun l => listMod l (off % 512 / 16) (ctrWrite off val) }
  else if 0xE4000 ≤ off ∧ off < 0xE6000 ∧ off % 8 = 0 then
    let q := (off - 0xE4000) / 8
    if wqEn (s.queue q).ctl then s else s.modQueue q fun x => { x with censva := val &&& 0x00FFFFFFFFFFFFC0 }
  else s.pkgWrite off val

/-- REGISTER_WRITE: the written value in the register's RW fields; reserved bits, RO registers and
offsets of registers with a step of their own are not written here. -/
def execRegisterWrite (win : Window) (off : Nat) (val : DWord) (s : State) : Out :=
  match win with
  | .pkg => .next (s.mgmtWrite off val)
  | .vd v => if v ≥ 64 then .next s else .next (s.windowWrite v off val)

/-! ## Writes of the host to device memory (06 R188, 12 R328) -/

/-- Whether every byte of a span lies in a valid region on a live stack. -/
def State.spanLive (s : State) (a n : Nat) : Bool :=
  (List.range ((a % 256 + n + 255) / 256)).all fun i =>
    let b := if i = 0 then a else (a / 256 + i) * 256
    match s.regionAt b with
    | none => false
    | some r => let k := (r.locate b).1; !s.dieLost (k / 8) && !s.stackLost k

/-- HOST_WRITE: the write acts at the home slice after any owner has surrendered its words; it is not
logged. DEDUCED (log 115). -/
def execHostWrite (dpa : Nat) (bytes : List Byte) (s : State) : Out :=
  if !s.spanLive dpa bytes.length then .next s
  else
    .next (s.homePut ⟨false, dpa⟩ bytes)

end Sys2Proof.Machine
end

