-- ==== Sys2Proof/Machine/System.lean ====
section
/-! DEFINITION. BAR, channels, YLD, NAP, CMACK, MARK and LNCH (14 R366 to R368, R376; 16 R404, R414,
R422 to R426; 17 R456; 15 R401 to R403; 09 R266, R267). -/

namespace Sys2Proof.Machine

/-! ## BAR (14 R367) -/

/-- The arrival of threads at the open instance of their block's barrier, or at a new one, is an event (07 R215). -/
def State.noteArrival (s : State) (p : Pass) : State :=
  let b := s.blockOf p.core p.g
  s.noteNew p.core p.gid p.ex fun id => { id, ctx := 0, who := [], kind := .bar p.g.launch b.bix b.barGen }

/-- BAR arrives at the block's barrier and waits; the earlier loads of its threads take their values
(07 R215). DEDUCED (log 17). -/
def execBar (a : Src) (s : State) : Out :=
  let i : Instr := .bar a
  .next (s.laneFront { i, srcs := [(a, false)], forceUni := true, noRegion := true } fun p vs ue =>
    if ue != 0 then s.fin p i 0 (faultsOf p.ex .memUe 0)
    else
      let target := (sv vs 0).w (lowSlot p.ex)
      let s1 := ((s.serveAll p.core p.gid p.ex s.nextId).noteArrival p).modCore p.core fun k => k.modBlock p.g.blk fun b =>
        { b with barTarget := if b.barArrived = 0 then target else b.barTarget, barArrived := b.barArrived + slotCount p.ex }
      (s1.finBreak p i p.ex [] (.bar p.ex p.cl.pc)).checkBarrier p.core p.g.blk)

/-! ## QCFG and QTRY (16 R422 to R426) -/

/-- Rows of a channel, counted within the block's allocation. -/
def Chan.span (c : Chan) : Nat × Nat := (c.rowb.toNat, c.nrow.toNat + 1)

/-- The channel that a configuration word describes (16 R423). -/
def chanOf (w : Nat) : Chan :=
  { valid := true, hi := BitVec.ofNat 4 (w / 2 ^ 28), lo := BitVec.ofNat 4 (w / 2 ^ 24),
    cstg := BitVec.ofNat 3 (w / 2 ^ 17), pstg := BitVec.ofNat 3 (w / 2 ^ 14),
    nrow := BitVec.ofNat 6 (w / 2 ^ 8), rowb := BitVec.ofNat 8 w }

/-- Whether a configuration is refused (16 R424). -/
def Block.qcfgBad (b : Block) (qn : Nat) (w : Nat) : Bool :=
  let c := chanOf w
  w / 2 ^ 20 % 16 != 0 || decide (c.hi < c.lo) || decide (b.rows.length < c.span.1 + c.span.2)
    || (b.chans.any fun x => x.valid && spansMeet x.span.1 x.span.2 c.span.1 c.span.2)
    || decide (b.nstg < c.pstg.toNat) || decide (b.nstg < c.cstg.toNat) || (b.chans.getD qn {}).valid

/-- QCFG configures a channel of the block, or with .OFF unconfigures it. DEDUCED (log 17). -/
def execQcfg (qn : BitVec 4) (a : Src) (off : Bool) (s : State) : Out :=
  let i : Instr := .qcfg qn a off
  let o : LOp := { i, u := true, srcs := if off then [] else [(a, false)], noRegion := true }
  .next (s.laneFront o fun p vs ue =>
    let b := s.blockOf p.core p.g
    let q := qn.toNat
    let w := ((sv vs 0).w (lowSlot p.ex)).toNat
    let put (c : Chan) : State := (s.popAll p o).modCore p.core fun k => k.modBlock p.g.blk fun b =>
      { b with chans := listMod b.chans q fun _ => c }
    if ue != 0 then s.fin p i 0 (faultsOf p.ex .memUe 0)
    else if off then
      if (b.chans.getD q {}).valid && (b.chans.getD q {}).count != 0 then s.fin p i 0 (faultsOf p.ex .queueCfg 0)
      else (put {}).fin p i p.ex []
    else if b.qcfgBad q w then s.fin p i 0 (faultsOf p.ex .queueCfg 0)
    else (put (chanOf w)).fin p i p.ex [])

/-- QTRY tests a channel for words, or with .W for space. -/
def execQtry (u : Bool) (pd : BitVec 3) (qn : BitVec 4) (b : Src) (w : Bool) (s : State) : Out :=
  .next (s.laneOp { i := .qtry u pd qn b w, u, dst := .pred pd, srcs := [(b, false)], noRegion := true }
    fun p vs t =>
      let c := (s.blockOf p.core p.g).chans.getD qn.toNat {}
      if !c.valid then .bad .queueCfg
      else
        let have_ := if w then c.capacity - c.count else c.count
        .ofNat (decide (((sv vs 0).w t).toNat ≤ have_)).toNat)

/-! ## YLD (17 R456, 02 R78, R79, 09 R267) -/

/-- need(t) of R267. DEDUCED (log 60). -/
def State.stageNeed (s : State) (c : Nat) (b : Block) (t : Nat) : Nat :=
  let on (f : Chan → Bool) : Nat := (b.chans.filter fun x => x.valid && f x).length
  let blocked (f : List (Nat × Nat) → List (Nat × Nat) → Bool) : Nat :=
    ((s.core c).groups.filter fun (_, g) => g.blk == b.id && match g.wait with
      | .channel pops pushes => f pops pushes
      | _ => false).length
  let chan (q : Nat) : Chan := b.chans.getD q {}
  on (fun x => x.pstg.toNat == t && decide (x.count ≤ x.lo.toNat * x.capacity / 16))
    + on (fun x => x.cstg.toNat == t && decide (x.hi.toNat * x.capacity / 16 ≤ x.count))
    + blocked (fun pops _ => pops.any fun (q, _) => (chan q).valid && (chan q).count == 0 && (chan q).pstg.toNat == t)
    + blocked (fun _ pushes => pushes.any fun (q, _) =>
        (chan q).valid && (chan q).count == (chan q).capacity && (chan q).cstg.toNat == t)

/-- The stage with the largest need, the lower number on ties. DEDUCED (log 60). -/
def State.neediest (s : State) (c : Nat) (b : Block) : Nat :=
  (List.range (b.nstg + 1)).foldl (fun t x => if s.stageNeed c b t < s.stageNeed c b x then x else t) 0

/-- The stage that an offer moves the group to, if it moves it. DEDUCED (log 53). -/
def State.reassign (s : State) (p : Pass) : Option Nat :=
  let b := s.blockOf p.core p.g
  let t := s.neediest p.core b
  let mates := ((s.core p.core).groups.filter fun (_, g) => g.blk == b.id && g.stage == p.g.stage).length
  if s.stageNeed p.core b p.g.stage < s.stageNeed p.core b t && decide (2 ≤ mates) then some t else none

/-- The state of a reassigned group (02 R79). -/
def Group.toStage (g : Group) (t : Nat) (entry : DWord) : Group :=
  { g.modThs g.active (fun _ x => { x with pc := entry, meet := 0xFFFFFFFFFFFFFFFF, nest := 0, srCtr := 0 }) with
    stage := t, regs := List.replicate 64 {}, preds := List.replicate 7 {}, tile := 32, fsr := 0, engIdx := 0 }

/-- Whether an offer counts (02 R78). DEDUCED (log 53). -/
def State.offerCounts (s : State) (p : Pass) : Bool :=
  !p.g.handler && p.ex == p.g.active && p.g.tokens.all (· == 0) && p.g.countersZero
    && ((s.core p.core).loadsOf p.gid p.g.active).isEmpty

/-- YLD ends the clause; YLD.STAGE first raises a held-back fault, then the region's, and offers the group to the
block scheduler (17 R456). A group whose registers an MMA has still to read keeps its stage till then: the pass is
held (08 R241). DEDUCED (log 53). -/
def execYld (u stage : Bool) (s : State) : Out :=
  let i : Instr := .yld u stage
  .next (s.prePass i false false (fun _ => []) [] false fun p _ _ =>
    let past (s : State) (last : Bool) : State :=
      if last then (s.finLeave p i p.ex).modGroup p.core p.gid fun g => { g with ylast := true }
      else s.finLeave p i p.ex
    if !stage then past s true
    else match p.g.asyncFaults with
      | f :: _ => s.stopAsync p.core p.gid p.g p.ex f
      | [] =>
        if p.g.region.isSome then s.fin p i 0 (faultsOf p.ex .atomicInRegion 0)
        else if !s.offerCounts p then past s true
        else match s.reassign p with
          | none => past s false
          | some t =>
            if (List.range 32).any fun n => (s.core p.core).bHeld p.gid p.g (32 + n) then s
            else
            let entry := (s.blockOf p.core p.g).stages.getD t 0
            (past s false).modGroup p.core p.gid fun g => g.toStage t entry)

/-! ## NAP (16 R415) -/

/-- NAP waits for a wake event; MAPCHG set at the pass is one. -/
def execNap (u : Bool) (a : Src) (cnt : Bool) (s : State) : Out :=
  let i : Instr := .nap u a cnt
  .next (s.laneFront { i, u, srcs := [(a, false)], forceUni := true } fun p vs ue =>
    if ue != 0 then s.fin p i 0 (faultsOf p.ex .memUe 0)
    else
      let n := ((sv vs 0).w (lowSlot p.ex)).toNat
      let o : LOp := { i, u, srcs := [(a, false)] }
      (s.popAll p o).finBreak p i p.ex [] (.nap (if n = 0 then none else some (s.clk p.core + n)) cnt (s.mapchg (s.ctx p.g.ctx))))

/-- NAP_WAKE: a wake event of a napping group. -/
def execNapWake (core gid : Nat) (s : State) : Out :=
  .next (s.modGroup core gid fun g => match g.wait with
    | .nap limit _ woken =>
      if woken || s.mapchg (s.ctx g.ctx) || (match limit with | some t => decide (t ≤ s.clk core) | none => false) then
        { g with wait := .none }
      else g
    | _ => g)

/-! ## CMACK (14 R376) and MARK (16 R404) -/

/-- CMACK acknowledges a map version (01 R29). -/
def execCmack (u : Bool) (a : Src) (s : State) : Out :=
  let i : Instr := .cmack u a
  .next (s.laneFront { i, u, srcs := [(a, true)], forceUni := true } fun p vs ue =>
    if ue != 0 then s.fin p i 0 (faultsOf p.ex .memUe 0)
    else
      let v := ((sv vs 0).dw (lowSlot p.ex)).toNat
      let s1 := if (s.ctx p.g.ctx).ackv < v && decide (v ≤ s.cmap.cmv) then
          (s.modCtx p.g.ctx fun x => { x with ackv := v }).ulMap p.g.ctx
        else s
      s1.fin p i p.ex [])

/-- MARK writes trace records. DEDUCED (log 116). -/
def execMark (u : Bool) (n : BitVec 7) (s : State) : Out :=
  let i : Instr := .mark u n
  .next (s.prePass i false false (fun _ => []) [] false fun p _ _ =>
    ((unitsOf u p.ex).foldl (fun s (t, _) => s.trace p.core p.gid t 4 n.toNat) s).fin p i p.ex [])

/-! ## LNCH (15 R402, 09 R266) -/

/-- The result register of LNCH. -/
def lnchDst (nw : Bool) : Dst → Option Nat
  | .v n => if nw then none else some n.toNat
  | _ => none

/-- LNCH reads its packet and waits for its queue step; inside a region it faults before all of it (15 R402). -/
def execLnch (nw : Bool) (d : Dst) (a b : Src) (s : State) : Out :=
  let i : Instr := .lnch nw d a b
  let o : LOp := { i, u := true, nw, dst := .v d false, srcs := [(a, false), (b, false)], noRegion := true }
  .next (s.laneFront o fun p vs ue =>
    let bl := s.blockOf p.core p.g
    let addr := ((sv vs 0).w (lowSlot p.ex)).toNat % 2 ^ 24
    let q := ((sv vs 1).w (lowSlot p.ex)).toNat
    let bad (f : FCode) (x : Nat) : State := s.fin p i 0 (faultsOf p.ex f (BitVec.ofNat 64 x))
    if ue != 0 then bad .memUe 0
    else if addr % 64 ≠ 0 then bad .align addr
    else if !inAlloc bl.rows.length addr 64 then bad .scratchRange addr
    else if s.storeHeld p.core p.gid p.ex ⟨.scratch, p.core, ⟨false, bl.local addr⟩, 64⟩ then s
    else
    let (packet, s) := s.readBlock p ⟨.scratch, p.core, ⟨false, bl.local addr⟩, 64⟩
    let bad (f : FCode) (x : Nat) : State := s.fin p i 0 (faultsOf p.ex f (BitVec.ofNat 64 x))
    if s.scratchUeAt p.core (bl.local addr) 64 then bad .memUe addr
    else if 1023 < q then bad .prot 0
    else
      let (id, s1) := s.fresh
      let s2 := s1.modCore p.core fun k => { k with lnchs := k.lnchs ++
        [{ id, gid := p.gid, mask := p.ex, queue := q, packet,
           dst := lnchDst nw d, pc := p.cl.pc, finfo := finfoWord (headOf i) }] }
      ((s2.popAll p o).modGroup p.core p.gid fun g => g.waitThs p.ex .lnch).finBreak p i p.ex [] .load)

/-- How the queue step of R266 ends. -/
inductive QStep where
  | held
  | lost (s : State)
  | prot (s : State)
  | done (r : Word) (s : State)

/-- The queue step of R266: the packet is written and WQTAIL advances, as one step; the home of the ring marks
the context's TDM, and one that is lost strikes the context with DIE_LOST besides the queue's error (01 R34, R35).
DESIGN CHOICE (log 154). -/
def State.queueStep (s : State) (ctx : Nat) (l : PLnch) : QStep :=
  let x := s.queue l.queue
  let v := (s.ctx ctx).vd
  if x.st != .active || wqOwner x.ctl != v then .prot s
  else if wqSize x.ctl ≤ x.held then .done 0 s
  else
    let p := x.slotPa x.tail.toNat
    match s.checkPa v p with
    | some f =>
      let s1 := (if f.atHome then s.touch ctx (s.homeDie p) else s).queueError l.queue 3 none
      if f = .dieLost then .lost s1 else .prot s1
    | none =>
      let s1 := (s.touch ctx (s.homeDie p)).homeWrite (s.workOf ctx) p l.packet
      if s.heldMore s1 || s.hbmHolds (s.clsOf ctx) p 64 then .held else .done 1 (s1.setQueue l.queue { x with tail := x.tail + 1 })

/-- Whether every earlier access of an LNCH's threads is done, as a release needs (15 R402). -/
def Core.lnchReady (k : Core) (l : PLnch) : Bool :=
  !(k.stores.any fun w => w.of l.gid l.mask) && !(k.atoms.any fun a => a.of l.gid l.mask)
    && !(k.fences.any fun x => x.bg && x.of l.gid l.mask)
    && (k.loadsOf l.gid l.mask).all fun x => x.data.isSome

/-- The queue step of an LNCH has taken effect: its result is written and its threads go on; it is a PACKAGE release
before the packet that it has enqueued (07 R215). -/
def State.lnchEnd (s0 : State) (c : Nat) (l : PLnch) (r : Word) : State :=
  let s := if r = 0 then s0 else s0.noteThs c l.gid l.mask
    { id := l.id, ctx := 0, who := [], kind := .enq l.queue ((s0.queue l.queue).tail - 1), rel := some 3 }
  (s.modCore c fun k => { k with lnchs := k.lnchs.filter (·.id != l.id) }).modGroup c l.gid fun g =>
    (match l.dst with
      | some n => g.putWord n true 0 r
      | none => g).wakeThs l.mask .lnch

/-- The queue step of an LNCH fails: its threads are back on it and fault PROT. -/
def State.lnchProt (s : State) (c : Nat) (l : PLnch) : State :=
  (((s.modCore c fun k => { k with lnchs := k.lnchs.filter (·.id != l.id) }).modGroup c l.gid fun g =>
    (g.wakeThs l.mask .lnch).modThs l.mask fun _ t => { t with pc := l.pc }).raise c l.gid
      ⟨0, l.pc, l.finfo, faultsOf l.mask .prot 0⟩).settle c l.gid

/-- LNCH_QUEUE_STEP: the PACKAGE release of an LNCH, then its queue step (15 R402, R403). -/
def execLnchQueueStep (core id : Nat) (s : State) : Out :=
  match (s.core core).lnchs.find? (·.id == id) with
  | none => .next s
  | some l =>
    match s.group? core l.gid with
    | none => .next s
    | some g =>
      let st := (s.ctx g.ctx).st
      if !(st == .active || st == .draining) || g.residency != .resident || !(s.core core).lnchReady l || (match l.dst with | some n => (s.core core).bHeld l.gid g n | none => false) then .next s
      else
        let s1 := (s.l1Release (s.l1Of core)).modCore core fun k => k.released l.gid l.mask l.id
        if s1.l1Owes (s1.l1Of core) g.ctx then .next s
        else match s1.queueStep g.ctx l with
          | .held => .next s
          | .lost s2 => .next (s2.loseCtx g.ctx)
          | .prot s2 => .next (s2.lnchProt core l)
          | .done r s2 => .next (s2.lnchEnd core l r)

end Sys2Proof.Machine
end

