-- ==== Sys2Proof/Machine/Trap.lean ====
section
/-! DEFINITION. Traps (11 R293 to R301): TRAP, BKPT, RTE, and the entry into the handler. -/

namespace Sys2Proof.Machine

/-- TRAP faults every executing thread (17 R448). -/
def execTrap (u : Bool) (n : BitVec 7) (s : State) : Out :=
  let i : Instr := .trap u n
  .next (s.prePass i false false (fun _ => []) [] false fun p _ _ => s.fin p i 0 (faultsOf p.ex .trap 0))

/-- BKPT: a fault, or under a debug right a halt with trace records (14 R372). DEDUCED (log 52). -/
def execBkpt (s : State) : Out :=
  let i : Instr := .bkpt
  .next (s.prePass i false false (fun _ => []) [] false fun p _ _ =>
    if (s.ctx p.g.ctx).dbgVd.isNone then s.fin p i 0 (faultsOf p.ex .bkpt 0)
    else
      let s1 := s.passStep p.core p.gid (lenOf i) (finfoWord (headOf i)) p.ex [] {} fun _ => p.cl.after (lenOf i)
      let s2 := (s1.modGroup p.core p.gid fun g => g.modThs p.ex fun _ t => { t with halted := true, starve := 0 }).traceAll
        p.core p.gid p.ex 6 0
      if s2.clauseOver p.core p.gid then s2.endClause p.core p.gid else s2)

/-- RTE holds its threads until the handler set has returned (11 R301, 16 R434). -/
def execRte (skip : Bool) (s : State) : Out :=
  let i : Instr := .rte skip
  .next (s.prePass i false false (fun _ => []) [] false fun p _ _ =>
    if !p.g.handler then s.go p i 0 (faultsOf p.ex .illegalOpcode 0) fun _ => p.cl.pc
    else
      (s.modGroup p.core p.gid fun g =>
        { g with rteDone := g.rteDone ||| p.ex, rteSkip := if skip then g.rteSkip ||| p.ex else g.rteSkip,
                 threads := (g.modThs p.ex fun _ t => { t with starve := 0 }).threads }).go p i p.ex []
          fun _ => p.cl.pc)

/-! ## Trap entry (11 R296 to R298) -/

/-- The address of a thread's entry in the trap area. -/
def State.trapVa (s : State) (c : Nat) (g : Group) (t : Thread) : Nat :=
  ((s.ctx g.ctx).trapbase.toNat + 16 * ((s.blockOf c g).bix * 1024 + t.tix.toNat)) % 2 ^ 64

/-- The unowned copies of a span of a context's memory leave a core's L1. -/
def State.dropAt (s : State) (c gid ctx va n : Nat) : State :=
  match (s.xlatNow (dieOf c) ctx .wr (.group c gid) va).1 with
  | .ok p => s.dropCopies (s.l1Of c) p n
  | _ => s

/-- How the writes of the trap area end. -/
inductive TrapW where
  | ok (s : State)
  | wait (s : State)
  | fault (f : FCode) (slot : Nat) (s : State)

/-- Write TPC and FADDR of the slots of the handler set, as plain stores of its threads: their core's L1 keeps no
older copy (11 R298); the first write that faults ends it. They go to memory at once, those of a handler that is
entered inside a region too; misses of the L1 TLB are counted (13 R342). DESIGN CHOICE (log 153). -/
def State.trapWrites (s : State) (c gid : Nat) (g g1 : Group) : List Nat → TrapW
  | [] => .ok (s.missedAll c g.ctx g.walkHits ((slotsOf g.handlerSet).map fun i => s.trapVa c g (g.th i)))
  | i :: r =>
    let bs := leBytes 8 (g1.tpc.getD i 0).toNat ++ leBytes 8 (g1.faddr.getD i 0).toNat
    match s.gwrite (dieOf c) g.ctx (.group c gid) (s.trapVa c g (g.th i)) bs with
    | (.ok _, s1) => (s1.dropAt c gid g.ctx (s.trapVa c g (g.th i)) 16).trapWrites c gid g g1 r
    | (.wait, s1) => .wait s1
    | (.fault f _, s1) => .fault f i s1

/-- Whether a group with a fault pending waits for nothing before its trap entry: no clause, no move
of its own by JOIN or LEAVE (a JOIN to it waits for the entry, 15 R396), no access whose threads wait, no load, no push (R296 step 1). DEDUCED (log 38). -/
def State.trapReady (s : State) (c gid : Nat) (g : Group) : Bool :=
  let k := s.core c
  g.clause.isNone && g.trapv != 0 && !g.handler && g.residency == .resident && (s.ctx g.ctx).st != .saving
    && !(k.spills.any fun x => x.gid == gid)
    && (match g.wait with | .joining .. => false | _ => true)
    && (k.loadsOf gid g.active).isEmpty && !(k.atoms.any fun a => a.gid == gid && !a.red)
    && !(k.fences.any fun f => f.gid == gid && !f.bg) && !(k.pushes.any fun x => x.gid == gid)
    && !(k.lnchs.any fun l => l.gid == gid)

/-- TRAP_ENTRY: the handler set enters the handler; an error recorded against a thread, or a fault of
the trap area, stops the context. -/
def execTrapEntry (core gid : Nat) (s : State) : Out :=
  match s.group? core gid with
  | none => .next s
  | some g =>
    match g.firstFault with
    | none => .next s
    | some p =>
      if !s.trapReady core gid g then .next s
      else if g.dueMask g.active != 0 then .next (s.raiseDue core gid g.active)
      else
        let g1 := g.takeTrap p
        match s.trapWrites core gid g g1 (slotsOf g.handlerSet) with
        | .wait s1 => .next (s.keepWait s1)
        | .fault f i s1 => .next (if f = .dieLost then s1.loseCtx g.ctx else s1.stopCtx g.ctx f 0 p.pc (stopLoc core gid i))
        | .ok s1 => .next (s1.setGroup core gid g1)

end Sys2Proof.Machine
end

