-- ==== Sys2Proof/Machine/Dispatch.lean ====
section
/-! DEFINITION. The dispatch: one arm per row of the opcode table. -/

namespace Sys2Proof.Machine

def exec (i : Instr) (s : State) : Host.Outcome State Fault Refusal :=
  match i with
  | .iadd r x => Sys2Proof.Machine.execIadd r x s
  | .isub r x => Sys2Proof.Machine.execIsub r x s
  | .imul r => Sys2Proof.Machine.execImul r s
  | .imulh r x => Sys2Proof.Machine.execImulh r x s
  | .imad r x => Sys2Proof.Machine.execImad r x s
  | .imin r x => Sys2Proof.Machine.execImin r x s
  | .imax r x => Sys2Proof.Machine.execImax r x s
  | .iabs r x => Sys2Proof.Machine.execIabs r x s
  | .idp4 r x => Sys2Proof.Machine.execIdp4 r x s
  | .and_ r => Sys2Proof.Machine.execAnd r s
  | .or_ r => Sys2Proof.Machine.execOr r s
  | .xor_ r => Sys2Proof.Machine.execXor r s
  | .andn r => Sys2Proof.Machine.execAndn r s
  | .shl r x => Sys2Proof.Machine.execShl r x s
  | .shr r x => Sys2Proof.Machine.execShr r x s
  | .popc r => Sys2Proof.Machine.execPopc r s
  | .clz r => Sys2Proof.Machine.execClz r s
  | .brev r => Sys2Proof.Machine.execBrev r s
  | .bfi r => Sys2Proof.Machine.execBfi r s
  | .bfx r x => Sys2Proof.Machine.execBfx r x s
  | .bilv r x => Sys2Proof.Machine.execBilv r x s
  | .bdlv r x => Sys2Proof.Machine.execBdlv r x s
  | .fadd r => Sys2Proof.Machine.execFadd r s
  | .fsub r => Sys2Proof.Machine.execFsub r s
  | .fmul r => Sys2Proof.Machine.execFmul r s
  | .fma r => Sys2Proof.Machine.execFma r s
  | .fmin r => Sys2Proof.Machine.execFmin r s
  | .fmax r => Sys2Proof.Machine.execFmax r s
  | .fabs r => Sys2Proof.Machine.execFabs r s
  | .fneg r => Sys2Proof.Machine.execFneg r s
  | .frcp r => Sys2Proof.Machine.execFrcp r s
  | .frsq r => Sys2Proof.Machine.execFrsq r s
  | .fsqrt r => Sys2Proof.Machine.execFsqrt r s
  | .fex2 r => Sys2Proof.Machine.execFex2 r s
  | .flg2 r => Sys2Proof.Machine.execFlg2 r s
  | .fsin r => Sys2Proof.Machine.execFsin r s
  | .fcos r => Sys2Proof.Machine.execFcos r s
  | .ftnh r => Sys2Proof.Machine.execFtnh r s
  | .frnd r sub => Sys2Proof.Machine.execFrnd r sub s
  | .fcls r sub => Sys2Proof.Machine.execFcls r sub s
  | .padd r x => Sys2Proof.Machine.execPadd r x s
  | .pmul r x => Sys2Proof.Machine.execPmul r x s
  | .pfma r x => Sys2Proof.Machine.execPfma r x s
  | .pmin r x => Sys2Proof.Machine.execPmin r x s
  | .pmax r x => Sys2Proof.Machine.execPmax r x s
  | .cvt r pair rnd x => Sys2Proof.Machine.execCvt r pair rnd x s
  | .mxscl nw d a fmt => Sys2Proof.Machine.execMxscl nw d a fmt s
  | .mxpk nw d a rnd fmt => Sys2Proof.Machine.execMxpk nw d a rnd fmt s
  | .mxupk nw d a fmt => Sys2Proof.Machine.execMxupk nw d a fmt s
  | .itst c x => Sys2Proof.Machine.execItst c x s
  | .ftst c => Sys2Proof.Machine.execFtst c s
  | .plog u op p pa pb => Sys2Proof.Machine.execPlog u op p pa pb s
  | .pval u nw d pa x => Sys2Proof.Machine.execPval u nw d pa x s
  | .vchk u p a x => Sys2Proof.Machine.execVchk u p a x s
  | .selp r p => Sys2Proof.Machine.execSelp r p s
  | .shfx nw d a b => Sys2Proof.Machine.execShfx nw d a b s
  | .shfd nw d a b => Sys2Proof.Machine.execShfd nw d a b s
  | .shfb nw d a b => Sys2Proof.Machine.execShfb nw d a b s
  | .scan nw d a exc stp => Sys2Proof.Machine.execScan nw d a exc stp s
  | .redx nw d a stp => Sys2Proof.Machine.execRedx nw d a stp s
  | .vote nw d pa mode => Sys2Proof.Machine.execVote nw d pa mode s
  | .first nw d a last => Sys2Proof.Machine.execFirst nw d a last s
  | .rank nw d a sub => Sys2Proof.Machine.execRank nw d a sub s
  | .elect nw d slot => Sys2Proof.Machine.execElect nw d slot s
  | .ssint nw d a b => Sys2Proof.Machine.execSsint nw d a b s
  | .mov r w => Sys2Proof.Machine.execMov r w s
  | .movs u nw d sr => Sys2Proof.Machine.execMovs u nw d sr s
  | .movsw sr a => Sys2Proof.Machine.execMovsw sr a s
  | .movx u nw d a => Sys2Proof.Machine.execMovx u nw d a s
  | .movxw u a b => Sys2Proof.Machine.execMovxw u a b s
  | .aff nw d a b => Sys2Proof.Machine.execAff nw d a b s
  | .unif d w => Sys2Proof.Machine.execUnif d w s
  | .shtag nw d a => Sys2Proof.Machine.execShtag nw d a s
  | .ldgB8 m => Sys2Proof.Machine.execLdgB8 m s
  | .ldgB16 m => Sys2Proof.Machine.execLdgB16 m s
  | .ldgB32 m => Sys2Proof.Machine.execLdgB32 m s
  | .ldgB64 m => Sys2Proof.Machine.execLdgB64 m s
  | .ldgB128 m => Sys2Proof.Machine.execLdgB128 m s
  | .ldgS8 m => Sys2Proof.Machine.execLdgS8 m s
  | .ldgS16 m => Sys2Proof.Machine.execLdgS16 m s
  | .ldgAcq m => Sys2Proof.Machine.execLdgAcq m s
  | .stgB8 m => Sys2Proof.Machine.execStgB8 m s
  | .stgB16 m => Sys2Proof.Machine.execStgB16 m s
  | .stgB32 m => Sys2Proof.Machine.execStgB32 m s
  | .stgB64 m => Sys2Proof.Machine.execStgB64 m s
  | .stgB128 m => Sys2Proof.Machine.execStgB128 m s
  | .pfg u l1 a off => Sys2Proof.Machine.execPfg u l1 a off s
  | .ldsB8 m => Sys2Proof.Machine.execLdsB8 m s
  | .ldsB16 m => Sys2Proof.Machine.execLdsB16 m s
  | .ldsB32 m => Sys2Proof.Machine.execLdsB32 m s
  | .ldsB64 m => Sys2Proof.Machine.execLdsB64 m s
  | .ldsB128 m => Sys2Proof.Machine.execLdsB128 m s
  | .lda m => Sys2Proof.Machine.execLda m s
  | .stsB8 m => Sys2Proof.Machine.execStsB8 m s
  | .stsB16 m => Sys2Proof.Machine.execStsB16 m s
  | .stsB32 m => Sys2Proof.Machine.execStsB32 m s
  | .stsB64 m => Sys2Proof.Machine.execStsB64 m s
  | .stsB128 m => Sys2Proof.Machine.execStsB128 m s
  | .sta m => Sys2Proof.Machine.execSta m s
  | .atg m => Sys2Proof.Machine.execAtg m s
  | .ats m => Sys2Proof.Machine.execAts m s
  | .redg m => Sys2Proof.Machine.execRedg m s
  | .reds m => Sys2Proof.Machine.execReds m s
  | .fence u kind scope => Sys2Proof.Machine.execFence u kind scope s
  | .waitc u a cls => Sys2Proof.Machine.execWaitc u a cls s
  | .waita u nw d a acq cond => Sys2Proof.Machine.execWaita u nw d a acq cond s
  | .cpy a => Sys2Proof.Machine.execCpy a s
  | .gath a => Sys2Proof.Machine.execGath a s
  | .mma a => Sys2Proof.Machine.execMma a s
  | .mbind a n => Sys2Proof.Machine.execMbind a n s
  | .aclr a => Sys2Proof.Machine.execAclr a s
  | .adrn a => Sys2Proof.Machine.execAdrn a s
  | .coll a => Sys2Proof.Machine.execColl a s
  | .bra f => Sys2Proof.Machine.execBra f s
  | .call f => Sys2Proof.Machine.execCall f s
  | .jmpr u a => Sys2Proof.Machine.execJmpr u a s
  | .callr u a => Sys2Proof.Machine.execCallr u a s
  | .ret u => Sys2Proof.Machine.execRet u s
  | .exit u => Sys2Proof.Machine.execExit u s
  | .setm disp => Sys2Proof.Machine.execSetm disp s
  | .join a => Sys2Proof.Machine.execJoin a s
  | .leave p => Sys2Proof.Machine.execLeave p s
  | .bar a => Sys2Proof.Machine.execBar a s
  | .qcfg qn a off => Sys2Proof.Machine.execQcfg qn a off s
  | .qtry u p qn b w => Sys2Proof.Machine.execQtry u p qn b w s
  | .yld u stage => Sys2Proof.Machine.execYld u stage s
  | .nap u a cnt => Sys2Proof.Machine.execNap u a cnt s
  | .trap u n => Sys2Proof.Machine.execTrap u n s
  | .rte skip => Sys2Proof.Machine.execRte skip s
  | .cmack u a => Sys2Proof.Machine.execCmack u a s
  | .lnch nw d a b => Sys2Proof.Machine.execLnch nw d a b s
  | .rgna u => Sys2Proof.Machine.execRgna u s
  | .mark u n => Sys2Proof.Machine.execMark u n s
  | .dieReset die => Sys2Proof.Machine.execDieReset die s
  | .dieReturn die => Sys2Proof.Machine.execDieReturn die s
  | .dieLoss die => Sys2Proof.Machine.execDieLoss die s
  | .dieLossPublish die => Sys2Proof.Machine.execDieLossPublish die s
  | .stackLoss stack => Sys2Proof.Machine.execStackLoss stack s
  | .mapDeadlineExpiry ctx => Sys2Proof.Machine.execMapDeadlineExpiry ctx s
  | .mapgrcWrite v => Sys2Proof.Machine.execMapgrcWrite v s
  | .lscmdBadop op => Sys2Proof.Machine.execLscmdBadop op s
  | .fwLiveServiceStart op => Sys2Proof.Machine.execFwLiveServiceStart op s
  | .lsOpComplete id ok => Sys2Proof.Machine.execLsOpComplete id ok s
  | .fullIssue core gid => Sys2Proof.Machine.execFullIssue core gid s
  | .resumedIssue core gid => Sys2Proof.Machine.execResumedIssue core gid s
  | .hClauseCut core quad => Sys2Proof.Machine.execHClauseCut core quad s
  | .cutLaneFree core lane => Sys2Proof.Machine.execCutLaneFree core lane s
  | .loadDataReturn core id serveOnly => Sys2Proof.Machine.execLoadDataReturn core id serveOnly s
  | .atomicResultReturn core id => Sys2Proof.Machine.execAtomicResultReturn core id s
  | .reductionTakesEffect core id => Sys2Proof.Machine.execReductionTakesEffect core id s
  | .fenceComplete core id => Sys2Proof.Machine.execFenceComplete core id s
  | .meetPushDone core gid slot => Sys2Proof.Machine.execMeetPushDone core gid slot s
  | .waitaWake core gid => Sys2Proof.Machine.execWaitaWake core gid s
  | .napWake core gid => Sys2Proof.Machine.execNapWake core gid s
  | .joinLeaveCopyDone core gid => Sys2Proof.Machine.execJoinLeaveCopyDone core gid s
  | .trapEntry core gid => Sys2Proof.Machine.execTrapEntry core gid s
  | .l1LineEviction core host line => Sys2Proof.Machine.execL1LineEviction core host line s
  | .pageWalkComplete die id => Sys2Proof.Machine.execPageWalkComplete die id s
  | .pageResponse v val => Sys2Proof.Machine.execPageResponse v val s
  | .pageRequestTimeout v id => Sys2Proof.Machine.execPageRequestTimeout v id s
  | .tlbinvCtx ctx => Sys2Proof.Machine.execTlbinvCtx ctx s
  | .tlbinvRange ctx npg => Sys2Proof.Machine.execTlbinvRange ctx npg s
  | .regionEntryWrite entry word val => Sys2Proof.Machine.execRegionEntryWrite entry word val s
  | .rflushGo entry => Sys2Proof.Machine.execRflushGo entry s
  | .keyInstall slot owner => Sys2Proof.Machine.execKeyInstall slot owner s
  | .keyClear slot owner => Sys2Proof.Machine.execKeyClear slot owner s
  | .keySetkek slot owner => Sys2Proof.Machine.execKeySetkek slot owner s
  | .wqEnable q ctl => Sys2Proof.Machine.execWqEnable q ctl s
  | .wqDisable q ctl => Sys2Proof.Machine.execWqDisable q ctl s
  | .wqtailWrite win q val => Sys2Proof.Machine.execWqtailWrite win q val s
  | .packetTake q => Sys2Proof.Machine.execPacketTake q s
  | .waitCondRead q x_i => Sys2Proof.Machine.execWaitCondRead q x_i s
  | .sinterSpillDone core quad => Sys2Proof.Machine.execSinterSpillDone core quad s
  | .sinterRestore core quad => Sys2Proof.Machine.execSinterRestore core quad s
  | .sinterRestoreDone core quad => Sys2Proof.Machine.execSinterRestoreDone core quad s
  | .launchComplete id => Sys2Proof.Machine.execLaunchComplete id s
  | .watchdogExpiry id => Sys2Proof.Machine.execWatchdogExpiry id s
  | .lnchQueueStep core id => Sys2Proof.Machine.execLnchQueueStep core id s
  | .accportOpStart core => Sys2Proof.Machine.execAccportOpStart core s
  | .mmaBConsumed core id => Sys2Proof.Machine.execMmaBConsumed core id s
  | .asyncOpFinish core id => Sys2Proof.Machine.execAsyncOpFinish core id s
  | .asyncOpFault core id => Sys2Proof.Machine.execAsyncOpFault core id s
  | .pmGo mask => Sys2Proof.Machine.execPmGo mask s
  | .pmCancel mask => Sys2Proof.Machine.execPmCancel mask s
  | .pqnWrite p b val => Sys2Proof.Machine.execPqnWrite p b val s
  | .ctxCreate ctx => Sys2Proof.Machine.execCtxCreate ctx s
  | .ctxDestroy ctx => Sys2Proof.Machine.execCtxDestroy ctx s
  | .ctxPreempt ctx => Sys2Proof.Machine.execCtxPreempt ctx s
  | .ctxResume ctx => Sys2Proof.Machine.execCtxResume ctx s
  | .ctxDbggrant ctx => Sys2Proof.Machine.execCtxDbggrant ctx s
  | .ctxDbgrevoke ctx => Sys2Proof.Machine.execCtxDbgrevoke ctx s
  | .ctxcmdBadop ctx op => Sys2Proof.Machine.execCtxcmdBadop ctx op s
  | .ctxSaveDone ctx => Sys2Proof.Machine.execCtxSaveDone ctx s
  | .ctxRestoreDone ctx => Sys2Proof.Machine.execCtxRestoreDone ctx s
  | .timeSliceExpiry ctx => Sys2Proof.Machine.execTimeSliceExpiry ctx s
  | .autoResume ctx => Sys2Proof.Machine.execAutoResume ctx s
  | .vdCreate v => Sys2Proof.Machine.execVdCreate v s
  | .vdStop v => Sys2Proof.Machine.execVdStop v s
  | .vdStopDone v => Sys2Proof.Machine.execVdStopDone v s
  | .vdResume v => Sys2Proof.Machine.execVdResume v s
  | .vdReset v => Sys2Proof.Machine.execVdReset v s
  | .vdResetDone v => Sys2Proof.Machine.execVdResetDone v s
  | .vdDestroy v => Sys2Proof.Machine.execVdDestroy v s
  | .vdSign v window => Sys2Proof.Machine.execVdSign v window s
  | .vdcmdBadop v op => Sys2Proof.Machine.execVdcmdBadop v op s
  | .prtoWrite v val => Sys2Proof.Machine.execPrtoWrite v val s
  | .checkpointTick v => Sys2Proof.Machine.execCheckpointTick v s
  | .attestRequest v dpa => Sys2Proof.Machine.execAttestRequest v dpa s
  | .attestReportDone v => Sys2Proof.Machine.execAttestReportDone v s
  | .dlepochWrite v => Sys2Proof.Machine.execDlepochWrite v s
  | .ringHeadWrite v ring val => Sys2Proof.Machine.execRingHeadWrite v ring val s
  | .irqstWrite win val => Sys2Proof.Machine.execIrqstWrite win val s
  | .fabricFrameReceive tag src payload => Sys2Proof.Machine.execFabricFrameReceive tag src payload s
  | .fabricAbortReceive tag => Sys2Proof.Machine.execFabricAbortReceive tag s
  | .chcfgWrite v c val => Sys2Proof.Machine.execChcfgWrite v c val s
  | .fabricGroupWrite g off val => Sys2Proof.Machine.execFabricGroupWrite g off val s
  | .clsregWrite die val => Sys2Proof.Machine.execClsregWrite die val s
  | .pwrcapWrite val => Sys2Proof.Machine.execPwrcapWrite val s
  | .powerCapMeasure power move hfrac => Sys2Proof.Machine.execPowerCapMeasure power move hfrac s
  | .droopDetected core => Sys2Proof.Machine.execDroopDetected core s
  | .droopRecovered core => Sys2Proof.Machine.execDroopRecovered core s
  | .fumctlWrite val => Sys2Proof.Machine.execFumctlWrite val s
  | .fumheadWrite val => Sys2Proof.Machine.execFumheadWrite val s
  | .fumaroleTick busy => Sys2Proof.Machine.execFumaroleTick busy s
  | .traceSample core => Sys2Proof.Machine.execTraceSample core s
  | .dbgHalt v cmd => Sys2Proof.Machine.execDbgHalt v cmd s
  | .dbgRun v cmd => Sys2Proof.Machine.execDbgRun v cmd s
  | .dbgStep v cmd => Sys2Proof.Machine.execDbgStep v cmd s
  | .dbgRdreg v cmd => Sys2Proof.Machine.execDbgRdreg v cmd s
  | .dbgWrreg v cmd => Sys2Proof.Machine.execDbgWrreg v cmd s
  | .dbgBpset v cmd => Sys2Proof.Machine.execDbgBpset v cmd s
  | .dbgBpclr v cmd => Sys2Proof.Machine.execDbgBpclr v cmd s
  | .dbgcmdBadop v cmd => Sys2Proof.Machine.execDbgcmdBadop v cmd s
  | .registerWrite win off val => Sys2Proof.Machine.execRegisterWrite win off val s
  | .storeTakesEffect core id => Sys2Proof.Machine.execStoreTakesEffect core id s
  | .hostWrite dpa bytes => Sys2Proof.Machine.execHostWrite dpa bytes s
  | .bBufferFree core => Sys2Proof.Machine.execBBufferFree core s
  | .currentBelowLimit clear => Sys2Proof.Machine.execCurrentBelowLimit clear s
  | .bkpt => Sys2Proof.Machine.execBkpt s
  | .packageReset => Sys2Proof.Machine.execPackageReset s
  | .hostLinkRetrain => Sys2Proof.Machine.execHostLinkRetrain s
  | .lsRemap => Sys2Proof.Machine.execLsRemap s
  | .lsRecal => Sys2Proof.Machine.execLsRecal s
  | .lsChspare => Sys2Proof.Machine.execLsChspare s
  | .lsFwload => Sys2Proof.Machine.execLsFwload s
  | .lsFwswitch => Sys2Proof.Machine.execLsFwswitch s
  | .lsRebin => Sys2Proof.Machine.execLsRebin s
  | .tlbinvAll => Sys2Proof.Machine.execTlbinvAll s
  | .tlbinvDone => Sys2Proof.Machine.execTlbinvDone s
  | .rflushDone => Sys2Proof.Machine.execRflushDone s
  | .placement => Sys2Proof.Machine.execPlacement s
  | .pmTakeEffect => Sys2Proof.Machine.execPmTakeEffect s
  | .usageIntervalTick => Sys2Proof.Machine.execUsageIntervalTick s
  | .currentLimitExceeded => Sys2Proof.Machine.execCurrentLimitExceeded s

end Sys2Proof.Machine
end

