-- ==== Sys2Proof/Machine/Reads.lean ====
section
/-! DEFINITION. What the host reads in the package management window and in the window of a virtual
device (12 R332); a read changes nothing. Reserved offsets read zero. -/

namespace Sys2Proof.Machine

/-- CTXSTAT (11 R304). -/
def State.ctxstat (s : State) (c : Nat) : Nat :=
  let x := s.ctx c
  let st := match x.st with
    | .free => 0 | .idle => 1 | .active => 2 | .draining => 3 | .saving => 4 | .saved => 5 | .stopped => 6 | .restoring => 7
  let reason := match x.reason with
    | .none => 0 | .fault => 1 | .restoreReject => 2 | .restoreNocore => 3 | .saveovf => 4
  packBits [(0, st), (11, x.auto.toNat), (12, (x.halted || s.anyHalted c).toNat), (13, x.image.toNat), (14, x.dbgVd.isSome.toNat),
    (15, x.edited.toNat), (20, reason), (32, (x.code.map FCode.code).getD 0), (40, x.sub.toNat)]

/-- WQSTAT (09 R255). -/
def Queue.stat (q : Queue) : Nat :=
  packBits [(0, match q.st with | .disabled => 0 | .active => 1 | .error => 2), (8, q.code.toNat)]

/-- VDSTAT (12 R319). -/
def VDev.stat (d : VDev) : Nat := packBits [(0, d.st.code), (6, d.dlpause.toNat), (7, d.ulhold.toNat)]

/-- CAPRF of a CORE (01 R16). -/
def State.caprf (s : State) (core : Nat) : Nat :=
  match s.recPos core with
  | some p => packBits ((List.range 4).map fun q => (8 * q, (s.coreRec (dieOf core) p).banks.getD q 0))
  | none => 0

/-- FABALW of a port (12 R337). -/
def State.fabalw (s : State) (q : Nat) : Nat := ((alGet q s.faballow).getD 0x3FF03FF).toNat

/-- 8 bytes of the identity certificate area (12 R327). -/
def idcert (o : Nat) : Nat :=
  let chain := Config.idCert (fitBytes 32 Config.publicKey)
  fieldAt (leBytes 4 chain.length ++ chain) o 8

/-- A word of a virtual device's register block (12 R319). -/
def VDev.blockRead (d : VDev) (o : Nat) : Nat :=
  match o with
  | 0x00 => d.cmd.toNat | 0x08 => d.stat | 0x10 => d.gen.toNat | 0x14 => d.prto.toNat | 0x18 => d.dlring.toNat
  | 0x20 => d.ulring.toNat | 0x28 => d.pqring.toNat | 0x30 => d.irqaddr.toNat | 0x38 => d.irqdata.toNat | _ => 0

/-- A register of a virtual device's window (12 R332, 13 R350). -/
def VDev.windowRead (d : VDev) (off : Nat) : Nat :=
  match off with
  | 0x0000 => d.stat | 0x0008 => d.gen.toNat | 0x0010 => d.prsp.toNat | 0x0018 => d.pqhead.toNat | 0x001C => d.pqtail.toNat | 0x0020 => d.dlhead.toNat
  | 0x0024 => d.dltail.toNat | 0x0028 => d.ulhead.toNat | 0x002C => d.ultail.toNat | 0x0040 => d.irqst.toNat
  | 0x0048 => d.dbdrop.toNat | 0x2000 => d.dbgctx.toNat | 0x2008 => d.dbgcmd.toNat | 0x2010 => d.dbgdata.toNat
  | 0x2018 => d.trring.toNat | 0x2020 => d.trhead.toNat | 0x2024 => d.trtail.toNat | 0x2028 => d.trsamp.toNat
  | 0x2030 => d.trdrop.toNat
  | _ => if 0x8000 ≤ off then idcert (off - 0x8000) else 0

/-- Single registers of the package management window. -/
def State.pkgRead (s : State) (off : Nat) : Nat :=
  match off with
  | 0x10800 => s.rtstat.toNat | 0x10810 => (s.l2ways.getD 0 0).toNat | 0x10818 => (s.l2ways.getD 1 0).toNat
  | 0x10820 => s.tlbinva.toNat | 0x10828 => s.tlbinvc.toNat | 0x10830 => s.latepr.toNat
  | 0x10840 => (s.clsreg.getD 0 0).toNat | 0x10848 => (s.clsreg.getD 1 0).toNat | 0x10850 => s.mapgrc.toNat
  | 0x10858 => s.rflush.toNat | 0x10860 => s.pirqaddr.toNat | 0x10868 => s.pirqdata.toNat | 0x10870 => s.pirqst.toNat
  | 0x10880 => s.lscmd.toNat | 0x10888 => s.lsarg.toNat | 0x30200 => s.pmctl.toNat
  | 0x30208 => packBits [(0, s.pmSt.toNat), (8, s.pmCode.toNat), (16, s.closing.toNat)]
  | 0x40000 => s.ctxcmd.toNat | 0x40008 => s.ctxarg.toNat | 0x51000 => s.keycmd.toNat | 0x51008 => s.keyarg.toNat
  | 0x61000 => s.fabid.toNat | 0x61008 => s.fabdrop.toNat | 0xE1000 => s.fumctl.toNat | 0xE1008 => s.fumtail.toNat
  | 0xE1010 => s.fumhead.toNat | 0xE1018 => s.fumdrop.toNat | 0xE3000 => s.pwrcap.toNat
  | 0xE3008 => packBits [(0, s.ilim.toNat), (8, s.hfrac.toNat), (16, s.pwrStep), (32, s.pwr)]
  | _ => 0

/-- An event counter's register. -/
def EvCtr.read (e : EvCtr) (o : Nat) : Nat := if o % 16 = 0 then e.sel.toNat else e.cnt.toNat

/-- The register at an aligned offset of the package management window. -/
def State.mgmtRead (s : State) (off : Nat) : Nat :=
  if 0x10000 ≤ off ∧ off < 0x10800 then (s.region ((off - 0x10000) / 32)).bits / 2 ^ (8 * (off % 32)) % 2 ^ 64
  else if 0x20000 ≤ off ∧ off < 0x28000 then
    let q := s.queue ((off - 0x20000) / 32)
    match off % 32 with
    | 0x00 => q.ctl.toNat | 0x08 => q.base.toNat | 0x10 => q.head.toNat | 0x14 => q.stat | 0x18 => q.tail.toNat | _ => 0
  else if 0x30000 ≤ off ∧ off < 0x30200 then
    let p := s.part ((off - 0x30000) / 32)
    match off % 32 with
    | 0x00 => p.a.toNat | 0x08 => p.b.toNat | 0x10 => p.na.toNat | _ => p.nb.toNat
  else if 0x48000 ≤ off ∧ off < 0x50000 then s.ctxstat ((off - 0x48000) / 8)
  else if 0x50000 ≤ off ∧ off < 0x51000 then (s.vd ((off - 0x50000) / 64)).blockRead (off % 64)
  else if 0x60000 ≤ off ∧ off < 0x60400 then s.fabalw ((off - 0x60000) / 8)
  else if 0x80000 ≤ off ∧ off < 0x88000 then (s.coll ((off - 0x80000) / 512) ((off - 0x80000) / 8 % 64)).cfg.toNat
  else if 0xC0000 ≤ off ∧ off < 0xD8000 then
    ((s.core ((off - 0xC0000) / 256)).evctr.getD (off % 256 / 16) {}).read off
  else if 0xD8000 ≤ off ∧ off < 0xD8C00 then s.caprf ((off - 0xD8000) / 8)
  else if 0xE0000 ≤ off ∧ off < 0xE0400 then (((s.dieCtr.getD ((off - 0xE0000) / 512) []).getD (off % 512 / 16) {}).read off)
  else if 0xE4000 ≤ off ∧ off < 0xE6000 then (s.queue ((off - 0xE4000) / 8)).censva.toNat
  else if 0xF0000 ≤ off ∧ off < 0xF8000 then idcert (off - 0xF0000)
  else if 0x100000 ≤ off ∧ off < 0x200000 then
    let g := s.fgroup ((off - 0x100000) / 4096)
    let o := off % 4096
    if o = 0 then g.hdr.toNat else if 2048 ≤ o then ((alGet ((o - 2048) / 2) g.ranks).getD 0).toNat else 0
  else s.pkgRead off

/-- A read of a window at an aligned offset. -/
def State.readReg (s : State) (win : Window) (off : Nat) : Nat :=
  match win with
  | .pkg => s.mgmtRead off
  | .vd v => (s.vd v).windowRead off

end Sys2Proof.Machine
end

