-- ==== Sys2Proof/Machine/Sched.lean ====
section
/-! DEFINITION. What one step runs (log 1, 2): the next pass of a clause, an item of the agenda, or,
with an empty agenda, the first thing the part can do on its own. -/

namespace Sys2Proof.Machine

/-! ## The next pass of a clause -/

/-- Whether the clause of a group stands where it stood: its pass waits (08 R241, 07 R211).
DEDUCED (log 61). -/
def State.stalled (s t : State) (c gid : Nat) : Bool :=
  match (s.group? c gid).bind (·.clause), (t.group? c gid).bind (·.clause) with
  | some x, some y => x.pos == y.pos
  | _, _ => false

/-- The next pass of a group's running clause: prepared, executed, and ended if it was cut. A pass
that waits leaves everything as it was. DEDUCED (log 61). -/
def State.runLane (s : State) (c gid : Nat) : Out :=
  match s.prepPass c gid with
  | .done s1 => .next s1
  | .run i s1 left =>
    match exec i s1 with
    | .next s2 => .next (if s1.stalled s2 c gid then s else s2.afterCut c gid left)
    | .fault r => .fault r
    | .refused r => .refused r

/-! ## Passing time (log 12) -/

/-- Time since its first placement that a launch has been able to run, for its watchdog (09 R261, 11 R305).
DEDUCED (log 77). -/
def State.runLaunches (s : State) (ns : Nat) : List Launch :=
  s.launches.map fun l => match l.first, (s.ctx l.ctx).st with
    | some _, .active | some _, .draining | some _, .restoring => { l with run := l.run + ns }
    | _, _ => l

/-- The CCLK cycles that a die makes while time passes: no more than its bin gives it, or the bin that step 3 of
the power cap has gone down to (01 R44, 10 R292). DESIGN CHOICE (log 12). -/
def State.dieCycles (s : State) (ns cycles d : Nat) : Nat :=
  let f := binFnom (min Config.builtFloor (s.cmap.bins.getD d 0 + s.pwrBin))
  min cycles ((s.time + ns) * f / 1000 - s.time * f / 1000)

/-- Groups that are ready now keep the time since when they have been (09 R269). -/
def State.stampReady (s : State) : State :=
  s.allGroups.foldl (fun t (c, gid, g) =>
    let since := if g.clause.isNone && s.ready c gid then some (g.readyAt.getD s.time) else none
    if since = g.readyAt then t else t.modGroup c gid fun g => { g with readyAt := since }) s

/-- A core over `n` nominal cycles: a stretched one makes half of them (13 R342, R354).
DESIGN CHOICE (log 12, 103). -/
def Core.elapse (k : Core) (n : Nat) : Core :=
  let lost := if k.stretched then n - n / 2 else 0
  { k with slow := k.slow + lost
           evctr := k.evctr.map fun e => (e.hit 1 (n - lost) none).hit 0x16 (if k.stretched then n - lost else 0) none }

/-- Package time and the clocks advance. DESIGN CHOICE (log 12). -/
def State.elapse (s0 : State) (ns cycles : Nat) : State :=
  let s := s0.stampReady
  { s with
    time := s.time + ns
    dieClk := s.dieClk.mapIdx fun d n => n + s.dieCycles ns cycles d
    launches := s.runLaunches ns
    cores := s.cores.map fun (c, k) => (c, k.elapse (s.dieCycles ns cycles (dieOf c))) }

/-- The cycles to the next trace sample of any core whose context a sampling virtual device debugs (13 R353). -/
def State.sampleRoom (s : State) : Option Nat :=
  ((s.vdevs.filterMap fun (_, d) => d.samplePeriod).flatMap fun n => s.cores.map fun (c, _) => n - s.clk c % n).foldl
    (fun acc r => some (match acc with | some a => min a r | none => r)) none

/-- How much of some time can pass at once: no Fumarole tick and no trace sample is passed by
(13 R344, R353). -/
def State.chunk (s : State) (ns cycles : Nat) : Nat × Nat :=
  let a := if fumEn s.fumctl then min ns (s.tickAt - s.time) else ns
  let b := if a = ns then cycles else cycles * a / ns
  match s.sampleRoom with
  | some r => if r < b then (min a ((r + 1) / 2), r) else (a, b)
  | none => (a, b)

/-- What falls at this instant, before time passes: a Fumarole tick, or a trace sample. -/
def State.atInstant (s : State) : Option State :=
  if fumEn s.fumctl && decide (s.tickAt ≤ s.time) then
    match execFumaroleTick (Config.freeBit s.free) { s with free := s.free + 1 } with
    | .next t => some t
    | _ => none
  else s.cores.findSome? fun (c, k) => match execTraceSample c s with
    | .next t => if (t.core c).sampled = k.sampled then none else some t
    | _ => none

/-- Time passes, with what falls within it in its place. DESIGN CHOICE (log 12). -/
def State.pass (s : State) (ns cycles : Nat) : State :=
  match s.atInstant with
  | some t => { t with agenda := .elapse ns cycles :: t.agenda }
  | none =>
    let (n, k) := s.chunk ns cycles
    let t := s.elapse n k
    if n = ns ∧ k = cycles then t else { t with agenda := .elapse (ns - n) (cycles - k) :: t.agenda }

/-! ## Errors of the hardware (06 R199, 03 R102; 01 R14) -/

/-- Words added to a list of uncorrectable words. -/
def addOnce {α : Type} [BEq α] (x : α) (l : List α) : List α := if l.contains x then l else x :: l

/-- Slots of a general register become uncorrectable, or a uniform or affine register does for all of its
readers (03 R102). -/
def Group.spoil (g : Group) (n : Nat) (m : Mask) : Group :=
  { g with regs := listMod g.regs n fun r => { r with ue := r.ue ||| match r.shape with | .general _ => m | _ => BitVec.allOnes 32 } }

/-- The stored words of a register that become uncorrectable: the slots of a general one, or the one value of a
uniform or affine one. -/
def Reg.spoiled (r : Reg) (m : Mask) : Nat := match r.shape with | .general _ => slotCount m | _ => if m = 0 then 0 else 1

/-- An error of the register file, counted for every stored word that it makes uncorrectable (03 R102, 13 R342). -/
def State.regError (s : State) (c gid n : Nat) (m : Mask) : State :=
  match (s.group? c gid).bind fun g => g.regs[n]? with
  | none => s
  | some r => if m = 0 then s else (s.modGroup c gid fun g => g.spoil n m).countCore c 0x13 (r.spoiled m) none

/-- An uncorrectable word of an L1. -/
def Core.l1Spoil (k : Core) (p : PA) : Core :=
  { k with l1 := k.l1.map fun w => if w.pa == p then { w with ue := true } else w }

/-! ## Events that only the counters see (13 R342) -/

/-- Sources whose events are times, or corrected errors: they come from outside (log 93), with whether they
carry a class. -/
def coreTimed : List (Nat × Bool) := [(0x3, false), (0x6, true), (0xE, false), (0xF, true), (0x10, true), (0x12, false), (0x14, false)]
def dieTimed : List (Nat × Bool) :=
  [(0x102, false), (0x105, false), (0x106, true), (0x108, false), (0x10B, true), (0x10E, true), (0x10F, false)]

/-- Events of such a source at a core, or at a die, for a context. DESIGN CHOICE (log 93). -/
def State.countTimed (s : State) (die : Bool) (at_ src n : Nat) (ctx : Option Nat) : State :=
  let who (carries : Bool) : Option (Bool × Nat) := if carries then ctx.bind s.carries else none
  match alGet src (if die then dieTimed else coreTimed) with
  | none => s
  | some carries => if die then s.countDie at_ src n (who carries) else s.countCore at_ src n (who carries)

/-! ## The agenda -/

/-- One item of the agenda. DESIGN CHOICE (log 1). DEDUCED (log 115). -/
def State.runItem (s : State) : Sched → Out
  | .ev i => exec i s
  | .lane c gid => s.runLane c gid
  | .elapse ns cycles => .next (s.pass ns cycles)
  | .memError host word =>
    .next ({ s with memUe := addOnce (host, word) s.memUe }.countDie (s.homeDie ⟨host, 4 * word⟩) 0x110 1 none)
  | .scratchError c word => .next ((s.modCore c fun k => { k with scratchUe := addOnce word k.scratchUe }).countCore c 0x15 1 none)
  | .accError c shadow word =>
    .next ((s.modCore c fun k => { k with accUe := addOnce (shadow, word) k.accUe }).countCore c 0x15 1 none)
  | .regError c gid n m => .next (s.regError c gid n m)
  | .hostMemWrite a bs => .next (s.hostPut a bs)
  | .loadWord c id k => .next (s.loadWord c id k)
  | .loadUpper c id => .next (s.loadUpper c id)
  | .race c id => .next (s.loadRace c id)
  | .scramble a b => .next (s.scramble a b)
  | .opChunk c id => .next (s.opChunk c id)
  | .l1Error c host word => .next ((s.modCore c fun k => k.l1Spoil ⟨host, 4 * word⟩).countCore c 0x15 1 none)
  | .tlbError c n => .next (s.modCore c fun k => { k with tlb := k.tlb.eraseIdx n })
  | .l2tlbError n => .next { s with l2tlb := s.l2tlb.eraseIdx n }
  | .walkError n => .next { s with walkCache := s.walkCache.eraseIdx n }
  | .bankFault d p q bank => .next { s with badBanks := addOnce (4 * (200 * d + p) + q, bank) s.badBanks }
  | .counted die at_ src n ctx => .next (s.countTimed die at_ src n ctx)

/-! ## The default order (log 2) -/

/-- Steps that may be due for a group. -/
def Group.due (x : Group) (c g : Nat) : List Instr :=
  let held : List Instr := match x.wait with | .nap .. => [.napWake c g] | .joining .. => [.joinLeaveCopyDone c g] | _ => []
  if x.pend.isEmpty then held else .trapEntry c g :: held

/-- Steps that may be due for the memory accesses of a core. -/
def Core.dueMem (k : Core) (c : Nat) : List (List Instr) :=
  [k.loads.map fun l => .loadDataReturn c l.id false,
   k.atoms.map fun a => if a.red then .reductionTakesEffect c a.id else .atomicResultReturn c a.id,
   k.stores.map fun w => .storeTakesEffect c (2 * w.id),
   (k.l1.filter (·.st == .pending)).map fun w => .storeTakesEffect c (4 * (w.pa.addr / 4) + 2 * w.pa.host.toNat + 1),
   k.fences.map fun f => .fenceComplete c f.id]

/-- Steps that may be due for the engines of a core. -/
def Core.dueOps (k : Core) (c : Nat) : List (List Instr) :=
  [k.lnchs.map fun l => .lnchQueueStep c l.id,
   if k.ops.isEmpty then [] else [.accportOpStart c, .bBufferFree c],
   k.ops.flatMap fun o => [.mmaBConsumed c o.id, .asyncOpFinish c o.id, .asyncOpFault c o.id]]

/-- Steps that may be due for the lanes and the Sinter engines of a core. -/
def Core.dueLanes (k : Core) (c : Nat) : List (List Instr) :=
  [(List.range 64).filterMap fun i => match k.lanes.getD i .free with | .draining _ => some (.cutLaneFree c i) | _ => none,
   if k.groups.isEmpty then [] else (List.range 4).flatMap fun q =>
      [.hClauseCut c q, .sinterSpillDone c q, .sinterRestoreDone c q, .sinterRestore c q]]

/-- Steps that may be due on a core. -/
def Core.due (k : Core) (c : Nat) : List Instr :=
  let first : List (List Instr) := [k.pushes.map fun p => .meetPushDone c p.gid p.slot, k.groups.flatMap fun (g, x) => x.due c g]
  (first ++ k.dueMem c ++ k.dueOps c ++ k.dueLanes c).flatten

/-- The wait conditions and the take of a queue. -/
def Queue.due (x : Queue) (q : Nat) : List Instr :=
  let waits : List Instr := (List.range ((x.cur.map (·.waits.length)).getD 0)).map fun i => .waitCondRead q i
  waits ++ [.packetTake q]

/-- Steps that may be due for a virtual device. -/
def VDev.due (d : VDev) (v : Nat) : List Instr :=
  let late : List Instr := d.reqs.map fun r => .pageRequestTimeout v r.id
  late ++ [.vdStopDone v, .vdResetDone v, .checkpointTick v, .attestReportDone v]

/-- Steps that may be due in the rest of the package. DESIGN CHOICE (log 2). -/
def State.due (s : State) : List Instr :=
  let parts : List (List Instr) :=
    [s.walks.map fun w => .pageWalkComplete w.die w.id,
     s.vdevs.flatMap fun (v, d) => d.due v,
     [.tlbinvDone, .rflushDone, .pmTakeEffect, .usageIntervalTick, .hostLinkRetrain, .fumaroleTick false,
       .dieLossPublish 0, .dieLossPublish 1],
     s.launches.flatMap fun l => [.launchComplete l.id, .watchdogExpiry l.id],
     s.ctxs.flatMap fun (c, _) => [.ctxSaveDone c, .ctxRestoreDone c, .mapDeadlineExpiry c, .timeSliceExpiry c, .autoResume c],
     s.lsops.map fun o => .lsOpComplete o.id true,
     s.queues.flatMap fun (q, x) => x.due q,
     [.placement]]
  parts.flatten

/-- Clauses to issue, and WAITA groups whose time has come. DESIGN CHOICE (log 2). -/
def State.issues (s : State) : List Instr :=
  s.allGroups.flatMap fun (c, g, x) => match x.wait with
    | .waita since => if since < s.time then [.waitaWake c g] else []
    | _ => if x.clause.isNone then [.fullIssue c g, .resumedIssue c g] else []

/-- Whether a step changed more than the model's own counters. -/
def State.moved (s t : State) : Bool := decide ({ t with free := s.free, nextId := s.nextId } ≠ s)

/-- The first of a list of steps that changes the state. DESIGN CHOICE (log 2). -/
def State.firstMove (s : State) : List Instr → Option State
  | [] => none
  | i :: r => match exec i s with
    | .next t => if s.moved t then some t else s.firstMove r
    | _ => s.firstMove r

/-- The first running clause whose next pass can be made. -/
def State.firstPass (s : State) : List (Nat × Nat) → Option State
  | [] => none
  | (c, g) :: r => match s.runLane c g with
    | .next t => if s.moved t then some t else s.firstPass r
    | _ => s.firstPass r

/-- The running clauses, the one that ran last in front. DESIGN CHOICE (log 2). -/
def State.clauses (s : State) : List (Nat × Nat) :=
  s.focus.toList ++ s.allGroups.filterMap fun (c, g, x) => if x.clause.isSome then some (c, g) else none

/-- With nothing listed: a step that is due, else a pass, else an issue, else time passes.
DESIGN CHOICE (log 2). -/
def State.idleStep (s : State) : State :=
  match s.firstMove (s.cores.flatMap (fun (c, k) => k.due c) ++ s.due) with
  | some t => t
  | none => match s.firstPass s.clauses with
    | some t => t
    | none => match s.firstMove s.issues with
      | some t => t
      | none => s.pass 1 2

end Sys2Proof.Machine
end

