-- ==== Sys2Proof/Machine/Step.lean ====
section
/-! DEFINITION. One step of the package, and the state in which it runs a given instruction. -/

namespace Sys2Proof.Machine

/-- One step: the oldest item of the agenda, else what the part does on its own (log 1, 2).
DESIGN CHOICE (log 36). -/
def step (s : State) : Host.Outcome State Fault Refusal :=
  match s.agenda with
  | x :: rest => { s with agenda := rest }.runItem x
  | [] => .next s.idleStep

/-- The instruction of `w` as five words, later words zero, at device address 0x10000 of context 0,
at the last position of a clause of class and length that admit it, which group 0 of core 0 runs with
four active threads; the next step is that clause's pass (log 36). -/
def State.withFetchWord (s : State) (_nbits w : Nat) : State :=
  let code : Nat := 0x10000
  let pc : DWord := 0x10004
  let old := s.core 0
  let cl : Clause := { hdr := 0x10000, cls := (classOf (fld w 24 8)).getD 0, count := 5, pos := 5, pc, next := BitVec.ofNat 64 (0x10008 + 4 * litCount (w % 2 ^ 32)), yld := false,
                       re := false, pa := (false, code), res := List.replicate 4 {}, lane := 0, cmv := s.cmap.cmv }
  let g : Group := { ctx := 0, launch := 0, blk := 0, clause := some cl
                     threads := (List.range 32).map fun i => if i < 4 then { st := .active, pc, tix := BitVec.ofNat 16 i } else {} }
  let b : Block := { id := 0, ctx := 0, launch := 0, bix := 0, bsize := 4, rows := [0], nblk := 1, nstg := 0, stages := [0x10000]
                     cluster := none, fused := false, cls := false, part := 0 }
  let k : Core := { old with
    groups := alSet 0 g old.groups
    blocks := b :: old.blocks.filter (·.id != 0)
    lanes := listMod old.lanes 0 fun _ => .busy 0 0 }
  { s with
    agenda := .lane 0 0 :: s.agenda
    dmem := cellsSet s.dmem (code + 4) (leBytes 20 w)
    memUe := s.memUe.filter fun (h, x) => h || x < 0x4000 || 0x4010 ≤ x
    vdevs := alSet 0 { s.vd 0 with st := .active } s.vdevs
    ctxs := alSet 0 { s.ctx 0 with st := .active, cls := false, vd := 0, part := 0, cmapva := 0x100000 } s.ctxs
    cores := alSet 0 k (s.cores.map fun (c, x) => (c, { x with l1 := x.l1.filter fun y => y.pa.host || y.pa.addr < 0x10000 || 0x10040 ≤ y.pa.addr })) }

end Sys2Proof.Machine
end

