-- ==== Sys2Proof/Safety.lean ====
section
/-! DEFINITION. The terms that the statements use: when a pass completes without a fault or a wait,
what a completed pass leaves, and the canonical form of every memory. -/

namespace Sys2Proof.Machine

/-! ## Memories in canonical form (log 11) -/

/-- Every memory of the package lists rising addresses and no byte that reads as unlisted. -/
def State.memoryWf (s : State) : Bool :=
  Memory.wf s.dmem && Memory.wf s.hmem && s.cores.all fun (_, k) => Memory.wf k.scratch

/-! ## A pass that completes -/

/-- No thread of a group is single-stepped (13 R351). -/
def Group.unstepped (g : Group) : Bool := g.threads.all fun t => !t.stepping

/-- A group with no fault pending and no debugger edit waiting for the end of its clause. -/
def Group.settled (g : Group) : Bool := g.pend.isEmpty && g.debugEdits.isEmpty

/-- A pass that some thread executes, none of the group single-stepped, inside its clause or at its
last position; the last position of a region's last clause is not meant (10 R287), nor one whose
clause ends in a trap entry (11 R296) or a debugger's edit. -/
def Pass.orderly (p : Pass) : Bool :=
  p.ex != 0 && p.g.unstepped
    && (decide (p.cl.pos < p.cl.count) || (p.cl.pos == p.cl.count && !p.cl.re && p.g.settled))

/-- The state after a faultless pass: each executing thread is at an address of its own; after the
last position the clause ends and its lane is free (02 R60). -/
def State.goesTo (s : State) (p : Pass) (i : Instr) (g : Group) (b : BRes) (dest : Nat → DWord) : State :=
  let g1 := g.passed p.cl (lenOf i) p.ex 0 b dest
  if p.cl.pos < p.cl.count then s.setGroup p.core p.gid g1
  else (s.setGroup p.core p.gid { g1 with clause := none, wait := .none, ylast := p.cl.yld }).freeLane p.core p.cl.lane

/-- The state after a faultless pass: every executing thread is at the next word. -/
def State.goesOn (s : State) (p : Pass) (i : Instr) (g : Group) (b : BRes) : State :=
  s.goesTo p i g b fun _ => p.cl.after (lenOf i)

/-- The latch of an instruction that leaves no result in it (03 R86). -/
def Pass.noRes (p : Pass) (i : Instr) : BRes := p.g.noLatch p.cl.res (headOf i) p.ex

/-- The state after a faultless pass that leaves no result in the latch. -/
def State.passes (s : State) (p : Pass) (i : Instr) (g : Group) : State := s.goesOn p i g (p.noRes i)

/-- The state after a pass at which the clause ends early: the threads are at the next word, the group waits and its
lane is free. -/
def State.givesUp (s : State) (p : Pass) (i : Instr) (g : Group) (w : GWait) : State :=
  let g1 := g.passed p.cl (lenOf i) p.ex 0 {} fun _ => p.cl.after (lenOf i)
  (s.setGroup p.core p.gid { g1 with clause := none, wait := w }).freeLane p.core p.cl.lane

/-- The state after a pass at which the clause breaks (02 R62): the threads are at the next word, the
group waits and its lane is free; before the last position the break is counted (13 R342). -/
def State.leaves (s : State) (p : Pass) (i : Instr) (g : Group) (w : GWait) : State :=
  if p.cl.pos < p.cl.count then (s.countCore p.core 7 1 (s.carries p.g.ctx)).givesUp p i g w
  else
    let g1 := g.passed p.cl (lenOf i) p.ex 0 {} fun _ => p.cl.after (lenOf i)
    (s.setGroup p.core p.gid { g1 with clause := none, wait := w, ylast := p.cl.yld }).freeLane p.core p.cl.lane

/-- No operand holds an uncorrectable word, and a uniform-encoded pass reads uniform ones (03 R91). -/
def operandsOk (u : Bool) (vs : List (SVal × Bool)) : Bool :=
  (!u || vs.all fun (v, pair) => v.isUni pair) && vs.all fun (v, _) => v.ue == 0

/-! ## Rows of results -/

/-- What one kind of lane instruction does for each executing thread: where the result goes, what it
reads, the value and the FP exceptions of the thread of a slot from the operands, and when
the thread meets no fault of the instruction's own. -/
structure LaneRow where
  u : Bool := false
  nw : Bool := false
  dst : LDst := .none
  srcs : List (Src × Bool) := []
  preds : List (BitVec 3) := []
  forceUni : Bool := false
  val : Pass → List SVal → Nat → DWord := fun _ _ _ => 0
  exc : Pass → List SVal → Nat → Nat := fun _ _ _ => 0
  good : Pass → List SVal → Nat → Bool := fun _ _ _ => true

/-- The operands of a row as a pass reads them. -/
def Pass.svals (p : Pass) (srcs : List (Src × Bool)) : List SVal := srcs.map fun (a, pair) => p.src a pair

/-- The V registers that a row writes. -/
def LaneRow.regs (r : LaneRow) : List Nat :=
  match r.dst with
  | .v (.v n) wide => if r.nw then [] else if wide then [n.toNat, n.toNat + 1] else [n.toNat]
  | _ => []

def LaneRow.chan (r : LaneRow) : Bool :=
  r.srcs.any (fun (a, _) => a.chan.isSome) || match r.dst with | .v (.q _) _ => true | _ => false

/-- The slot whose operands a thread computes from: the lowest executing one when uniform-encoded. -/
def LaneRow.from_ (r : LaneRow) (p : Pass) (t : Nat) : Nat := if r.u then lowSlot p.ex else t

/-- Whether the pass of a row without channel operands completes for its whole executing set: it is
orderly, no source word is uncorrectable, R91 holds, no enabled FP exception
and no other fault arises, and no MMA has still to read a register it writes. -/
def laneReady (s : State) (p : Pass) (r : LaneRow) : Bool :=
  p.orderly && !r.chan
    && (!(r.u || r.forceUni) || (r.srcs.all (fun (a, pair) => (p.src a pair).isUni pair) && r.preds.all fun q => p.g.predUni q.toNat))
    && r.srcs.all (fun (a, pair) => (p.src a pair).ue == 0)
    && r.regs.all (fun n => !(s.core p.core).bHeld p.gid p.g n)
    && (slotsOf p.ex).all fun t => r.good p (p.svals r.srcs) (r.from_ p t) && !p.g.fpeOf (r.exc p (p.svals r.srcs) (r.from_ p t))

/-- The result of a row for a slot of the executing set. -/
def LaneRow.result (r : LaneRow) (p : Pass) (t : Nat) : DWord := r.val p (p.svals r.srcs) (r.from_ p t)

/-- A register holds the low or high words of a row's results: in every slot when uniform-encoded,
else in the executing slots, the other active threads keeping theirs (02 R58, 03 R92, R93). -/
def LaneRow.holds (r : LaneRow) (p : Pass) (hi : Bool) (old new : Reg) : Prop :=
  ∀ t, t < 32 →
    (p.ex.getLsbD t = true ∨ r.u = true → new.shape.val t = (if hi then (r.result p t).extractLsb' 32 32 else (r.result p t).setWidth 32)
      ∧ new.ue.getLsbD t = false) ∧
    (r.u = false → p.ex.getLsbD t = false → p.g.active.getLsbD t = true → new.shape.val t = old.shape.val t)

/-- The destination after the pass: a V register or pair, a predicate, or nothing. -/
def LaneRow.stored (r : LaneRow) (p : Pass) (g : Group) : Prop :=
  match r.dst with
  | .v (.v n) wide =>
    if r.nw then g = p.g
    else ∃ R H, r.holds p false (p.g.reg n.toNat) R ∧ (wide = true → r.holds p true (p.g.reg (n.toNat + 1)) H) ∧
      g = if wide then (p.g.setReg n.toNat R).setReg (n.toNat + 1) H else p.g.setReg n.toNat R
  | .pred q => ∃ b : Mask, (∀ t, p.ex.getLsbD t = true → b.getLsbD t = ((r.result p t).setWidth 32 != 0#32)) ∧ g = p.g.setPred q.toNat r.u p.ex b
  | _ => g = p.g

/-- The bypass latch that a row leaves (03 R86). -/
def LaneRow.latched (r : LaneRow) (p : Pass) (b : BRes) : Prop :=
  b.exec = p.ex ∧ (r.dst ≠ .none → ∀ t, p.ex.getLsbD t = true → b.lo.val t = (r.result p t).setWidth 32)

/-- FSR after the pass: the exceptions of the executing threads are added (05 R153). -/
def LaneRow.flagged (r : LaneRow) (p : Pass) (f : Word) : Prop :=
  ∀ b, f.getLsbD b = (p.g.fsr.getLsbD b ||
    (decide (b < 5) && (slotsOf p.ex).any fun t => (r.exc p (p.svals r.srcs) (r.from_ p t)).testBit b))

/-- What a completed pass leaves: the destination, FSR, the latch and the clause's position or its
end, every executing thread at the next word; nothing else of the package changes. -/
def LaneRow.completes (i : Instr) (r : LaneRow) (s : State) (p : Pass) : Prop :=
  ∃ g f b, r.stored p g ∧ r.flagged p f ∧ r.latched p b ∧
    exec i s = .next (s.goesOn p i { g with fsr := f } b)

/-! ## The results of the lane instructions, by family -/

/-- The row of an instruction with two sources and a function of their words. -/
def row3 (r : R3) (f : Word → Word → Word) : LaneRow :=
  { u := r.u, nw := r.nw, dst := .v r.d false, srcs := [(r.a, false), (r.b, false)]
    val := fun _ vs t => (f ((sv vs 0).w t) ((sv vs 1).w t)).setWidth 64 }

/-- The row of an instruction whose third source is its destination (04 R116). -/
def row3d (r : R3) (f : Word → Word → Word → Word) : LaneRow :=
  { u := r.u, nw := r.nw, dst := .v r.d false, srcs := [(r.a, false), (r.b, false), (dstSrc r.d, false)]
    val := fun _ vs t => (f ((sv vs 0).w t) ((sv vs 1).w t) ((sv vs 2).w t)).setWidth 64 }

/-- The row of an instruction with one source. -/
def row2 (r : R2) (f : Word → Word) : LaneRow :=
  { u := r.u, nw := r.nw, dst := .v r.d false, srcs := [(r.a, false)], val := fun _ vs t => (f ((sv vs 0).w t)).setWidth 64 }

/-- A number clamped to INT32 (05 R150). -/
def clampS (n : Int) : Word :=
  if n < -2147483648 then 0x80000000 else if 2147483647 < n then 0x7FFFFFFF else BitVec.ofInt 32 n

/-- The integer instructions (15 R393). -/
def intRow : Instr → Option LaneRow
  | .iadd r x => some (row3 r fun a b => if x then clampS (a.toInt + b.toInt) else a + b)
  | .isub r x => some (row3 r fun a b => if x then clampS (a.toInt - b.toInt) else a - b)
  | .imul r => some (row3 r fun a b => BitVec.ofNat 32 (a.toNat * b.toNat))
  | .imulh r x => some (row3 r fun a b =>
      if x then BitVec.ofNat 32 (a.toNat * b.toNat / 2 ^ 32) else BitVec.ofInt 32 (a.toInt * b.toInt / 2 ^ 32))
  | .imad r x =>
    if x then
      some { u := r.u, nw := r.nw, dst := .v r.d true, srcs := [(r.a, false), (r.b, false), (dstSrc r.d, true)]
             val := fun _ vs t => BitVec.ofNat 64 (((sv vs 0).w t).toNat * ((sv vs 1).w t).toNat + ((sv vs 2).dw t).toNat) }
    else some (row3d r fun a b d => BitVec.ofNat 32 (a.toNat * b.toNat + d.toNat))
  | .imin r x => some (row3 r fun a b => if (if x then decide (a.toNat < b.toNat) else decide (a.toInt < b.toInt)) then a else b)
  | .imax r x => some (row3 r fun a b => if (if x then decide (a.toNat < b.toNat) else decide (a.toInt < b.toInt)) then b else a)
  | .iabs r x => some (row2 r fun a => if x then clampS a.toInt.natAbs else BitVec.ofNat 32 a.toInt.natAbs)
  | .idp4 r x => some (row3d r fun a b d =>
      let e (i : Nat) : Int := byteInt x a i * byteInt x b i
      BitVec.ofInt 32 (d.toInt + (e 0 + e 1 + e 2 + e 3)))
  | _ => none

/-- The bit instructions (14 R361, R369 to R371, R374; 16 R416, R421; 17 R442, R455). -/
def bitRow : Instr → Option LaneRow
  | .and_ r => some (row3 r fun a b => a &&& b)
  | .or_ r => some (row3 r fun a b => a ||| b)
  | .xor_ r => some (row3 r fun a b => a ^^^ b)
  | .andn r => some (row3 r fun a b => a &&& ~~~b)
  | .shl r x => some (row3 r fun a n =>
      if x then (if a = 0 then 0 else if 32 ≤ n.toNat then (if a.toInt < 0 then 0x80000000 else 0x7FFFFFFF) else clampS (a.toInt * 2 ^ n.toNat))
      else if 32 ≤ n.toNat then 0 else a <<< n.toNat)
  | .shr r x => some (row3 r fun a n =>
      if x then a.sshiftRight (min n.toNat 31) else if 32 ≤ n.toNat then 0 else a >>> n.toNat)
  | .popc r => some (row2 r fun a => BitVec.ofNat 32 ((List.range 32).filter fun i => a.getLsbD i).length)
  | .clz r => some (row2 r clzW)
  | .brev r => some (row2 r fun a => maskWhere fun i => a.getLsbD (31 - i))
  | .bfi r => some { row3 r (fun a _ => a) with
      srcs := [(r.a, false), (r.b, true)]
      val := fun _ vs t => (bfiW ((sv vs 0).w t) ((sv vs 1).lo.val t) ((sv vs 1).hi.val t)).setWidth 64 }
  | .bfx r x => some (row3 r (bfxW x))
  | .bilv r x => if x then some (row3d r (bilvW true)) else some (row3 r fun a b => bilvW false a b 0)
  | .bdlv r x => some (row3 r (bdlvW x))
  | _ => none

/-- An FP row: the value and the exceptions of one function. -/
def fpRow (r : LaneRow) (f : Pass → List SVal → Nat → Nat × Nat) : LaneRow :=
  { r with val := fun p vs t => BitVec.ofNat 64 (f p vs t).1, exc := fun p vs t => (f p vs t).2 }

def fpRow3 (r : R3) (f : RM → Bool → Nat → Nat → Nat × Nat) : LaneRow :=
  fpRow (row3 r fun a _ => a) fun p vs t => f p.g.rm p.g.ftz ((sv vs 0).w t).toNat ((sv vs 1).w t).toNat

def fpRow2 (r : R2) (f : RM → Bool → Nat → Nat × Nat) : LaneRow :=
  fpRow (row2 r id) fun p vs t => f p.g.rm p.g.ftz ((sv vs 0).w t).toNat

/-- The FP32 instructions (15 R382 to R385, R388, R389). -/
def floatRow : Instr → Option LaneRow
  | .fadd r => some (fpRow3 r NF.f32.fadd)
  | .fsub r => some (fpRow3 r NF.f32.fsub)
  | .fmul r => some (fpRow3 r NF.f32.fmul)
  | .fma r => some (fpRow (row3d r fun a _ _ => a) fun p vs t =>
      NF.f32.fma p.g.rm p.g.ftz ((sv vs 0).w t).toNat ((sv vs 1).w t).toNat ((sv vs 2).w t).toNat)
  | .fmin r => some (fpRow3 r fun _ z => NF.f32.fminmax z false)
  | .fmax r => some (fpRow3 r fun _ z => NF.f32.fminmax z true)
  | .fabs r => some (row2 r fun a => a &&& 0x7FFFFFFF)
  | .fneg r => some (row2 r fun a => a ^^^ 0x80000000)
  | .frcp r => some (fpRow2 r Fun1.rcp.eval)
  | .frsq r => some (fpRow2 r Fun1.rsq.eval)
  | .fsqrt r => some (fpRow2 r Fun1.sqrt.eval)
  | .fex2 r => some (fpRow2 r Fun1.ex2.eval)
  | .flg2 r => some (fpRow2 r Fun1.lg2.eval)
  | .fsin r => some (fpRow2 r Fun1.sin.eval)
  | .fcos r => some (fpRow2 r Fun1.cos.eval)
  | .ftnh r => some (fpRow2 r Fun1.tnh.eval)
  | .frnd r sub => some (fpRow2 r fun m z =>
      frndEval (if sub = 0 then m else if sub = 1 then .rne else if sub = 2 then .rz else if sub = 3 then .rd else .ru) z)
  | .fcls r sub => some (row2 r fun a =>
      BitVec.twoPow 32 (if sub = 0 then NF.f32.classBit a.toNat
        else if sub = 1 then NF.f16.classBit (a.toNat % 2 ^ 16) else NF.bf16.classBit (a.toNat % 2 ^ 16)))
  | _ => none

/-- A packed row: the two halves of every word on their own (16 R419). -/
def packRow (r : LaneRow) (f : Pass → List SVal → Nat → Nat → Nat × Nat) : LaneRow :=
  { r with val := fun p vs t => BitVec.ofNat 64 ((f p vs t 0).1 + 2 ^ 16 * (f p vs t 1).1)
           exc := fun p vs t => (f p vs t 0).2 ||| (f p vs t 1).2 }

/-- The packed 16-bit instructions (16 R419). -/
def packedRow : Instr → Option LaneRow
  | .padd r x => some (two r (packFmt x).fadd)
  | .pmul r x => some (two r (packFmt x).fmul)
  | .pfma r x => some (packRow (row3d r fun a _ _ => a) fun p vs t h =>
      (packFmt x).fma p.g.rm p.g.ftz (half ((sv vs 0).w t) h) (half ((sv vs 1).w t) h) (half ((sv vs 2).w t) h))
  | .pmin r x => some (two r fun _ z => (packFmt x).fminmax z false)
  | .pmax r x => some (two r fun _ z => (packFmt x).fminmax z true)
  | _ => none
where
  two (r : R3) (f : RM → Bool → Nat → Nat → Nat × Nat) : LaneRow :=
    packRow (row3 r fun a _ => a) fun p vs t h => f p.g.rm p.g.ftz (half ((sv vs 0).w t) h) (half ((sv vs 1).w t) h)

/-- A truth value as a result. -/
def bit (b : Bool) : DWord := if b then 1 else 0

/-- The compares and predicates (15 R390, R391; 16 R417, R418; 17 R450, R438). -/
def testRow : Instr → Option LaneRow
  | .itst c x => some
      { u := c.u, dst := .pred c.p, srcs := [(c.a, false), (c.b, false)]
        val := fun _ vs t =>
          let a := (sv vs 0).w t
          let b := (sv vs 1).w t
          bit (relation c.cond.toNat (a == b) (if x then decide (a.toNat < b.toNat) else decide (a.toInt < b.toInt))) }
  | .ftst c => some
      { u := c.u, dst := .pred c.p, srcs := [(c.a, false), (c.b, false)]
        val := fun p vs t =>
          bit (ftstCond c.cond.toNat (NF.f32.flushIn p.g.ftz ((sv vs 0).w t).toNat) (NF.f32.flushIn p.g.ftz ((sv vs 1).w t).toNat))
        exc := fun p vs t =>
          let sig (n : Nat) : Bool := (NF.f32.unpack (NF.f32.flushIn p.g.ftz ((sv vs n).w t).toNat)).isSig
          if sig 0 || sig 1 then exIV else 0 }
  | .plog u op p pa pb => some
      { u, dst := .pred p, preds := if op.toNat = 4 then [pa] else [pa, pb]
        val := fun q _ t =>
          let a := (q.g.pred pa.toNat).bits.getLsbD t
          let b := (q.g.pred pb.toNat).bits.getLsbD t
          bit (if op.toNat = 0 then a && b else if op.toNat = 1 then a || b else if op.toNat = 2 then a != b
            else if op.toNat = 3 then a && !b else !a) }
  | .pval u nw d pa x => some
      { u, nw, dst := .v d false, preds := [pa]
        val := fun q _ t => if (q.g.pred pa.toNat).bits.getLsbD t then (if x then 0xFFFFFFFF else 1) else 0 }
  | .vchk u p a x => some
      { u, dst := .pred p, srcs := [(a, false)]
        val := fun _ vs t => bit (if x then ((sv vs 0).w t).getLsbD t else (sv vs 0).w t != 0) }
  | .selp r p => some
      { u := r.u, nw := r.nw, dst := .v r.d false, srcs := [(r.a, false), (r.b, false)], preds := [p]
        val := fun q vs t => (if (q.g.pred p.toNat).bits.getLsbD t then (sv vs 0).w t else (sv vs 1).w t).setWidth 64 }
  | _ => none

/-- A cross-thread row: never uniform-encoded, its sources 32-bit (17 R435). -/
def crossOf (nw : Bool) (d : Dst) (srcs : List Src) (val : Pass → List SVal → Nat → DWord) : LaneRow :=
  { nw, dst := .v d false, srcs := srcs.map fun a => (a, false), val }

/-- The first slot of a slot's tile. -/
def Pass.base (p : Pass) (t : Nat) : Nat := t / p.g.tile * p.g.tile

/-- The running results of a slot's tile: (slot, result, exceptions of its step). -/
def Pass.running (p : Pass) (stp : BitVec 4) (vs : List SVal) (t : Nat) : List (Nat × Nat × Nat) :=
  prefixes p.g stp.toNat (sv vs 0) (p.tileOf t)

/-- The cross-thread instructions but SSINT (17 R435 to R441, R451; 15 R380; 16 R427, R430, R431). -/
def crossRow : Instr → Option LaneRow
  | .shfx nw d a b => some (crossOf nw d [a, b] fun p vs t =>
      let n := ((sv vs 1).w t).toNat
      ((sv vs 0).w (if n < p.g.tile then p.base t + n else t)).setWidth 64)
  | .shfb nw d a b => some (crossOf nw d [a, b] fun p vs t =>
      let n := ((sv vs 1).w t).toNat
      ((sv vs 0).w (if n < p.g.tile then p.base t + (t % p.g.tile ^^^ n) else t)).setWidth 64)
  | .shfd nw d a b => some (crossOf nw d [a, b] fun p vs t =>
      let n := ((sv vs 1).w t).toNat
      let before := ((p.tileOf t).filter (· < t)).reverse
      ((sv vs 0).w (if n = 0 then t else (before[n - 1]?).getD t)).setWidth 64)
  | .scan nw d a exc stp => some { crossOf nw d [a] (fun p vs t =>
      let at_ (i : Nat) : Nat := (((p.running stp vs t).find? (·.1 == i)).map (·.2.1)).getD 0
      if exc then match ((p.tileOf t).filter (· < t)).getLast? with
        | some i => BitVec.ofNat 64 (at_ i)
        | none => (stepIdent stp.toNat).setWidth 64
      else BitVec.ofNat 64 (at_ t)) with
      exc := fun p vs t => (((p.running stp vs t).find? (·.1 == t)).map (·.2.2)).getD 0 }
  | .redx nw d a stp => some { crossOf nw d [a] (fun p vs t =>
      BitVec.ofNat 64 (((p.running stp vs t).getLast?.map (·.2.1)).getD 0)) with
      exc := fun p vs t => (((p.running stp vs t).find? (·.1 == t)).map (·.2.2)).getD 0 }
  | .vote nw d pa mode => some
      { nw := (match d with | .reg _ => nw | .pred _ => false)
        dst := (match d with | .reg r => .v r false | .pred q => .pred q)
        val := fun p _ t =>
          let e := p.tileOf t
          let on (i : Nat) : Bool := (p.g.pred pa.toNat).bits.getLsbD i
          if mode.toNat = 0 then bit (e.all on)
          else if mode.toNat = 1 then bit (e.any on)
          else if mode.toNat = 2 then BitVec.ofNat 64 (e.foldl (fun n i => if on i then n + 2 ^ (i % p.g.tile) else n) 0)
          else bit (e.all on || e.all fun i => !on i) }
  | .first nw d a last => some (crossOf nw d [a] fun p vs t =>
      ((sv vs 0).w ((if last then (p.tileOf t).getLast? else (p.tileOf t).head?).getD t)).setWidth 64)
  | .rank nw d a sub => some (crossOf nw d (if sub.toNat = 2 then [] else [a]) fun p vs t =>
      let same (i : Nat) : Bool := (sv vs 0).w i == (sv vs 0).w t
      BitVec.ofNat 64 (if sub.toNat = 0 then ((p.tileOf t).filter fun i => decide (i < t) && same i).length
        else if sub.toNat = 1 then ((p.tileOf t).filter same).length
        else ((p.tileOf t).filter (· < t)).length))
  | .elect nw d slot => some (crossOf nw d [] fun p _ t =>
      let e := ((p.tileOf t).head?).getD t
      if slot then BitVec.ofNat 64 (e % p.g.tile) else bit (t == e))
  | _ => none

/-- The moves with one result but CLK's (16 R407 to R410, 14 R360, 17 R443, R449). -/
def moveRow (s : State) : Instr → Option LaneRow
  | .mov r w => some
      { u := r.u, nw := r.nw, dst := .v r.d w, srcs := [(r.a, w)]
        val := fun _ vs t => if w then (sv vs 0).dw t else ((sv vs 0).w t).setWidth 64 }
  | .movs u nw d sr => some { u, nw, dst := .v d (sr64 sr.toNat), val := fun p _ t => s.srVal p u sr.toNat t }
  | .movx u nw d a => some
      { u, nw, dst := .v d false, srcs := [(aregSrc a, false)]
        val := fun p vs t => ((p.g.reg ((sv vs 0).w t).toNat).shape.val t).setWidth 64
        good := fun p vs t =>
          let r := p.g.reg ((sv vs 0).w t).toNat
          decide (((sv vs 0).w t).toNat ≤ 63) && r.ue == 0 && (!u || r.shape.isUni) }
  | .aff nw d a b => some
      { nw, dst := .v d false, srcs := [(a, false), (b, false)], forceUni := true
        val := fun p vs t =>
          ((sv vs 0).w (lowSlot p.ex) + BitVec.ofNat 32 t * (sv vs 1).w (lowSlot p.ex)).setWidth 64 }
  | .unif d w => some
      { dst := .v (.v d) w
        val := fun p _ t => (p.g.srcReg d.toNat w).dw t
        good := fun p _ _ => p.g.unifCheck d.toNat w == none }
  | .shtag nw d a => some
      { nw, dst := .v d false, val := fun p _ _ => BitVec.ofNat 64 (p.g.reg a.toNat).shape.tag }
  | _ => none

/-! ## Lane instructions with a further effect -/

/-- What a completed pass leaves of an instruction that changes more than its destination: `g'` the
group, `post` the rest of the package. -/
def LaneRow.completesWith (i : Instr) (r : LaneRow) (s : State) (p : Pass) (post : State → State) (g' : Group → Group) : Prop :=
  ∃ g f b, r.stored p g ∧ r.flagged p f ∧ r.latched p b ∧ exec i s = .next ((post s).goesOn p i (g' { g with fsr := f }) b)

/-- An instruction that converts: the row of its results, and whether it draws (14 R378; 16 R411 to R413). -/
def convertRow (s : State) : Instr → Option (LaneRow × Bool)
  | .cvt r pair rnd x =>
    let one (p : Pass) (vs : List SVal) (t : Nat) : TR :=
      cvtWord pair.toNat (cvtMode p.g rnd) x p.g.ftz (if rnd = 3 then s.laneDraw p t else 0) ((sv vs 0).w t)
    some ({ row2 r id with val := fun p vs t => (one p vs t).w, exc := fun p vs t => (one p vs t).ex }, rnd == 3)
  | .mxscl nw d a fmt => some
      ({ nw, dst := .v d false, srcs := [(a, false)], good := fun p _ _ => p.g.tile == 32
         val := fun p vs _ => BitVec.ofNat 64 (mxScale (mxBlock p (sv vs 0)) (mxFmt fmt)) }, false)
  | .mxpk nw d a rnd fmt => some
      ({ nw, dst := .v d false, srcs := [(a, false)], good := fun p _ _ => p.g.tile == 32
         val := fun p vs t =>
           let f := mxFmt fmt
           let xs := mxBlock p (sv vs 0)
           let c := mxScale xs f
           let es := xs.mapIdx fun j x => (s.mxpkElem p f rnd.toNat c x j).code
           BitVec.ofNat 64 (if t < f.width then fieldAt (packElems f.width es) (4 * t) 4 else c) }, rnd == 2)
  | .mxupk nw d a fmt => some
      ({ nw, dst := .v d false, srcs := [(a, false)], good := fun p _ _ => p.g.tile == 32
         val := fun _ vs t =>
           let f := mxFmt fmt
           let blk := (List.range f.width).foldr (fun j n => ((sv vs 0).w j).toNat + 2 ^ 32 * n) 0
           BitVec.ofNat 64 (mxDecode f (elemAt f.width blk t) (((sv vs 0).w 31).toNat % 256)) }, false)
  | _ => none

/-- The generators of a pass advance: of every executing thread, or of the lowest when uniform (05 R141). -/
def Group.advance (g : Group) (p : Pass) (u : Bool) : Group :=
  g.modThs (if u then 1#32 <<< lowSlot p.ex else p.ex) fun _ t => { t with srCtr := t.srCtr + 1 }

/-- SSINT's row: the place of a value in the tile's other list (17 R444). -/
def ssintRow (nw : Bool) (d : Dst) (a b : Src) : LaneRow :=
  crossOf nw d [a, b] fun p vs t =>
    match ((p.tileOf t).map fun i => (sv vs 1).w i).findIdx? (· == (sv vs 0).w t) with
    | some j => BitVec.ofNat 64 j
    | none => 0xFFFFFFFF

/-- SSADV after SSINT (17 R444). -/
def Group.ssadvs (g : Group) (p : Pass) (vs : List SVal) : Group :=
  let adv (t : Nat) : Nat := ssAdv ((p.tileOf t).map fun i => ((sv vs 0).w i).toNat) ((p.tileOf t).map fun i => ((sv vs 1).w i).toNat)
  (slotsOf p.ex).foldl (fun g t => g.modTh t fun x => { x with ssadv := BitVec.ofNat 16 (adv t) }) g

/-- MOVSW's row: its operand, refused when the register takes no such value (16 R409, 02 R63). -/
def movswRow (sr : BitVec 7) (a : Src) : LaneRow :=
  let v (vs : List SVal) (t : Nat) : DWord := if sr64 sr.toNat then (sv vs 0).dw t else ((sv vs 0).w t).setWidth 64
  { u := true, srcs := [(a, sr64 sr.toNat)], val := fun _ vs t => v vs t, good := fun _ vs t => srwBad sr.toNat (v vs t) == none }

/-- MOVXW's row (16 R410). -/
def movxwRow (u : Bool) (a : AReg) (b : Src) : LaneRow :=
  { u, dst := .v .zero false, srcs := [(aregSrc a, false), (b, false)], val := fun _ vs t => ((sv vs 1).w t).setWidth 64
    good := fun _ vs t => decide (((sv vs 0).w t).toNat ≤ 63) }

/-- The register that MOVXW names for a thread. -/
def Pass.index (p : Pass) (a : AReg) (t : Nat) : Nat := ((p.src (aregSrc a) false).w t).toNat

/-- The registers after MOVXW, each thread's in slot order, or the one that a uniform-encoded pass names. -/
def Group.indexed (g : Group) (p : Pass) (u : Bool) (a : AReg) (b : Src) : Group :=
  (if u then [lowSlot p.ex] else slotsOf p.ex).foldl (fun g t => g.setReg (p.index a t)
    ((g.reg (p.index a t)).write u false (1#32 <<< t) none fun _ => (p.src b false).w t)) g

/-- QTRY's row: whether a channel holds, or with .W has space for, so many words (16 R426). -/
def qtryRow (s : State) (u : Bool) (pd : BitVec 3) (qn : BitVec 4) (b : Src) (w : Bool) : LaneRow :=
  { u, dst := .pred pd, srcs := [(b, false)]
    good := fun p _ _ => ((s.blockOf p.core p.g).chans.getD qn.toNat {}).valid
    val := fun p vs t =>
      let c := (s.blockOf p.core p.g).chans.getD qn.toNat {}
      bit (decide (((sv vs 0).w t).toNat ≤ if w then c.capacity - c.count else c.count)) }

/-! ## Loads, stores and atomics -/

/-- Whether a unit's address found its place. -/
def ARes.reached : ARes → Bool
  | .at_ .. | .map .. => true
  | _ => false

/-- Whether a unit's address is a place in memory, the scratchpad or the accumulators. -/
def ARes.placed : ARes → Bool
  | .at_ .. => true
  | _ => false

/-- The loads (15 R398, R399): operands, space, bytes, sign extension, acquire. -/
def loadOf : Instr → Option (Ld × LdKind)
  | .ldgB8 m => some (m, { space := .global, n := 1 })
  | .ldgB16 m => some (m, { space := .global, n := 2 })
  | .ldgB32 m => some (m, { space := .global, n := 4 })
  | .ldgB64 m => some (m, { space := .global, n := 8 })
  | .ldgB128 m => some (m, { space := .global, n := 16 })
  | .ldgS8 m => some (m, { space := .global, n := 1, sext := true })
  | .ldgS16 m => some (m, { space := .global, n := 2, sext := true })
  | .ldgAcq m => some (m, { space := .global, n := 4, acq := true })
  | .ldsB8 m => some (m, { space := .scratch, n := 1 })
  | .ldsB16 m => some (m, { space := .scratch, n := 2 })
  | .ldsB32 m => some (m, { space := .scratch, n := 4 })
  | .ldsB64 m => some (m, { space := .scratch, n := 8 })
  | .ldsB128 m => some (m, { space := .scratch, n := 16 })
  | .lda m => some (m, { space := .acc, n := 4 })
  | _ => none

/-- The address operand of a load: a pair in global memory, a word elsewhere. -/
def Pass.loadAddr (p : Pass) (m : Ld) (k : LdKind) : SVal := p.areg m.a (k.space == .global)

/-- The units of a load with what their addresses come to. -/
def State.loadUnits (s : State) (p : Pass) (m : Ld) (k : LdKind) : List (Nat × Mask × ARes) :=
  (unitsOf m.u p.ex).map fun (j, x) => (j, x, s.resolve p k.space .rd (offSw m.off) k.n m.off (p.loadAddr m k) j)

/-- Whether every thread of a load's pass issues. -/
def loadReady (s : State) (p : Pass) (m : Ld) (k : LdKind) : Bool :=
  p.orderly && operandsOk m.u [(p.loadAddr m k, k.space == .global)] && (s.loadUnits p m k).all fun (_, _, r) => r.reached

/-- A load that a unit has outstanding. -/
def Pass.pending (p : Pass) (m : Ld) (k : LdKind) (tok : Option Nat) (id : Nat) : Nat × Mask × ARes → PLoad
  | (j, x, .at_ ea pl) =>
    { id, gid := p.gid, slot := j, mask := x, uni := m.u, tok, space := k.space, acq := k.acq, ea, pa := pl.pa, srcCore := pl.core
      nbytes := k.n, sext := k.sext, dst := m.d.toNat, pc := p.cl.pc, fwd := p.g.fwdBytes x pl }
  | (j, x, .map ea off) =>
    { id, gid := p.gid, slot := j, mask := x, uni := m.u, tok, space := k.space, acq := k.acq, ea, pa := ⟨false, off⟩
      srcCore := p.core, nbytes := k.n, sext := k.sext, dst := m.d.toNat, pc := p.cl.pc, cmap := true }
  | (j, x, _) =>
    { id, gid := p.gid, slot := j, mask := x, uni := m.u, tok, space := k.space, acq := k.acq, ea := 0, pa := ⟨false, 0⟩
      srcCore := 0, nbytes := k.n, sext := k.sext, dst := m.d.toNat, pc := p.cl.pc }

/-- The state with the loads of a pass outstanding. -/
def State.withLoads (s : State) (p : Pass) (m : Ld) (k : LdKind) (tok : Option Nat) : State :=
  { (s.looks p (some (.read, if k.acq then some 4 else none)) (s.loadUnits p m k)).touchAll p (s.loadUnits p m k) with nextId := s.nextId + (s.loadUnits p m k).length }.modCore p.core fun c =>
    { c with loads := c.loads ++ (s.loadUnits p m k).mapIdx fun n u => p.pending m k tok (s.nextId + n) u }

/-- The state in which a load takes its value: at an acquire the unowned words are dropped first (06 R186). -/
def State.readsIn (s : State) (c : Nat) (acq : Bool) : State := if acq then s.l1Acquire (s.l1Of c) else s

/-- Whether a load goes past its L1 (06 R189). -/
def State.past (s : State) (c : Nat) (l : PLoad) : Bool := s.l1Bypassed c (s.loader c l).2

/-- The bytes that an issued load is to find: in an accumulator word, a scratchpad, the map, or global memory
as its L1 and the homes hold it (06 R185). -/
def State.loadBytes (s : State) (c ctx : Nat) (l : PLoad) : List Byte :=
  match l.space with
  | .acc => leBytes 4 (s.accGet c ctx (l.pa.addr / 4)).toNat
  | .scratch => s.scratchGet l.srcCore l.pa.addr l.nbytes
  | .global =>
    if l.cmap then s.mapBytes (s.ctx ctx).vd l.pa.addr l.nbytes
    else if s.past c l then (s.readsIn c l.acq).homeBytes l.pa l.nbytes
    else (List.range l.nbytes).map fun i => ((s.readsIn c l.acq).l1Byte (s.l1Of c) { l.pa with addr := l.pa.addr + i }).1

/-- Whether none of these bytes is uncorrectable, the homes of global ones answer, and an L1 that does not
hold them all holds no older copy of their line. -/
def State.loadGood (s : State) (c ctx : Nat) (l : PLoad) : Bool :=
  match l.space with
  | .acc => !s.accUeAt c ctx (l.pa.addr / 4)
  | .scratch => !s.scratchUeAt l.srcCore l.pa.addr l.nbytes
  | .global =>
    let t := s.readsIn c l.acq
    let h := s.l1Of c
    l.cmap || (l.pa.addr % l.nbytes == 0
      && (s.past c l || t.l1Hit h l.pa l.nbytes
        || !(t.core h).l1.any fun w => w.st == .unowned && w.pa.host == l.pa.host && w.pa.addr / 128 == l.pa.addr / 128)
      && (List.range l.nbytes).all fun i => (s.checkPa (s.ctx ctx).vd { l.pa with addr := l.pa.addr + i }).isNone
        && !(if s.past c l then t.ueByte { l.pa with addr := l.pa.addr + i } else t.l1Bad h { l.pa with addr := l.pa.addr + i }))

/-- Whether the home of every stored word that an L1 has not registered takes it (06 R195). -/
def State.homesOk (s : State) : Bool :=
  s.cores.all fun (_, k) => k.l1.all fun w => w.st != .pending || (s.checkPa (s.ctx w.ctx).vd w.pa).isNone

/-- Whether nothing stands between a load's issue and its value: no earlier access of its threads, no store
of theirs that it would read, no power stop. -/
def State.loadClear (s : State) (c : Nat) (l : PLoad) : Bool :=
  s.homesOk && !s.loadHeld c l
    && ((List.range l.nbytes).all fun i => ((s.core c).fwdByte l i).isNone)
    && (s.core c).loads.all fun x => decide (x.id < l.id)
      && !(x.gid == l.gid && (x.mask &&& l.mask) != 0 && x.data.isNone && x.place.tied c l.place)

/-- A group with the destination registers of a load stored word by word (03 R89). -/
def Group.spreads (g : Group) (m : Ld) (k : LdKind) : Group :=
  (destRegs m.d.toNat k.n).foldl (fun g n => g.setReg n (g.reg n).spread) g

/-- The stores (17 R445, R446): operands, space, bytes. -/
def storeOf : Instr → Option (St × Space × Nat)
  | .stgB8 m => some (m, .global, 1)
  | .stgB16 m => some (m, .global, 2)
  | .stgB32 m => some (m, .global, 4)
  | .stgB64 m => some (m, .global, 8)
  | .stgB128 m => some (m, .global, 16)
  | .stsB8 m => some (m, .scratch, 1)
  | .stsB16 m => some (m, .scratch, 2)
  | .stsB32 m => some (m, .scratch, 4)
  | .stsB64 m => some (m, .scratch, 8)
  | .stsB128 m => some (m, .scratch, 16)
  | .sta m => some (m, .acc, 4)
  | _ => none

/-- The operand of a store at an index: the address, the data, the second pair of a quad. -/
def Pass.storeOp (p : Pass) (m : St) (sp : Space) (n k : Nat) : SVal :=
  ((storeSrcs m sp n p).map (·.1)).getD k (.ofShape (.uniform 0))

/-- The units of a store with what their addresses come to. -/
def State.storeUnits (s : State) (p : Pass) (m : St) (sp : Space) (n : Nat) : List (Nat × Mask × ARes) :=
  (unitsOf m.u p.ex).map fun (j, x) =>
    (j, x, s.resolve p sp .wr (if sp == .scratch then m.t.toNat else 0) n m.off (p.storeOp m sp n 0) j)

/-- The parts of a store: threads, place, bytes, in the order of the units and of the addresses. -/
def State.storedParts (s : State) (p : Pass) (m : St) (sp : Space) (n : Nat) : List (Mask × Place × List Byte) :=
  placedParts n (p.storeOp m sp n 1) (p.storeOp m sp n 2) (s.storeUnits p m sp n)

/-- Whether every thread of a store's pass stores: the operands are good, every address has its place
and a region's buffer has room (07 R221). -/
def storeReady (s : State) (p : Pass) (m : St) (sp : Space) (n : Nat) : Bool :=
  p.orderly && operandsOk m.u (storeSrcs m sp n p) && (s.storeUnits p m sp n).all (fun (_, _, r) => r.placed)
    && !(sp == .global && match p.g.region with | some r => decide (256 ≤ r.storeCount) | none => false)

/-- The parts of a store issue. -/
def State.withStores (s : State) (p : Pass) (m : St) (sp : Space) (parts : List (Mask × Place × List Byte)) : State :=
  s.issueStores p.core p.g.ctx p.g.launch p.gid p.cl.pc (sp == .global && m.t.getLsbD 0) (sp == .global && m.t.getLsbD 1) parts

/-- The homes of the parts of a store mark the context's TDM (01 R34). -/
def State.touchParts (s : State) (p : Pass) (parts : List (Mask × Place × List Byte)) : State :=
  parts.foldl (fun s (_, pl, _) => s.touchPlace p pl) s

/-- A group with the stores of a pass in its region's buffer (07 R221). -/
def Group.buffers (g : Group) (p : Pass) (m : St) (parts : List (Mask × Place × List Byte)) : Group :=
  { g with region := g.region.map fun r =>
      { r with buffer := r.buffer ++ [.store (m.t.getLsbD 0) (m.t.getLsbD 1) p.cl.pc (parts.map fun (x, pl, bs) => (x, pl.pa, bs))] } }

/-- The atomics and reductions (14 R362, R364; 16 R428): operands, whether global, whether a reduction. -/
def atomOf : Instr → Option (Atm × Bool × Bool)
  | .atg m => some (m, true, false)
  | .ats m => some (m, false, false)
  | .redg m => some (m, true, true)
  | .reds m => some (m, false, true)
  | _ => none

/-- The operand of an atomic at an index: the address, D, the swap operand of CAS. -/
def Pass.atomOp (p : Pass) (m : Atm) (glob : Bool) (k : Nat) : SVal :=
  ((atomSrcs m glob p).map (·.1)).getD k (.ofShape (.uniform 0))

/-- The units of an atomic with what their addresses come to. -/
def State.atomUnits (s : State) (p : Pass) (m : Atm) (glob : Bool) : List (Nat × Mask × ARes) :=
  (unitsOf m.u p.ex).map fun (j, x) => (j, x, s.resAtom m glob p (p.atomOp m glob 0) j)

/-- Whether every thread of an atomic's pass issues; inside a region none does (10 R286). -/
def atomReady (s : State) (p : Pass) (m : Atm) (glob : Bool) : Bool :=
  p.orderly && p.g.region.isNone && operandsOk m.u (atomSrcs m glob p) && (s.atomUnits p m glob).all fun (_, _, r) => r.placed

/-- An atomic that a unit has outstanding. -/
def Pass.atomic (p : Pass) (m : Atm) (glob red : Bool) (id : Nat) : Nat × Mask × ARes → PAtom
  | (j, x, r) =>
    let (ea, pl) : DWord × Place := match r with | .at_ ea pl => (ea, pl) | _ => (0, ⟨.global, 0, ⟨false, 0⟩, 0⟩)
    let val (k : Nat) : DWord := if m.w then (p.atomOp m glob k).dw j else ((p.atomOp m glob k).w j).setWidth 64
    { id, ctx := p.g.ctx, launch := p.g.launch, gid := p.gid, slot := j, mask := x, uni := m.u, red, space := if glob then .global else .scratch, aop := m.aop, w := m.w
      ea, pa := pl.pa, tgtCore := pl.core, opnd := val 1, swap := val 2, dst := m.d.toNat, pc := p.cl.pc }

/-- The bytes of a place as its home or its scratchpad holds them. -/
def State.placeBytes (s : State) (pl : Place) : List Byte :=
  match pl.space with
  | .global => s.homeBytes pl.pa pl.n
  | _ => s.scratchGet pl.core pl.pa.addr pl.n

/-- Whether nothing stands between an atomic's issue and its event: no earlier access of its threads, no
uncorrectable word, and for a global one a home that answers, no stored word of its line in an L1, no
dirty log and no power stop. -/
def State.atomClear (s : State) (c : Nat) (a : PAtom) : Bool :=
  s.homesOk && !(s.core c).atomBlocked c a && (s.core c).atoms.all (fun x => decide (x.id < a.id))
    && (s.core c).loads.all (fun x => !(x.gid == a.gid && (x.mask &&& a.mask) != 0 && x.data.isNone && x.place.tied c a.place))
    && match a.space with
      | .global => a.pa.addr % a.nbytes == 0 && (s.checkPa (s.ctx a.ctx).vd a.pa).isNone && !s.hbmStopped a.ctx a.pa
        && !s.ueBytes a.pa a.nbytes && (s.vdevs.all fun (_, d) => !ringEn d.dlring)
        && s.cores.all fun (_, k) => k.l1.all fun w =>
          w.st == .unowned || w.pa.host != a.pa.host || w.pa.addr / 128 != a.pa.addr / 128
      | _ => !s.scratchUeAt a.tgtCore a.pa.addr a.nbytes

/-- The state with the atomics of a pass outstanding. -/
def State.withAtoms (s : State) (p : Pass) (m : Atm) (glob red : Bool) : State :=
  { (s.looks p (some (.rmw, none)) (s.atomUnits p m glob)).touchAll p (s.atomUnits p m glob) with nextId := s.nextId + (s.atomUnits p m glob).length }.modCore p.core fun c =>
    { c with atoms := c.atoms ++ (s.atomUnits p m glob).mapIdx fun n u => p.atomic m glob red (s.nextId + n) u }

/-- The units of a load, store, atomic or reduction with what their addresses come to, and whether its pass gets as
far as the addresses: the operands are good, the token has room for the units and the region's buffer for the store. -/
def State.accessUnits (s : State) (p : Pass) (i : Instr) : Option (Bool × List (Nat × Mask × ARes)) :=
  match loadOf i, storeOf i, atomOf i with
  | some (m, k), _, _ => some (operandsOk m.u [(p.loadAddr m k, k.space == .global)]
      && (decide (6 ≤ m.t.toNat) || decide (p.g.tokens.getD m.t.toNat 0 + chanWords m.u p.ex ≤ 255)), s.loadUnits p m k)
  | _, some (m, sp, n), _ => some (operandsOk m.u (storeSrcs m sp n p)
      && !(sp == .global && match p.g.region with | some r => decide (256 ≤ r.storeCount) | none => false), s.storeUnits p m sp n)
  | _, _, some (m, glob, _) => some (operandsOk m.u (atomSrcs m glob p), s.atomUnits p m glob)
  | _, _, _ => none

/-! ## Waiting, engines and transfers -/

/-- The state after a pass that gives up its lane, which is no break (17 R456). -/
def State.yields (s : State) (p : Pass) (i : Instr) : State :=
  if p.cl.pos < p.cl.count then s.givesUp p i p.g .none else s.leaves p i p.g .none

/-- The state after a clause breaks with its threads on the instruction: the group waits and its lane
is free (02 R62). -/
def State.stays (s : State) (p : Pass) (w : GWait) : State :=
  ((s.countCore p.core 7 1 (s.carries p.g.ctx)).setGroup p.core p.gid { p.g with clause := none, wait := w }).freeLane p.core p.cl.lane

/-- The units of a WAITA with what their addresses come to. -/
def State.waitUnits (s : State) (p : Pass) (u : Bool) (a : Src) : List (Nat × Mask × ARes) :=
  (unitsOf u p.ex).map fun (j, m) => (j, m, s.resGlobal p .rd 4 ((p.src a true).dw j))

/-- The word that a WAITA read for a slot. -/
def wordOf (rs : List (Nat × Mask × WRead)) (t : Nat) : Word :=
  match rs.find? (·.1 == t) with
  | some (_, _, .word w) => w
  | _ => 0

/-- WAITA's row: the words that its units read. -/
def waitaRow (u nw : Bool) (d : Dst) (a : Src) (rs : List (Nat × Mask × WRead)) : LaneRow :=
  { u, nw, dst := .v d false, srcs := [(a, true), (dstSrc d, false)], val := fun _ _ t => (wordOf rs t).setWidth 64 }

/-- Whether every unit of a WAITA read a word that meets its condition (17 R452). -/
def waitaMet (p : Pass) (d : Dst) (cond : BitVec 3) (rs : List (Nat × Mask × WRead)) : Bool :=
  rs.all fun (j, _, r) => match r with
    | .word w => condHolds cond.toNat w ((p.src (dstSrc d) false).w j)
    | _ => false

/-- The words that the units of a WAITA read. -/
def waitaGot (rs : List (Nat × Mask × WRead)) : List (Nat × Mask × Word) :=
  rs.filterMap fun (j, m, r) => match r with | .word w => some (j, m, w) | _ => none

/-- The engine operations with a parameter block (08 R226): their operand and operation. -/
def asyncOf : Instr → Option (Src × EOp)
  | .cpy a => some (a, .cpy)
  | .gath a => some (a, .gath)
  | .mma a => some (a, .mma)
  | .adrn a => some (a, .adrn)
  | .coll a => some (a, .coll)
  | _ => none

/-- The row of an engine instruction's operand: uniform-encoded, no destination. -/
def asyncRow (a : Src) : LaneRow := { u := true, srcs := [(a, false)] }

/-- The operand of a pass as its lowest thread reads it. -/
def Pass.word (p : Pass) (a : Src) : Word := (p.src a false).w (lowSlot p.ex)

/-- Where the block that a register names lies: 64 bytes of the own core's scratchpad (08 R226; 15 R402). -/
def State.blockPlace (s : State) (p : Pass) (a : Src) : Place :=
  ⟨.scratch, p.core, ⟨false, (s.blockOf p.core p.g).local ((p.word a).toNat % 2 ^ 24)⟩, 64⟩

/-- The parameter block of an engine instruction. -/
def State.params (s : State) (p : Pass) (a : Src) : List Byte := (s.readBlock p (s.blockPlace p a)).1

/-- The state once a parameter block has been read: the threads' earlier loads of it have their values (07 R216). -/
def State.blockRead (s : State) (p : Pass) (a : Src) : State := (s.readBlock p (s.blockPlace p a)).2

/-- Whether an engine operation passes every check of 08 R227 and finds its resources (R229). -/
def asyncReady (s : State) (p : Pass) (a : Src) (op : EOp) : Bool :=
  let b := s.blockOf p.core p.g
  let addr := (p.word a).toNat % 2 ^ 24
  let ps := s.params p a
  let t := s.blockRead p a
  laneReady s p (asyncRow a) && (op != .coll || p.g.region.isNone)
    && addr % 64 == 0 && inAlloc b.rows.length addr 64
    && !s.storeHeld p.core p.gid p.ex (s.blockPlace p a)
    && !t.scratchUeAt p.core (b.local addr) 64 && asyncFields t (s.ctx p.g.ctx).vd op ps && asyncAligned op ps
    && asyncExtents op ps b.rows.length && asyncTiles op ps (t.accTiles p.g.ctx)
    && (op != .mma || (t.core p.core).quartetBound p.g.blk (quartetOf ps))
    && t.hasRoom p.core p.g op (quartetOf ps).toNat && !t.classFaulted p.core p.gid p.g op.cls

/-- Whether an operation draws stochastically (08 R231). -/
def asyncDraws (op : EOp) (ps : List Byte) : Bool := (op == .cpy || op == .adrn) && pf ps 0 8 2 == 2

/-- An accepted operation (08 R227). -/
def State.accepted (s : State) (p : Pass) (op : EOp) (ps : List Byte) (mask : Word) : EngOp :=
  { id := s.nextId, gid := p.gid, op, cls := op.cls, ctx := p.g.ctx, launch := p.g.launch, blk := p.g.blk, pc := p.cl.pc
    st := .accepted, params := ps, mask, bbuf := op == .mma, coll := if op == .coll then collChan ps else 0
    key := if asyncDraws op ps then
        drawKey p.g.seed (BitVec.ofNat 32 (s.blockOf p.core p.g).bix)
          ((p.g.th (lowSlot p.ex)).tix.toNat + 1024 * (p.g.engIdx.toNat + 1))
      else 0 }

/-- The state with an operation accepted. -/
def State.withOp (s : State) (p : Pass) (o : EngOp) : State :=
  (({ s with nextId := s.nextId + 1 } : State).noteThs p.core p.gid p.ex
    { id := o.id, ctx := 0, who := [], kind := .issue p.core o.id }).modCore p.core fun k => { k with ops := k.ops ++ [o] }

/-- A group after one of its operations is accepted: its class counter rises (08 R228). -/
def Group.counts (g : Group) (op : EOp) (draws : Bool) : Group :=
  { g.setCnt op.cls (g.cnt op.cls + 1) with
    bWait := if op == .mma then none else g.bWait
    engIdx := if draws then g.engIdx + 1 else g.engIdx }

/-- The link pair V62:V63 of a set of threads takes the address after the clause (14 R373, R375). -/
def Group.linked (g : Group) (p : Pass) (u : Bool) (m : Mask) : Group :=
  let one (n : Nat) (w : Word) (g : Group) : Group := g.setReg n ((g.reg n).write u (m == p.g.active) m none fun _ => w)
  one 63 (p.cl.next.extractLsb' 32 32) (one 62 (p.cl.next.setWidth 32) g)

/-- The transfers through a register (15 R394, 14 R375, 16 R432): U, the operand, the fault of a wrong
target, whether it needs a LAND bit, whether it links. -/
def jumpOf : Instr → Option (Bool × Src × FCode × Bool × Bool)
  | .jmpr u a => some (u, a, .landing, true, false)
  | .callr u a => some (u, a, .landing, true, true)
  | .ret u => some (u, .v 62, .misalignedPc, false, false)
  | _ => none

/-- The units of such a transfer with what their targets come to. -/
def State.jumpUnits (s : State) (p : Pass) (u : Bool) (a : Src) (mark : FCode) (land : Bool) : List (Nat × Mask × ARes) :=
  (unitsOf u p.ex).map fun (j, m) => (j, m, s.targetAt p ((p.src a true).dw j) mark land)

/-- A group whose threads of a set have exited (15 R381). -/
def Group.exits (g : Group) (m : Mask) : Group := g.modThs m fun _ t => { t with st := .exited }

/-- The block of a pass counts its executing threads as exited (02 R49). -/
def State.exited (s : State) (p : Pass) : State :=
  s.modCore p.core fun k => k.modBlock p.g.blk fun b => { b with exited := b.exited + slotCount p.ex }

/-- No barrier instance of a pass's block is open. -/
def State.barClosed (s : State) (p : Pass) : Prop :=
  ∀ b, (s.core p.core).block? p.g.blk = some b → b.barArrived = 0

/-- The units of a SETM with what the addresses of their pushes come to (17 R439). -/
def State.pushUnits (s : State) (p : Pass) : List (Nat × Mask × ARes) :=
  (unitsOf false p.ex).map fun (t, m) => (t, m, s.pushAt p t)

/-- The state after the clause ends at a JOIN or LEAVE: its threads stay on it until they move (15 R396). -/
def State.joins (s : State) (p : Pass) (i : Instr) (target : Option Nat) (q : Nat) : State :=
  (({ s with nextId := s.nextId + 1 } : State).setGroup p.core p.gid
    { p.g with walkHits := [], walkFaults := [], clause := none
               wait := .joining (p.cl.after (lenOf i)) p.ex target q s.nextId false
               ylast := decide (p.cl.count ≤ p.cl.pos) && p.cl.yld }).freeLane p.core p.cl.lane

/-- A pass at which User faults strike and no context stops: no handler runs, and at the clause's last
position the group has a trap vector (11 R295). -/
def Pass.trappable (p : Pass) : Bool :=
  p.ex != 0 && p.g.unstepped && !p.g.handler
    && (decide (p.cl.pos < p.cl.count)
      || (p.cl.pos == p.cl.count && !p.cl.re && p.g.debugEdits.isEmpty && p.g.trapv != 0))

/-- The state after a pass whose threads all fault: they stay, the faults are pending with the
pass's position, address and FINFO (11 R294 to R297). -/
def State.faulted (s : State) (p : Pass) (i : Instr) (fs : List ThFault) : State :=
  let g1 : Group := { p.g.passed p.cl (lenOf i) 0 (faultMask fs) (p.g.noLatch p.cl.res (headOf i) 0) (fun _ => p.cl.pc) with
    pend := p.g.pend ++ [⟨p.cl.pos, p.cl.pc, finfoWord (headOf i), fs⟩] }
  if p.cl.pos < p.cl.count then s.setGroup p.core p.gid g1
  else (s.setGroup p.core p.gid { g1 with clause := none, wait := .none, ylast := p.cl.yld }).freeLane p.core p.cl.lane

/-- The row of LNCH's operands: uniform-encoded (15 R402). -/
def lnchRow (nw : Bool) (d : Dst) (a b : Src) : LaneRow := { u := true, nw, dst := .v d false, srcs := [(a, false), (b, false)] }

/-- The row of a MOV from a channel: its words in slot order, one for all when uniform-encoded (02 R75). -/
def popRow (s : State) (u nw : Bool) (n : BitVec 6) (q : BitVec 4) : LaneRow :=
  { u, nw, dst := .v (.v n) false
    val := fun p _ t => ((s.popCol p.core (s.blockOf p.core p.g) q.toNat u p.ex 0).w t).setWidth 64 }

/-- The words of a pass pushed into a channel, in slot order (02 R75). -/
def State.pushCol (s : State) (p : Pass) (q : Nat) (u : Bool) (v : SVal) : State :=
  if u then s.push1 p.core p.g.blk q (v.w (lowSlot p.ex))
  else (slotsOf p.ex).foldl (fun s t => s.push1 p.core p.g.blk q (v.w t)) s

/-! ## Tags of results (03 R92) -/

/-- Base and stride of a shape that is not general; a uniform one counts as stride 0. -/
def Shape.parts : Shape → Option (Word × Word)
  | .uniform w => some (w, 0)
  | .affine b d => some (b, d)
  | .general _ => none

/-- A base and stride stored as two sources allow: uniform when both are. DEDUCED (log 15). -/
def Shape.joined (a b : Shape) (base stride : Word) : Shape :=
  if a.tag = 0 ∧ b.tag = 0 then .uniform base else .affine base stride

/-- A group as R467 has it formed, and R79 reassigned: every V register zero and uniform, P0 to P6 false
and uniform. -/
def Group.blank (g : Group) : Prop :=
  (∀ n, n < 64 → g.reg n = { shape := .uniform 0, ue := 0 }) ∧ ∀ n, n < 7 → g.pred n = { bits := 0, uni := true }

end Sys2Proof.Machine
end

