-- ==== Sys2Proof/Certificates/Slice0/Obligations.lean ====
section
/-! DEFINITION. The statements for the provers. A statement about a next state holds for every free
value (log 4); none rests on a value that the model chose unless its docstring says so. -/

open Sys2Proof Sys2Proof.Machine

/-! ## Lane instructions -/

/-- 15 R393; 14 R361, R369 to R371, R374; 16 R416, R421; 17 R442, R455: the integer and bit instructions
complete with the result of their row for each executing thread. -/
def Obligations.IntegersAndBitsComplete : Prop := ∀ (i : Instr) (r : LaneRow) (s : State) (p : Pass),
  (intRow i = some r ∨ bitRow i = some r) → s.pass? = some p → laneReady s p r = true → r.completes i s p

/-- 15 R382 to R385, R388, R389, 16 R419: the FP32 and packed instructions complete, with their
exceptions in FSR; a packed one half by half. -/
def Obligations.FloatsComplete : Prop := ∀ (i : Instr) (r : LaneRow) (s : State) (p : Pass),
  (floatRow i = some r ∨ packedRow i = some r) → s.pass? = some p → laneReady s p r = true → r.completes i s p

/-- 15 R390, R391; 16 R417, R418; 17 R438, R450: the compares and predicates complete. -/
def Obligations.TestsComplete : Prop := ∀ (i : Instr) (r : LaneRow) (s : State) (p : Pass),
  testRow i = some r → s.pass? = some p → laneReady s p r = true → r.completes i s p

/-- 17 R435 to R441, R451; 15 R380; 16 R427, R430, R431: the cross-thread instructions complete, each
tile on its own. -/
def Obligations.CrossThreadComplete : Prop := ∀ (i : Instr) (r : LaneRow) (s : State) (p : Pass),
  crossRow i = some r → s.pass? = some p → laneReady s p r = true → r.completes i s p

/-- 16 R407 to R410, 14 R360, 17 R443, R449: the moves complete. -/
def Obligations.MovesComplete : Prop := ∀ (i : Instr) (r : LaneRow) (s : State) (p : Pass),
  moveRow s i = some r → s.pass? = some p → laneReady s p r = true → r.completes i s p

/-- 14 R378, 16 R411 to R413, 05 R141, 13 R347: CVT, MXSCL, MXPK and MXUPK complete; a stochastic one
advances the generators, and the launch's census counts its executions. -/
def Obligations.ConversionsComplete : Prop := ∀ (i : Instr) (r : LaneRow) (sr : Bool) (s : State) (p : Pass),
  convertRow s i = some (r, sr) → s.pass? = some p → laneReady s p r = true →
    ∃ tc, r.completesWith i s p
      (fun s => s.tally p.g.launch p.cl.pc (headOf i / 2 ^ 24) (if r.u then 1 else slotCount p.ex) tc)
      (fun g => if sr then g.advance p r.u else g)

/-- 17 R444, 16 R409, R410, R426: SSINT, MOVSW, MOVXW and QTRY complete: SSADV, the special register,
the registers that each thread names, and a predicate. -/
def Obligations.SpecialMovesComplete : Prop :=
  (∀ nw d a b (s : State) (p : Pass), s.pass? = some p → laneReady s p (ssintRow nw d a b) = true →
    (ssintRow nw d a b).completesWith (.ssint nw d a b) s p id fun g => g.ssadvs p (p.svals [(a, false), (b, false)])) ∧
  (∀ sr a (s : State) (p : Pass), s.pass? = some p → laneReady s p (movswRow sr a) = true →
    (movswRow sr a).completesWith (.movsw sr a) s p id fun g => g.srWrite sr.toNat ((movswRow sr a).result p (lowSlot p.ex))) ∧
  (∀ u a b (s : State) (p : Pass), s.pass? = some p → laneReady s p (movxwRow u a b) = true →
    (∀ t, t ∈ slotsOf p.ex → (s.core p.core).bHeld p.gid p.g (p.index a t) = false) →
    (movxwRow u a b).completesWith (.movxw u a b) s p id fun g => g.indexed p u a b) ∧
  (∀ u pd qn b w (s : State) (p : Pass), s.pass? = some p → laneReady s p (qtryRow s u pd qn b w) = true → p.g.region = none →
    (qtryRow s u pd qn b w).completes (.qtry u pd qn b w) s p)

/-! ## Loads, stores, atomics -/

/-- 15 R398, R399, 03 R88, R89, 06 R164, R185, 16 R420: a load without a token issues every unit, stores its
destination word by word without changing a value, breaks the clause, and its threads wait; one with a token
goes on and the token counts its units. Each unit's return writes the bytes that its address holds into the
destination, extended, and ends the wait. PFG goes on and changes no byte of memory and no register, and its
L1 form brings the lines of the addresses into the L1. -/
def Obligations.LoadsComplete : Prop :=
  ( (∀ (i : Instr) (m : Ld) (k : LdKind) (s : State) (p : Pass), loadOf i = some (m, k) → 6 ≤ m.t.toNat →
      s.pass? = some p → loadReady s p m k = true → p.g.settled = true →
      exec i s = .next ((s.withLoads p m k none).leaves p i ((p.g.spreads m k).waitThs p.ex .load) .load)) ∧
    (∀ (m : Ld) (k : LdKind) (g : Group) (n t : Nat), t < 32 →
      ((g.spreads m k).reg n).shape.val t = (g.reg n).shape.val t ∧ ((g.spreads m k).reg n).ue = (g.reg n).ue)) ∧
  (∀ (i : Instr) (m : Ld) (k : LdKind) (s : State) (p : Pass),
    loadOf i = some (m, k) → m.t.toNat < 6 → s.pass? = some p → loadReady s p m k = true →
    p.g.tokens.getD m.t.toNat 0 + (s.loadUnits p m k).length ≤ 255 →
      ∃ b : BRes, b.exec = p.ex ∧
        exec i s = .next (({ s.withLoads p m k (some m.t.toNat) with free := s.free + 32 } : State).goesOn p i
          { p.g.spreads m k with tokens := listMod p.g.tokens m.t.toNat (· + (s.loadUnits p m k).length) } b)) ∧
  (let returns (i : Instr) (m : Ld) (k : LdKind) : Prop := ∀ (s : State) (p : Pass) (n : Nat) (u : Nat × Mask × ARes),
      s.pass? = some p → loadReady s p m k = true → p.g.settled = true → (s.loadUnits p m k)[n]? = some u →
      (m.t.toNat < 6 → p.g.tokens.getD m.t.toNat 0 + (s.loadUnits p m k).length ≤ 255) → p.g.regs.length = 64 →
      ((destRegs m.d.toNat k.n).all fun r => decide (r < 64) && !(s.core p.core).bHeld p.gid p.g r) = true →
      let l := p.pending m k (if m.t.toNat < 6 then some m.t.toNat else none) (s.nextId + n) u
      s.loadClear p.core l = true → s.loadGood p.core p.g.ctx l = true →
        ∃ t t' g, exec i s = .next t ∧ exec (.loadDataReturn p.core (s.nextId + n) false) t = .next t' ∧
          t'.group? p.core p.gid = some g ∧ (6 ≤ m.t.toNat → ∀ j, u.2.1.getLsbD j = true → (g.th j).wait = .none) ∧
          ∀ r ∈ destRegs m.d.toNat k.n, ∀ j, j < 32 → (m.u = true ∨ j = u.1) →
            (g.reg r).shape.val j = l.word (s.loadBytes p.core p.g.ctx l) (r - m.d.toNat)
    ∀ m : Ld,
      returns (.ldgB8 m) m { space := .global, n := 1 } ∧ returns (.ldgB16 m) m { space := .global, n := 2 } ∧
      returns (.ldgB32 m) m { space := .global, n := 4 } ∧ returns (.ldgB64 m) m { space := .global, n := 8 } ∧
      returns (.ldgB128 m) m { space := .global, n := 16 } ∧ returns (.ldgS8 m) m { space := .global, n := 1, sext := true } ∧
      returns (.ldgS16 m) m { space := .global, n := 2, sext := true } ∧ returns (.ldgAcq m) m { space := .global, n := 4, acq := true } ∧
      returns (.ldsB8 m) m { space := .scratch, n := 1 } ∧ returns (.ldsB16 m) m { space := .scratch, n := 2 } ∧
      returns (.ldsB32 m) m { space := .scratch, n := 4 } ∧ returns (.ldsB64 m) m { space := .scratch, n := 8 } ∧
      returns (.ldsB128 m) m { space := .scratch, n := 16 } ∧ returns (.lda m) m { space := .acc, n := 4 }) ∧
  (∀ u l1 a off (s : State) (p : Pass),
    s.pass? = some p → p.orderly = true → operandsOk u [(p.areg a true, true)] = true →
      ∃ t : State, exec (.pfg u l1 a off) s = .next (t.passes p (.pfg u l1 a off) p.g) ∧
        (∀ pa, t.homeByte pa = s.homeByte pa) ∧ t.dmem = s.dmem ∧ t.hmem = s.hmem ∧
        (∀ c, (t.core c).scratch = (s.core c).scratch ∧ (t.core c).groups = (s.core c).groups) ∧
        (l1 = true → s.l1Bypassed p.core p.g.launch = false → s.pwrStep < 2 ∨ s.clsOf p.g.ctx = false →
          (s.core (s.l1Of p.core)).l1Held.length + (unitsOf u p.ex).length ≤ Config.l1Lines →
          ∀ j x pa w, (j, x) ∈ unitsOf u p.ex → w < 32 →
            s.translate p.core p.g.ctx p.g.walkHits .rd (wrap 64 (((p.areg a true).dw j).toNat + offGlob off 128)) = .ok pa →
            s.ueByte pa = false → s.ueBytes ⟨pa.host, pa.addr / 128 * 128 + 4 * w⟩ 4 = false →
              ∃ y ∈ (t.core (s.l1Of p.core)).l1, y.pa = ⟨pa.host, pa.addr / 128 * 128 + 4 * w⟩))

/-- 06 R161 to R175, 04 R117, R118, 11 R293 to R295: where a global, a scratchpad and an accumulator access goes, and
how it faults: ALIGN, SCRATCH_RANGE, ACC_RANGE, PAGE, PROT and the faults of the home. A load, store or atomic whose threads
all fault ALIGN stays on its instruction with the faults pending; with another of these the context stops. -/
def Obligations.AddressesFormed : Prop :=
  (∀ (s : State) (p : Pass) k sw n off (v : SVal) i ea pl, s.resolve p .global k sw n off v i = .at_ ea pl →
    ea = BitVec.ofInt 64 ((v.dw i).toNat + offGlob off n) ∧ ea.toNat % n = 0 ∧ pl.n = n ∧ pl.space = .global) ∧
  (∀ (s : State) (p : Pass) k sw n off (v : SVal) i ea pl, s.resolve p .scratch k sw n off v i = .at_ ea pl →
    ea.toNat = swizzle sw (wrap 24 ((v.w i).toNat + offNear off n)) ∧ ea.toNat % n = 0 ∧ pl.space = .scratch ∧
      s.scratchAt p.core (s.blockOf p.core p.g) ea.toNat n = some (pl.core, pl.pa.addr)) ∧
  (∀ (s : State) (p : Pass) k sw n off (v : SVal) i ea pl, s.resolve p .acc k sw n off v i = .at_ ea pl →
    ea.toNat = wrap 24 ((v.w i).toNat + offNear off 1) ∧ s.accOk p.g.ctx ea.toNat = true ∧ pl.pa.addr = 4 * ea.toNat) ∧
  (∀ (s : State) (p : Pass) k sw n off (v : SVal) i, let ea := BitVec.ofInt 64 ((v.dw i).toNat + offGlob off n)
    (ea.toNat % n ≠ 0 → s.resolve p .global k sw n off v i = .bad .align ea) ∧
    (ea.toNat % n = 0 → 2 ^ 56 ≤ ea.toNat → s.resolve p .global k sw n off v i = .bad .page ea) ∧
    (ea.toNat % n = 0 → ea.toNat < 2 ^ 56 → (s.ctx p.g.ctx).inMap ea.toNat = true → k ≠ .rd →
      s.resolve p .global k sw n off v i = .bad .prot ea) ∧
    (ea.toNat % n = 0 → ea.toNat < 2 ^ 56 → (s.ctx p.g.ctx).inMap ea.toNat = false →
      (∀ e, tlbFind ((s.core p.core).tlb ++ p.g.walkHits) p.g.ctx ea.toNat = some e →
        (k.allowed e = false → s.resolve p .global k sw n off v i = .bad .prot ea) ∧
        (∀ f, k.allowed e = true → s.checkPa (s.ctx p.g.ctx).vd (e.pa ea.toNat) = some f → s.resolve p .global k sw n off v i = .bad f ea)) ∧
      (∀ f, s.translate p.core p.g.ctx p.g.walkHits k ea.toNat = .miss → p.g.walkFaults.find? (·.1 == ea.toNat / 4096) = some (ea.toNat / 4096, f) →
        s.resolve p .global k sw n off v i = .bad f ea))) ∧
  (∀ (s : State) (v : Nat) (a : Nat),
    (s.regionAt a = none → s.checkPa v ⟨false, a⟩ = some .prot) ∧
    (∀ r, s.regionAt a = some r → (r.owner.toNat ≠ v → s.checkPa v ⟨false, a⟩ = some .prot) ∧
      (r.owner.toNat = v → s.dieLost ((r.locate a).1 / 8) = true → s.checkPa v ⟨false, a⟩ = some .dieLost) ∧
      (r.owner.toNat = v → s.dieLost ((r.locate a).1 / 8) = false → s.stackLost (r.locate a).1 = true → s.checkPa v ⟨false, a⟩ = some .memLost))) ∧
  (∀ (s : State) (p : Pass) k sw n off (v : SVal) i, let ea := swizzle sw (wrap 24 ((v.w i).toNat + offNear off n))
    (ea % n ≠ 0 → s.resolve p .scratch k sw n off v i = .bad .align (BitVec.ofNat 64 ea)) ∧
    (ea % n = 0 → s.scratchAt p.core (s.blockOf p.core p.g) ea n = none →
      s.resolve p .scratch k sw n off v i = .bad .scratchRange (BitVec.ofNat 64 ea))) ∧
  (∀ (s : State) (p : Pass) k sw n off (v : SVal) i, let ea := wrap 24 ((v.w i).toNat + offNear off 1)
    s.accOk p.g.ctx ea = false → s.resolve p .acc k sw n off v i = .bad .accRange (BitVec.ofNat 64 ea)) ∧
  (∀ (i : Instr) (s : State) (p : Pass) us, s.pass? = some p → s.accessUnits p i = some (true, us) →
    (p.trappable = true → (∀ u ∈ us, ∃ ea, u.2.2 = .bad .align ea) →
      ∃ t g, exec i s = .next t ∧ t.group? p.core p.gid = some g ∧
        g.pend = p.g.pend ++ [⟨p.cl.pos, p.cl.pc, finfoWord (headOf i), badOf us⟩] ∧
        ∀ j, p.ex.getLsbD j = true → (g.th j).pc = (p.g.th j).pc) ∧
    (∀ f : FCode, f ∈ [FCode.scratchRange, .accRange, .page, .prot, .memLost] → p.ex ≠ 0 → p.g.unstepped = true → p.g.handler = false →
      (s.ctx p.g.ctx).st = .active → (s.ctx p.g.ctx).code = none → (∀ u ∈ us, ∃ ea, u.2.2 = .bad f ea) →
        ∃ t, exec i s = .next t ∧ (t.ctx p.g.ctx).st = .saving ∧ (t.ctx p.g.ctx).code = some f ∧ (t.ctx p.g.ctx).stoppc = p.cl.pc))

/-- 17 R445 to R447, 07 R221: a store issues its parts at the places its addresses come to, or joins
them to the buffer of its group's region; its threads go on and nothing else of the group changes. A
streaming one makes its L1 give up its lines, whose homes have to take what they hold. -/
def Obligations.StoresIssue : Prop := ∀ (i : Instr) (m : St) (sp : Space) (n : Nat) (s : State) (p : Pass),
  storeOf i = some (m, sp, n) → s.pass? = some p → storeReady s p m sp n = true →
  (sp = .global → m.t.getLsbD 0 = false → m.t.getLsbD 1 = true → s.homesOk = true) →
    exec i s = .next (if sp = .global ∧ p.g.region.isSome = true then
      (s.looks p none (s.storeUnits p m sp n)).passes p i (p.g.buffers p m (s.storedParts p m sp n))
    else (((s.looks p none (s.storeUnits p m sp n)).touchParts p (s.storedParts p m sp n)).withStores p m sp (s.storedParts p m sp n)).passes p i p.g)

/-- 17 R446: a store changes no byte outside its parts: neither of global memory, while no dirty log is
enabled and the store is not streaming, nor of a scratchpad, nor another accumulator word of its core. -/
def Obligations.StoresFrame : Prop := ∀ (i : Instr) (m : St) (sp : Space) (n : Nat) (s t : State) (p : Pass),
  storeOf i = some (m, sp, n) → s.pass? = some p → storeReady s p m sp n = true → exec i s = .next t →
    (∀ (a : PA), (sp = .global → m.t.getLsbD 1 = false) → (s.vdevs.all fun (_, d) => !ringEn d.dlring) = true →
      (∀ x ∈ s.storedParts p m sp n, x.2.1.space = .global → x.2.1.pa.host = a.host →
        a.addr < x.2.1.pa.addr ∨ x.2.1.pa.addr + x.2.2.length ≤ a.addr) → t.homeByte a = s.homeByte a) ∧
    (∀ (c a : Nat), (∀ x ∈ s.storedParts p m sp n, x.2.1.space = .scratch → x.2.1.core = c →
        a < x.2.1.pa.addr ∨ x.2.1.pa.addr + x.2.2.length ≤ a) →
      cellGet (t.core c).scratch a = cellGet (s.core c).scratch a) ∧
    (∀ (w : Nat), (∀ x ∈ s.storedParts p m sp n, x.2.1.space = .acc → x.2.1.pa.addr / 4 ≠ w) →
      t.accGet p.core p.g.ctx w = s.accGet p.core p.g.ctx w)

/-- 06 R164, R186, 17 R446, 14 R363: a scratchpad store of the own core that nothing of its threads stands
before takes effect at once; a scratchpad atomic is one event: its old value is what the word held, and the
word then holds Op(old, D); an acquire drops every unowned word of the L1. -/
def Obligations.StoresAndAcquiresTakeEffect : Prop :=
  ( ∀ (s : State) (c : Nat) (w : Storer) (a : Nat) (bs : List Byte) (j : Nat), s.memoryWf = true → j < bs.length →
      s.storeHeld c w.gid w.mask ⟨.scratch, c, ⟨false, a⟩, bs.length⟩ = false →
        cellGet ((s.storeScratch c w c a bs).core c).scratch (a + j) = bs.getD j 0) ∧
  (∀ (s t : State) c (a : PAtom) old, s.memoryWf = true → a.space = .scratch →
    s.atomEvent c a = .done old t →
      old = leNat (s.scratchGet a.tgtCore a.pa.addr a.nbytes) ∧
      t.scratchGet a.tgtCore a.pa.addr a.nbytes = leBytes a.nbytes (atomOp a.aop.toNat (8 * a.nbytes) old a.opnd.toNat a.swap.toNat)) ∧
  (∀ (s : State) (c gid : Nat) (m : Mask) (before : Nat) (kind : BitVec 2) (scope : BitVec 3) (fused : Bool),
    fenceAcq kind = true → scopeActs fused scope = true →
      ∀ w ∈ ((s.fenceAct c gid m before kind scope fused).core (s.l1Of c)).l1, w.st ≠ .unowned)

/-- 14 R362 to R365, 16 R428: ATG, ATS, REDG and REDS of every executing thread issue; a reduction's
threads go on, an atomic's wait. Each unit's event then finds old and leaves Op(old, D) at its place, and
that of an atomic writes old into the destination and ends the wait. -/
def Obligations.AtomicsIssue : Prop :=
  (∀ (m : Atm) (s : State) (p : Pass), s.pass? = some p →
    (atomReady s p m true = true → exec (.redg m) s = .next ((s.withAtoms p m true true).passes p (.redg m) p.g)) ∧
    (atomReady s p m false = true → exec (.reds m) s = .next ((s.withAtoms p m false true).passes p (.reds m) p.g)) ∧
    (atomReady s p m true = true → p.g.settled = true →
      exec (.atg m) s = .next ((s.withAtoms p m true false).leaves p (.atg m) (p.g.waitThs p.ex .atomic) .load)) ∧
    (atomReady s p m false = true → p.g.settled = true →
      exec (.ats m) s = .next ((s.withAtoms p m false false).leaves p (.ats m) (p.g.waitThs p.ex .atomic) .load))) ∧
  (let takes (i : Instr) (m : Atm) (glob red : Bool) : Prop := ∀ (s : State) (p : Pass) (n : Nat) (u : Nat × Mask × ARes),
      s.memoryWf = true → s.pass? = some p → atomReady s p m glob = true → (s.atomUnits p m glob)[n]? = some u →
      let a := p.atomic m glob red (s.nextId + n) u
      let old := leNat (s.placeBytes a.place)
      s.atomClear p.core a = true →
      (red = false → p.g.settled = true ∧ p.g.regs.length = 64 ∧
        (a.dests.all fun r => decide (r < 64) && !(s.core p.core).bHeld p.gid p.g r) = true) →
        ∃ t t', exec i s = .next t ∧
          exec (if red then .reductionTakesEffect p.core a.id else .atomicResultReturn p.core a.id) t = .next t' ∧
          t'.placeBytes a.place = leBytes a.nbytes (atomOp a.aop.toNat (8 * a.nbytes) old a.opnd.toNat a.swap.toNat) ∧
          (red = false → ∃ g, t'.group? p.core p.gid = some g ∧ (∀ j, u.2.1.getLsbD j = true → (g.th j).wait = .none) ∧
            ∀ j, j < 32 → (m.u = true ∨ j = u.1) → (g.reg a.dst).shape.val j = BitVec.ofNat 32 old ∧
              (m.w = true → (g.reg (a.dst + 1)).shape.val j = BitVec.ofNat 32 (old / 2 ^ 32)))
    ∀ m : Atm, takes (.atg m) m true false ∧ takes (.ats m) m false false ∧ takes (.redg m) m true true ∧ takes (.reds m) m false true)

/-! ## Fences and waits -/

/-- 15 R387, 07 R207, R221: a FENCE with nothing to wait for acts on the L1 and its threads go on;
otherwise it is outstanding and they wait. Inside a region its release half is recorded. -/
def Obligations.FencesComplete : Prop := ∀ u kind scope (s : State) (p : Pass),
  s.pass? = some p → laneReady s p { u } = true → p.g.redUeMask p.ex = 0 →
    let now := p.g.fenceKind kind
    let g := p.g.recordFence kind scope p.ex
    let needs := (s.core p.core).fenceNeeds p.gid p.ex now
    let idle := s.fenceIdle p.core p.gid p.ex now (scopeActs (p.fused s) scope)
    (idle = true → exec (.fence u kind scope) s =
      .next (((s.setGroup p.core p.gid g).fenceAct p.core p.gid p.ex s.nextId now scope (p.fused s)).passes p (.fence u kind scope) g)) ∧
    (needs.1 = [] → needs.2.1 = [] → needs.2.2 = [] → (s.core p.core).fences = [] → (fenceRel now = true → (s.core p.core).loads = []) →
      (fenceRel now = true → (s.core (s.l1Of p.core)).l1Dirty = false) → idle = true) ∧
    (idle = false → p.g.settled = true → exec (.fence u kind scope) s =
      .next ((({ s with nextId := s.nextId + 1 } : State).modCore p.core fun k => { k with fences := k.fences ++
        [{ id := s.nextId, gid := p.gid, ctx := p.g.ctx, launch := p.g.launch, mask := p.ex, kind := now, scope
           loads := needs.1, atoms := needs.2.1, rels := needs.2.2 }] }).leaves
          p (.fence u kind scope) (g.waitThs p.ex .fence) .load))

/-- 17 R452 to R454, 07 R218, R219: WAITC goes on once at most n operations of its class are outstanding,
and its group waits until then; WAITA goes on once every word read meets its condition. -/
def Obligations.WaitsComplete : Prop :=
  (∀ u a (cls : BitVec 2) (s : State) (p : Pass),
    s.pass? = some p → laneReady s p { u, srcs := [(a, false)], forceUni := true } = true →
    p.g.asyncFaults.find? (·.cls == cls.toNat) = none →
      ((p.g.cnt cls.toNat).toNat ≤ (p.word a).toNat → exec (.waitc u a cls) s =
        .next ((if p.g.globWr.getLsbD cls.toNat then s.l1Acquire (s.l1Of p.core) else s).passes p (.waitc u a cls) p.g)) ∧
      ((p.word a).toNat < (p.g.cnt cls.toNat).toNat → p.g.settled = true →
        exec (.waitc u a cls) s = .next (s.stays p (.waitc cls.toNat (p.word a).toNat)))) ∧
  (∀ u nw d a acq cond (s : State) (p : Pass),
    s.pass? = some p → s.homesOk = true → (s.waitUnits p u a).all (fun (_, _, r) => r.reached) = true →
      let rs := (s.looks p none (s.waitUnits p u a)).waitReads p (s.waitUnits p u a)
      let row := waitaRow u nw d a rs.1
      laneReady s p row = true → waitaMet p d cond rs.1 = true →
        ∃ g b, row.stored p g ∧ row.latched p b ∧
          let t := rs.2.noteWaits p acq (s.waitUnits p u a) (waitaGot rs.1)
          exec (.waita u nw d a acq cond) s = .next ((if acq then
            (t.setGroup p.core p.gid g).l1Acquire (t.l1Of p.core) else t).goesOn p (.waita u nw d a acq cond) g b))

/-! ## Engines -/

/-- 08 R226 to R229, R231, R239, R246: an engine operation that passes every check is accepted with a copy of
its parameter block, its class counter rises, and its threads go on; ACLR is accepted with its tiles; MBIND
binds a quartet, MBIND.N unbinds one that no MMA still reads. The model's choice: a COLL touches the die of its core
(log 59). -/
def Obligations.EnginesAccept : Prop :=
  (let accepts (i : Instr) (a : Src) (op : EOp) : Prop := ∀ (s : State) (p : Pass),
      s.pass? = some p → asyncReady s p a op = true →
        let ps := s.params p a
        let t := s.blockRead p a
        exec i s = .next (((if op = .coll then t.touch p.g.ctx (dieOf p.core) else t).withOp p (t.accepted p op ps 0)).passes
          p i (p.g.counts op (asyncDraws op ps)))
    ∀ a : Src, accepts (.cpy a) a .cpy ∧ accepts (.gath a) a .gath ∧ accepts (.mma a) a .mma ∧ accepts (.adrn a) a .adrn ∧
      accepts (.coll a) a .coll) ∧
  (∀ (a : Src) (s : State) (p : Pass),
    s.pass? = some p → laneReady s p (asyncRow a) = true →
      (p.word a = 0 → exec (.aclr a) s = .next (s.passes p (.aclr a) p.g)) ∧
      (p.word a ≠ 0 → (p.word a).toNat < 2 ^ 16 → (∀ t, t < 16 → (p.word a).getLsbD t = true → t < s.accTiles p.g.ctx) →
        s.hasRoom p.core p.g .aclr 0 = true → s.classFaulted p.core p.gid p.g 2 = false →
        exec (.aclr a) s = .next ((s.withOp p (s.accepted p .aclr [] (p.word a))).passes p (.aclr a) (p.g.counts .aclr false))) ∧
      ((s.core p.core).bindOk p.g.blk (p.word a) = true → exec (.mbind a false) s =
        .next ((s.modCore p.core fun k => k.bind (p.word a)).passes p (.mbind a false)
          (if (quartetMembers (p.word a)).contains p.gid then { p.g with quartet := some (p.word a) } else p.g))) ∧
      ((s.core p.core).quartetBound p.g.blk (p.word a) = true → (s.core p.core).quartetBusy (p.word a) = false →
        exec (.mbind a true) s = .next ((s.modCore p.core fun k => k.unbind (p.word a)).passes p (.mbind a true)
          (if p.g.quartet = some (p.word a) then { p.g with quartet := none } else p.g))))

/-! ## Transfers -/

/-- 14 R373, R375, 04 R120, 15 R394, 16 R432: the threads of BRA and CALL that take the branch go to the target,
the others to the word after the clause; JMPR, CALLR and RET take each thread to its own target; CALL and
CALLR link. -/
def Obligations.TransfersComplete : Prop :=
  (∀ (f : Bra) (call : Bool) (s : State) (p : Pass),
    s.pass? = some p → p.orderly = true → (f.u = true → p.g.predUni f.p.toNat = true) →
      let i : Instr := if call then .call f else .bra f
      let taken := takenOf p f
      let target := p.cl.next + BitVec.ofInt 64 (4 * f.disp.toInt)
      (taken = 0 → exec i s = .next (s.goesTo p i p.g (p.noRes i) fun _ => p.cl.next)) ∧
      (∀ ea pl, taken ≠ 0 → s.codeAt p target .misalignedPc false = .at_ ea pl → (call = true → s.linkHeld p = false) →
        exec i s = .next (((s.tlbMissed p.core p.g.ctx p.g.walkHits [target.toNat]).touchPlace p pl).goesTo p i (if call then p.g.linked p f.u taken else p.g) (p.noRes i)
          fun t => if taken.getLsbD t then target else p.cl.next))) ∧
  (∀ i u a mark land link (s : State) (p : Pass),
    jumpOf i = some (u, a, mark, land, link) → s.pass? = some p → laneReady s p { u, srcs := [(a, true)] } = true →
    (s.jumpUnits p u a mark land).all (fun (_, _, r) => r.placed) = true → (link = true → s.linkHeld p = false) →
      exec i s = .next (((s.looks p none (s.jumpUnits p u a mark land)).touchAll p (s.jumpUnits p u a mark land)).goesTo p i (if link then p.g.linked p u p.ex else p.g) (p.noRes i)
        fun t => (p.src a true).dw (if u then lowSlot p.ex else t)))

/-- 15 R381, 02 R49: the threads of EXIT exit and their block counts them, while others of the group
are active; the last ones take the group with them; in a region they exit at its commit (10 R286). The
model's choice: what the group leaves in flight goes on under a number of no group slot (log 47). -/
def Obligations.ExitsComplete : Prop := ∀ u (s : State) (p : Pass), s.pass? = some p → p.orderly = true →
  (s.core p.core).loading p.gid p.ex = 0 → p.g.dueMask p.ex = 0 →
    (p.g.region = none → s.barClosed p → p.ex ≠ p.g.active →
      exec (.exit u) s = .next ((s.exited p).goesTo p (.exit u) (p.g.exits p.ex) (p.noRes (.exit u)) fun _ => p.cl.pc)) ∧
    (p.g.region = none → s.barClosed p → p.ex = p.g.active → p.cl.pos = p.cl.count → p.g.countersZero = true →
      p.g.holdsState = true → p.g.quartet = none → p.g.asyncFaults = [] →
      let t := (s.exited p).goesTo p (.exit u) (p.g.exits p.ex) (p.noRes (.exit u)) fun _ => p.cl.pc
      exec (.exit u) s = .next ((({ t with nextId := t.nextId + 1 } : State).modCore p.core fun k =>
        ({ k with groups := alDel p.gid k.groups, spills := k.spills.filter (·.gid != p.gid) } : Core).rekey p.gid fun m => [(128 + t.nextId, m)]).tryRetireBlock p.core p.g.blk)) ∧
    (∀ r, p.g.region = some r → exec (.exit u) s = .next (s.goesTo p (.exit u)
      { p.g.exits p.ex with region := some { r with exits := r.exits ||| p.ex } } (p.noRes (.exit u)) fun _ => p.cl.pc))

/-- 02 R65: SETM pushes the old MEET of each thread, whose MEET becomes the target and NEST one more; its
threads wait for the push. A thread whose NEST is 255 raises NEST_OVERFLOW alone and stays as it was, while the
others of the pass commit. -/
def Obligations.SetmCompletes : Prop := ∀ disp (s : State) (p : Pass), s.pass? = some p →
  (p.orderly = true → (s.pushUnits p).all (fun (_, _, r) => r.placed) = true →
    exec (.setm disp) s = .next ((((s.looks p none (s.pushUnits p)).touchAll p (s.pushUnits p)).issuePushes p (s.pushUnits p)).passes p (.setm disp)
      (p.g.modThs p.ex fun _ t => { t with meet := dispTarget p disp, nest := t.nest + 1, wait := .setm, starve := 0 }))) ∧
  (p.g.unstepped = true → p.g.debugEdits = [] → (s.ctx p.g.ctx).st = .active → (s.ctx p.g.ctx).code = none →
    (∀ i, p.ex.getLsbD i = true → (p.g.th i).nest = 255 ∨ (s.pushAt p i).placed = true) →
    (∃ i, p.ex.getLsbD i = true ∧ (p.g.th i).nest = 255) →
      ∃ t g, exec (.setm disp) s = .next t ∧ t.group? p.core p.gid = some g ∧
        (p.g.handler = false → (t.ctx p.g.ctx).code = some .nestOverflow) ∧
        ∀ i, p.ex.getLsbD i = true →
          if (p.g.th i).nest = 255 then
            (g.th i).pc = (p.g.th i).pc ∧ (g.th i).meet = (p.g.th i).meet ∧ (g.th i).nest = (p.g.th i).nest ∧
              (t.core p.core).pushes.filter (fun x => x.gid == p.gid && x.slot == i) = (s.core p.core).pushes.filter (fun x => x.gid == p.gid && x.slot == i)
          else (g.th i).pc = p.cl.after 1 ∧ (g.th i).meet = dispTarget p disp ∧ (g.th i).nest = (p.g.th i).nest + 1 ∧
            ∀ ea pl, s.pushAt p i = .at_ ea pl →
              (⟨p.gid, i, pl.pa, (p.g.th i).meet⟩ : PPush) ∈ (t.core p.core).pushes)

/-- 15 R395, R396: JOIN and LEAVE end the clause; their threads stay on them until they move. -/
def Obligations.JoinAndLeaveEndTheClause : Prop := ∀ (s : State) (p : Pass), s.pass? = some p → p.orderly = true → p.g.settled = true →
  (∀ a, laneReady s p { srcs := [(a, false)], forceUni := true } = true →
    exec (.join a) s = .next (s.joins p (.join a) (some (p.word a).toNat) 7)) ∧
  (∀ q, exec (.leave q) s = .next (s.joins p (.leave q) none q.toNat))

/-- 14 R367, 07 R215: BAR arrives with its threads and its group waits; a barrier whose target is met counts a
generation at once and has no arrivals, and it frees every waiting group of the block unless something that its threads
did before it has still to happen, after which it does. -/
def Obligations.BarrierCompletes : Prop :=
  (∀ a (s : State) (p : Pass), s.pass? = some p → laneReady s p { srcs := [(a, false)], forceUni := true } = true →
    p.g.region = none → p.g.settled = true →
      exec (.bar a) s = .next ((((((s.serveAll p.core p.gid p.ex s.nextId).noteArrival p).modCore p.core fun k => k.modBlock p.g.blk fun b =>
        { b with barTarget := if b.barArrived = 0 then p.word a else b.barTarget, barArrived := b.barArrived + slotCount p.ex }).leaves
          p (.bar a) p.g (.bar p.ex p.cl.pc))).checkBarrier p.core p.g.blk)) ∧
  (∀ (s : State) c bid b, (s.core c).block? bid = some b →
    (b.barTarget = 0 → b.barArrived + b.exited < b.bsize → s.checkBarrier c bid = s) ∧
    (b.barTarget ≠ 0 → b.barArrived < b.barTarget.toNat → s.checkBarrier c bid = s) ∧
    (b.barArrived ≠ 0 → (if b.barTarget = 0 then b.bsize ≤ b.barArrived + b.exited else b.barTarget.toNat ≤ b.barArrived) →
      ((s.checkBarrier c bid).core c).block? bid = some { b with barGen := b.barGen + 1, barTarget := 0, barArrived := 0 } ∧
      ∀ gid g m pc, s.group? c gid = some g → g.blk = bid → g.wait = .bar m pc →
        ((s.checkBarrier c bid).group? c gid).map (·.wait) =
          some (if ((s.checkBarrier c bid).core c).barPending bid = true then .barEnd m else .none)) ∧
    ((s.core c).barPending bid = true → s.releaseBar c bid = s) ∧
    ((s.core c).barPending bid = false → ∀ gid g m, s.group? c gid = some g → g.blk = bid → g.wait = .barEnd m →
      ((s.releaseBar c bid).group? c gid).map (·.wait) = some .none))

/-- 16 R422 to R425, 02 R74, R75: QCFG configures a channel that no rule refuses and QCFG.OFF frees an empty
one; a MOV from a channel takes its words in slot order, one to a channel pushes them. -/
def Obligations.ChannelsComplete : Prop :=
  (∀ qn a (s : State) (p : Pass), s.pass? = some p → p.g.region = none →
    let b := s.blockOf p.core p.g
    let put (c : Chan) : State := s.modCore p.core fun k => k.modBlock p.g.blk fun b => { b with chans := listMod b.chans qn.toNat fun _ => c }
    (laneReady s p { u := true, srcs := [(a, false)] } = true → b.qcfgBad qn.toNat (p.word a).toNat = false →
      exec (.qcfg qn a false) s = .next ((put (chanOf (p.word a).toNat)).passes p (.qcfg qn a false) p.g)) ∧
    (laneReady s p { u := true } = true → ((b.chans.getD qn.toNat {}).valid = false ∨ (b.chans.getD qn.toNat {}).count = 0) →
      exec (.qcfg qn a true) s = .next ((put {}).passes p (.qcfg qn a true) p.g))) ∧
  (∀ u nw (q : BitVec 4) (s : State) (p : Pass), s.pass? = some p → p.g.region = none →
    let b := s.blockOf p.core p.g
    let c := b.chans.getD q.toNat {}
    c.valid = true →
      (∀ n, laneReady s p (popRow s u nw n q) = true → chanWords u p.ex ≤ c.count →
        (s.popCol p.core b q.toNat u p.ex 0).ue = 0 →
        (popRow s u nw n q).completesWith (.mov { u, nw, d := .v n, a := .q q } false) s p
          (fun s => s.popN p.core p.g.blk q.toNat (chanWords u p.ex)) id) ∧
      (∀ a, laneReady s p { u, srcs := [(a, false)] } = true → c.count + chanWords u p.ex ≤ c.capacity →
        ∃ l : BRes, l.exec = p.ex ∧ exec (.mov { u, nw, d := .q q, a } false) s = .next
          ((if nw then s else s.pushCol p q.toNat u (p.src a false)).goesOn p (.mov { u, nw, d := .q q, a } false) p.g l)))

/-- 17 R456, 02 R78, R79, 09 R267, 16 R414, R415: YLD ends its clause and ranks its group last; an offer that
counts moves the group to a needier stage with that stage's reset state; NAP ends its clause and its group
waits for its limit or a wake event. The model's choice: an offer that counts and moves nothing does not rank its group
last (log 53), and which channels and groups count for the need of a stage (log 60). -/
def Obligations.YieldAndNapComplete : Prop :=
  (∀ u (s : State) (p : Pass), s.pass? = some p → p.orderly = true → p.g.settled = true →
    (exec (.yld u false) s = .next ((s.yields p (.yld u false)).modGroup p.core p.gid fun g => { g with ylast := true })) ∧
    (p.g.region = none → p.g.asyncFaults = [] →
      (s.offerCounts p = false → exec (.yld u true) s =
        .next ((s.yields p (.yld u true)).modGroup p.core p.gid fun g => { g with ylast := true })) ∧
      (s.offerCounts p = true → s.reassign p = none → exec (.yld u true) s = .next (s.yields p (.yld u true))) ∧
      (∀ t, s.offerCounts p = true → s.reassign p = some t → (∀ n, 32 ≤ n → n < 64 → (s.core p.core).bHeld p.gid p.g n = false) → exec (.yld u true) s =
        .next ((s.yields p (.yld u true)).modGroup p.core p.gid fun g => g.toStage t ((s.blockOf p.core p.g).stages.getD t 0))))) ∧
  (∀ u a cnt (s : State) (p : Pass), s.pass? = some p → p.g.settled = true →
    laneReady s p { u, srcs := [(a, false)], forceUni := true } = true →
      exec (.nap u a cnt) s = .next (s.leaves p (.nap u a cnt) p.g
        (.nap (if p.word a = 0 then none else some (s.clk p.core + (p.word a).toNat)) cnt (s.mapchg (s.ctx p.g.ctx)))))

/-! ## Traps -/

/-- 17 R448, 14 R372, 11 R294, R295: TRAP, and BKPT without a debug right, fault every executing
thread; under a debug right BKPT halts them at the next word. -/
def Obligations.TrapsFault : Prop := ∀ (s : State) (p : Pass), s.pass? = some p →
  (p.trappable = true → ∀ u n, exec (.trap u n) s = .next (s.faulted p (.trap u n) (faultsOf p.ex .trap 0))) ∧
  (p.trappable = true → (s.ctx p.g.ctx).dbgVd = none → exec .bkpt s = .next (s.faulted p .bkpt (faultsOf p.ex .bkpt 0))) ∧
  (p.orderly = true → (s.ctx p.g.ctx).dbgVd ≠ none → ∃ t g, exec .bkpt s = .next t ∧ t.group? p.core p.gid = some g ∧
    ∀ i, p.ex.getLsbD i = true → (g.th i).halted = true ∧ (g.th i).pc = p.cl.after 1)

/-- 11 R296, R297: a group that waits for nothing takes its trap: the lowest faulting position's
record, the PCs of the handler set saved, and the set at TRAPV in handler mode. -/
def Obligations.TrapEntryTakesTheTrap : Prop := ∀ c gid (s t : State) (g : Group) (f : PassFault),
  s.group? c gid = some g → g.firstFault = some f → s.trapReady c gid g = true → g.dueMask g.active = 0 →
  s.trapWrites c gid g (g.takeTrap f) (slotsOf g.handlerSet) = .ok t →
    exec (.trapEntry c gid) s = .next (t.setGroup c gid (g.takeTrap f)) ∧
    (g.takeTrap f).handler = true ∧ (g.takeTrap f).fpc = f.pc ∧ (g.takeTrap f).finfo = f.finfo ∧ (g.takeTrap f).pend = [] ∧
    (∀ x ∈ f.faults, x.slot < 32 → (g.takeTrap f).fmask.getLsbD x.slot = true) ∧
    ∀ i, i < g.threads.length → i < 32 → g.handlerSet.getLsbD i = true →
      ((g.takeTrap f).th i).pc = g.trapv ∧ (g.takeTrap f).tpc.getD i 0 = (g.th i).pc

/-- 11 R301, 16 R434: RTE records its threads; once the whole handler set has returned every thread of
it is back at its saved PC, one of FMASK that executed RTE.SKIP after the faulting instruction, and the next issue of
the group runs from there. The model's choice: the return is made at that issue, and a NAP or BAR that the trap
interrupted goes on waiting (log 38). -/
def Obligations.RteReturns : Prop :=
  (∀ skip (s : State) (p : Pass), s.pass? = some p → p.orderly = true → p.g.handler = true →
    exec (.rte skip) s = .next (s.goesTo p (.rte skip)
      { p.g.modThs p.ex (fun _ t => { t with starve := 0 }) with
        rteDone := p.g.rteDone ||| p.ex, rteSkip := if skip then p.g.rteSkip ||| p.ex else p.g.rteSkip } (p.noRes (.rte skip)) fun _ => p.cl.pc)) ∧
  (∀ (g : Group) (f : DWord → DWord), (g.returnTrap f).handler = false ∧ (g.returnTrap f).wait = g.savedWait ∧
    ∀ i, i < g.threads.length → g.hset.getLsbD i = true → g.active.getLsbD i = true →
      ((g.returnTrap f).th i).pc = (if g.fmask.getLsbD i && g.rteSkip.getLsbD i then f (g.tpc.getD i 0) else g.tpc.getD i 0)) ∧
  (∀ (s : State) c gid (g : Group), s.group? c gid = some g → g.rteReady = true → s.skipMiss c g = none →
    let h := g.returnTrap (s.insnAfter c g)
    let t := s.setGroup c gid h
    (∀ i, (h.th i).held = false ∧ ((h.th i).st = .active → (h.th i).pc ≠ (h.th i).meet)) →
      s.recompute c gid = t ∧
      (s.mayIssue c gid = true → t.mayIssue c gid = true → ∀ pc p w,
        (t.issueFetch c gid = .hdr pc p w → exec (.fullIssue c gid) s = .next (t.fullAt c gid h pc p w)) ∧
        (t.issueFetch c gid = .mid pc p w → exec (.resumedIssue c gid) s = .next (t.midAt c gid h pc p w))))

/-- 16 R433, 10 R288: RGNA in a region takes its members back to RGPC with the checkpoint, and drops
the region's buffer and deferred exits. -/
def Obligations.RegionAborts : Prop := ∀ u (s : State) (p : Pass) (r : Region), s.pass? = some p → p.orderly = true →
  p.g.region = some r → p.g.restart = false → p.g.handler = false → (s.core p.core).spills.any (fun x => x.gid == p.gid) = false →
    ∃ t g, exec (.rgna u) s = .next t ∧ t.group? p.core p.gid = some g ∧ g.restart = true ∧ g.clause = none ∧
      g.region = some { r with buffer := [], exits := 0 } ∧
      ∀ i, i < g.threads.length → r.members.getLsbD i = true → (g.th i).st = .active ∧ (g.th i).pc = r.rgpc ∧
        ∀ m n, r.ckpt[i]? = some (m, n) → (g.th i).meet = m ∧ (g.th i).nest = n

/-! ## System instructions -/

/-- 14 R376, 01 R29, 16 R404, 15 R402, 09 R266: CMACK of a published version not yet acknowledged sets ACKV and
writes a MAP record; MARK writes trace records; LNCH reads its packet and waits for its queue step, which
writes the packet at WQTAIL and answers 1, or 0 when the queue is full. -/
def Obligations.SystemInstructionsComplete : Prop :=
  (∀ u a (s : State) (p : Pass), s.pass? = some p →
    laneReady s p { u, srcs := [(a, true)], forceUni := true } = true →
      let v := ((p.src a true).dw (lowSlot p.ex)).toNat
      (((s.ctx p.g.ctx).ackv < v ∧ v ≤ s.cmap.cmv) → exec (.cmack u a) s =
        .next (((s.modCtx p.g.ctx fun x => { x with ackv := v }).ulMap p.g.ctx).passes p (.cmack u a) p.g)) ∧
      (¬ ((s.ctx p.g.ctx).ackv < v ∧ v ≤ s.cmap.cmv) → exec (.cmack u a) s = .next (s.passes p (.cmack u a) p.g))) ∧
  (∀ u n (s : State) (p : Pass), s.pass? = some p → p.orderly = true →
    exec (.mark u n) s = .next
      (((unitsOf u p.ex).foldl (fun s (t, _) => s.trace p.core p.gid t 4 n.toNat) s).passes p (.mark u n) p.g)) ∧
  (∀ nw d a b (s : State) (p : Pass), s.pass? = some p → p.g.settled = true →
    p.g.region = none → laneReady s p (lnchRow nw d a b) = true →
      let bl := s.blockOf p.core p.g
      let addr := (p.word a).toNat % 2 ^ 24
      let t := s.blockRead p a
      addr % 64 = 0 → inAlloc bl.rows.length addr 64 = true → s.storeHeld p.core p.gid p.ex (s.blockPlace p a) = false →
      t.scratchUeAt p.core (bl.local addr) 64 = false → (p.word b).toNat < 1024 →
        exec (.lnch nw d a b) s = .next ((({ t with nextId := t.nextId + 1 } : State).modCore p.core fun k => { k with
          lnchs := k.lnchs ++ [{ id := t.nextId, gid := p.gid, mask := p.ex, queue := (p.word b).toNat
                                 packet := s.params p a, dst := lnchDst nw d, pc := p.cl.pc
                                 finfo := finfoWord (headOf (.lnch nw d a b)) }] }).leaves
            p (.lnch nw d a b) (p.g.waitThs p.ex .lnch) .load)) ∧
  (∀ (s : State) ctx (l : PLnch),
    let x := s.queue l.queue
    let v := (s.ctx ctx).vd
    let pa := x.slotPa x.tail.toNat
    let t := (s.touch ctx (s.homeDie pa)).homeWrite (s.workOf ctx) pa l.packet
    x.st = .active → wqOwner x.ctl = v →
      (wqSize x.ctl ≤ x.held → s.queueStep ctx l = .done 0 s) ∧
      (x.held < wqSize x.ctl → s.checkPa v pa = none → s.heldMore t = false → s.hbmHolds (s.clsOf ctx) pa 64 = false →
        s.queueStep ctx l = .done 1 (t.setQueue l.queue { x with tail := x.tail + 1 })))

/-! ## Events: accesses end -/

/-- 06 R185, R187, 14 R363 to R365, 15 R387, R399, 16 R429, 17 R439, R447: the events at which an issued
access returns its data, takes effect or completes. -/
def Obligations.AccessesEnd : Prop := ∀ (s : State) (c id : Nat),
  (∀ l g bs, (s.core c).loads.find? (·.id == id) = some l → s.group? c l.gid = some g → l.data = some (bs, []) →
    (destRegs l.dst l.nbytes).any (fun n => (s.core c).bHeld l.gid g n) = false →
    let s1 := s.modCore c fun k => { k with loads := k.loads.filter (·.id != l.id) }
    (l.tok = none → exec (.loadDataReturn c id false) s =
      .next ((s1.setGroup c l.gid ((g.putLoad l bs []).wakeThs l.mask .load)).sweep c)) ∧
    (∀ t, l.tok = some t → exec (.loadDataReturn c id false) s = .next ((s1.setGroup c l.gid
      ({ g.putLoad l bs [] with tokens := listMod (g.putLoad l bs []).tokens t (· - 1) }.wakeExit (s1.core c) l.gid l.mask)).sweep c))) ∧
  (∀ l, (s.core c).loads.find? (·.id == id) = some l → l.data = none → s.loadHeld c l = false → s.metHeld c l.whose l.place id = false →
    exec (.loadDataReturn c id true) s = .next ((s.serveInOrder c l).sweep c)) ∧
  (∀ a g old t, (s.core c).atoms.find? (fun a => a.id == id && !a.red) = some a → s.group? c a.gid = some g →
    a.dests.any (fun n => (s.core c).bHeld a.gid g n) = false → s.atomEvent c a = .done old t →
    exec (.atomicResultReturn c id) s = .next (((t.dropAtom c id).modGroup c a.gid fun g => g.putOld a old).sweep c)) ∧
  (∀ a old t, (s.core c).atoms.find? (fun a => a.id == id && a.red) = some a → s.atomEvent c a = .done old t →
    exec (.reductionTakesEffect c id) s = .next ((t.dropAtom c id).sweep c)) ∧
  (∀ f, (s.core c).fences.find? (·.id == id) = some f → (s.core c).fenceReady f = true →
    (fenceRel f.kind && s.releaseHeld c f.whose f.id) = false →
    let fused := s.fenceFused c f.gid
    let t := f.whose.foldl (fun s (gid, m) => s.fenceAct c gid m f.id f.kind f.scope fused) s
    (fenceRel f.kind && scopeActs fused f.scope && t.l1Owes (t.l1Of c) f.ctx) = false → exec (.fenceComplete c id) s =
      .next ((f.whose.foldl (fun s (gid, m) => if f.bg then s else (s.modGroup c gid fun g => g.wakeThs m .fence).raiseRed c gid m)
        (t.modCore c fun k => { k with fences := k.fences.filter (·.id != id) })).sweep c)) ∧
  (∀ gid slot x g, (s.core c).pushes.find? (fun x => x.gid == gid && x.slot == slot) = some x → s.group? c gid = some g →
    s.checkPa (s.ctx g.ctx).vd x.pa = none →
    let t := ((s.modCore c fun k => { k with pushes := k.pushes.erase x }).homeWrite (s.workOf g.ctx) x.pa
      (leBytes 8 x.val.toNat)).dropCopies (s.l1Of c) x.pa 8
    s.heldMore t = false → s.hbmHolds (s.clsOf g.ctx) x.pa 8 = false → exec (.meetPushDone c gid slot) s = .next (t.modGroup c gid fun g => g.wakeThs (1#32 <<< slot) .setm)) ∧
  (∀ w, (s.core c).stores.find? (·.id == id) = some w → (s.core c).storeWaits c w = false → s.storeLate c w = false → s.storeStopped c w = false →
    (w.rel = true → (s.l1Release (s.l1Of c)).l1Owes (s.l1Of c) w.ctx = false) →
    let t := (s.applyStore c w).modCore c fun k => { k with stores := k.stores.filter (·.id != w.id) }
    s.heldMore t = false → exec (.storeTakesEffect c (2 * id)) s = .next (t.sweep c)) ∧
  (∀ host line, let t := s.dropLine (s.l1Of c) ⟨host, 128 * line⟩
    s.heldMore t = false → s.lineStopped (s.l1Of c) ⟨host, 128 * line⟩ = false → exec (.l1LineEviction c host line) s = .next t ∧
      ∀ w ∈ (t.core (s.l1Of c)).l1, ¬ (w.pa.host = host ∧ w.pa.addr / 128 = line))

/-- 17 R453, 16 R415, 15 R396, R397, R402: a WAITA group reads anew, a NAP ends at its limit or a wake
event, an LNCH's packet enters its queue, and the threads of LEAVE and JOIN move. The model's choice: what a JOIN
waits for (log 43), that the groups of a JOIN do not read TIX as placed (log 44), what the empty slots of a new group hold (log 46), and when a
WAITA group reads anew (log 56). -/
def Obligations.WaitsEnd : Prop := ∀ (s : State) (c gid : Nat) (g : Group), s.group? c gid = some g →
  (∀ t, g.wait = .waita t → exec (.waitaWake c gid) s = .next (s.setGroup c gid { g with wait := .none })) ∧
  (∀ limit cnt woken, g.wait = .nap limit cnt woken →
    (woken = true ∨ s.mapchg (s.ctx g.ctx) = true ∨ ∃ t, limit = some t ∧ t ≤ s.clk c) →
      exec (.napWake c gid) s = .next (s.setGroup c gid { g with wait := .none })) ∧
  (∀ id l r t, (s.core c).lnchs.find? (·.id == id) = some l → l.gid = gid → (s.ctx g.ctx).st = .active → g.residency = .resident →
    (s.core c).lnchReady l = true → (∀ n, l.dst = some n → (s.core c).bHeld l.gid g n = false) →
    let s1 := (s.l1Release (s.l1Of c)).modCore c fun k => k.released l.gid l.mask l.id
    s1.l1Owes (s1.l1Of c) g.ctx = false → s1.queueStep g.ctx l = .done r t →
      exec (.lnchQueueStep c id) s = .next (t.lnchEnd c l r)) ∧
  (∀ next movers target pred seq re, g.wait = .joining next movers target pred seq re → (s.ctx g.ctx).st = .active →
    g.residency = .resident → (s.core c).spills.any (·.gid == gid) = false → (s.core c).loading gid movers = 0 →
    g.dueMask movers = 0 → g.moveUe movers = false →
      (∀ n, target = none → g.region = none → g.quartet = none → g.handler = false → movers ≠ g.active →
        s.leaveSlot c (s.ctx g.ctx).part = some n →
        let mv := moveMap movers (List.range (slotCount movers))
        let here := maskWhere fun i => (oldOf mv i).isSome
        exec (.joinLeaveCopyDone c gid) s = .next (((({ s with free := s.free + 2055 }.setGroup c gid
          { g.vacate movers with wait := .none }).setGroup c n ((s.newGroup g mv next).setPred pred false here here)).moveInFlight
            c gid n movers mv).traceMoved c n g mv)) ∧
      (∀ t x, target = some t → s.group? c t = some x → (s.core c).joinAfter t seq = false → s.joinBad c gid g t movers = false →
        (s.core c).joinBusy t = false →
        let mv := moveMap movers (slotsOf x.freeSlots)
        exec (.joinLeaveCopyDone c gid) s = .next (((((s.setGroup c gid { (g.vacate movers).loosen with wait := .none }).setGroup c t
          (x.joined g mv next)).moveInFlight c gid t movers mv).traceMoved c t g mv).tryRetire c gid)))

/-! ## Events: issue -/

/-- 04 R110, R113, 02 R60, 09 R270, 10 R285: a full issue runs a clause from its header with the threads there
at position 1, and an RB clause opens a region; a resumed issue runs the rest of a clause; a ready G group
without a lane cuts the H clause that started last, whose lane is free once it has drained. The model's choice: what the
latches of the positions passed hold (log 13), and where a clause is cut (log 50). -/
def Obligations.ClausesIssue : Prop :=
  (∀ (s : State) c gid (g : Group) pc p w lane,
    let s1 := s.recompute c gid
    s.mayIssue c gid = true → s1.mayIssue c gid = true → s1.group? c gid = some g → s1.laneFor c gid g = some lane →
      (∀ e, s1.issueFetch c gid = .hdr pc p w → hdrOk w = true →
        lineSkip (s1.lineWord g.launch pc p) (hdrCount w) (pc.toNat % 256 / 4 + 1) = .inl e →
        (hdrRB w = true → g.handler = false ∧ (g.region = none ∨ g.restart = true) ∧ g.asyncFaults = []) → g.tokFaults w = [] → g.hdrReady w = true →
        ∃ t x cl, exec (.fullIssue c gid) s = .next t ∧ t.group? c gid = some x ∧ x.clause = some cl ∧
          cl.hdr = pc ∧ cl.pos = 1 ∧ cl.pc = pc + 4 ∧ cl.count = hdrCount w ∧ cl.cls = hdrClass w ∧ cl.next = lineAddr pc e ∧
          cl.lane = lane ∧ cl.res = [] ∧ cl.cut = false ∧ x.wait = .none ∧
          (∀ i, i < g.threads.length → (g.atPc pc).getLsbD i = true → (x.th i).pc = pc + 4) ∧
          (hdrRB w = true → ∃ r, x.region = some r ∧ r.rgpc = pc ∧ r.members = g.atPc pc ∧ x.engIdx = 0)) ∧
      (∀ h hw pos e earlier, s1.issueFetch c gid = .mid pc p w →
        lineOwner (s1.lineWord g.launch pc p) (pc.toNat % 256 / 4) 65 0 = .own h hw pos e earlier →
        ∃ t x cl, exec (.resumedIssue c gid) s = .next t ∧ t.group? c gid = some x ∧ x.clause = some cl ∧
          cl.hdr = lineAddr pc h ∧ cl.pos = pos ∧ cl.pc = pc ∧ cl.count = hdrCount hw ∧ cl.next = lineAddr pc e ∧ cl.lane = lane ∧
          cl.res = g.lateLatches (earlier.map (·.2)) ∧ x.wait = .none)) ∧
  ( (∀ (s : State) c q a b n g cl, (s.core c).freeLane q = none → (s.core c).cutsInFlight q < (s.waitingG c q).length →
      latest (s.hClauses c q) = some (a, b, n) → s.group? c n = some g → g.clause = some cl →
        exec (.hClauseCut c q) s = .next ((s.countCore c 8 1 (s.carries g.ctx)).setGroup c n { g with clause := some { cl with cut := true } })) ∧
    (∀ (s : State) c lane b, (s.core c).lanes.getD lane .free = .draining b → ∃ ls,
      exec (.cutLaneFree c lane) s = .next (s.setCore c { s.core c with
        lanes := ls, groups := (s.core c).groups.map fun (n, g) => (n, if g.wait = .drain lane then { g with wait := .none } else g) }) ∧ ls.length = (s.core c).lanes.length ∧
        ls.getD lane .free = .free ∧ ∀ i, i ≠ lane → ls.getD i .free = (s.core c).lanes.getD i .free))

/-! ## Events: engines -/

/-- 08 R228, R241, R246, R250, 12 R336, R340: an accumulator operation starts, an MMA consumes its B operands, a
B buffer frees, an operation finishes or faults; a frame of a configured channel is kept in order, an ABORT
drops what was received and ends the accepted operations, and a frame with another tag is counted. The model's choice:
the credit that answers a frame and the frames of a COLL (log 20), and what an operation leaves that is read or written
while it runs (logs 39 and 40). -/
def Obligations.EnginesRun : Prop :=
  (∀ (s : State) (c : Nat),
    (∀ o r, ((s.core c).ops.filter fun o => o.op == .aclr || o.op == .adrn).any (·.st == .started) = false →
      ((s.core c).ops.filter fun o => o.op == .aclr || o.op == .adrn).filter (·.st == .accepted) = o :: r →
      (s.core c).mtBlocked o (o.tiles.take 1) = false →
        exec (.accportOpStart c) s = .next (s.modOp c o.id fun o => { o with st := .started })) ∧
    (∀ id o, (s.core c).ops.find? (fun o => o.id == id && o.op == .mma && o.st == .accepted && o.bcols.isNone) = some o →
      (s.core c).bUe (quartetOf o.params) (mmaRegs o.params) (dimN o.params) = false →
        exec (.mmaBConsumed c id) s = .next ((quartetMembers (quartetOf o.params)).foldl (fun s m => s.tryRetire c m)
          (s.modOp c id fun x => { x with bcols := some ((List.range (dimN o.params)).map fun j =>
            (s.core c).bColumn (quartetOf o.params) (mmaRegs o.params) j) }))) ∧
    (∀ o r, (s.core c).ops.filter (fun o => o.bbuf) = o :: r → o.bcols.isSome = true → (s.core c).mtBlocked o (o.tiles.drop 1) = false →
      exec (.bBufferFree c) s = .next (s.modOp c o.id fun o => { o with bbuf := false })) ∧
    (∀ id o, (s.core c).ops.find? (·.id == id) = some o →
      (o.st = .paid → o.cword = none → exec (.asyncOpFinish c id) s =
        .next ((s.modOp c id fun o => { o with st := .finished, bbuf := false }).retireOps c o.gid)) ∧
      (o.st = .paid → ∀ va w t bs, o.cword = some (va, w) → (s.core c).olderDone o = true → (s.endUe c o va).1 = false →
        s.gwrite (dieOf c) o.ctx (.op c id) va (leBytes 4 w) = (.ok bs, t) → s.heldMore t = false →
        exec (.asyncOpFinish c id) s = .next ((t.noteWord c o va w).finishOp c o)) ∧
      (o.st ≠ .paid → o.live = false → ∀ x r, (s.core c).opsOf o.gid o.cls = x :: r → exec (.asyncOpFinish c id) s =
        .next (if x.id = o.id then (s.retireOne c o).retireOps c o.gid else s)) ∧
      (o.live = true → o.st ≠ .paid → (s.core c).mayFinish o = true → s.opHeld c o = false → (o.op = .coll → s.collFirst o = true) →
        (o.op ≠ .coll → (s.payload c o).lost = false → (s.payload c o).fault = none → (s.payload c o).wait = false →
          exec (.asyncOpFinish c id) s = .next (s.payWhole c o (s.payload c o))) ∧
        (∀ status, o.op = .coll → o.status = some status → exec (.asyncOpFinish c id) s = .next (s.collStatus c o status)) ∧
        (∀ e status, o.op = .coll → o.status = none → s.collRun c o = .done e status → e.lost = false →
          exec (.asyncOpFinish c id) s = .next (s.collEnd c o e status)) ∧
        (∀ e own, o.op = .coll → o.status = none → s.collRun c o = .send e own →
          exec (.asyncOpFinish c id) s = .next (e.s.collSend c o own)) ∧
        (∀ e sub addr, s.opFault c o = some e → e.lost = false → e.fault = some (sub, addr) →
          exec (.asyncOpFault c id) s = .next (s.faultRun c o e sub addr))))) ∧
  (∀ (s : State) tag src payload,
    (s.tagUsed tag = true → payload.length ≤ 4032 →
      exec (.fabricFrameReceive tag src payload) s = .next (({ s.meetFrame tag (1 + (payload.length + 63) / 64) with
        frames := s.frames ++ [{ tag, src, payload }] } : State).returnCredit tag src)) ∧
    (let dropped (n : Nat) : State := { ({ s with free := s.free + 1 } : State).countDie s.hostDie 0x10D n none with fabdrop := s.fabdrop + 1 };
      s.tagUsed tag = false → exec (.fabricAbortReceive tag) s = .next (dropped 1) ∧
        (payload.length ≤ 4032 → exec (.fabricFrameReceive tag src payload) s = .next (dropped (1 + (payload.length + 63) / 64)))) ∧
    (s.tagUsed tag = true → ∃ t, exec (.fabricAbortReceive tag) s = .next t ∧ t.frames = s.frames.filter (fun f => f.tag != tag) ∧
      ∀ c, ∀ o ∈ (t.core c).ops, o.op = .coll → o.live = true → o.st ≠ .paid → s.collTag (s.ctx o.ctx).vd o.coll = tag → o.aborted = true))

/-! ## Events: translation, regions, keys -/

/-- 06 R173, R177, R179, R180, R182, R183: a page walk ends in a translation, a fault or a page request; a
response of this generation ends its request, one of another is counted, one that times out fails; after an
invalidation no TLB holds a translation it drops and the walk caches are empty. The model's choice: that the
page-response register keeps what was written (log 121), and that a walk may take a cached descriptor (log 27). -/
def Obligations.TranslationsEnd : Prop :=
  (∀ (s : State),
    (∀ die id w, s.walks.find? (fun w => w.id == id && w.die == die && w.request.isNone) = some w →
      let r := s.walk die w.ctx (w.vpage * 4096)
      let s1 := (s.touchReads w.ctx r.reads).countDie die 0x109 1 (s.carries w.ctx)
      s.walkStopped w.ctx r.reads = false → (∀ e, r.res = .leaf e → exec (.pageWalkComplete die id) s = .next ((s1.cacheInner die r.inner).walkLeaf w e)) ∧
      (∀ f, r.res = .fault f → exec (.pageWalkComplete die id) s = .next (s1.walkFail w f)) ∧
      (r.res = .request → w.resolved < 2 → exec (.pageWalkComplete die id) s = .next (s1.sendRequest w)) ∧
      (r.res = .request → 2 ≤ w.resolved → exec (.pageWalkComplete die id) s = .next (s1.walkFail w .page))) ∧
    (∀ v (val : DWord), let id := val.toNat / 256 % 256
      let s0 := s.modVd v fun d => { d with prsp := val &&& 0xFFFFFFFF0000FF03 }
      (val.toNat / 2 ^ 32 ≠ (s.vd v).gen.toNat → exec (.pageResponse v val) s = .next { s0 with latepr := s.latepr + 1 }) ∧
      (∀ r ∈ (s.vd v).reqs, val.toNat / 2 ^ 32 = (s.vd v).gen.toNat → r.id = id →
        (val.toNat % 4 = 0 → exec (.pageResponse v val) s = .next ((s0.walksOn v id).foldl
          (fun s w => s.modWalk w.id fun w => { w with resolved := w.resolved + 1, request := none }) (s0.dropReq v id))) ∧
        (val.toNat % 4 ≠ 0 → exec (.pageResponse v val) s = .next (s0.requestFails v id)))) ∧
    (∀ v id r, (s.vd v).reqs.find? (·.id == id) = some r → r.sent + 1000000 * (s.vd v).prto.toNat < s.time →
      exec (.pageRequestTimeout v id) s = .next (s.requestFails v id))) ∧
  (∀ (s : State),
    (s.tlbBusy = false → ∀ (ctx : BitVec 12) (npg : BitVec 16) (val : DWord),
      let run (mode ctx npg : Nat) : State := { s with
        tlbinvc := BitVec.ofNat 64 (packBits [(0, mode), (16, ctx), (32, npg), (63, 1)])
        tlbRun := some (mode, ctx, s.tlbinva.toNat / 4096 % 2 ^ 44, npg) }
      exec .tlbinvAll s = .next (run 1 s.tlbCtx s.tlbNpg) ∧ exec (.tlbinvCtx ctx) s = .next (run 2 ctx.toNat s.tlbNpg) ∧
      (npg ≠ 0 → exec (.tlbinvRange ctx npg) s = .next (run 3 ctx.toNat npg.toNat)) ∧
      (val.toNat % 4 ≠ 0 → (val.toNat % 4 = 3 → val.toNat / 2 ^ 32 % 2 ^ 16 ≠ 0) → exec (.registerWrite .pkg 0x10828 val) s =
        .next (run (val.toNat % 4) (val.toNat / 2 ^ 16 % 2 ^ 12) (val.toNat / 2 ^ 32 % 2 ^ 16)))) ∧
    (∀ r, s.tlbRun = some r → ∃ t, exec .tlbinvDone s = .next t ∧ t.tlbRun = none ∧ t.tlbinvc.getLsbD 63 = false ∧
      t.walkCache = [] ∧ (∀ x ∈ t.l2tlb, x.2.dropped r = false) ∧ (∀ x ∈ t.walkKept, x.2.dropped r = false) ∧
      ∀ c, (∀ e ∈ (t.core c).tlb, e.dropped r = false) ∧ ∀ gid g, t.group? c gid = some g → ∀ e ∈ g.walkHits, e.dropped r = false))

/-- 06 R192 to R196, R188: an entry of the region table becomes valid when every check passes, else
RTSTAT names the first that fails; one that is cleared is valid no more; a region flush ends with the
region's owned words surrendered; the host's write acts at the home. The model's choice: what memory that a new entry
maps holds (log 67). -/
def Obligations.RegionsChange : Prop := ∀ (s : State),
  (∀ n word (val : DWord), n < 64 → let r := s.region n
    (r.valid = false →
      (word = 0 → val.getLsbD 0 = false → exec (.regionEntryWrite n word val) s = .next (s.setRegion n (r.word0 val))) ∧
      (word = 0 → val.getLsbD 0 = true → ∀ code, s.regionCheck n (r.word0 val) = some code →
        exec (.regionEntryWrite n word val) s = .next { s.setRegion n (r.word0 val) with rtstat := BitVec.ofNat 32 (256 * n + code) }) ∧
      (word = 0 → val.getLsbD 0 = true → s.regionCheck n (r.word0 val) = none →
        exec (.regionEntryWrite n word val) s =
          .next { (s.mapRegion (r.word0 val)).setRegion n { r.word0 val with valid := true } with rtstat := 0 }) ∧
      (word = 1 → exec (.regionEntryWrite n word val) s = .next (s.setRegion n { r with base := val.setWidth 40 })) ∧
      (word = 2 → exec (.regionEntryWrite n word val) s = .next (s.setRegion n { r with size := val.setWidth 40 })) ∧
      (word = 3 → exec (.regionEntryWrite n word val) s = .next (s.setRegion n { r with stkbase := val.setWidth 36 }))) ∧
    (r.valid = true →
      (word = 0 → val.getLsbD 0 = false → ∃ t, exec (.regionEntryWrite n word val) s = .next t ∧ (t.region n).valid = false) ∧
      (word ≠ 0 ∨ val.getLsbD 0 = true → exec (.regionEntryWrite n word val) s = .next s))) ∧
  (∀ n : BitVec 6, s.rflushBusy = false → exec (.rflushGo n) s = .next { s with
    rflush := BitVec.ofNat 64 (packBits [(0, n.toNat), (8, if (s.region n.toNat).valid then 0 else 1), (63, 1)]), rflushLost := false }) ∧
  (s.rflushBusy = true → s.rflush.toNat / 256 % 256 ≠ 1 →
    let r := s.region (s.rflush.toNat % 64)
    let t1 := (s.ownedIn r).foldl (fun s p => s.surrender p) s
    let t := (t1.l2lines.filter fun x => !x.host && x.dirty && r.covers (128 * x.line)).foldl State.lineOut t1
    s.heldMore { t with l2lines := t.l2lines.filter fun x => x.host || !r.covers (128 * x.line) } = false →
      exec .rflushDone s = .next ({ t with
        l2lines := t.l2lines.filter fun x => x.host || !r.covers (128 * x.line)
        rflush := BitVec.ofNat 64 (packBits [(0, s.rflush.toNat % 64), (8, if s.rflushLost then 2 else 0)])
        rflushLost := false } |>.pirq 3)) ∧
  (∀ dpa bs, s.spanLive dpa bs.length = true →
    let t := (wordsTouched dpa bs.length).foldl (fun s w => s.giveUp ⟨false, 4 * w⟩) (s.noteOld ⟨false, dpa⟩ bs.length)
    exec (.hostWrite dpa bs) s = .next (((t.l2Dirty {} ⟨false, dpa⟩ bs.length).rawSet ⟨false, dpa⟩ bs).clearUe ⟨false, dpa⟩ bs.length))

/-- 12 R322, 06 R198: a key command without a cause to refuse it installs, clears or sets its key, answers
OK and leaves a KEY record; a key that does not unwrap answers UNWRAP. The model's choice: how a key unwraps (log 132),
that a command ends when it is written (log 34), which RESULT it gives when several causes hold (log 69), and that only one
that ends OK leaves a record (log 70). -/
def Obligations.KeysChange : Prop := ∀ (s : State) (slot owner : BitVec 6),
  let done (op : Nat) (t : State) : State := ({ t with
    keycmd := BitVec.ofNat 64 (packBits [(0, op), (2, owner.toNat), (8, slot.toNat), (16, 0)]) } : State).ulRec owner.toNat 7 noCtx
      [BitVec.ofNat 8 op, slot.setWidth 8]
  (s.vd owner.toNat).st ≠ .free →
    (∀ bs kek, s.slotCauses slot owner = [] → s.keyArg 72 = some bs → (s.vd owner.toNat).kek = some kek →
      exec (.keyInstall slot owner) s = .next (match unwrapKey kek bs with
        | some key => done 1 (s.setKey slot { owner := some owner.toNat, key })
        | none => { s with free := s.free + 1, keycmd := BitVec.ofNat 64 (packBits [(0, 1), (2, owner.toNat), (8, slot.toNat), (16, 3)]) })) ∧
    (s.slotCauses slot owner = [] → exec (.keyClear slot owner) s = .next (done 2 (s.setKey slot {}))) ∧
    (∀ bs, s.keyArg 1088 = some bs → exec (.keySetkek slot owner) s = .next (done 3 (s.modVd owner.toNat fun d =>
      { d with kek := some (Config.decapsulate d.report bs) })))

/-! ## Events: queues and the dispatcher -/

/-- 09 R256, R262: a queue whose fields agree with its context is enabled, one that is disabled drops its
packet, and WQTAIL takes what is written; a value past the ring is an error. -/
def Obligations.QueuesChange : Prop := ∀ (s : State) q (ctl : DWord), q < 1024 →
  let x := s.queue q
  let c := ctl &&& wqctlMask
  let y := s.ctx (wqCtx c)
  (wqEn x.ctl = false → wqEn ctl = true → y.st ≠ .free → y.vd = wqOwner c → y.cls = wqClass c →
    exec (.wqEnable q ctl) s = .next ((s.setQueue q { x with ctl := c, st := .active }).setTail q x.tail)) ∧
  (wqEn x.ctl = false → wqEn ctl = true → ¬ (y.st ≠ .free ∧ y.vd = wqOwner c ∧ y.cls = wqClass c) →
    exec (.wqEnable q ctl) s = .next (s.setQueue q { x with ctl := c &&& ~~~(1 : DWord), code := 8 })) ∧
  (wqEn ctl = false → exec (.wqDisable q ctl) s = .next ((s.queueDisable q).modQueue q fun y =>
    { y with ctl := (if wqEn x.ctl then x.ctl else c) &&& ~~~(1 : DWord) })) ∧
  (let t := s.queueDisable q; (t.queue q).st = .disabled ∧ wqEn (t.queue q).ctl = false ∧ (t.queue q).cur = none ∧
    (t.queue q).head = x.head ∧ (t.queue q).tail = x.tail) ∧
  (∀ (val : Word) (v : Nat),
    ((val - x.head).toNat ≤ wqSize x.ctl ∨ x.st ≠ .active → exec (.wqtailWrite .pkg q val) s = .next (s.setQueue q { x with tail := val })) ∧
    (wqSize x.ctl < (val - x.head).toNat → x.st = .active →
      exec (.wqtailWrite .pkg q val) s = .next ((s.setQueue q { x with tail := val }).queueError q 6 none)) ∧
    (wqOwner x.ctl = v → exec (.wqtailWrite (.vd v) q val) s = exec (.wqtailWrite .pkg q val) s) ∧
    (wqOwner x.ctl ≠ v → exec (.wqtailWrite (.vd v) q val) s = .next (s.modVd v fun d => { d with dbdrop := d.dbdrop + 1 })))

/-- 09 R258, R259, R260, R261, R263: a good packet becomes current and WQHEAD moves past it, a true wait
condition is latched, a unit that fits is placed and one that fits nowhere is NOFIT with WQHEAD on its packet, a launch
completes, a signal that faults makes its queue's error, and its watchdog stops it. The model's choice: a packet is read
whole (log 130), and the watchdog that has fired is off (log 77). -/
def Obligations.DispatcherWorks : Prop := ∀ (s : State),
  (∀ q, let x := s.queue q
    let p := x.slotPa x.head.toNat
    let s0 := s.touch (wqCtx x.ctl) (s.homeDie p)
    let bs := s0.homeBytes p 64
    let l := launchOf s0.nextId q x bs
    let s1 : State := { s0 with nextId := s0.nextId + 1 }
    x.st = .active → s.mgmtOnly = false → x.cur = none → x.held ≠ 0 → (s.vd (wqOwner x.ctl)).st = .active →
    s0.checkPa (wqOwner x.ctl) p = none → s0.hbmHolds (s.clsOf (wqCtx x.ctl)) p 64 = false → s0.ueBytes p 64 = false → pktBad bs = false → pf bs 0 16 4 = 0 → s1.capacityFail l = none →
      ∃ t, exec (.packetTake q) s = .next t ∧ t.launches = s.launches ++ [l] ∧
        t.queue q = { x with head := x.head + 1, cur := some { launch := l.id, waits := [], age := s.time }, walkFaults := [] }) ∧
  (∀ q i p w l bs t, (s.queue q).st = .active → (s.queue q).cur = some p → p.waits[i]? = some w → w.latched = false →
    s.launch? p.launch = some l → s.gread s.dispDie l.ctx (.disp q) w.addr.toNat 4 = (.ok bs, t) →
      (w.holds (BitVec.ofNat 32 (leNat bs)) = false → exec (.waitCondRead q i) s = .next t) ∧
      (w.holds (BitVec.ofNat 32 (leNat bs)) = true → exec (.waitCondRead q i) s = .next ((t.noteDisp l w.addr.toNat 4
        { id := 0, ctx := 0, who := [], kind := .syncRead, got := bs, acq := some 4 }).modQueue q fun x => { x with cur := some { p with waits := listMod p.waits i fun w => { w with latched := true } } }))) ∧
  (∀ q l, s.misfit = some (q, l) → exec .placement s = .next ((s.queueError q 7 (some l)).modQueue q fun x => { x with head := l.pkt })) ∧
  (∀ q l cs, s.misfit = none → s.firstClaim s.readyClaims = none → s.firstCandidate (s.queues.map (·.1)) = some (q, l, cs) →
    (s.unitFree l cs = true → s.fuseHeld l cs = false → exec .placement s = .next (s.placeUnit q l cs)) ∧
    (s.unitFree l cs = false → exec .placement s = .next (s.claimBanks q l cs))) ∧
  (∀ id l, s.launch? id = some l → s.launchDone l = true → s.signalBehind l = false →
    (l.discarded = true → exec (.launchComplete id) s = .next (s.dropLaunch id)) ∧
    (l.discarded = false → (s.queue l.queue).censva = 0 → l.sig = false →
      exec (.launchComplete id) s = .next ((s.ulLaunch (s.ctx l.ctx).vd l 0).dropLaunch l.id)) ∧
    (∀ bs t, l.discarded = false → (s.queue l.queue).censva = 0 → l.sig = true →
      s.gwrite s.dispDie l.ctx (.disp l.queue) l.sigaddr.toNat (leBytes 8 l.sigval.toNat) = (.ok bs, t) →
      let t1 := t.noteDisp l l.sigaddr.toNat 8 { id := 0, ctx := 0, who := [], kind := .syncWrite, put := leBytes 8 l.sigval.toNat, rel := some 4 }
      exec (.launchComplete id) s = .next ((t1.ulLaunch (t1.ctx l.ctx).vd l 0).dropLaunch l.id)) ∧
    (∀ f a t, l.discarded = false → (s.queue l.queue).censva = 0 → l.sig = true →
      s.gwrite s.dispDie l.ctx (.disp l.queue) l.sigaddr.toNat (leBytes 8 l.sigval.toNat) = (.fault f a, t) →
      exec (.launchComplete id) s = .next (t.launchError l f 5))) ∧
  (∀ id l, s.launch? id = some l → l.first.isSome = true → l.wdog ≠ 0 → l.wdog * 1000000 ≤ l.run → l.retired < l.goal →
    exec (.watchdogExpiry id) s = .next ((s.modLaunch id fun l => { l with wdog := 0 }).stopCtx l.ctx .watchdog 0 0 0))

/-! ## Events: groups and contexts leave and return -/

/-- 10 R280, R281, R283: a group that nothing waits for gives up its bank with its image in the spill
area, whatever another of its quadrant still waits for; the group evicted first returns when a bank is free, from the
image that was written. -/
def Obligations.GroupsAreEvicted : Prop := ∀ (s : State) c q,
  (∀ sp r g0 g s1 t, (s.core c).spills.filter (·.quad == q) = sp :: r → s.group? c sp.gid = some g0 → s.spillReady c sp.gid g0 = true →
    (s.spillRestart c sp.gid).leaveBar c sp.gid = .ok () s1 → s1.group? c sp.gid = some g → g.imageUe = false →
    s1.sinterWrite c sp.gid g.ctx (s.spillVa c g.ctx sp.gid) g.image = .ok () t →
      exec (.sinterSpillDone c q) s = .next ((t.countCore c 10 g.image.length (some (false, (s.ctx g.ctx).part))).spilled c sp.gid g.image.length)) ∧
  (∀ sp r g0, (s.core c).spills.filter (·.quad == q) = sp :: r → s.group? c sp.gid = some g0 → s.spillReady c sp.gid g0 = false →
    exec (.sinterSpillDone c q) s = .next ((s.keepWait s).spillFirst c r)) ∧
  (∀ n g len, (s.core c).firstEvicted q = some (n, g) →
    (g.residency = .evicted len → (s.ctx g.ctx).st = .active → s.remapping c = false →
      0 < s.banksFree c (s.ctx g.ctx).part q none → s.claimed c q = false →
      exec (.sinterRestore c q) s = .next (s.setGroup c n { g with residency := .restoring len })) ∧
    (∀ bs s1 g1 s2, g.residency = .restoring len → s.sinterRead c n g.ctx (s.spillVa c g.ctx n) len = .ok bs s1 → imageOk g.handler bs = true →
      s1.reloadTrap c n (s.blockOf c g).bix (g.load bs (s.ctx g.ctx).dbgVd.isSome) = .ok g1 s2 →
      exec (.sinterRestoreDone c q) s = .next ((((s2.setGroup c n g1).modCore c fun k =>
        { k with evicted := k.evicted.erase n }).countCore c 10 len (s.carries g.ctx)).tryRetire c n)))

/-- 03 R99 to R101: the image of a group without a trap record gives back its registers' values, its
predicates, its threads' addresses and its FCR, FSR and SEED. -/
def Obligations.ImagesRoundTrip : Prop := ∀ (g : Group) (dbg : Bool), g.handler = false → g.regs.length = 64 → g.preds.length = 7 →
  (∀ r ∈ g.regs, r.ue = 0) → g.tile ∈ [2, 4, 8, 16, 32] → g.fcr &&& ~~~fcrMask = 0 → g.fsr &&& ~~~fsrMask = 0 →
    imageOk false g.image = true ∧
    let h := g.load g.image dbg
    (∀ n t, n < 64 → t < 32 → (h.reg n).shape.val t = (g.reg n).shape.val t ∧ (h.reg n).shape.tag = (g.reg n).shape.tag) ∧
    (∀ n, n < 7 → h.pred n = g.pred n) ∧ h.fcr = g.fcr ∧ h.fsr = g.fsr ∧ h.seed = g.seed ∧ h.tile = g.tile ∧
    ∀ i, i < 32 → (h.th i).st = (g.th i).st ∧
      ((g.th i).st ≠ .empty → (h.th i).pc = (g.th i).pc ∧ (h.th i).meet = (g.th i).meet ∧ (h.th i).nest = (g.th i).nest ∧
        (h.th i).tix = (g.th i).tix ∧ (h.th i).ssadv = (g.th i).ssadv)

/-- 11 R303, R305, R308, R309, R316: the context commands do what the table of R305 has, or report why
they do not. The model's choice: a command ends when it is written, and what its registers then read (log 34), what
RESUME clears (log 87), the RESULT of DBGGRANT and DBGREVOKE (log 89), and that DESTROY drops launches (log 90). -/
def Obligations.ContextCommands : Prop := ∀ (s : State) (ctx : BitVec 12), let c := ctx.toNat
  (s.createFails c = none → exec (.ctxCreate ctx) s =
    .next (((s.setCtx c (s.newCtx (s.homeBytes ⟨false, s.ctxarg.toNat⟩ 128))).moveDeadlines c).ctxResult ctx 1 0)) ∧
  (∀ r, s.createFails c = some r → exec (.ctxCreate ctx) s = .next (s.ctxResult ctx 1 r)) ∧
  (((s.ctx c).st = .idle ∨ (s.ctx c).st = .saved ∨ (s.ctx c).st = .stopped) → exec (.ctxDestroy ctx) s = .next ((s.destroy c).ctxResult ctx 2 0)) ∧
  ((s.ctx c).st = .active → exec (.ctxDestroy ctx) s = .next (s.ctxResult ctx 2 5)) ∧
  ((s.ctx c).st = .active → (s.ctx c).cls = false → exec (.ctxPreempt ctx) s =
    .next (((s.allGroups.filter fun (_, _, g) => g.ctx = c).foldl (fun s (k, gid, _) => s.abandonMove k gid)
      ((s.dropClaims c).modCtx c fun x => { x with st := .draining })).ctxResult ctx 3 0)) ∧
  ((s.ctx c).st = .idle → exec (.ctxPreempt ctx) s =
    .next (((s.dropClaims c).modCtx c fun x => { x with st := .saving, image := false, reason := .none }).ctxResult ctx 3 0)) ∧
  ((s.ctx c).st = .active → (s.ctx c).cls = true → exec (.ctxPreempt ctx) s =
    .next (((((s.dropClaims c).modCtx c fun x => { x with st := .saving, image := false, reason := .none })).evictAll c).ctxResult ctx 3 0)) ∧
  ((s.ctx c).st = .saved ∨ ((s.ctx c).st = .stopped ∧ (s.ctx c).image = true ∧ (s.ctx c).code ≠ some .dieLost) →
    ∃ t, exec (.ctxResume ctx) s = .next t ∧ (t.ctx c).st = .restoring ∧ (t.ctx c).reason = .none ∧ (t.ctx c).code = none ∧
    (t.ctx c).ackv = (if (s.ctx c).code = some .mapUnack then s.cmap.cmv else (s.ctx c).ackv)) ∧
  ((s.ctx c).st = .active ∨ ((s.ctx c).st = .stopped ∧ (s.ctx c).image = false) → exec (.ctxResume ctx) s = .next (s.ctxResult ctx 4 5)) ∧
  (∀ v, v = s.ctxarg.toNat % 64 → (s.ctx c).st ≠ .free → (s.vd v).st ≠ .free → exec (.ctxDbggrant ctx) s =
      .next (((s.modCtx c fun x => { x with dbgVd := some v, editLogged := false }).ulDebug c 0 v).ctxResult ctx 5 0)) ∧
  ((s.ctx c).st ≠ .free → exec (.ctxDbgrevoke ctx) s = .next ((s.revoke c).ctxResult ctx 6 0)) ∧
  (∀ op : BitVec 4, 7 ≤ op.toNat → exec (.ctxcmdBadop ctx op) s = .next (s.ctxResult ctx op.toNat 6))

/-- 11 R305, R309, R313, R314, 01 R30, R33: a save ends with the image written, or leaves that of a stopped
restore; a restore whose save passes its checks, is of live cores and has room puts back its core records in order and leaves
RESTORING without an image; slices expire, contexts resume by themselves, and one that does not acknowledge the map in
time stops; MAPGRACE takes 1 to 100 ms. The model's choice: what the save area holds after a stop that struck a restore
(log 84), and when IMAGE and AUTO clear (log 87). -/
def Obligations.ContextsMove : Prop := ∀ (s : State) c,
  ((s.ctx c).st = .saving → s.quiet c = true →
    (∀ t, (s.ctx c).image = true → s.resave c = .ok () t → exec (.ctxSaveDone c) s = .next (t.modCtx c fun y =>
      { y with saved := (s.ctx c).saved, unplaced := (s.ctx c).unplaced, halted := (s.ctx c).halted })) ∧
    (∀ s1 t, (s.saveRelease c).saveGroups c = (false, s1) → (s.ctx c).image = false → (s1.ctx c).st = .saving → s1.writeSave c = .ok () t →
      ((s.saveRelease c).cores.any fun (_, k) => k.l1.any fun w => w.of c && w.st != .unowned) = false →
        exec (.ctxSaveDone c) s = .next t)) ∧
  (∀ cs gs s1, (s.ctx c).st = .restoring → let len := (s.saveLen c).getD 256
    let s0 := s.touchSpan c ⟨false, (s.ctx c).savea⟩ len
    s0.saveFault c len ≠ some .dieLost → s0.readSave c = some cs →
    s0.savedImages c (cs.flatMap fun r => r.groups.map (r, ·)) = .ok (some gs) s1 →
    cs.all (fun r => s.liveCore r.core && s1.coreFits c r) = true →
      ∃ t, exec (.ctxRestoreDone c) s = .next t ∧ (t.ctx c).image = false ∧
        (t.ctx c).st = (if cs.all (fun r => r.blocks.isEmpty) then .idle else .active) ∧
        t.cores = (cs.foldl (fun s r => s.restoreCore c gs r) s1).cores) ∧
  ((s.ctx c).st = .active → (s.ctx c).cls = true → (s.ctx c).slice ≠ 0 → (s.ctx c).activeSince + 1000 * (s.ctx c).slice ≤ s.time →
    s.sliceWanted c = true → ∃ t, exec (.timeSliceExpiry c) s = .next t ∧ (t.ctx c).auto = true) ∧
  ((s.ctx c).st = .saved → (s.ctx c).auto = true → s.wantsBack c = true →
    s.ctxs.all (fun (d, y) => !(y.st == .saved && y.auto && decide (y.switchSeq < (s.ctx c).switchSeq) && s.wantsBack d)) = true →
      ∃ t, exec (.autoResume c) s = .next t ∧ (t.ctx c).st = .restoring ∧ (t.ctx c).auto = false) ∧
  (((s.ctx c).st = .active ∨ (s.ctx c).st = .draining) → s.overdue (s.ctx c) = true →
    exec (.mapDeadlineExpiry c) s = .next ((s.ulMap c).stopCtx c .mapUnack 0 0 0)) ∧
  (∀ v : Word, (1 ≤ v.toNat % 128 ∧ v.toNat % 128 ≤ 100 → exec (.mapgrcWrite v) s = .next { s with mapgrc := BitVec.ofNat 32 (v.toNat % 128) }) ∧
    (¬ (1 ≤ v.toNat % 128 ∧ v.toNat % 128 ≤ 100) → exec (.mapgrcWrite v) s = .next s))

/-- 10 R276, R277, R278: a mode change that a test refuses is REJECTED with its code, else PENDING until no
block of its partitions is resident; a pending one can be cancelled; next quotas take what is written. -/
def Obligations.ModesChange : Prop := ∀ (s : State) (mask : BitVec 16),
  (∀ code, s.pmSt ≠ 1 → ({ s with pmctl := pmctlWord mask } : State).pmTest mask = some code →
    exec (.pmGo mask) s = .next (({ s with pmctl := pmctlWord mask } : State).pmEnd 3 code)) ∧
  (s.pmSt ≠ 1 → ({ s with pmctl := pmctlWord mask } : State).pmTest mask = none →
    (s.cores.any fun (_, k) => k.blocks.any fun b => !b.retired && mask.getLsbD b.part) = true →
      ∃ t, exec (.pmGo mask) s = .next t ∧ t.pmSt = 1 ∧ t.pmCode = 0 ∧ t.closing = mask ∧ t.parts = s.parts) ∧
  (s.pmSt = 1 → exec (.pmCancel mask) s = .next (({ s with pmctl := pmctlWord mask } : State).pmEnd 0 0)) ∧
  (s.pmSt = 1 → s.closingBusy = false → s.pmTest s.closing = none → ∃ t, exec .pmTakeEffect s = .next t ∧ t.pmSt = 2 ∧ t.closing = 0 ∧
    ∀ p, p < 16 → s.closing.getLsbD p = true → (t.part p).a = (s.part p).na ∧ (t.part p).b = (s.part p).nb) ∧
  (∀ p (val : DWord), p < 16 → s.closing.getLsbD p = false → ∃ t u, exec (.pqnWrite p false val) s = .next t ∧
    exec (.pqnWrite p true val) s = .next u ∧ t.part p = { s.part p with na := val &&& pqaMask } ∧ u.part p = { s.part p with nb := val &&& pqbMask })

/-! ## Events: virtual devices -/

/-- 12 R319, R321, R330, R331: the commands of a virtual device in the states that allow them. The model's choice: which
of them end when they are written (log 34), and SIGN of a FREE device and what a DESTROY leaves (log 95). -/
def Obligations.VirtualDevicesChange : Prop := ∀ (s : State) v, v < 64 →
  ((s.vd v).st = .free → ∃ t, exec (.vdCreate v) s = .next t ∧ (t.vd v).st = .active ∧ (t.vd v).gen = 1 ∧ (t.vd v).cmd = vdcmdWord 1 0 false) ∧
  ((s.vd v).st = .active → s.ctxsOf v = [] → exec (.vdStop v) s =
    .next (s.modVd v fun d => { d with st := .stopping, cmd := vdcmdWord 2 0 true })) ∧
  ((s.vd v).st = .stopping → s.vdSettled v = true → s.heldMore (s.vdRelease v) = false → exec (.vdStopDone v) s =
    .next (((((s.vdRelease v).modVd v fun d => { d with st := .stopped }).ulState v).vdResult v 2 0).virq v 4)) ∧
  ((s.vd v).st = .stopped → exec (.vdResume v) s = .next (((s.modVd v fun d => { d with st := .active }).ulState v).vdResult v 3 0)) ∧
  ((s.vd v).st ≠ .free → (s.vd v).st ≠ .resetting → exec (.vdReset v) s = .next ((s.modVd v fun d => { d with
    st := .resetting, cmd := vdcmdWord 4 (if (s.vd v).st = .stopping then 4 else 0) true }).resetWork v)) ∧
  ((s.vd v).st = .resetting → ∃ t, exec (.vdResetDone v) s = .next t ∧ (t.vd v).st = .active ∧ (t.vd v).gen = nextGen (s.vd v).gen ∧
    (t.vd v).kek = none ∧ (t.vd v).reqs = []) ∧
  (((s.vd v).st = .active ∨ (s.vd v).st = .stopped) →
    (s.vdInUse v = true → exec (.vdDestroy v) s = .next (s.vdResult v 5 3)) ∧
    (s.vdInUse v = false → exec (.vdDestroy v) s = .next (((s.closeUsage v).modVd v
      fun d => { d with st := .free, kek := none }).vdResult v 5 0))) ∧
  ((s.vd v).busy = false → (s.vd v).st ≠ .free → ∀ w, exec (.vdSign v w) s = .next ((s.checkpoint v).vdResult v 6 0)) ∧
  ((s.vd v).busy = false → (s.vd v).st = .free → ∀ w, exec (.vdSign v w) s = .next (s.vdResult v 6 1)) ∧
  (∀ op : BitVec 4, (s.vd v).busy = false → 7 ≤ op.toNat → exec (.vdcmdBadop v op) s = .next (s.vdResult v op.toNat 2))

/-- 06 R183, 12 R320, R323 to R326, R328, R332 to R334, R338, R339: registers of a virtual device, its ticks and the USAGE
record of a context that ran in an interval, its attestation; the heads of its rings, at whose write a usage record or a
page request that waited for room enters its ring; interrupt bits, channels and fabric groups. The
model's choice: what counts as a byte moved (log 143). -/
def Obligations.VirtualDeviceRegisters : Prop := ∀ (s : State) v, v < 64 →
  (∀ val : Word, 1 ≤ val.toNat → val.toNat ≤ 10000 → exec (.prtoWrite v val) s = .next (s.modVd v fun d => { d with prto := val })) ∧
  ((s.vd v).st ≠ .free → ((s.vd v).ckptAt + 1) * 1000000000 ≤ s.time →
    exec (.checkpointTick v) s = .next ((s.modVd v fun d => { d with ckptAt := d.ckptAt + 1 }).checkpoint v)) ∧
  ((s.usageTicks + 1) * 1000000000 ≤ s.time → ∃ t, exec .usageIntervalTick s = .next t ∧ t.usageTicks = s.usageTicks + 1) ∧
  (∀ c x, (s.usageTicks + 1) * 1000000000 ≤ s.time → s.ctxs = [(c, x)] → s.pastCtxs = [] → x.st ≠ .free → x.ranInterval = true →
    (s.vd x.vd).ulhold = false → exec .usageIntervalTick s =
      .next ((({ s with usageTicks := s.usageTicks + 1, free := s.free + 1 } : State).ulRec x.vd 3 c
        (leBytes 8 x.usageFrom ++ (leBytes 8 (if x.cls then 0 else x.laneCycles) ++ leBytes 8 (if x.cls then x.laneCycles else 0)) ++
          (leBytes 8 x.hbmBytes ++ leBytes 8 x.hostBytes ++ leBytes 8 x.fabBytes ++ leBytes 8 (Config.usageEnergy s.free).toNat))).modCtx c
        fun y => { y with usageFrom := s.time, laneCycles := 0, hbmBytes := 0, hostBytes := 0, fabBytes := 0
                          ranInterval := y.st == .active || y.st == .draining })) ∧
  (∀ dpa : DWord, dpa.toNat % 64 = 0 → s.dpaOk dpa.toNat 32 = true → exec (.attestRequest v dpa) s =
    .next (s.modVd v fun d => { d with attest := some (dpa.toNat, s.homeBytes ⟨false, dpa.toNat⟩ 32) })) ∧
  (∀ a nonce, (s.vd v).attest = some (a, nonce) →
    let s1 : State := { s with nextId := s.nextId + 1 }
    let body := s1.attestBody v nonce s.nextId
    let s2 := s1.modVd v fun d => { d with attest := none }
    nonce.length = 32 → (s.vd v).ulprev.length = 32 → s.dpaOk (a + 64) 18452 = true → (s.vdevs.all fun (_, d) => !ringEn d.dlring) = true →
      ∃ s3, s2.reportPut (a + 64) (body ++ signed body) = (true, s3) ∧
        exec (.attestReportDone v) s = .next ((s3.modVd v fun d => { d with report := s.nextId }).virq v 3)) ∧
  (exec (.dlepochWrite v) s = .next (s.modVd v fun d => { d with epochPages := [] })) ∧
  (∀ val : Word, ((s.vd v).trtail - val).toNat ≤ ringSize (s.vd v).trring / 32 →
    exec (.ringHeadWrite v .trace val) s = .next (s.modVd v fun d => { d with trhead := val })) ∧
  (∀ val : Word, ((s.vd v).dltail - val).toNat ≤ ringSize (s.vd v).dlring / 8 →
    exec (.ringHeadWrite v .dirty val) s = .next ((s.modVd v fun d => { d with dlhead := val }).dirtyTaken v)) ∧
  (∀ val : Word, ((s.vd v).ultail - val).toNat ≤ ringSize (s.vd v).ulring / 128 →
    let t := s.modVd v fun d => { d with ulhead := val }
    let d := t.vd v
    exec (.ringHeadWrite v .usage val) s = .next (t.ulFlow v) ∧
    (∀ r, d.ulbuf = [r] → r.length = 128 → ringEn d.ulring = true → d.ulCount < ringSize d.ulring / 128 →
      t.ulFlow v = ((t.ringPut d.ulring d.ultail.toNat r).modVd v fun d => { d with ultail := d.ultail + 1, ulbuf := [] }).modVd v
        fun d => { d with ulhold := false })) ∧
  (∀ val : Word, ((s.vd v).pqtail - val).toNat ≤ ringSize (s.vd v).pqring / 16 →
    let t := s.modVd v fun d => { d with pqhead := val }
    let d := t.vd v
    exec (.ringHeadWrite v .pageReq val) s = .next (t.pqFlow v (d.reqs.length + 1)) ∧
    (∀ r, d.reqs.find? (fun r => !r.written) = some r → (∀ x ∈ d.reqs, x.written = false → x.id = r.id) → ringEn d.pqring = true →
      d.pqCount < ringSize d.pqring / 16 → t.pqFlow v (d.reqs.length + 1) =
        (((t.touch r.ctx (t.homeDie ⟨ringHost d.pqring, ringBase d.pqring + d.pqtail.toNat * 16 % ringSize d.pqring⟩)).ringPut
          d.pqring d.pqtail.toNat (r.bytes v)).modVd v fun y => { y with
            pqtail := y.pqtail + 1, reqs := d.reqs.map fun x => if x.id = r.id then { x with written := true } else x }).virq v 1)) ∧
  (∀ val : Word, exec (.irqstWrite .pkg val) s = .next { s with pirqst := s.pirqst &&& ~~~val } ∧
    exec (.irqstWrite (.vd v) val) s = .next (s.modVd v fun d => { d with irqst := d.irqst &&& ~~~val })) ∧
  (∀ c (val : DWord), c < 64 → (s.coll v c).cfg.getLsbD 0 = false →
    let w := val &&& chcfgMask
    (w.getLsbD 0 = false ∨ ((s.vd v).st = .active ∧ (s.fgroup (chGroup w)).hdr.getLsbD 31 = true ∧
      s.tagUsed (BitVec.ofNat 16 (w.toNat / 2 ^ 32)) = false)) →
      exec (.chcfgWrite v c val) s = .next { s with colls := alSet (64 * v + c) { cfg := w } s.colls }) ∧
  (∀ g (val : Word), g < 256 → s.colls.any (fun (_, k) => k.cfg.getLsbD 0 && chGroup k.cfg == g) = false →
    exec (.fabricGroupWrite g 0 val) s = .next { s with fgroups := alSet g { s.fgroup g with hdr := val &&& fghdrMask } s.fgroups } ∧
    ∀ k, k < 1024 → exec (.fabricGroupWrite g (2048 + 2 * k) val) s = .next { s with
      fgroups := alSet g { s.fgroup g with ranks := alSet k (val &&& 0x3FF) (s.fgroup g).ranks } s.fgroups })

/-! ## Events: the map and live service -/

/-- 01 R25, R31, R35, R36, R38, R45, 12 R335: the loss of a die and its publication, its reset and return,
the loss of a stack, the host link, and package reset. The model's choice: what package reset keeps (log 108), which
firmware slot serves (log 119), that a reset of a live die is its loss (log 104), and that a publication is one step
(log 26). -/
def Obligations.DiesComeAndGo : Prop := ∀ (s : State),
  (∀ d, d < 2 → s.dieLost d = false → exec (.dieLoss d) s = .next (s.loseDie d)) ∧
  (∀ d, d < 2 → d < s.cmap.dies.length → s.dieLost d = true → (s.die d).st ≠ 2 → ∃ t, exec (.dieLossPublish d) s = .next t ∧ (t.die d).st = 2 ∧
    (t.die d).lostv = s.cmap.cmv + 1 ∧ t.cmap.cmv = s.cmap.cmv + 1 ∧ t.cmap.linkLanes = 16 ∧ t.pirqst.getLsbD 5 = true) ∧
  (∀ d, d < 2 → ∃ t, exec (.dieReset d) s = .next t ∧ (∀ c, dieOf c = d → t.core c = {}) ∧ t.clk (192 * d) = 0) ∧
  (∀ d, d < 2 → (s.die d).st = 2 → (s.die d).tested = true → ∃ t, exec (.dieReturn d) s = .next t ∧ (t.die d).st = 1 ∧ t.dieLost d = false ∧
    t.cmap.cmv = s.cmap.cmv + 1 ∧ t.pirqst.getLsbD 5 = true) ∧
  (∀ k, k < 16 → k < s.cmap.stackRecs.length → s.stackLost k = false → ∃ t, exec (.stackLoss k) s = .next t ∧ t.stackLost k = true ∧
    t.cmap.cmv = s.cmap.cmv + 1 ∧ t.pubtOf t.cmap.cmv = s.time ∧ t.cmap.seq = s.cmap.seq + 2) ∧
  (s.linkReady = false → s.mgmtOnly = false → (s.vdevs.all fun (_, d) => d.reqs.isEmpty) = true →
    exec .hostLinkRetrain s = .next { s with linkReady := true }) ∧
  (s.mgmtOnly = true → exec .hostLinkRetrain s = .next s) ∧
  (∃ t, exec .packageReset s = .next t ∧ t.dmem = s.dmem ∧ t.hmem = s.hmem ∧ t.cmap.cmv = 1 ∧ t.ctxs = [] ∧ t.vdevs = [] ∧
    t.queues = [] ∧ t.keys = [] ∧ t.regions = [] ∧ t.parts = [] ∧ t.cmap.bins = s.cmap.bins ∧ t.bootCount = s.bootCount + 1 ∧
    t.cmap.fw = s.cmap.fw.mapIdx (fun c r => r.booted (s.bootCount + 1) c) ∧ (t.mgmtOnly = true ↔ t.linkReady = false))

/-- 01 R39 to R44: a live-service command with good arguments runs; when its work is over it publishes one
map version, answers OK and raises package cause 4; one that cannot start answers why; one whose die or stack was lost while
it ran is ABANDONED. Firmware starts remaps, calibrations and channel spares the same way and retires a core without a
spare. The model's choice: the floors that a bin may take (log 9), RESULT 0 while a command runs (log 131), and the order of
the checks (log 112). -/
def Obligations.LiveServiceRuns : Prop := ∀ (s : State), let a := s.lsarg.toNat
  (s.lsBusy = false →
    (∀ p, a < 512 → s.liveCore a = true → s.remapping a = false → s.spareFor a = some p →
      exec .lsRemap s = .next ((s.lsRun 1 (.remap a p)).remapEvict a)) ∧
    (a < 512 → s.liveCore a = true → s.remapping a = false → s.spareFor a = none → exec .lsRemap s = .next (s.lsEnd 1 2)) ∧
    (a < 128 → (s.port a).st ≠ 0 → s.lsHas (onPort a) = false → exec .lsRecal s = .next (s.lsRun 2 (.recal a))) ∧
    (a < 2 ^ 13 → a / 16 % 16 = 0 → s.stackLost (a % 16) = false → s.lsHas (onStack (a % 16)) = false →
      (s.cmap.stackRecs.getD (a % 16) {}).chspr < 2 → exec .lsChspare s = .next (s.lsRun 3 (.chspare (a % 16) (a / 256)))) ∧
    (∀ h n, h = s.homeBytes ⟨false, a⟩ 64 → n = 64 + fieldAt h 16 8 + 7856 → a % 4096 = 0 → s.dpaOk a 64 = true → imageBad h = false → s.dpaOk a n = true → s.lsHas (onComp (fieldAt h 8 1)) = false →
      exec .lsFwload s = .next (if Config.verifyImage (s.homeBytes ⟨false, a⟩ n) then
        s.lsRun 4 (.fwload (fieldAt h 8 1) (BitVec.ofNat 32 (fieldAt h 12 4))) else s.lsEnd 4 4)) ∧
    (a ≤ 5 → (s.cmap.fw.getD a {}).veralt ≠ 0 → s.lsHas (onComp a) = false → exec .lsFwswitch s = .next (s.lsRun 5 (.fwswitch a))) ∧
    (a < 2 ^ 17 → a / 256 % 256 = 0 → a % 256 ≤ Config.builtFloor → exec .lsRebin s = .next (s.lsRun 6 (.rebin (a / 65536) (a % 256)))) ∧
    (∀ op : BitVec 4, 7 ≤ op.toNat → exec (.lscmdBadop op) s = .next (s.lsEnd op.toNat 6))) ∧
  (∀ q, q < 128 → (s.port q).st ≠ 0 → s.lsHas (onPort q) = false → exec (.fwLiveServiceStart (.recal q)) s = .next (s.fwRun (.recal q))) ∧
  (∀ core p, s.remapping core = false → s.posOf core = some p →
    (∀ q, s.spareFor core = some q → exec (.fwLiveServiceStart (.remap core)) s = .next ((s.fwRun (.remap core q)).remapEvict core)) ∧
    (s.spareFor core = none → exec (.fwLiveServiceStart (.remap core)) s =
      .next ((s.publish fun n m => m.setCoreRec (dieOf core) p { s.coreRec (dieOf core) p with
        mapv := BitVec.ofNat 32 n, failed := true, remap := false }).pirq 4))) ∧
  (∀ k ch, k < 16 → ch < 32 → s.stackLost k = false → s.lsHas (onStack k) = false → (s.cmap.stackRecs.getD k {}).chspr < 2 →
    exec (.fwLiveServiceStart (.chspare k ch)) s = .next (s.fwRun (.chspare k ch))) ∧
  (∀ id o, s.lsops.find? (·.id == id) = some o →
    let s1 : State := { s with lsops := s.lsops.filter (·.id != id), free := s.free + 1 }
    (o.gone = false → s.lsGone o.kind = false → s.lsWaits o.kind = false → exec (.lsOpComplete id true) s =
      .next (if o.cmd then (s1.publish (s.lsChange o.kind)).lsEnd o.kind.op 0 else (s1.publish (s.lsChange o.kind)).pirq 4)) ∧
    (o.gone = true ∨ s.lsGone o.kind = true → exec (.lsOpComplete id true) s = .next (if o.cmd then s1.lsEnd o.kind.op 5 else s1)) ∧
    exec (.lsOpComplete id false) s = .next (if o.cmd then s1.lsEnd o.kind.op 5 else s1))

/-! ## Events: observation, power, debugging -/

/-- 10 R290, R292, 13 R341, R343 to R346, R353 to R356: class shares, the power cap and its controller, the
limiter, droop, Fumarole and trace samples. The model's choice: the thread that a sample names (log 101), how the power
controllers move (log 102), that the limiter and the droop response change their status alone (log 103), and which values
FUMHEAD takes (log 114). -/
def Obligations.PowerAndFumarole : Prop := ∀ (s : State),
  (∀ d (val : DWord), 50 ≤ val.toNat / 256 % 128 → val.toNat / 256 % 128 ≤ 85 → val.toNat % 16 ≤ 8 →
    exec (.clsregWrite d val) s = .next { s with clsreg := listMod s.clsreg d fun _ => val &&& 0x7F0F }) ∧
  (∀ val : DWord, 1000 ≤ val.toNat % 65536 → val.toNat % 65536 ≤ 15000 →
    exec (.pwrcapWrite val) s = .next { s with pwrcap := val &&& 0x8000FFFF }) ∧
  (∀ power h, (s.pwrTicks + 1) * 100000 ≤ s.time →
    let seen := (power :: s.pwrSeen).take 10
    let s1 : State := { s with pwrTicks := s.pwrTicks + 1, pwrSeen := seen, pwr := (seen.foldl (· + ·) 0 / seen.length) % 65536 }
    (s.pwrcap.getLsbD 31 = true → s.pwrcap.toNat % 65536 < power → ∀ move, exec (.powerCapMeasure power move h) s = .next (s1.powerMore h)) ∧
    (power ≤ s.pwrcap.toNat % 65536 ∨ s.pwrcap.getLsbD 31 = false →
      exec (.powerCapMeasure power false h) s = .next s1 ∧ exec (.powerCapMeasure power true h) s = .next (s1.powerLess h))) ∧
  (exec .currentLimitExceeded s = .next { s with ilim := true }) ∧
  (exec (.currentBelowLimit true) s = .next { s with ilim := false }) ∧
  (∀ c, s.liveCore c = true → (∃ t, exec (.droopDetected c) s = .next t ∧ (t.core c).stretched = true) ∧
    ∃ t, exec (.droopRecovered c) s = .next t ∧ (t.core c).stretched = false) ∧
  (∀ val : DWord, 10 ≤ fumK (val &&& fumMask) → fumK (val &&& fumMask) ≤ 24 → fumEn s.fumctl = false → fumEn (val &&& fumMask) = true →
    exec (.fumctlWrite val) s = .next { s with fumctl := val &&& fumMask, fumtail := 0, fumhead := 0, fumtick := 0, fumfrom := s.time }) ∧
  (∀ val : DWord, (s.fumtail - val).toNat < 2 ^ 63 → exec (.fumheadWrite val) s = .next { s with fumhead := val }) ∧
  (∀ len, len = 576 + 136 * s.liveCores.length → fumEn s.fumctl = true → s.fumfrom + (s.fumtick + 1) * 2 ^ (fumK s.fumctl - 1) ≤ s.time →
    (fumSize s.fumctl < (s.fumtail - s.fumhead).toNat + len →
      exec (.fumaroleTick false) s = .next { s with fumtick := s.fumtick + 1, fumdrop := s.fumdrop + 1 }) ∧
    ((s.fumtail - s.fumhead).toNat + len ≤ fumSize s.fumctl → ∃ t, exec (.fumaroleTick false) s = .next t ∧
      t.fumtail = s.fumtail + BitVec.ofNat 64 len ∧ t.fumtick = s.fumtick + 1)) ∧
  (∀ c gid g v cl, (s.core c).lowestLane = some gid → s.group? c gid = some g → (s.ctx g.ctx).dbgVd = some v → g.clause = some cl →
    let w := (s.vd v).trsamp.toNat
    let ts := slotsOf (g.atPc cl.pc)
    w / 32 % 2 = 1 → 8 ≤ w % 32 → w % 32 ≤ 20 → s.clk c % 2 ^ (w % 32) = 0 → ts ≠ [] → (s.core c).sampled ≠ some (s.clk c) →
      exec (.traceSample c) s = .next ((({ s with free := s.free + 1 } : State).modCore c fun k => { k with sampled := some (s.clk c) }).trace c gid (ts.getD (Config.freeIdx s.free ts.length) 0) 3 0))

/-- 13 R350, R351, R352: the debugger's commands on a thread of the context that it may debug. The model's choice: RDREG of
a shape tag (log 98), that BADOP comes before NORIGHT (log 99), RUN and STEP at a breakpoint (log 100), and that a command
ends when it is written (log 34). -/
def Obligations.DebuggerCommands : Prop := ∀ (s : State) v (cmd : DWord), v < 64 →
  let c := dbgCore cmd
  let gid := dbgGid cmd
  let i := dbgSlot cmd
  (∀ g, s.dbgThread v cmd false = .ok g →
    (g.moving i = false → exec (.dbgHalt v cmd) s =
      .next (((s.dbgMod cmd fun t => { t with halted := true, stepping := false, starve := 0 }).trace c gid i 5 0).dbgEnd v cmd 1 0)) ∧
    (g.moving i = true → exec (.dbgHalt v cmd) s = .next ((s.dbgMod cmd fun t => { t with haltDue := true }).dbgEnd v cmd 1 0)) ∧
    exec (.dbgRun v cmd) s = .next ((s.dbgRelease cmd false).dbgEnd v cmd 2 0) ∧
    exec (.dbgStep v cmd) s = .next ((s.dbgRelease cmd true).dbgEnd v cmd 3 0)) ∧
  (∀ g, s.dbgThread v cmd true = .ok g →
    (∀ w, g.item i (dbgItem cmd) (s.vd v).dbgdata = some w →
      exec (.dbgRdreg v cmd) s = .next ((s.modVd v fun d => { d with dbgdata := w }).dbgEnd v cmd 4 0)) ∧
    (editBad (dbgItem cmd) (s.vd v).dbgdata = false → exec (.dbgWrreg v cmd) s = .next
      (((s.modGroup c gid fun g => g.addEdit (i, dbgItem cmd, (s.vd v).dbgdata)).markEdited (s.dbgTarget v) v).dbgEnd v cmd 5 0))) ∧
  (s.dbgRight v = false → exec (.dbgHalt v cmd) s = .next (s.dbgEnd v cmd 1 1)) ∧
  (s.dbgRight v = true → dbgItem cmd < 8 →
    ((s.vd v).dbgdata.toNat % 4 = 0 → exec (.dbgBpset v cmd) s =
      .next ((s.modVd v fun d => { d with bps := listMod d.bps (dbgItem cmd) fun _ => some (s.vd v).dbgdata }).dbgEnd v cmd 6 0)) ∧
    exec (.dbgBpclr v cmd) s = .next ((s.modVd v fun d => { d with bps := listMod d.bps (dbgItem cmd) fun _ => none }).dbgEnd v cmd 7 0)) ∧
  (8 ≤ cmd.toNat % 16 → exec (.dbgcmdBadop v cmd) s = .next (s.dbgEnd v cmd (cmd.toNat % 16) 5))

/-- 00 R4, R5, 12 R320, R332: a register without behaviour of its own reads back the fields that were
written. -/
def Obligations.RegistersReadBack : Prop := ∀ (s : State) (val : DWord),
  (∀ off mask, (off, mask) ∈ [(0x10810, 0xFFFF#64), (0x10820, 0x00FFFFFFFFFFF000), (0x10860, 0xFFFFFFFFFFFFFFFF), (0x10868, 0xFFFFFFFF),
      (0x10888, 0xFFFFFFFFFFFFFFFF), (0x40008, 0xFFFFFFFFFFFFFFFF), (0x51008, 0xFFFFFFFFFFFFFFFF), (0x61000, 0x3FF)] →
    s.l2ways.length = 2 → ∃ t, exec (.registerWrite .pkg off val) s = .next t ∧ t.readReg .pkg off = (val &&& mask).toNat) ∧
  (∀ v, v < 64 → ∃ t, exec (.registerWrite (.vd v) 0x2010 val) s = .next t ∧ t.readReg (.vd v) 0x2010 = val.toNat)

/-! ## Tags, new groups, special registers -/

/-- 03 R92, R93: the tag of a result: uniform when uniform-encoded, general for a partial executing set,
else the row of the table for the instruction. -/
def Obligations.ResultTags : Prop := ∀ (s : State) (p : Pass) (n : BitVec 6), s.pass? = some p → p.g.regs.length = 64 →
  (∀ i r, (intRow i = some r ∨ bitRow i = some r ∨ floatRow i = some r ∨ packedRow i = some r ∨ testRow i = some r ∨ crossRow i = some r) →
    laneReady s p r = true → r.dst = .v (.v n) false → r.nw = false → ∃ t g, exec i s = .next t ∧ t.group? p.core p.gid = some g ∧
      (r.u = true → ∃ w, (g.reg n.toNat).shape = .uniform w) ∧
      (r.u = false → p.ex ≠ p.g.active → (g.reg n.toNat).shape.tag = 2) ∧
      (r.u = false → (intRow i = some r ∧ (∀ q, i ≠ .iadd q false ∧ i ≠ .isub q false ∧ i ≠ .imul q)) ∨
          (bitRow i = some r ∧ (∀ q, i ≠ .shl q false)) ∨ floatRow i = some r ∨ packedRow i = some r ∨ testRow i = some r ∨
          (crossRow i = some r ∧ (p.g.tile ≠ 32 ∨ ((∀ nw d a stp, i ≠ .redx nw d a stp) ∧ ∀ nw d pa mode, i ≠ .vote nw d pa mode))) →
        (g.reg n.toNat).shape.tag = 2) ∧
      (p.ex = p.g.active → crossRow i = some r → p.g.tile = 32 →
        ((∃ nw d a stp, i = .redx nw d a stp) ∨ ∃ nw d pa mode, i = .vote nw d pa mode) → ∃ w, (g.reg n.toNat).shape = .uniform w)) ∧
  (∀ (r : R3) q, intRow (.imad r true) = some q → laneReady s p q = true → r.u = false → r.nw = false → r.d = .v n → n.toNat < 63 → ∃ t g, exec (.imad r true) s = .next t ∧ t.group? p.core p.gid = some g ∧
      (g.reg n.toNat).shape.tag = 2 ∧ (g.reg (n.toNat + 1)).shape.tag = 2) ∧
  (∀ a b : Src, laneReady s p (ssintRow false (.v n) a b) = true →
    ∃ t g, exec (.ssint false (.v n) a b) s = .next t ∧ t.group? p.core p.gid = some g ∧ (g.reg n.toNat).shape.tag = 2) ∧
  (∀ (a : AReg) r, moveRow s (.movx false false (.v n) a) = some r → laneReady s p r = true →
    ∃ t g, exec (.movx false false (.v n) a) s = .next t ∧ t.group? p.core p.gid = some g ∧ (g.reg n.toNat).shape.tag = 2) ∧
  (∀ w r, moveRow s (.unif n w) = some r → laneReady s p r = true → p.ex = p.g.active → n.toNat + w.toNat < 64 →
    ∃ t g, exec (.unif n w) s = .next t ∧ t.group? p.core p.gid = some g ∧ (g.reg n.toNat).shape.tag = 0 ∧ (g.reg (n.toNat + w.toNat)).shape.tag = 0) ∧
  (p.ex = p.g.active → ∀ a b : BitVec 6, let A := (p.g.reg a.toNat).shape
    let B := (p.g.reg b.toNat).shape
    let q : R3 := ⟨false, false, .v n, .v a, .v b⟩
    let gives (i : Instr) (sh : Shape) : Prop := ∃ t g, exec i s = .next t ∧ t.group? p.core p.gid = some g ∧ (g.reg n.toNat).shape = sh
    laneReady s p (row3 q fun _ _ => 0) = true →
      (∀ x y d e, A.parts = some (x, d) → B.parts = some (y, e) →
        gives (.iadd q false) (A.joined B (x + y) (d + e)) ∧ gives (.isub q false) (A.joined B (x - y) (d - e)) ∧
        (B.tag = 0 → gives (.imul q) (A.joined A (x * y) (d * y)) ∧
          gives (.shl q false) (A.joined A (if 32 ≤ y.toNat then 0 else x <<< y.toNat) (if 32 ≤ y.toNat then 0 else d <<< y.toNat))) ∧
        (A.tag = 0 → gives (.imul q) (B.joined B (x * y) (e * x)))) ∧
      (A.parts = none ∨ B.parts = none → ∀ i ∈ [Instr.iadd q false, .isub q false, .imul q], ∃ sh, sh.tag = 2 ∧ gives i sh) ∧
      (A.tag = 1 → B.tag = 1 → ∃ sh, sh.tag = 2 ∧ gives (.imul q) sh) ∧
      (A.tag = 2 ∨ B.tag ≠ 0 → ∃ sh, sh.tag = 2 ∧ gives (.shl q false) sh) ∧
      (A.isUni = true → B.isUni = true → gives (.aff false (.v n) (.v a) (.v b)) (.affine (A.val 0) (B.val 0))) ∧
      gives (.mov ⟨false, false, .v n, .v a⟩ false) A ∧
      (p.g.tile = 32 → (∀ stp : BitVec 4, stp.toNat < 8 → ∃ w, gives (.redx false (.v n) (.v a) stp) (.uniform w)) ∧
        ∀ pa mode, ∃ w, gives (.vote false (.reg (.v n)) pa mode) (.uniform w)))

/-- 20 R467, 02 R79: a group that placement forms has its registers zero and uniform and its predicates
false and uniform; a reassigned group keeps members and slots and starts the new stage fresh. -/
def Obligations.NewGroupsStartBlank : Prop :=
  (∀ (s t : State) c gid g, exec .placement s = .next t → s.group? c gid = none → t.group? c gid = some g →
    g.blank ∧ g.trapv = (s.ctx g.ctx).trapv0 ∧ g.tile = 32 ∧ g.fsr = 0) ∧
  (∀ (g : Group) (n : Nat) (entry : DWord), (g.toStage n entry).blank ∧ (g.toStage n entry).tile = 32 ∧ (g.toStage n entry).fsr = 0 ∧
    (g.toStage n entry).fcr = g.fcr ∧ (g.toStage n entry).trapv = g.trapv ∧
    ∀ i, i < g.threads.length → i < 32 → ((g.toStage n entry).th i).st = (g.th i).st ∧ ((g.toStage n entry).th i).tix = (g.th i).tix ∧
      (g.active.getLsbD i = true → ((g.toStage n entry).th i).pc = entry ∧ ((g.toStage n entry).th i).meet = 0xFFFFFFFFFFFFFFFF ∧
        ((g.toStage n entry).th i).nest = 0))

/-- 03 R93, R97, 01 R12, R27: what MOVS reads of each special register but CLK, and its tag when it is uniform-encoded or
every active thread executes; CORE, CLUS and DIE of a logical core; CMV is the map version in force at the group's most
recent clause boundary. -/
def Obligations.MapAndPlaceRead : Prop :=
  (∀ (s : State) (p : Pass) (u : Bool) (n : BitVec 6) (die l : Nat), s.pass? = some p → p.g.regs.length = 64 → p.orderly = true → n.toNat % 2 = 0 →
    (s.core p.core).bHeld p.gid p.g n.toNat = false → (s.core p.core).bHeld p.gid p.g (n.toNat + 1) = false →
    let per (sr : BitVec 7) (tag : Nat) (v : Nat → Nat) : Prop := ∃ t g, exec (.movs u false (.v n) sr) s = .next t ∧
      t.group? p.core p.gid = some g ∧
      (∀ i, p.ex.getLsbD i = true → let x := v (if u then lowSlot p.ex else i)
        (g.reg n.toNat).shape.val i = BitVec.ofNat 32 x ∧
        (sr64 sr.toNat = true → (g.reg (n.toNat + 1)).shape.val i = BitVec.ofNat 32 (x / 2 ^ 32))) ∧
      (let tagged (k : Nat) : Prop := (g.reg n.toNat).shape.tag = k ∧ (sr64 sr.toNat = true → (g.reg (n.toNat + 1)).shape.tag = k);
        (u = true → tagged 0) ∧ (u = false → p.ex = p.g.active → tagged tag) ∧ (u = false → p.ex ≠ p.g.active → tagged 2))
    let reads (sr : BitVec 7) (v : Nat) : Prop := per sr 0 fun _ => v
    let x := s.ctx p.g.ctx
    let b := s.blockOf p.core p.g
    let first := lowSlot p.ex
    (die < 2 → l < 192 → p.core = die * 192 + l → reads 0x06 (die * 192 + l) ∧ reads 0x07 (die * 48 + l / 4) ∧ reads 0x08 die) ∧
    per 0x00 1 (fun i => i) ∧ reads 0x01 (slotCount p.ex) ∧
    (p.g.placed = false → per 0x02 2 fun i => (p.g.th i).tix.toNat) ∧
    (p.g.placed = true → (∀ i, p.ex.getLsbD i = true → (p.g.th i).tix.toNat + first = (p.g.th first).tix.toNat + i) →
      per 0x02 1 fun i => (p.g.th i).tix.toNat) ∧
    reads 0x03 b.bix ∧ reads 0x04 b.nblk ∧ reads 0x05 p.gid ∧ reads 0x09 p.g.tile ∧ reads 0x0A p.g.fcr.toNat ∧ reads 0x0B p.g.fsr.toNat ∧
    reads 0x0C p.g.seed.toNat ∧ per 0x0D 2 (fun i => (p.g.th i).ssadv.toNat) ∧
    reads 0x0E (p.g.cp.toNat + 2 ^ 8 * p.g.gt.toNat + 2 ^ 16 * p.g.mt.toNat + 2 ^ 24 * p.g.cl.toNat) ∧ reads 0x0F x.cls.toNat ∧
    reads 0x10 x.part ∧ reads 0x11 x.vd ∧ reads 0x12 p.g.ctx ∧ reads 0x13 x.tdm.toNat ∧ reads 0x14 p.g.fmask.toNat ∧
    per 0x15 2 (fun i => (p.g.fcode.getD i 0).toNat) ∧ reads 0x16 p.g.finfo.toNat ∧ reads 0x20 p.g.fpc.toNat ∧
    per 0x22 2 (fun i => (p.g.faddr.getD i 0).toNat) ∧ reads 0x24 p.g.trapv.toNat ∧ reads 0x26 x.cmapva.toNat ∧
    reads 0x28 p.cl.cmv ∧ reads 0x2A x.ackv ∧ (p.g.region = none → reads 0x2E 0) ∧ (∀ r, p.g.region = some r → reads 0x2E r.rgpc.toNat)) ∧
  (∀ (s t : State) c gid g x cl, s.group? c gid = some g → g.clause = none → exec (.fullIssue c gid) s = .next t →
    t.group? c gid = some x → x.clause = some cl → cl.cmv = s.cmap.cmv) ∧
  (∀ a b, a < 384 → b < 384 → (clusOf a = clusOf b ↔ a / 192 = b / 192 ∧ a % 192 / 4 = b % 192 / 4))

/-! ## Faults -/

/-- 03 R91, R102, 05 R153, 02 R71, 11 R294, R295: operands that are not uniform fault a uniform-encoded
pass; a thread whose exception is enabled stays on the instruction with its register unwritten while
the others commit. -/
def Obligations.OperandFaults : Prop := ∀ (i : Instr) (r : LaneRow) (s : State) (p : Pass), s.pass? = some p → p.trappable = true →
  ((intRow i = some r ∨ bitRow i = some r ∨ floatRow i = some r ∨ packedRow i = some r ∨ testRow i = some r) →
    r.u = true → (r.srcs.any fun (a, pair) => !(p.src a pair).isUni pair) = true → r.chan = false →
      exec i s = .next (s.faulted p i (faultsOf p.ex .uniformOperand 0))) ∧
  (∀ n, floatRow i = some r → r.u = false → r.nw = false → r.dst = .v (.v n) false → r.chan = false → p.cl.pos < p.cl.count → p.g.regs.length = 64 →
    r.srcs.all (fun (a, pair) => (p.src a pair).ue == 0) = true → (s.core p.core).bHeld p.gid p.g n.toNat = false →
    (slotsOf p.ex).any (fun t => p.g.fpeOf (r.exc p (p.svals r.srcs) t)) = true →
      ∃ t g f, exec i s = .next t ∧ t.group? p.core p.gid = some g ∧ g.pend = p.g.pend ++ [f] ∧ f.pos = p.cl.pos ∧ f.pc = p.cl.pc ∧
        ∀ k, p.ex.getLsbD k = true →
          let ex := r.exc p (p.svals r.srcs) k
          if p.g.fpeOf ex then ⟨k, .fpe, BitVec.ofNat 64 ex⟩ ∈ f.faults ∧ (g.th k).pc = (p.g.th k).pc ∧
            (g.reg n.toNat).shape.val k = (p.g.reg n.toNat).shape.val k
          else (g.th k).pc = p.cl.after (lenOf i) ∧ (g.reg n.toNat).shape.val k = (r.result p k).setWidth 32)

/-- 11 R295, R299, R305, 03 R102: a Stop fault, any fault in handler mode, and a User fault with TRAPV 0
at the end of its clause stop the context: SAVING with REASON FAULT and the code, no clause of it running. -/
def Obligations.StopsSuspendTheContext : Prop := ∀ (s : State) (p : Pass), s.pass? = some p → p.ex ≠ 0 → p.g.unstepped = true →
  (s.ctx p.g.ctx).st = .active → (s.ctx p.g.ctx).code = none →
    let stops (i : Instr) (code : FCode) : Prop := ∃ t, exec i s = .next t ∧ (t.ctx p.g.ctx).st = .saving ∧
      (t.ctx p.g.ctx).reason = .fault ∧ (t.ctx p.g.ctx).code = some code ∧ (t.ctx p.g.ctx).stoppc = p.cl.pc ∧
      ∀ c gid g, t.group? c gid = some g → g.ctx = p.g.ctx → g.clause = none
    (∀ i r, (intRow i = some r ∨ bitRow i = some r) → r.u = false → r.chan = false → p.g.handler = false →
      (r.regs.all fun n => !(s.core p.core).bHeld p.gid p.g n) = true →
      (r.srcs.any fun (a, pair) => ((p.src a pair).ue &&& p.ex) != 0) = true → stops i .memUe) ∧
    (p.g.handler = true → ∀ u n, stops (.trap u n) .doubleFault) ∧
    (p.g.handler = false → p.g.trapv = 0 → p.g.pend = [] → p.g.debugEdits = [] → p.cl.pos = p.cl.count → p.cl.re = false →
      ∀ u n, stops (.trap u n) .trap)

/-! ## Decoding -/

/-- 04 R104 to R123: words written out from the encodings decode to the instructions they stand for. -/
def Obligations.WordsDecode : Prop :=
  decode 0x00008206 [] = .ok (.iadd ⟨false, false, .v 1, .v 2, .v 3⟩ false) ∧
  decode 0x12008104 [] = .ok (.xor_ ⟨false, false, .v 1, .v 1, .v 2⟩) ∧
  decode 0x4B008206 [] = .ok (.selp ⟨false, false, .v 1, .v 2, .v 3⟩ 3) ∧
  decode 0x51018288 [1] = .ok (.shfd false (.v 3) (.v 2) (.lit32 1)) ∧
  decode 0x8F000282 [] = .ok (.pfg false false (.v 10) (.imm 2)) ∧
  decode 0xB3800900 [] = .ok (.mbind (.v 9) false) ∧
  decode 0xE6004402 [0x3E8] = .ok (.nap false (.lit32 0x3E8) true) ∧
  decode 0xF0000012 [] = .ok (.trap false 9) ∧ decode 0xF1000001 [] = .ok (.rte true) ∧ decode 0xD4800000 [] = .ok (.ret true) ∧
  decode 0xC0000000 [] = .error .opcode ∧ decode 0x00008207 [] = .ok (.iadd ⟨false, false, .v 1, .v 2, .v 3⟩ true) ∧
  decode 0x12008105 [] = .error .operand

/-- 04 R104 to R122: the words of a well-formed instruction decode to it, with as many literals as its
first word announces; and words that decode are those of the instruction. -/
def Obligations.EncodingsRoundTrip : Prop :=
  (∀ i : Instr, i.wf = true → encode i ≠ [] →
    decode ((encode i).headD 0).toNat (encode i).tail = .ok i ∧ litCount ((encode i).headD 0).toNat = (encode i).tail.length) ∧
  (∀ (w : Word) (ls : List Word) (i : Instr), ls.length = litCount w.toNat → decode w.toNat ls = .ok i → i.wf = true ∧ encode i = w :: ls)

/-! ## Steps and the machine as a whole -/

/-- 04 R104, R105, R124, 02 R56: a step runs the oldest item of the agenda; the next pass of a clause is
of the instruction that the bytes at its address decode to, with the pass's counts added. The model's choice: the agenda
(log 1), where a clause is cut (log 50), and that a held pass is tried again as a whole (log 61). -/
def Obligations.StepsRunTheDecodedInstruction : Prop := ∀ (s : State) (rest : List Sched), let s0 : State := { s with agenda := rest }
  (∀ i, s.agenda = .ev i :: rest → step s = exec i s0) ∧
  (∀ c gid g cl w ls i s2, s.agenda = .lane c gid :: rest → s0.group? c gid = some g → g.clause = some cl →
    s0.codeWord g.launch (cl.codePa cl.pc) = some w →
    s0.codeLits g.launch { cl.codePa cl.pc with addr := (cl.codePa cl.pc).addr + 4 } (litCount w) = .inl ls → decode w ls = .ok i →
    decodeFault cl w (.ok i) = none → cl.cut = false → g.atPc cl.pc ≠ 0 → s0.bpHits g cl.pc (g.atPc cl.pc) (allOrNone w) = 0 →
    let s1 : State := { (s0.codeStep g.launch (cl.codePa cl.pc)).countPass c g.ctx w (slotCount (g.atPc cl.pc)) with
      focus := some (c, gid) }
    exec i s1 = .next s2 → step s = .next (if s1.stalled s2 c gid then s0 else s2.afterCut c gid 0))

/-- log 11: every step keeps every memory in canonical form. -/
def Obligations.StepsKeepMemory : Prop := ∀ s t : State, s.memoryWf = true → step s = .next t → t.memoryWf = true

/-- log 11, 06 R179, R182, R191, R194, R196: the memories are in canonical form at reset, and TLBINVA, TLBINVC, LATEPR, the
L2WAYS registers, RTSTAT and RFLUSH hold the values of their rules. -/
def Obligations.MemoryAtReset : Prop := State.reset.memoryWf = true ∧
  (∀ off, off ∈ [0x10820, 0x10828, 0x10830, 0x10800, 0x10858] → State.reset.readReg .pkg off = 0) ∧
  State.reset.readReg .pkg 0x10810 = 0xF ∧ State.reset.readReg .pkg 0x10818 = 0xF

/-- 01 R25, R31, R43, R45, 09 R254, R255, 11 R303, 12 R319, R322, R334, R336, 13 R348: the map version and SEQ, MAPGRC, LSARG, the
package interrupt registers, CTXARG, KEYARG, FABID, the registers of the queues and of the virtual devices at reset; no
context exists and no group. -/
def Obligations.RegistersAtReset : Prop := let s := State.reset
  s.cmap.cmv = 1 ∧ s.cmap.seq = 0 ∧ s.readReg .pkg 0x10850 = 5 ∧
  (∀ off, off ∈ [0x10860, 0x10868, 0x10870, 0x10888, 0x40008, 0x51008] → s.readReg .pkg off = 0) ∧
  s.readReg .pkg 0x61000 = 0x3FF ∧
  (∀ q, q < 1024 → s.readReg .pkg (0x20000 + 32 * q) = 0 ∧ s.readReg .pkg (0x20010 + 32 * q) = 0 ∧ s.readReg .pkg (0x20018 + 32 * q) = 0 ∧
    s.readReg .pkg (0x20014 + 32 * q) = 0 ∧ s.readReg .pkg (0xE4000 + 8 * q) = 0) ∧
  (∀ v, v < 64 → s.readReg .pkg (0x50000 + 64 * v + 0x14) = 1000 ∧ s.readReg .pkg (0x50000 + 64 * v + 0x30) = 0 ∧
    s.readReg .pkg (0x50000 + 64 * v + 0x38) = 0) ∧
  (∀ c, c < 4096 → (s.ctx c).st = .free) ∧ (∀ c gid, s.group? c gid = none)
end

