-- ==== Sys2Proof/Laws/State.lean ====
section
/-! SUPPORT. What each update of the state leaves alone: one lemma per field per update, so that no
later proof unfolds a record update. -/

namespace Sys2Proof.Machine

/-! ## Updates by function are updates by value -/

theorem State.modCore_eq (s : State) (c : Nat) (f : Core → Core) : s.modCore c f = s.setCore c (f (s.core c)) := rfl
theorem State.modCtx_eq (s : State) (c : Nat) (f : Context → Context) : s.modCtx c f = s.setCtx c (f (s.ctx c)) := rfl
theorem State.modVd_eq (s : State) (v : Nat) (f : VDev → VDev) : s.modVd v f = s.setVd v (f (s.vd v)) := rfl
theorem State.modQueue_eq (s : State) (q : Nat) (f : Queue → Queue) : s.modQueue q f = s.setQueue q (f (s.queue q)) := rfl

/-! ## State.setCore -/

@[simp] theorem State.setCore_agenda (s : State) (c : Nat) (x : Core) : (s.setCore c x).agenda = s.agenda := rfl
@[simp] theorem State.setCore_focus (s : State) (c : Nat) (x : Core) : (s.setCore c x).focus = s.focus := rfl
@[simp] theorem State.setCore_free (s : State) (c : Nat) (x : Core) : (s.setCore c x).free = s.free := rfl
@[simp] theorem State.setCore_nextId (s : State) (c : Nat) (x : Core) : (s.setCore c x).nextId = s.nextId := rfl
@[simp] theorem State.setCore_hist (s : State) (c : Nat) (x : Core) : (s.setCore c x).hist = s.hist := rfl
@[simp] theorem State.setCore_time (s : State) (c : Nat) (x : Core) : (s.setCore c x).time = s.time := rfl
@[simp] theorem State.setCore_dieClk (s : State) (c : Nat) (x : Core) : (s.setCore c x).dieClk = s.dieClk := rfl
@[simp] theorem State.setCore_dmem (s : State) (c : Nat) (x : Core) : (s.setCore c x).dmem = s.dmem := rfl
@[simp] theorem State.setCore_hmem (s : State) (c : Nat) (x : Core) : (s.setCore c x).hmem = s.hmem := rfl
@[simp] theorem State.setCore_memUe (s : State) (c : Nat) (x : Core) : (s.setCore c x).memUe = s.memUe := rfl
@[simp] theorem State.setCore_cmap (s : State) (c : Nat) (x : Core) : (s.setCore c x).cmap = s.cmap := rfl
@[simp] theorem State.setCore_mapgrc (s : State) (c : Nat) (x : Core) : (s.setCore c x).mapgrc = s.mapgrc := rfl
@[simp] theorem State.setCore_lsarg (s : State) (c : Nat) (x : Core) : (s.setCore c x).lsarg = s.lsarg := rfl
@[simp] theorem State.setCore_lscmd (s : State) (c : Nat) (x : Core) : (s.setCore c x).lscmd = s.lscmd := rfl
@[simp] theorem State.setCore_lsops (s : State) (c : Nat) (x : Core) : (s.setCore c x).lsops = s.lsops := rfl
@[simp] theorem State.setCore_bootCount (s : State) (c : Nat) (x : Core) : (s.setCore c x).bootCount = s.bootCount := rfl
@[simp] theorem State.setCore_linkReady (s : State) (c : Nat) (x : Core) : (s.setCore c x).linkReady = s.linkReady := rfl
@[simp] theorem State.setCore_mgmtOnly (s : State) (c : Nat) (x : Core) : (s.setCore c x).mgmtOnly = s.mgmtOnly := rfl
@[simp] theorem State.setCore_badBanks (s : State) (c : Nat) (x : Core) : (s.setCore c x).badBanks = s.badBanks := rfl
@[simp] theorem State.setCore_selfTest (s : State) (c : Nat) (x : Core) : (s.setCore c x).selfTest = s.selfTest := rfl
@[simp] theorem State.setCore_tlbinva (s : State) (c : Nat) (x : Core) : (s.setCore c x).tlbinva = s.tlbinva := rfl
@[simp] theorem State.setCore_tlbinvc (s : State) (c : Nat) (x : Core) : (s.setCore c x).tlbinvc = s.tlbinvc := rfl
@[simp] theorem State.setCore_tlbRun (s : State) (c : Nat) (x : Core) : (s.setCore c x).tlbRun = s.tlbRun := rfl
@[simp] theorem State.setCore_latepr (s : State) (c : Nat) (x : Core) : (s.setCore c x).latepr = s.latepr := rfl
@[simp] theorem State.setCore_l2ways (s : State) (c : Nat) (x : Core) : (s.setCore c x).l2ways = s.l2ways := rfl
@[simp] theorem State.setCore_clsreg (s : State) (c : Nat) (x : Core) : (s.setCore c x).clsreg = s.clsreg := rfl
@[simp] theorem State.setCore_rflush (s : State) (c : Nat) (x : Core) : (s.setCore c x).rflush = s.rflush := rfl
@[simp] theorem State.setCore_rflushLost (s : State) (c : Nat) (x : Core) : (s.setCore c x).rflushLost = s.rflushLost := rfl
@[simp] theorem State.setCore_rtstat (s : State) (c : Nat) (x : Core) : (s.setCore c x).rtstat = s.rtstat := rfl
@[simp] theorem State.setCore_regions (s : State) (c : Nat) (x : Core) : (s.setCore c x).regions = s.regions := rfl
@[simp] theorem State.setCore_oldLines (s : State) (c : Nat) (x : Core) : (s.setCore c x).oldLines = s.oldLines := rfl
@[simp] theorem State.setCore_oldWords (s : State) (c : Nat) (x : Core) : (s.setCore c x).oldWords = s.oldWords := rfl
@[simp] theorem State.setCore_l2lines (s : State) (c : Nat) (x : Core) : (s.setCore c x).l2lines = s.l2lines := rfl
@[simp] theorem State.setCore_written (s : State) (c : Nat) (x : Core) : (s.setCore c x).written = s.written := rfl
@[simp] theorem State.setCore_l2tlb (s : State) (c : Nat) (x : Core) : (s.setCore c x).l2tlb = s.l2tlb := rfl
@[simp] theorem State.setCore_walkCache (s : State) (c : Nat) (x : Core) : (s.setCore c x).walkCache = s.walkCache := rfl
@[simp] theorem State.setCore_walks (s : State) (c : Nat) (x : Core) : (s.setCore c x).walks = s.walks := rfl
@[simp] theorem State.setCore_walkKept (s : State) (c : Nat) (x : Core) : (s.setCore c x).walkKept = s.walkKept := rfl
@[simp] theorem State.setCore_walkFailed (s : State) (c : Nat) (x : Core) : (s.setCore c x).walkFailed = s.walkFailed := rfl
@[simp] theorem State.setCore_queues (s : State) (c : Nat) (x : Core) : (s.setCore c x).queues = s.queues := rfl
@[simp] theorem State.setCore_launches (s : State) (c : Nat) (x : Core) : (s.setCore c x).launches = s.launches := rfl
@[simp] theorem State.setCore_claims (s : State) (c : Nat) (x : Core) : (s.setCore c x).claims = s.claims := rfl
@[simp] theorem State.setCore_parts (s : State) (c : Nat) (x : Core) : (s.setCore c x).parts = s.parts := rfl
@[simp] theorem State.setCore_pmctl (s : State) (c : Nat) (x : Core) : (s.setCore c x).pmctl = s.pmctl := rfl
@[simp] theorem State.setCore_pmSt (s : State) (c : Nat) (x : Core) : (s.setCore c x).pmSt = s.pmSt := rfl
@[simp] theorem State.setCore_pmCode (s : State) (c : Nat) (x : Core) : (s.setCore c x).pmCode = s.pmCode := rfl
@[simp] theorem State.setCore_closing (s : State) (c : Nat) (x : Core) : (s.setCore c x).closing = s.closing := rfl
@[simp] theorem State.setCore_ctxs (s : State) (c : Nat) (x : Core) : (s.setCore c x).ctxs = s.ctxs := rfl
@[simp] theorem State.setCore_ctxcmd (s : State) (c : Nat) (x : Core) : (s.setCore c x).ctxcmd = s.ctxcmd := rfl
@[simp] theorem State.setCore_ctxarg (s : State) (c : Nat) (x : Core) : (s.setCore c x).ctxarg = s.ctxarg := rfl
@[simp] theorem State.setCore_keycmd (s : State) (c : Nat) (x : Core) : (s.setCore c x).keycmd = s.keycmd := rfl
@[simp] theorem State.setCore_keyarg (s : State) (c : Nat) (x : Core) : (s.setCore c x).keyarg = s.keyarg := rfl
@[simp] theorem State.setCore_keys (s : State) (c : Nat) (x : Core) : (s.setCore c x).keys = s.keys := rfl
@[simp] theorem State.setCore_vdevs (s : State) (c : Nat) (x : Core) : (s.setCore c x).vdevs = s.vdevs := rfl
@[simp] theorem State.setCore_pirqaddr (s : State) (c : Nat) (x : Core) : (s.setCore c x).pirqaddr = s.pirqaddr := rfl
@[simp] theorem State.setCore_pirqdata (s : State) (c : Nat) (x : Core) : (s.setCore c x).pirqdata = s.pirqdata := rfl
@[simp] theorem State.setCore_pirqst (s : State) (c : Nat) (x : Core) : (s.setCore c x).pirqst = s.pirqst := rfl
@[simp] theorem State.setCore_fabid (s : State) (c : Nat) (x : Core) : (s.setCore c x).fabid = s.fabid := rfl
@[simp] theorem State.setCore_fabdrop (s : State) (c : Nat) (x : Core) : (s.setCore c x).fabdrop = s.fabdrop := rfl
@[simp] theorem State.setCore_faballow (s : State) (c : Nat) (x : Core) : (s.setCore c x).faballow = s.faballow := rfl
@[simp] theorem State.setCore_fgroups (s : State) (c : Nat) (x : Core) : (s.setCore c x).fgroups = s.fgroups := rfl
@[simp] theorem State.setCore_colls (s : State) (c : Nat) (x : Core) : (s.setCore c x).colls = s.colls := rfl
@[simp] theorem State.setCore_frames (s : State) (c : Nat) (x : Core) : (s.setCore c x).frames = s.frames := rfl
@[simp] theorem State.setCore_sentFrames (s : State) (c : Nat) (x : Core) : (s.setCore c x).sentFrames = s.sentFrames := rfl
@[simp] theorem State.setCore_dieCtr (s : State) (c : Nat) (x : Core) : (s.setCore c x).dieCtr = s.dieCtr := rfl
@[simp] theorem State.setCore_fumctl (s : State) (c : Nat) (x : Core) : (s.setCore c x).fumctl = s.fumctl := rfl
@[simp] theorem State.setCore_fumtail (s : State) (c : Nat) (x : Core) : (s.setCore c x).fumtail = s.fumtail := rfl
@[simp] theorem State.setCore_fumhead (s : State) (c : Nat) (x : Core) : (s.setCore c x).fumhead = s.fumhead := rfl
@[simp] theorem State.setCore_fumdrop (s : State) (c : Nat) (x : Core) : (s.setCore c x).fumdrop = s.fumdrop := rfl
@[simp] theorem State.setCore_fumtick (s : State) (c : Nat) (x : Core) : (s.setCore c x).fumtick = s.fumtick := rfl
@[simp] theorem State.setCore_fumfrom (s : State) (c : Nat) (x : Core) : (s.setCore c x).fumfrom = s.fumfrom := rfl
@[simp] theorem State.setCore_usageTicks (s : State) (c : Nat) (x : Core) : (s.setCore c x).usageTicks = s.usageTicks := rfl
@[simp] theorem State.setCore_pastCtxs (s : State) (c : Nat) (x : Core) : (s.setCore c x).pastCtxs = s.pastCtxs := rfl
@[simp] theorem State.setCore_pwrcap (s : State) (c : Nat) (x : Core) : (s.setCore c x).pwrcap = s.pwrcap := rfl
@[simp] theorem State.setCore_pwr (s : State) (c : Nat) (x : Core) : (s.setCore c x).pwr = s.pwr := rfl
@[simp] theorem State.setCore_pwrStep (s : State) (c : Nat) (x : Core) : (s.setCore c x).pwrStep = s.pwrStep := rfl
@[simp] theorem State.setCore_pwrBin (s : State) (c : Nat) (x : Core) : (s.setCore c x).pwrBin = s.pwrBin := rfl
@[simp] theorem State.setCore_pwrTicks (s : State) (c : Nat) (x : Core) : (s.setCore c x).pwrTicks = s.pwrTicks := rfl
@[simp] theorem State.setCore_pwrSeen (s : State) (c : Nat) (x : Core) : (s.setCore c x).pwrSeen = s.pwrSeen := rfl
@[simp] theorem State.setCore_hfrac (s : State) (c : Nat) (x : Core) : (s.setCore c x).hfrac = s.hfrac := rfl
@[simp] theorem State.setCore_ilim (s : State) (c : Nat) (x : Core) : (s.setCore c x).ilim = s.ilim := rfl

/-! ## State.setGroup -/

@[simp] theorem State.setGroup_agenda (s : State) (c g : Nat) (x : Group) : (s.setGroup c g x).agenda = s.agenda := rfl
@[simp] theorem State.setGroup_focus (s : State) (c g : Nat) (x : Group) : (s.setGroup c g x).focus = s.focus := rfl
@[simp] theorem State.setGroup_free (s : State) (c g : Nat) (x : Group) : (s.setGroup c g x).free = s.free := rfl
@[simp] theorem State.setGroup_nextId (s : State) (c g : Nat) (x : Group) : (s.setGroup c g x).nextId = s.nextId := rfl
@[simp] theorem State.setGroup_hist (s : State) (c g : Nat) (x : Group) : (s.setGroup c g x).hist = s.hist := rfl
@[simp] theorem State.setGroup_time (s : State) (c g : Nat) (x : Group) : (s.setGroup c g x).time = s.time := rfl
@[simp] theorem State.setGroup_dieClk (s : State) (c g : Nat) (x : Group) : (s.setGroup c g x).dieClk = s.dieClk := rfl
@[simp] theorem State.setGroup_dmem (s : State) (c g : Nat) (x : Group) : (s.setGroup c g x).dmem = s.dmem := rfl
@[simp] theorem State.setGroup_hmem (s : State) (c g : Nat) (x : Group) : (s.setGroup c g x).hmem = s.hmem := rfl
@[simp] theorem State.setGroup_memUe (s : State) (c g : Nat) (x : Group) : (s.setGroup c g x).memUe = s.memUe := rfl
@[simp] theorem State.setGroup_cmap (s : State) (c g : Nat) (x : Group) : (s.setGroup c g x).cmap = s.cmap := rfl
@[simp] theorem State.setGroup_mapgrc (s : State) (c g : Nat) (x : Group) : (s.setGroup c g x).mapgrc = s.mapgrc := rfl
@[simp] theorem State.setGroup_lsarg (s : State) (c g : Nat) (x : Group) : (s.setGroup c g x).lsarg = s.lsarg := rfl
@[simp] theorem State.setGroup_lscmd (s : State) (c g : Nat) (x : Group) : (s.setGroup c g x).lscmd = s.lscmd := rfl
@[simp] theorem State.setGroup_lsops (s : State) (c g : Nat) (x : Group) : (s.setGroup c g x).lsops = s.lsops := rfl
@[simp] theorem State.setGroup_bootCount (s : State) (c g : Nat) (x : Group) : (s.setGroup c g x).bootCount = s.bootCount := rfl
@[simp] theorem State.setGroup_linkReady (s : State) (c g : Nat) (x : Group) : (s.setGroup c g x).linkReady = s.linkReady := rfl
@[simp] theorem State.setGroup_mgmtOnly (s : State) (c g : Nat) (x : Group) : (s.setGroup c g x).mgmtOnly = s.mgmtOnly := rfl
@[simp] theorem State.setGroup_badBanks (s : State) (c g : Nat) (x : Group) : (s.setGroup c g x).badBanks = s.badBanks := rfl
@[simp] theorem State.setGroup_selfTest (s : State) (c g : Nat) (x : Group) : (s.setGroup c g x).selfTest = s.selfTest := rfl
@[simp] theorem State.setGroup_tlbinva (s : State) (c g : Nat) (x : Group) : (s.setGroup c g x).tlbinva = s.tlbinva := rfl
@[simp] theorem State.setGroup_tlbinvc (s : State) (c g : Nat) (x : Group) : (s.setGroup c g x).tlbinvc = s.tlbinvc := rfl
@[simp] theorem State.setGroup_tlbRun (s : State) (c g : Nat) (x : Group) : (s.setGroup c g x).tlbRun = s.tlbRun := rfl
@[simp] theorem State.setGroup_latepr (s : State) (c g : Nat) (x : Group) : (s.setGroup c g x).latepr = s.latepr := rfl
@[simp] theorem State.setGroup_l2ways (s : State) (c g : Nat) (x : Group) : (s.setGroup c g x).l2ways = s.l2ways := rfl
@[simp] theorem State.setGroup_clsreg (s : State) (c g : Nat) (x : Group) : (s.setGroup c g x).clsreg = s.clsreg := rfl
@[simp] theorem State.setGroup_rflush (s : State) (c g : Nat) (x : Group) : (s.setGroup c g x).rflush = s.rflush := rfl
@[simp] theorem State.setGroup_rflushLost (s : State) (c g : Nat) (x : Group) : (s.setGroup c g x).rflushLost = s.rflushLost := rfl
@[simp] theorem State.setGroup_rtstat (s : State) (c g : Nat) (x : Group) : (s.setGroup c g x).rtstat = s.rtstat := rfl
@[simp] theorem State.setGroup_regions (s : State) (c g : Nat) (x : Group) : (s.setGroup c g x).regions = s.regions := rfl
@[simp] theorem State.setGroup_oldLines (s : State) (c g : Nat) (x : Group) : (s.setGroup c g x).oldLines = s.oldLines := rfl
@[simp] theorem State.setGroup_oldWords (s : State) (c g : Nat) (x : Group) : (s.setGroup c g x).oldWords = s.oldWords := rfl
@[simp] theorem State.setGroup_l2lines (s : State) (c g : Nat) (x : Group) : (s.setGroup c g x).l2lines = s.l2lines := rfl
@[simp] theorem State.setGroup_written (s : State) (c g : Nat) (x : Group) : (s.setGroup c g x).written = s.written := rfl
@[simp] theorem State.setGroup_l2tlb (s : State) (c g : Nat) (x : Group) : (s.setGroup c g x).l2tlb = s.l2tlb := rfl
@[simp] theorem State.setGroup_walkCache (s : State) (c g : Nat) (x : Group) : (s.setGroup c g x).walkCache = s.walkCache := rfl
@[simp] theorem State.setGroup_walks (s : State) (c g : Nat) (x : Group) : (s.setGroup c g x).walks = s.walks := rfl
@[simp] theorem State.setGroup_walkKept (s : State) (c g : Nat) (x : Group) : (s.setGroup c g x).walkKept = s.walkKept := rfl
@[simp] theorem State.setGroup_walkFailed (s : State) (c g : Nat) (x : Group) : (s.setGroup c g x).walkFailed = s.walkFailed := rfl
@[simp] theorem State.setGroup_queues (s : State) (c g : Nat) (x : Group) : (s.setGroup c g x).queues = s.queues := rfl
@[simp] theorem State.setGroup_launches (s : State) (c g : Nat) (x : Group) : (s.setGroup c g x).launches = s.launches := rfl
@[simp] theorem State.setGroup_claims (s : State) (c g : Nat) (x : Group) : (s.setGroup c g x).claims = s.claims := rfl
@[simp] theorem State.setGroup_parts (s : State) (c g : Nat) (x : Group) : (s.setGroup c g x).parts = s.parts := rfl
@[simp] theorem State.setGroup_pmctl (s : State) (c g : Nat) (x : Group) : (s.setGroup c g x).pmctl = s.pmctl := rfl
@[simp] theorem State.setGroup_pmSt (s : State) (c g : Nat) (x : Group) : (s.setGroup c g x).pmSt = s.pmSt := rfl
@[simp] theorem State.setGroup_pmCode (s : State) (c g : Nat) (x : Group) : (s.setGroup c g x).pmCode = s.pmCode := rfl
@[simp] theorem State.setGroup_closing (s : State) (c g : Nat) (x : Group) : (s.setGroup c g x).closing = s.closing := rfl
@[simp] theorem State.setGroup_ctxs (s : State) (c g : Nat) (x : Group) : (s.setGroup c g x).ctxs = s.ctxs := rfl
@[simp] theorem State.setGroup_ctxcmd (s : State) (c g : Nat) (x : Group) : (s.setGroup c g x).ctxcmd = s.ctxcmd := rfl
@[simp] theorem State.setGroup_ctxarg (s : State) (c g : Nat) (x : Group) : (s.setGroup c g x).ctxarg = s.ctxarg := rfl
@[simp] theorem State.setGroup_keycmd (s : State) (c g : Nat) (x : Group) : (s.setGroup c g x).keycmd = s.keycmd := rfl
@[simp] theorem State.setGroup_keyarg (s : State) (c g : Nat) (x : Group) : (s.setGroup c g x).keyarg = s.keyarg := rfl
@[simp] theorem State.setGroup_keys (s : State) (c g : Nat) (x : Group) : (s.setGroup c g x).keys = s.keys := rfl
@[simp] theorem State.setGroup_vdevs (s : State) (c g : Nat) (x : Group) : (s.setGroup c g x).vdevs = s.vdevs := rfl
@[simp] theorem State.setGroup_pirqaddr (s : State) (c g : Nat) (x : Group) : (s.setGroup c g x).pirqaddr = s.pirqaddr := rfl
@[simp] theorem State.setGroup_pirqdata (s : State) (c g : Nat) (x : Group) : (s.setGroup c g x).pirqdata = s.pirqdata := rfl
@[simp] theorem State.setGroup_pirqst (s : State) (c g : Nat) (x : Group) : (s.setGroup c g x).pirqst = s.pirqst := rfl
@[simp] theorem State.setGroup_fabid (s : State) (c g : Nat) (x : Group) : (s.setGroup c g x).fabid = s.fabid := rfl
@[simp] theorem State.setGroup_fabdrop (s : State) (c g : Nat) (x : Group) : (s.setGroup c g x).fabdrop = s.fabdrop := rfl
@[simp] theorem State.setGroup_faballow (s : State) (c g : Nat) (x : Group) : (s.setGroup c g x).faballow = s.faballow := rfl
@[simp] theorem State.setGroup_fgroups (s : State) (c g : Nat) (x : Group) : (s.setGroup c g x).fgroups = s.fgroups := rfl
@[simp] theorem State.setGroup_colls (s : State) (c g : Nat) (x : Group) : (s.setGroup c g x).colls = s.colls := rfl
@[simp] theorem State.setGroup_frames (s : State) (c g : Nat) (x : Group) : (s.setGroup c g x).frames = s.frames := rfl
@[simp] theorem State.setGroup_sentFrames (s : State) (c g : Nat) (x : Group) : (s.setGroup c g x).sentFrames = s.sentFrames := rfl
@[simp] theorem State.setGroup_dieCtr (s : State) (c g : Nat) (x : Group) : (s.setGroup c g x).dieCtr = s.dieCtr := rfl
@[simp] theorem State.setGroup_fumctl (s : State) (c g : Nat) (x : Group) : (s.setGroup c g x).fumctl = s.fumctl := rfl
@[simp] theorem State.setGroup_fumtail (s : State) (c g : Nat) (x : Group) : (s.setGroup c g x).fumtail = s.fumtail := rfl
@[simp] theorem State.setGroup_fumhead (s : State) (c g : Nat) (x : Group) : (s.setGroup c g x).fumhead = s.fumhead := rfl
@[simp] theorem State.setGroup_fumdrop (s : State) (c g : Nat) (x : Group) : (s.setGroup c g x).fumdrop = s.fumdrop := rfl
@[simp] theorem State.setGroup_fumtick (s : State) (c g : Nat) (x : Group) : (s.setGroup c g x).fumtick = s.fumtick := rfl
@[simp] theorem State.setGroup_fumfrom (s : State) (c g : Nat) (x : Group) : (s.setGroup c g x).fumfrom = s.fumfrom := rfl
@[simp] theorem State.setGroup_usageTicks (s : State) (c g : Nat) (x : Group) : (s.setGroup c g x).usageTicks = s.usageTicks := rfl
@[simp] theorem State.setGroup_pastCtxs (s : State) (c g : Nat) (x : Group) : (s.setGroup c g x).pastCtxs = s.pastCtxs := rfl
@[simp] theorem State.setGroup_pwrcap (s : State) (c g : Nat) (x : Group) : (s.setGroup c g x).pwrcap = s.pwrcap := rfl
@[simp] theorem State.setGroup_pwr (s : State) (c g : Nat) (x : Group) : (s.setGroup c g x).pwr = s.pwr := rfl
@[simp] theorem State.setGroup_pwrStep (s : State) (c g : Nat) (x : Group) : (s.setGroup c g x).pwrStep = s.pwrStep := rfl
@[simp] theorem State.setGroup_pwrBin (s : State) (c g : Nat) (x : Group) : (s.setGroup c g x).pwrBin = s.pwrBin := rfl
@[simp] theorem State.setGroup_pwrTicks (s : State) (c g : Nat) (x : Group) : (s.setGroup c g x).pwrTicks = s.pwrTicks := rfl
@[simp] theorem State.setGroup_pwrSeen (s : State) (c g : Nat) (x : Group) : (s.setGroup c g x).pwrSeen = s.pwrSeen := rfl
@[simp] theorem State.setGroup_hfrac (s : State) (c g : Nat) (x : Group) : (s.setGroup c g x).hfrac = s.hfrac := rfl
@[simp] theorem State.setGroup_ilim (s : State) (c g : Nat) (x : Group) : (s.setGroup c g x).ilim = s.ilim := rfl

/-! ## State.setCtx -/

@[simp] theorem State.setCtx_agenda (s : State) (c : Nat) (x : Context) : (s.setCtx c x).agenda = s.agenda := rfl
@[simp] theorem State.setCtx_focus (s : State) (c : Nat) (x : Context) : (s.setCtx c x).focus = s.focus := rfl
@[simp] theorem State.setCtx_free (s : State) (c : Nat) (x : Context) : (s.setCtx c x).free = s.free := rfl
@[simp] theorem State.setCtx_nextId (s : State) (c : Nat) (x : Context) : (s.setCtx c x).nextId = s.nextId := rfl
@[simp] theorem State.setCtx_hist (s : State) (c : Nat) (x : Context) : (s.setCtx c x).hist = s.hist := rfl
@[simp] theorem State.setCtx_time (s : State) (c : Nat) (x : Context) : (s.setCtx c x).time = s.time := rfl
@[simp] theorem State.setCtx_dieClk (s : State) (c : Nat) (x : Context) : (s.setCtx c x).dieClk = s.dieClk := rfl
@[simp] theorem State.setCtx_dmem (s : State) (c : Nat) (x : Context) : (s.setCtx c x).dmem = s.dmem := rfl
@[simp] theorem State.setCtx_hmem (s : State) (c : Nat) (x : Context) : (s.setCtx c x).hmem = s.hmem := rfl
@[simp] theorem State.setCtx_memUe (s : State) (c : Nat) (x : Context) : (s.setCtx c x).memUe = s.memUe := rfl
@[simp] theorem State.setCtx_cmap (s : State) (c : Nat) (x : Context) : (s.setCtx c x).cmap = s.cmap := rfl
@[simp] theorem State.setCtx_mapgrc (s : State) (c : Nat) (x : Context) : (s.setCtx c x).mapgrc = s.mapgrc := rfl
@[simp] theorem State.setCtx_lsarg (s : State) (c : Nat) (x : Context) : (s.setCtx c x).lsarg = s.lsarg := rfl
@[simp] theorem State.setCtx_lscmd (s : State) (c : Nat) (x : Context) : (s.setCtx c x).lscmd = s.lscmd := rfl
@[simp] theorem State.setCtx_lsops (s : State) (c : Nat) (x : Context) : (s.setCtx c x).lsops = s.lsops := rfl
@[simp] theorem State.setCtx_bootCount (s : State) (c : Nat) (x : Context) : (s.setCtx c x).bootCount = s.bootCount := rfl
@[simp] theorem State.setCtx_linkReady (s : State) (c : Nat) (x : Context) : (s.setCtx c x).linkReady = s.linkReady := rfl
@[simp] theorem State.setCtx_mgmtOnly (s : State) (c : Nat) (x : Context) : (s.setCtx c x).mgmtOnly = s.mgmtOnly := rfl
@[simp] theorem State.setCtx_badBanks (s : State) (c : Nat) (x : Context) : (s.setCtx c x).badBanks = s.badBanks := rfl
@[simp] theorem State.setCtx_selfTest (s : State) (c : Nat) (x : Context) : (s.setCtx c x).selfTest = s.selfTest := rfl
@[simp] theorem State.setCtx_tlbinva (s : State) (c : Nat) (x : Context) : (s.setCtx c x).tlbinva = s.tlbinva := rfl
@[simp] theorem State.setCtx_tlbinvc (s : State) (c : Nat) (x : Context) : (s.setCtx c x).tlbinvc = s.tlbinvc := rfl
@[simp] theorem State.setCtx_tlbRun (s : State) (c : Nat) (x : Context) : (s.setCtx c x).tlbRun = s.tlbRun := rfl
@[simp] theorem State.setCtx_latepr (s : State) (c : Nat) (x : Context) : (s.setCtx c x).latepr = s.latepr := rfl
@[simp] theorem State.setCtx_l2ways (s : State) (c : Nat) (x : Context) : (s.setCtx c x).l2ways = s.l2ways := rfl
@[simp] theorem State.setCtx_clsreg (s : State) (c : Nat) (x : Context) : (s.setCtx c x).clsreg = s.clsreg := rfl
@[simp] theorem State.setCtx_rflush (s : State) (c : Nat) (x : Context) : (s.setCtx c x).rflush = s.rflush := rfl
@[simp] theorem State.setCtx_rflushLost (s : State) (c : Nat) (x : Context) : (s.setCtx c x).rflushLost = s.rflushLost := rfl
@[simp] theorem State.setCtx_rtstat (s : State) (c : Nat) (x : Context) : (s.setCtx c x).rtstat = s.rtstat := rfl
@[simp] theorem State.setCtx_regions (s : State) (c : Nat) (x : Context) : (s.setCtx c x).regions = s.regions := rfl
@[simp] theorem State.setCtx_oldLines (s : State) (c : Nat) (x : Context) : (s.setCtx c x).oldLines = s.oldLines := rfl
@[simp] theorem State.setCtx_oldWords (s : State) (c : Nat) (x : Context) : (s.setCtx c x).oldWords = s.oldWords := rfl
@[simp] theorem State.setCtx_l2lines (s : State) (c : Nat) (x : Context) : (s.setCtx c x).l2lines = s.l2lines := rfl
@[simp] theorem State.setCtx_written (s : State) (c : Nat) (x : Context) : (s.setCtx c x).written = s.written := rfl
@[simp] theorem State.setCtx_l2tlb (s : State) (c : Nat) (x : Context) : (s.setCtx c x).l2tlb = s.l2tlb := rfl
@[simp] theorem State.setCtx_walkCache (s : State) (c : Nat) (x : Context) : (s.setCtx c x).walkCache = s.walkCache := rfl
@[simp] theorem State.setCtx_walks (s : State) (c : Nat) (x : Context) : (s.setCtx c x).walks = s.walks := rfl
@[simp] theorem State.setCtx_walkKept (s : State) (c : Nat) (x : Context) : (s.setCtx c x).walkKept = s.walkKept := rfl
@[simp] theorem State.setCtx_walkFailed (s : State) (c : Nat) (x : Context) : (s.setCtx c x).walkFailed = s.walkFailed := rfl
@[simp] theorem State.setCtx_queues (s : State) (c : Nat) (x : Context) : (s.setCtx c x).queues = s.queues := rfl
@[simp] theorem State.setCtx_launches (s : State) (c : Nat) (x : Context) : (s.setCtx c x).launches = s.launches := rfl
@[simp] theorem State.setCtx_claims (s : State) (c : Nat) (x : Context) : (s.setCtx c x).claims = s.claims := rfl
@[simp] theorem State.setCtx_parts (s : State) (c : Nat) (x : Context) : (s.setCtx c x).parts = s.parts := rfl
@[simp] theorem State.setCtx_pmctl (s : State) (c : Nat) (x : Context) : (s.setCtx c x).pmctl = s.pmctl := rfl
@[simp] theorem State.setCtx_pmSt (s : State) (c : Nat) (x : Context) : (s.setCtx c x).pmSt = s.pmSt := rfl
@[simp] theorem State.setCtx_pmCode (s : State) (c : Nat) (x : Context) : (s.setCtx c x).pmCode = s.pmCode := rfl
@[simp] theorem State.setCtx_closing (s : State) (c : Nat) (x : Context) : (s.setCtx c x).closing = s.closing := rfl
@[simp] theorem State.setCtx_ctxcmd (s : State) (c : Nat) (x : Context) : (s.setCtx c x).ctxcmd = s.ctxcmd := rfl
@[simp] theorem State.setCtx_ctxarg (s : State) (c : Nat) (x : Context) : (s.setCtx c x).ctxarg = s.ctxarg := rfl
@[simp] theorem State.setCtx_keycmd (s : State) (c : Nat) (x : Context) : (s.setCtx c x).keycmd = s.keycmd := rfl
@[simp] theorem State.setCtx_keyarg (s : State) (c : Nat) (x : Context) : (s.setCtx c x).keyarg = s.keyarg := rfl
@[simp] theorem State.setCtx_keys (s : State) (c : Nat) (x : Context) : (s.setCtx c x).keys = s.keys := rfl
@[simp] theorem State.setCtx_vdevs (s : State) (c : Nat) (x : Context) : (s.setCtx c x).vdevs = s.vdevs := rfl
@[simp] theorem State.setCtx_pirqaddr (s : State) (c : Nat) (x : Context) : (s.setCtx c x).pirqaddr = s.pirqaddr := rfl
@[simp] theorem State.setCtx_pirqdata (s : State) (c : Nat) (x : Context) : (s.setCtx c x).pirqdata = s.pirqdata := rfl
@[simp] theorem State.setCtx_pirqst (s : State) (c : Nat) (x : Context) : (s.setCtx c x).pirqst = s.pirqst := rfl
@[simp] theorem State.setCtx_fabid (s : State) (c : Nat) (x : Context) : (s.setCtx c x).fabid = s.fabid := rfl
@[simp] theorem State.setCtx_fabdrop (s : State) (c : Nat) (x : Context) : (s.setCtx c x).fabdrop = s.fabdrop := rfl
@[simp] theorem State.setCtx_faballow (s : State) (c : Nat) (x : Context) : (s.setCtx c x).faballow = s.faballow := rfl
@[simp] theorem State.setCtx_fgroups (s : State) (c : Nat) (x : Context) : (s.setCtx c x).fgroups = s.fgroups := rfl
@[simp] theorem State.setCtx_colls (s : State) (c : Nat) (x : Context) : (s.setCtx c x).colls = s.colls := rfl
@[simp] theorem State.setCtx_frames (s : State) (c : Nat) (x : Context) : (s.setCtx c x).frames = s.frames := rfl
@[simp] theorem State.setCtx_sentFrames (s : State) (c : Nat) (x : Context) : (s.setCtx c x).sentFrames = s.sentFrames := rfl
@[simp] theorem State.setCtx_dieCtr (s : State) (c : Nat) (x : Context) : (s.setCtx c x).dieCtr = s.dieCtr := rfl
@[simp] theorem State.setCtx_fumctl (s : State) (c : Nat) (x : Context) : (s.setCtx c x).fumctl = s.fumctl := rfl
@[simp] theorem State.setCtx_fumtail (s : State) (c : Nat) (x : Context) : (s.setCtx c x).fumtail = s.fumtail := rfl
@[simp] theorem State.setCtx_fumhead (s : State) (c : Nat) (x : Context) : (s.setCtx c x).fumhead = s.fumhead := rfl
@[simp] theorem State.setCtx_fumdrop (s : State) (c : Nat) (x : Context) : (s.setCtx c x).fumdrop = s.fumdrop := rfl
@[simp] theorem State.setCtx_fumtick (s : State) (c : Nat) (x : Context) : (s.setCtx c x).fumtick = s.fumtick := rfl
@[simp] theorem State.setCtx_fumfrom (s : State) (c : Nat) (x : Context) : (s.setCtx c x).fumfrom = s.fumfrom := rfl
@[simp] theorem State.setCtx_usageTicks (s : State) (c : Nat) (x : Context) : (s.setCtx c x).usageTicks = s.usageTicks := rfl
@[simp] theorem State.setCtx_pastCtxs (s : State) (c : Nat) (x : Context) : (s.setCtx c x).pastCtxs = s.pastCtxs := rfl
@[simp] theorem State.setCtx_pwrcap (s : State) (c : Nat) (x : Context) : (s.setCtx c x).pwrcap = s.pwrcap := rfl
@[simp] theorem State.setCtx_pwr (s : State) (c : Nat) (x : Context) : (s.setCtx c x).pwr = s.pwr := rfl
@[simp] theorem State.setCtx_pwrStep (s : State) (c : Nat) (x : Context) : (s.setCtx c x).pwrStep = s.pwrStep := rfl
@[simp] theorem State.setCtx_pwrBin (s : State) (c : Nat) (x : Context) : (s.setCtx c x).pwrBin = s.pwrBin := rfl
@[simp] theorem State.setCtx_pwrTicks (s : State) (c : Nat) (x : Context) : (s.setCtx c x).pwrTicks = s.pwrTicks := rfl
@[simp] theorem State.setCtx_pwrSeen (s : State) (c : Nat) (x : Context) : (s.setCtx c x).pwrSeen = s.pwrSeen := rfl
@[simp] theorem State.setCtx_hfrac (s : State) (c : Nat) (x : Context) : (s.setCtx c x).hfrac = s.hfrac := rfl
@[simp] theorem State.setCtx_ilim (s : State) (c : Nat) (x : Context) : (s.setCtx c x).ilim = s.ilim := rfl
@[simp] theorem State.setCtx_cores (s : State) (c : Nat) (x : Context) : (s.setCtx c x).cores = s.cores := rfl

/-! ## State.setVd -/

@[simp] theorem State.setVd_agenda (s : State) (v : Nat) (x : VDev) : (s.setVd v x).agenda = s.agenda := rfl
@[simp] theorem State.setVd_focus (s : State) (v : Nat) (x : VDev) : (s.setVd v x).focus = s.focus := rfl
@[simp] theorem State.setVd_free (s : State) (v : Nat) (x : VDev) : (s.setVd v x).free = s.free := rfl
@[simp] theorem State.setVd_nextId (s : State) (v : Nat) (x : VDev) : (s.setVd v x).nextId = s.nextId := rfl
@[simp] theorem State.setVd_hist (s : State) (v : Nat) (x : VDev) : (s.setVd v x).hist = s.hist := rfl
@[simp] theorem State.setVd_time (s : State) (v : Nat) (x : VDev) : (s.setVd v x).time = s.time := rfl
@[simp] theorem State.setVd_dieClk (s : State) (v : Nat) (x : VDev) : (s.setVd v x).dieClk = s.dieClk := rfl
@[simp] theorem State.setVd_dmem (s : State) (v : Nat) (x : VDev) : (s.setVd v x).dmem = s.dmem := rfl
@[simp] theorem State.setVd_hmem (s : State) (v : Nat) (x : VDev) : (s.setVd v x).hmem = s.hmem := rfl
@[simp] theorem State.setVd_memUe (s : State) (v : Nat) (x : VDev) : (s.setVd v x).memUe = s.memUe := rfl
@[simp] theorem State.setVd_cmap (s : State) (v : Nat) (x : VDev) : (s.setVd v x).cmap = s.cmap := rfl
@[simp] theorem State.setVd_mapgrc (s : State) (v : Nat) (x : VDev) : (s.setVd v x).mapgrc = s.mapgrc := rfl
@[simp] theorem State.setVd_lsarg (s : State) (v : Nat) (x : VDev) : (s.setVd v x).lsarg = s.lsarg := rfl
@[simp] theorem State.setVd_lscmd (s : State) (v : Nat) (x : VDev) : (s.setVd v x).lscmd = s.lscmd := rfl
@[simp] theorem State.setVd_lsops (s : State) (v : Nat) (x : VDev) : (s.setVd v x).lsops = s.lsops := rfl
@[simp] theorem State.setVd_bootCount (s : State) (v : Nat) (x : VDev) : (s.setVd v x).bootCount = s.bootCount := rfl
@[simp] theorem State.setVd_linkReady (s : State) (v : Nat) (x : VDev) : (s.setVd v x).linkReady = s.linkReady := rfl
@[simp] theorem State.setVd_mgmtOnly (s : State) (v : Nat) (x : VDev) : (s.setVd v x).mgmtOnly = s.mgmtOnly := rfl
@[simp] theorem State.setVd_badBanks (s : State) (v : Nat) (x : VDev) : (s.setVd v x).badBanks = s.badBanks := rfl
@[simp] theorem State.setVd_selfTest (s : State) (v : Nat) (x : VDev) : (s.setVd v x).selfTest = s.selfTest := rfl
@[simp] theorem State.setVd_tlbinva (s : State) (v : Nat) (x : VDev) : (s.setVd v x).tlbinva = s.tlbinva := rfl
@[simp] theorem State.setVd_tlbinvc (s : State) (v : Nat) (x : VDev) : (s.setVd v x).tlbinvc = s.tlbinvc := rfl
@[simp] theorem State.setVd_tlbRun (s : State) (v : Nat) (x : VDev) : (s.setVd v x).tlbRun = s.tlbRun := rfl
@[simp] theorem State.setVd_latepr (s : State) (v : Nat) (x : VDev) : (s.setVd v x).latepr = s.latepr := rfl
@[simp] theorem State.setVd_l2ways (s : State) (v : Nat) (x : VDev) : (s.setVd v x).l2ways = s.l2ways := rfl
@[simp] theorem State.setVd_clsreg (s : State) (v : Nat) (x : VDev) : (s.setVd v x).clsreg = s.clsreg := rfl
@[simp] theorem State.setVd_rflush (s : State) (v : Nat) (x : VDev) : (s.setVd v x).rflush = s.rflush := rfl
@[simp] theorem State.setVd_rflushLost (s : State) (v : Nat) (x : VDev) : (s.setVd v x).rflushLost = s.rflushLost := rfl
@[simp] theorem State.setVd_rtstat (s : State) (v : Nat) (x : VDev) : (s.setVd v x).rtstat = s.rtstat := rfl
@[simp] theorem State.setVd_regions (s : State) (v : Nat) (x : VDev) : (s.setVd v x).regions = s.regions := rfl
@[simp] theorem State.setVd_oldLines (s : State) (v : Nat) (x : VDev) : (s.setVd v x).oldLines = s.oldLines := rfl
@[simp] theorem State.setVd_oldWords (s : State) (v : Nat) (x : VDev) : (s.setVd v x).oldWords = s.oldWords := rfl
@[simp] theorem State.setVd_l2lines (s : State) (v : Nat) (x : VDev) : (s.setVd v x).l2lines = s.l2lines := rfl
@[simp] theorem State.setVd_written (s : State) (v : Nat) (x : VDev) : (s.setVd v x).written = s.written := rfl
@[simp] theorem State.setVd_l2tlb (s : State) (v : Nat) (x : VDev) : (s.setVd v x).l2tlb = s.l2tlb := rfl
@[simp] theorem State.setVd_walkCache (s : State) (v : Nat) (x : VDev) : (s.setVd v x).walkCache = s.walkCache := rfl
@[simp] theorem State.setVd_walks (s : State) (v : Nat) (x : VDev) : (s.setVd v x).walks = s.walks := rfl
@[simp] theorem State.setVd_walkKept (s : State) (v : Nat) (x : VDev) : (s.setVd v x).walkKept = s.walkKept := rfl
@[simp] theorem State.setVd_walkFailed (s : State) (v : Nat) (x : VDev) : (s.setVd v x).walkFailed = s.walkFailed := rfl
@[simp] theorem State.setVd_queues (s : State) (v : Nat) (x : VDev) : (s.setVd v x).queues = s.queues := rfl
@[simp] theorem State.setVd_launches (s : State) (v : Nat) (x : VDev) : (s.setVd v x).launches = s.launches := rfl
@[simp] theorem State.setVd_claims (s : State) (v : Nat) (x : VDev) : (s.setVd v x).claims = s.claims := rfl
@[simp] theorem State.setVd_parts (s : State) (v : Nat) (x : VDev) : (s.setVd v x).parts = s.parts := rfl
@[simp] theorem State.setVd_pmctl (s : State) (v : Nat) (x : VDev) : (s.setVd v x).pmctl = s.pmctl := rfl
@[simp] theorem State.setVd_pmSt (s : State) (v : Nat) (x : VDev) : (s.setVd v x).pmSt = s.pmSt := rfl
@[simp] theorem State.setVd_pmCode (s : State) (v : Nat) (x : VDev) : (s.setVd v x).pmCode = s.pmCode := rfl
@[simp] theorem State.setVd_closing (s : State) (v : Nat) (x : VDev) : (s.setVd v x).closing = s.closing := rfl
@[simp] theorem State.setVd_ctxs (s : State) (v : Nat) (x : VDev) : (s.setVd v x).ctxs = s.ctxs := rfl
@[simp] theorem State.setVd_ctxcmd (s : State) (v : Nat) (x : VDev) : (s.setVd v x).ctxcmd = s.ctxcmd := rfl
@[simp] theorem State.setVd_ctxarg (s : State) (v : Nat) (x : VDev) : (s.setVd v x).ctxarg = s.ctxarg := rfl
@[simp] theorem State.setVd_keycmd (s : State) (v : Nat) (x : VDev) : (s.setVd v x).keycmd = s.keycmd := rfl
@[simp] theorem State.setVd_keyarg (s : State) (v : Nat) (x : VDev) : (s.setVd v x).keyarg = s.keyarg := rfl
@[simp] theorem State.setVd_keys (s : State) (v : Nat) (x : VDev) : (s.setVd v x).keys = s.keys := rfl
@[simp] theorem State.setVd_pirqaddr (s : State) (v : Nat) (x : VDev) : (s.setVd v x).pirqaddr = s.pirqaddr := rfl
@[simp] theorem State.setVd_pirqdata (s : State) (v : Nat) (x : VDev) : (s.setVd v x).pirqdata = s.pirqdata := rfl
@[simp] theorem State.setVd_pirqst (s : State) (v : Nat) (x : VDev) : (s.setVd v x).pirqst = s.pirqst := rfl
@[simp] theorem State.setVd_fabid (s : State) (v : Nat) (x : VDev) : (s.setVd v x).fabid = s.fabid := rfl
@[simp] theorem State.setVd_fabdrop (s : State) (v : Nat) (x : VDev) : (s.setVd v x).fabdrop = s.fabdrop := rfl
@[simp] theorem State.setVd_faballow (s : State) (v : Nat) (x : VDev) : (s.setVd v x).faballow = s.faballow := rfl
@[simp] theorem State.setVd_fgroups (s : State) (v : Nat) (x : VDev) : (s.setVd v x).fgroups = s.fgroups := rfl
@[simp] theorem State.setVd_colls (s : State) (v : Nat) (x : VDev) : (s.setVd v x).colls = s.colls := rfl
@[simp] theorem State.setVd_frames (s : State) (v : Nat) (x : VDev) : (s.setVd v x).frames = s.frames := rfl
@[simp] theorem State.setVd_sentFrames (s : State) (v : Nat) (x : VDev) : (s.setVd v x).sentFrames = s.sentFrames := rfl
@[simp] theorem State.setVd_dieCtr (s : State) (v : Nat) (x : VDev) : (s.setVd v x).dieCtr = s.dieCtr := rfl
@[simp] theorem State.setVd_fumctl (s : State) (v : Nat) (x : VDev) : (s.setVd v x).fumctl = s.fumctl := rfl
@[simp] theorem State.setVd_fumtail (s : State) (v : Nat) (x : VDev) : (s.setVd v x).fumtail = s.fumtail := rfl
@[simp] theorem State.setVd_fumhead (s : State) (v : Nat) (x : VDev) : (s.setVd v x).fumhead = s.fumhead := rfl
@[simp] theorem State.setVd_fumdrop (s : State) (v : Nat) (x : VDev) : (s.setVd v x).fumdrop = s.fumdrop := rfl
@[simp] theorem State.setVd_fumtick (s : State) (v : Nat) (x : VDev) : (s.setVd v x).fumtick = s.fumtick := rfl
@[simp] theorem State.setVd_fumfrom (s : State) (v : Nat) (x : VDev) : (s.setVd v x).fumfrom = s.fumfrom := rfl
@[simp] theorem State.setVd_usageTicks (s : State) (v : Nat) (x : VDev) : (s.setVd v x).usageTicks = s.usageTicks := rfl
@[simp] theorem State.setVd_pastCtxs (s : State) (v : Nat) (x : VDev) : (s.setVd v x).pastCtxs = s.pastCtxs := rfl
@[simp] theorem State.setVd_pwrcap (s : State) (v : Nat) (x : VDev) : (s.setVd v x).pwrcap = s.pwrcap := rfl
@[simp] theorem State.setVd_pwr (s : State) (v : Nat) (x : VDev) : (s.setVd v x).pwr = s.pwr := rfl
@[simp] theorem State.setVd_pwrStep (s : State) (v : Nat) (x : VDev) : (s.setVd v x).pwrStep = s.pwrStep := rfl
@[simp] theorem State.setVd_pwrBin (s : State) (v : Nat) (x : VDev) : (s.setVd v x).pwrBin = s.pwrBin := rfl
@[simp] theorem State.setVd_pwrTicks (s : State) (v : Nat) (x : VDev) : (s.setVd v x).pwrTicks = s.pwrTicks := rfl
@[simp] theorem State.setVd_pwrSeen (s : State) (v : Nat) (x : VDev) : (s.setVd v x).pwrSeen = s.pwrSeen := rfl
@[simp] theorem State.setVd_hfrac (s : State) (v : Nat) (x : VDev) : (s.setVd v x).hfrac = s.hfrac := rfl
@[simp] theorem State.setVd_ilim (s : State) (v : Nat) (x : VDev) : (s.setVd v x).ilim = s.ilim := rfl
@[simp] theorem State.setVd_cores (s : State) (v : Nat) (x : VDev) : (s.setVd v x).cores = s.cores := rfl

/-! ## State.setQueue -/

@[simp] theorem State.setQueue_agenda (s : State) (q : Nat) (x : Queue) : (s.setQueue q x).agenda = s.agenda := rfl
@[simp] theorem State.setQueue_focus (s : State) (q : Nat) (x : Queue) : (s.setQueue q x).focus = s.focus := rfl
@[simp] theorem State.setQueue_free (s : State) (q : Nat) (x : Queue) : (s.setQueue q x).free = s.free := rfl
@[simp] theorem State.setQueue_nextId (s : State) (q : Nat) (x : Queue) : (s.setQueue q x).nextId = s.nextId := rfl
@[simp] theorem State.setQueue_hist (s : State) (q : Nat) (x : Queue) : (s.setQueue q x).hist = s.hist := rfl
@[simp] theorem State.setQueue_time (s : State) (q : Nat) (x : Queue) : (s.setQueue q x).time = s.time := rfl
@[simp] theorem State.setQueue_dieClk (s : State) (q : Nat) (x : Queue) : (s.setQueue q x).dieClk = s.dieClk := rfl
@[simp] theorem State.setQueue_dmem (s : State) (q : Nat) (x : Queue) : (s.setQueue q x).dmem = s.dmem := rfl
@[simp] theorem State.setQueue_hmem (s : State) (q : Nat) (x : Queue) : (s.setQueue q x).hmem = s.hmem := rfl
@[simp] theorem State.setQueue_memUe (s : State) (q : Nat) (x : Queue) : (s.setQueue q x).memUe = s.memUe := rfl
@[simp] theorem State.setQueue_cmap (s : State) (q : Nat) (x : Queue) : (s.setQueue q x).cmap = s.cmap := rfl
@[simp] theorem State.setQueue_mapgrc (s : State) (q : Nat) (x : Queue) : (s.setQueue q x).mapgrc = s.mapgrc := rfl
@[simp] theorem State.setQueue_lsarg (s : State) (q : Nat) (x : Queue) : (s.setQueue q x).lsarg = s.lsarg := rfl
@[simp] theorem State.setQueue_lscmd (s : State) (q : Nat) (x : Queue) : (s.setQueue q x).lscmd = s.lscmd := rfl
@[simp] theorem State.setQueue_lsops (s : State) (q : Nat) (x : Queue) : (s.setQueue q x).lsops = s.lsops := rfl
@[simp] theorem State.setQueue_bootCount (s : State) (q : Nat) (x : Queue) : (s.setQueue q x).bootCount = s.bootCount := rfl
@[simp] theorem State.setQueue_linkReady (s : State) (q : Nat) (x : Queue) : (s.setQueue q x).linkReady = s.linkReady := rfl
@[simp] theorem State.setQueue_mgmtOnly (s : State) (q : Nat) (x : Queue) : (s.setQueue q x).mgmtOnly = s.mgmtOnly := rfl
@[simp] theorem State.setQueue_badBanks (s : State) (q : Nat) (x : Queue) : (s.setQueue q x).badBanks = s.badBanks := rfl
@[simp] theorem State.setQueue_selfTest (s : State) (q : Nat) (x : Queue) : (s.setQueue q x).selfTest = s.selfTest := rfl
@[simp] theorem State.setQueue_tlbinva (s : State) (q : Nat) (x : Queue) : (s.setQueue q x).tlbinva = s.tlbinva := rfl
@[simp] theorem State.setQueue_tlbinvc (s : State) (q : Nat) (x : Queue) : (s.setQueue q x).tlbinvc = s.tlbinvc := rfl
@[simp] theorem State.setQueue_tlbRun (s : State) (q : Nat) (x : Queue) : (s.setQueue q x).tlbRun = s.tlbRun := rfl
@[simp] theorem State.setQueue_latepr (s : State) (q : Nat) (x : Queue) : (s.setQueue q x).latepr = s.latepr := rfl
@[simp] theorem State.setQueue_l2ways (s : State) (q : Nat) (x : Queue) : (s.setQueue q x).l2ways = s.l2ways := rfl
@[simp] theorem State.setQueue_clsreg (s : State) (q : Nat) (x : Queue) : (s.setQueue q x).clsreg = s.clsreg := rfl
@[simp] theorem State.setQueue_rflush (s : State) (q : Nat) (x : Queue) : (s.setQueue q x).rflush = s.rflush := rfl
@[simp] theorem State.setQueue_rflushLost (s : State) (q : Nat) (x : Queue) : (s.setQueue q x).rflushLost = s.rflushLost := rfl
@[simp] theorem State.setQueue_rtstat (s : State) (q : Nat) (x : Queue) : (s.setQueue q x).rtstat = s.rtstat := rfl
@[simp] theorem State.setQueue_regions (s : State) (q : Nat) (x : Queue) : (s.setQueue q x).regions = s.regions := rfl
@[simp] theorem State.setQueue_oldLines (s : State) (q : Nat) (x : Queue) : (s.setQueue q x).oldLines = s.oldLines := rfl
@[simp] theorem State.setQueue_oldWords (s : State) (q : Nat) (x : Queue) : (s.setQueue q x).oldWords = s.oldWords := rfl
@[simp] theorem State.setQueue_l2lines (s : State) (q : Nat) (x : Queue) : (s.setQueue q x).l2lines = s.l2lines := rfl
@[simp] theorem State.setQueue_written (s : State) (q : Nat) (x : Queue) : (s.setQueue q x).written = s.written := rfl
@[simp] theorem State.setQueue_l2tlb (s : State) (q : Nat) (x : Queue) : (s.setQueue q x).l2tlb = s.l2tlb := rfl
@[simp] theorem State.setQueue_walkCache (s : State) (q : Nat) (x : Queue) : (s.setQueue q x).walkCache = s.walkCache := rfl
@[simp] theorem State.setQueue_walks (s : State) (q : Nat) (x : Queue) : (s.setQueue q x).walks = s.walks := rfl
@[simp] theorem State.setQueue_walkKept (s : State) (q : Nat) (x : Queue) : (s.setQueue q x).walkKept = s.walkKept := rfl
@[simp] theorem State.setQueue_walkFailed (s : State) (q : Nat) (x : Queue) : (s.setQueue q x).walkFailed = s.walkFailed := rfl
@[simp] theorem State.setQueue_launches (s : State) (q : Nat) (x : Queue) : (s.setQueue q x).launches = s.launches := rfl
@[simp] theorem State.setQueue_claims (s : State) (q : Nat) (x : Queue) : (s.setQueue q x).claims = s.claims := rfl
@[simp] theorem State.setQueue_parts (s : State) (q : Nat) (x : Queue) : (s.setQueue q x).parts = s.parts := rfl
@[simp] theorem State.setQueue_pmctl (s : State) (q : Nat) (x : Queue) : (s.setQueue q x).pmctl = s.pmctl := rfl
@[simp] theorem State.setQueue_pmSt (s : State) (q : Nat) (x : Queue) : (s.setQueue q x).pmSt = s.pmSt := rfl
@[simp] theorem State.setQueue_pmCode (s : State) (q : Nat) (x : Queue) : (s.setQueue q x).pmCode = s.pmCode := rfl
@[simp] theorem State.setQueue_closing (s : State) (q : Nat) (x : Queue) : (s.setQueue q x).closing = s.closing := rfl
@[simp] theorem State.setQueue_ctxs (s : State) (q : Nat) (x : Queue) : (s.setQueue q x).ctxs = s.ctxs := rfl
@[simp] theorem State.setQueue_ctxcmd (s : State) (q : Nat) (x : Queue) : (s.setQueue q x).ctxcmd = s.ctxcmd := rfl
@[simp] theorem State.setQueue_ctxarg (s : State) (q : Nat) (x : Queue) : (s.setQueue q x).ctxarg = s.ctxarg := rfl
@[simp] theorem State.setQueue_keycmd (s : State) (q : Nat) (x : Queue) : (s.setQueue q x).keycmd = s.keycmd := rfl
@[simp] theorem State.setQueue_keyarg (s : State) (q : Nat) (x : Queue) : (s.setQueue q x).keyarg = s.keyarg := rfl
@[simp] theorem State.setQueue_keys (s : State) (q : Nat) (x : Queue) : (s.setQueue q x).keys = s.keys := rfl
@[simp] theorem State.setQueue_vdevs (s : State) (q : Nat) (x : Queue) : (s.setQueue q x).vdevs = s.vdevs := rfl
@[simp] theorem State.setQueue_pirqaddr (s : State) (q : Nat) (x : Queue) : (s.setQueue q x).pirqaddr = s.pirqaddr := rfl
@[simp] theorem State.setQueue_pirqdata (s : State) (q : Nat) (x : Queue) : (s.setQueue q x).pirqdata = s.pirqdata := rfl
@[simp] theorem State.setQueue_pirqst (s : State) (q : Nat) (x : Queue) : (s.setQueue q x).pirqst = s.pirqst := rfl
@[simp] theorem State.setQueue_fabid (s : State) (q : Nat) (x : Queue) : (s.setQueue q x).fabid = s.fabid := rfl
@[simp] theorem State.setQueue_fabdrop (s : State) (q : Nat) (x : Queue) : (s.setQueue q x).fabdrop = s.fabdrop := rfl
@[simp] theorem State.setQueue_faballow (s : State) (q : Nat) (x : Queue) : (s.setQueue q x).faballow = s.faballow := rfl
@[simp] theorem State.setQueue_fgroups (s : State) (q : Nat) (x : Queue) : (s.setQueue q x).fgroups = s.fgroups := rfl
@[simp] theorem State.setQueue_colls (s : State) (q : Nat) (x : Queue) : (s.setQueue q x).colls = s.colls := rfl
@[simp] theorem State.setQueue_frames (s : State) (q : Nat) (x : Queue) : (s.setQueue q x).frames = s.frames := rfl
@[simp] theorem State.setQueue_sentFrames (s : State) (q : Nat) (x : Queue) : (s.setQueue q x).sentFrames = s.sentFrames := rfl
@[simp] theorem State.setQueue_dieCtr (s : State) (q : Nat) (x : Queue) : (s.setQueue q x).dieCtr = s.dieCtr := rfl
@[simp] theorem State.setQueue_fumctl (s : State) (q : Nat) (x : Queue) : (s.setQueue q x).fumctl = s.fumctl := rfl
@[simp] theorem State.setQueue_fumtail (s : State) (q : Nat) (x : Queue) : (s.setQueue q x).fumtail = s.fumtail := rfl
@[simp] theorem State.setQueue_fumhead (s : State) (q : Nat) (x : Queue) : (s.setQueue q x).fumhead = s.fumhead := rfl
@[simp] theorem State.setQueue_fumdrop (s : State) (q : Nat) (x : Queue) : (s.setQueue q x).fumdrop = s.fumdrop := rfl
@[simp] theorem State.setQueue_fumtick (s : State) (q : Nat) (x : Queue) : (s.setQueue q x).fumtick = s.fumtick := rfl
@[simp] theorem State.setQueue_fumfrom (s : State) (q : Nat) (x : Queue) : (s.setQueue q x).fumfrom = s.fumfrom := rfl
@[simp] theorem State.setQueue_usageTicks (s : State) (q : Nat) (x : Queue) : (s.setQueue q x).usageTicks = s.usageTicks := rfl
@[simp] theorem State.setQueue_pastCtxs (s : State) (q : Nat) (x : Queue) : (s.setQueue q x).pastCtxs = s.pastCtxs := rfl
@[simp] theorem State.setQueue_pwrcap (s : State) (q : Nat) (x : Queue) : (s.setQueue q x).pwrcap = s.pwrcap := rfl
@[simp] theorem State.setQueue_pwr (s : State) (q : Nat) (x : Queue) : (s.setQueue q x).pwr = s.pwr := rfl
@[simp] theorem State.setQueue_pwrStep (s : State) (q : Nat) (x : Queue) : (s.setQueue q x).pwrStep = s.pwrStep := rfl
@[simp] theorem State.setQueue_pwrBin (s : State) (q : Nat) (x : Queue) : (s.setQueue q x).pwrBin = s.pwrBin := rfl
@[simp] theorem State.setQueue_pwrTicks (s : State) (q : Nat) (x : Queue) : (s.setQueue q x).pwrTicks = s.pwrTicks := rfl
@[simp] theorem State.setQueue_pwrSeen (s : State) (q : Nat) (x : Queue) : (s.setQueue q x).pwrSeen = s.pwrSeen := rfl
@[simp] theorem State.setQueue_hfrac (s : State) (q : Nat) (x : Queue) : (s.setQueue q x).hfrac = s.hfrac := rfl
@[simp] theorem State.setQueue_ilim (s : State) (q : Nat) (x : Queue) : (s.setQueue q x).ilim = s.ilim := rfl
@[simp] theorem State.setQueue_cores (s : State) (q : Nat) (x : Queue) : (s.setQueue q x).cores = s.cores := rfl

/-! ## State.modLaunch -/

@[simp] theorem State.modLaunch_agenda (s : State) (i : Nat) (f : Launch → Launch) : (s.modLaunch i f).agenda = s.agenda := rfl
@[simp] theorem State.modLaunch_focus (s : State) (i : Nat) (f : Launch → Launch) : (s.modLaunch i f).focus = s.focus := rfl
@[simp] theorem State.modLaunch_free (s : State) (i : Nat) (f : Launch → Launch) : (s.modLaunch i f).free = s.free := rfl
@[simp] theorem State.modLaunch_nextId (s : State) (i : Nat) (f : Launch → Launch) : (s.modLaunch i f).nextId = s.nextId := rfl
@[simp] theorem State.modLaunch_hist (s : State) (i : Nat) (f : Launch → Launch) : (s.modLaunch i f).hist = s.hist := rfl
@[simp] theorem State.modLaunch_time (s : State) (i : Nat) (f : Launch → Launch) : (s.modLaunch i f).time = s.time := rfl
@[simp] theorem State.modLaunch_dieClk (s : State) (i : Nat) (f : Launch → Launch) : (s.modLaunch i f).dieClk = s.dieClk := rfl
@[simp] theorem State.modLaunch_dmem (s : State) (i : Nat) (f : Launch → Launch) : (s.modLaunch i f).dmem = s.dmem := rfl
@[simp] theorem State.modLaunch_hmem (s : State) (i : Nat) (f : Launch → Launch) : (s.modLaunch i f).hmem = s.hmem := rfl
@[simp] theorem State.modLaunch_memUe (s : State) (i : Nat) (f : Launch → Launch) : (s.modLaunch i f).memUe = s.memUe := rfl
@[simp] theorem State.modLaunch_cmap (s : State) (i : Nat) (f : Launch → Launch) : (s.modLaunch i f).cmap = s.cmap := rfl
@[simp] theorem State.modLaunch_mapgrc (s : State) (i : Nat) (f : Launch → Launch) : (s.modLaunch i f).mapgrc = s.mapgrc := rfl
@[simp] theorem State.modLaunch_lsarg (s : State) (i : Nat) (f : Launch → Launch) : (s.modLaunch i f).lsarg = s.lsarg := rfl
@[simp] theorem State.modLaunch_lscmd (s : State) (i : Nat) (f : Launch → Launch) : (s.modLaunch i f).lscmd = s.lscmd := rfl
@[simp] theorem State.modLaunch_lsops (s : State) (i : Nat) (f : Launch → Launch) : (s.modLaunch i f).lsops = s.lsops := rfl
@[simp] theorem State.modLaunch_bootCount (s : State) (i : Nat) (f : Launch → Launch) : (s.modLaunch i f).bootCount = s.bootCount := rfl
@[simp] theorem State.modLaunch_linkReady (s : State) (i : Nat) (f : Launch → Launch) : (s.modLaunch i f).linkReady = s.linkReady := rfl
@[simp] theorem State.modLaunch_mgmtOnly (s : State) (i : Nat) (f : Launch → Launch) : (s.modLaunch i f).mgmtOnly = s.mgmtOnly := rfl
@[simp] theorem State.modLaunch_badBanks (s : State) (i : Nat) (f : Launch → Launch) : (s.modLaunch i f).badBanks = s.badBanks := rfl
@[simp] theorem State.modLaunch_selfTest (s : State) (i : Nat) (f : Launch → Launch) : (s.modLaunch i f).selfTest = s.selfTest := rfl
@[simp] theorem State.modLaunch_tlbinva (s : State) (i : Nat) (f : Launch → Launch) : (s.modLaunch i f).tlbinva = s.tlbinva := rfl
@[simp] theorem State.modLaunch_tlbinvc (s : State) (i : Nat) (f : Launch → Launch) : (s.modLaunch i f).tlbinvc = s.tlbinvc := rfl
@[simp] theorem State.modLaunch_tlbRun (s : State) (i : Nat) (f : Launch → Launch) : (s.modLaunch i f).tlbRun = s.tlbRun := rfl
@[simp] theorem State.modLaunch_latepr (s : State) (i : Nat) (f : Launch → Launch) : (s.modLaunch i f).latepr = s.latepr := rfl
@[simp] theorem State.modLaunch_l2ways (s : State) (i : Nat) (f : Launch → Launch) : (s.modLaunch i f).l2ways = s.l2ways := rfl
@[simp] theorem State.modLaunch_clsreg (s : State) (i : Nat) (f : Launch → Launch) : (s.modLaunch i f).clsreg = s.clsreg := rfl
@[simp] theorem State.modLaunch_rflush (s : State) (i : Nat) (f : Launch → Launch) : (s.modLaunch i f).rflush = s.rflush := rfl
@[simp] theorem State.modLaunch_rflushLost (s : State) (i : Nat) (f : Launch → Launch) : (s.modLaunch i f).rflushLost = s.rflushLost := rfl
@[simp] theorem State.modLaunch_rtstat (s : State) (i : Nat) (f : Launch → Launch) : (s.modLaunch i f).rtstat = s.rtstat := rfl
@[simp] theorem State.modLaunch_regions (s : State) (i : Nat) (f : Launch → Launch) : (s.modLaunch i f).regions = s.regions := rfl
@[simp] theorem State.modLaunch_oldLines (s : State) (i : Nat) (f : Launch → Launch) : (s.modLaunch i f).oldLines = s.oldLines := rfl
@[simp] theorem State.modLaunch_oldWords (s : State) (i : Nat) (f : Launch → Launch) : (s.modLaunch i f).oldWords = s.oldWords := rfl
@[simp] theorem State.modLaunch_l2lines (s : State) (i : Nat) (f : Launch → Launch) : (s.modLaunch i f).l2lines = s.l2lines := rfl
@[simp] theorem State.modLaunch_written (s : State) (i : Nat) (f : Launch → Launch) : (s.modLaunch i f).written = s.written := rfl
@[simp] theorem State.modLaunch_l2tlb (s : State) (i : Nat) (f : Launch → Launch) : (s.modLaunch i f).l2tlb = s.l2tlb := rfl
@[simp] theorem State.modLaunch_walkCache (s : State) (i : Nat) (f : Launch → Launch) : (s.modLaunch i f).walkCache = s.walkCache := rfl
@[simp] theorem State.modLaunch_walks (s : State) (i : Nat) (f : Launch → Launch) : (s.modLaunch i f).walks = s.walks := rfl
@[simp] theorem State.modLaunch_walkKept (s : State) (i : Nat) (f : Launch → Launch) : (s.modLaunch i f).walkKept = s.walkKept := rfl
@[simp] theorem State.modLaunch_walkFailed (s : State) (i : Nat) (f : Launch → Launch) : (s.modLaunch i f).walkFailed = s.walkFailed := rfl
@[simp] theorem State.modLaunch_queues (s : State) (i : Nat) (f : Launch → Launch) : (s.modLaunch i f).queues = s.queues := rfl
@[simp] theorem State.modLaunch_claims (s : State) (i : Nat) (f : Launch → Launch) : (s.modLaunch i f).claims = s.claims := rfl
@[simp] theorem State.modLaunch_parts (s : State) (i : Nat) (f : Launch → Launch) : (s.modLaunch i f).parts = s.parts := rfl
@[simp] theorem State.modLaunch_pmctl (s : State) (i : Nat) (f : Launch → Launch) : (s.modLaunch i f).pmctl = s.pmctl := rfl
@[simp] theorem State.modLaunch_pmSt (s : State) (i : Nat) (f : Launch → Launch) : (s.modLaunch i f).pmSt = s.pmSt := rfl
@[simp] theorem State.modLaunch_pmCode (s : State) (i : Nat) (f : Launch → Launch) : (s.modLaunch i f).pmCode = s.pmCode := rfl
@[simp] theorem State.modLaunch_closing (s : State) (i : Nat) (f : Launch → Launch) : (s.modLaunch i f).closing = s.closing := rfl
@[simp] theorem State.modLaunch_ctxs (s : State) (i : Nat) (f : Launch → Launch) : (s.modLaunch i f).ctxs = s.ctxs := rfl
@[simp] theorem State.modLaunch_ctxcmd (s : State) (i : Nat) (f : Launch → Launch) : (s.modLaunch i f).ctxcmd = s.ctxcmd := rfl
@[simp] theorem State.modLaunch_ctxarg (s : State) (i : Nat) (f : Launch → Launch) : (s.modLaunch i f).ctxarg = s.ctxarg := rfl
@[simp] theorem State.modLaunch_keycmd (s : State) (i : Nat) (f : Launch → Launch) : (s.modLaunch i f).keycmd = s.keycmd := rfl
@[simp] theorem State.modLaunch_keyarg (s : State) (i : Nat) (f : Launch → Launch) : (s.modLaunch i f).keyarg = s.keyarg := rfl
@[simp] theorem State.modLaunch_keys (s : State) (i : Nat) (f : Launch → Launch) : (s.modLaunch i f).keys = s.keys := rfl
@[simp] theorem State.modLaunch_vdevs (s : State) (i : Nat) (f : Launch → Launch) : (s.modLaunch i f).vdevs = s.vdevs := rfl
@[simp] theorem State.modLaunch_pirqaddr (s : State) (i : Nat) (f : Launch → Launch) : (s.modLaunch i f).pirqaddr = s.pirqaddr := rfl
@[simp] theorem State.modLaunch_pirqdata (s : State) (i : Nat) (f : Launch → Launch) : (s.modLaunch i f).pirqdata = s.pirqdata := rfl
@[simp] theorem State.modLaunch_pirqst (s : State) (i : Nat) (f : Launch → Launch) : (s.modLaunch i f).pirqst = s.pirqst := rfl
@[simp] theorem State.modLaunch_fabid (s : State) (i : Nat) (f : Launch → Launch) : (s.modLaunch i f).fabid = s.fabid := rfl
@[simp] theorem State.modLaunch_fabdrop (s : State) (i : Nat) (f : Launch → Launch) : (s.modLaunch i f).fabdrop = s.fabdrop := rfl
@[simp] theorem State.modLaunch_faballow (s : State) (i : Nat) (f : Launch → Launch) : (s.modLaunch i f).faballow = s.faballow := rfl
@[simp] theorem State.modLaunch_fgroups (s : State) (i : Nat) (f : Launch → Launch) : (s.modLaunch i f).fgroups = s.fgroups := rfl
@[simp] theorem State.modLaunch_colls (s : State) (i : Nat) (f : Launch → Launch) : (s.modLaunch i f).colls = s.colls := rfl
@[simp] theorem State.modLaunch_frames (s : State) (i : Nat) (f : Launch → Launch) : (s.modLaunch i f).frames = s.frames := rfl
@[simp] theorem State.modLaunch_sentFrames (s : State) (i : Nat) (f : Launch → Launch) : (s.modLaunch i f).sentFrames = s.sentFrames := rfl
@[simp] theorem State.modLaunch_dieCtr (s : State) (i : Nat) (f : Launch → Launch) : (s.modLaunch i f).dieCtr = s.dieCtr := rfl
@[simp] theorem State.modLaunch_fumctl (s : State) (i : Nat) (f : Launch → Launch) : (s.modLaunch i f).fumctl = s.fumctl := rfl
@[simp] theorem State.modLaunch_fumtail (s : State) (i : Nat) (f : Launch → Launch) : (s.modLaunch i f).fumtail = s.fumtail := rfl
@[simp] theorem State.modLaunch_fumhead (s : State) (i : Nat) (f : Launch → Launch) : (s.modLaunch i f).fumhead = s.fumhead := rfl
@[simp] theorem State.modLaunch_fumdrop (s : State) (i : Nat) (f : Launch → Launch) : (s.modLaunch i f).fumdrop = s.fumdrop := rfl
@[simp] theorem State.modLaunch_fumtick (s : State) (i : Nat) (f : Launch → Launch) : (s.modLaunch i f).fumtick = s.fumtick := rfl
@[simp] theorem State.modLaunch_fumfrom (s : State) (i : Nat) (f : Launch → Launch) : (s.modLaunch i f).fumfrom = s.fumfrom := rfl
@[simp] theorem State.modLaunch_usageTicks (s : State) (i : Nat) (f : Launch → Launch) : (s.modLaunch i f).usageTicks = s.usageTicks := rfl
@[simp] theorem State.modLaunch_pastCtxs (s : State) (i : Nat) (f : Launch → Launch) : (s.modLaunch i f).pastCtxs = s.pastCtxs := rfl
@[simp] theorem State.modLaunch_pwrcap (s : State) (i : Nat) (f : Launch → Launch) : (s.modLaunch i f).pwrcap = s.pwrcap := rfl
@[simp] theorem State.modLaunch_pwr (s : State) (i : Nat) (f : Launch → Launch) : (s.modLaunch i f).pwr = s.pwr := rfl
@[simp] theorem State.modLaunch_pwrStep (s : State) (i : Nat) (f : Launch → Launch) : (s.modLaunch i f).pwrStep = s.pwrStep := rfl
@[simp] theorem State.modLaunch_pwrBin (s : State) (i : Nat) (f : Launch → Launch) : (s.modLaunch i f).pwrBin = s.pwrBin := rfl
@[simp] theorem State.modLaunch_pwrTicks (s : State) (i : Nat) (f : Launch → Launch) : (s.modLaunch i f).pwrTicks = s.pwrTicks := rfl
@[simp] theorem State.modLaunch_pwrSeen (s : State) (i : Nat) (f : Launch → Launch) : (s.modLaunch i f).pwrSeen = s.pwrSeen := rfl
@[simp] theorem State.modLaunch_hfrac (s : State) (i : Nat) (f : Launch → Launch) : (s.modLaunch i f).hfrac = s.hfrac := rfl
@[simp] theorem State.modLaunch_ilim (s : State) (i : Nat) (f : Launch → Launch) : (s.modLaunch i f).ilim = s.ilim := rfl
@[simp] theorem State.modLaunch_cores (s : State) (i : Nat) (f : Launch → Launch) : (s.modLaunch i f).cores = s.cores := rfl

/-! ## State.hostSet -/

@[simp] theorem State.hostSet_agenda (s : State) (a : Nat) (bs : List Byte) : (s.hostSet a bs).agenda = s.agenda := rfl
@[simp] theorem State.hostSet_focus (s : State) (a : Nat) (bs : List Byte) : (s.hostSet a bs).focus = s.focus := rfl
@[simp] theorem State.hostSet_free (s : State) (a : Nat) (bs : List Byte) : (s.hostSet a bs).free = s.free := rfl
@[simp] theorem State.hostSet_nextId (s : State) (a : Nat) (bs : List Byte) : (s.hostSet a bs).nextId = s.nextId := rfl
@[simp] theorem State.hostSet_hist (s : State) (a : Nat) (bs : List Byte) : (s.hostSet a bs).hist = s.hist := rfl
@[simp] theorem State.hostSet_time (s : State) (a : Nat) (bs : List Byte) : (s.hostSet a bs).time = s.time := rfl
@[simp] theorem State.hostSet_dieClk (s : State) (a : Nat) (bs : List Byte) : (s.hostSet a bs).dieClk = s.dieClk := rfl
@[simp] theorem State.hostSet_dmem (s : State) (a : Nat) (bs : List Byte) : (s.hostSet a bs).dmem = s.dmem := rfl
@[simp] theorem State.hostSet_memUe (s : State) (a : Nat) (bs : List Byte) : (s.hostSet a bs).memUe = s.memUe := rfl
@[simp] theorem State.hostSet_cmap (s : State) (a : Nat) (bs : List Byte) : (s.hostSet a bs).cmap = s.cmap := rfl
@[simp] theorem State.hostSet_mapgrc (s : State) (a : Nat) (bs : List Byte) : (s.hostSet a bs).mapgrc = s.mapgrc := rfl
@[simp] theorem State.hostSet_lsarg (s : State) (a : Nat) (bs : List Byte) : (s.hostSet a bs).lsarg = s.lsarg := rfl
@[simp] theorem State.hostSet_lscmd (s : State) (a : Nat) (bs : List Byte) : (s.hostSet a bs).lscmd = s.lscmd := rfl
@[simp] theorem State.hostSet_lsops (s : State) (a : Nat) (bs : List Byte) : (s.hostSet a bs).lsops = s.lsops := rfl
@[simp] theorem State.hostSet_bootCount (s : State) (a : Nat) (bs : List Byte) : (s.hostSet a bs).bootCount = s.bootCount := rfl
@[simp] theorem State.hostSet_linkReady (s : State) (a : Nat) (bs : List Byte) : (s.hostSet a bs).linkReady = s.linkReady := rfl
@[simp] theorem State.hostSet_mgmtOnly (s : State) (a : Nat) (bs : List Byte) : (s.hostSet a bs).mgmtOnly = s.mgmtOnly := rfl
@[simp] theorem State.hostSet_badBanks (s : State) (a : Nat) (bs : List Byte) : (s.hostSet a bs).badBanks = s.badBanks := rfl
@[simp] theorem State.hostSet_selfTest (s : State) (a : Nat) (bs : List Byte) : (s.hostSet a bs).selfTest = s.selfTest := rfl
@[simp] theorem State.hostSet_tlbinva (s : State) (a : Nat) (bs : List Byte) : (s.hostSet a bs).tlbinva = s.tlbinva := rfl
@[simp] theorem State.hostSet_tlbinvc (s : State) (a : Nat) (bs : List Byte) : (s.hostSet a bs).tlbinvc = s.tlbinvc := rfl
@[simp] theorem State.hostSet_tlbRun (s : State) (a : Nat) (bs : List Byte) : (s.hostSet a bs).tlbRun = s.tlbRun := rfl
@[simp] theorem State.hostSet_latepr (s : State) (a : Nat) (bs : List Byte) : (s.hostSet a bs).latepr = s.latepr := rfl
@[simp] theorem State.hostSet_l2ways (s : State) (a : Nat) (bs : List Byte) : (s.hostSet a bs).l2ways = s.l2ways := rfl
@[simp] theorem State.hostSet_clsreg (s : State) (a : Nat) (bs : List Byte) : (s.hostSet a bs).clsreg = s.clsreg := rfl
@[simp] theorem State.hostSet_rflush (s : State) (a : Nat) (bs : List Byte) : (s.hostSet a bs).rflush = s.rflush := rfl
@[simp] theorem State.hostSet_rflushLost (s : State) (a : Nat) (bs : List Byte) : (s.hostSet a bs).rflushLost = s.rflushLost := rfl
@[simp] theorem State.hostSet_rtstat (s : State) (a : Nat) (bs : List Byte) : (s.hostSet a bs).rtstat = s.rtstat := rfl
@[simp] theorem State.hostSet_regions (s : State) (a : Nat) (bs : List Byte) : (s.hostSet a bs).regions = s.regions := rfl
@[simp] theorem State.hostSet_oldLines (s : State) (a : Nat) (bs : List Byte) : (s.hostSet a bs).oldLines = s.oldLines := rfl
@[simp] theorem State.hostSet_oldWords (s : State) (a : Nat) (bs : List Byte) : (s.hostSet a bs).oldWords = s.oldWords := rfl
@[simp] theorem State.hostSet_l2lines (s : State) (a : Nat) (bs : List Byte) : (s.hostSet a bs).l2lines = s.l2lines := rfl
@[simp] theorem State.hostSet_written (s : State) (a : Nat) (bs : List Byte) : (s.hostSet a bs).written = s.written := rfl
@[simp] theorem State.hostSet_l2tlb (s : State) (a : Nat) (bs : List Byte) : (s.hostSet a bs).l2tlb = s.l2tlb := rfl
@[simp] theorem State.hostSet_walkCache (s : State) (a : Nat) (bs : List Byte) : (s.hostSet a bs).walkCache = s.walkCache := rfl
@[simp] theorem State.hostSet_walks (s : State) (a : Nat) (bs : List Byte) : (s.hostSet a bs).walks = s.walks := rfl
@[simp] theorem State.hostSet_walkKept (s : State) (a : Nat) (bs : List Byte) : (s.hostSet a bs).walkKept = s.walkKept := rfl
@[simp] theorem State.hostSet_walkFailed (s : State) (a : Nat) (bs : List Byte) : (s.hostSet a bs).walkFailed = s.walkFailed := rfl
@[simp] theorem State.hostSet_queues (s : State) (a : Nat) (bs : List Byte) : (s.hostSet a bs).queues = s.queues := rfl
@[simp] theorem State.hostSet_launches (s : State) (a : Nat) (bs : List Byte) : (s.hostSet a bs).launches = s.launches := rfl
@[simp] theorem State.hostSet_claims (s : State) (a : Nat) (bs : List Byte) : (s.hostSet a bs).claims = s.claims := rfl
@[simp] theorem State.hostSet_parts (s : State) (a : Nat) (bs : List Byte) : (s.hostSet a bs).parts = s.parts := rfl
@[simp] theorem State.hostSet_pmctl (s : State) (a : Nat) (bs : List Byte) : (s.hostSet a bs).pmctl = s.pmctl := rfl
@[simp] theorem State.hostSet_pmSt (s : State) (a : Nat) (bs : List Byte) : (s.hostSet a bs).pmSt = s.pmSt := rfl
@[simp] theorem State.hostSet_pmCode (s : State) (a : Nat) (bs : List Byte) : (s.hostSet a bs).pmCode = s.pmCode := rfl
@[simp] theorem State.hostSet_closing (s : State) (a : Nat) (bs : List Byte) : (s.hostSet a bs).closing = s.closing := rfl
@[simp] theorem State.hostSet_ctxs (s : State) (a : Nat) (bs : List Byte) : (s.hostSet a bs).ctxs = s.ctxs := rfl
@[simp] theorem State.hostSet_ctxcmd (s : State) (a : Nat) (bs : List Byte) : (s.hostSet a bs).ctxcmd = s.ctxcmd := rfl
@[simp] theorem State.hostSet_ctxarg (s : State) (a : Nat) (bs : List Byte) : (s.hostSet a bs).ctxarg = s.ctxarg := rfl
@[simp] theorem State.hostSet_keycmd (s : State) (a : Nat) (bs : List Byte) : (s.hostSet a bs).keycmd = s.keycmd := rfl
@[simp] theorem State.hostSet_keyarg (s : State) (a : Nat) (bs : List Byte) : (s.hostSet a bs).keyarg = s.keyarg := rfl
@[simp] theorem State.hostSet_keys (s : State) (a : Nat) (bs : List Byte) : (s.hostSet a bs).keys = s.keys := rfl
@[simp] theorem State.hostSet_vdevs (s : State) (a : Nat) (bs : List Byte) : (s.hostSet a bs).vdevs = s.vdevs := rfl
@[simp] theorem State.hostSet_pirqaddr (s : State) (a : Nat) (bs : List Byte) : (s.hostSet a bs).pirqaddr = s.pirqaddr := rfl
@[simp] theorem State.hostSet_pirqdata (s : State) (a : Nat) (bs : List Byte) : (s.hostSet a bs).pirqdata = s.pirqdata := rfl
@[simp] theorem State.hostSet_pirqst (s : State) (a : Nat) (bs : List Byte) : (s.hostSet a bs).pirqst = s.pirqst := rfl
@[simp] theorem State.hostSet_fabid (s : State) (a : Nat) (bs : List Byte) : (s.hostSet a bs).fabid = s.fabid := rfl
@[simp] theorem State.hostSet_fabdrop (s : State) (a : Nat) (bs : List Byte) : (s.hostSet a bs).fabdrop = s.fabdrop := rfl
@[simp] theorem State.hostSet_faballow (s : State) (a : Nat) (bs : List Byte) : (s.hostSet a bs).faballow = s.faballow := rfl
@[simp] theorem State.hostSet_fgroups (s : State) (a : Nat) (bs : List Byte) : (s.hostSet a bs).fgroups = s.fgroups := rfl
@[simp] theorem State.hostSet_colls (s : State) (a : Nat) (bs : List Byte) : (s.hostSet a bs).colls = s.colls := rfl
@[simp] theorem State.hostSet_frames (s : State) (a : Nat) (bs : List Byte) : (s.hostSet a bs).frames = s.frames := rfl
@[simp] theorem State.hostSet_sentFrames (s : State) (a : Nat) (bs : List Byte) : (s.hostSet a bs).sentFrames = s.sentFrames := rfl
@[simp] theorem State.hostSet_dieCtr (s : State) (a : Nat) (bs : List Byte) : (s.hostSet a bs).dieCtr = s.dieCtr := rfl
@[simp] theorem State.hostSet_fumctl (s : State) (a : Nat) (bs : List Byte) : (s.hostSet a bs).fumctl = s.fumctl := rfl
@[simp] theorem State.hostSet_fumtail (s : State) (a : Nat) (bs : List Byte) : (s.hostSet a bs).fumtail = s.fumtail := rfl
@[simp] theorem State.hostSet_fumhead (s : State) (a : Nat) (bs : List Byte) : (s.hostSet a bs).fumhead = s.fumhead := rfl
@[simp] theorem State.hostSet_fumdrop (s : State) (a : Nat) (bs : List Byte) : (s.hostSet a bs).fumdrop = s.fumdrop := rfl
@[simp] theorem State.hostSet_fumtick (s : State) (a : Nat) (bs : List Byte) : (s.hostSet a bs).fumtick = s.fumtick := rfl
@[simp] theorem State.hostSet_fumfrom (s : State) (a : Nat) (bs : List Byte) : (s.hostSet a bs).fumfrom = s.fumfrom := rfl
@[simp] theorem State.hostSet_usageTicks (s : State) (a : Nat) (bs : List Byte) : (s.hostSet a bs).usageTicks = s.usageTicks := rfl
@[simp] theorem State.hostSet_pastCtxs (s : State) (a : Nat) (bs : List Byte) : (s.hostSet a bs).pastCtxs = s.pastCtxs := rfl
@[simp] theorem State.hostSet_pwrcap (s : State) (a : Nat) (bs : List Byte) : (s.hostSet a bs).pwrcap = s.pwrcap := rfl
@[simp] theorem State.hostSet_pwr (s : State) (a : Nat) (bs : List Byte) : (s.hostSet a bs).pwr = s.pwr := rfl
@[simp] theorem State.hostSet_pwrStep (s : State) (a : Nat) (bs : List Byte) : (s.hostSet a bs).pwrStep = s.pwrStep := rfl
@[simp] theorem State.hostSet_pwrBin (s : State) (a : Nat) (bs : List Byte) : (s.hostSet a bs).pwrBin = s.pwrBin := rfl
@[simp] theorem State.hostSet_pwrTicks (s : State) (a : Nat) (bs : List Byte) : (s.hostSet a bs).pwrTicks = s.pwrTicks := rfl
@[simp] theorem State.hostSet_pwrSeen (s : State) (a : Nat) (bs : List Byte) : (s.hostSet a bs).pwrSeen = s.pwrSeen := rfl
@[simp] theorem State.hostSet_hfrac (s : State) (a : Nat) (bs : List Byte) : (s.hostSet a bs).hfrac = s.hfrac := rfl
@[simp] theorem State.hostSet_ilim (s : State) (a : Nat) (bs : List Byte) : (s.hostSet a bs).ilim = s.ilim := rfl
@[simp] theorem State.hostSet_cores (s : State) (a : Nat) (bs : List Byte) : (s.hostSet a bs).cores = s.cores := rfl

/-! ## Group.setReg -/

@[simp] theorem Group.setReg_ctx (g : Group) (n : Nat) (r : Reg) : (g.setReg n r).ctx = g.ctx := rfl
@[simp] theorem Group.setReg_launch (g : Group) (n : Nat) (r : Reg) : (g.setReg n r).launch = g.launch := rfl
@[simp] theorem Group.setReg_blk (g : Group) (n : Nat) (r : Reg) : (g.setReg n r).blk = g.blk := rfl
@[simp] theorem Group.setReg_stage (g : Group) (n : Nat) (r : Reg) : (g.setReg n r).stage = g.stage := rfl
@[simp] theorem Group.setReg_preds (g : Group) (n : Nat) (r : Reg) : (g.setReg n r).preds = g.preds := rfl
@[simp] theorem Group.setReg_threads (g : Group) (n : Nat) (r : Reg) : (g.setReg n r).threads = g.threads := rfl
@[simp] theorem Group.setReg_placed (g : Group) (n : Nat) (r : Reg) : (g.setReg n r).placed = g.placed := rfl
@[simp] theorem Group.setReg_tile (g : Group) (n : Nat) (r : Reg) : (g.setReg n r).tile = g.tile := rfl
@[simp] theorem Group.setReg_fcr (g : Group) (n : Nat) (r : Reg) : (g.setReg n r).fcr = g.fcr := rfl
@[simp] theorem Group.setReg_fsr (g : Group) (n : Nat) (r : Reg) : (g.setReg n r).fsr = g.fsr := rfl
@[simp] theorem Group.setReg_seed (g : Group) (n : Nat) (r : Reg) : (g.setReg n r).seed = g.seed := rfl
@[simp] theorem Group.setReg_engIdx (g : Group) (n : Nat) (r : Reg) : (g.setReg n r).engIdx = g.engIdx := rfl
@[simp] theorem Group.setReg_trapv (g : Group) (n : Nat) (r : Reg) : (g.setReg n r).trapv = g.trapv := rfl
@[simp] theorem Group.setReg_cp (g : Group) (n : Nat) (r : Reg) : (g.setReg n r).cp = g.cp := rfl
@[simp] theorem Group.setReg_gt (g : Group) (n : Nat) (r : Reg) : (g.setReg n r).gt = g.gt := rfl
@[simp] theorem Group.setReg_mt (g : Group) (n : Nat) (r : Reg) : (g.setReg n r).mt = g.mt := rfl
@[simp] theorem Group.setReg_cl (g : Group) (n : Nat) (r : Reg) : (g.setReg n r).cl = g.cl := rfl
@[simp] theorem Group.setReg_tokens (g : Group) (n : Nat) (r : Reg) : (g.setReg n r).tokens = g.tokens := rfl
@[simp] theorem Group.setReg_fmask (g : Group) (n : Nat) (r : Reg) : (g.setReg n r).fmask = g.fmask := rfl
@[simp] theorem Group.setReg_fcode (g : Group) (n : Nat) (r : Reg) : (g.setReg n r).fcode = g.fcode := rfl
@[simp] theorem Group.setReg_finfo (g : Group) (n : Nat) (r : Reg) : (g.setReg n r).finfo = g.finfo := rfl
@[simp] theorem Group.setReg_fpc (g : Group) (n : Nat) (r : Reg) : (g.setReg n r).fpc = g.fpc := rfl
@[simp] theorem Group.setReg_faddr (g : Group) (n : Nat) (r : Reg) : (g.setReg n r).faddr = g.faddr := rfl
@[simp] theorem Group.setReg_tpc (g : Group) (n : Nat) (r : Reg) : (g.setReg n r).tpc = g.tpc := rfl
@[simp] theorem Group.setReg_handler (g : Group) (n : Nat) (r : Reg) : (g.setReg n r).handler = g.handler := rfl
@[simp] theorem Group.setReg_hset (g : Group) (n : Nat) (r : Reg) : (g.setReg n r).hset = g.hset := rfl
@[simp] theorem Group.setReg_rteDone (g : Group) (n : Nat) (r : Reg) : (g.setReg n r).rteDone = g.rteDone := rfl
@[simp] theorem Group.setReg_rteSkip (g : Group) (n : Nat) (r : Reg) : (g.setReg n r).rteSkip = g.rteSkip := rfl
@[simp] theorem Group.setReg_region (g : Group) (n : Nat) (r : Reg) : (g.setReg n r).region = g.region := rfl
@[simp] theorem Group.setReg_restart (g : Group) (n : Nat) (r : Reg) : (g.setReg n r).restart = g.restart := rfl
@[simp] theorem Group.setReg_quartet (g : Group) (n : Nat) (r : Reg) : (g.setReg n r).quartet = g.quartet := rfl
@[simp] theorem Group.setReg_clause (g : Group) (n : Nat) (r : Reg) : (g.setReg n r).clause = g.clause := rfl
@[simp] theorem Group.setReg_wait (g : Group) (n : Nat) (r : Reg) : (g.setReg n r).wait = g.wait := rfl
@[simp] theorem Group.setReg_savedWait (g : Group) (n : Nat) (r : Reg) : (g.setReg n r).savedWait = g.savedWait := rfl
@[simp] theorem Group.setReg_pend (g : Group) (n : Nat) (r : Reg) : (g.setReg n r).pend = g.pend := rfl
@[simp] theorem Group.setReg_walkFaults (g : Group) (n : Nat) (r : Reg) : (g.setReg n r).walkFaults = g.walkFaults := rfl
@[simp] theorem Group.setReg_walkHits (g : Group) (n : Nat) (r : Reg) : (g.setReg n r).walkHits = g.walkHits := rfl
@[simp] theorem Group.setReg_asyncFaults (g : Group) (n : Nat) (r : Reg) : (g.setReg n r).asyncFaults = g.asyncFaults := rfl
@[simp] theorem Group.setReg_residency (g : Group) (n : Nat) (r : Reg) : (g.setReg n r).residency = g.residency := rfl
@[simp] theorem Group.setReg_debugEdits (g : Group) (n : Nat) (r : Reg) : (g.setReg n r).debugEdits = g.debugEdits := rfl
@[simp] theorem Group.setReg_globWr (g : Group) (n : Nat) (r : Reg) : (g.setReg n r).globWr = g.globWr := rfl
@[simp] theorem Group.setReg_ylast (g : Group) (n : Nat) (r : Reg) : (g.setReg n r).ylast = g.ylast := rfl
@[simp] theorem Group.setReg_bWait (g : Group) (n : Nat) (r : Reg) : (g.setReg n r).bWait = g.bWait := rfl
@[simp] theorem Group.setReg_readyAt (g : Group) (n : Nat) (r : Reg) : (g.setReg n r).readyAt = g.readyAt := rfl

/-! ## Group.setPred -/

@[simp] theorem Group.setPred_ctx (g : Group) (n : Nat) (u : Bool) (ok b : Mask) : (g.setPred n u ok b).ctx = g.ctx := rfl
@[simp] theorem Group.setPred_launch (g : Group) (n : Nat) (u : Bool) (ok b : Mask) : (g.setPred n u ok b).launch = g.launch := rfl
@[simp] theorem Group.setPred_blk (g : Group) (n : Nat) (u : Bool) (ok b : Mask) : (g.setPred n u ok b).blk = g.blk := rfl
@[simp] theorem Group.setPred_stage (g : Group) (n : Nat) (u : Bool) (ok b : Mask) : (g.setPred n u ok b).stage = g.stage := rfl
@[simp] theorem Group.setPred_regs (g : Group) (n : Nat) (u : Bool) (ok b : Mask) : (g.setPred n u ok b).regs = g.regs := rfl
@[simp] theorem Group.setPred_threads (g : Group) (n : Nat) (u : Bool) (ok b : Mask) : (g.setPred n u ok b).threads = g.threads := rfl
@[simp] theorem Group.setPred_placed (g : Group) (n : Nat) (u : Bool) (ok b : Mask) : (g.setPred n u ok b).placed = g.placed := rfl
@[simp] theorem Group.setPred_tile (g : Group) (n : Nat) (u : Bool) (ok b : Mask) : (g.setPred n u ok b).tile = g.tile := rfl
@[simp] theorem Group.setPred_fcr (g : Group) (n : Nat) (u : Bool) (ok b : Mask) : (g.setPred n u ok b).fcr = g.fcr := rfl
@[simp] theorem Group.setPred_fsr (g : Group) (n : Nat) (u : Bool) (ok b : Mask) : (g.setPred n u ok b).fsr = g.fsr := rfl
@[simp] theorem Group.setPred_seed (g : Group) (n : Nat) (u : Bool) (ok b : Mask) : (g.setPred n u ok b).seed = g.seed := rfl
@[simp] theorem Group.setPred_engIdx (g : Group) (n : Nat) (u : Bool) (ok b : Mask) : (g.setPred n u ok b).engIdx = g.engIdx := rfl
@[simp] theorem Group.setPred_trapv (g : Group) (n : Nat) (u : Bool) (ok b : Mask) : (g.setPred n u ok b).trapv = g.trapv := rfl
@[simp] theorem Group.setPred_cp (g : Group) (n : Nat) (u : Bool) (ok b : Mask) : (g.setPred n u ok b).cp = g.cp := rfl
@[simp] theorem Group.setPred_gt (g : Group) (n : Nat) (u : Bool) (ok b : Mask) : (g.setPred n u ok b).gt = g.gt := rfl
@[simp] theorem Group.setPred_mt (g : Group) (n : Nat) (u : Bool) (ok b : Mask) : (g.setPred n u ok b).mt = g.mt := rfl
@[simp] theorem Group.setPred_cl (g : Group) (n : Nat) (u : Bool) (ok b : Mask) : (g.setPred n u ok b).cl = g.cl := rfl
@[simp] theorem Group.setPred_tokens (g : Group) (n : Nat) (u : Bool) (ok b : Mask) : (g.setPred n u ok b).tokens = g.tokens := rfl
@[simp] theorem Group.setPred_fmask (g : Group) (n : Nat) (u : Bool) (ok b : Mask) : (g.setPred n u ok b).fmask = g.fmask := rfl
@[simp] theorem Group.setPred_fcode (g : Group) (n : Nat) (u : Bool) (ok b : Mask) : (g.setPred n u ok b).fcode = g.fcode := rfl
@[simp] theorem Group.setPred_finfo (g : Group) (n : Nat) (u : Bool) (ok b : Mask) : (g.setPred n u ok b).finfo = g.finfo := rfl
@[simp] theorem Group.setPred_fpc (g : Group) (n : Nat) (u : Bool) (ok b : Mask) : (g.setPred n u ok b).fpc = g.fpc := rfl
@[simp] theorem Group.setPred_faddr (g : Group) (n : Nat) (u : Bool) (ok b : Mask) : (g.setPred n u ok b).faddr = g.faddr := rfl
@[simp] theorem Group.setPred_tpc (g : Group) (n : Nat) (u : Bool) (ok b : Mask) : (g.setPred n u ok b).tpc = g.tpc := rfl
@[simp] theorem Group.setPred_handler (g : Group) (n : Nat) (u : Bool) (ok b : Mask) : (g.setPred n u ok b).handler = g.handler := rfl
@[simp] theorem Group.setPred_hset (g : Group) (n : Nat) (u : Bool) (ok b : Mask) : (g.setPred n u ok b).hset = g.hset := rfl
@[simp] theorem Group.setPred_rteDone (g : Group) (n : Nat) (u : Bool) (ok b : Mask) : (g.setPred n u ok b).rteDone = g.rteDone := rfl
@[simp] theorem Group.setPred_rteSkip (g : Group) (n : Nat) (u : Bool) (ok b : Mask) : (g.setPred n u ok b).rteSkip = g.rteSkip := rfl
@[simp] theorem Group.setPred_region (g : Group) (n : Nat) (u : Bool) (ok b : Mask) : (g.setPred n u ok b).region = g.region := rfl
@[simp] theorem Group.setPred_restart (g : Group) (n : Nat) (u : Bool) (ok b : Mask) : (g.setPred n u ok b).restart = g.restart := rfl
@[simp] theorem Group.setPred_quartet (g : Group) (n : Nat) (u : Bool) (ok b : Mask) : (g.setPred n u ok b).quartet = g.quartet := rfl
@[simp] theorem Group.setPred_clause (g : Group) (n : Nat) (u : Bool) (ok b : Mask) : (g.setPred n u ok b).clause = g.clause := rfl
@[simp] theorem Group.setPred_wait (g : Group) (n : Nat) (u : Bool) (ok b : Mask) : (g.setPred n u ok b).wait = g.wait := rfl
@[simp] theorem Group.setPred_savedWait (g : Group) (n : Nat) (u : Bool) (ok b : Mask) : (g.setPred n u ok b).savedWait = g.savedWait := rfl
@[simp] theorem Group.setPred_pend (g : Group) (n : Nat) (u : Bool) (ok b : Mask) : (g.setPred n u ok b).pend = g.pend := rfl
@[simp] theorem Group.setPred_walkFaults (g : Group) (n : Nat) (u : Bool) (ok b : Mask) : (g.setPred n u ok b).walkFaults = g.walkFaults := rfl
@[simp] theorem Group.setPred_walkHits (g : Group) (n : Nat) (u : Bool) (ok b : Mask) : (g.setPred n u ok b).walkHits = g.walkHits := rfl
@[simp] theorem Group.setPred_asyncFaults (g : Group) (n : Nat) (u : Bool) (ok b : Mask) : (g.setPred n u ok b).asyncFaults = g.asyncFaults := rfl
@[simp] theorem Group.setPred_residency (g : Group) (n : Nat) (u : Bool) (ok b : Mask) : (g.setPred n u ok b).residency = g.residency := rfl
@[simp] theorem Group.setPred_debugEdits (g : Group) (n : Nat) (u : Bool) (ok b : Mask) : (g.setPred n u ok b).debugEdits = g.debugEdits := rfl
@[simp] theorem Group.setPred_globWr (g : Group) (n : Nat) (u : Bool) (ok b : Mask) : (g.setPred n u ok b).globWr = g.globWr := rfl
@[simp] theorem Group.setPred_ylast (g : Group) (n : Nat) (u : Bool) (ok b : Mask) : (g.setPred n u ok b).ylast = g.ylast := rfl
@[simp] theorem Group.setPred_bWait (g : Group) (n : Nat) (u : Bool) (ok b : Mask) : (g.setPred n u ok b).bWait = g.bWait := rfl
@[simp] theorem Group.setPred_readyAt (g : Group) (n : Nat) (u : Bool) (ok b : Mask) : (g.setPred n u ok b).readyAt = g.readyAt := rfl

/-! ## Group.orFsr -/

@[simp] theorem Group.orFsr_ctx (g : Group) (e : Nat) : (g.orFsr e).ctx = g.ctx := rfl
@[simp] theorem Group.orFsr_launch (g : Group) (e : Nat) : (g.orFsr e).launch = g.launch := rfl
@[simp] theorem Group.orFsr_blk (g : Group) (e : Nat) : (g.orFsr e).blk = g.blk := rfl
@[simp] theorem Group.orFsr_stage (g : Group) (e : Nat) : (g.orFsr e).stage = g.stage := rfl
@[simp] theorem Group.orFsr_regs (g : Group) (e : Nat) : (g.orFsr e).regs = g.regs := rfl
@[simp] theorem Group.orFsr_preds (g : Group) (e : Nat) : (g.orFsr e).preds = g.preds := rfl
@[simp] theorem Group.orFsr_threads (g : Group) (e : Nat) : (g.orFsr e).threads = g.threads := rfl
@[simp] theorem Group.orFsr_placed (g : Group) (e : Nat) : (g.orFsr e).placed = g.placed := rfl
@[simp] theorem Group.orFsr_tile (g : Group) (e : Nat) : (g.orFsr e).tile = g.tile := rfl
@[simp] theorem Group.orFsr_fcr (g : Group) (e : Nat) : (g.orFsr e).fcr = g.fcr := rfl
@[simp] theorem Group.orFsr_seed (g : Group) (e : Nat) : (g.orFsr e).seed = g.seed := rfl
@[simp] theorem Group.orFsr_engIdx (g : Group) (e : Nat) : (g.orFsr e).engIdx = g.engIdx := rfl
@[simp] theorem Group.orFsr_trapv (g : Group) (e : Nat) : (g.orFsr e).trapv = g.trapv := rfl
@[simp] theorem Group.orFsr_cp (g : Group) (e : Nat) : (g.orFsr e).cp = g.cp := rfl
@[simp] theorem Group.orFsr_gt (g : Group) (e : Nat) : (g.orFsr e).gt = g.gt := rfl
@[simp] theorem Group.orFsr_mt (g : Group) (e : Nat) : (g.orFsr e).mt = g.mt := rfl
@[simp] theorem Group.orFsr_cl (g : Group) (e : Nat) : (g.orFsr e).cl = g.cl := rfl
@[simp] theorem Group.orFsr_tokens (g : Group) (e : Nat) : (g.orFsr e).tokens = g.tokens := rfl
@[simp] theorem Group.orFsr_fmask (g : Group) (e : Nat) : (g.orFsr e).fmask = g.fmask := rfl
@[simp] theorem Group.orFsr_fcode (g : Group) (e : Nat) : (g.orFsr e).fcode = g.fcode := rfl
@[simp] theorem Group.orFsr_finfo (g : Group) (e : Nat) : (g.orFsr e).finfo = g.finfo := rfl
@[simp] theorem Group.orFsr_fpc (g : Group) (e : Nat) : (g.orFsr e).fpc = g.fpc := rfl
@[simp] theorem Group.orFsr_faddr (g : Group) (e : Nat) : (g.orFsr e).faddr = g.faddr := rfl
@[simp] theorem Group.orFsr_tpc (g : Group) (e : Nat) : (g.orFsr e).tpc = g.tpc := rfl
@[simp] theorem Group.orFsr_handler (g : Group) (e : Nat) : (g.orFsr e).handler = g.handler := rfl
@[simp] theorem Group.orFsr_hset (g : Group) (e : Nat) : (g.orFsr e).hset = g.hset := rfl
@[simp] theorem Group.orFsr_rteDone (g : Group) (e : Nat) : (g.orFsr e).rteDone = g.rteDone := rfl
@[simp] theorem Group.orFsr_rteSkip (g : Group) (e : Nat) : (g.orFsr e).rteSkip = g.rteSkip := rfl
@[simp] theorem Group.orFsr_region (g : Group) (e : Nat) : (g.orFsr e).region = g.region := rfl
@[simp] theorem Group.orFsr_restart (g : Group) (e : Nat) : (g.orFsr e).restart = g.restart := rfl
@[simp] theorem Group.orFsr_quartet (g : Group) (e : Nat) : (g.orFsr e).quartet = g.quartet := rfl
@[simp] theorem Group.orFsr_clause (g : Group) (e : Nat) : (g.orFsr e).clause = g.clause := rfl
@[simp] theorem Group.orFsr_wait (g : Group) (e : Nat) : (g.orFsr e).wait = g.wait := rfl
@[simp] theorem Group.orFsr_savedWait (g : Group) (e : Nat) : (g.orFsr e).savedWait = g.savedWait := rfl
@[simp] theorem Group.orFsr_pend (g : Group) (e : Nat) : (g.orFsr e).pend = g.pend := rfl
@[simp] theorem Group.orFsr_walkFaults (g : Group) (e : Nat) : (g.orFsr e).walkFaults = g.walkFaults := rfl
@[simp] theorem Group.orFsr_walkHits (g : Group) (e : Nat) : (g.orFsr e).walkHits = g.walkHits := rfl
@[simp] theorem Group.orFsr_asyncFaults (g : Group) (e : Nat) : (g.orFsr e).asyncFaults = g.asyncFaults := rfl
@[simp] theorem Group.orFsr_residency (g : Group) (e : Nat) : (g.orFsr e).residency = g.residency := rfl
@[simp] theorem Group.orFsr_debugEdits (g : Group) (e : Nat) : (g.orFsr e).debugEdits = g.debugEdits := rfl
@[simp] theorem Group.orFsr_globWr (g : Group) (e : Nat) : (g.orFsr e).globWr = g.globWr := rfl
@[simp] theorem Group.orFsr_ylast (g : Group) (e : Nat) : (g.orFsr e).ylast = g.ylast := rfl
@[simp] theorem Group.orFsr_bWait (g : Group) (e : Nat) : (g.orFsr e).bWait = g.bWait := rfl
@[simp] theorem Group.orFsr_readyAt (g : Group) (e : Nat) : (g.orFsr e).readyAt = g.readyAt := rfl

/-! ## Group.modThs -/

@[simp] theorem Group.modThs_ctx (g : Group) (m : Mask) (f : Nat → Thread → Thread) : (g.modThs m f).ctx = g.ctx := rfl
@[simp] theorem Group.modThs_launch (g : Group) (m : Mask) (f : Nat → Thread → Thread) : (g.modThs m f).launch = g.launch := rfl
@[simp] theorem Group.modThs_blk (g : Group) (m : Mask) (f : Nat → Thread → Thread) : (g.modThs m f).blk = g.blk := rfl
@[simp] theorem Group.modThs_stage (g : Group) (m : Mask) (f : Nat → Thread → Thread) : (g.modThs m f).stage = g.stage := rfl
@[simp] theorem Group.modThs_regs (g : Group) (m : Mask) (f : Nat → Thread → Thread) : (g.modThs m f).regs = g.regs := rfl
@[simp] theorem Group.modThs_preds (g : Group) (m : Mask) (f : Nat → Thread → Thread) : (g.modThs m f).preds = g.preds := rfl
@[simp] theorem Group.modThs_placed (g : Group) (m : Mask) (f : Nat → Thread → Thread) : (g.modThs m f).placed = g.placed := rfl
@[simp] theorem Group.modThs_tile (g : Group) (m : Mask) (f : Nat → Thread → Thread) : (g.modThs m f).tile = g.tile := rfl
@[simp] theorem Group.modThs_fcr (g : Group) (m : Mask) (f : Nat → Thread → Thread) : (g.modThs m f).fcr = g.fcr := rfl
@[simp] theorem Group.modThs_fsr (g : Group) (m : Mask) (f : Nat → Thread → Thread) : (g.modThs m f).fsr = g.fsr := rfl
@[simp] theorem Group.modThs_seed (g : Group) (m : Mask) (f : Nat → Thread → Thread) : (g.modThs m f).seed = g.seed := rfl
@[simp] theorem Group.modThs_engIdx (g : Group) (m : Mask) (f : Nat → Thread → Thread) : (g.modThs m f).engIdx = g.engIdx := rfl
@[simp] theorem Group.modThs_trapv (g : Group) (m : Mask) (f : Nat → Thread → Thread) : (g.modThs m f).trapv = g.trapv := rfl
@[simp] theorem Group.modThs_cp (g : Group) (m : Mask) (f : Nat → Thread → Thread) : (g.modThs m f).cp = g.cp := rfl
@[simp] theorem Group.modThs_gt (g : Group) (m : Mask) (f : Nat → Thread → Thread) : (g.modThs m f).gt = g.gt := rfl
@[simp] theorem Group.modThs_mt (g : Group) (m : Mask) (f : Nat → Thread → Thread) : (g.modThs m f).mt = g.mt := rfl
@[simp] theorem Group.modThs_cl (g : Group) (m : Mask) (f : Nat → Thread → Thread) : (g.modThs m f).cl = g.cl := rfl
@[simp] theorem Group.modThs_tokens (g : Group) (m : Mask) (f : Nat → Thread → Thread) : (g.modThs m f).tokens = g.tokens := rfl
@[simp] theorem Group.modThs_fmask (g : Group) (m : Mask) (f : Nat → Thread → Thread) : (g.modThs m f).fmask = g.fmask := rfl
@[simp] theorem Group.modThs_fcode (g : Group) (m : Mask) (f : Nat → Thread → Thread) : (g.modThs m f).fcode = g.fcode := rfl
@[simp] theorem Group.modThs_finfo (g : Group) (m : Mask) (f : Nat → Thread → Thread) : (g.modThs m f).finfo = g.finfo := rfl
@[simp] theorem Group.modThs_fpc (g : Group) (m : Mask) (f : Nat → Thread → Thread) : (g.modThs m f).fpc = g.fpc := rfl
@[simp] theorem Group.modThs_faddr (g : Group) (m : Mask) (f : Nat → Thread → Thread) : (g.modThs m f).faddr = g.faddr := rfl
@[simp] theorem Group.modThs_tpc (g : Group) (m : Mask) (f : Nat → Thread → Thread) : (g.modThs m f).tpc = g.tpc := rfl
@[simp] theorem Group.modThs_handler (g : Group) (m : Mask) (f : Nat → Thread → Thread) : (g.modThs m f).handler = g.handler := rfl
@[simp] theorem Group.modThs_hset (g : Group) (m : Mask) (f : Nat → Thread → Thread) : (g.modThs m f).hset = g.hset := rfl
@[simp] theorem Group.modThs_rteDone (g : Group) (m : Mask) (f : Nat → Thread → Thread) : (g.modThs m f).rteDone = g.rteDone := rfl
@[simp] theorem Group.modThs_rteSkip (g : Group) (m : Mask) (f : Nat → Thread → Thread) : (g.modThs m f).rteSkip = g.rteSkip := rfl
@[simp] theorem Group.modThs_region (g : Group) (m : Mask) (f : Nat → Thread → Thread) : (g.modThs m f).region = g.region := rfl
@[simp] theorem Group.modThs_restart (g : Group) (m : Mask) (f : Nat → Thread → Thread) : (g.modThs m f).restart = g.restart := rfl
@[simp] theorem Group.modThs_quartet (g : Group) (m : Mask) (f : Nat → Thread → Thread) : (g.modThs m f).quartet = g.quartet := rfl
@[simp] theorem Group.modThs_clause (g : Group) (m : Mask) (f : Nat → Thread → Thread) : (g.modThs m f).clause = g.clause := rfl
@[simp] theorem Group.modThs_wait (g : Group) (m : Mask) (f : Nat → Thread → Thread) : (g.modThs m f).wait = g.wait := rfl
@[simp] theorem Group.modThs_savedWait (g : Group) (m : Mask) (f : Nat → Thread → Thread) : (g.modThs m f).savedWait = g.savedWait := rfl
@[simp] theorem Group.modThs_pend (g : Group) (m : Mask) (f : Nat → Thread → Thread) : (g.modThs m f).pend = g.pend := rfl
@[simp] theorem Group.modThs_walkFaults (g : Group) (m : Mask) (f : Nat → Thread → Thread) : (g.modThs m f).walkFaults = g.walkFaults := rfl
@[simp] theorem Group.modThs_walkHits (g : Group) (m : Mask) (f : Nat → Thread → Thread) : (g.modThs m f).walkHits = g.walkHits := rfl
@[simp] theorem Group.modThs_asyncFaults (g : Group) (m : Mask) (f : Nat → Thread → Thread) : (g.modThs m f).asyncFaults = g.asyncFaults := rfl
@[simp] theorem Group.modThs_residency (g : Group) (m : Mask) (f : Nat → Thread → Thread) : (g.modThs m f).residency = g.residency := rfl
@[simp] theorem Group.modThs_debugEdits (g : Group) (m : Mask) (f : Nat → Thread → Thread) : (g.modThs m f).debugEdits = g.debugEdits := rfl
@[simp] theorem Group.modThs_globWr (g : Group) (m : Mask) (f : Nat → Thread → Thread) : (g.modThs m f).globWr = g.globWr := rfl
@[simp] theorem Group.modThs_ylast (g : Group) (m : Mask) (f : Nat → Thread → Thread) : (g.modThs m f).ylast = g.ylast := rfl
@[simp] theorem Group.modThs_bWait (g : Group) (m : Mask) (f : Nat → Thread → Thread) : (g.modThs m f).bWait = g.bWait := rfl
@[simp] theorem Group.modThs_readyAt (g : Group) (m : Mask) (f : Nat → Thread → Thread) : (g.modThs m f).readyAt = g.readyAt := rfl

end Sys2Proof.Machine
end

