-- ==== Sys2Proof/Laws/Tables.lean ====
section
/-! SUPPORT. Laws of keyed tables, lists and sets of slots. -/

namespace Sys2Proof.Machine

@[simp] theorem alGet_alSet {α : Type} (k : Nat) (v : α) (l : List (Nat × α)) : alGet k (alSet k v l) = some v := by
  induction l with
  | nil => simp [alSet, alGet]
  | cons x r ih =>
    obtain ⟨j, w⟩ := x
    simp only [alSet]
    split
    · simp [alGet]
    · split
      · simp [alGet]
      · simp [alGet, *]

theorem alGet_alSet_ne {α : Type} {j k : Nat} (h : j ≠ k) (v : α) (l : List (Nat × α)) : alGet j (alSet k v l) = alGet j l := by
  induction l with
  | nil => simp [alSet, alGet, Ne.symm h]
  | cons x r ih =>
    obtain ⟨i, w⟩ := x
    simp only [alSet]
    split
    · simp [alGet, Ne.symm h]
    · split
      · rename_i hi
        subst hi
        simp [alGet, Ne.symm h]
      · simp only [alGet, ih]

@[simp] theorem alSet_alSet {α : Type} (k : Nat) (v w : α) (l : List (Nat × α)) : alSet k v (alSet k w l) = alSet k v l := by
  induction l with
  | nil => simp [alSet]
  | cons x r ih =>
    obtain ⟨j, u⟩ := x
    by_cases h1 : k < j
    · simp [alSet, h1]
    · by_cases h2 : j = k
      · simp [alSet, h2]
      · simp [alSet, h1, h2, ih]

theorem alGet_alDel_ne {α : Type} {j k : Nat} (h : j ≠ k) (l : List (Nat × α)) : alGet j (alDel k l) = alGet j l := by
  induction l with
  | nil => rfl
  | cons x r ih =>
    obtain ⟨i, w⟩ := x
    simp only [alDel]
    split
    · rename_i hi
      subst hi
      simp [alGet, Ne.symm h]
    · simp only [alGet, ih]

@[simp] theorem listMod_length {α : Type} (l : List α) (i : Nat) (f : α → α) : (listMod l i f).length = l.length := by
  induction l generalizing i with
  | nil => rfl
  | cons x r ih => cases i <;> simp [listMod, ih]

theorem listMod_getD_self {α : Type} (l : List α) (i : Nat) (f : α → α) (d : α) (h : i < l.length) :
    (listMod l i f).getD i d = f (l.getD i d) := by
  induction l generalizing i with
  | nil => simp at h
  | cons x r ih =>
    cases i with
    | zero => simp [listMod]
    | succ n => simpa [listMod] using ih n (by simpa using h)

theorem listMod_getD_ne {α : Type} (l : List α) (i j : Nat) (f : α → α) (d : α) (h : j ≠ i) :
    (listMod l i f).getD j d = l.getD j d := by
  induction l generalizing i j with
  | nil => rfl
  | cons x r ih =>
    cases i with
    | zero =>
      cases j with
      | zero => exact absurd rfl h
      | succ m => simp [listMod]
    | succ n =>
      cases j with
      | zero => simp [listMod]
      | succ m => simpa [listMod] using ih n m (by simpa using h)

theorem listMod_listMod {α : Type} (l : List α) (i : Nat) (f g : α → α) :
    listMod (listMod l i f) i g = listMod l i fun x => g (f x) := by
  induction l generalizing i with
  | nil => rfl
  | cons x r ih => cases i <;> simp [listMod, ih]

/-! ## Sets of slots -/

theorem mem_slotsOf {m : Mask} {i : Nat} : i ∈ slotsOf m ↔ i < 32 ∧ m.getLsbD i = true := by
  simp [slotsOf]

@[simp] theorem slotsOf_zero : slotsOf 0#32 = [] := by decide

/-- A mask built from a property has exactly its slots. -/
theorem maskFold_getLsbD (p : Nat → Bool) (l : List Nat) (m : Mask) (i : Nat) (hi : i < 32) :
    (l.foldl (fun m j => if p j then m ||| (1#32 <<< j) else m) m).getLsbD i
      = (m.getLsbD i || (p i && l.contains i)) := by
  induction l generalizing m with
  | nil => simp
  | cons j r ih =>
    simp only [List.foldl_cons, ih, List.contains_cons]
    by_cases hp : p j
    · simp only [hp, if_true, BitVec.getLsbD_or]
      by_cases hij : i = j
      · subst hij
        simp [hi, hp]
      · have h1 : (1#32 <<< j).getLsbD i = false := by
          simp only [BitVec.getLsbD_shiftLeft, BitVec.getLsbD_one]
          simp
          omega
        have h2 : (i == j) = false := by simpa using hij
        simp [h1, h2]
    · by_cases hij : i = j
      · subst hij
        simp [hp]
      · have h2 : (i == j) = false := by simpa using hij
        simp [hp, h2]

@[simp] theorem maskWhere_getLsbD (p : Nat → Bool) (i : Nat) : (maskWhere p).getLsbD i = (decide (i < 32) && p i) := by
  by_cases hi : i < 32
  · rw [maskWhere, maskFold_getLsbD p _ _ i hi]
    simp [hi]
  · have : (maskWhere p).getLsbD i = false := BitVec.getLsbD_of_ge _ _ (by omega)
    simp [this, hi]

theorem maskWhere_false : maskWhere (fun _ => false) = 0#32 := by decide

/-- A non-empty set has a lowest slot, which is in it. -/
theorem lowSlot_mem {m : Mask} (h : m ≠ 0#32) : lowSlot m ∈ slotsOf m := by
  have hne : slotsOf m ≠ [] := by
    intro h0
    apply h
    apply BitVec.eq_of_getLsbD_eq
    intro i hi
    have hn : i ∉ slotsOf m := by simp [h0]
    rw [mem_slotsOf] at hn
    simpa [hi] using hn
  obtain ⟨x, r, hx⟩ := List.exists_cons_of_ne_nil hne
  simp [lowSlot, hx]

end Sys2Proof.Machine
end

