-- ==== Sys2Proof/Laws/Group.lean ====
section
/-! SUPPORT. Laws of groups in a state, and of the end of a pass. -/

namespace Sys2Proof.Machine

/-! ## One group of a state -/

@[simp] theorem core_setCore (s : State) (c : Nat) (k : Core) : (s.setCore c k).core c = k := by
  simp [State.setCore, State.core]

theorem core_setCore_ne (s : State) {c d : Nat} (h : d ≠ c) (k : Core) : (s.setCore c k).core d = s.core d := by
  simp [State.setCore, State.core, alGet_alSet_ne h]

@[simp] theorem setCore_setCore (s : State) (c : Nat) (k l : Core) : (s.setCore c k).setCore c l = s.setCore c l := by
  simp [State.setCore]

@[simp] theorem group?_setGroup (s : State) (c gid : Nat) (g : Group) : (s.setGroup c gid g).group? c gid = some g := by
  simp [State.setGroup, State.modCore, State.group?]

@[simp] theorem setGroup_setGroup (s : State) (c gid : Nat) (g h : Group) :
    (s.setGroup c gid g).setGroup c gid h = s.setGroup c gid h := by
  simp [State.setGroup, State.modCore]

theorem modGroup_of (s : State) {c gid : Nat} {g : Group} (f : Group → Group) (h : s.group? c gid = some g) :
    s.modGroup c gid f = s.setGroup c gid (f g) := by
  simp [State.modGroup, h]

@[simp] theorem modGroup_setGroup (s : State) (c gid : Nat) (g : Group) (f : Group → Group) :
    (s.setGroup c gid g).modGroup c gid f = s.setGroup c gid (f g) := by
  simp [State.modGroup]

theorem core_setGroup (s : State) (c gid : Nat) (g : Group) :
    (s.setGroup c gid g).core c = { s.core c with groups := alSet gid g (s.core c).groups } := by
  simp [State.setGroup, State.modCore]

theorem core_setGroup_ne (s : State) {c d : Nat} (h : d ≠ c) (gid : Nat) (g : Group) : (s.setGroup c gid g).core d = s.core d := by
  simp [State.setGroup, State.modCore, core_setCore_ne _ h]

/-! ## The end of a pass that stays inside its clause -/

theorem modThs_zero (g : Group) (f : Nat → Thread → Thread) : g.modThs 0#32 f = g := by
  have h : g.threads.mapIdx (fun i t => if (0#32 : Mask).getLsbD i then f i t else t) = g.threads := by
    apply List.ext_getElem <;> simp
  simp only [Group.modThs, h]

theorem modThs_th (g : Group) (m : Mask) (f : Nat → Thread → Thread) (i : Nat) (h : i < g.threads.length) :
    (g.modThs m f).th i = if m.getLsbD i then f i (g.th i) else g.th i := by
  simp only [Group.th, Group.modThs, List.getD_eq_getElem?_getD, List.getElem?_mapIdx, List.getElem?_eq_getElem h,
    Option.map_some, Option.getD_some]

/-- A slot beyond the threads of a group is empty, so it executes nothing. -/
theorem atPc_lt {g : Group} {pc : DWord} {i : Nat} (h : (g.atPc pc).getLsbD i = true) : i < g.threads.length := by
  by_cases hl : i < g.threads.length
  · exact hl
  · exfalso
    simp only [Group.atPc, maskWhere_getLsbD, Bool.and_eq_true, Group.eligibleAt, Group.th] at h
    have : g.threads.getD i {} = {} := by
      rw [List.getD_eq_getElem?_getD, List.getElem?_eq_none (by omega)]
      rfl
    rw [this] at h
    simp at h

@[simp] theorem faultMask_nil : faultMask [] = 0#32 := rfl

@[simp] theorem traceAll_zero (s : State) (c gid typ data : Nat) : s.traceAll c gid 0#32 typ data = s := by
  simp [State.traceAll]

/-- No fault strikes nothing. -/
theorem raise_nil (s : State) (c gid pos : Nat) (pc : DWord) (fi : Word) : s.raise c gid ⟨pos, pc, fi, []⟩ = s := by
  unfold State.raise
  split <;> simp_all

theorem unstepped_mask {g : Group} (h : g.unstepped = true) (m : Mask) :
    g.steppedIn m = 0#32 := by
  unfold Group.steppedIn
  have : ∀ i, (g.th i).stepping = false := by
    intro i
    by_cases hl : i < g.threads.length
    · have := List.all_eq_true.mp h (g.threads[i]) (List.getElem_mem hl)
      simpa [Group.th, List.getD_eq_getElem?_getD, List.getElem?_eq_getElem hl] using this
    · simp [Group.th, List.getD_eq_getElem?_getD, List.getElem?_eq_none (Nat.le_of_not_lt hl)]
  have hf : (fun i => (g.th i).stepping && m.getLsbD i) = fun _ => false := by
    funext i
    simp [this i]
  rw [hf]
  exact maskWhere_false

/-- A slot that executes is active. -/
theorem active_ne {g : Group} {pc : DWord} (h : g.atPc pc ≠ 0#32) : g.active ≠ 0#32 := by
  intro ha
  apply h
  apply BitVec.eq_of_getLsbD_eq
  intro i hi
  have hz : g.active.getLsbD i = false := by rw [ha]; simp
  simp only [Group.active, maskWhere_getLsbD, hi, decide_true, Bool.true_and] at hz
  simp only [Group.atPc, maskWhere_getLsbD, Group.eligibleAt, hz, Bool.false_and, Bool.and_false, BitVec.getLsbD_zero]

/-- The active threads depend on the threads alone. -/
theorem active_congr {g h : Group} (e : h.threads = g.threads) : h.active = g.active := by
  simp only [Group.active, Group.th, e]

/-- Moving threads keeps their states. -/
theorem modThs_active (g : Group) (m : Mask) (f : Nat → Thread → Thread) (hf : ∀ i t, (f i t).st = t.st) :
    (g.modThs m f).active = g.active := by
  have : (fun i => ((g.modThs m f).th i).st == TState.active) = fun i => (g.th i).st == TState.active := by
    funext i
    by_cases hl : i < g.threads.length
    · rw [modThs_th g m f i hl]
      split <;> simp [hf]
    · simp [Group.th, Group.modThs, List.getD_eq_getElem?_getD, List.getElem?_eq_none (Nat.le_of_not_lt hl)]
  simp only [Group.active, this]

theorem passed_active (g : Group) (cl : Clause) (len : Nat) (ok fm : Mask) (b : BRes) (dest : Nat → DWord) :
    (g.passed cl len ok fm b dest).active = g.active := by
  have : (g.passed cl len ok fm b dest).active
      = ((g.modThs ok fun i t => t.goOn (dest i)).modThs fm fun _ t => t.stay).active := rfl
  rw [this]
  exact (modThs_active _ _ (fun _ t => t.stay) fun _ _ => rfl).trans (modThs_active _ _ (fun i t => t.goOn (dest i)) fun _ _ => rfl)

/-- A group with an active thread does not retire. -/
theorem tryRetire_active {s : State} {c gid : Nat} {g : Group} (hg : s.group? c gid = some g) (ha : g.active ≠ 0#32) :
    s.tryRetire c gid = s := by
  have : (g.active != 0) = true := by simpa using ha
  simp only [State.tryRetire, hg, this, Bool.true_or, if_true]

/-- A group with no fault pending settles nothing. -/
theorem settle_none {s : State} {c gid : Nat} {g : Group} (hg : s.group? c gid = some g) (hp : g.pend = []) :
    s.settle c gid = s := by
  simp [State.settle, hg, Group.firstFault, hp]

@[simp] theorem group?_freeLane (s : State) (c gid l : Nat) : (s.freeLane c l).group? c gid = s.group? c gid := by
  simp [State.freeLane, State.modCore, State.group?]

theorem freeLane_setGroup (s : State) (c gid l : Nat) (g : Group) :
    (s.freeLane c l).setGroup c gid g = (s.setGroup c gid g).freeLane c l := by
  simp [State.freeLane, State.setGroup, State.modCore]

theorem settled_iff {g : Group} (h : g.settled = true) : g.pend = [] ∧ g.debugEdits = [] := by
  simpa [Group.settled] using h

/-- What `orderly` gathers. -/
theorem orderly_iff {p : Pass} (h : p.orderly = true) :
    p.ex ≠ 0#32 ∧ p.g.unstepped = true ∧ (p.cl.pos < p.cl.count
      ∨ (p.cl.pos = p.cl.count ∧ p.cl.re = false ∧ p.g.pend = [] ∧ p.g.debugEdits = [])) := by
  simp only [Pass.orderly, Bool.and_eq_true, Bool.or_eq_true, decide_eq_true_eq, beq_iff_eq, Bool.not_eq_true'] at h
  obtain ⟨⟨h1, h2⟩, h3⟩ := h
  refine ⟨by simpa using h1, h2, h3.imp_right fun ⟨⟨a, b⟩, c⟩ => ⟨a, b, settled_iff c⟩⟩

/-- A group that stands at the position of a pass and may end it without more. -/
structure Group.ready (g : Group) (p : Pass) : Prop where
  clause : g.clause = some p.cl
  unstepped : g.unstepped = true
  active : g.active ≠ 0#32
  pend : g.pend = p.g.pend
  edits : g.debugEdits = p.g.debugEdits
  ctx : g.ctx = p.g.ctx

theorem passStep_of {s : State} {p : Pass} {g : Group} (len : Nat) (fi : Word) (b : BRes) (dest : Nat → DWord)
    (hg : s.group? p.core p.gid = some g) (hr : g.ready p) :
    s.passStep p.core p.gid len fi p.ex [] b dest = s.setGroup p.core p.gid (g.passed p.cl len p.ex 0#32 b dest) := by
  simp only [State.passStep, hg, hr.clause, faultMask_nil, unstepped_mask hr.unstepped, traceAll_zero, raise_nil]

/-- The end of a clause that settles nothing and commits no region. -/
theorem finishClause_of {s : State} {c gid : Nat} {g : Group} {cl : Clause} (w : GWait) (hg : s.group? c gid = some g)
    (hc : g.clause = some cl) (hre : cl.re = false) (hpe : g.pend = []) (hed : g.debugEdits = []) (ha : g.active ≠ 0#32) :
    s.finishClause c gid w
      = (s.setGroup c gid { g with clause := none, wait := w, ylast := cl.yld }).freeLane c cl.lane := by
  have hae : ({ g with clause := none } : Group).applyEdits = { g with clause := none } := by
    simp [Group.applyEdits, hed]
  have hd : s.dropClause c gid = (s.setGroup c gid { g with clause := none }).freeLane c cl.lane := by
    simp only [State.dropClause, hg, hc, hae]
  simp only [State.finishClause, hg, hc, hre, Bool.false_eq_true, if_false, hd]
  rw [modGroup_of _ (g := { g with clause := none }) _ (by simp)]
  rw [settle_none (g := { g with clause := none, ylast := cl.yld, wait := w }) (by simp) hpe]
  rw [tryRetire_active (g := { g with clause := none, ylast := cl.yld, wait := w }) (by simp) ha]
  rw [freeLane_setGroup, setGroup_setGroup]

/-- An orderly pass without faults moves its threads and the clause, and nothing else. -/
theorem passEnd_of {s : State} {p : Pass} {g : Group} (i : Instr) (fi : Word) (b : BRes) (dest : Nat → DWord)
    (hg : s.group? p.core p.gid = some g) (hr : g.ready p) (ho : p.orderly = true) :
    s.passEnd p.core p.gid (lenOf i) fi p.ex [] b dest = s.goesTo p i g b dest := by
  obtain ⟨_, _, hpos⟩ := orderly_iff ho
  rw [State.passEnd, passStep_of _ _ _ _ hg hr]
  have hcl : (g.passed p.cl (lenOf i) p.ex 0#32 b dest).clause
    = some { p.cl with pos := p.cl.pos + 1, pc := p.cl.after (lenOf i), res := (b :: p.cl.res).take 4 } := rfl
  rcases hpos with hlt | ⟨heq, hre, hpe, hed⟩
  · have h2 : (s.setGroup p.core p.gid (g.passed p.cl (lenOf i) p.ex 0#32 b dest)).clauseOver p.core p.gid = false := by
      simp only [State.clauseOver, group?_setGroup, Option.bind_some, hcl, decide_eq_false_iff_not]
      omega
    simp only [h2, Bool.false_eq_true, if_false, State.goesTo, hlt, if_true]
    rfl
  · have h2 : (s.setGroup p.core p.gid (g.passed p.cl (lenOf i) p.ex 0#32 b dest)).clauseOver p.core p.gid = true := by
      simp only [State.clauseOver, group?_setGroup, Option.bind_some, hcl, decide_eq_true_eq]
      omega
    have hnlt : ¬ p.cl.pos < p.cl.count := by omega
    simp only [h2, if_true, State.goesTo, hnlt, if_false]
    rw [State.endClause, finishClause_of .none (group?_setGroup _ _ _ _) hcl hre (hr.pend.trans hpe) (hr.edits.trans hed)
      (by rw [passed_active]; exact hr.active)]
    rw [setGroup_setGroup]
    rfl

/-- The end of a pass sets the group whole. -/
@[simp] theorem goesTo_setGroup (s : State) (p : Pass) (i : Instr) (g h : Group) (b : BRes) (dest : Nat → DWord) :
    (s.setGroup p.core p.gid h).goesTo p i g b dest = s.goesTo p i g b dest := by
  simp only [State.goesTo, setGroup_setGroup]

end Sys2Proof.Machine
end

