-- ==== Sys2Proof/Laws/Lane.lean ====
section
/-! SUPPORT. What a lane pass does: an instruction whose form matches a row of results completes as
the row says. -/

namespace Sys2Proof.Machine

theorem pass_facts {s : State} {p : Pass} (h : s.pass? = some p) :
    s.group? p.core p.gid = some p.g ∧ p.g.clause = some p.cl ∧ p.ex = p.g.atPc p.cl.pc := by
  unfold State.pass? at h
  split at h
  · exact absurd h (by simp)
  · split at h
    · exact absurd h (by simp)
    · split at h
      · exact absurd h (by simp)
      · cases h
        exact ⟨by assumption, by assumption, rfl⟩

theorem ex_lt {s : State} {p : Pass} (h : s.pass? = some p) {i : Nat} (hi : p.ex.getLsbD i = true) :
    i < 32 ∧ i < p.g.threads.length := by
  rw [(pass_facts h).2.2] at hi
  refine ⟨?_, atPc_lt hi⟩
  by_cases h32 : i < 32
  · exact h32
  · rw [BitVec.getLsbD_of_ge _ _ (by omega)] at hi
    exact absurd hi (by simp)

/-- Sources that name no channel are read from the group alone. -/
theorem readSrcs_plain (s : State) (p : Pass) (o : LOp) (h : o.srcs.any (fun (a, _) => a.chan.isSome) = false) :
    s.readSrcs p o = p.svals o.srcs := by
  have key : ∀ (l : List (Src × Bool)) (vs : List SVal) (tk : List (Nat × Nat)), l.any (fun (a, _) => a.chan.isSome) = false →
      (l.foldl (fun (x : List SVal × List (Nat × Nat)) (y : Src × Bool) => match y.1.chan with
        | some q =>
          (x.1 ++ [s.popCol p.core (s.blockOf p.core p.g) q o.u p.ex ((alGet q x.2).getD 0)],
            alSet q ((alGet q x.2).getD 0 + chanWords o.u p.ex) x.2)
        | none => (x.1 ++ [p.src y.1 y.2], x.2)) (vs, tk)).1 = vs ++ p.svals l := by
    intro l
    induction l with
    | nil => intro vs tk _; simp [Pass.svals]
    | cons x r ih =>
      intro vs tk hl
      obtain ⟨a, pair⟩ := x
      simp only [List.any_cons, Bool.or_eq_false_iff] at hl
      have hn : a.chan = none := by
        cases hc : a.chan with
        | none => rfl
        | some q => simp [hc] at hl
      simp only [List.foldl_cons, hn]
      rw [ih _ _ hl.2]
      simp [Pass.svals]
  exact (key o.srcs [] [] h).trans (List.nil_append _)

/-- The form of an instruction agrees with a row. -/
structure LOp.agrees (o : LOp) (r : LaneRow) : Prop where
  u : o.u = r.u
  nw : o.nw = r.nw
  dst : o.dst = r.dst
  srcs : o.srcs = r.srcs
  preds : o.preds = r.preds
  uni : o.forceUni = r.forceUni

/-- What a form asks beyond its row: no region where none may be, and no register chosen by the
operands that an MMA has still to read. -/
def LOp.free (o : LOp) (s : State) (p : Pass) : Prop :=
  (o.noRegion = true → p.g.region = none) ∧ ∀ n ∈ o.dynRegs p (p.svals o.srcs) p.ex, (s.core p.core).bHeld p.gid p.g n = false

theorem LOp.free_plain {o : LOp} (s : State) (p : Pass) (h1 : o.noRegion = false) (h2 : o.dynRegs = fun _ _ _ => []) : o.free s p :=
  ⟨fun h => by simp [h1] at h, fun n hn => by simp [h2] at hn⟩

theorem LOp.agrees.regs {o : LOp} {r : LaneRow} (h : o.agrees r) : o.regs = r.regs := by
  simp only [LOp.regs, LaneRow.regs, h.dst, h.nw] <;> split <;> simp_all

theorem LOp.agrees.chans {o : LOp} {r : LaneRow} (h : o.agrees r) (hc : r.chan = false) :
    o.chanSrcs = [] ∧ o.chanDst = none ∧ o.hasChan = false := by
  simp only [LaneRow.chan, Bool.or_eq_false_iff] at hc
  have h1 : o.chanSrcs = [] := by
    simp only [LOp.chanSrcs, h.srcs, List.filterMap_eq_nil_iff]
    intro x hx
    have := List.any_eq_false.mp hc.1 x hx
    simpa using this
  have h2 : o.chanDst = none := by
    simp only [LOp.chanDst, h.dst]
    have hd := hc.2
    cases hr : r.dst with
    | none => rfl
    | pred q => rfl
    | v d w => cases d with
      | v n => rfl
      | zero => rfl
      | q n => rw [hr] at hd; exact absurd hd (by simp)
  exact ⟨h1, h2, by simp [LOp.hasChan, h1, h2]⟩

/-- The facts that `laneReady` gathers. -/
theorem laneReady_iff {s : State} {p : Pass} {r : LaneRow} (h : laneReady s p r = true) :
    p.orderly = true ∧ r.chan = false
      ∧ ((r.u || r.forceUni) = true → r.srcs.all (fun (a, pair) => (p.src a pair).isUni pair) = true
          ∧ r.preds.all (fun q => p.g.predUni q.toNat) = true)
      ∧ (∀ x ∈ r.srcs, (p.src x.1 x.2).ue = 0#32)
      ∧ (∀ n ∈ r.regs, (s.core p.core).bHeld p.gid p.g n = false)
      ∧ ∀ t ∈ slotsOf p.ex, r.good p (p.svals r.srcs) (r.from_ p t) = true
          ∧ p.g.fpeOf (r.exc p (p.svals r.srcs) (r.from_ p t)) = false := by
  simp only [laneReady, Bool.and_eq_true, List.all_eq_true] at h
  obtain ⟨⟨⟨⟨⟨h1, h4⟩, h5⟩, h6⟩, h7⟩, h8⟩ := h
  refine ⟨h1, by simpa using h4, ?_, ?_, ?_, ?_⟩
  · intro hu
    simp only [hu, Bool.not_true, Bool.false_or, Bool.and_eq_true] at h5
    exact ⟨by simpa using h5.1, by simpa using h5.2⟩
  · intro x hx
    simpa using h6 x hx
  · intro n hn
    simpa using h7 n hn
  · intro t ht
    simpa using h8 t ht

theorem any_congr {α : Type} {l : List α} {f g : α → Bool} (h : ∀ x ∈ l, f x = g x) : l.any f = l.any g := by
  induction l with
  | nil => rfl
  | cons x r ih => rw [List.any_cons, List.any_cons, h x (by simp), ih fun y hy => h y (by simp [hy])]

theorem foldl_or_zero (l : List Word) (h : ∀ x ∈ l, x = 0#32) (m : Word) : l.foldl (fun a x => a ||| x) m = m := by
  induction l generalizing m with
  | nil => rfl
  | cons x r ih =>
    simp only [List.foldl_cons]
    rw [h x (by simp), ih (fun y hy => h y (by simp [hy]))]
    simp

/-- The front of a ready pass reads the operands and goes on with no uncorrectable slot. -/
theorem laneFront_ready {s : State} {p : Pass} {r : LaneRow} {o : LOp} (hp : s.pass? = some p) (ha : o.agrees r)
    (hf : o.free s p) (h : laneReady s p r = true) (k : Pass → List SVal → Mask → State) :
    s.laneFront o k = k p (p.svals o.srcs) 0#32 := by
  obtain ⟨h0, h4, h5, h6, h7, _⟩ := laneReady_iff h
  have h1 := (orderly_iff h0).1
  obtain ⟨c1, c2, c3⟩ := ha.chans h4
  have hch : o.srcs.any (fun (a, _) => a.chan.isSome) = false := by
    simp only [LaneRow.chan, Bool.or_eq_false_iff] at h4
    rw [ha.srcs]
    exact h4.1
  have huni : ((o.u || o.forceUni) && !o.uniOk p (p.svals o.srcs)) = false := by
    by_cases hu : (r.u || r.forceUni) = true
    · obtain ⟨a1, a2⟩ := h5 hu
      have : o.uniOk p (p.svals o.srcs) = true := by
        simp only [LOp.uniOk, ha.srcs, ha.preds, Bool.and_eq_true, a2, and_true, Pass.svals, List.all_eq_true]
        intro x hx
        simp only [List.zip_map_left, List.mem_map] at hx
        obtain ⟨y, hy, rfl⟩ := hx
        have hyy : y.1 = y.2 ∧ y.2 ∈ r.srcs := by
          rw [List.zip_eq_zipWith] at hy
          simp only [List.zipWith_self, List.mem_map] at hy
          obtain ⟨z, hz, rfl⟩ := hy
          exact ⟨rfl, hz⟩
        have := List.all_eq_true.mp a1 y.2 hyy.2
        simpa [hyy.1] using this
      simp [this]
    · rw [ha.u, ha.uni]
      simp [hu]
  have hue : p.ex &&& (p.svals o.srcs).foldl (fun m v => m ||| v.ue) 0 = 0#32 := by
    have : (p.svals o.srcs).foldl (fun m v => m ||| v.ue) 0 = 0#32 := by
      have : ∀ (l : List SVal), (∀ v ∈ l, v.ue = 0#32) → ∀ m : Mask, l.foldl (fun m v => m ||| v.ue) m = m := by
        intro l hl
        induction l with
        | nil => intro m; rfl
        | cons x q ih =>
          intro m
          simp only [List.foldl_cons, hl x (by simp)]
          rw [ih (fun v hv => hl v (by simp [hv]))]
          simp
      rw [this]
      · rfl
      · intro v hv
        simp only [Pass.svals, ha.srcs, List.mem_map] at hv
        obtain ⟨x, hx, rfl⟩ := hv
        exact h6 x hx
    rw [this]
    simp
  have hand : p.ex &&& ~~~(0#32 : Mask) = p.ex := by
    apply BitVec.eq_of_getLsbD_eq
    intro i hi
    simp only [BitVec.getLsbD_and, BitVec.getLsbD_not, BitVec.getLsbD_zero, hi, decide_true, Bool.not_false, Bool.and_true]
  have hheld : (o.regs ++ o.dynRegs p (p.svals o.srcs) (p.ex &&& ~~~0#32)).any (fun n => (s.core p.core).bHeld p.gid p.g n) = false := by
    rw [hand, ha.regs]
    simp only [List.any_eq_false]
    intro n hn
    rcases List.mem_append.mp hn with hn | hn
    · simp [h7 n hn]
    · simp [hf.2 n hn]
  have hrg : (o.noRegion && p.g.region.isSome) = false := by
    cases hnr : o.noRegion
    · rfl
    · simp [hf.1 hnr]
  have hex : (p.ex == 0) = false := by simpa using h1
  have hz : ((0#32 : Mask) != 0) = false := rfl
  have hul : (if o.lazyUe = true then (0 : Mask) else p.ex &&& (p.svals o.srcs).foldl (fun m v => m ||| v.ue) 0) = 0#32 := by
    rw [hue]
    split <;> rfl
  unfold State.laneFront
  rw [hp]
  simp only [readSrcs_plain s p o hch, hul, huni, c1, c2, c3, hex, Bool.false_or, hrg]
  simp only [hz, hheld, List.isEmpty_nil, Bool.not_true, Bool.and_false, Bool.false_eq_true, if_false,
    Bool.false_and, List.nil_append, Option.toList_none, List.any_nil]

/-! ## The destination -/

/-- A group after the write of a destination that is no channel. -/
def LOp.putG (o : LOp) (g : Group) (ok : Mask) (full : Bool) (lo hi : Shape) (sp : Option (Shape × Shape)) : Group :=
  match o.dst with
  | .v (.v n) wide =>
    if o.nw then g
    else
      let g1 := g.setReg n.toNat ((g.reg n.toNat).write o.u full ok (sp.map (·.1)) lo.val)
      if wide then g1.setReg (n.toNat + 1) ((g1.reg (n.toNat + 1)).write o.u full ok (sp.map (·.2)) hi.val) else g1
  | .pred q => g.setPred q.toNat o.u ok (maskWhere fun i => lo.val i != 0)
  | _ => g

theorem writeDst_mod {s : State} {p : Pass} (o : LOp) (hg : s.group? p.core p.gid = some p.g) (hc : o.chanDst = none)
    (ok : Mask) (full : Bool) (lo hi : Shape) (sp : Option (Shape × Shape)) (F : Group → Group) :
    (s.writeDst p o ok full lo hi sp).modGroup p.core p.gid F
      = s.setGroup p.core p.gid (F (o.putG p.g ok full lo hi sp)) := by
  unfold State.writeDst LOp.putG
  cases hd : o.dst with
  | none => simp only [modGroup_of s F hg]
  | pred q => simp only [modGroup_of s _ hg, modGroup_setGroup]
  | v d w =>
    cases d with
    | zero => simp only [modGroup_of s F hg]
    | q n => simp [LOp.chanDst, hd, Dst.chan] at hc
    | v n =>
      cases hn : o.nw
      · simp only [modGroup_of s _ hg, modGroup_setGroup, Bool.false_eq_true, if_false]
      · simp only [modGroup_of s F hg, if_true]

/-! ## A whole pass -/

/-- What a pass computes agrees with a row: each executing thread's result, and the shape that a
whole pass keeps. -/
structure LaneRow.computed (r : LaneRow) (p : Pass) (f : Pass → List SVal → Nat → TR)
    (sp : Pass → List SVal → Option (Shape × Shape)) : Prop where
  thread : ∀ t ∈ slotsOf p.ex, r.good p (p.svals r.srcs) (r.from_ p t) = true →
    (f p (p.svals r.srcs) (r.from_ p t)).fault = none
      ∧ (f p (p.svals r.srcs) (r.from_ p t)).w = r.result p t
      ∧ (f p (p.svals r.srcs) (r.from_ p t)).ex = r.exc p (p.svals r.srcs) (r.from_ p t)
  shape : r.u = false → ∀ a b, sp p (p.svals r.srcs) = some (a, b) → ∀ t ∈ slotsOf p.ex,
    r.good p (p.svals r.srcs) t = true →
    a.val t = (r.result p t).setWidth 32 ∧ (∀ d, r.dst = .v d true → b.val t = (r.result p t).extractLsb' 32 32)

theorem find_slot (l : List Nat) (F : Nat → TR) (t : Nat) (h : t ∈ l) :
    (l.map fun i => (i, F i)).find? (fun x => x.1 == t) = some (t, F t) := by
  induction l with
  | nil => simp at h
  | cons x r ih =>
    by_cases hx : x = t
    · subst hx
      simp
    · have ht : t ∈ r := by
        rcases List.mem_cons.mp h with h | h
        · exact absurd h.symm hx
        · exact h
      simp [hx, ih ht]

theorem orFsr_fold (l : List (Nat × TR)) (g : Group) :
    ∃ f : Word, l.foldl (fun g (x : Nat × TR) => g.orFsr x.2.ex) g = { g with fsr := f }
      ∧ ∀ b, f.getLsbD b = (g.fsr.getLsbD b || (decide (b < 5) && l.any fun x => x.2.ex.testBit b)) := by
  induction l generalizing g with
  | nil => exact ⟨g.fsr, rfl, by simp⟩
  | cons x r ih =>
    obtain ⟨f, h1, h2⟩ := ih (g.orFsr x.2.ex)
    refine ⟨f, h1, ?_⟩
    intro b
    rw [h2]
    have hm : fsrMask.getLsbD b = decide (b < 5) := by
      by_cases hb : b < 32
      · have : ∀ b, b < 32 → fsrMask.getLsbD b = decide (b < 5) := by decide
        exact this b hb
      · rw [BitVec.getLsbD_of_ge _ _ (by omega)]
        have : ¬ b < 5 := by omega
        simp [this]
    simp only [Group.orFsr, BitVec.getLsbD_or, BitVec.getLsbD_and, BitVec.getLsbD_ofNat, hm, List.any_cons]
    by_cases hb : b < 5
    · have hb2 : b < 32 := by omega
      simp [hb, hb2, Bool.or_assoc]
    · simp [hb]

/-- Without faults every result is good. -/
theorem laneFaults_none {p : Pass} {rs : List (Nat × TR)}
    (h : ∀ x ∈ rs, x.2.fault = none ∧ p.g.fpeOf x.2.ex = false) : laneFaults p rs = [] := by
  rw [laneFaults, List.filterMap_eq_nil_iff]
  intro x hx
  obtain ⟨a1, a2⟩ := h x hx
  simp [TR.judge, a1, a2]

theorem laneResults_good (o : LOp) (p : Pass) (vs : List SVal) (f : Pass → List SVal → Nat → TR) (m : Mask) :
    (laneResults o p vs f m).filter (fun (i, _) => m.getLsbD i) = laneResults o p vs f m := by
  rw [List.filter_eq_self]
  intro x hx
  simp only [laneResults, List.mem_map] at hx
  obtain ⟨t, ht, rfl⟩ := hx
  exact (mem_slotsOf.mp ht).2

/-- A ready pass whose threads meet no fault. -/
theorem laneOp_ready {s : State} {p : Pass} {r : LaneRow} {o : LOp} (f : Pass → List SVal → Nat → TR)
    (sp : Pass → List SVal → Option (Shape × Shape)) (post : Pass → List (Nat × TR) → State → State)
    (hp : s.pass? = some p) (ha : o.agrees r) (hfr : o.free s p) (h : laneReady s p r = true)
    (hf : ∀ t ∈ slotsOf p.ex, (f p (p.svals r.srcs) (r.from_ p t)).fault = none
      ∧ p.g.fpeOf (f p (p.svals r.srcs) (r.from_ p t)).ex = false) :
    s.laneOp o f sp post =
      (s.laneEffect o p p.ex (p.ex == p.g.active) (laneResults o p (p.svals r.srcs) f p.ex)
          (laneCols o p (p.svals r.srcs) f sp (p.ex == p.g.active) (laneResults o p (p.svals r.srcs) f p.ex)) post).passEnd
        p.core p.gid (lenOf o.i) (finfoWord (headOf o.i)) p.ex []
          (laneLatch o p (p.svals r.srcs) p.ex
            (laneCols o p (p.svals r.srcs) f sp (p.ex == p.g.active) (laneResults o p (p.svals r.srcs) f p.ex)))
          fun _ => p.cl.after (lenOf o.i) := by
  obtain ⟨h0, h4, _, _, _, _⟩ := laneReady_iff h
  have h1 := (orderly_iff h0).1
  have hrest : p.ex &&& ~~~(0#32 : Mask) = p.ex := by
    apply BitVec.eq_of_getLsbD_eq
    intro i hi
    simp only [BitVec.getLsbD_and, BitVec.getLsbD_not, BitVec.getLsbD_zero, hi, decide_true, Bool.not_false, Bool.and_true]
  have hfs : laneFaults p (laneResults o p (p.svals r.srcs) f p.ex) = [] := by
    apply laneFaults_none
    intro x hx
    simp only [laneResults, List.mem_map] at hx
    obtain ⟨t, ht, rfl⟩ := hx
    have := hf t ht
    unfold LaneRow.from_ at this
    rw [← ha.u] at this
    exact this
  have hfo : faultsOf 0#32 .memUe 0 = [] := by simp [faultsOf]
  have hz : (p.ex == 0) = false := by simpa using h1
  have hm : faultMask [] = 0#32 := rfl
  rw [State.laneOp, laneFront_ready hp ha hfr h, ha.srcs]
  simp only [hrest, hfs, hfo, List.append_nil, List.isEmpty_nil, Bool.not_true, Bool.and_false, Bool.false_eq_true,
    if_false, Bool.and_true, laneResults_good, hm, hz]

/-- The columns of a pass give each executing slot its result. -/
theorem laneCols_val {p : Pass} {r : LaneRow} {o : LOp} {f : Pass → List SVal → Nat → TR}
    {sp : Pass → List SVal → Option (Shape × Shape)} (ha : o.agrees r) (hc : r.computed p f sp)
    (hgood : ∀ t ∈ slotsOf p.ex, r.good p (p.svals r.srcs) (r.from_ p t) = true) (hne : p.ex ≠ 0#32) (full : Bool)
    (t : Nat) (ht : t ∈ slotsOf p.ex ∨ r.u = true) :
    (laneCols o p (p.svals r.srcs) f sp full (laneResults o p (p.svals r.srcs) f p.ex)).lo.val t = (r.result p t).setWidth 32
      ∧ (r.dst.wide = true →
        (laneCols o p (p.svals r.srcs) f sp full (laneResults o p (p.svals r.srcs) f p.ex)).hi.val t = (r.result p t).extractLsb' 32 32) := by
  have hw : o.dst = r.dst := ha.dst
  by_cases hu : r.u = true
  · have hl := lowSlot_mem hne
    obtain ⟨_, a2, _⟩ := hc.thread _ hl (hgood _ hl)
    have e1 : r.result p t = r.result p (lowSlot p.ex) := by simp [LaneRow.result, LaneRow.from_, hu]
    have e2 : r.from_ p (lowSlot p.ex) = lowSlot p.ex := by simp [LaneRow.from_, hu]
    rw [e2] at a2
    have hou : o.u = true := by rw [ha.u]; exact hu
    simp only [laneCols, hou, if_true, a2, ← e1, hw]
    refine ⟨rfl, fun h => ?_⟩
    simp [h, Shape.val]
  · have ht' : t ∈ slotsOf p.ex := ht.resolve_right hu
    have hou : o.u = false := by rw [ha.u]; simpa using hu
    have hru : r.u = false := by simpa using hu
    have e2 : r.from_ p t = t := by simp [LaneRow.from_, hru]
    obtain ⟨_, a2, _⟩ := hc.thread _ ht' (hgood _ ht')
    rw [e2] at a2
    have ht32 : t < 32 := (mem_slotsOf.mp ht').1
    have hres : ∀ hi, (resShape (laneResults o p (p.svals r.srcs) f p.ex) hi).val t
        = if hi then (r.result p t).extractLsb' 32 32 else (r.result p t).setWidth 32 := by
      intro hi
      have hfind := find_slot (slotsOf p.ex) (fun i => f p (p.svals r.srcs) (if o.u = true then lowSlot p.ex else i)) t ht'
      simp only [resShape, column, Shape.val]
      rw [List.getD_eq_getElem?_getD, List.getElem?_map, List.getElem?_range ht32]
      simp only [Option.map_some, Option.getD_some, laneResults, hfind]
      simp only [hou, Bool.false_eq_true, if_false, a2]
    simp only [laneCols, hou, Bool.false_eq_true, if_false, hw]
    split
    · rename_i a b hs
      have hsp : sp p (p.svals r.srcs) = some (a, b) := by
        cases full
        · simp at hs
        · simpa using hs
      have := hc.shape hru a b hsp t ht' (by have := hgood _ ht'; rwa [e2] at this)
      refine ⟨this.1, fun h => ?_⟩
      simp only [h, if_true]
      cases hd : r.dst with
      | v d w =>
        rw [hd] at h
        simp only [LDst.wide] at h
        subst h
        exact this.2 d hd
      | none => rw [hd] at h; simp [LDst.wide] at h
      | pred q => rw [hd] at h; simp [LDst.wide] at h
    · refine ⟨by simpa using hres false, fun h => ?_⟩
      simp only [h, if_true]
      simpa using hres true

theorem putG_same (o : LOp) (g : Group) (ok : Mask) (full : Bool) (lo hi : Shape) (sp : Option (Shape × Shape)) :
    (o.putG g ok full lo hi sp).clause = g.clause ∧ (o.putG g ok full lo hi sp).threads = g.threads
      ∧ (o.putG g ok full lo hi sp).fsr = g.fsr ∧ (o.putG g ok full lo hi sp).pend = g.pend
      ∧ (o.putG g ok full lo hi sp).debugEdits = g.debugEdits ∧ (o.putG g ok full lo hi sp).ctx = g.ctx := by
  unfold LOp.putG
  split
  · split
    · exact ⟨rfl, rfl, rfl, rfl, rfl, rfl⟩
    · split <;> exact ⟨rfl, rfl, rfl, rfl, rfl, rfl⟩
  · exact ⟨rfl, rfl, rfl, rfl, rfl, rfl⟩
  · exact ⟨rfl, rfl, rfl, rfl, rfl, rfl⟩

/-- A write of a register stores a column that gives every executing slot its value. -/
theorem write_holds {p : Pass} {r : LaneRow} (hi : Bool) (old : Reg) (full : Bool) (sh : Shape) (sp : Option Shape)
    (hsp : ∀ x, sp = some x → x = sh ∧ r.u = false) (hfull : full = true → p.ex = p.g.active)
    (hv : ∀ t, t ∈ slotsOf p.ex ∨ r.u = true → sh.val t = if hi then (r.result p t).extractLsb' 32 32 else (r.result p t).setWidth 32) :
    r.holds p hi old (old.write r.u full p.ex sp sh.val) := by
  intro t ht
  unfold Reg.write
  by_cases hu : r.u = true
  · simp only [hu, if_true]
    refine ⟨fun _ => ⟨?_, by simp⟩, fun h => by simp at h⟩
    have := hv t (Or.inr hu)
    have h0 := hv 0 (Or.inr hu)
    have e : r.result p 0 = r.result p t := by simp [LaneRow.result, LaneRow.from_, hu]
    rw [e] at h0
    simpa [Shape.val] using h0
  · have hru : r.u = false := by simpa using hu
    simp only [hru, Bool.false_eq_true, if_false]
    have gen : (∀ t, t < 32 → (column fun i => if p.ex.getLsbD i then sh.val i else old.shape.val i).val t
        = if p.ex.getLsbD t then sh.val t else old.shape.val t) := by
      intro t ht
      simp only [column, Shape.val]
      rw [List.getD_eq_getElem?_getD, List.getElem?_map, List.getElem?_range ht]
      rfl
    split
    · rename_i sh' hf hs
      obtain ⟨e1, _⟩ := hsp _ rfl
      subst e1
      refine ⟨fun h => ⟨hv t (Or.inl (mem_slotsOf.mpr ⟨ht, h.resolve_right (by simp)⟩)), by simp⟩, fun _ h2 h3 => ?_⟩
      rw [← hfull rfl, h2] at h3
      exact absurd h3 (by simp)
    · refine ⟨fun h => ⟨?_, ?_⟩, fun _ h2 _ => ?_⟩
      · have hx := h.resolve_right (by simp)
        rw [gen t ht, hx]
        exact hv t (Or.inl (mem_slotsOf.mpr ⟨ht, hx⟩))
      · have hx := h.resolve_right (by simp)
        simp [BitVec.getLsbD_and, BitVec.getLsbD_not, hx]
      · rw [gen t ht, h2]
        rfl

/-- An instruction whose form and results agree with a row, and whose further effect is `P` on the
package and `G` on the group, completes as the row says. -/
theorem completesWith_of {i : Instr} {s : State} {p : Pass} {r : LaneRow} (o : LOp) (f : Pass → List SVal → Nat → TR)
    (sp : Pass → List SVal → Option (Shape × Shape)) (post : Pass → List (Nat × TR) → State → State) (P : State → State)
    (G : Group → Group) (hx : exec i s = .next (s.laneOp o f sp post)) (hi : o.i = i)
    (ha : o.agrees r) (hc : r.computed p f sp) (hp : s.pass? = some p) (h : laneReady s p r = true) (hfr : o.free s p)
    (hpost : ∀ g, post p (laneResults o p (p.svals r.srcs) f p.ex) (s.setGroup p.core p.gid g) = (P s).setGroup p.core p.gid (G g))
    (hG : ∀ g : Group, g.ready p → (G g).ready p) : r.completesWith i s p P G := by
  obtain ⟨h0, h4, _, _, _, h8⟩ := laneReady_iff h
  obtain ⟨h1, h3, _⟩ := orderly_iff h0
  obtain ⟨hg, hcl, hexd⟩ := pass_facts hp
  obtain ⟨c1, c2, _⟩ := ha.chans h4
  have hgood : ∀ t ∈ slotsOf p.ex, r.good p (p.svals r.srcs) (r.from_ p t) = true := fun t ht => (h8 t ht).1
  have hf : ∀ t ∈ slotsOf p.ex, (f p (p.svals r.srcs) (r.from_ p t)).fault = none
      ∧ p.g.fpeOf (f p (p.svals r.srcs) (r.from_ p t)).ex = false := by
    intro t ht
    obtain ⟨a1, _, a3⟩ := hc.thread t ht (hgood t ht)
    exact ⟨a1, by rw [a3]; exact (h8 t ht).2⟩
  have hpop : s.popAll p o = s := by simp [State.popAll, LOp.pops, c1]
  unfold LaneRow.completesWith
  rw [hx, laneOp_ready f sp _ hp ha hfr h hf, hi]
  generalize hcols : laneCols o p (p.svals r.srcs) f sp (p.ex == p.g.active) (laneResults o p (p.svals r.srcs) f p.ex) = cols
  have hval : ∀ t, t ∈ slotsOf p.ex ∨ r.u = true → cols.lo.val t = (r.result p t).setWidth 32
      ∧ (r.dst.wide = true → cols.hi.val t = (r.result p t).extractLsb' 32 32) := by
    intro t ht
    rw [← hcols]
    exact laneCols_val ha hc hgood h1 _ t ht
  have hspc : ∀ a b, cols.sp = some (a, b) → a = cols.lo ∧ (r.dst.wide = true → b = cols.hi) ∧ r.u = false := by
    intro a b hab
    rw [← hcols] at hab ⊢
    unfold laneCols at hab ⊢
    by_cases hu : o.u = true
    · simp [hu] at hab
    · have hou : o.u = false := by simpa using hu
      simp only [hou, Bool.false_eq_true, if_false] at hab ⊢
      split at hab
      · rename_i a' b' he
        simp only [Option.some.injEq, Prod.mk.injEq] at hab
        obtain ⟨rfl, rfl⟩ := hab
        refine ⟨rfl, fun hw => ?_, by rw [← ha.u]; exact hou⟩
        rw [ha.dst]
        simp [hw]
      · simp at hab
  simp only [State.laneEffect, hpop, writeDst_mod o hg c2]
  obtain ⟨fs, e1, e2⟩ := orFsr_fold (laneResults o p (p.svals r.srcs) f p.ex) (o.putG p.g p.ex (p.ex == p.g.active) cols.lo cols.hi cols.sp)
  obtain ⟨q1, q2, q3, q4⟩ := putG_same o p.g p.ex (p.ex == p.g.active) cols.lo cols.hi cols.sp
  have hrdy : ({ o.putG p.g p.ex (p.ex == p.g.active) cols.lo cols.hi cols.sp with fsr := fs } : Group).ready p := by
    refine ⟨q1.trans hcl, by simpa [Group.unstepped, q2] using h3, ?_, q4.1, q4.2.1, q4.2.2⟩
    refine fun hz => absurd ((active_congr (g := p.g) q2).symm.trans hz) ?_
    exact active_ne (hexd ▸ h1)
  rw [e1, hpost, passEnd_of _ _ _ _ (group?_setGroup _ _ _ _) (hG _ hrdy) h0, goesTo_setGroup]
  refine ⟨_, fs, _, ?_, ?_, ?_, rfl⟩
  · unfold LaneRow.stored LOp.putG
    rw [ha.dst, ha.nw, ha.u]
    cases hd : r.dst with
    | none => rfl
    | pred q =>
      refine ⟨maskWhere fun i => cols.lo.val i != 0, ?_, rfl⟩
      intro t ht
      have ht32 := (ex_lt hp ht).1
      rw [maskWhere_getLsbD, (hval t (Or.inl (mem_slotsOf.mpr ⟨ht32, ht⟩))).1]
      simp [ht32]
    | v d w =>
      cases d with
      | zero => rfl
      | q n => rfl
      | v n =>
        cases hn : r.nw
        · simp only [Bool.false_eq_true, if_false]
          have hfull : (p.ex == p.g.active) = true → p.ex = p.g.active := by simp
          refine ⟨(p.g.reg n.toNat).write r.u (p.ex == p.g.active) p.ex (cols.sp.map (·.1)) cols.lo.val,
            (p.g.reg (n.toNat + 1)).write r.u (p.ex == p.g.active) p.ex (cols.sp.map (·.2)) cols.hi.val, ?_, ?_, ?_⟩
          · apply write_holds false _ _ cols.lo _ _ hfull
            · intro t ht
              simpa using (hval t ht).1
            · intro x hx'
              rw [Option.map_eq_some_iff] at hx'
              obtain ⟨⟨a, b⟩, hs, rfl⟩ := hx'
              exact ⟨(hspc a b hs).1, (hspc a b hs).2.2⟩
          · intro hw
            have hwd : r.dst.wide = true := by rw [hd]; exact hw
            apply write_holds true _ _ cols.hi _ _ hfull
            · intro t ht
              simpa using (hval t ht).2 hwd
            · intro x hx'
              rw [Option.map_eq_some_iff] at hx'
              obtain ⟨⟨a, b⟩, hs, rfl⟩ := hx'
              exact ⟨(hspc a b hs).2.1 hwd, (hspc a b hs).2.2⟩
          · cases w
            · rfl
            · simp only [if_true]
              have : (p.g.setReg n.toNat ((p.g.reg n.toNat).write r.u (p.ex == p.g.active) p.ex (cols.sp.map (·.1)) cols.lo.val)).reg (n.toNat + 1)
                  = p.g.reg (n.toNat + 1) := by
                simp only [Group.reg, Group.setReg]
                exact listMod_getD_ne _ _ _ _ _ (by omega)
              rw [this]
        · simp only [if_true]
  · intro b
    rw [e2, q3]
    congr 1
    congr 1
    rw [laneResults, List.any_map]
    apply any_congr
    intro t ht
    obtain ⟨_, _, a3⟩ := hc.thread t ht (hgood t ht)
    rw [← a3]
    simp only [Function.comp, LaneRow.from_, ha.u]
  · refine ⟨?_, ?_⟩
    · unfold laneLatch
      split <;> rfl
    · intro hne t ht
      have ht32 := (ex_lt hp ht).1
      have := (hval t (Or.inl (mem_slotsOf.mpr ⟨ht32, ht⟩))).1
      unfold laneLatch
      rw [ha.dst]
      split
      · rename_i h0
        exact absurd h0 hne
      · exact this

/-- An instruction whose form and results agree with a row completes as the row says. -/
theorem completes_of {i : Instr} {s : State} {p : Pass} {r : LaneRow} (o : LOp) (f : Pass → List SVal → Nat → TR)
    (sp : Pass → List SVal → Option (Shape × Shape)) (hx : exec i s = .next (s.laneOp o f sp)) (hi : o.i = i)
    (ha : o.agrees r) (hc : r.computed p f sp) (hp : s.pass? = some p) (h : laneReady s p r = true)
    (hfr : o.free s p := by exact LOp.free_plain _ _ rfl rfl) : r.completes i s p :=
  completesWith_of o f sp (fun _ _ s => s) (fun s => s) (fun g => g) hx hi ha hc hp h hfr (fun _ => rfl) fun _ h => h

end Sys2Proof.Machine
end

