-- ==== Sys2Proof/Laws/Pass.lean ====
section
/-! SUPPORT. What a pass of a memory, control or system instruction does: its front and its ends. -/

namespace Sys2Proof.Machine

theorem ex_and_not_zero (m : Mask) : m &&& ~~~(0#32 : Mask) = m := by
  apply BitVec.eq_of_getLsbD_eq
  intro i hi
  simp only [BitVec.getLsbD_and, BitVec.getLsbD_not, BitVec.getLsbD_zero, hi, decide_true, Bool.not_false, Bool.and_true]

theorem faultsOf_zero (f : FCode) (a : DWord) : faultsOf 0#32 f a = [] := by simp [faultsOf]

theorem foldl_ue_zero (vs : List (SVal × Bool)) (h : vs.all (fun (v, _) => v.ue == 0) = true) (m : Mask) :
    vs.foldl (fun m (v, _) => m ||| v.ue) m = m := by
  induction vs generalizing m with
  | nil => rfl
  | cons x r ih =>
    simp only [List.all_cons, Bool.and_eq_true] at h
    have : x.1.ue = 0#32 := by simpa using h.1
    simp only [List.foldl_cons, this]
    rw [ih h.2]
    simp

/-- The front of a pass whose operands are good goes on to the instruction's own effect. -/
theorem prePass_ready {s : State} {p : Pass} (i : Instr) {check all noRegion : Bool} {srcs : Pass → List (SVal × Bool)}
    {preds : List (BitVec 3)} (k : Pass → List SVal → Mask → State) (hp : s.pass? = some p) (hin : p.ex ≠ 0#32)
    (ho : operandsOk check (srcs p) = true) (hq : check = true → preds.all (fun q => p.g.predUni q.toNat) = true)
    (hr : noRegion = true → p.g.region = none) :
    s.prePass i check all srcs preds noRegion k = k p ((srcs p).map (·.1)) 0#32 := by
  simp only [operandsOk, Bool.and_eq_true, Bool.or_eq_true] at ho
  obtain ⟨h1, h2⟩ := ho
  have hex : (p.ex == 0) = false := by simpa using hin
  have hch : (check && !((srcs p).all (fun (v, pair) => v.isUni pair) && preds.all fun q => p.g.predUni q.toNat)) = false := by
    cases check
    · rfl
    · have := h1.resolve_left (by simp)
      simp only [this, hq rfl, Bool.and_self, Bool.not_true, Bool.and_false]
  have hue : p.ex &&& (srcs p).foldl (fun m (v, _) => m ||| v.ue) 0 = 0#32 := by
    rw [foldl_ue_zero _ h2]
    simp
  have hreg : (noRegion && p.g.region.isSome) = false := by
    cases noRegion
    · rfl
    · simp [hr rfl]
  have hz : ((0#32 : Mask) != 0) = false := rfl
  unfold State.prePass
  rw [hp]
  simp only [hex, hch, hue, hreg, hz, Bool.false_eq_true, if_false, Bool.and_false]

/-! ## Counting events keeps the groups -/

theorem core_countCore (s : State) (c src n : Nat) (who : Option (Bool × Nat)) :
    ∃ e, s.countCore c src n who = s ∨ s.countCore c src n who = s.setCore c { s.core c with evctr := e } := by
  unfold State.countCore
  split
  · exact ⟨[], Or.inl rfl⟩
  · exact ⟨_, Or.inr rfl⟩

@[simp] theorem group?_countCore (s : State) (c src n : Nat) (who : Option (Bool × Nat)) (d gid : Nat) :
    (s.countCore c src n who).group? d gid = s.group? d gid := by
  obtain ⟨e, h | h⟩ := core_countCore s c src n who <;> rw [h]
  by_cases hd : d = c
  · subst hd
    simp [State.group?]
  · simp [State.group?, core_setCore_ne _ hd]

theorem countCore_setGroup (s : State) (c gid src n : Nat) (g : Group) (who : Option (Bool × Nat)) :
    (s.setGroup c gid g).countCore c src n who = (s.countCore c src n who).setGroup c gid g := by
  unfold State.countCore
  rw [core_setGroup]
  simp only
  split
  · rfl
  · simp [State.setGroup, State.modCore]

theorem carries_setGroup (s : State) (c gid : Nat) (g : Group) (x : Nat) : (s.setGroup c gid g).carries x = s.carries x := rfl

/-- The end of a pass that breaks its clause sets the group whole. -/
@[simp] theorem leaves_setGroup (s : State) (p : Pass) (i : Instr) (g h : Group) (w : GWait) :
    (s.setGroup p.core p.gid h).leaves p i g w = s.leaves p i g w := by
  simp only [State.leaves, State.givesUp, carries_setGroup, countCore_setGroup, setGroup_setGroup]

/-! ## The ends of a pass -/

/-- The group of a pass stands ready to end it. -/
theorem ready_self {s : State} {p : Pass} (hp : s.pass? = some p) (ho : p.orderly = true) : p.g.ready p := by
  obtain ⟨h1, h2, _⟩ := orderly_iff ho
  obtain ⟨_, hc, hx⟩ := pass_facts hp
  exact ⟨hc, h2, active_ne (hx ▸ h1), rfl, rfl, rfl⟩

/-- Updates that leave threads, clause, faults, edits and context alone keep a group ready. -/
theorem Group.ready.same {p : Pass} {g h : Group} (hr : g.ready p) (h1 : h.clause = g.clause) (h2 : h.threads = g.threads)
    (h3 : h.pend = g.pend) (h4 : h.debugEdits = g.debugEdits) (h5 : h.ctx = g.ctx) : h.ready p := by
  refine ⟨h1.trans hr.clause, by simpa [Group.unstepped, h2] using hr.unstepped, ?_, h3.trans hr.pend, h4.trans hr.edits, h5.trans hr.ctx⟩
  rw [active_congr h2]
  exact hr.active

/-- Changing threads that stay active and unstepped keeps a group ready. -/
theorem Group.ready.threads {p : Pass} {g : Group} (hr : g.ready p) (m : Mask) (f : Nat → Thread → Thread)
    (h1 : ∀ i t, (f i t).st = t.st) (h2 : ∀ i t, (f i t).stepping = t.stepping) : (g.modThs m f).ready p := by
  refine ⟨hr.clause, ?_, by rw [modThs_active _ _ _ h1]; exact hr.active, hr.pend, hr.edits, hr.ctx⟩
  have h := hr.unstepped
  simp only [Group.unstepped, Group.modThs, List.all_eq_true] at h ⊢
  intro t ht
  obtain ⟨i, hi, rfl⟩ := List.mem_mapIdx.mp ht
  have := h _ (List.getElem_mem hi)
  split
  · rw [h2]; exact this
  · exact this

theorem fin_of {s : State} {p : Pass} {g : Group} (i : Instr) (latch : BRes) (hg : s.group? p.core p.gid = some g)
    (hr : g.ready p) (ho : p.orderly = true) : s.fin p i p.ex [] latch = s.goesOn p i g latch :=
  passEnd_of _ _ _ _ hg hr ho

theorem pass_of {s : State} {p : Pass} {g : Group} (i : Instr) (hg : s.group? p.core p.gid = some g)
    (hr : g.ready p) (ho : p.orderly = true) : s.fin p i p.ex [] = s.passes p i g :=
  passEnd_of _ _ _ _ hg hr ho

theorem go_of {s : State} {p : Pass} {g : Group} (i : Instr) (dest : Nat → DWord) (hg : s.group? p.core p.gid = some g)
    (hr : g.ready p) (ho : p.orderly = true) : s.go p i p.ex [] dest = s.goesTo p i g (p.noRes i) dest :=
  passEnd_of _ _ _ _ hg hr ho

/-- A clause that ends before its last position, with nothing to settle. -/
theorem leaveClause_of {s : State} {c gid : Nat} {g : Group} {cl : Clause} (w : GWait) (hg : s.group? c gid = some g)
    (hc : g.clause = some cl) (hpe : g.pend = []) (hed : g.debugEdits = []) :
    s.leaveClause c gid w = (s.setGroup c gid { g with clause := none, wait := w }).freeLane c cl.lane := by
  have hae : ({ g with clause := none } : Group).applyEdits = { g with clause := none } := by
    simp [Group.applyEdits, hed]
  simp only [State.leaveClause, State.dropClause, hg, hc, hae]
  rw [modGroup_of _ (g := { g with clause := none }) _ (by simp)]
  rw [settle_none (g := { g with clause := none, wait := w }) (by simp) hpe]
  rw [freeLane_setGroup, setGroup_setGroup]

/-- The end of a faultless pass at which the clause ends, early or at its last position. -/
theorem passLast_of {s : State} {p : Pass} {g : Group} (i : Instr) (fi : Word) (w : GWait) (early : State → State)
    (hg : s.group? p.core p.gid = some g) (hr : g.ready p) (ho : p.orderly = true) (hset : p.g.settled = true) :
    s.passLast p.core p.gid (lenOf i) fi p.ex [] (fun _ => p.cl.after (lenOf i)) w early
      = if p.cl.pos < p.cl.count then
          early (s.setGroup p.core p.gid (g.passed p.cl (lenOf i) p.ex 0#32 {} fun _ => p.cl.after (lenOf i)))
        else (s.setGroup p.core p.gid { g.passed p.cl (lenOf i) p.ex 0#32 {} (fun _ => p.cl.after (lenOf i)) with
          clause := none, wait := w, ylast := p.cl.yld }).freeLane p.core p.cl.lane := by
  obtain ⟨_, _, hpos⟩ := orderly_iff ho
  obtain ⟨hpe, hed⟩ := settled_iff hset
  rw [State.passLast, passStep_of _ _ _ _ hg hr]
  generalize hG : g.passed p.cl (lenOf i) p.ex 0#32 {} (fun _ => p.cl.after (lenOf i)) = G
  have hcl : G.clause = some { p.cl with pos := p.cl.pos + 1, pc := p.cl.after (lenOf i), res := (({} : BRes) :: p.cl.res).take 4 } := by
    rw [← hG]; rfl
  have hGp : G.pend = [] := by rw [← hG]; exact hr.pend.trans hpe
  have hGe : G.debugEdits = [] := by rw [← hG]; exact hr.edits.trans hed
  have hGa : G.active ≠ 0#32 := by rw [← hG, passed_active]; exact hr.active
  simp only [group?_setGroup, Option.bind_some, hcl]
  rcases hpos with hlt | ⟨heq, hre, _, _⟩
  · have h2 : (s.setGroup p.core p.gid G).clauseOver p.core p.gid = false := by
      simp only [State.clauseOver, group?_setGroup, Option.bind_some, hcl, decide_eq_false_iff_not]
      omega
    simp only [h2, Bool.false_eq_true, if_false, hlt, if_true]
  · have h2 : (s.setGroup p.core p.gid G).clauseOver p.core p.gid = true := by
      simp only [State.clauseOver, group?_setGroup, Option.bind_some, hcl, decide_eq_true_eq]
      omega
    have hnlt : ¬ p.cl.pos < p.cl.count := by omega
    simp only [h2, if_true, hnlt, if_false]
    rw [finishClause_of w (group?_setGroup _ _ _ _) hcl hre hGp hGe hGa, setGroup_setGroup]

/-- A clause left early after a faultless pass. -/
theorem leaveEarly_of {s : State} {p : Pass} {g : Group} (i : Instr) (w : GWait) (hr : g.ready p) (hset : p.g.settled = true) :
    (s.setGroup p.core p.gid (g.passed p.cl (lenOf i) p.ex 0#32 {} fun _ => p.cl.after (lenOf i))).leaveClause p.core p.gid w
      = s.givesUp p i g w := by
  obtain ⟨hpe, hed⟩ := settled_iff hset
  rw [leaveClause_of (g := g.passed p.cl (lenOf i) p.ex 0#32 {} fun _ => p.cl.after (lenOf i)) w (group?_setGroup _ _ _ _) rfl
    (hr.pend.trans hpe) (hr.edits.trans hed), setGroup_setGroup]
  rfl

/-- A pass without faults that breaks its clause. -/
theorem finBreak_of {s : State} {p : Pass} {g : Group} (i : Instr) (w : GWait) (hg : s.group? p.core p.gid = some g)
    (hr : g.ready p) (ho : p.orderly = true) (hset : p.g.settled = true) : s.finBreak p i p.ex [] w = s.leaves p i g w := by
  have hx : (g.passed p.cl (lenOf i) p.ex 0#32 {} fun _ => p.cl.after (lenOf i)).ctx = p.g.ctx := hr.ctx
  rw [State.finBreak, State.passBreak, passLast_of i _ w _ hg hr ho hset]
  unfold State.leaves
  split
  · simp only [State.breakClause, group?_setGroup, hx, carries_setGroup, countCore_setGroup, leaveEarly_of i w hr hset]
  · rfl

/-- A pass without faults that leaves its clause uncounted. -/
theorem finLeave_of {s : State} {p : Pass} {g : Group} (i : Instr) (hg : s.group? p.core p.gid = some g)
    (hr : g.ready p) (ho : p.orderly = true) (hset : p.g.settled = true) :
    s.finLeave p i p.ex = if p.cl.pos < p.cl.count then s.givesUp p i g .none else s.leaves p i g .none := by
  rw [State.finLeave, passLast_of i _ .none _ hg hr ho hset, leaveEarly_of i .none hr hset]
  split
  · rfl
  · rename_i h
    simp only [State.leaves, h, if_false]
    rfl

end Sys2Proof.Machine
end

