-- ==== Sys2Proof/Laws/Access.lean ====
section
/-! SUPPORT. How the accesses of a pass issue, one unit after another. -/
namespace Sys2Proof.Machine

theorem unitsOf_ne {u : Bool} {m : Mask} (h : m ≠ 0#32) : unitsOf u m ≠ [] := by
  unfold unitsOf
  have := lowSlot_mem h
  split
  · simpa using h
  · intro hn
    simp only [List.map_eq_nil_iff] at hn
    rw [hn] at this
    simp at this

theorem maskOf_units (f : Nat → Mask → ARes) (u : Bool) (m : Mask) :
    maskOf ((unitsOf u m).map fun (j, x) => (j, x, f j x)) = m := by
  unfold unitsOf
  split
  · split
    · rename_i hz
      simp only [List.map_nil, maskOf, List.foldl_nil]
      exact (eq_of_beq hz).symm
    · simp [maskOf]
  · simp only [List.map_map, maskOf, List.foldl_map, Function.comp_def]
    have key : ∀ (l : List Nat) (a : Mask) (i : Nat), i < 32 → (∀ x ∈ l, x < 32) →
        (l.foldl (fun m x => m ||| 1#32 <<< x) a).getLsbD i = (a.getLsbD i || decide (i ∈ l)) := by
      intro l
      induction l with
      | nil => intro a i _ _; simp
      | cons x r ih =>
        intro a i hi hx
        simp only [List.foldl_cons]
        rw [ih _ i hi (fun y hy => hx y (by simp [hy]))]
        have : (1#32 <<< x).getLsbD i = decide (i = x) := by
          rw [← BitVec.twoPow_eq, BitVec.getLsbD_twoPow]
          have := hx x (by simp)
          by_cases h : i = x
          · simp [h, this]
          · simp [h]; intro _; omega
        simp only [BitVec.getLsbD_or, this, List.mem_cons, Bool.decide_or, Bool.or_assoc]
    apply BitVec.eq_of_getLsbD_eq
    intro i hi
    rw [key _ _ i hi (fun x hx => (mem_slotsOf.mp hx).1)]
    have h0 : (0 : Mask).getLsbD i = false := by simp
    rw [h0, Bool.false_or]
    by_cases h : m.getLsbD i = true
    · simp [h, mem_slotsOf.mpr ⟨hi, h⟩]
    · have : i ∉ slotsOf m := fun hc => h (mem_slotsOf.mp hc).2
      simp [this, h]

theorem placed_reached {rs : List (Nat × Mask × ARes)} (h : rs.all (fun (_, _, r) => r.placed) = true) :
    rs.all (fun (_, _, r) => r.reached) = true := by
  simp only [List.all_eq_true] at h ⊢
  intro x hx
  have := h x hx
  obtain ⟨a, b, c⟩ := x
  cases c <;> simp_all [ARes.placed, ARes.reached]

theorem reached_good {rs : List (Nat × Mask × ARes)} (h : rs.all (fun (_, _, r) => r.reached) = true) :
    goodOf rs = rs ∧ missesOf rs = [] ∧ badOf rs = [] := by
  have key : ∀ x ∈ rs, x.2.2.reached = true := by
    intro x hx; simpa using List.all_eq_true.mp h x hx
  refine ⟨?_, ?_, ?_⟩
  · rw [goodOf, List.filter_eq_self]
    intro x hx
    have := key x hx
    unfold ARes.reached at this
    obtain ⟨a, b, c⟩ := x
    cases c <;> simp_all
  · rw [missesOf]
    have : (rs.filterMap fun (x : Nat × Mask × ARes) => match x.2.2 with | .miss v => some v | _ => none) = [] := by
      rw [List.filterMap_eq_nil_iff]
      intro x hx
      have := key x hx
      obtain ⟨a, b, c⟩ := x
      cases c <;> simp_all [ARes.reached]
    exact (congrArg List.eraseDups this).trans rfl
  · rw [badOf, List.flatMap_eq_nil_iff]
    intro x hx
    have := key x hx
    obtain ⟨a, b, c⟩ := x
    cases c <;> simp_all [ARes.reached]

@[simp] theorem touchPlace_cores (s : State) (p : Pass) (pl : Place) : (s.touchPlace p pl).cores = s.cores := by
  unfold State.touchPlace; split <;> rfl
@[simp] theorem touchPlace_nextId (s : State) (p : Pass) (pl : Place) : (s.touchPlace p pl).nextId = s.nextId := by
  unfold State.touchPlace; split <;> rfl

/-- Marking the TDM commutes with a change of the cores and of the identity counter. -/
theorem touchPlace_with (s : State) (p : Pass) (pl : Place) (cs : List (Nat × Core)) (n : Nat) :
    ({ s with cores := cs, nextId := n }).touchPlace p pl = { s.touchPlace p pl with cores := cs, nextId := n } := by
  unfold State.touchPlace
  split
  · rfl
  · rfl

theorem touchAll_with (p : Pass) (rs : List (Nat × Mask × ARes)) (s : State) (cs : List (Nat × Core)) (n : Nat) :
    ({ s with cores := cs, nextId := n }).touchAll p rs = { s.touchAll p rs with cores := cs, nextId := n } := by
  induction rs generalizing s with
  | nil => rfl
  | cons x r ih =>
    obtain ⟨a, b, c⟩ := x
    cases c <;> simp only [State.touchAll, List.foldl_cons] at ih ⊢
    · rw [touchPlace_with]; exact ih _
    all_goals exact ih _


@[simp] theorem touchAll_cores (s : State) (p : Pass) (rs : List (Nat × Mask × ARes)) : (s.touchAll p rs).cores = s.cores := by
  have h := congrArg State.cores (touchAll_with p rs s s.cores s.nextId)
  exact h
@[simp] theorem touchAll_nextId (s : State) (p : Pass) (rs : List (Nat × Mask × ARes)) : (s.touchAll p rs).nextId = s.nextId := by
  have h := congrArg State.nextId (touchAll_with p rs s s.cores s.nextId)
  exact h

/-- The state with records put in flight on a core: `f` adds them. -/
theorem addRec_addRec (s : State) (c n k : Nat) (f g : Core → Core) (p : Pass) (rs : List (Nat × Mask × ARes)) :
    ({ ({ s with nextId := n }.modCore c f).touchAll p rs with nextId := k }).modCore c g
      = ({ s.touchAll p rs with nextId := k }).modCore c fun x => g (f x) := by
  have := touchAll_with p rs s (alSet c (f (s.core c)) s.cores) n
  simp only [State.modCore, State.setCore, State.core] at this ⊢
  rw [this]
  simp

theorem touchAll_cons (s : State) (p : Pass) (x : Nat × Mask × ARes) (r : List (Nat × Mask × ARes)) :
    s.touchAll p (x :: r) = (s.touchAll p [x]).touchAll p r := rfl

theorem issueLoad_one {p : Pass} {m : Ld} {k : LdKind} {tok : Option Nat} (x : Nat × Mask × ARes) (s : State)
    (h : x.2.2.reached = true) :
    s.issueLoad p m k tok x = { s.touchAll p [x] with nextId := s.nextId + 1 }.modCore p.core fun c =>
      { c with loads := c.loads ++ [p.pending m k tok s.nextId x] } := by
  obtain ⟨a, b, c⟩ := x
  cases c <;> simp only [ARes.reached, Bool.false_eq_true] at h
  · simp only [State.issueLoad, State.fresh, touchPlace_nextId, State.touchAll, List.foldl_cons, List.foldl_nil, Pass.pending]
  · simp only [State.issueLoad, State.fresh, State.touchAll, List.foldl_cons, List.foldl_nil, Pass.pending]

/-- The units of a load issue one after another. -/
theorem issueLoads {p : Pass} {m : Ld} {k : LdKind} {tok : Option Nat} (rs : List (Nat × Mask × ARes)) (s : State)
    (hne : rs ≠ []) (h : rs.all (fun (_, _, r) => r.reached) = true) :
    rs.foldl (fun s u => s.issueLoad p m k tok u) s =
      { s.touchAll p rs with nextId := s.nextId + rs.length }.modCore p.core fun c =>
        { c with loads := c.loads ++ rs.mapIdx fun n u => p.pending m k tok (s.nextId + n) u } := by
  induction rs generalizing s with
  | nil => exact absurd rfl hne
  | cons x r ih =>
    simp only [List.all_cons, Bool.and_eq_true] at h
    rw [List.foldl_cons, issueLoad_one x s h.1]
    by_cases hr : r = []
    · subst hr
      rfl
    · rw [ih _ hr h.2]
      have e1 : ∀ (f : Core → Core), ({ s.touchAll p [x] with nextId := s.nextId + 1 }.modCore p.core f).nextId = s.nextId + 1 := fun _ => rfl
      rw [addRec_addRec, ← touchAll_cons]
      simp only [e1, List.mapIdx_cons, List.length_cons, List.append_assoc, List.singleton_append, Nat.add_zero]
      have e2 : s.nextId + 1 + r.length = s.nextId + (r.length + 1) := by omega
      have e3 : ∀ n, s.nextId + 1 + n = s.nextId + (n + 1) := by omega
      simp only [e2, e3]

end Sys2Proof.Machine
end

