-- ==== Sys2Proof/Laws/Keep.lean ====
section
/-! SUPPORT. The operations on memory leave every group as it is. -/

namespace Sys2Proof.Machine

/-- Two states hold the same groups. -/
structure SameGroups (s t : State) : Prop where
  same : ∀ c gid, t.group? c gid = s.group? c gid

theorem SameGroups.refl (s : State) : SameGroups s s := ⟨fun _ _ => rfl⟩
theorem SameGroups.trans {s t u : State} (h : SameGroups s t) (k : SameGroups t u) : SameGroups s u :=
  ⟨fun c gid => (k.same c gid).trans (h.same c gid)⟩

/-- A change that is not of the cores keeps the groups. -/
theorem SameGroups.cores {s t : State} (h : t.cores = s.cores) : SameGroups s t := by
  refine ⟨fun c gid => ?_⟩
  simp only [State.group?, State.core, h]

/-- A change of a core that keeps its groups. -/
theorem sameGroups_modCore (s : State) (c : Nat) (f : Core → Core) (hf : (f (s.core c)).groups = (s.core c).groups) :
    SameGroups s (s.modCore c f) := by
  refine ⟨fun d gid => ?_⟩
  by_cases hd : d = c
  · subst hd
    simp [State.modCore, State.group?, hf]
  · simp [State.modCore, State.group?, core_setCore_ne _ hd]

theorem sameGroups_foldl {α : Type} (l : List α) (f : State → α → State) (h : ∀ s x, SameGroups s (f s x)) (s : State) :
    SameGroups s (l.foldl f s) := by
  induction l generalizing s with
  | nil => exact .refl s
  | cons x r ih => exact (h s x).trans (ih _)

theorem foldl_keeps {α β : Type} (f : State → β) (l : List α) (g : State → α → State) (h : ∀ s x, f (g s x) = f s) (s : State) :
    f (l.foldl g s) = f s := by
  induction l generalizing s with
  | nil => rfl
  | cons x r ih => exact (ih _).trans (h s x)

/-! ## The record of events -/

theorem note_same (s : State) (e : Ev) : ∃ h, s.note e = { s with hist := h } := by
  unfold State.note
  split <;> exact ⟨_, rfl⟩

theorem noteThs_same (s : State) (c gid : Nat) (m : Mask) (e : Ev) : ∃ h, s.noteThs c gid m e = { s with hist := h } := by
  unfold State.noteThs
  split
  · exact ⟨s.hist, rfl⟩
  · exact note_same ..

@[simp] theorem noteThs_cores (s : State) (c gid : Nat) (m : Mask) (e : Ev) : (s.noteThs c gid m e).cores = s.cores := by
  obtain ⟨h, k⟩ := noteThs_same s c gid m e
  rw [k]

@[simp] theorem noteThs_nextId (s : State) (c gid : Nat) (m : Mask) (e : Ev) : (s.noteThs c gid m e).nextId = s.nextId := by
  obtain ⟨h, k⟩ := noteThs_same s c gid m e
  rw [k]

theorem noteStores_cores (s : State) (c gid : Nat) (rel buffered : Bool) (parts : List (Mask × Place × List Byte)) :
    (s.noteStores c gid rel buffered parts).cores = s.cores :=
  foldl_keeps State.cores _ _ (fun s _ => noteThs_cores s.fresh.2 ..) s

theorem noteUnits_keeps {β : Type} (f : State → β) (hf : ∀ s c gid m e, f (State.noteThs s c gid m e) = f s) (s : State) (p : Pass)
    (kind : EvKind) (acq : Option Nat) (rs : List (Nat × Mask × ARes)) : f (s.noteUnits p kind acq rs) = f s := by
  unfold State.noteUnits
  apply foldl_keeps f
  rintro t ⟨⟨a, m, r⟩, n⟩
  cases r <;> first | exact hf .. | rfl

theorem noteUnits_cores (s : State) (p : Pass) (kind : EvKind) (acq : Option Nat) (rs : List (Nat × Mask × ARes)) :
    (s.noteUnits p kind acq rs).cores = s.cores := noteUnits_keeps State.cores noteThs_cores ..

theorem noteUnits_nextId (s : State) (p : Pass) (kind : EvKind) (acq : Option Nat) (rs : List (Nat × Mask × ARes)) :
    (s.noteUnits p kind acq rs).nextId = s.nextId := noteUnits_keeps State.nextId noteThs_nextId ..

theorem touchLost_cores (s : State) (c ctx : Nat) (extra : List TlbE) (va : Nat) : (s.touchLost c ctx extra va).cores = s.cores := by
  unfold State.touchLost
  split <;> rfl

theorem touchLost_nextId (s : State) (c ctx : Nat) (extra : List TlbE) (va : Nat) : (s.touchLost c ctx extra va).nextId = s.nextId := by
  unfold State.touchLost
  split <;> rfl

theorem sameGroups_rawSet (s : State) (p : PA) (bs : List Byte) : SameGroups s (s.rawSet p bs) := by
  unfold State.rawSet
  split <;> exact .cores rfl

@[simp] theorem countDie_cores (s : State) (d src n : Nat) (who : Option (Bool × Nat)) : (s.countDie d src n who).cores = s.cores := by
  unfold State.countDie
  split <;> rfl

@[simp] theorem lineMoved_cores (s : State) (ctx : Option Nat) (host wr : Bool) (d : Nat) : (s.lineMoved ctx host wr d).cores = s.cores := by
  unfold State.lineMoved
  extract_lets t
  have h : t.cores = s.cores := by unfold t; split <;> simp
  split
  · exact h
  · exact h

theorem l2Enter_cores (s : State) (w : Work) (dirty host : Bool) (line : Nat) : (s.l2Enter w dirty host line).cores = s.cores := by
  unfold State.l2Enter
  extract_lets mine d s0 rest
  have h0 : s0.cores = s.cores := countDie_cores ..
  have h1 : (if dirty = true then s0 else s0.lineMoved w.ctx host false d).cores = s.cores := by split <;> simp [h0]
  split
  · exact h0
  · split
    · exact h1
    · split
      · dsimp only
        split
        · exact (lineMoved_cores ..).trans h1
        · exact h1
      · split
        · exact (lineMoved_cores ..).trans h1
        · exact h1

theorem keepWas_cores (s : State) (p : PA) (n l : Nat) : (s.keepWas p n l).cores = s.cores := rfl

theorem sameGroups_l2Dirty (s : State) (w : Work) (p : PA) (n : Nat) : SameGroups s (s.l2Dirty w p n) := by
  unfold State.l2Dirty
  extract_lets ls s1
  have h1 : SameGroups s s1 := sameGroups_foldl _ _ (fun s _ => .cores ((keepWas_cores ..).trans (l2Enter_cores s ..))) s
  split
  · exact h1
  · exact h1.trans (.cores rfl)

theorem sameGroups_l2Read (s : State) (w : Work) (p : PA) (n : Nat) : SameGroups s (s.l2Read w p n) :=
  sameGroups_foldl _ _ (fun s _ => .cores (l2Enter_cores s ..)) s

theorem sameGroups_noteOld (s : State) (p : PA) (n : Nat) : SameGroups s (s.noteOld p n) := by
  unfold State.noteOld
  split
  · exact .refl s
  · exact .cores rfl

theorem sameGroups_writeBack (s : State) (w : L1Word) : SameGroups s (s.writeBack w) := by
  unfold State.writeBack
  extract_lets t _ s1 key
  have h1 : SameGroups s s1 := by
    refine (sameGroups_l2Dirty ..).trans (sameGroups_foldl _ _ ?_ _)
    intro s i
    split
    · exact sameGroups_rawSet ..
    · exact .refl s
  split
  · exact h1.trans (.cores rfl)
  · split
    · exact h1.trans (.cores rfl)
    · exact h1

theorem sameGroups_giveUp (s : State) (p : PA) : SameGroups s (s.giveUp p) := by
  unfold State.giveUp
  split
  · exact .refl s
  · refine SameGroups.trans ?_ (sameGroups_writeBack _ _)
    exact sameGroups_modCore _ _ _ rfl

theorem sameGroups_homePut (s : State) (p : PA) (bs : List Byte) : SameGroups s (s.homePut p bs) := by
  unfold State.homePut
  extract_lets s1
  have h1 : SameGroups s s1 := (sameGroups_noteOld ..).trans (sameGroups_foldl _ _ (fun s _ => sameGroups_giveUp s _) _)
  exact ((h1.trans (sameGroups_l2Dirty ..)).trans (sameGroups_rawSet ..)).trans (.cores rfl)

theorem sameGroups_virq (s : State) (v cause : Nat) : SameGroups s (s.virq v cause) := by
  unfold State.virq
  dsimp only
  split
  · exact .refl s
  · split
    · exact .cores rfl
    · have h : SameGroups s (s.modVd v fun d => { d with irqst := d.irqst ||| (1#32 <<< cause) }) := .cores rfl
      exact h.trans (by unfold State.hostPut; exact sameGroups_homePut ..)

theorem sameGroups_setVd (s : State) (v : Nat) (x : VDev) : SameGroups s (s.setVd v x) := .cores rfl

theorem sameGroups_dirtyPut (s : State) (v page : Nat) : SameGroups s (s.dirtyPut v page) := by
  unfold State.dirtyPut
  extract_lets d s1 d1 full s2
  have h : SameGroups s s2 := (sameGroups_homePut s _ _).trans (sameGroups_setVd _ _ _)
  split
  · exact h.trans (sameGroups_virq _ _ _)
  · exact h

theorem sameGroups_logDirty (s : State) (p : PA) : SameGroups s (s.logDirty p) := by
  unfold State.logDirty
  split
  · exact .refl s
  · split
    · exact .refl s
    · extract_lets v d page
      split
      · exact .refl s
      · split
        · exact sameGroups_setVd _ _ _
        · exact sameGroups_dirtyPut _ _ _

theorem sameGroups_surrender (s : State) (p : PA) : SameGroups s (s.surrender p) := by
  exact sameGroups_giveUp ..

/-- Granting the stored words of an L1 leaves the groups alone where every home takes what is stored. -/
theorem sameGroups_grant1 (s : State) (c : Nat) (p : PA)
    (h : ∀ w ∈ (s.core c).l1, w.st = .pending → s.checkPa (s.ctx w.ctx).vd w.pa = none) : SameGroups s (s.grant1 c p) := by
  unfold State.grant1
  split
  · exact .refl s
  · rename_i w hw
    have hm := List.mem_of_find?_eq_some hw
    have hp := List.find?_some hw
    simp only [Bool.and_eq_true, beq_iff_eq] at hp
    have := h w hm hp.2
    rw [hp.1] at this
    rw [this]
    refine ((sameGroups_noteOld s p 4).trans (sameGroups_surrender _ p)).trans (SameGroups.trans ?_ (sameGroups_logDirty _ _))
    exact sameGroups_modCore _ _ _ rfl

theorem sameGroups_l1Store (s : State) (c ctx : Nat) (o : Origin) (p : PA) (bs : List Byte) :
    SameGroups s (s.l1Store c ctx o p bs) := by
  unfold State.l1Store
  extract_lets wide s1 s2
  have h1 : SameGroups s s1 := by
    refine (sameGroups_noteOld s p bs.length).trans (sameGroups_foldl _ _ ?_ _)
    intro s x
    show SameGroups s (s.l1StoreByte ..)
    unfold State.l1StoreByte
    apply sameGroups_modCore
    split
    · rfl
    · dsimp only
      split <;> rfl
  have h2 : SameGroups s1 s2 := sameGroups_modCore _ _ _ rfl
  refine (h1.trans h2).trans (sameGroups_foldl _ _ ?_ _)
  intro s w
  split
  · exact sameGroups_logDirty _ _
  · exact .refl s

theorem sameGroups_fetchLine (s : State) (c : Nat) (p : PA) : SameGroups s (s.fetchLine c p) := by
  unfold State.fetchLine
  extract_lets base old
  split
  · exact .refl s
  · have h : SameGroups s old := sameGroups_modCore _ _ _ rfl
    refine h.trans (sameGroups_foldl _ _ ?_ _)
    intro s i
    dsimp only
    split
    · exact .refl s
    · exact sameGroups_modCore _ _ _ rfl

theorem sameGroups_l1Acquire (s : State) (c : Nat) : SameGroups s (s.l1Acquire c) := sameGroups_modCore _ _ _ rfl

theorem sameGroups_l1Load (s : State) (c : Nat) (p : PA) (n : Nat) : SameGroups s (s.l1Load c p n).2 := by
  unfold State.l1Load
  dsimp only
  split
  · exact .refl s
  · exact sameGroups_fetchLine _ _ _

theorem sameGroups_countCore (s : State) (c src n : Nat) (who : Option (Bool × Nat)) : SameGroups s (s.countCore c src n who) :=
  ⟨fun d gid => group?_countCore s c src n who d gid⟩

theorem sameGroups_loadPart (s : State) (c : Nat) (l : PLoad) (o n : Nat) : SameGroups s (s.loadPart c l o n).2.2.2 := by
  unfold State.loadPart
  extract_lets f pa
  cases l.space
  · dsimp only
    split
    · exact .refl s
    · split
      · exact sameGroups_countCore ..
      · by_cases hp : s.l1Bypassed c (s.loader c l).2 = true
        · simp only [hp, Bool.not_true, Bool.false_and, Bool.false_eq_true, if_true, if_false]
          exact (sameGroups_countCore ..).trans (sameGroups_l2Read ..)
        · simp only [hp, Bool.false_eq_true, if_false]
          split
          · exact (sameGroups_countCore ..).trans (sameGroups_l1Load ..)
          · exact ((sameGroups_countCore ..).trans (sameGroups_l1Load ..)).trans (sameGroups_l2Read ..)
  · exact .refl s
  · exact .refl s

theorem sameGroups_serveHalf (s : State) (c : Nat) (l : PLoad) (up : Bool) : SameGroups s (s.serveHalf c l up) := by
  unfold State.serveHalf
  extract_lets s0 n o
  have h0 : SameGroups s s0 := by
    unfold s0
    split
    · exact sameGroups_l1Acquire ..
    · exact .refl s
  have hp := sameGroups_loadPart s0 c l o n
  generalize s0.loadPart c l o n = r at hp
  obtain ⟨bs, ue, e, s1⟩ := r
  dsimp only
  refine (h0.trans hp).trans (SameGroups.trans ?_ (sameGroups_modCore _ _ _ rfl))
  generalize l.racy = b
  cases b
  all_goals
    simp only [Bool.false_eq_true, if_true, if_false]
    split
    all_goals exact .cores rfl

theorem sameGroups_serve (s : State) (c : Nat) (l : PLoad) : SameGroups s (s.serve c l) := sameGroups_serveHalf ..

theorem sameGroups_serveWhole (s : State) (c : Nat) (l : PLoad) : SameGroups s (s.serveWhole c l) := by
  unfold State.serveWhole
  extract_lets s1
  have h : SameGroups s s1 := sameGroups_serve ..
  split
  · split
    · exact h.trans (sameGroups_serve ..)
    · exact h
  · exact h

theorem sameGroups_serveFor (s : State) (c : Nat) (ts : List (Nat × Mask)) (p : Place) (before : Nat) :
    SameGroups s (s.serveFor c ts p before) := sameGroups_foldl _ _ (fun s l => sameGroups_serveWhole s c l) s

theorem sameGroups_serveMet (s : State) (c gid : Nat) (m : Mask) (p : Place) (before : Nat) :
    SameGroups s (s.serveMet c gid m p before) := sameGroups_serveFor ..

theorem sameGroups_serveAll (s : State) (c gid : Nat) (m : Mask) (before : Nat) :
    SameGroups s (s.serveAll c gid m before) :=
  sameGroups_foldl _ _ (fun s l => (sameGroups_serveFor s ..).trans (sameGroups_serveWhole _ c l)) s

theorem sameGroups_queueStore (s : State) (c : Nat) (w : Storer) (rel strm : Bool) (p : Place) (bs : List Byte) (after : Option Nat) :
    SameGroups s (s.queueStore c w rel strm p bs after) := by
  have h : SameGroups s s.fresh.2 := .cores rfl
  exact h.trans (by unfold State.queueStore; exact sameGroups_modCore _ _ _ rfl)

/-- A store that does not stream leaves the groups alone. -/
theorem sameGroups_storeGlobal (s : State) (c : Nat) (w : Storer) (rel : Bool) (pa : PA) (bs : List Byte) :
    SameGroups s (s.storeGlobal c w rel false pa bs) := by
  unfold State.storeGlobal
  dsimp only
  split
  · exact sameGroups_queueStore ..
  · split
    · rename_i h
      exact absurd h (by simp)
    · split
      · exact sameGroups_queueStore ..
      · split
        · exact sameGroups_queueStore ..
        · exact (sameGroups_serveMet ..).trans (sameGroups_l1Store ..)

theorem sameGroups_keepOld (s : State) (c gid : Nat) (m : Mask) (at_ a n : Nat) : SameGroups s (s.keepOld c gid m at_ a n) :=
  sameGroups_modCore _ _ _ rfl

theorem sameGroups_storeScratch (s : State) (c : Nat) (w : Storer) (tgt a : Nat) (bs : List Byte) (after : Option Nat) :
    SameGroups s (s.storeScratch c w tgt a bs after) := by
  unfold State.storeScratch
  dsimp only
  split
  · exact sameGroups_queueStore ..
  · exact ((sameGroups_serveMet ..).trans (sameGroups_keepOld ..)).trans (sameGroups_modCore _ _ _ rfl)

theorem sameGroups_accSet (s : State) (c ctx w : Nat) (v : Word) : SameGroups s (s.accSet c ctx w v) := by
  unfold State.accSet
  apply sameGroups_modCore
  dsimp only
  split <;> rfl

theorem sameGroups_storeAcc (s : State) (c : Nat) (w : Storer) (a : Nat) (bs : List Byte) : SameGroups s (s.storeAcc c w a bs) := by
  unfold State.storeAcc
  dsimp only
  split
  · exact sameGroups_queueStore ..
  · exact (sameGroups_serveMet ..).trans (sameGroups_accSet ..)

theorem sameGroups_touchPlace (s : State) (p : Pass) (pl : Place) : SameGroups s (s.touchPlace p pl) :=
  .cores (touchPlace_cores s p pl)

theorem sameGroups_touchAll (s : State) (p : Pass) (rs : List (Nat × Mask × ARes)) : SameGroups s (s.touchAll p rs) :=
  .cores (touchAll_cores s p rs)

/-- The stores of a pass that do not stream leave the groups alone. -/
theorem sameGroups_issueStores (s : State) (c ctx launch gid : Nat) (pc : DWord) (rel : Bool) (parts : List (Mask × Place × List Byte)) :
    SameGroups s (s.issueStores c ctx launch gid pc rel false parts) := by
  unfold State.issueStores
  refine SameGroups.trans (.cores (noteStores_cores ..)) (sameGroups_foldl _ _ ?_ _)
  rintro s ⟨m, pl, bs⟩
  dsimp only
  split
  · exact sameGroups_queueStore ..
  · split
    · exact sameGroups_storeGlobal ..
    · exact sameGroups_storeScratch ..
    · exact sameGroups_storeAcc ..

theorem sameGroups_touch (s : State) (c d : Nat) : SameGroups s (s.touch c d) := .cores rfl

theorem sameGroups_prefetch (s : State) (p : Pass) (l1 : Bool) (ea : Nat) : SameGroups s (s.prefetch p l1 ea) := by
  unfold State.prefetch
  split
  · extract_lets w s1 s2
    have h : SameGroups s s1 := sameGroups_touch ..
    have h2 : SameGroups s s2 := h.trans (sameGroups_l2Read ..)
    split
    · exact h
    · split
      · exact h2.trans (sameGroups_fetchLine ..)
      · exact h2
  · exact .refl s

/-! ## Accesses in flight -/

/-- Looking translations up marks dies, counts events and records accesses only. -/
theorem sameGroups_looks (s : State) (p : Pass) (e : Option (EvKind × Option Nat)) (rs : List (Nat × Mask × ARes)) :
    SameGroups s (s.looks p e rs) := by
  unfold State.looks State.tlbMissed
  extract_lets s1
  have h : SameGroups s s1 := (sameGroups_countCore ..).trans (sameGroups_foldl _ _ (fun s va => .cores (touchLost_cores s ..)) _)
  split
  · refine h.trans (.cores (noteUnits_cores ..))
  · exact h

@[simp] theorem looks_nextId (s : State) (p : Pass) (e : Option (EvKind × Option Nat)) (rs : List (Nat × Mask × ARes)) :
    (s.looks p e rs).nextId = s.nextId := by
  unfold State.looks
  extract_lets s1
  have h : s1.nextId = s.nextId := (foldl_keeps State.nextId _ _ (fun s va => touchLost_nextId s ..) _).trans (by
    unfold State.tlbMissed State.countCore
    split <;> rfl)
  split
  · exact (noteUnits_nextId ..).trans h
  · exact h

/-- Looking up and touching leave the groups alone, and so does a new number. -/
theorem group?_touched (s : State) (p : Pass) (e : Option (EvKind × Option Nat)) (rs : List (Nat × Mask × ARes)) (n c gid : Nat) :
    ({ (s.looks p e rs).touchAll p rs with nextId := n } : State).group? c gid = s.group? c gid := by
  refine Eq.trans ?_ ((sameGroups_looks s p e rs).same c gid)
  simp only [State.group?, State.core, touchAll_cores]

/-- A change of a core that keeps its groups keeps them in the package. -/
theorem group?_addCore (s : State) (c gid : Nat) (f : Core → Core) (hf : ∀ k, (f k).groups = k.groups) :
    (s.modCore c f).group? c gid = s.group? c gid := by
  simp [State.modCore, State.group?, hf]

/-- Loads in flight leave the group of the pass alone. -/
theorem group?_withLoads (s : State) (p : Pass) (m : Ld) (k : LdKind) (tok : Option Nat) :
    (s.withLoads p m k tok).group? p.core p.gid = s.group? p.core p.gid := by
  unfold State.withLoads
  rw [group?_addCore]
  · exact group?_touched ..
  · intro; rfl

/-- Atomics in flight leave the group of the pass alone. -/
theorem group?_withAtoms (s : State) (p : Pass) (m : Atm) (glob red : Bool) :
    (s.withAtoms p m glob red).group? p.core p.gid = s.group? p.core p.gid := by
  unfold State.withAtoms
  rw [group?_addCore]
  · exact group?_touched ..
  · intro; rfl

/-- Spreading destinations changes registers only. -/
theorem spreads_same (g : Group) (m : Ld) (k : LdKind) : ∃ r, g.spreads m k = { g with regs := r } := by
  unfold Group.spreads
  generalize destRegs m.d.toNat k.n = l
  induction l generalizing g with
  | nil => exact ⟨g.regs, rfl⟩
  | cons x r ih =>
    obtain ⟨q, h⟩ := ih (g.setReg x (g.reg x).spread)
    refine ⟨q, ?_⟩
    rw [List.foldl_cons, h]
    rfl

/-- Spreading destinations keeps a group ready. -/
theorem ready_spreads {p : Pass} {g : Group} (h : g.ready p) (m : Ld) (k : LdKind) : (g.spreads m k).ready p := by
  obtain ⟨r, e⟩ := spreads_same g m k
  rw [e]
  exact h.same rfl rfl rfl rfl rfl

/-- A pass has one unit a word it moves. -/
theorem unitsOf_length (u : Bool) {m : Mask} (h : m ≠ 0#32) : (unitsOf u m).length = chanWords u m := by
  have hz : (m == 0) = false := by simpa using h
  unfold unitsOf chanWords slotCount
  cases u
  · simp
  · simp only [hz, Bool.false_eq_true, if_false, if_true, List.length_singleton]

/-- One unit of an atomic issues. -/
theorem issueAtom_one {p : Pass} {m : Atm} {glob red : Bool} (x : Nat × Mask × ARes) (s : State) (h : x.2.2.placed = true) :
    s.issueAtom p m glob red (p.atomOp m glob 1) (p.atomOp m glob 2) x = { s.touchAll p [x] with nextId := s.nextId + 1 }.modCore p.core fun c =>
      { c with atoms := c.atoms ++ [p.atomic m glob red s.nextId x] } := by
  obtain ⟨a, b, c⟩ := x
  cases c <;> simp only [ARes.placed, Bool.false_eq_true] at h
  simp only [State.issueAtom, State.fresh, touchPlace_nextId, State.touchAll, List.foldl_cons, List.foldl_nil, Pass.atomic]

/-- The units of an atomic issue one after another. -/
theorem issueAtoms {p : Pass} {m : Atm} {glob red : Bool} (rs : List (Nat × Mask × ARes)) (s : State)
    (hne : rs ≠ []) (h : rs.all (fun (_, _, r) => r.placed) = true) :
    rs.foldl (fun s u => s.issueAtom p m glob red (p.atomOp m glob 1) (p.atomOp m glob 2) u) s =
      { s.touchAll p rs with nextId := s.nextId + rs.length }.modCore p.core fun c =>
        { c with atoms := c.atoms ++ rs.mapIdx fun n u => p.atomic m glob red (s.nextId + n) u } := by
  induction rs generalizing s with
  | nil => exact absurd rfl hne
  | cons x r ih =>
    simp only [List.all_cons, Bool.and_eq_true] at h
    rw [List.foldl_cons, issueAtom_one x s h.1]
    by_cases hr : r = []
    · subst hr
      rfl
    · rw [ih _ hr h.2]
      have e1 : ∀ (f : Core → Core), ({ s.touchAll p [x] with nextId := s.nextId + 1 }.modCore p.core f).nextId = s.nextId + 1 := fun _ => rfl
      rw [addRec_addRec, ← touchAll_cons]
      simp only [e1, List.mapIdx_cons, List.length_cons, List.append_assoc, List.singleton_append, Nat.add_zero]
      have e2 : s.nextId + 1 + r.length = s.nextId + (r.length + 1) := by omega
      have e3 : ∀ n, s.nextId + 1 + n = s.nextId + (n + 1) := by omega
      simp only [e2, e3]

end Sys2Proof.Machine
end

