-- ==== Sys2Proof/Laws/Memory.lean ====
section
/-! SUPPORT. Laws of memory: a read after a write, and that every memory operation keeps the
canonical form. -/

namespace Sys2Proof.Machine

/-! ## One byte -/

theorem cellGet_below {m : List Host.Cell} {lo a : Nat} (h : cellsFrom lo m = true) (ha : a < lo) : cellGet m a = 0 := by
  induction m generalizing lo with
  | nil => rfl
  | cons x r ih =>
    obtain ⟨k, v⟩ := x
    simp only [cellsFrom, Bool.and_eq_true, decide_eq_true_eq] at h
    have hk : k ≠ a := by omega
    simp only [cellGet, hk, if_false]
    exact ih h.2 (by omega)

theorem cellsFrom_mono {m : List Host.Cell} {lo lo' : Nat} (h : cellsFrom lo m = true) (hl : lo' ≤ lo) : cellsFrom lo' m = true := by
  cases m with
  | nil => rfl
  | cons x r =>
    obtain ⟨k, v⟩ := x
    simp only [cellsFrom, Bool.and_eq_true, decide_eq_true_eq] at h ⊢
    exact ⟨⟨by omega, h.1.2⟩, h.2⟩

theorem cellSet_from {m : List Host.Cell} {lo a : Nat} (v : Byte) (h : cellsFrom lo m = true) (ha : lo ≤ a) :
    cellsFrom lo (cellSet m a v) = true := by
  induction m generalizing lo with
  | nil =>
    by_cases hv : v = 0#8
    · simp [cellSet, hv, cellsFrom]
    · simp [cellSet, hv, cellsFrom, ha]
  | cons x r ih =>
    obtain ⟨k, w⟩ := x
    have h0 := h
    simp only [cellsFrom, Bool.and_eq_true, decide_eq_true_eq] at h
    by_cases h1 : a < k
    · by_cases hv : v = 0#8
      · simpa [cellSet, h1, hv] using h0
      · have e : cellSet ((k, w) :: r) a v = (a, v) :: (k, w) :: r := by simp [cellSet, h1, hv]
        rw [e]
        simp only [cellsFrom, Bool.and_eq_true, decide_eq_true_eq]
        exact ⟨⟨ha, by simpa using hv⟩, ⟨by omega, h.1.2⟩, h.2⟩
    · by_cases h2 : a = k
      · by_cases hv : v = 0#8
        · subst h2
          simp only [cellSet, h1, if_true, hv, if_false]
          exact cellsFrom_mono h.2 (by omega)
        · have e : cellSet ((k, w) :: r) a v = (a, v) :: r := by simp [cellSet, h2, hv]
          rw [e, h2]
          simp only [cellsFrom, Bool.and_eq_true, decide_eq_true_eq]
          exact ⟨⟨by omega, by simpa using hv⟩, h.2⟩
      · simp only [cellSet, h1, if_false, h2, cellsFrom, Bool.and_eq_true, decide_eq_true_eq]
        exact ⟨h.1, ih h.2 (by omega)⟩

/-- A byte write keeps the canonical form. -/
theorem cellSet_wf {m : List Host.Cell} (a : Nat) (v : Byte) (h : Memory.wf m = true) : Memory.wf (cellSet m a v) = true :=
  cellSet_from v h (Nat.zero_le a)

/-- Writing bytes keeps the canonical form. -/
theorem cellsSet_wf {m : List Host.Cell} (a : Nat) (bs : List Byte) (h : Memory.wf m = true) :
    Memory.wf (cellsSet m a bs) = true := by
  induction bs generalizing m a with
  | nil => exact h
  | cons b r ih => exact ih (a + 1) (cellSet_wf a b h)

/-- Dropping cells keeps the canonical form. -/
theorem cellsFrom_filter {m : List Host.Cell} {lo : Nat} (p : Host.Cell → Bool) (h : cellsFrom lo m = true) :
    cellsFrom lo (m.filter p) = true := by
  induction m generalizing lo with
  | nil => rfl
  | cons x r ih =>
    obtain ⟨k, v⟩ := x
    simp only [cellsFrom, Bool.and_eq_true, decide_eq_true_eq] at h
    simp only [List.filter_cons]
    split
    · simp only [cellsFrom, Bool.and_eq_true, decide_eq_true_eq]
      exact ⟨h.1, ih h.2⟩
    · exact cellsFrom_mono (ih h.2) (by omega)

/-- The byte just written reads back. -/
theorem cellGet_cellSet_self {m : List Host.Cell} {lo : Nat} (a : Nat) (v : Byte) (h : cellsFrom lo m = true) :
    cellGet (cellSet m a v) a = v := by
  induction m generalizing lo with
  | nil =>
    by_cases hv : v = 0#8 <;> simp [cellSet, hv, cellGet]
  | cons x r ih =>
    obtain ⟨k, w⟩ := x
    simp only [cellsFrom, Bool.and_eq_true, decide_eq_true_eq] at h
    by_cases h1 : a < k
    · by_cases hv : v = 0#8
      · have hk : k ≠ a := by omega
        have e : cellSet ((k, w) :: r) a v = (k, w) :: r := by simp [cellSet, h1, hv]
        rw [e, hv]
        have e2 : cellGet ((k, w) :: r) a = cellGet r a := by simp [cellGet, hk]
        exact e2.trans (cellGet_below h.2 (by omega))
      · simp [cellSet, h1, hv, cellGet]
    · by_cases h2 : a = k
      · subst h2
        by_cases hv : v = 0#8
        · have e : cellSet ((a, w) :: r) a v = r := by simp [cellSet, hv]
          rw [e, hv]
          exact cellGet_below h.2 (by omega)
        · simp [cellSet, hv, cellGet]
      · simp only [cellSet, h1, h2, if_false, cellGet, Ne.symm h2]
        exact ih h.2

/-- Every other byte reads as before. -/
theorem cellGet_cellSet_ne (m : List Host.Cell) {a b : Nat} (v : Byte) (h : b ≠ a) : cellGet (cellSet m a v) b = cellGet m b := by
  induction m with
  | nil => by_cases hv : v = 0#8 <;> simp [cellSet, hv, cellGet, Ne.symm h]
  | cons x r ih =>
    obtain ⟨k, w⟩ := x
    by_cases h1 : a < k
    · by_cases hv : v = 0#8 <;> simp [cellSet, h1, hv, cellGet, Ne.symm h]
    · by_cases h2 : a = k
      · subst h2
        by_cases hv : v = 0#8 <;> simp [cellSet, hv, cellGet, Ne.symm h]
      · simp only [cellSet, h1, h2, if_false, cellGet, ih]

/-- Bytes outside a write read as before. -/
theorem cellGet_cellsSet_out (m : List Host.Cell) (a : Nat) (bs : List Byte) {b : Nat} (h : b < a ∨ a + bs.length ≤ b) :
    cellGet (cellsSet m a bs) b = cellGet m b := by
  induction bs generalizing m a with
  | nil => rfl
  | cons x r ih =>
    simp only [List.length_cons] at h
    rw [cellsSet, ih _ _ (by omega), cellGet_cellSet_ne _ _ (by omega)]

/-- The bytes just written read back. -/
theorem cellGet_cellsSet_in {m : List Host.Cell} (a : Nat) (bs : List Byte) (h : Memory.wf m = true) (i : Nat) (hi : i < bs.length) :
    cellGet (cellsSet m a bs) (a + i) = bs.getD i 0 := by
  induction bs generalizing m a i with
  | nil => simp at hi
  | cons x r ih =>
    cases i with
    | zero =>
      rw [cellsSet, Nat.add_zero, cellGet_cellsSet_out _ _ _ (by omega)]
      exact cellGet_cellSet_self a x h
    | succ n =>
      have hn : n < r.length := by simpa using hi
      rw [cellsSet, show a + (n + 1) = (a + 1) + n by omega, ih (a + 1) (cellSet_wf a x h) n hn]
      simp

/-! ## The memory operations -/

/-- Every operation on the memories keeps their canonical form. -/
theorem State.hostSet_wf (s : State) (a : Nat) (bs : List Byte) (h : Memory.wf s.hmem = true) :
    Memory.wf (s.hostSet a bs).hmem = true := cellsSet_wf a bs h

theorem State.rawSet_wf (s : State) (p : PA) (bs : List Byte) (hd : Memory.wf s.dmem = true) (hh : Memory.wf s.hmem = true) :
    Memory.wf (s.rawSet p bs).dmem = true ∧ Memory.wf (s.rawSet p bs).hmem = true := by
  unfold State.rawSet
  split
  · exact ⟨hd, cellsSet_wf _ _ hh⟩
  · exact ⟨cellsSet_wf _ _ hd, hh⟩

theorem reset_memory_wf : Memory.wf State.reset.dmem = true ∧ Memory.wf State.reset.hmem = true := ⟨rfl, rfl⟩

end Sys2Proof.Machine
end

