-- ==== Sys2Proof/Laws/Rows.lean ====
section
/-! SUPPORT. What helps to show that an instruction's form and results agree with its row: the forms,
and the shapes that 03 R92 keeps. -/

namespace Sys2Proof.Machine

theorem clampS_eq (n : Int) : clampS n = sat32 n := by
  unfold clampS sat32 satWord
  split
  · rw [show max (-2^31 : Int) (min n (2^31-1)) = -2147483648 by omega]; rfl
  · split
    · rw [show max (-2^31 : Int) (min n (2^31-1)) = 2147483647 by omega]; rfl
    · rw [show max (-2^31 : Int) (min n (2^31-1)) = n by omega]

theorem op3_agrees (i : Instr) (r : R3) (f) : (op3 i r).agrees (row3 r f) := ⟨rfl, rfl, rfl, rfl, rfl, rfl⟩
theorem op3d_agrees (i : Instr) (r : R3) (f) : (op3d i r).agrees (row3d r f) := ⟨rfl, rfl, rfl, rfl, rfl, rfl⟩
theorem op2_agrees (i : Instr) (r : R2) (f) : (op2 i r).agrees (row2 r f) := ⟨rfl, rfl, rfl, rfl, rfl, rfl⟩

theorem form_val {v : SVal} {sh : Shape} (h : v.form = some sh) : v.lo = sh := by
  unfold SVal.form at h
  split at h
  · split at h
    · simp at h
    · simpa using h
  · simp at h

theorem joinForm_val {f : Word → Word → Word} (hf : f = (· + ·) ∨ f = (· - ·)) {s1 s2 : Shape} {v1 v2 : SVal}
   (e1 : v1.form = some s1) (e2 : v2.form = some s2) (t : Nat) :
   (joinForm f s1 s2).val t = f (v1.w t) (v2.w t) := by
  have g : ∀ {v : SVal} {ws}, v.form = some (.general ws) → False := by
    intro v ws h
    unfold SVal.form at h
    split at h
    · split at h <;> simp_all
    · simp at h
  simp only [SVal.w, form_val e1, form_val e2]
  rcases hf with rfl | rfl <;> cases s1 <;> cases s2 <;> simp only [joinForm, Shape.val] <;> first | exact (g e1).elim | exact (g e2).elim | ring

theorem addForm_val {f : Word → Word → Word} {x : Bool} {p vs a b} (hf : f = (· + ·) ∨ f = (· - ·)) (h : addForm f x p vs = some (a, b)) (t : Nat) :
   x = false ∧ a.val t = f ((sv vs 0).w t) ((sv vs 1).w t) := by
  unfold addForm at h
  split at h
  · rename_i s1 s2 e1 e2
    simp only [Option.some.injEq, Prod.mk.injEq] at h
    exact ⟨rfl, by rw [← h.1, joinForm_val hf e1 e2]⟩
  · simp at h

theorem mulForm_val {p vs a b} (h : mulForm p vs = some (a, b)) (t : Nat) : a.val t = (sv vs 0).w t * (sv vs 1).w t := by
  unfold mulForm at h
  split at h <;> simp only [Option.some.injEq, Prod.mk.injEq, reduceCtorEq] at h
  all_goals
    rename_i e1 e2
    simp only [SVal.w, form_val e1, form_val e2, ← h.1, Shape.val]
    try ring

theorem shlW_add (a b n : Word) : shlW (a + b) n = shlW a n + shlW b n := by
  unfold shlW
  split
  · apply BitVec.eq_of_toNat_eq
    simp only [BitVec.toNat_shiftLeft, BitVec.toNat_add, Nat.shiftLeft_eq]
    rw [Nat.mod_mul_mod, Nat.add_mul, Nat.add_mod]
  · rfl

theorem shlW_mul (a b n : Word) : shlW (a * b) n = a * shlW b n := by
  unfold shlW
  split
  · apply BitVec.eq_of_toNat_eq
    simp only [BitVec.toNat_shiftLeft, BitVec.toNat_mul, Nat.shiftLeft_eq]
    rw [Nat.mod_mul_mod, Nat.mul_assoc, Nat.mul_mod_mod]
  · simp

theorem shlForm_val {x p vs a b} (h : shlForm x p vs = some (a, b)) (t : Nat) :
    x = false ∧ a.val t = shlW ((sv vs 0).w t) ((sv vs 1).w t) := by
  unfold shlForm at h
  split at h <;> simp only [Option.some.injEq, Prod.mk.injEq, reduceCtorEq] at h
  all_goals
    rename_i e1 e2
    refine ⟨rfl, ?_⟩
    simp only [SVal.w, form_val e1, form_val e2, ← h.1, Shape.val]
    try rw [shlW_add, shlW_mul]

theorem none_shape (r : LaneRow) (p : Pass) : r.u = false → ∀ a b, (fun _ _ => none : Pass → List SVal → Option (Shape × Shape)) p (p.svals r.srcs) = some (a, b) → ∀ t ∈ slotsOf p.ex,
    r.good p (p.svals r.srcs) t = true →
    a.val t = (r.result p t).setWidth 32 ∧ (∀ d, r.dst = .v d true → b.val t = (r.result p t).extractLsb' 32 32) := by
  intro _ a b h; simp at h

theorem result_false {r : LaneRow} (h : r.u = false) (p t) : r.result p t = r.val p (p.svals r.srcs) t := by simp [LaneRow.result, LaneRow.from_, h]

end Sys2Proof.Machine
end

