-- ==== Sys2Proof/Tests/Slice0.lean ====
section
/-! SUPPORT. Tests: ill-formed terms, words of the spec, witnesses of the statements and results worked
out from the spec. -/

namespace Sys2Proof.Tests

set_option Elab.async false

open Sys2Proof Sys2Proof.Machine

/-! ## Helpers -/

/-- Group 0 of core 0, four active threads at position 5 of 5 of a clause at 0x10000, context 0. -/
def base : State := { State.reset.withFetchWord 32 0 with agenda := [], focus := some (0, 0) }

/-- `base` with the clause at a position, the core and the group changed. -/
def at_ (pos : Nat) (k : Core → Core) (f : Group → Group) : State :=
  (base.modCore 0 k).modGroup 0 0 fun g => f { g with clause := g.clause.map fun c => { c with pos } }

/-- Group 0 with registers set. -/
def regs (rs : List (Nat × Shape)) (g : Group) : Group := rs.foldl (fun g (n, sh) => g.setReg n { shape := sh }) g

/-- The state of an outcome that has one satisfies a test. -/
def after (o : Host.Outcome State Fault Refusal) (f : State → Bool) : Bool :=
  match o with
  | .next s => f s
  | _ => false

/-- An outcome is a given next state. -/
def goes (o : Host.Outcome State Fault Refusal) (t : State) : Bool := after o fun s => decide (s = t)

/-- A test of the focused pass. -/
def inPass (s : State) (f : Pass → Bool) : Bool := (s.pass?.map f).getD false

/-- A test of group 0 of core 0. -/
def inGroup (s : State) (f : Group → Bool) : Bool := ((s.group? 0 0).map f).getD false

/-- A register of group 0. -/
def shapeOf (s : State) (n : Nat) : Shape := ((s.group? 0 0).map fun g => (g.reg n).shape).getD (.uniform 0)

/-- A row's pass is ready, and its result of a slot is a word. -/
def readyWith (s : State) (r : Option LaneRow) (slot : Nat) (w : DWord) : Bool :=
  match r with
  | some r => inPass s fun p => laneReady s p r && r.result p slot == w
  | none => false

/-- The executed instruction leaves a word in a slot of a register. -/
def leaves (i : Instr) (s : State) (n slot : Nat) (w : Word) : Bool := after (exec i s) fun t => (shapeOf t n).val slot == w

def r3 (d a b : BitVec 6) : R3 := ⟨false, false, .v d, .v a, .v b⟩
def r2 (d a : BitVec 6) : R2 := ⟨false, false, .v d, .v a⟩

/-! ## Ill-formed instructions are refused -/

/-- One ill-formed term for each check of the operands. -/
def illFormed : List Instr :=
  [.iadd ⟨false, false, .v 1, .lit64 0, .v 2⟩ false, .imad ⟨false, false, .v 1, .v 2, .v 3⟩ true, .bfi ⟨false, false, .v 1, .v 2, .lit32 0⟩,
   .bfi ⟨false, false, .v 1, .v 2, .v 3⟩, .frnd (r2 1 2) 5, .fcls (r2 1 2) 3, .cvt (r2 1 2) 14 0 false, .cvt (r2 1 2) 4 0 true, .cvt (r2 1 2) 8 3 false,
   .mxscl false (.v 1) (.v 2) 2, .mxupk false (.v 1) (.v 2) 8, .mxpk false (.v 1) (.v 2) 3 4, .itst ⟨false, 6, 1, .v 1, .v 2⟩ false,
   .ftst ⟨false, 14, 1, .v 1, .v 2⟩, .plog false 5 1 1 1, .plog false 4 1 1 1, .vchk true 1 (.v 2) true, .scan false (.v 1) (.v 2) false 11,
   .redx false (.v 1) (.v 2) 11, .vote true (.pred 1) 1 0, .vote false (.pred 1) 1 2, .rank false (.v 1) (.v 2) 3, .rank false (.v 1) (.v 2) 2,
   .mov ⟨false, false, .v 1, .v 2⟩ true, .mov ⟨false, false, .q 1, .v 2⟩ true, .movs false false (.v 1) 0x17, .movs false false (.v 1) 0x20,
   .movsw 0x0D (.v 1), .movsw 0x24 (.v 1), .movxw false (.v 1) (.lit64 0), .unif 1 true]

/-- One ill-formed term for each check of the memory and control instructions. -/
def illFormed' : List Instr :=
  [.ldgB32 ⟨false, 7, 1, .v 2, .imm 0⟩, .ldgB32 ⟨false, 0, 1, .v 3, .imm 0⟩, .ldgB32 ⟨false, 0, 1, .v 2, .imm 32⟩, .ldgB64 ⟨false, 0, 1, .v 2, .imm 0⟩,
   .ldgB128 ⟨false, 0, 2, .v 2, .imm 0⟩, .ldgAcq ⟨false, 0, 1, .v 2, .imm 0⟩, .stgB32 ⟨false, 4, .v 1, .v 2, .imm 0⟩, .stgB64 ⟨false, 0, .v 1, .v 2, .imm 0⟩,
   .stgB128 ⟨false, 0, .byp 0, .v 2, .imm 0⟩, .pfg false false (.v 1) (.imm 0), .ldsB32 ⟨false, 0, 1, .v 3, .lit 0x07000000⟩,
   .ldsB32 ⟨false, 0, 1, .v 3, .lit 0x08000000⟩, .lda ⟨false, 0, 1, .v 3, .lit 0x01000000⟩, .stsB32 ⟨false, 7, .v 1, .v 3, .imm 0⟩,
   .stsB32 ⟨false, 0, .v 1, .v 3, .lit 0x01000000⟩, .sta ⟨false, 1, .v 1, .v 3, .imm 0⟩, .atg ⟨false, 13, false, 1, .v 2, 0⟩, .atg ⟨false, 12, true, 2, .v 2, 0⟩,
   .atg ⟨false, 0, true, 1, .v 2, 0⟩, .redg ⟨false, 8, false, 1, .v 2, 0⟩, .ats ⟨false, 9, false, 63, .v 2, 0⟩, .atg ⟨false, 0, false, 1, .v 3, 0⟩,
   .fence false 0 0, .fence false 1 5, .waita false false (.v 1) (.v 3) false 0, .waita false false (.v 1) (.v 2) false 6, .jmpr false (.v 3),
   .qcfg 0 (.v 1) true, .cmack false (.v 3), .lnch false (.q 1) (.v 1) (.v 2), .nap false (.lit64 0) false]

theorem test_ill_formed_refused : illFormed.all (fun i => !i.wf) = true := by decide +kernel
theorem test_ill_formed_refused' : illFormed'.all (fun i => !i.wf) = true := by decide +kernel

/-- The words of an ill-formed term do not decode to it. -/
theorem test_ill_formed_words : (illFormed ++ illFormed').all (fun i =>
    match decode ((encode i).headD 0).toNat (encode i).tail with | .ok j => j != i | .error _ => true) = true := by decide +kernel

/-! ## Words of the spec -/

def reads (w : Nat) (ls : List Word) (i : Instr) : Bool := decide (decode w ls = .ok i)

/-- 17 R455, R438, R440, R443: words that the spec spells out. -/
theorem test_decode_alu : (reads 0x12008104 [] (.xor_ (r3 1 1 2)) && reads 0x4B008206 [] (.selp (r3 1 2 3) 3)
    && reads 0x50018208 [] (.shfx false (.v 3) (.v 2) (.v 4)) && reads 0x51018288 [1] (.shfd false (.v 3) (.v 2) (.lit32 1))
    && reads 0x52018288 [16] (.shfb false (.v 3) (.v 2) (.lit32 16)) && reads 0x67010900 [] (.shtag false (.v 2) 9)
    && reads 0x59038206 [] (.ssint false (.v 7) (.v 2) (.v 3)) && reads 0x44010500 [] (.vchk false 2 (.v 5) false)
    && reads 0x44010501 [] (.vchk false 2 (.v 5) true)) = true := by decide +kernel

/-- OP, U, NW, D, A, B, X bit by bit (04 R116): FMA.U V1, V2, V3; PADD.BF16 with NW; CVT of pair 5, mode 1. -/
theorem test_decode_fp : (reads 0b00100011_1_0_0000001_0000010_0000011_0 [] (.fma ⟨true, false, .v 1, .v 2, .v 3⟩)
    && reads 0b00110010_0_1_0000001_0000010_0000011_1 [] (.padd ⟨false, true, .v 1, .v 2, .v 3⟩ true)
    && reads 0b00110111_0_0_0000001_0000010_0010101_0 [] (.cvt (r2 1 2) 5 1 false)) = true := by decide +kernel

/-- OP, U, T, D, A, OFF6 bit by bit (04 R117): LDG.B32 with token 2, STS.B64 with a literal, PFG of the spec. -/
theorem test_decode_mem : (reads 0b10000010_0_010_0000001_0000100_000011 [] (.ldgB32 ⟨false, 2, 1, .v 4, .imm 3⟩)
    && reads 0b10011011_0_000_0000010_0000100_100000 [0x40] (.stsB64 ⟨false, 0, .v 2, .v 4, .lit 0x40⟩)
    && reads 0x8F000282 [] (.pfg false false (.v 10) (.imm 2))) = true := by decide +kernel

/-- OP, U, AOP, W, D, A, OFF4 bit by bit (04 R119), and OP, U, P, S, DISP (04 R120). -/
theorem test_decode_atomic_branch : (reads 0b10100000_0_0000_1_0000010_0000100_0101 [] (.atg ⟨false, 0, true, 2, .v 4, 5⟩)
    && reads 0b11010000_1_011_1_0000000000000000111 [] (.bra ⟨true, 3, true, 7⟩)
    && reads 0b11010110_0_111_1_0000000000000000001 [] (.setm 1)) = true := by decide +kernel

/-- Words of the async, control and system entries (16 R405, R414, R432 to R434; 17 R448, R456). -/
theorem test_decode_system : (reads 0xB3800900 [] (.mbind (.v 9) false) && reads 0xE6004402 [0x3E8] (.nap false (.lit32 0x3E8) true)
    && reads 0xD4000000 [] (.ret false) && reads 0xD4800000 [] (.ret true) && reads 0xF5000000 [] (.rgna false) && reads 0xF1000000 [] (.rte false)
    && reads 0xF1000001 [] (.rte true) && reads 0xF0000012 [] (.trap false 9) && reads 0xE5000000 [] (.yld false false)
    && reads 0xE5000002 [] (.yld false true)) = true := by decide +kernel

/-- Unassigned opcodes and fields that must be zero (04 R122 to R124). -/
theorem test_decode_refuses : (decide (decode 0xC0000000 [] = .error .opcode) && decide (decode 0x09000000 [] = .error .opcode)
    && decide (decode 0x12008105 [] = .error .operand) && decide (decode 0xF5000001 [] = .error .operand)
    && decide (decode 0xF1800000 [] = .error .operand)) = true := by decide +kernel

/-- What the decoder reads, the encoder writes: literals of both operands (04 R105). -/
theorem test_encode_literals : (encode (.iadd ⟨false, false, .v 6, .lit32 7, .lit32 8⟩ false) == [0x00034488, 7, 8]) = true := by decide +kernel

/-! ## Lane instructions: results and tags -/

/-- Position 2 of 5, registers for arithmetic: V2 uniform 7, V3 affine 10 + 4s, V5 general. -/
def alu : State := at_ 2 id (regs [(2, .uniform 7), (3, .affine 10 4), (5, .general ((List.range 32).map fun i => BitVec.ofNat 32 (100 - i)))])

/-- 15 R393, 03 R92. -/
theorem test_iadd_ready : readyWith alu (intRow (.iadd (r3 1 3 2) false)) 3 29 = true := by decide +kernel
theorem test_iadd_affine : after (exec (.iadd (r3 1 3 2) false) alu) (fun t => shapeOf t 1 == .affine 17 4) = true := by decide +kernel
/-- 15 R393: the exact sum saturates. -/
theorem test_iadd_sat : leaves (.iadd ⟨false, false, .v 1, .lit32 0x7FFFFFFF, .v 2⟩ true) alu 1 0 0x7FFFFFFF = true := by decide +kernel
theorem test_imulh : leaves (.imulh ⟨false, false, .v 1, .lit32 0x80000000, .lit32 4⟩ false) alu 1 1 0xFFFFFFFE = true := by decide +kernel
/-- 17 R442: a count of 32 or more is not reduced. -/
theorem test_shl_ready : readyWith alu (bitRow (.shl ⟨false, false, .v 1, .v 3, .lit32 32⟩ false)) 3 0 = true := by decide +kernel
/-- 03 R94's example: AFF, SHL and IADD. -/
theorem test_affine_example : (
    after (exec (.aff false (.v 4) (.lit32 0x100) (.lit32 4)) (at_ 1 id id)) fun a => shapeOf a 4 == .affine 0x100 4 &&
    after (exec (.shl ⟨false, false, .v 5, .v 4, .lit32 2⟩ false) a) fun b => shapeOf b 5 == .affine 0x400 16 &&
    after (exec (.iadd ⟨false, false, .v 6, .v 5, .lit32 0x2000⟩ false) b) fun c =>
      shapeOf c 6 == .affine 0x2400 16 && (shapeOf c 6).val 3 == 0x2430) = true := by decide +kernel
/-- 03 R93: a pass that is not full leaves a general register and the others' values. -/
theorem test_partial_general : after (exec (.iadd (r3 3 3 2) false) (alu.modGroup 0 0 fun g => g.modThs 4 fun _ t => { t with pc := 0x20000 }))
    (fun t => (shapeOf t 3).tag == 2 && (shapeOf t 3).val 2 == 18 && (shapeOf t 3).val 1 == 21) = true := by decide +kernel

/-- 1.0 and 3.0 as FP32, FPE enabled for divide by zero. -/
def fp : State := at_ 2 id fun g => { regs [(2, .uniform 0x3F800000), (3, .uniform 0x40400000)] g with fcr := 0x200, trapv := 0x8000 }

/-- 15 R383, 05 R152: 1 + 3 = 4; 1 / 3 is inexact. -/
theorem test_fadd_ready : readyWith fp (floatRow (.fadd (r3 1 2 3))) 0 0x40800000 = true := by decide +kernel
theorem test_frcp_inexact : after (exec (.frcp (r2 1 3)) fp) (fun t => (shapeOf t 1).val 0 == 0x3EAAAAAB && inGroup t fun g => g.fsr == 0x10) = true := by
  decide +kernel
/-- 05 R153, 11 R294: 1 / 0 with DZ enabled faults every thread and writes nothing. -/
theorem test_fpe_faults : (inPass fp (fun p => p.trappable) &&
    after (exec (.frcp ⟨false, false, .v 1, .zero⟩) fp) fun t => inGroup t fun g => (g.reg 1).shape == .uniform 0 && g.fsr == 0 &&
      match g.pend with | [f] => f.pos == 2 && f.faults == (faultsOf 15 .fpe 2) | _ => false) = true := by decide +kernel
/-- 16 R419: halves on their own. -/
theorem test_padd_ready : readyWith fp (packedRow (.padd ⟨false, false, .v 1, .lit32 0x3C004000, .lit32 0x3C003C00⟩ false)) 1 0x40004200 = true := by
  decide +kernel
/-- 15 R390: signed and unsigned orders differ. -/
theorem test_itst_ready : (readyWith fp (testRow (.itst ⟨false, 2, 1, .lit32 0x80000000, .lit32 1⟩ false)) 0 1
    && readyWith fp (testRow (.itst ⟨false, 2, 1, .lit32 0x80000000, .lit32 1⟩ true)) 0 0) = true := by decide +kernel
/-- 17 R441: SHFX 1 in a tile reads slot 1. -/
theorem test_shfx_ready : readyWith alu (crossRow (.shfx false (.v 1) (.v 5) (.lit32 1))) 3 99 = true := by decide +kernel
/-- 16 R430, 03 R92: the sum of slots 0 to 3 is uniform for TILE 32. -/
theorem test_redx_uniform : after (exec (.redx false (.v 1) (.v 5) 0) alu) (fun t => shapeOf t 1 == .uniform 394) = true := by decide +kernel
/-- 16 R409: SLOT is affine. -/
theorem test_movs_ready : (readyWith alu (moveRow alu (.movs false false (.v 1) 0)) 3 3
    && after (exec (.movs false false (.v 1) 0) alu) fun t => shapeOf t 1 == .affine 0 1) = true := by decide +kernel
/-- 14 R378: pair 0 is FP32 to F16; 3.0 is 0x4200. -/
theorem test_cvt_ready : (match convertRow fp (.cvt (r2 1 3) 0 0 false) with
    | some (r, sr) => !sr && inPass fp fun p => laneReady fp p r && r.result p 0 == 0x4200
    | none => false) = true := by decide +kernel
/-- 14 R379's example: 300, 500 and infinity to E4M3 with OF enabled: slot 1 faults with FADDR 0x14, the others commit. -/
theorem test_cvt_example :
    let s := at_ 1 id fun g => { regs [(2, .general ([0x43960000, 0x43FA0000, 0x7F800000] ++ List.replicate 29 0))] g with fcr := 0x400, trapv := 0x8000 }
    after (exec (.cvt (r2 3 2) 3 0 false) s) (fun _ => true) = true ∧
    after (exec (.cvt (r2 3 2) 2 0 false) s) (fun t => (shapeOf t 3).val 0 == 0x79 && (shapeOf t 3).val 1 == 0 && (shapeOf t 3).val 2 == 0x7F &&
      inGroup t fun g => match g.pend with | [f] => f.faults == [⟨1, .fpe, 0x14⟩] | _ => false) = true := by decide +kernel
/-- 02 R71, 05 R153: of 1/1 and 1/0 with DZ enabled the first commits; the premises of the statement. -/
theorem test_partial_fpe :
    let s := at_ 2 id fun g => { regs [(4, .general ([0x3F800000, 0, 0x3F800000, 0] ++ List.replicate 28 0))] g with fcr := 0x200, trapv := 0x8000 }
    (inPass s (fun p => p.trappable && p.g.regs.length == 64 && decide (p.cl.pos < p.cl.count) && !(s.core p.core).bHeld p.gid p.g 1) &&
      after (exec (.frcp (r2 1 4)) s) fun t => (shapeOf t 1).val 0 == 0x3F800000 && (shapeOf t 1).val 1 == 0 && inGroup t fun g =>
        (g.th 0).pc == 0x10008 && (g.th 1).pc == 0x10004) = true := by decide +kernel
/-- 17 R444, 16 R409, R410, R426: the further rows are ready. -/
theorem test_special_ready : inPass alu (fun p => laneReady alu p (ssintRow false (.v 1) (.v 2) (.v 3)) && laneReady alu p (movswRow 0x0A (.lit32 3))
    && laneReady alu p (movxwRow false (.v 2) (.v 3)) && (slotsOf p.ex).all fun t => !(alu.core p.core).bHeld p.gid p.g (p.index (.v 2) t)) = true := by
  decide +kernel
/-- 05 R151: reserved bits of FCR stay zero. -/
theorem test_movsw_fcr : after (exec (.movsw 0x0A (.lit32 0xFFFFFFFF)) alu) (fun t => inGroup t fun g => g.fcr == 0x1F07) = true := by decide +kernel
/-- 16 R410: MOVXW writes V[index]. -/
theorem test_movxw : after (exec (.movxw false (.v 2) (.lit32 9)) alu) (fun t => (shapeOf t 7).val 1 == 9 && (shapeOf t 7).val 5 == 0) = true := by
  decide +kernel
/-- 03 R91, 11 R294: an affine source of a uniform-encoded instruction faults. -/
theorem test_uniform_operand : (inPass alu (fun p => p.trappable && p.g.regs.length == 64) &&
    after (exec (.iadd ⟨true, false, .v 1, .v 3, .v 2⟩ false) alu) fun t => inGroup t fun g =>
      match g.pend with | [f] => f.faults == faultsOf 15 .uniformOperand 0 | _ => false) = true := by decide +kernel
/-- 03 R92: the tags of MOV, AFF, IMUL and of a full general result, and the premise of their statement. -/
theorem test_result_tags : inPass alu (fun p => laneReady alu p (row3 (r3 1 3 2) fun _ _ => 0) && p.ex == p.g.active && p.g.tile == 32 &&
    after (exec (.mov (r2 1 3) false) alu) (fun t => shapeOf t 1 == .affine 10 4) && after (exec (.imul (r3 1 3 2)) alu) (fun t => shapeOf t 1 == .affine 70 28) &&
    after (exec (.popc (r2 1 2)) alu) fun t => (shapeOf t 1).tag == 2) = true := by decide +kernel
/-- A row is ready and leaves its destination, V1, with a tag. -/
def tagsOf (s : State) (i : Instr) (r : Option LaneRow) (tag : Nat) : Bool :=
  match r with
  | some r => inPass s (fun p => laneReady s p r) && after (exec i s) fun t => (shapeOf t 1).tag == tag
  | none => false
/-- 03 R92: every other instruction is general; UNIF and a floating-point REDX of TILE 32 are uniform. -/
theorem test_result_tags_others : (tagsOf alu (.imulh (r3 1 3 2) false) (intRow (.imulh (r3 1 3 2) false)) 2 &&
    tagsOf alu (.iadd (r3 1 3 2) true) (intRow (.iadd (r3 1 3 2) true)) 2 && tagsOf alu (.rank false (.v 1) (.v 5) 0) (crossRow (.rank false (.v 1) (.v 5) 0)) 2 &&
    tagsOf alu (.ssint false (.v 1) (.v 2) (.v 3)) (some (ssintRow false (.v 1) (.v 2) (.v 3))) 2 && tagsOf alu (.movx false false (.v 1) (.v 2)) (moveRow alu (.movx false false (.v 1) (.v 2))) 2 &&
    tagsOf (alu.modGroup 0 0 (regs [(1, .affine 9 0)])) (.unif 1 false) (moveRow (alu.modGroup 0 0 (regs [(1, .affine 9 0)])) (.unif 1 false)) 0 &&
    tagsOf fp (.redx false (.v 1) (.v 2) 8) (crossRow (.redx false (.v 1) (.v 2) 8)) 0 && tagsOf alu (.imul (r3 1 3 3)) (intRow (.imul (r3 1 3 3))) 2 &&
    tagsOf alu (.shl (r3 1 5 2) false) (bitRow (.shl (r3 1 5 2) false)) 2 && tagsOf alu (.iadd (r3 1 5 2) false) (intRow (.iadd (r3 1 5 2) false)) 2 &&
    let m : R3 := ⟨false, false, .v 4, .v 2, .v 3⟩
    inPass alu (fun p => match intRow (.imad m true) with | some q => laneReady alu p q | none => false) &&
      after (exec (.imad m true) alu) fun t => (shapeOf t 4).tag == 2 && (shapeOf t 5).tag == 2) = true := by decide +kernel
/-- 03 R97, 01 R12, R27: MOVS of special registers of each tag; 200 is core 8 of die 1, cluster 50. -/
theorem test_place_ready : inPass alu (fun p => p.orderly && !(alu.core 0).bHeld p.gid p.g 1 && !(alu.core 0).bHeld p.gid p.g 2 &&
    after (exec (.movs false false (.v 2) 0x28) alu) fun t => shapeOf t 2 == .uniform 1 && shapeOf t 3 == .uniform 0) = true := by decide +kernel
theorem test_special_registers :
    let s := (alu.modGroup 0 0 fun g => { g with fpc := 0x500000004, cl := 3, cp := 9, placed := true, region := some { rgpc := 0x40, members := 15, ckpt := [], parked := 0 } }).modGroup 0 0
      fun g => g.modThs 15 fun i t => { t with tix := BitVec.ofNat 16 (8 + i) }
    (after (exec (.movs false false (.v 2) 0x20) s) (fun t => shapeOf t 2 == .uniform 4 && shapeOf t 3 == .uniform 5) &&
      after (exec (.movs false false (.v 2) 0x0E) s) (fun t => shapeOf t 2 == .uniform 0x03000009) && after (exec (.movs false false (.v 2) 0x01) s) (fun t => shapeOf t 2 == .uniform 4) &&
      after (exec (.movs false false (.v 2) 0x02) s) (fun t => shapeOf t 2 == .affine 8 1) && after (exec (.movs true false (.v 2) 0x02) s) (fun t => shapeOf t 2 == .uniform 8) &&
      after (exec (.movs false false (.v 2) 0x15) s) (fun t => (shapeOf t 2).tag == 2) && after (exec (.movs false false (.v 2) 0x2E) s) (fun t => shapeOf t 2 == .uniform 0x40) &&
      inPass s fun p => (slotsOf p.ex).all fun i => (p.g.th i).tix.toNat + lowSlot p.ex == (p.g.th (lowSlot p.ex)).tix.toNat + i) = true := by decide +kernel

/-! ## Memory instructions -/

/-- A core whose L1 TLB maps the 2 MiB page at 0x200000 to host memory from 0. -/
def mapped (k : Core) : Core := { k with tlb := [{ ctx := 0, vbase := 1, bits := 21, host := true, pbase := 0, rd := true, w := true, x := true }] }

/-- Position 2 of 5: V2:V3 the address 0x200000 + 4 s, V4 the scratchpad address 4 s, V6:V7 data. -/
def mem : State := at_ 2 mapped (regs [(2, .affine 0x200000 4), (3, .uniform 0), (4, .affine 0 4), (6, .affine 50 1), (7, .uniform 0)])

/-- Device memory from 0 as region 0 of virtual device 0, and page tables of context 0 at 0x40000 that map its
first GiB to host memory from 0 (06 R171, R172). -/
def paged (s : State) : State :=
  { s with
    regions := [(0, { valid := true, stkset := 1, size := 0x1000000 })]
    dmem := cellsSet (cellsSet (cellsSet s.dmem 0x40000 (leBytes 8 0x41001)) 0x41000 (leBytes 8 0x42001)) 0x42000 (leBytes 8 0x11F) }.modCtx 0
      fun x => { x with root := 0x40000 }

def ldg : Ld := ⟨false, 6, 1, .v 2, .imm 0⟩
def lds : Ld := ⟨false, 6, 1, .v 4, .imm 0⟩

/-- 15 R398, R399: a load breaks the clause; one charged to token 2 counts four units and goes on. -/
theorem test_load_ready : inPass mem (fun p => loadReady mem p ldg { space := .global, n := 4 } && loadReady mem p lds { space := .scratch, n := 4 } &&
    p.g.settled && goes (exec (.ldgB32 ldg) mem) ((mem.withLoads p ldg { space := .global, n := 4 } none).leaves p (.ldgB32 ldg)
      ((p.g.spreads ldg { space := .global, n := 4 }).waitThs p.ex .load) .load)) = true := by decide +kernel
theorem test_token_load : after (exec (.ldsB32 { lds with t := 2 }) mem) (fun t => inGroup t fun g => g.tokens == [0, 0, 4, 0, 0, 0] && (g.th 0).pc == 0x10008
    && (g.reg 1).shape.tag == 2) = true := by decide +kernel
/-- The premises of a load's return hold for one unit of its pass, and the unit returns what its place holds. -/
def loadReturns (s : State) (i : Instr) (m : Ld) (k : LdKind) (n : Nat) : Bool :=
  inPass s fun p => loadReady s p m k && p.g.settled && p.g.regs.length == 64 &&
    ((destRegs m.d.toNat k.n).all fun r => decide (r < 64) && !(s.core p.core).bHeld p.gid p.g r) &&
    match (s.loadUnits p m k)[n]? with
    | none => false
    | some u =>
      let l := p.pending m k (if m.t.toNat < 6 then some m.t.toNat else none) (s.nextId + n) u
      s.loadClear p.core l && s.loadGood p.core p.g.ctx l &&
        after (exec i s) fun t => after (exec (.loadDataReturn p.core (s.nextId + n) false) t) fun t' => inGroup t' fun g =>
          (m.t.toNat < 6 || (g.th u.1).wait == .none) && (destRegs m.d.toNat k.n).all fun r =>
            (g.reg r).shape.val u.1 == l.word (s.loadBytes p.core p.g.ctx l) (r - m.d.toNat)

/-- 06 R161, R164, R185: a global load, an acquiring one, a token one of the scratchpad, one of an accumulator. -/
theorem test_loads_return :
    let s : State := { (mem.hostSet 0 (leBytes 16 0x44332211887766550000000099)).scratchSet 0 0 (leBytes 16 0x1234567890) with parts := [(0, { b := 0x8000000000 })] }
    (loadReturns s (.ldgB32 { ldg with t := 6 }) { ldg with t := 6 } { space := .global, n := 4 } 2 &&
      loadReturns s (.ldgAcq { ldg with t := 6 }) { ldg with t := 6 } { space := .global, n := 4, acq := true } 3) = true ∧
    (loadReturns s (.ldsB8 { lds with t := 2 }) { lds with t := 2 } { space := .scratch, n := 1 } 1 &&
      loadReturns s (.lda { lds with t := 6 }) { lds with t := 6 } { space := .acc, n := 4 } 0) = true := by decide +kernel
theorem test_pfg_ready : inPass mem (fun p => p.orderly && operandsOk false [(p.areg (.v 2) true, true)] &&
    decide ((mem.core (mem.l1Of 0)).l1Held.length + (unitsOf false p.ex).length ≤ Config.l1Lines) &&
    !mem.l1Bypassed 0 p.g.launch && decide (mem.pwrStep < 2) &&
    (match mem.translate 0 0 p.g.walkHits .rd 0x200000 with | .ok pa => pa == ⟨true, 0⟩ && !mem.ueByte pa && !mem.ueBytes ⟨true, 124⟩ 4 | _ => false) &&
    after (exec (.pfg false true (.v 2) (.imm 0)) mem) fun t => (t.core 0).l1.any fun y => y.pa == ⟨true, 124⟩) = true := by decide +kernel
/-- 06 R161 to R170: an address of each space; 0x200000 + 4 · 3, word 12, and an accumulator address outside the quota. -/
theorem test_addresses : inPass mem (fun p =>
    (match mem.resolve p .global .rd 0 4 (.imm 0) (p.areg (.v 2) true) 3 with | .at_ ea pl => ea == 0x20000C && pl.pa == ⟨true, 12⟩ | _ => false) &&
    (match mem.resolve p .scratch .rd 0 4 (.imm 0) (p.areg (.v 4) false) 3 with | .at_ ea pl => ea == 12 && pl.pa.addr == 12 | _ => false) &&
    match mem.resolve p .global .rd 0 8 (.imm 0) (p.areg (.v 2) true) 1 with | .bad f ea => f == .align && ea == 0x200004 | _ => false) = true := by decide +kernel

/-- Where group 0's access of slot 0, at the address in V2 and V3 or in V4, faults. -/
def faultsAt (s : State) (sp : Space) (k : AK) (n : Nat) (pair : Bool) (f : FCode) : Bool :=
  inPass s fun p => match s.resolve p sp k 0 n (.imm 0) (p.areg (.v (if pair then 2 else 4)) pair) 0 with | .bad e _ => e == f | _ => false
/-- `mem` with V2, V3 and V4 set. -/
def memAt (lo hi near : Word) : State := mem.modGroup 0 0 (regs [(2, .uniform lo), (3, .uniform hi), (4, .uniform near)])
/-- 11 R293, 06 R163 to R175, 01 R35, R38: each fault of an address at a boundary of its rule. -/
theorem test_address_faults :
    let dev (s : State) : State := s.modCore 0 fun k => { k with tlb := k.tlb.map fun e => { e with host := false } }
    let own (s : State) (o : BitVec 6) : State := { s with regions := [(0, { valid := true, stkset := 1, size := 0x1000000, owner := o })] }
    (faultsAt (memAt 0x200002 0 0) .global .rd 4 true .align && faultsAt (memAt 0 0x01000000 0) .global .rd 4 true .page &&
      faultsAt (mem.modCtx 0 fun x => { x with cmapva := 0x200000 }) .global .wr 4 true .prot &&
      faultsAt (mem.modCore 0 fun k => { k with tlb := k.tlb.map fun e => { e with w := false } }) .global .wr 4 true .prot && faultsAt (dev mem) .global .rd 4 true .prot &&
      faultsAt ((mem.modCore 0 fun k => { k with tlb := [] }).modGroup 0 0 fun g => { g with walkFaults := [(0x200, .page)] }) .global .rd 4 true .page &&
      faultsAt (memAt 0 0 6) .scratch .rd 4 false .align && faultsAt (memAt 0 0 0x100000) .scratch .rd 4 false .scratchRange && faultsAt mem .acc .rd 4 false .accRange &&
      (own mem 1).checkPa 0 ⟨false, 0⟩ == some .prot && mem.checkPa 0 ⟨false, 0⟩ == some .prot && (own mem 0).checkPa 0 ⟨false, 0⟩ == none &&
      after (exec (.stackLoss 0) (own mem 0)) (fun t => t.checkPa 0 ⟨false, 0⟩ == some .memLost) &&
      after (exec (.dieLoss 0) (own mem 0)) fun t => t.checkPa 0 ⟨false, 0⟩ == some .dieLost) = true := by decide +kernel
/-- 11 R294, R295: a pass all of whose threads fault ALIGN stays, the faults pending; with SCRATCH_RANGE the context stops. -/
theorem test_access_faults :
    let a := (memAt 0x200001 0 0).modGroup 0 0 fun g => { g with trapv := 0x8000 }
    let b := memAt 0 0 0x100000
    let lds : Ld := ⟨false, 6, 1, .v 4, .imm 0⟩
    (inPass a (fun p => p.trappable && (match a.accessUnits p (.ldgB32 ⟨false, 6, 1, .v 2, .imm 0⟩) with
        | some (true, us) => !us.isEmpty && us.all fun u => match u.2.2 with | .bad f _ => f == .align | _ => false
        | _ => false)) && after (exec (.ldgB32 ⟨false, 6, 1, .v 2, .imm 0⟩) a) (fun t => inGroup t fun g => g.pend.length == 1 && (g.th 2).pc == 0x10004) &&
      inPass b (fun p => p.g.unstepped && !p.g.handler && (b.ctx 0).st == .active && (b.ctx 0).code.isNone && (match b.accessUnits p (.ldsB32 lds) with
        | some (true, us) => us.all fun u => match u.2.2 with | .bad f _ => f == .scratchRange | _ => false
        | _ => false)) && after (exec (.ldsB32 lds) b) fun t => (t.ctx 0).st == .saving && (t.ctx 0).code == some .scratchRange && (t.ctx 0).stoppc == 0x10004) = true := by
  decide +kernel

def stg : St := ⟨false, 0, .v 6, .v 2, .imm 0⟩
def sts : St := ⟨false, 0, .v 6, .v 4, .imm 0⟩

/-- 17 R446: stores issue, and change the bytes of their parts only. -/
theorem test_store_ready : mem.homesOk && inPass mem (fun p => storeReady mem p stg .global 4 && storeReady mem p sts .scratch 4 &&
    goes (exec (.stsB32 sts) mem) (((mem.touchParts p (mem.storedParts p sts .scratch 4)).withStores p sts .scratch (mem.storedParts p sts .scratch 4)).passes p (.stsB32 sts) p.g) &&
    goes (exec (.stgB32 stg) mem) (((mem.touchParts p (mem.storedParts p stg .global 4)).withStores p stg .global (mem.storedParts p stg .global 4)).passes p (.stgB32 stg) p.g)) = true := by decide +kernel
theorem test_store_bytes : after (exec (.stsB32 sts) mem) (fun t => t.scratchGet 0 8 4 == [52, 0, 0, 0] && cellGet (t.core 0).scratch 16 == 0 &&
    t.homeByte ⟨true, 0⟩ == mem.homeByte ⟨true, 0⟩) = true := by decide +kernel
theorem test_store_in_region :
    let s := mem.modGroup 0 0 fun g => { g with region := some { rgpc := 0x10000, members := 15, ckpt := [], parked := 0 } }
    inPass s (fun p => storeReady s p stg .global 4 && goes (exec (.stgB32 stg) s)
      ((s.looks p none (s.storeUnits p stg .global 4)).passes p (.stgB32 stg) (p.g.buffers p stg (s.storedParts p stg .global 4)))) = true := by decide +kernel
theorem test_store_effect_premises : mem.memoryWf = true ∧ mem.storeHeld 0 0 15 ⟨.scratch, 0, ⟨false, 8⟩, 4⟩ = false ∧ fenceAcq 1 = true := by decide +kernel
/-- 14 R363: fetch-and-add of scratch word 8 holding 52. -/
theorem test_scratch_atomic :
    let a : PAtom := { id := 9, ctx := 0, launch := 0, gid := 0, slot := 0, mask := 1, uni := false, red := false, space := .scratch, aop := 0, w := false, ea := 8
                       pa := ⟨false, 8⟩, tgtCore := 0, opnd := 5, swap := 0, dst := 1, pc := 0 }
    let s := mem.scratchSet 0 8 [52, 0, 0, 0]
    (s.memoryWf && match s.atomEvent 0 a with | .done old t => old == 52 && t.scratchGet 0 8 4 == [57, 0, 0, 0] | _ => false) = true := by decide +kernel

def atm : Atm := ⟨false, 0, false, 6, .v 2, 0⟩

/-- 14 R362, 16 R428. -/
theorem test_atomic_ready : inPass mem (fun p => atomReady mem p atm true && p.g.settled && atomReady mem p { atm with a := .v 4 } false &&
    goes (exec (.redg atm) mem) ((mem.withAtoms p atm true true).passes p (.redg atm) p.g) &&
    goes (exec (.atg atm) mem) ((mem.withAtoms p atm true false).leaves p (.atg atm) (p.g.waitThs p.ex .atomic) .load)) = true := by decide +kernel

/-- The premises of an atomic's event hold for one unit of its pass, and the event finds old and leaves Op(old, D). -/
def atomTakes (s : State) (i : Instr) (m : Atm) (glob red : Bool) (n : Nat) : Bool :=
  s.memoryWf && inPass s fun p => atomReady s p m glob &&
    match (s.atomUnits p m glob)[n]? with
    | none => false
    | some u =>
      let a := p.atomic m glob red (s.nextId + n) u
      let old := leNat (s.placeBytes a.place)
      s.atomClear p.core a && p.g.settled && p.g.regs.length == 64 &&
        (red || a.dests.all fun r => decide (r < 64) && !(s.core p.core).bHeld p.gid p.g r) &&
        after (exec i s) fun t => after (exec (if red then .reductionTakesEffect p.core a.id else .atomicResultReturn p.core a.id) t) fun t' =>
          t'.placeBytes a.place == leBytes a.nbytes (atomOp a.aop.toNat (8 * a.nbytes) old a.opnd.toNat a.swap.toNat) &&
          (red || inGroup t' fun g => (g.th u.1).wait == .none && (g.reg a.dst).shape.val u.1 == BitVec.ofNat 32 old)

/-- 14 R363, R365, 16 R428, R429: each of the four kinds at its home or in its scratchpad. -/
theorem test_atoms_take :
    let s : State := { (mem.hostSet 0 (leBytes 16 0x44332211887766550000000099)).scratchSet 0 0 (leBytes 16 0x1234567890) with
      regions := [(0, { valid := true, stkset := 1, size := 0x1000000 })] }
    (atomTakes s (.atg { atm with d := 1 }) { atm with d := 1 } true false 0 && atomTakes s (.redg atm) atm true true 1) = true ∧
    (atomTakes s (.ats { atm with d := 1, a := .v 4 }) { atm with d := 1, a := .v 4 } false false 1 &&
      atomTakes s (.reds { atm with a := .v 4 }) { atm with a := .v 4 } false true 0) = true := by decide +kernel

/-! ## Fences, waits, engines -/

/-- 15 R387: with nothing outstanding a fence acts; behind a load it waits. -/
theorem test_fence_ready : inPass mem (fun p => laneReady mem p { u := false } && p.g.redUeMask p.ex == 0 &&
    (let n := (mem.core 0).fenceNeeds 0 p.ex (p.g.fenceKind 3); n.1.isEmpty && n.2.1.isEmpty && n.2.2.isEmpty) &&
    (mem.core 0).fences.isEmpty && (mem.core 0).loads.isEmpty && !(mem.core 0).l1Dirty && mem.fenceIdle 0 0 p.ex (p.g.fenceKind 3) (scopeActs (p.fused mem) 2) &&
    after (exec (.fence false 3 2) mem) fun t => inGroup t fun g => (g.th 0).pc == 0x10008) = true := by decide +kernel
theorem test_fence_waits :
    let l : PLoad := { id := 3, gid := 0, slot := 0, mask := 1, uni := false, tok := some 0, space := .global, acq := false, ea := 0x200000, pa := ⟨true, 0⟩
                       srcCore := 0, nbytes := 4, sext := false, dst := 1, pc := 0 }
    let s := mem.modCore 0 fun k => { k with loads := [l] }
    (inPass s (fun p => laneReady s p { u := false } && p.g.settled && !((s.core 0).fenceNeeds 0 p.ex (p.g.fenceKind 3)).1.isEmpty) &&
      after (exec (.fence false 3 2) s) fun t => (t.core 0).fences.length == 1 && inGroup t fun g => (g.th 0).wait == .fence) = true := by decide +kernel

/-- 17 R454: WAITC #0 of class CP goes on with no operation, and waits behind one. -/
theorem test_waitc_ready : inPass mem (fun p => laneReady mem p { u := false, srcs := [(.lit32 0, false)], forceUni := true } &&
    (p.g.asyncFaults.find? (·.cls == 0)).isNone && after (exec (.waitc false (.lit32 0) 0) mem) fun t => inGroup t fun g => (g.th 0).pc == 0x1000C) = true := by
  decide +kernel
theorem test_waitc_waits :
    let s := mem.modGroup 0 0 fun g => { g with cp := 1 }
    inPass s (fun p => p.g.settled && goes (exec (.waitc false (.lit32 0) 0) s) (s.stays p (.waitc 0 0))) = true := by decide +kernel
/-- 17 R452: WAITA.EQ of memory that holds D. -/
theorem test_waita_ready : mem.homesOk && inPass mem (fun p => (mem.waitUnits p false (.v 2)).all (fun (_, _, r) => r.reached) &&
    (let rs := mem.waitReads p (mem.waitUnits p false (.v 2)); laneReady mem p (waitaRow false false (.v 7) (.v 2) rs.1) && waitaMet p (.v 7) 0 rs.1) &&
    after (exec (.waita false false (.v 7) (.v 2) false 0) mem) fun t => inGroup t fun g => (g.th 0).pc == 0x10008) = true := by decide +kernel

/-- 16 R405: MBIND.N and MBIND of the quartet of group 0 alone; ACLR of no tile. -/
theorem test_async_ready : inPass mem (fun p => laneReady mem p (asyncRow (.lit32 0)) &&
    goes (exec (.aclr (.lit32 0)) mem) (mem.passes p (.aclr (.lit32 0)) p.g)) = true := by decide +kernel

/-! ## Transfers, exits, scopes, groups -/

/-- Position 5 of 5. -/
def last : State := at_ 5 mapped (regs [(2, .uniform 0x210000), (3, .uniform 0), (4, .uniform 0)])

/-- A clause header at 0x210000, which host address 0x10000 holds: COUNT 1, LAND. -/
def landed : State := last.hostSet 0x10000 (leBytes 4 0xC0001031 ++ leBytes 4 0xD5000000)

/-- 14 R373: a branch not taken and one taken to a header. -/
theorem test_bra_ready : inPass last (fun p => p.orderly &&
    takenOf p ⟨false, 0, true, 0⟩ == 0 && goes (exec (.bra ⟨false, 0, true, 0⟩) last) (last.goesTo p (.bra ⟨false, 0, true, 0⟩) p.g (p.noRes (.bra ⟨false, 0, true, 0⟩)) fun _ => p.cl.next)) = true := by
  decide +kernel
theorem test_bra_taken :
    let f : Bra := ⟨false, 7, true, -0x40⟩
    let s := (landed.modGroup 0 0 fun g => { g with clause := g.clause.map fun c => { c with next := 0x210100 } })
    inPass s (fun p => takenOf p f == 15 && (match s.codeAt p (p.cl.next + BitVec.ofInt 64 (4 * f.disp.toInt)) .misalignedPc false with
      | .at_ _ pl => goes (exec (.bra f) s) ((s.touchPlace p pl).goesTo p (.bra f) p.g (p.noRes (.bra f)) fun _ => 0x210000)
      | _ => false) && !s.linkHeld p) = true := by decide +kernel
/-- 15 R394, 14 R375: JMPR and CALLR to a LAND header link and jump. -/
theorem test_jmpr_ready : inPass landed (fun p => laneReady landed p { u := false, srcs := [(.v 2, true)] } &&
    (landed.jumpUnits p false (.v 2) .landing true).all (fun (_, _, r) => r.placed) && !landed.linkHeld p &&
    after (exec (.callr false (.v 2)) landed) fun t => inGroup t fun g => (g.th 0).pc == 0x210000 && (g.reg 62).shape.val 0 == 0x10008) = true := by decide +kernel

/-- 15 R381: one thread of four exits; all four exit; inside a region they exit later. -/
theorem test_exit_ready :
    let s := last.modGroup 0 0 fun g => g.modThs 14 fun _ t => { t with pc := 0x20000 }
    inPass s (fun p => p.orderly && (s.core 0).loading 0 p.ex == 0 && p.g.dueMask p.ex == 0 && p.ex != p.g.active &&
      ((s.core 0).blocks.all fun b => b.barArrived == 0) &&
      goes (exec (.exit false) s) ((s.exited p).goesTo p (.exit false) (p.g.exits p.ex) (p.noRes (.exit false)) fun _ => p.cl.pc)) = true := by decide +kernel
theorem test_exit_last : inPass last (fun p => p.ex == p.g.active && p.cl.pos == p.cl.count && p.g.countersZero && p.g.holdsState &&
    p.g.quartet.isNone && p.g.asyncFaults.isEmpty &&
    let t := (last.exited p).goesTo p (.exit false) (p.g.exits p.ex) (p.noRes (.exit false)) fun _ => p.cl.pc
    goes (exec (.exit false) last) ((({ t with nextId := t.nextId + 1 } : State).modCore 0 fun k =>
      ({ k with groups := alDel 0 k.groups } : Core).rekey 0 fun m => [(128 + t.nextId, m)]).tryRetireBlock 0 p.g.blk)) = true := by decide +kernel
theorem test_exit_region :
    let s := last.modGroup 0 0 fun g => { g with region := some { rgpc := 0x10000, members := 15, ckpt := [], parked := 0 } }
    inPass s (fun p => p.orderly && goes (exec (.exit false) s) (s.goesTo p (.exit false) { p.g.exits p.ex with region := some { rgpc := 0x10000, members := 15, ckpt := [], parked := 0, exits := 15 } } (p.noRes (.exit false)) fun _ => p.cl.pc)) = true := by decide +kernel

/-- 17 R439: the pushes go to the meet stacks of context 0 at 0x200000. -/
theorem test_setm_ready :
    let s := mem.modCtx 0 fun x => { x with meetbase := 0x200000 }
    inPass s (fun p => p.orderly && (s.pushUnits p).all (fun (_, _, r) => r.placed) && goes (exec (.setm 2) s)
      (((s.touchAll p (s.pushUnits p)).issuePushes p (s.pushUnits p)).passes p (.setm 2) (p.g.modThs p.ex fun _ t => { t with meet := dispTarget p 2, nest := t.nest + 1, wait := .setm }))) = true := by decide +kernel
/-- 02 R65: slot 0, whose NEST is 255, faults alone. -/
theorem test_setm_overflow :
    let s := (mem.modCtx 0 fun x => { x with meetbase := 0x200000 }).modGroup 0 0 fun g => g.modTh 0 fun t => { t with nest := 255 }
    (inPass s (fun p => p.g.unstepped && p.g.debugEdits.isEmpty && !p.g.handler && (s.ctx 0).st == .active && (s.ctx 0).code.isNone &&
      (slotsOf p.ex).all fun i => (p.g.th i).nest == 255 || (s.pushAt p i).placed) && after (exec (.setm 2) s) fun t => (t.ctx 0).code == some .nestOverflow &&
      (t.core 0).pushes.map (·.slot) == [1, 2, 3] && inGroup t fun g => (g.th 0).pc == 0x10004 && (g.th 0).nest == 255 && (g.th 1).nest == 1 && (g.th 1).pc == 0x10008) = true := by
  decide +kernel
/-- 15 R396. -/
theorem test_join_ready : inPass mem (fun p => p.orderly && p.g.settled && laneReady mem p { srcs := [(.lit32 4, false)], forceUni := true } &&
    goes (exec (.join (.lit32 4)) mem) (mem.joins p (.join (.lit32 4)) (some 4) 7) && goes (exec (.leave 2) mem) (mem.joins p (.leave 2) none 2)) = true := by
  decide +kernel
/-- 14 R367: target 8 waits for more arrivals; target 0 of a block of four is met. -/
theorem test_bar_ready : inPass mem (fun p => laneReady mem p { srcs := [(.lit32 8, false)], forceUni := true } && p.g.region.isNone && p.g.settled &&
    after (exec (.bar (.lit32 8)) mem) (fun t => inGroup t fun g => g.wait == .bar 15 0x10004) &&
    after (exec (.bar .zero) mem) fun t => inGroup t (fun g => g.wait == .none) && ((t.core 0).block? 0).map (·.barGen) == some 1) = true := by decide +kernel
/-- 14 R367: an instance below its target (0 and above), one that meets it exactly, with a waiting group. -/
theorem test_barrier_cases :
    let b (n : Nat) (target : Word) : State := (mem.modCore 0 fun k => k.modBlock 0 fun b => { b with barArrived := n, barTarget := target }).modGroup 0 0
      fun g => { g with wait := .bar 15 0x10004, clause := none }
    (decide ((b 3 0).checkBarrier 0 0 = b 3 0) && decide ((b 7 8).checkBarrier 0 0 = b 7 8) &&
      (((b 4 0).checkBarrier 0 0).group? 0 0).map (·.wait) == some .none && (((b 8 8).checkBarrier 0 0).group? 0 0).map (·.wait) == some .none) = true := by
  decide +kernel

/-- Channel 3 configured over row 0 with two words in it. -/
def chan : State := (mem.scratchSet 0 0 (leBytes 4 11 ++ leBytes 4 12 ++ leBytes 4 13 ++ leBytes 4 14)).modCore 0 fun k => k.modBlock 0 fun b =>
  { b with chans := listMod b.chans 3 fun _ => { valid := true, count := 4, hi := 0, nrow := 1 } }

/-- 02 R75: a non-uniform pop gives the words in slot order, a uniform one the first; a push appends. -/
theorem test_channel_ready : inPass chan (fun p => p.g.region.isNone && laneReady chan p (popRow chan false false 1 3) && laneReady chan p { u := false, srcs := [(.v 6, false)] } &&
    (chan.popCol 0 (chan.blockOf 0 p.g) 3 false p.ex 0).ue == 0 && decide (chanWords false p.ex ≤ 4) &&
    after (exec (.mov ⟨false, false, .v 1, .q 3⟩ false) chan) (fun t => (shapeOf t 1).val 2 == 13 && (((t.core 0).block? 0).map fun b => (b.chans.getD 3 {}).count) == some 0) &&
    after (exec (.mov ⟨false, false, .q 3, .v 6⟩ false) chan) fun t => t.scratchGet 0 20 4 == [51, 0, 0, 0] &&
      (((t.core 0).block? 0).map fun b => (b.chans.getD 3 {}).count) == some 8) = true := by decide +kernel
/-- 16 R423, R424: a configuration of row 0 that no rule refuses, and QCFG.OFF of an unconfigured channel. -/
theorem test_qcfg_ready : inPass mem (fun p => laneReady mem p { u := true, srcs := [(.lit32 0x00000100, false)] } && laneReady mem p { u := true } &&
    !((mem.blockOf 0 p.g).chans.getD 5 {}).valid) = true := by decide +kernel

/-- 17 R456, 16 R414: YLD, an offer that does not count (it is not the whole group), NAP for 1,000 cycles. -/
theorem test_yld_ready : inPass mem (fun p => p.orderly && p.g.settled && p.g.region.isNone && p.g.asyncFaults.isEmpty && mem.offerCounts p && (mem.reassign p).isNone &&
    goes (exec (.yld false true) mem) (mem.yields p (.yld false true)) &&
    laneReady mem p { u := false, srcs := [(.lit32 1000, false)], forceUni := true } &&
    goes (exec (.nap false (.lit32 1000) true) mem) (mem.leaves p (.nap false (.lit32 1000) true) p.g (.nap (some 1000) true (mem.mapchg (mem.ctx 0))))) = true := by decide +kernel
theorem test_offer_not_counted :
    let s := mem.modGroup 0 0 fun g => { g with cp := 1 }
    inPass s (fun p => !s.offerCounts p && after (exec (.yld false true) s) fun t => inGroup t fun g => g.ylast) = true := by decide +kernel

/-! ## Traps and system instructions -/

/-- Position 2 with a trap vector. -/
def trapped : State := at_ 2 mapped fun g => { g with trapv := 0x210000 }

/-- 17 R448, 14 R372: the pass is trappable, in the middle of its clause and at its end; a debugged context's threads halt. -/
theorem test_trap_ready : (inPass trapped (fun p => p.trappable && goes (exec (.trap false 9) trapped) (trapped.faulted p (.trap false 9) (faultsOf 15 .trap 0)))
    && inPass (at_ 5 id fun g => { g with trapv := 4 }) (fun p => p.trappable && goes (exec .bkpt (at_ 5 id fun g => { g with trapv := 4 }))
      ((at_ 5 id fun g => { g with trapv := 4 }).faulted p .bkpt (faultsOf 15 .bkpt 0)))) = true := by decide +kernel
theorem test_bkpt_debugged :
    let s := mem.modCtx 0 fun x => { x with dbgVd := some 0 }
    (inPass s (·.orderly) && after (exec .bkpt s) fun t => inGroup t fun g => (g.th 0).halted && (g.th 0).pc == 0x10008) = true := by decide +kernel

/-- Group 0 without a running clause. -/
def idle0 : State := (at_ 2 mapped id).modGroup 0 0 fun g => { g with clause := none }

/-- A group of one active thread, in slot 1, without a clause, its fault pending at position 2; the trap area is at 0x200000. -/
def pending : State := (((paged (at_ 2 mapped fun g => { g with trapv := 0x210000, pend := [⟨2, 0x10004, 0xF0000000, [⟨1, .trap, 0⟩]⟩] })).modCtx 0 fun x =>
  { x with trapbase := 0x200000 }).modGroup 0 0 fun g => { g.modThs 13 (fun _ t => { t with st := .exited }) with clause := none })

/-- 11 R296, R297. -/
theorem test_trap_entry_ready : (match pending.group? 0 0 with
    | some g => match g.firstFault with
      | some f => pending.trapReady 0 0 g && g.dueMask g.active == 0 && match pending.trapWrites 0 0 g (g.takeTrap f) (slotsOf g.handlerSet) with
        | .ok t => !pending.heldMore t && goes (exec (.trapEntry 0 0) pending) (t.setGroup 0 0 (g.takeTrap f)) && (g.takeTrap f).fmask == 2
        | _ => false
      | none => false
    | none => false) = true := by decide +kernel
/-- 16 R434: RTE in a handler. -/
theorem test_rte_ready :
    let s := at_ 5 id fun g => { g with handler := true, hset := 31 }
    inPass s (fun p => p.orderly && p.g.handler && goes (exec (.rte true) s)
      (s.goesTo p (.rte true) { p.g with rteDone := 15, rteSkip := 15 } (p.noRes (.rte true)) fun _ => p.cl.pc)) = true := by decide +kernel
/-- 11 R301: with every thread of the handler set back, the next issue runs from the saved PCs. -/
theorem test_rte_returns :
    let s := (idle0.hostSet 0x10000 (leBytes 4 0xC0001031 ++ leBytes 4 0xD5000000)).modGroup 0 0 fun g =>
      { g with handler := true, hset := 15, rteDone := 15, fmask := 1, rteSkip := 0, tpc := List.replicate 32 0x210000 }
    (match s.group? 0 0 with
      | some g => let t := s.setGroup 0 0 (g.returnTrap (s.insnAfter 0 g));
        g.rteReady && s.skipMiss 0 g == none && decide (s.recompute 0 0 = t) && s.mayIssue 0 0 && t.mayIssue 0 0 &&
          (match t.issueFetch 0 0 with | .hdr pc _ _ => pc == 0x210000 | _ => false) && after (exec (.fullIssue 0 0) s) fun u => inGroup u fun g => !g.handler && (g.th 2).pc == 0x210004
      | none => false) = true := by decide +kernel
/-- 10 R288. -/
theorem test_rgna_ready :
    let s := at_ 5 id fun g => { g with region := some { rgpc := 0x10000, members := 15, ckpt := List.replicate 32 (5, 0), parked := 0 } }
    (inPass s (fun p => p.orderly && !p.g.restart && !p.g.handler && !(s.core 0).spills.any (fun x => x.gid == 0)) &&
      after (exec (.rgna false) s) fun t => inGroup t fun g => g.restart && (g.th 0).pc == 0x10000 && (g.th 0).meet == 5) = true := by decide +kernel
/-- 11 R295, R299: the premises; a trap with TRAPV 0 at the end of the clause and one in a handler stop the context. -/
theorem test_stops :
    let s := at_ 5 id id
    let h := at_ 2 id fun g => { g with handler := true }
    (inPass s (fun p => p.ex != 0 && p.g.unstepped && (s.ctx 0).st == .active && (s.ctx 0).code.isNone && p.g.trapv == 0 && p.g.pend.isEmpty &&
      p.g.debugEdits.isEmpty && p.cl.pos == p.cl.count && !p.cl.re) &&
      after (exec (.trap false 0) s) (fun t => (t.ctx 0).st == .saving && (t.ctx 0).code == some .trap) &&
      after (exec (.trap false 0) h) fun t => (t.ctx 0).st == .saving && (t.ctx 0).code == some .doubleFault && inGroup t fun g => g.clause.isNone) = true := by decide +kernel
theorem test_register_word_stops :
    let s := at_ 2 id fun g => g.setReg 2 { shape := .uniform 0, ue := 2 }
    (inPass s (fun p => (p.src (.v 2) false).ue &&& p.ex != 0) &&
      after (exec (.iadd (r3 1 2 2) false) s) fun t => (t.ctx 0).st == .saving && (t.ctx 0).code == some .memUe && (t.ctx 0).stoppc == 0x10004) = true := by decide +kernel

/-- 14 R376: version 1 of the map acknowledged once, then not again. -/
theorem test_cmack_ready : inPass mem (fun p => laneReady mem p { u := false, srcs := [(.lit64 1, true)], forceUni := true } &&
    after (exec (.cmack false (.lit64 1)) mem) (fun t => (t.ctx 0).ackv == 1) && after (exec (.cmack false (.lit64 2)) mem) fun t => (t.ctx 0).ackv == 0) = true := by
  decide +kernel
/-- 15 R402. -/
theorem test_lnch_ready : inPass mem (fun p => p.g.settled && p.g.region.isNone && laneReady mem p (lnchRow false (.v 1) .zero .zero) &&
    inAlloc (mem.blockOf 0 p.g).rows.length 0 64 && !mem.scratchUeAt 0 ((mem.blockOf 0 p.g).local 0) 64 &&
    !(mem.core 0).storeBlocked 0 0 p.ex ⟨.scratch, 0, ⟨false, (mem.blockOf 0 p.g).local 0⟩, 64⟩ &&
    after (exec (.lnch false (.v 1) .zero .zero) mem) fun t => (t.core 0).lnchs.length == 1 && inGroup t fun g => g.wait == .load) = true := by decide +kernel

/-! ## Engines -/

/-- A CPY of 8 bytes from scratch word 16 to scratch word 32, its block at 0 (08 R232). -/
def copyBlock : List Byte := leBytes 4 3 ++ leBytes 4 8 ++ leBytes 4 0x10001 ++ leBytes 8 0x40 ++ leBytes 44 0x80
def eng : State := (mem.scratchSet 0 0 (copyBlock ++ leBytes 4 77)).modCore 0 fun k => { k with accP := [] }

/-- 08 R226 to R228. -/
theorem test_cpy_accepted : inPass eng (fun p => asyncReady eng p (.lit32 0) .cpy && eng.params p (.lit32 0) == copyBlock &&
    goes (exec (.cpy (.lit32 0)) eng) ((eng.withOp p (eng.accepted p .cpy copyBlock 0)).passes p (.cpy (.lit32 0)) (p.g.counts .cpy false))) = true := by
  decide +kernel
/-- 08 R239, R246: an accumulator of one tile; a quartet of one group per quadrant, bound and unbound. -/
theorem test_aclr_accepted :
    let s : State := { mem with parts := [(0, { b := 0x8000000000 })] }
    inPass s (fun p => laneReady s p (asyncRow (.lit32 1)) && decide (0 < s.accTiles 0) && s.hasRoom 0 p.g .aclr 0 && !s.classFaulted 0 0 p.g 2 &&
      goes (exec (.aclr (.lit32 1)) s) ((s.withOp p (s.accepted p .aclr [] 1)).passes p (.aclr (.lit32 1)) (p.g.counts .aclr false))) = true := by decide +kernel
theorem test_mbind :
    let w : Word := 0x60402000
    let s := mem.modCore 0 fun k => { k with groups := k.groups ++ [32, 64, 96].map fun n => (n, { ctx := 0, launch := 0, blk := 0 }) }
    let t := (s.modCore 0 fun k => k.bind w)
    inPass s (fun p => (s.core 0).bindOk 0 w && goes (exec (.mbind (.lit32 w) false) s) (t.passes p (.mbind (.lit32 w) false) { p.g with quartet := some w })) &&
      inPass t (fun p => (t.core 0).quartetBound 0 w && !(t.core 0).quartetBusy w && goes (exec (.mbind (.lit32 w) true) t)
        ((t.modCore 0 fun k => k.unbind w).passes p (.mbind (.lit32 w) true) { p.g with quartet := none })) = true := by decide +kernel

/-- One operation of the engines on core 0. -/
def op1 (op : EOp) (st : ESt) (ps : List Byte) : EngOp :=
  { id := 7, gid := 0, op, cls := op.cls, ctx := 0, launch := 0, blk := 0, pc := 0x10004, st, params := ps, mask := 1 }
def withOp1 (s : State) (o : EngOp) : State := (s.modCore 0 fun k => { k with ops := [o] }).modGroup 0 0 fun g => g.setCnt o.cls 1

/-- 08 R240, R241, R246: ACLR of tile 0 starts; an MMA of E4M3 consumes B; its buffer frees. -/
theorem test_port_starts :
    let o := op1 .aclr .accepted []
    let s := withOp1 mem o
    goes (exec (.accportOpStart 0) s) (s.modOp 0 7 fun o => { o with st := .started }) && !(s.core 0).mtBlocked o (o.tiles.take 1) = true := by decide +kernel
theorem test_b_consumed :
    let o := { op1 .mma .accepted (leBytes 4 0x133) with bbuf := true }
    let s := withOp1 mem o
    (!(s.core 0).bUe (quartetOf o.params) (mmaRegs o.params) (dimN o.params) && after (exec (.mmaBConsumed 0 7) s) fun t =>
      ((t.core 0).ops.map fun o => o.bcols.map (·.length)) == [some 32] && (t.core 0).ops.all (fun o => !(t.core 0).mtBlocked o (o.tiles.drop 1)) && goes (exec (.bBufferFree 0) t) (t.modOp 0 7 fun o => { o with bbuf := false })) = true := by
  decide +kernel
/-- 08 R232, R235: the copy's write, and its bytes applied. -/
theorem test_copy_run :
    let e := (op1 .cpy .accepted copyBlock).run 0 (eng.opBlock 0 (op1 .cpy .accepted copyBlock)) { s := eng }
    (e.writes == [.scr 128 (leBytes 8 77)] && e.fault.isNone && (eng.eApply 0 0 false [] e.writes).scratchGet 0 128 4 == [77, 0, 0, 0]) = true := by
  decide +kernel
/-- 08 R246, R247: one row of a drain writes its 32 elements as 128 bytes; a clear of no tile can finish. -/
theorem test_drain_pays :
    let o := op1 .adrn .started (leBytes 12 0 ++ leBytes 52 128)
    let s := withOp1 mem o
    let e := adrnRow 0 (s.opBlock 0 o) o (s.startRun 0 o) 0
    (o.live && (s.core 0).mayFinish o && !e.lost && e.fault.isNone && !e.wait && e.writes.length == 4) = true := by decide +kernel
theorem test_clear_pays :
    let o := { op1 .aclr .started [] with mask := 0 }
    let s := withOp1 mem o
    (o.live && (s.core 0).mayFinish o && (let e := s.payload 0 o; !e.lost && e.fault.isNone && !e.wait)) = true := by decide +kernel
/-- 08 R232, R250: an operation with its payload done ends; one with a completion word has only that left; a cancelled one retires. -/
theorem test_ops_end :
    let paid := op1 .cpy .paid copyBlock
    let word := op1 .cpy .paid (leBytes 4 0x4003 ++ leBytes 40 0 ++ leBytes 8 0x200000 ++ leBytes 12 9)
    let s := withOp1 mem word
    (paid.cword == none && after (exec (.asyncOpFinish 0 7) (withOp1 mem paid)) (fun t => (t.core 0).ops.isEmpty && inGroup t fun g => g.cp == 0 && g.globWr == 0) &&
      word.cword == some (0x200000, 9) && (s.core 0).olderDone word && !s.heldMore s &&
      after (exec (.asyncOpFinish 0 7) (withOp1 mem (op1 .gath .cancelled []))) fun t => (t.core 0).ops.isEmpty && inGroup t fun g => g.gt == 0) = true := by
  decide +kernel
/-- 08 R232, R249, R251: a completion word is written; an aborted COLL ends; a GATH whose index is out of range faults with subcode 6. -/
theorem test_completion_word :
    let word := op1 .cpy .paid (leBytes 4 0x4003 ++ leBytes 40 0 ++ leBytes 8 0x200000 ++ leBytes 12 9)
    let s := paged (withOp1 mem word)
    ((match s.gwrite 0 0 (.op 0 7) 0x200000 (leBytes 4 9) with | (.ok _, t) => !s.heldMore t | _ => false) &&
      after (exec (.asyncOpFinish 0 7) s) fun t => (t.core 0).ops.isEmpty && t.homeByte ⟨true, 0x200000⟩ == 9) = true := by decide +kernel
theorem test_coll_aborted :
    let o := { op1 .coll .accepted [] with aborted := true }
    let s := withOp1 mem o
    (o.live && (s.core 0).mayFinish o && s.collFirst o && (match s.collRun 0 o with | .done _ 1 => true | _ => false) &&
      after (exec (.asyncOpFinish 0 7) s) fun t => (t.core 0).ops.isEmpty && inGroup t fun g => g.cl == 0) = true := by decide +kernel
theorem test_gath_faults :
    let o := op1 .gath .accepted (leBytes 4 0 ++ leBytes 8 1 ++ leBytes 52 4)
    let s := withOp1 mem o
    ((match s.opFault 0 o with | some e => !e.lost && e.fault == some (6, 0) | none => false) &&
      after (exec (.asyncOpFault 0 7) s) fun t => inGroup t (fun g => g.asyncFaults.isEmpty && g.gt == 1) && after (exec (.asyncOpFinish 0 7) t) fun u =>
        inGroup u fun g => g.asyncFaults == [⟨1, 6, 0x10004, 0xB1, 0⟩] && g.gt == 0) = true := by decide +kernel
/-- 08 R249: a send reads its own element and sends it. -/
theorem test_coll_sends :
    let o := op1 .coll .accepted (leBytes 4 0xB3 ++ leBytes 4 0 ++ leBytes 8 1 ++ leBytes 8 0x200000 ++ leBytes 40 0x200040)
    let s := paged (withOp1 mem o)
    (o.live && (s.core 0).mayFinish o && !s.opHeld 0 o && s.collFirst o && (match s.collRun 0 o with | .send _ own => own == [0, 0, 0, 0] | _ => false) &&
      after (exec (.asyncOpFinish 0 7) s) fun t => (t.core 0).ops.map (·.sent) == [some [0, 0, 0, 0]]) = true := by decide +kernel
/-- 12 R336, R340. -/
theorem test_fabric_frames :
    let s : State := { mem with colls := [(0, { cfg := 0x500000001 })] }
    (s.tagUsed 5 && !s.tagUsed 6 && after (exec (.fabricFrameReceive 5 1 [1, 2]) s) fun t => t.frames == [⟨5, 1, [1, 2]⟩] &&
      after (exec (.fabricAbortReceive 5) t) (fun u => u.frames.isEmpty) && after (exec (.fabricFrameReceive 6 1 []) s) fun u => u.fabdrop == 1) = true := by
  decide +kernel

/-! ## Accesses and waits end -/

/-- Access 7 of slot 0 of group 0. -/
def load7 : PLoad := { id := 7, gid := 0, slot := 0, mask := 1, uni := false, tok := none, space := .scratch, acq := false, ea := 8, pa := ⟨false, 8⟩
                       srcCore := 0, nbytes := 4, sext := false, dst := 1, pc := 0x10004 }
def atom7 (red : Bool) : PAtom := { id := 7, ctx := 0, launch := 0, gid := 0, slot := 0, mask := 1, uni := false, red, space := .scratch, aop := 0, w := false, ea := 8
                                    pa := ⟨false, 8⟩, tgtCore := 0, opnd := 5, swap := 0, dst := 1, pc := 0x10004 }
def store7 : PStore := { id := 7, gid := 0, mask := 1, ctx := 0, launch := 0, pc := 0x10004, rel := false, strm := true, space := .global, pa := ⟨true, 8⟩, tgtCore := 0, bytes := [1, 2, 3, 4] }
def fence7 : PFence := { id := 7, ctx := 0, launch := 0, gid := 0, mask := 1, kind := 1, scope := 2, loads := [], atoms := [], rels := [] }
def with7 (k : Core → Core) : State := (mem.scratchSet 0 8 [52, 0, 0, 0]).modCore 0 k

/-- 14 R367, 07 R215: a barrier whose target is met counts its generation; its groups wait for an earlier store of its threads. -/
theorem test_barrier_pending :
    let s := (mem.modCore 0 fun k => { k.modBlock 0 fun b => { b with barArrived := 4 } with stores := [store7] }).modGroup 0 0
      fun g => { g with wait := .bar 15 0x10004, clause := none }
    let t := s.checkBarrier 0 0
    let u := (t.modCore 0 fun k => { k with stores := [] }).releaseBar 0 0
    (((t.core 0).block? 0).map (fun b => (b.barGen, b.barArrived)) == some (1, 0) && (t.core 0).barPending 0 &&
      inGroup t (fun g => g.wait == .barEnd 15) && inGroup u fun g => g.wait == .none) = true := by decide +kernel

/-- 06 R185, 15 R399: a load takes the value of its word, and its data is written; a token load frees its token. -/
theorem test_load_returns :
    let s := with7 fun k => { k with loads := [load7] }
    (s.loadHeld 0 load7 = false ∧ s.metHeld 0 load7.whose load7.place 7 = false) ∧ after (exec (.loadDataReturn 0 7 true) s) (fun t =>
      ((t.core 0).loads.map (·.data)) == [some ([52, 0, 0, 0], [])] && after (exec (.loadDataReturn 0 7 false) t) fun u =>
        (u.core 0).loads.isEmpty && (shapeOf u 1).val 0 == 52 && (shapeOf u 1).val 1 == 0) = true := by decide +kernel
theorem test_token_load_returns :
    let l := { load7 with tok := some 2, data := some ([1, 0, 0, 0], []) }
    let s := (with7 fun k => { k with loads := [l] }).modGroup 0 0 fun g => { g with tokens := [0, 0, 1, 0, 0, 0] }
    (inGroup s (fun g => !(destRegs l.dst l.nbytes).any fun n => (s.core 0).bHeld l.gid g n) && after (exec (.loadDataReturn 0 7 false) s) fun t =>
      inGroup t fun g => g.tokens == [0, 0, 0, 0, 0, 0]) = true := by decide +kernel
/-- 14 R363, R365, 16 R429. -/
theorem test_atoms_end :
    let s := with7 fun k => { k with atoms := [atom7 false] }
    let r := with7 fun k => { k with atoms := [atom7 true] }
    (inGroup s (fun g => !(atom7 false).dests.any fun n => (s.core 0).bHeld (atom7 false).gid g n) &&
      after (exec (.atomicResultReturn 0 7) s) (fun t => t.scratchGet 0 8 4 == [57, 0, 0, 0] && (shapeOf t 1).val 0 == 52) &&
      after (exec (.reductionTakesEffect 0 7) r) fun t => t.scratchGet 0 8 4 == [57, 0, 0, 0] && (t.core 0).atoms.isEmpty) = true := by decide +kernel
/-- 15 R387, 17 R439, R447, 06 R185: a fence, a push and a streaming store end; an L1 line goes. -/
theorem test_fence_push_store_end :
    let s := (with7 fun k => { k with fences := [fence7], pushes := [⟨0, 0, ⟨true, 64⟩, 3⟩], stores := [store7] }).modGroup 0 0
      fun g => g.modTh 0 fun t => { t with wait := .fence }
    ((s.core 0).fenceReady fence7 && !s.releaseHeld 0 fence7.whose 7 && !s.l1Owes 0 0 && !s.heldMore s && !(s.core 0).storeWaits 0 store7 && !s.storeLate 0 store7 && s.checkPa 0 ⟨true, 64⟩ == none &&
      after (exec (.fenceComplete 0 7) s) (fun t => (t.core 0).fences.isEmpty && inGroup t fun g => (g.th 0).wait == .none) &&
      after (exec (.meetPushDone 0 0 0) s) (fun t => t.homeByte ⟨true, 64⟩ == 3 && (t.core 0).pushes.isEmpty) &&
      after (exec (.storeTakesEffect 0 14) s) fun t => t.homeByte ⟨true, 10⟩ == 3 && (t.core 0).stores.isEmpty) = true := by decide +kernel
theorem test_line_evicted :
    let s := mem.modCore 0 fun k => { k with l1 := [{ pa := ⟨true, 8⟩, val := 0x01020304, mask := 15, st := .owned }] }
    after (exec (.l1LineEviction 0 true 0) s) (fun t => (t.core 0).l1.isEmpty && t.homeByte ⟨true, 8⟩ == 4 && !s.heldMore t) = true := by decide +kernel

/-- `base` without a running clause, its group waiting. -/
def idle (w : GWait) : State := (at_ 2 mapped fun g => { g with wait := w }).modGroup 0 0 fun g => { g with clause := none }

/-- 17 R453, 16 R415: a WAITA and a NAP end. -/
theorem test_waits_end :
    (goes (exec (.waitaWake 0 0) (idle (.waita 3))) (idle .none) && goes (exec (.napWake 0 0) (idle (.nap (some 0) true false))) (idle .none) &&
      decide ((idle (.nap (some 0) true false)).clk 0 = 0)) = true := by decide +kernel
/-- Queue 5, 16 packets at device address 0x20000, with an LNCH of its context before its queue step. -/
def queued (tail : Word) : State := { (idle .none).modCore 0 fun k => { k with lnchs := [⟨7, 0, 1, 5, List.replicate 64 9, some 1, 0x10004, 0⟩] } with
  regions := [(0, { valid := true, stkset := 1, size := 0x1000000 })]
  queues := [(5, { ctl := 1, base := 0x20000, st := .active, tail })] }

/-- 15 R402: a packet enters its queue at WQTAIL; a full queue answers 0. -/
theorem test_lnch_queue_step :
    (let x := (queued 3).queue 5; wqOwner x.ctl == 0 && decide (x.held < wqSize x.ctl) && (queued 3).checkPa 0 (x.slotPa 3) == none &&
      (match (queued 3).queueStep 0 ⟨7, 0, 1, 5, List.replicate 64 9, some 1, 0x10004, 0⟩ with | .done 1 _ => true | _ => false) &&
      ((queued 3).core 0).lnchReady ⟨7, 0, 1, 5, List.replicate 64 9, some 1, 0x10004, 0⟩) = true ∧
    after (exec (.lnchQueueStep 0 7) (queued 3)) (fun t => (t.queue 5).tail == 4 && t.homeByte ⟨false, 0x200C5⟩ == 9 && (shapeOf t 1).val 0 == 1) = true ∧
    after (exec (.lnchQueueStep 0 7) (queued 16)) (fun t => (t.queue 5).tail == 16 && (shapeOf t 1).val 0 == 0) = true := by decide +kernel

/-- Group 0 has slots 0 and 1 moving: to a new group when no target is named, else to group 4 with one thread. -/
def moving (target : Option Nat) : State := { ((idle (.joining 0x10008 3 target 2 5 false)).modGroup 0 0 (regs [(2, .affine 0x200000 4)])).modCore 0 fun k => { k with
    groups := k.groups ++ (if target.isSome then [(4, { ctx := 0, launch := 0, blk := 0, threads := { st := .active } :: List.replicate 31 {} })] else []) } with
  parts := [(0, { a := 0x200800 })] }

/-- 15 R396: the conditions of LEAVE hold; JOIN moves two threads to slots 1 and 2 of group 4. -/
theorem test_leave_ready : inGroup (moving none) (fun g => ((moving none).core 0).loading 0 3 == 0 && g.dueMask 3 == 0 && !g.moveUe 3 && g.region.isNone &&
    g.quartet.isNone && !g.handler && g.active != 3 && (moving none).leaveSlot 0 0 == some 1) = true := by decide +kernel
theorem test_join_moves : (!((moving (some 4)).core 0).joinAfter 4 5 && inGroup (moving (some 4)) (fun g => !(moving (some 4)).joinBad 0 0 g 4 3) &&
    !((moving (some 4)).core 0).joinBusy 4 && after (exec (.joinLeaveCopyDone 0 0) (moving (some 4))) fun t => inGroup t (fun g => g.active == 12) &&
      ((t.group? 0 4).map fun x => x.active == 7 && (x.th 1).pc == 0x10008 && (x.reg 2).shape.val 2 == 0x200004) == some true) = true := by decide +kernel

/-! ## Issue -/

/-- Group 0 ready at 0x210000: a header of COUNT 2 with RB, then SHTAG and IADD with a literal. -/
def code : State := ((idle .none).hostSet 0x10000 (leBytes 4 0xC0002012 ++ leBytes 4 0x67010900 ++ leBytes 4 0x00008288 ++ leBytes 4 5)).modGroup 0 0
  fun g => g.modThs 15 fun _ t => { t with pc := 0x210000 }

/-- 04 R110, R113, 10 R285: a full issue opens the region and runs the clause; a resumed one starts at position 2. -/
theorem test_full_issue : (code.mayIssue 0 0 && (code.recompute 0 0).mayIssue 0 0 && (match (code.recompute 0 0).issueFetch 0 0 with
      | .hdr pc p w => pc == 0x210000 && hdrOk w && hdrRB w && (match lineSkip ((code.recompute 0 0).lineWord 0 pc p) (hdrCount w) 1 with | .inl 4 => true | _ => false) &&
          inGroup (code.recompute 0 0) fun g => (code.recompute 0 0).laneFor 0 0 g == some 1 && g.tokFaults w == [] && g.hdrReady w && g.region == none && g.asyncFaults == []
      | _ => false) &&
    after (exec (.fullIssue 0 0) code) fun t => inGroup t fun g => (match g.clause with | some cl => cl.pos == 1 && cl.next == 0x210010 && cl.lane == 1 | none => false) &&
      (g.th 3).pc == 0x210004 && g.region.isSome) = true := by decide +kernel
theorem test_resumed_issue :
    let s := code.modGroup 0 0 fun g => g.modThs 3 fun _ t => { t with pc := 0x210008 }
    let u := (code.modGroup 0 0 fun g => g.modThs 15 fun _ t => { t with pc := 0x210008 })
    (match (u.recompute 0 0).issueFetch 0 0 with
      | .mid pc p _ => (match lineOwner ((u.recompute 0 0).lineWord 0 pc p) 2 65 0 with | .own 0 _ 2 4 e => e.length == 1 | _ => false)
      | _ => false) = true ∧
    after (exec (.resumedIssue 0 0) u) (fun t => inGroup t fun g => match g.clause with | some cl => cl.hdr == 0x210000 && cl.pos == 2 && cl.res.length == 1 | none => false) = true ∧
    after (exec (.resumedIssue 0 0) s) (fun t => inGroup t fun g => g.clause.isNone) = true := by decide +kernel

/-- 09 R270: all 16 lanes of quadrant 0 busy, group 1 of an H context on lane 0; the ready G group cuts it. -/
def crowded : State :=
  let h : Clause := { hdr := 0, cls := 0, count := 5, pos := 2, pc := 0, next := 0, yld := false, re := false, pa := (true, 0), res := [], lane := 0 }
  ({ code with ctxs := code.ctxs ++ [(1, { code.ctx 0 with cls := true })] } : State).modCore 0 fun k => { k with
    groups := k.groups ++ [(1, { ctx := 1, launch := 0, blk := 0, clause := some h })]
    lanes := List.replicate 16 (Lane.busy 1 3) ++ List.replicate 48 (Lane.draining true) }
theorem test_h_cut : ((crowded.core 0).freeLane 0 == none && decide ((crowded.core 0).cutsInFlight 0 < (crowded.waitingG 0 0).length) && latest (crowded.hClauses 0 0) == some (3, 0, 1) &&
    after (exec (.hClauseCut 0 0) crowded) (fun t => (t.group? 0 1).map (fun g => g.clause.map (·.cut)) == some (some true)) &&
    after (exec (.cutLaneFree 0 20) crowded) fun t => (t.core 0).lanes.getD 20 (.draining true) == .free && (t.core 0).lanes.getD 21 .free == .draining true) = true := by
  decide +kernel

/-! ## Translation, regions, keys -/

/-- A walk of group 0 for the page at 0x200000 of die 0. -/
def walk1 (resolved : Nat) : Walk := { id := 4, die := 0, ctx := 0, vpage := 0x200, acc := 1, who := [.group 0 0], resolved }
def walking (leaf : Nat) (resolved : Nat) : State :=
  { paged base with walks := [walk1 resolved], dmem := cellsSet (paged base).dmem 0x42000 (leBytes 8 leaf) }

/-- 06 R171 to R173, R177, R181, R182: a leaf, no entry, and PRQ. -/
theorem test_walk_ends :
    (match ((walking 0x11F 0).walk 0 0 0x200000).res with | .leaf e => e.host && e.pbase == 0 && e.bits == 30 | _ => false) = true ∧
    (walking 0x11F 0).walkStopped 0 ((walking 0x11F 0).walk 0 0 0x200000).reads = false ∧ after (exec (.pageWalkComplete 0 4) (walking 0x11F 0)) (fun t => t.walks.isEmpty && (t.core 0).tlb.length == 1) = true ∧
    after (exec (.pageWalkComplete 0 4) (walking 0 0)) (fun t => t.walks.isEmpty && inGroup t fun g => g.walkFaults == [(0x200, .page)]) = true := by decide +kernel
/-- A PRQ entry sends a request, and at the third time faults. -/
theorem test_walk_requests :
    ((walking 0x40 0).walk 0 0 0x200000).res = .request ∧ after (exec (.pageWalkComplete 0 4) (walking 0x40 0)) (fun t =>
      ((t.vd 0).reqs.map (·.id)) == [0] && t.walks.map (·.request) == [some 0]) = true ∧
    after (exec (.pageWalkComplete 0 4) (walking 0x40 2)) (fun t => t.walks.isEmpty && inGroup t fun g => g.walkFaults == [(0x200, .page)]) = true := by decide +kernel

/-- Request 3 of virtual device 0 outstanding for walk 4. -/
def asked : State := { base.modVd 0 (fun d => { d with gen := 1, reqs := [⟨3, 0, 0, 0x200, 1, 1, 0, true⟩] }) with walks := [{ walk1 0 with request := some 3 }], time := 2000000000 }
/-- 06 R182, R183. -/
theorem test_responses :
    after (exec (.pageResponse 0 0x100000300) asked) (fun t => (t.vd 0).reqs.isEmpty && t.walks.map (·.resolved) == [1]) = true ∧
    after (exec (.pageResponse 0 0x100000301) asked) (fun t => (t.vd 0).reqs.isEmpty && t.walks.isEmpty) = true ∧
    after (exec (.pageResponse 0 0x200000300) asked) (fun t => t.latepr == 1 && (t.vd 0).reqs.length == 1) = true ∧
    after (exec (.pageRequestTimeout 0 3) asked) (fun t => (t.vd 0).reqs.isEmpty && inGroup t fun g => g.walkFaults == [(0x200, .page)]) = true := by decide +kernel
/-- 06 R179. -/
theorem test_tlbinv :
    let s := mem
    (!s.tlbBusy && after (exec (.tlbinvRange 0 1) { s with tlbinva := 0x200000 }) fun t => t.tlbRun == some (3, 0, 0x200, 1) && t.tlbBusy &&
      after (exec .tlbinvDone t) fun u => (u.core 0).tlb.isEmpty && !u.tlbBusy) = true ∧
    after (exec (.registerWrite .pkg 0x10828 0x0000000700050001) s) (fun t => t.tlbBusy && after (exec .tlbinvDone t) fun u =>
      u.readReg .pkg 0x10828 == 0x0000000700050000) = true ∧
    after (exec (.tlbinvCtx 1) s) (fun t => after (exec .tlbinvDone t) fun u => (u.core 0).tlb.length == 1) = true := by decide +kernel

/-- Entry 1 of the region table not yet valid, 64 KiB at 0x2000000; key slot 0 of virtual device 0. -/
def region1 : State := { base with
  regions := [(0, { valid := true, stkset := 1, size := 0x1000000 }), (1, { base := 0x2000000, size := 0x10000, stkbase := 0x2000000 })]
  keys := [(0, { owner := some 0, key := 0 })] }
/-- 06 R192 to R195. -/
theorem test_region_entry :
    (region1.regionCheck 1 ((region1.region 1).word0 0x100000001) == none && region1.regionCheck 1 ((region1.region 1).word0 1) == some 2 &&
      after (exec (.regionEntryWrite 1 0 0x100000001) region1) (fun t => (t.region 1).valid && t.rtstat == 0 && t.regionAt 0x2000100 != none &&
        after (exec (.regionEntryWrite 1 0 0) t) fun u => !(u.region 1).valid) &&
      after (exec (.regionEntryWrite 1 0 1) region1) (fun t => t.rtstat == 0x102 && !(t.region 1).valid) &&
      after (exec (.regionEntryWrite 1 2 0x20000) region1) fun t => (t.region 1).size == 0x20000) = true := by decide +kernel
/-- 06 R196, R188. -/
theorem test_rflush_host_write :
    (!region1.rflushBusy && after (exec (.rflushGo 0) region1) (fun t => t.rflushBusy && t.rflush.toNat / 256 % 256 == 0 && !t.heldMore t &&
        after (exec .rflushDone t) fun u => !u.rflushBusy && u.pirqst == 8) &&
      region1.spanLive 0x100 4 && after (exec (.hostWrite 0x100 [1, 2, 3, 4]) region1) fun t => t.homeByte ⟨false, 0x102⟩ == 3) = true := by decide +kernel
/-- 12 R322: the conditions of each key command; a slot that a valid region uses may not be cleared. -/
theorem test_key_commands :
    let s := { region1 with keyarg := 0x1000 }.modVd 0 fun d => { d with kek := some 5 }
    ((s.vd 0).st != .free && s.slotCauses 3 0 == [] && (s.keyArg 72).isSome && (s.keyArg 1088).isSome && (s.vd 0).kek == some 5 &&
      after (exec (.keyClear 3 0) s) (fun t => t.keycmd == 0x302 && (t.key 3).owner == none) && s.slotCauses 0 0 == [1]) = true := by decide +kernel

/-! ## Queues, the dispatcher, eviction -/

/-- A good packet: one block of 32 threads, one row, a watchdog of 1 ms (09 R258). -/
def packet : List Byte := leBytes 4 0 ++ leBytes 4 1 ++ leBytes 8 0x200000 ++ leBytes 2 32 ++ leBytes 2 1 ++ leBytes 2 32 ++ leBytes 42 1
/-- Context 0 idle with a quota and an active queue 5 of 16 packets at 0x20000, one packet in it. -/
def disp (tail : Word) : State := { State.reset with
  vdevs := [(0, { st := .active })], ctxs := [(0, { st := .idle })], parts := [(0, { a := 0x1000040400, b := 1 })]
  regions := [(0, { valid := true, stkset := 1, size := 0x1000000 })], dmem := cellsSet [] 0x20000 packet
  queues := [(5, { ctl := 1, base := 0x20000, st := .active, tail })] }

/-- 09 R256, R262. -/
theorem test_queue_registers :
    after (exec (.wqEnable 6 1) (disp 0)) (fun t => (t.queue 6).st == .active) = true ∧ after (exec (.wqEnable 6 0x10001) (disp 0)) (fun t =>
      (t.queue 6).st == .disabled && (t.queue 6).code == 8) = true ∧ after (exec (.wqDisable 5 0) (disp 0)) (fun t => (t.queue 5).st == .disabled) = true ∧
    after (exec (.wqDisable 5 0) ((disp 0).modQueue 5 fun x => { x with ctl := 0, st := .error })) (fun t => (t.queue 5).st == .disabled) = true ∧
    after (exec (.wqtailWrite (.vd 0) 5 16) (disp 0)) (fun t => (t.queue 5).tail == 16 && (t.queue 5).st == .active) = true ∧
    after (exec (.wqtailWrite .pkg 5 17) (disp 0)) (fun t => (t.queue 5).code == 6 && (t.queue 5).st == .error) = true ∧
    after (exec (.wqtailWrite (.vd 1) 5 1) (disp 0)) (fun t => (t.queue 5).tail == 0 && (t.vd 1).dbdrop == 1) = true := by decide +kernel
/-- 09 R258, R262 to R264, 10 R279: the packet is taken and its block placed on core 0; with no free bank it claims one. -/
theorem test_packet_take_and_placement :
    let s := disp 1
    (let p := (s.queue 5).slotPa 0; s.checkPa 0 p == none && !s.ueBytes p 64 && s.homeBytes p 64 == packet && !pktBad packet && s.capacityFail (launchOf 1 5 (s.queue 5) packet) == none) = true ∧
    after (exec (.packetTake 5) s) (fun t => (t.queue 5).head == 1 && t.launches.length == 1 && (match t.firstCandidate [5] with
        | some (5, l, [0]) => t.unitFree l [0]
        | _ => false) &&
      after (exec .placement t) fun u => (u.core 0).blocks.length == 1 && (u.ctx 0).st == .active && ((u.group? 0 0).map fun g => (g.th 31).pc) == some 0x200000) = true := by
  decide +kernel
/-- 09 R263: with its quota gone the packet's block fits nowhere. -/
theorem test_nofit : after (exec (.packetTake 5) (disp 1)) (fun t => let u : State := { t with parts := [] }
    (u.misfit.map (·.1)) == some 5 && after (exec .placement u) fun w => (w.queue 5).st == .error && (w.queue 5).code == 7 && (w.queue 5).head == 0) = true := by decide +kernel
/-- Every core of die 0 has an H group of context 1 on the one bank of the quota; die 1 is lost. -/
def taken : State := match exec (.packetTake 5) (disp 1) with
  | .next t => { t with
      parts := [(0, { a := 0x1000010400, b := 1 })], ctxs := t.ctxs ++ [(1, { st := .active, cls := true })]
      cmap := { t.cmap with dies := [{}, { st := 2, lost := true }] }
      cores := (List.range 192).map fun c => (c, { groups := [(0, { ctx := 1, launch := 9, blk := 9 })] }) }
  | _ => disp 1
theorem test_claim : after (exec .placement taken) (fun t => t.claims == [⟨5, 1, [0]⟩] && (t.core 0).spills == [⟨0, 0, some 5⟩]) = true := by decide +kernel

/-- A launch of context 0 with one block, all retired. -/
def launch1 (sig disc : Bool) : Launch := { id := 3, queue := 5, pkt := 0, ctx := 0, allres := false, cluster := false, fusel1 := false, sig, nstg := 0, nblk := 1, entry := 0, bsize := 32, srows := 0
                                            wdog := 2, sigaddr := 0x200000, sigval := 7, stgoff := [], next := 1, retired := 1, first := some 0, run := 2000000, discarded := disc }
/-- 09 R260, R261: a launch completes, with its signal; one that does not retire in time stops its context. -/
theorem test_launch_complete :
    (let s (sig disc : Bool) : State := { paged base with launches := [launch1 sig disc] }
    (s false false).launchDone (launch1 false false) && after (exec (.launchComplete 3) (s false false)) (fun t => t.launches.isEmpty) &&
      (s false true).launchDone (launch1 false true) && after (exec (.launchComplete 3) (s false true)) (fun t => t.launches.isEmpty) &&
      (match (s true false).gwrite 0 0 (.disp 5) 0x200000 (leBytes 8 7) with | (.ok _, t) => !(s true false).heldMore t | _ => false) &&
      after (exec (.launchComplete 3) (s true false)) fun t => t.launches.isEmpty && t.homeByte ⟨true, 0x200000⟩ == 7) = true := by decide +kernel
/-- 09 R260: a signal whose page is missing from the tables makes its queue's error, though the queue is DISABLED. -/
theorem test_signal_faults :
    let s : State := { paged base with launches := [{ launch1 true false with sigaddr := 0x8000000000 }], l2tlb := [], queues := [(5, { st := .disabled })]
                                       walkFailed := [⟨.disp 5, 0x8000000, .page⟩] }
    (match s.gwrite 0 0 (.disp 5) 0x8000000000 (leBytes 8 7) with
      | (.fault f _, _) => f == .page && after (exec (.launchComplete 3) s) fun t => (t.queue 5).st == .error && (t.queue 5).code == 5
      | _ => false) = true := by decide +kernel
theorem test_watchdog : after (exec (.watchdogExpiry 3) { base with launches := [{ launch1 false false with retired := 0 }] }) (fun t =>
    (t.ctx 0).code == some .watchdog) = true := by decide +kernel
/-- 09 R259: a condition that holds is latched. -/
theorem test_wait_condition :
    let s := { paged base with launches := [launch1 false false]
                               queues := [(5, { ctl := 1, base := 0x20000, st := .active, cur := some ⟨3, [⟨0x200000, 5, 3, false⟩, ⟨0x200004, 5, 0, false⟩], 0⟩ })] }
    ((match s.gread s.dispDie 0 (.disp 5) 0x200000 4 with | (.ok bs, _) => bs == [0, 0, 0, 0] | _ => false) &&
      after (exec (.waitCondRead 5 0) s) (fun t => (t.queue 5).cur.map (fun p => p.waits.map (·.latched)) == some [true, false]) &&
      after (exec (.waitCondRead 5 1) s) fun t => (t.queue 5).cur.map (fun p => p.waits.map (·.latched)) == some [false, false]) = true := by decide +kernel

/-- Group 0, without a clause, chosen for eviction; its spill area is at 0x200000. -/
def evicting : State := (((paged base).modCtx 0 fun x => { x with spill := 0x200000 }).modGroup 0 0 fun g =>
  { regs [(9, .uniform 0x1234)] g with clause := none, residency := .spilling }).modCore 0 fun k => { k with spills := [⟨0, 0, none⟩] }
/-- 10 R280, R283, 03 R99: the group's image is written, its bank is freed; a free bank lets it come back. -/
theorem test_spill : (inGroup evicting (fun g => evicting.spillReady 0 0 g && !g.imageUe && g.image.length == 1088) &&
    (match (evicting.spillRestart 0 0).leaveBar 0 0 with
      | .ok _ s => (match s.group? 0 0 with
        | some g => !g.imageUe && (match s.sinterWrite 0 0 0 (evicting.spillVa 0 0 0) g.image with | .ok _ _ => true | _ => false)
        | none => false)
      | _ => false)) = true ∧
    after (exec (.sinterSpillDone 0 0) evicting) (fun t => inGroup t (fun g => g.residency == .evicted 1088) && (t.core 0).spills.isEmpty && (t.core 0).evicted == [0] &&
      t.homeBytes ⟨true, 0x200034⟩ 2 == [0x34, 0x12]) = true := by decide +kernel
/-- 10 R281: a group whose own load is outstanding waits, and does not hold up the next one of its quadrant. -/
theorem test_spill_past_a_waiting_one :
    let s := (evicting.modCore 0 fun k => { k with
      spills := [⟨1, 0, none⟩, ⟨0, 0, none⟩], atoms := [{ atom7 true with gid := 1 }]
      groups := k.groups ++ [(1, { ctx := 0, launch := 0, blk := 0, residency := .spilling })] })
    (((s.group? 0 1).map fun g => s.spillReady 0 1 g) == some false &&
      after (exec (.sinterSpillDone 0 0) s) fun t => (t.core 0).spills.map (·.gid) == [1] && inGroup t fun g => g.residency == .evicted 1088) = true := by decide +kernel
theorem test_restore :
    let s := { (evicting.modGroup 0 0 fun g => { g with residency := .evicted 1088 }).modCore 0 fun k => { k with spills := [], evicted := [0] } with parts := [(0, { a := 0x10400 })] }
    after (exec (.sinterRestore 0 0) s) (fun t => inGroup t fun g => g.residency == .restoring 1088) = true ∧
    (!s.remapping 0 && decide (0 < s.banksFree 0 0 0 none) && !s.claimed 0 0) = true ∧
    inGroup s (fun g => imageOk false g.image && (g.load g.image false).regs == g.regs && (g.load g.image false).active == g.active) = true := by decide +kernel
theorem test_restore_done :
    let u : State := { (evicting.modGroup 0 0 fun g => { g with residency := .restoring 1088, regs := [] }).modCore 0 fun k => { k with spills := [], evicted := [0] } with
      hmem := [⟨0x200034, 0x12⟩, ⟨0x200145, 1⟩, ⟨0x200430, 32⟩] }
    after (exec (.sinterRestoreDone 0 0) u) (fun u => inGroup u fun g => g.residency == .resident && (g.reg 9).shape == .uniform 0x12 && g.active == 1) = true := by
  decide +kernel

/-! ## Contexts -/

/-- A descriptor at 0x1000: ROOT 0x40000, a save area of 64 KiB at 0x50000 (11 R302). -/
def ctxs (f : Context → Context) : State := { (disp 0).modCtx 0 f with
  ctxarg := 0x1000
  dmem := cellsSet [] 0x1000 (leBytes 8 0 ++ leBytes 8 0x40000 ++ leBytes 32 0 ++ leBytes 8 0x50000 ++ leBytes 72 0x10000) }
/-- 11 R303, R305, R316. -/
theorem test_ctx_create : ((ctxs id).createFails 1 == none && (ctxs id).createFails 0 == some 4 && after (exec (.ctxCreate 1) (ctxs id)) fun t =>
    (t.ctx 1).st == .idle && (t.ctx 1).savea == 0x50000 && t.ctxcmd == 0x11) = true := by decide +kernel
theorem test_ctx_commands :
    (after (exec (.ctxDestroy 0) (ctxs fun x => { x with st := .saved })) fun t => (t.ctx 0).st == .free) = true ∧
    (after (exec (.ctxDestroy 0) (ctxs fun x => { x with st := .active })) fun t => (t.ctx 0).st == .active && t.ctxcmd == 0x50002) = true ∧
    (after (exec (.ctxPreempt 0) (ctxs fun x => { x with st := .active })) fun t => (t.ctx 0).st == .draining) = true ∧
    (after (exec (.ctxPreempt 0) (ctxs id)) fun t => (t.ctx 0).st == .saving) = true ∧
    (after (exec (.ctxResume 0) (ctxs fun x => { x with st := .saved, code := some .mapUnack })) fun t => (t.ctx 0).st == .restoring && (t.ctx 0).ackv == 1) = true ∧
    (after (exec (.ctxPreempt 0) (ctxs fun x => { x with st := .active, cls := true })) fun t => (t.ctx 0).st == .saving && !(t.ctx 0).image) = true ∧
    (after (exec (.ctxResume 0) (ctxs fun x => { x with st := .stopped, image := true, code := some .page, reason := .fault })) fun t =>
      (t.ctx 0).st == .restoring && (t.ctx 0).code == none) = true ∧
    (after (exec (.ctxResume 0) (ctxs fun x => { x with st := .stopped })) fun t => t.ctxcmd == 0x50004) = true ∧
    (after (exec (.ctxResume 0) (ctxs fun x => { x with st := .active })) fun t => t.ctxcmd == 0x50004) = true ∧
    (after (exec (.ctxDbggrant 0) (ctxs id)) fun t => (t.ctx 0).dbgVd == some 0 && after (exec (.ctxDbgrevoke 0) t) fun u => (u.ctx 0).dbgVd == none) = true ∧
    (after (exec (.ctxcmdBadop 0 7) (ctxs id)) fun t => t.ctxcmd == 0x60007) = true := by decide +kernel
/-- 11 R305, R309, R311, R314: a save with no core ends SAVED, one of a stopped restore STOPPED; its image restores. -/
theorem test_save_restore :
    let s := ctxs fun x => { x with st := .saving, savea := 0x50000, savesz := 0x10000 }
    (s.quiet 0 && !((s.saveRelease 0).saveGroups 0).1 && (((s.saveRelease 0).saveGroups 0).2.ctx 0).st == .saving &&
      (match ((s.saveRelease 0).saveGroups 0).2.writeSave 0 with | .ok _ _ => true | _ => false) && (match s.resave 0 with | .ok _ _ => true | _ => false)) = true ∧
    after (exec (.ctxSaveDone 0) s) (fun t => (t.ctx 0).st == .saved && (t.ctx 0).image && t.homeBytes ⟨false, 0x50000⟩ 2 == [0x5A, 0x48] &&
      after (exec (.ctxResume 0) t) fun u => (match u.readSave 0 with | some [] => true | _ => false) &&
        after (exec (.ctxRestoreDone 0) u) fun w => (w.ctx 0).st == .idle && !(w.ctx 0).image) = true ∧
    after (exec (.ctxSaveDone 0) (s.modCtx 0 fun x => { x with image := true, reason := .fault })) (fun t => (t.ctx 0).st == .stopped) = true := by decide +kernel
/-- 11 R309: context 1 of class H holds a block on every core of die 0 for more than its slice; a packet of context 0 waits; or context 0 is to return. -/
def sliced (st : CState) : State := match exec (.packetTake 5) (disp 1) with
  | .next t => { t with
      ctxs := [(0, { st, cls := true, auto := true }), (1, { st := .active, cls := true, slice := 100 })], time := 100000
      cmap := { t.cmap with dies := [{}, { st := 2, lost := true }] }
      cores := if st == .idle then (List.range 192).map fun c => (c, { blocks := [{ id := 1, ctx := 1, launch := 9, bix := 0, bsize := 1, rows := [], nblk := 1, nstg := 0
                                                                                    stages := [], cluster := none, fused := false, cls := true, part := 0 }] }) else [] }
  | _ => disp 1
theorem test_time_slice : after (exec (.timeSliceExpiry 1) (sliced .idle)) (fun t => (t.ctx 1).st == .saving && (t.ctx 1).auto) = true := by decide +kernel
theorem test_auto_resume : after (exec (.autoResume 0) (sliced .saved)) (fun t => (t.ctx 0).st == .restoring && !(t.ctx 0).auto) = true := by decide +kernel
/-- 01 R30, R33. -/
theorem test_map_deadline :
    let s : State := { (disp 0).modCtx 0 (fun x => { x with st := .active }) with time := 5000000 }
    (s.overdue (s.ctx 0) && after (exec (.mapDeadlineExpiry 0) s) (fun t => (t.ctx 0).code == some .mapUnack) &&
      after (exec (.mapgrcWrite 100) s) (fun t => t.mapgrc == 100) && after (exec (.mapgrcWrite 101) s) fun t => t.mapgrc == 5) = true := by decide +kernel
/-- 10 R276 to R278: a change of nothing is rejected, one of a busy partition waits, can be cancelled, and takes effect. -/
theorem test_mode_change :
    let s := State.reset
    let busy := { base with parts := [(0, { na := 0x010000, nb := 1 })] }
    (s.pmTest 0 == some 1 && after (exec (.pmGo 0) s) (fun t => t.pmSt == 3 && t.pmCode == 1) && busy.pmTest 1 == none && after (exec (.pmGo 1) busy) fun t =>
      t.pmSt == 1 && t.closing == 1 && after (exec (.pmCancel 1) t) (fun u => u.pmSt == 0) &&
      (let u := { t with cores := [] }; !u.closingBusy && u.pmTest 1 == none && after (exec .pmTakeEffect u) fun w => w.pmSt == 2 && (w.part 0).a == 0x010000)) = true := by
  decide +kernel
theorem test_next_quota : after (exec (.pqnWrite 3 false 0xFFFFFFFFFFFFFFFF) State.reset) (fun t => (t.part 3).na == pqaMask && (t.part 3).nb == 0) = true := by decide +kernel

/-! ## Virtual devices -/

def vd0 (f : VDev → VDev) : State := { State.reset with vdevs := [(0, f { st := .active, gen := 1 })] }
/-- 12 R319, R321, R330, R331. -/
theorem test_vd_commands :
    after (exec (.vdCreate 3) (vd0 id)) (fun t => (t.vd 3).st == .active && (t.vd 3).gen == 1) = true ∧
    after (exec (.vdStop 0) (vd0 id)) (fun t => (t.vd 0).st == .stopping && (t.vd 0).busy && t.vdSettled 0 && !t.heldMore (t.vdRelease 0) &&
      after (exec (.vdStopDone 0) t) fun u => (u.vd 0).st == .stopped && after (exec (.vdResume 0) u) fun w => (w.vd 0).st == .active) = true ∧
    after (exec (.vdReset 0) (vd0 id)) (fun t => (t.vd 0).st == .resetting && after (exec (.vdResetDone 0) t) fun u => (u.vd 0).st == .active && (u.vd 0).gen == 2) = true := by
  decide +kernel
theorem test_vd_destroy :
    after (exec (.vdDestroy 0) (vd0 id)) (fun t => (t.vd 0).st == .free) = true ∧
    after (exec (.vdDestroy 0) { vd0 id with keys := [(1, { owner := some 0 })] }) (fun t => (t.vd 0).st == .active && (t.vd 0).cmd == 0x30005) = true ∧
    after (exec (.vdSign 0 true) (vd0 id)) (fun t => (t.vd 0).ulbuf.length == 1) = true ∧ after (exec (.vdSign 5 true) (vd0 id)) (fun t => (t.vd 5).cmd == 0x10006) = true ∧ after (exec (.vdcmdBadop 0 9) (vd0 id)) (fun t => (t.vd 0).cmd == 0x20009) = true := by
  decide +kernel
/-- 06 R183, 12 R325, R326, R328, R332, R334. -/
theorem test_vd_registers :
    let s := { vd0 (fun d => { d with trring := 0, attest := some (0x2000, List.replicate 32 1) }) with time := 1000000000, regions := [(0, { valid := true, stkset := 1, size := 0x1000000 })] }
    after (exec (.prtoWrite 0 7) s) (fun t => (t.vd 0).prto == 7) = true ∧ after (exec (.checkpointTick 0) s) (fun t => (t.vd 0).ckptAt == 1 && (t.vd 0).ulbuf.length == 1) = true ∧
    after (exec .usageIntervalTick s) (fun t => t.usageTicks == 1) = true ∧ after (exec (.attestRequest 0 0x1000) s) (fun t => (t.vd 0).attest == some (0x1000, List.replicate 32 0)) = true ∧
    (s.dpaOk 0x2040 18452 && (s.vdevs.all fun (_, d) => !ringEn d.dlring) && (s.vd 0).ulprev.length == 32) = true ∧
    after (exec (.ringHeadWrite 0 .trace 0) s) (fun t => (t.vd 0).trhead == 0) = true ∧ after (exec (.ringHeadWrite 0 .dirty 0) s) (fun t => (t.vd 0).dlhead == 0) = true ∧
    after (exec (.irqstWrite .pkg 5) { s with pirqst := 7 }) (fun t => t.pirqst == 2) = true := by decide +kernel
/-- 12 R323, R333: a usage record and a page request that waited for room enter their rings (host memory at 0x1000 and 0x2000). -/
theorem test_ring_heads :
    let s := vd0 fun d => { d with
      ulring := 0x10C0, ulhead := 0, ultail := 32, ulbuf := [List.replicate 128 7]
      pqring := 0x20C0, pqhead := 0, pqtail := 256, reqs := [⟨3, 0, 0, 5, 1, 1, 0, false⟩] }
    after (exec (.ringHeadWrite 0 .usage 1) s) (fun t => (t.vd 0).ultail == 33 && (t.vd 0).ulbuf.isEmpty && t.homeByte ⟨true, 0x1000⟩ == 7) = true ∧
    after (exec (.ringHeadWrite 0 .pageReq 1) s) (fun t => (t.vd 0).pqtail == 257 && ((t.vd 0).reqs.map (·.written)) == [true] && t.homeByte ⟨true, 0x2008⟩ == 3) = true ∧
    after (exec (.ringHeadWrite 0 .pageReq 0) s) (fun t => (t.vd 0).pqtail == 256 && ((t.vd 0).reqs.map (·.written)) == [false]) = true := by decide +kernel
/-- 12 R324: the record of an H context that ran 5 lane cycles and moved 128 bytes of HBM: type 3, context 9, its figures. -/
theorem test_usage_record :
    let s : State := { vd0 id with time := 1000000000, ctxs := [(9, { st := .active, cls := true, ranInterval := true, laneCycles := 5, hbmBytes := 128, usageFrom := 7 })] }
    after (exec .usageIntervalTick s) (fun t => (t.ctx 9).hbmBytes == 0 && (t.ctx 9).usageFrom == 1000000000 && match (t.vd 0).ulbuf with
      | [r] => fieldAt r 16 2 == 3 && fieldAt r 18 2 == 9 && fieldAt r 24 8 == 7 && fieldAt r 32 8 == 0 && fieldAt r 40 8 == 5 && fieldAt r 48 8 == 128 && fieldAt r 64 8 == 0
      | _ => false) = true := by decide +kernel
/-- 12 R338, R339: a group with rank 1, and a channel of it with tag 5. -/
theorem test_channels_configured :
    after (exec (.fabricGroupWrite 2 0 0x80010002) (vd0 id)) (fun t => (t.fgroup 2).hdr == 0x80010002 && after (exec (.fabricGroupWrite 2 2050 9) t) fun u =>
      alGet 1 (u.fgroup 2).ranks == some 9 && !u.tagUsed 5 && after (exec (.chcfgWrite 0 4 0x500000201) u) fun w => w.tagUsed 5 && w.collRanks 0 4 == 2) = true := by
  decide +kernel

/-! ## The map, live service, observation -/

/-- 01 R35, R36, R38. -/
theorem test_die_loss : after (exec (.dieLoss 1) State.reset) (fun t => t.dieLost 1 && !t.linkReady && after (exec (.dieLossPublish 1) t) fun u =>
    (u.die 1).st == 2 && u.cmap.cmv == 2 && u.cmap.linkLanes == 16 && u.pirqst == 32 && after (exec (.dieReturn 1) u) (fun w => (w.die 1).st == 2) &&
    after (exec (.dieReset 1) u) (fun x => after (exec (.dieReturn 1) x) fun w => (w.die 1).st == 1 && w.cmap.cmv == 3) &&
    !u.mgmtOnly && after (exec .hostLinkRetrain u) (fun w => w.linkReady) && after (exec .hostLinkRetrain { u with mgmtOnly := true }) (fun w => !w.linkReady)) = true := by decide +kernel
theorem test_stack_loss_and_resets :
    (after (exec (.stackLoss 3) State.reset) (fun t => t.stackLost 3 && t.cmap.cmv == 2 && t.cmap.seq == 2) &&
      after (exec (.dieReset 0) base) (fun t => t.core 0 == {}) && after (exec .packageReset base) fun t => t.cores == [] && t.cmap.cmv == 1 && t.dmem == base.dmem) = true := by
  decide +kernel
/-- 01 R39 to R44. -/
theorem test_live_service :
    let s (a : DWord) : State := { State.reset with lsarg := a }
    ((s 0).liveCore 0 && (s 0).spareFor 0 == some 24 && after (exec .lsRemap (s 0)) (fun t => t.lsBusy && (t.lsops.map (·.kind)) == [.remap 0 24] && t.lsWaits (.remap 0 24) == false &&
        after (exec (.lsOpComplete 1 true) t) (fun u => u.cmap.cmv == 2 && u.posOf 0 == some 24 && u.lscmd == 1 && u.pirqst == 16) &&
        after (exec (.lsOpComplete 1 false) t) fun u => u.cmap.cmv == 1 && u.lscmd == 0x50001) &&
      ((s 5).port 5).st != 0 && after (exec .lsRecal (s 5)) (fun t => (t.lsops.map (·.kind)) == [.recal 5]) &&
      after (exec .lsChspare (s 0x103)) (fun t => (t.lsops.map (·.kind)) == [.chspare 3 1]) && after (exec .lsRebin (s 0x10007)) (fun t => (t.lsops.map (·.kind)) == [.rebin 1 7]) &&
      after (exec .lsFwswitch { s 2 with cmap := { fw := List.replicate 6 { veralt := 3 } } }) (fun t => (t.lsops.map (·.kind)) == [.fwswitch 2]) &&
      after (exec (.lscmdBadop 9) (s 0)) (fun t => t.lscmd == 0x60009) && after (exec (.fwLiveServiceStart (.recal 3)) (s 0)) fun t => (t.lsops.map (·.cmd)) == [false]) = true := by
  decide +kernel
/-- 01 R40, R43: firmware remaps a core, retires one whose column has no spare left, spares a channel; what a loss overtook is abandoned. -/
theorem test_firmware_service :
    let s := State.reset
    let gone (cmd : Bool) : State := { s with lsops := [⟨9, .recal 5, cmd, true⟩] }
    (!s.remapping 0 && s.posOf 0 == some 0 && after (exec (.fwLiveServiceStart (.remap 0)) s) (fun t => t.lsops.map (·.kind) == [.remap 0 24]) &&
      (let u : State := { s with lsops := [⟨9, .remap 1 24, false, false⟩] };
        u.spareFor 0 == none && after (exec (.fwLiveServiceStart (.remap 0)) u) fun t => (t.coreRec 0 0).failed && !t.liveCore 0 && t.cmap.cmv == 2 && t.pirqst == 16) &&
      after (exec (.fwLiveServiceStart (.chspare 3 1)) s) (fun t => t.lsops.map (·.kind) == [.chspare 3 1]) &&
      after (exec (.lsOpComplete 9 true) (gone true)) (fun t => t.lscmd == 0x50002 && t.cmap.cmv == 1) && after (exec (.lsOpComplete 9 true) (gone false)) fun t => t.lsops.isEmpty && t.cmap.cmv == 1) = true := by
  decide +kernel
/-- 01 R39, R41: the spare of a column is in use; an image with a good header can be read whole. -/
theorem test_remap_nospare_fwload :
    let s : State := { State.reset with lsops := [⟨9, .remap 1 24, false, false⟩] }
    let f : State := { State.reset with regions := [(0, { valid := true, stkset := 1, size := 0x1000000 })], dmem := cellsSet [] 0 (leBytes 8 0x33474D495746485A ++ leBytes 4 2 ++ leBytes 4 9 ++ leBytes 48 64) }
    (s.spareFor 0 == none && after (exec .lsRemap s) (fun t => t.lscmd == 0x20001) && !imageBad (f.homeBytes ⟨false, 0⟩ 64) && f.dpaOk 0 64 && f.dpaOk 0 7984 && !f.lsHas (onComp 2)) = true := by
  decide +kernel
/-- 10 R290, R292, 13 R341, R344, R345, R354. -/
theorem test_power :
    after (exec (.clsregWrite 1 0x4B03) State.reset) (fun t => t.clsreg.getD 1 0 == 0x4B03) = true ∧ after (exec (.pwrcapWrite 0x800003E8) State.reset) (fun t => t.pwrcap == 0x800003E8) = true ∧
    after (exec (.powerCapMeasure 15001 true 3) { State.reset with time := 100000 }) (fun t => t.pwr == 15001 && t.pwrTicks == 1) = true ∧
    after (exec .currentLimitExceeded State.reset) (fun t => t.ilim && after (exec (.currentBelowLimit true) t) fun u => !u.ilim) = true ∧
    after (exec (.droopDetected 3) State.reset) (fun t => (t.core 3).stretched && after (exec (.droopRecovered 3) t) fun u => !(u.core 3).stretched) = true ∧
    State.reset.liveCore 3 = true := by decide +kernel
/-- 13 R343: K 10 and a ring of 1 MiB enabled; a record of 384 cores fits it, and one that does not is dropped. -/
theorem test_fumarole :
    let v : DWord := 321 &&& fumMask
    (fumK v == 10 && fumEn v && after (exec (.fumctlWrite 321) State.reset) (fun t => t.fumctl == 321 && after (exec (.fumheadWrite 0) t) (fun u => u.fumhead == 0) &&
      (let u := { t with time := 512, fumtail := 0xFFFFF }
      t.liveCores.length == 384 && decide (52800 ≤ fumSize v) && after (exec (.fumaroleTick false) u) fun w => w.fumdrop == 1 && w.fumtick == 1))) = true := by decide +kernel
/-- 13 R353: group 0 on lane 0 of a debugged context, a sample every 256 cycles. -/
theorem test_trace_sample :
    let s := (base.modCtx 0 fun x => { x with dbgVd := some 0 }).modVd 0 fun d => { d with trsamp := 40 }
    ((s.core 0).lowestLane == some 0 && s.clk 0 == 0 && inGroup s fun g => match g.clause with | some cl => slotsOf (g.atPc cl.pc) == [0, 1, 2, 3] | none => false) = true := by
  decide +kernel
/-- 13 R350, R351: slot 1 of group 0 is halted, read, edited at the boundary, stepped; a breakpoint is set; without a right, NORIGHT. -/
theorem test_debugger :
    let s := (base.modCtx 0 fun x => { x with dbgVd := some 0 }).modVd 0 fun d => { d with dbgdata := 0x20000 }
    let cmd (op item : Nat) : DWord := BitVec.ofNat 64 (op + item * 2 ^ 12 + 2 ^ 27)
    ((match s.dbgThread 0 (cmd 1 0) false with | .ok _ => true | .error _ => false) && after (exec (.dbgHalt 0 (cmd 1 0)) s) fun t => inGroup t (fun g => (g.th 1).halted) &&
      (match t.dbgThread 0 (cmd 4 0x80) true with | .ok _ => !editBad 0x80 0x20000 | .error _ => false) &&
      after (exec (.dbgRdreg 0 (cmd 4 0x80)) t) (fun u => (u.vd 0).dbgdata == 0x10004) &&
      after (exec (.dbgWrreg 0 (cmd 5 0x80)) t) (fun u => inGroup u fun g => g.debugEdits == [(1, 0x80, 0x20000)]) &&
      after (exec (.dbgRun 0 (cmd 2 0)) t) (fun u => inGroup u fun g => !(g.th 1).halted) && after (exec (.dbgStep 0 (cmd 3 0)) t) (fun u => inGroup u fun g => (g.th 1).stepping) &&
      after (exec (.dbgBpset 0 (cmd 6 2)) t) fun u => (u.vd 0).bps.getD 2 none == some 0x20000 && after (exec (.dbgBpclr 0 (cmd 7 2)) u) fun w => (w.vd 0).bps.getD 2 none == none) = true := by
  decide +kernel
/-- 02 R55: a thread that is being moved is halted after its move. -/
theorem test_halt_of_mover :
    let s := ((moving none).modCtx 0 fun x => { x with dbgVd := some 0 })
    ((match s.dbgThread 0 0x8000001 false with | .ok g => g.moving 1 | .error _ => false) &&
      after (exec (.dbgHalt 0 0x8000001) s) fun t => inGroup t fun g => (g.th 1).haltDue && !(g.th 1).halted) = true := by decide +kernel
theorem test_debugger_norights : (!base.dbgRight 0 && after (exec (.dbgHalt 0 1) base) (fun t => (t.vd 0).dbgcmd == 0x1000000000001) &&
    after (exec (.dbgcmdBadop 0 8) base) fun t => (t.vd 0).dbgcmd == 0x5000000000008) = true := by decide +kernel
/-- 00 R4, R5: a register reads back what was written. -/
theorem test_register_reads_back : (State.reset.l2ways.length == 2 && after (exec (.registerWrite .pkg 0x10820 0xFFFFFFFFFFFFFFFF) State.reset) fun t =>
    t.readReg .pkg 0x10820 == 0x00FFFFFFFFFFF000) = true := by decide +kernel

/-! ## New groups, records, steps -/

/-- 20 R467: placement on core 0. -/
theorem test_placed_group_blank : after (exec (.packetTake 5) (disp 1)) (fun s => after (exec .placement s) fun t => (s.group? 0 0).isNone &&
    ((t.group? 0 0).map fun g => g.regs == List.replicate 64 {} && g.preds == List.replicate 7 {} && g.tile == 32 && g.fsr == 0) == some true) = true := by decide +kernel
/-- 16 R404, 01 R29: MARK's pass and its record. -/
theorem test_mark : inPass mem (fun p => p.orderly && after (exec (.mark true 3) mem) fun t => inGroup t fun g => (g.th 0).pc == 0x10008) = true := by decide +kernel
/-- 04 R104, R124: the pass that withFetchWord sets up fetches XOR, decodes and runs it; the step before it runs an event. -/
theorem test_step_runs_the_pass :
    let s := State.reset.withFetchWord 32 0x12008104
    let s0 : State := { s with agenda := [] }
    ((match s0.group? 0 0 with
      | some g => match g.clause with
        | some cl => s0.codeWord g.launch (cl.codePa cl.pc) == some 0x12008104 && decodeFault cl 0x12008104 (.ok (.xor_ (r3 1 1 2))) == none && !cl.cut && g.atPc cl.pc == 15 &&
            s0.bpHits g cl.pc 15 (allOrNone 0x12008104) == 0
        | none => false
      | none => false) && after (step s) (fun t => t.agenda == [] && inGroup t fun g => (g.th 0).pc == 0x10008) &&
      after (step { s with agenda := .ev (.mapgrcWrite 7) :: s.agenda }) fun t => t.mapgrc == 7 && t.agenda.length == 1) = true := by decide +kernel
theorem test_step_keeps_memory : State.reset.memoryWf = true ∧ after (step (State.reset.withFetchWord 32 0x12008104)) State.memoryWf = true := by decide +kernel

end Sys2Proof.Tests
end

namespace Sys2Proof.Machine

/-! # Every step keeps the memories canonical (log 11)

`MemOk` is `State.memoryWf` with its three parts named. Each function of the model that answers a state
has a lemma named after it, which says that it keeps `MemOk`: `MemOk.setVd` for `State.setVd`,
`MemOk.vdStop` for `execVdStop`, `MemOk.exec_ok` for `exec` itself. The lemmas stand in the order of the
model, so that the proof about a function cites the lemmas of those it calls, branch by branch. Only the
functions that write cells (`State.rawSet`, `State.hostSet`, `State.scratchSet`, `State.mapRegion`, …)
speak of canonical form, by the laws of `cellsSet` and `cellsFrom`. -/

/-! ## The invariant, and what it says of each kind of answer -/

/-- Every memory of a state is in canonical form: `State.memoryWf` as three named facts. -/
structure MemOk (s : State) : Prop where
  device : Memory.wf s.dmem = true
  host : Memory.wf s.hmem = true
  scratch : ∀ x ∈ s.cores, Memory.wf x.2.scratch = true

theorem memOk_iff (s : State) : MemOk s ↔ s.memoryWf = true := by
  simp only [State.memoryWf, Bool.and_eq_true, List.all_eq_true]
  constructor
  · rintro ⟨hd, hh, hc⟩
    exact ⟨⟨hd, hh⟩, hc⟩
  · rintro ⟨⟨hd, hh⟩, hc⟩
    exact ⟨hd, hh, hc⟩

/-- What a meaning answers has canonical memories. -/
def OutOk : Out → Prop
  | .next t => MemOk t
  | _ => True

/-- So has the state of a change that may not be made. -/
def OptOk : Option State → Prop
  | some t => MemOk t
  | none => True

/-! So have the other answers of the model's operations, whatever they decide. -/

def SRes.Ok {α : Type} : SRes α → Prop
  | .ok _ t | .wait t | .fault _ t => MemOk t

def AtomRes.Ok : AtomRes → Prop
  | .bad _ t | .done _ t => MemOk t
  | .held => True

def QStep.Ok : QStep → Prop
  | .lost t | .prot t | .done _ t => MemOk t
  | .held => True

def TrapW.Ok : TrapW → Prop
  | .ok t | .wait t | .fault _ _ t => MemOk t

def Prep.Ok : Prep → Prop
  | .run _ t _ | .done t => MemOk t

def CollRes.Ok : CollRes → Prop
  | .wait t => MemOk t
  | .fault e | .send e _ | .done e _ => MemOk e.s

/-! An answer that is known gives its state, after a `match` on it: `h.next ‹_›`. -/

theorem OutOk.next {o : Out} {t} (h : OutOk o) (e : o = .next t) : MemOk t := by subst e; exact h
theorem OptOk.get {o : Option State} {t} (h : OptOk o) (e : o = some t) : MemOk t := by subst e; exact h
theorem SRes.Ok.ok {α : Type} {r : SRes α} {x t} (h : r.Ok) (e : r = .ok x t) : MemOk t := by subst e; exact h
theorem SRes.Ok.wait {α : Type} {r : SRes α} {t} (h : r.Ok) (e : r = .wait t) : MemOk t := by subst e; exact h
theorem SRes.Ok.fault {α : Type} {r : SRes α} {f t} (h : r.Ok) (e : r = .fault f t) : MemOk t := by subst e; exact h
theorem AtomRes.Ok.bad {r : AtomRes} {f t} (h : r.Ok) (e : r = .bad f t) : MemOk t := by subst e; exact h
theorem AtomRes.Ok.done {r : AtomRes} {x t} (h : r.Ok) (e : r = .done x t) : MemOk t := by subst e; exact h
theorem QStep.Ok.lost {r : QStep} {t} (h : r.Ok) (e : r = .lost t) : MemOk t := by subst e; exact h
theorem QStep.Ok.prot {r : QStep} {t} (h : r.Ok) (e : r = .prot t) : MemOk t := by subst e; exact h
theorem QStep.Ok.done {r : QStep} {x t} (h : r.Ok) (e : r = .done x t) : MemOk t := by subst e; exact h
theorem TrapW.Ok.ok {r : TrapW} {t} (h : r.Ok) (e : r = .ok t) : MemOk t := by subst e; exact h
theorem TrapW.Ok.wait {r : TrapW} {t} (h : r.Ok) (e : r = .wait t) : MemOk t := by subst e; exact h
theorem TrapW.Ok.fault {r : TrapW} {f a t} (h : r.Ok) (e : r = .fault f a t) : MemOk t := by subst e; exact h
theorem Prep.Ok.run {r : Prep} {i t m} (h : r.Ok) (e : r = .run i t m) : MemOk t := by subst e; exact h
theorem Prep.Ok.done {r : Prep} {t} (h : r.Ok) (e : r = .done t) : MemOk t := by subst e; exact h
theorem CollRes.Ok.wait {r : CollRes} {t} (h : r.Ok) (e : r = .wait t) : MemOk t := by subst e; exact h
theorem CollRes.Ok.fault {r : CollRes} {x} (h : r.Ok) (e : r = .fault x) : MemOk x.s := by subst e; exact h
theorem CollRes.Ok.send {r : CollRes} {x b} (h : r.Ok) (e : r = .send x b) : MemOk x.s := by subst e; exact h
theorem CollRes.Ok.done {r : CollRes} {x n} (h : r.Ok) (e : r = .done x n) : MemOk x.s := by subst e; exact h

/-! ## Changes of the state -/

section
variable {s t : State}

/-- The state of an answer that is a pair. -/
theorem MemOk.snd {α : Type} {x : α × State} {a} (h : MemOk x.2) (e : x = (a, t)) : MemOk t := by subst e; exact h

/-- The state of an engine's run that is answered in a pair. -/
theorem MemOk.runSnd {α : Type} {x : α × ERun} {a e} (h : MemOk x.2.s) (k : x = (a, e)) : MemOk e.s := by subst k; exact h

/-- A change beside the memories and the cores. -/
theorem MemOk.same (h : MemOk s) (hd : t.dmem = s.dmem := by rfl) (hh : t.hmem = s.hmem := by rfl)
    (hc : t.cores = s.cores := by rfl) : MemOk t :=
  ⟨hd ▸ h.device, hh ▸ h.host, hc ▸ h.scratch⟩

theorem MemOk.ite {c : Prop} [Decidable c] (h : MemOk s) (k : MemOk t) : MemOk (if c then s else t) := by
  split
  · exact h
  · exact k

theorem OutOk.ite {c : Prop} [Decidable c] {a b : Out} (h : OutOk a) (k : OutOk b) : OutOk (if c then a else b) := by
  split
  · exact h
  · exact k

theorem MemOk.foldl {α : Type} {l : List α} {f : State → α → State} (h : MemOk s)
    (hf : ∀ t x, MemOk t → MemOk (f t x)) : MemOk (l.foldl f s) :=
  List.foldlRecOn (motive := MemOk) l f h fun t ht x _ => hf t x ht

theorem MemOk.foldlRun {α : Type} {l : List α} {e : ERun} {f : ERun → α → ERun} (h : MemOk e.s)
    (hf : ∀ e x, MemOk e.s → MemOk (f e x).s) : MemOk (l.foldl f e).s :=
  List.foldlRecOn (motive := fun e : ERun => MemOk e.s) l f h fun e he x _ => hf e x he

/-! ## Cores -/

theorem mem_alSet {α : Type} {k : Nat} {v : α} {l : List (Nat × α)} {x} (h : x ∈ alSet k v l) : x = (k, v) ∨ x ∈ l := by
  induction l with
  | nil => simpa [alSet] using h
  | cons y r ih =>
    obtain ⟨j, w⟩ := y
    simp only [alSet] at h
    split at h
    · simpa using h
    · split at h
      · simp only [List.mem_cons] at h ⊢
        exact h.imp_right Or.inr
      · simp only [List.mem_cons] at h ⊢
        rcases h with h | h
        · exact .inr (.inl h)
        · exact (ih h).imp_right Or.inr

theorem mem_of_alGet {α : Type} {k : Nat} {v : α} {l : List (Nat × α)} (h : alGet k l = some v) : (k, v) ∈ l := by
  induction l with
  | nil => simp [alGet] at h
  | cons y r ih =>
    obtain ⟨j, w⟩ := y
    simp only [alGet] at h
    split at h
    · simp_all
    · exact List.mem_cons_of_mem _ (ih h)

/-- The scratchpad of every core is in canonical form, a core in use or not. -/
theorem MemOk.core {c} (h : MemOk s) : Memory.wf (s.core c).scratch = true := by
  unfold State.core
  cases e : alGet c s.cores with
  | none => rfl
  | some k => exact h.scratch _ (mem_of_alGet e)

/-- A core is replaced by one whose scratchpad is in canonical form. -/
theorem MemOk.putCore {c} {k : Core} (h : MemOk s) (hk : Memory.wf k.scratch = true) : MemOk (s.setCore c k) := by
  refine ⟨h.device, h.host, fun x hx => ?_⟩
  obtain rfl | hx := mem_alSet hx
  · exact hk
  · exact h.scratch x hx

/-- A core is changed beside its scratchpad. -/
theorem MemOk.modCore {c} {f : Core → Core} (h : MemOk s) (hf : ∀ k, (f k).scratch = k.scratch := by intro k; rfl) :
    MemOk (s.modCore c f) := h.putCore ((hf _).symm ▸ h.core)

/-- A core changes its scratchpad. -/
theorem MemOk.modScratch {c} {f : Core → Core} (h : MemOk s) (hf : ∀ k, Memory.wf k.scratch = true → Memory.wf (f k).scratch = true) :
    MemOk (s.modCore c f) := h.putCore (hf _ h.core)

/-- The cores are changed beside their scratchpads. -/
theorem MemOk.mapCores {f : Nat × Core → Nat × Core} (h : MemOk s) (hd : t.dmem = s.dmem := by rfl) (hh : t.hmem = s.hmem := by rfl)
    (hc : t.cores = s.cores.map f := by rfl) (hf : ∀ x, (f x).2.scratch = x.2.scratch := by intro x; rfl) : MemOk t := by
  refine ⟨hd ▸ h.device, hh ▸ h.host, fun x hx => ?_⟩
  rw [hc, List.mem_map] at hx
  obtain ⟨y, hy, rfl⟩ := hx
  exact hf y ▸ h.scratch y hy
end

section
variable {s : State}

-- One proof after the other: all of them at once take more memory than the check allows.
set_option Elab.async false

/-! ## Machine/Ops -/

theorem MemOk.setGroup {c g x} (h : MemOk s) : MemOk (s.setGroup c g x) := h.modCore

theorem MemOk.modGroup {c g f} (h : MemOk s) : MemOk (s.modGroup c g f) := by
  unfold State.modGroup
  split
  · exact h.setGroup
  · exact h

theorem MemOk.setCtx {c x} (h : MemOk s) : MemOk (s.setCtx c x) := h.same
theorem MemOk.modCtx {c f} (h : MemOk s) : MemOk (s.modCtx c f) := h.setCtx
theorem MemOk.setVd {v x} (h : MemOk s) : MemOk (s.setVd v x) := h.same
theorem MemOk.modVd {v f} (h : MemOk s) : MemOk (s.modVd v f) := h.setVd
theorem MemOk.setQueue {q x} (h : MemOk s) : MemOk (s.setQueue q x) := h.same
theorem MemOk.modQueue {q f} (h : MemOk s) : MemOk (s.modQueue q f) := h.setQueue
theorem MemOk.modLaunch {id f} (h : MemOk s) : MemOk (s.modLaunch id f) := h.same
theorem MemOk.fresh (h : MemOk s) : MemOk s.fresh.2 := h.same
theorem MemOk.modGroups {p f} (h : MemOk s) : MemOk (s.modGroups p f) := h.mapCores
theorem MemOk.hostSet {a bs} (h : MemOk s) : MemOk (s.hostSet a bs) := ⟨h.device, s.hostSet_wf _ _ h.host, h.scratch⟩
theorem MemOk.freeLane {c lane} (h : MemOk s) : MemOk (s.freeLane c lane) := h.modCore

theorem MemOk.dropClause {c g} (h : MemOk s) : MemOk (s.dropClause c g) := by
  unfold State.dropClause
  split
  · split
    · exact h.setGroup.freeLane
    · exact h
  · exact h

theorem MemOk.haltGroups {c} (h : MemOk s) : MemOk (s.haltGroups c) := h.foldl fun _ _ ht => ht.dropClause.ite ht

theorem MemOk.stopCtx {c code sub pc loc} (h : MemOk s) : MemOk (s.stopCtx c code sub pc loc) := by
  unfold State.stopCtx
  extract_lets x
  split
  · exact h.setCtx.haltGroups
  · exact h.setCtx.haltGroups
  · exact h.setCtx.haltGroups
  · exact h.setCtx
  · exact h

theorem MemOk.countCore {c src n who} (h : MemOk s) : MemOk (s.countCore c src n who) := h.ite h.modCore
theorem MemOk.countDie {d src n who} (h : MemOk s) : MemOk (s.countDie d src n who) := h.ite h.same
theorem MemOk.touch {c d} (h : MemOk s) : MemOk (s.touch c d) := h.modCtx

/-! ## Machine/MapOps -/

theorem MemOk.publish {f} (h : MemOk s) : MemOk (s.publish f) := h.mapCores
theorem MemOk.moveDeadlines {c} (h : MemOk s) : MemOk (s.moveDeadlines c) := h.setCtx.ite h

/-! ## Machine/Memory -/

theorem MemOk.rawSet {p bs} (h : MemOk s) : MemOk (s.rawSet p bs) := by
  unfold State.rawSet
  split
  · exact ⟨h.device, cellsSet_wf _ _ h.host, h.scratch⟩
  · exact ⟨cellsSet_wf _ _ h.device, h.host, h.scratch⟩

theorem MemOk.lineMoved {s0 ctx host wr d} (h : MemOk s0) : MemOk (s0.lineMoved ctx host wr d) := by
  unfold State.lineMoved
  extract_lets s
  have hs : MemOk s := h.ite h.countDie
  split
  · exact hs.modCtx
  · exact hs

theorem MemOk.fabMoved {ctx flits} (h : MemOk s) : MemOk (s.fabMoved ctx flits) := by
  unfold State.fabMoved
  split
  · exact h.modCtx
  · exact h

theorem MemOk.l2Enter {w dirty host line} (h : MemOk s) : MemOk (s.l2Enter w dirty host line) := by
  unfold State.l2Enter
  extract_lets mine d s1 rest s2 new peers ways
  have h1 : MemOk s1 := h.countDie
  have h2 : MemOk s2 := h1.ite h1.lineMoved
  split
  · exact h1.same
  split
  · exact h2.same
  split
  · exact (h2.lineMoved.ite h2).same
  · exact h2.lineMoved.ite h2

theorem MemOk.keepWas {p n l} (h : MemOk s) : MemOk (s.keepWas p n l) := h.same

theorem MemOk.l2Dirty {w p n} (h : MemOk s) : MemOk (s.l2Dirty w p n) := by
  have h1 := h.foldl (l := linesOf p.addr n) (f := fun s l => (s.l2Enter w true p.host l).keepWas p n l)
    fun _ _ ht => ht.l2Enter.keepWas
  exact h1.ite h1.same

theorem MemOk.l2Read {w p n} (h : MemOk s) : MemOk (s.l2Read w p n) := h.foldl fun _ _ ht => ht.l2Enter
theorem MemOk.clearUe {p n} (h : MemOk s) : MemOk (s.clearUe p n) := h.same

theorem MemOk.writeBack {w} (h : MemOk s) : MemOk (s.writeBack w) := by
  unfold State.writeBack
  extract_lets s0 pa s1 key
  have h0 : MemOk s0 := h.l2Dirty
  have h1 : MemOk s1 := h0.foldl fun _ _ ht => ht.rawSet.ite ht
  exact h1.same.ite (h1.clearUe.ite h1)

theorem MemOk.giveUp {p} (h : MemOk s) : MemOk (s.giveUp p) := by
  unfold State.giveUp
  split
  · exact h
  · exact h.modCore.writeBack

theorem MemOk.noteOld {p n} (h : MemOk s) : MemOk (s.noteOld p n) := h.ite h.same

theorem MemOk.homePut {p bs} (h : MemOk s) : MemOk (s.homePut p bs) :=
  (h.noteOld.foldl (fun _ _ ht => ht.giveUp)).l2Dirty.rawSet.clearUe

theorem MemOk.hostPut {a bs} (h : MemOk s) : MemOk (s.hostPut a bs) := h.homePut
theorem MemOk.pirq {cause} (h : MemOk s) : MemOk (s.pirq cause) := h.ite (h.same.ite h.same.hostPut)
theorem MemOk.virq {v cause} (h : MemOk s) : MemOk (s.virq v cause) := h.ite (h.modVd.ite h.modVd.hostPut)
theorem MemOk.ringPut {r n bs} (h : MemOk s) : MemOk (s.ringPut r n bs) := h.homePut
theorem MemOk.dirtyPut {v page} (h : MemOk s) : MemOk (s.dirtyPut v page) := h.ringPut.setVd.virq.ite h.ringPut.setVd

theorem MemOk.logDirty {p} (h : MemOk s) : MemOk (s.logDirty p) := by
  unfold State.logDirty
  split
  · exact h
  · split
    · exact h
    · exact h.ite (h.modVd.ite h.dirtyPut)

theorem MemOk.logSpan {p n} (h : MemOk s) : MemOk (s.logSpan p n) := h.foldl fun _ _ ht => ht.logDirty
theorem MemOk.surrender {p} (h : MemOk s) : MemOk (s.surrender p) := h.giveUp

theorem MemOk.homeWrite {w p bs} (h : MemOk s) : MemOk (s.homeWrite w p bs) :=
  (h.noteOld.foldl (fun _ _ ht => ht.surrender)).l2Dirty.rawSet.clearUe.logSpan

theorem MemOk.lateFault {ctx o f} (h : MemOk s) : MemOk (s.lateFault ctx o f) := h.ite h.stopCtx

theorem MemOk.grant1 {c p} (h : MemOk s) : MemOk (s.grant1 c p) := by
  unfold State.grant1
  split
  · exact h
  · split
    · exact h.modCore.lateFault
    · exact h.noteOld.surrender.modCore.logDirty

theorem MemOk.grant {c p} (h : MemOk s) : MemOk (s.grant c p) := by
  unfold State.grant
  split
  · exact h
  · exact h.grant1.grant1.ite h.grant1

theorem MemOk.l1StoreByte {c ctx o wide p b} (h : MemOk s) : MemOk (s.l1StoreByte c ctx o wide p b) := by
  unfold State.l1StoreByte
  refine h.modCore fun k => ?_
  split
  · rfl
  · dsimp only
    split <;> rfl

theorem MemOk.l1Store {c ctx o p bs} (h : MemOk s) : MemOk (s.l1Store c ctx o p bs) :=
  (h.noteOld.foldl (fun _ _ ht => ht.l1StoreByte)).modCore.foldl fun _ _ ht => ht.logDirty.ite ht

theorem MemOk.fetchLine {c p} (h : MemOk s) : MemOk (s.fetchLine c p) :=
  h.ite (h.modCore.foldl (fun _ _ ht => ht.ite ht.modCore))

theorem MemOk.l1Load {c p n} (h : MemOk s) : MemOk (s.l1Load c p n).2 := h.ite h.fetchLine
theorem MemOk.dropCopies {c p n} (h : MemOk s) : MemOk (s.dropCopies c p n) := h.modCore
theorem MemOk.l1Acquire {c} (h : MemOk s) : MemOk (s.l1Acquire c) := h.modCore
theorem MemOk.unlessHeld {t} (h : MemOk s) (ht : MemOk t) : MemOk (s.unlessHeld t) := h.ite ht

theorem MemOk.l1Release {c} (h : MemOk s) : MemOk (s.l1Release c) :=
  h.foldl fun _ _ ht => ht.ite (ht.unlessHeld ht.grant.surrender)

theorem MemOk.dropLine {c p} (h : MemOk s) : MemOk (s.dropLine c p) := by
  unfold State.dropLine
  exact (h.foldl (fun _ _ ht => ht.grant.surrender)).modCore

theorem MemOk.l1MakeRoom {c p} (h : MemOk s) : MemOk (s.l1MakeRoom c p) := by
  unfold State.l1MakeRoom
  split
  · exact h
  · extract_lets k
    split
    · exact h.dropLine
    · exact h

theorem MemOk.l2Demote {p} (h : MemOk s) : MemOk (s.l2Demote p) := h.same
theorem MemOk.touchReads {ctx as} (h : MemOk s) : MemOk (s.touchReads ctx as) := h.foldl fun _ _ ht => ht.touch.l2Read

theorem MemOk.touchLost {c ctx extra va} (h : MemOk s) : MemOk (s.touchLost c ctx extra va) := by
  unfold State.touchLost
  split
  · exact h.touch
  · exact h

theorem MemOk.tlbMissed {c ctx extra vas} (h : MemOk s) : MemOk (s.tlbMissed c ctx extra vas) := h.countCore
theorem MemOk.missedAll {c ctx extra vas} (h : MemOk s) : MemOk (s.missedAll c ctx extra vas) := h.countCore

theorem MemOk.fillTlb {c e} (h : MemOk s) : MemOk (s.fillTlb c e) := by
  unfold State.fillTlb
  extract_lets s1
  have h1 : MemOk s1 := h.modCore
  exact h1.same

theorem MemOk.startWalk {die ctx vpage k who} (h : MemOk s) : MemOk (s.startWalk die ctx vpage k who) := by
  unfold State.startWalk
  split
  · exact h.same
  · exact h.ite h.same.same

theorem MemOk.cacheInner {die ds} (h : MemOk s) : MemOk (s.cacheInner die ds) := h.same
theorem MemOk.forgetWalks {who} (h : MemOk s) : MemOk (s.forgetWalks who) := h.same
theorem MemOk.forgetSinter (h : MemOk s) : MemOk s.forgetSinter := h.same
theorem MemOk.touchSpan {ctx p n} (h : MemOk s) : MemOk (s.touchSpan ctx p n) := h.foldl fun _ _ ht => ht.touch

theorem MemOk.xlatNow {die ctx k who va} (h : MemOk s) : MemOk (s.xlatNow die ctx k who va).2 := by
  unfold State.xlatNow
  extract_lets x finish r s0 s1
  split
  · exact h
  split
  · exact h
  have hfin {t e} (ht : MemOk t) : MemOk (finish t e).2 := by
    unfold finish
    split
    · exact ht.touch
    · exact ht.touch.ite ht
    · exact ht
  split
  · exact h
  · exact hfin h
  · exact h.startWalk
  · split
    · exact h
    split
    · exact h
    have h0 : MemOk s0 := h.touchReads.countDie
    have h1 : MemOk s1 := by
      unfold s1
      split
      · exact h0.cacheInner
      · exact h0
    split
    · exact hfin h1
    · exact h1
    · exact h.startWalk

theorem MemOk.gread {die ctx who va n} (h : MemOk s) : MemOk (s.gread die ctx who va n).2 := by
  refine List.foldlRecOn (motive := fun x : GRead × State => MemOk x.2) _ _ h fun x hx y _ => ?_
  have hw := hx.xlatNow (die := die) (ctx := ctx) (k := .rd) (who := who) (va := y.1 % 2 ^ 64)
  dsimp only
  split
  · split
    · have h2 := (hw.snd ‹_›).touchSpan (ctx := ctx) (p := ‹PA›) (n := y.2)
      split
      · exact h2
      · split
        · exact h2
        · split
          · exact h2.l2Read
          · exact h2.l2Read
    · exact hw.snd ‹_›
    · exact hw.snd ‹_›
    · exact hw.snd ‹_›
  · exact hx

theorem MemOk.gwrite {die ctx who va bs} (h : MemOk s) : MemOk (s.gwrite die ctx who va bs).2 := by
  refine List.foldlRecOn (motive := fun x : GRead × State × List Byte => MemOk x.2.1) _ _ h fun x hx y _ => ?_
  have hw := hx.xlatNow (die := die) (ctx := ctx) (k := .wr) (who := who) (va := y.1 % 2 ^ 64)
  dsimp only
  split
  · split
    · have h2 := (hw.snd ‹_›).touchSpan (ctx := ctx) (p := ‹PA›) (n := y.2)
      split
      · exact h2.unlessHeld h2.homeWrite
      · split
        · exact h2
        · exact h2.homeWrite
    · exact hw.snd ‹_›
    · exact hw.snd ‹_›
    · exact hw.snd ‹_›
  · exact hx

theorem MemOk.keepWait {t} (h : MemOk s) (ht : MemOk t) : MemOk (s.keepWait t) := h.same.ite ht
theorem MemOk.keepOld {c gid m at_ a n} (h : MemOk s) : MemOk (s.keepOld c gid m at_ a n) := h.modCore

theorem MemOk.scratchSet {c a bs} (h : MemOk s) : MemOk (s.scratchSet c a bs) :=
  h.modScratch fun _ hk => cellsSet_wf _ _ hk

theorem MemOk.accSet {c ctx w v} (h : MemOk s) : MemOk (s.accSet c ctx w v) := by
  unfold State.accSet
  refine h.modCore fun k => ?_
  dsimp only
  split <;> rfl

/-! ## Machine/Operands -/

theorem MemOk.popN {core bid q n} (h : MemOk s) : MemOk (s.popN core bid q n) := h.modCore

theorem MemOk.push1 {core bid q w} (h : MemOk s) : MemOk (s.push1 core bid q w) := by
  unfold State.push1
  split
  · exact h
  · exact h.scratchSet.modCore

/-! ## Machine/Engine -/

theorem MemOk.bad {sub va} {e : ERun} (h : MemOk e.s) : MemOk (e.bad sub va).s := h

theorem MemOk.badCode {f va} {e : ERun} (h : MemOk e.s) : MemOk (e.badCode f va).s := by
  unfold ERun.badCode
  split
  · exact h
  · exact h.bad

theorem MemOk.noteReads {rs} {e : ERun} (h : MemOk e.s) : MemOk (e.noteReads rs).s := by
  unfold ERun.noteReads
  split <;> exact h

theorem MemOk.readScr {c b sw a n} {e : ERun} (h : MemOk e.s) : MemOk (e.readScr c b sw a n).2.s := by
  unfold ERun.readScr
  dsimp only
  split
  · exact h.same.noteReads.bad
  · exact h.same.noteReads

theorem MemOk.readPage {o p va n} {e : ERun} (h : MemOk e.s) : MemOk (e.readPage o p va n).2.s := by
  unfold ERun.readPage
  extract_lets s1 at_ broken vs e1
  have he1 : MemOk e1.s := h.touchSpan.l2Read.noteReads
  dsimp only
  split
  · split
    · exact he1.badCode
    · exact he1.badCode
    · exact he1
  · exact he1

theorem MemOk.readMem {c o va n} {e : ERun} (h : MemOk e.s) : MemOk (e.readMem c o va n).2.s := by
  unfold ERun.readMem
  refine List.foldlRecOn (motive := fun x : List (Option Byte) × ERun => MemOk x.2.s) _ _ h fun x hx y _ => ?_
  have hw := hx.xlatNow (die := dieOf c) (ctx := o.ctx) (k := .rd) (who := .op c o.id) (va := y.1 % 2 ^ 64)
  dsimp only
  split
  · split
    · exact hw.snd ‹_›
    · exact (hw.snd ‹_›).readPage (e := { x.2 with s := _ })
  · exact hw.snd ‹_›
  · exact hw.snd ‹_›
  · exact (hw.snd ‹_›).badCode (e := { x.2 with s := _ })

theorem MemOk.putRuns {put bs} {e : ERun} (h : MemOk e.s)
    (hput : ∀ (e : ERun) (off : Nat) (bs : List Byte), MemOk e.s → MemOk (put e off bs).s) : MemOk (e.putRuns put bs).s :=
  h.foldlRun fun _ _ he => hput _ _ _ he

theorem MemOk.writeScr {b sw a bs} {e : ERun} (h : MemOk e.s) : MemOk (e.writeScr b sw a bs).s := h

theorem MemOk.writePage {v p va bs} {e : ERun} (h : MemOk e.s) : MemOk (e.writePage v p va bs).s := by
  unfold ERun.writePage
  split
  · exact h
  · refine h.foldlRun fun e x he => ?_
    dsimp only
    split
    · exact he.badCode
    · exact he

theorem MemOk.writeMem {c o va bs} {e : ERun} (h : MemOk e.s) : MemOk (e.writeMem c o va bs).s := by
  unfold ERun.writeMem
  refine List.foldlRecOn (motive := fun x : ERun × List Byte => MemOk x.1.s) _ _ h fun x hx y _ => ?_
  have hw := hx.xlatNow (die := dieOf c) (ctx := o.ctx) (k := .wr) (who := .op c o.id) (va := y.1 % 2 ^ 64)
  dsimp only
  split
  · exact (hw.snd ‹_›).touchSpan.writePage (e := { x.1 with s := _ })
  · exact (hw.snd ‹_›).badCode (e := { x.1 with s := _ })
  · exact hw.snd ‹_›
  · exact (hw.snd ‹_›).badCode (e := { x.1 with s := _ })

theorem MemOk.cpyRow_ok {c b o r} {e : ERun} (h : MemOk e.s) : MemOk (cpyRow c b o e r).s := by
  unfold cpyRow
  extract_lets p conv put
  split
  rename_i sa da _
  have hr : MemOk (if cpySrcGlob p then e.readMem c o (wrap 64 sa) (cpyN0 p) else e.readScr c b 0 (wrap 24 sa) (cpyN0 p)).2.s := by
    split
    · exact h.readMem
    · exact h.readScr
  split
  have he := hr.runSnd ‹_›
  have hput {a sw} (e : ERun) (off : Nat) (bs : List Byte) (ht : MemOk e.s) : MemOk (put a sw e off bs).s := by
    unfold put
    split
    · exact ht.writeMem
    · exact ht.writeScr
  split
  · exact he.putRuns hput
  · extract_lets xs
    split
    extract_lets e2
    have he2 : MemOk e2.s := MemOk.putRuns he hput
    split
    · exact he2.putRuns hput
    · exact he2

theorem MemOk.gathRow_ok {c b o i} {e : ERun} (h : MemOk e.s) : MemOk (gathRow c b o e i).s := by
  unfold gathRow
  extract_lets p
  split
  have he := MemOk.runSnd h.readScr ‹_›
  split
  · exact he
  · extract_lets x
    split
    · split
      have hm := MemOk.runSnd he.readMem ‹_›
      exact hm.putRuns fun _ _ _ ht => ht.writeScr
    · split
      · exact he.writeScr
      · exact he.bad

theorem MemOk.readAcc {c ctx w} {e : ERun} (h : MemOk e.s) : MemOk (e.readAcc c ctx w).2.s := by
  unfold ERun.readAcc
  split
  · exact h.noteReads
  · split
    · exact h
    · split
      · exact h.bad
      · exact h.noteReads

theorem MemOk.writeAcc {w vs} {e : ERun} (h : MemOk e.s) : MemOk (e.writeAcc w vs).s := by
  unfold ERun.writeAcc
  split <;> exact h

theorem MemOk.mmaRow_ok {c b o i} {e : ERun} (h : MemOk e.s) : MemOk (mmaRow c b o e i).s := by
  have hscr {q : Bool} {e : ERun} {a n} (h : MemOk e.s) : MemOk (if q then e.readScr c b 0 a n else ([], e)).2.s := by
    split
    · exact h.readScr
    · exact h
  have hacc {q : Bool} {e : ERun} {w} (h : MemOk e.s) : MemOk (if q then (some 0, e) else e.readAcc c o.ctx w).2.s := by
    split
    · exact h
    · exact h.readAcc
  unfold mmaRow
  extract_lets p k kb
  split
  have h0 := (hscr h).runSnd ‹_›
  split
  have h1 := h0.readScr.runSnd ‹_›
  split
  have h2 := (hscr h1).runSnd ‹_›
  split
  · refine h2.foldlRun fun t j ht => ?_
    split
    have h3 := (hacc ht).runSnd ‹_›
    split
    · exact MemOk.writeAcc h3
    · exact h3
  · exact h2

theorem MemOk.adrnRow_ok {c b o i} {e : ERun} (h : MemOk e.s) : MemOk (adrnRow c b o e i).s := by
  unfold adrnRow
  extract_lets p conv put
  split
  rename_i vs e1 hr
  have h1 : MemOk e1.s := by
    refine MemOk.runSnd ?_ hr
    exact List.foldlRecOn (motive := fun x : List (Option Word) × ERun => MemOk x.2.s) _ _ h fun x hx j _ => hx.readAcc
  split
  extract_lets e2 e3
  have hput {sw a} (e : ERun) (off : Nat) (bs : List Byte) (ht : MemOk e.s) : MemOk (put sw a e off bs).s := ht.writeScr
  have h2 : MemOk e2.s := MemOk.putRuns h1 hput
  have h3 : MemOk e3.s := by
    unfold e3
    split
    · exact h2.putRuns hput
    · exact h2
  split
  · refine h3.foldlRun fun t x ht => ?_
    split
    split
    · exact ht.writeAcc
    · exact ht
  · exact h3

theorem MemOk.aclrRow_ok {o t} {e : ERun} (h : MemOk e.s) : MemOk (aclrRow o e t).s := by
  unfold aclrRow
  split
  · exact h.foldlRun fun _ _ he => he.writeAcc
  · exact h

theorem MemOk.keepWrites {part done ws} (h : MemOk s) : MemOk (s.keepWrites part done ws).2 :=
  List.foldlRecOn (motive := fun x : List EWrite × State × List EWrite => MemOk x.2.1) ws _ h fun _ hx _ _ => hx.same

theorem MemOk.eWrite {c ctx w} (h : MemOk s) : MemOk (s.eWrite c ctx w) := by
  unfold State.eWrite
  split
  · exact h.scratchSet
  · exact h.homeWrite
  · exact h.accSet

theorem MemOk.eApply {c ctx part done ws} (h : MemOk s) : MemOk (s.eApply c ctx part done ws) := by
  unfold State.eApply
  dsimp only
  exact h.keepWrites.foldl fun _ _ ht => ht.eWrite

theorem MemOk.row {o : EngOp} {c b i} {e : ERun} (h : MemOk e.s) : MemOk (o.row c b e i).s := by
  unfold EngOp.row
  split
  · exact h.cpyRow_ok
  · exact h.gathRow_ok
  · exact h.mmaRow_ok
  · exact h.aclrRow_ok
  · exact h.adrnRow_ok
  · exact h

theorem MemOk.run {o : EngOp} {c b} {e : ERun} (h : MemOk e.s) : MemOk (o.run c b e).s :=
  h.foldlRun fun _ _ he => he.row

theorem MemOk.again {o : EngOp} {c b} {e : ERun} (h : MemOk e.s) : MemOk (o.again c b e).s := h.same
theorem MemOk.startRun {c o} (h : MemOk s) : MemOk (s.startRun c o).s := h

theorem MemOk.payload {c o} (h : MemOk s) : MemOk (s.payload c o).s := by
  unfold State.payload
  extract_lets b
  have hrun {t : State} (ht : MemOk t) : MemOk (o.run c b (t.startRun c o)).s := ht.startRun.run
  split
  · exact MemOk.foldlRun (hrun h.same) fun _ _ he => he.again
  · exact MemOk.foldlRun (hrun h.same) fun _ _ he => he.again
  · exact hrun h

theorem MemOk.putFrames {die ctx fs} (h : MemOk s) : MemOk (s.putFrames die ctx fs) := h.countDie.fabMoved.same
theorem MemOk.sendFrames {c ctx ch ks kind bs} (h : MemOk s) : MemOk (s.sendFrames c ctx ch ks kind bs) := h.putFrames
theorem MemOk.sendAbort {c ctx ch} (h : MemOk s) : MemOk (s.sendAbort c ctx ch) := h.sendFrames.same

theorem MemOk.partWrite {c o} {e : ERun} (h : MemOk s) (he : MemOk e.s) : MemOk (s.partWrite c o e) :=
  (h.unlessHeld he.eApply).same.countDie

theorem MemOk.cancelOp {c o} (h : MemOk s) : MemOk (s.cancelOp c o) := by
  unfold State.cancelOp
  extract_lets s1 s2
  have h1 : MemOk s1 := (h.partWrite h.payload).ite h
  have h2 : MemOk s2 := h1.modCore
  exact (h2.sendAbort.ite h2).forgetWalks.ite h

theorem MemOk.cancelAll {c os} (h : MemOk s) : MemOk (s.cancelAll c os) := h.foldl fun _ _ ht => ht.cancelOp
theorem MemOk.cancelOps {c gid} (h : MemOk s) : MemOk (s.cancelOps c gid) := h.cancelAll

/-! ## Machine/Races -/

theorem MemOk.note {e} (h : MemOk s) : MemOk (s.note e) := h.same.ite h.same

theorem MemOk.noteThs {c gid m e} (h : MemOk s) : MemOk (s.noteThs c gid m e) := by
  unfold State.noteThs
  split
  · exact h
  · exact h.note

theorem MemOk.noteNew {c gid m e} (h : MemOk s) : MemOk (s.noteNew c gid m e) := h.same.noteThs
theorem MemOk.noteGot {id got put} (h : MemOk s) : MemOk (s.noteGot id got put) := h.same

theorem MemOk.noteFence {c gid m id kind scope} (h : MemOk s) : MemOk (s.noteFence c gid m id kind scope) :=
  h.same.noteThs

theorem MemOk.noteStores {c gid rel buffered parts} (h : MemOk s) : MemOk (s.noteStores c gid rel buffered parts) :=
  h.foldl fun _ _ ht => ht.noteNew

theorem MemOk.forgetRows {c rows} (h : MemOk s) : MemOk (s.forgetRows c rows) := h.same

theorem MemOk.freeBytes {ctx p} (h : MemOk s) : MemOk (s.freeBytes ctx p) := by
  unfold State.freeBytes
  extract_lets at_ bs s1 word
  have h1 : MemOk s1 := h.same
  split
  · exact h1.modScratch fun _ hk => cellsSet_wf _ _ hk
  · exact h1.ite h1.accSet
  · have h2 := h1.rawSet (p := p.pa) (bs := bs)
    refine ⟨h2.device, h2.host, fun x hx => ?_⟩
    obtain ⟨y, hy, rfl⟩ := List.mem_map.mp hx
    exact h1.scratch y hy

theorem MemOk.scramble {a b} (h : MemOk s) : MemOk (s.scramble a b) := by
  unfold State.scramble
  split
  · exact h.freeBytes.ite h
  · exact h

/-! ## Machine/Access -/

theorem MemOk.loadPart {c l o n} (h : MemOk s) : MemOk (s.loadPart c l o n).2.2.2 := by
  unfold State.loadPart
  extract_lets src pa cured g h'
  split
  · exact h
  · exact h
  · split
    split
    · exact h
    · extract_lets past hit s1 ue
      have h1 : MemOk s1 := h.countCore
      split
      · exact h1
      · have h2 : MemOk (if past then (s1.homeBytes pa n, s1) else s1.l1Load h' pa n).2 := by
          split
          · exact h1
          · exact h1.l1Load
        split
        have h3 := h2.snd ‹_›
        exact h3.ite h3.l2Read

theorem MemOk.serveHalf {c l up} (h : MemOk s) : MemOk (s.serveHalf c l up) := by
  unfold State.serveHalf
  extract_lets s0 n o f
  have h0 : MemOk s0 := h.l1Acquire.ite h
  split
  rename_i bs ue e s1 hp
  extract_lets mine bad s2 got s3
  have h1 : MemOk s1 := by
    have := h0.loadPart (c := c) (l := l) (o := o) (n := n)
    rwa [hp] at this
  have h2 : MemOk s2 := h1.same.ite h1
  have h3 : MemOk s3 := by
    unfold s3
    cases got with
    | none => exact h2
    | some bs => exact h2.noteGot
  exact h3.modCore

theorem MemOk.serve {c l} (h : MemOk s) : MemOk (s.serve c l) := h.serveHalf

theorem MemOk.serveWhole {c l} (h : MemOk s) : MemOk (s.serveWhole c l) := by
  unfold State.serveWhole
  extract_lets s1
  have hs1 : MemOk s1 := h.serve
  split
  · exact hs1.serve.ite hs1
  · exact hs1

theorem MemOk.serveFor {c ts p before} (h : MemOk s) : MemOk (s.serveFor c ts p before) :=
  h.foldl fun _ _ ht => ht.serveWhole

theorem MemOk.serveMet {c gid m p before} (h : MemOk s) : MemOk (s.serveMet c gid m p before) := h.serveFor
theorem MemOk.serveInOrder {c l} (h : MemOk s) : MemOk (s.serveInOrder c l) := h.serveFor.serve

theorem MemOk.serveAll {c gid m before} (h : MemOk s) : MemOk (s.serveAll c gid m before) :=
  h.foldl fun _ _ ht => ht.serveFor.serveWhole

theorem MemOk.queueStore {c w rel strm p bs after} (h : MemOk s) : MemOk (s.queueStore c w rel strm p bs after) := by
  unfold State.queueStore
  exact h.same.modCore

theorem MemOk.storeGlobal {c w rel strm pa bs} (h : MemOk s) : MemOk (s.storeGlobal c w rel strm pa bs) :=
  h.queueStore.ite <| (h.ite h.dropLine).queueStore.ite <| h.queueStore.ite (h.queueStore.ite h.serveMet.l1Store)

theorem MemOk.storeScratch {c w tgt a bs after} (h : MemOk s) : MemOk (s.storeScratch c w tgt a bs after) :=
  h.queueStore.ite h.serveMet.keepOld.scratchSet

theorem MemOk.storeAcc {c w a bs} (h : MemOk s) : MemOk (s.storeAcc c w a bs) := h.queueStore.ite h.serveMet.accSet

theorem MemOk.issueStores {c ctx launch gid pc rel strm parts buffered} (h : MemOk s) :
    MemOk (s.issueStores c ctx launch gid pc rel strm parts buffered) := by
  unfold State.issueStores
  extract_lets s1 since
  have h1 : MemOk s1 := h.noteStores
  refine h1.foldl fun t x ht => ?_
  dsimp only
  split
  · exact ht.queueStore
  · split
    · exact ht.storeGlobal
    · exact ht.storeScratch
    · exact ht.storeAcc

theorem MemOk.fenceAct {c gid m before kind scope fused} (h : MemOk s) :
    MemOk (s.fenceAct c gid m before kind scope fused) := by
  unfold State.fenceAct
  extract_lets h' t s0 s1
  have h0 : MemOk s0 := MemOk.ite (h.noteFence.serveAll.modCore fun _ => by split <;> rfl) h.noteFence
  have h1 : MemOk s1 := h0.l1Release.ite h0
  exact h0.ite (h1.l1Acquire.ite h1)

/-! ## Machine/Retire -/

theorem MemOk.trace {core gid slot typ data} (h : MemOk s) : MemOk (s.trace core gid slot typ data) := by
  unfold State.trace
  split
  · exact h
  · split
    · exact h
    · exact h.ite (h.modVd.ite h.ringPut.modVd)

theorem MemOk.traceAll {core gid m typ data} (h : MemOk s) : MemOk (s.traceAll core gid m typ data) :=
  h.foldl fun _ _ ht => ht.trace

theorem MemOk.stepFault {core gid m} (h : MemOk s) : MemOk (s.stepFault core gid m) := by
  unfold State.stepFault
  split
  · exact h
  · exact h.ite h.setGroup.traceAll

theorem MemOk.notifyHalts {c gid} (h : MemOk s) : MemOk (s.notifyHalts c gid) := by
  unfold State.notifyHalts
  split
  · exact h
  · exact h.ite (h.same.traceAll.ite h.same)

theorem MemOk.enterStop {c x} (h : MemOk s) : MemOk (s.enterStop c x) := h.setCtx.pirq

theorem MemOk.unfuse {c} (h : MemOk s) : MemOk (s.unfuse c) :=
  (h.l1Release.ite (h.l1Release.foldl (fun _ _ ht => ht.modCore))).ite h

theorem MemOk.discardCtx {ctx} (h : MemOk s) : MemOk (s.discardCtx ctx) :=
  (h.foldl (fun _ _ ht => ht.cancelAll)).mapCores.forgetSinter.foldl fun _ _ ht => ht.unfuse

theorem MemOk.loseCtx {ctx} (h : MemOk s) : MemOk (s.loseCtx ctx) :=
  h.ite (h.discardCtx.setCtx.ite h.discardCtx.setCtx.pirq)

theorem MemOk.raise {core gid pf} (h : MemOk s) : MemOk (s.raise core gid pf) := by
  unfold State.raise
  split
  · split
    · exact h.loseCtx
    · split
      · exact h.stopCtx
      · split
        · exact h.setGroup.stopCtx
        · exact h.setGroup
  · exact h

theorem MemOk.settle {core gid} (h : MemOk s) : MemOk (s.settle core gid) := by
  unfold State.settle
  split
  · exact h
  · split
    · exact h
    · exact h.setGroup.stopCtx.ite h

theorem MemOk.ctxDrained {ctx} (h : MemOk s) : MemOk (s.ctxDrained ctx) := h.ite h.modCtx

theorem MemOk.releaseBlock {c b} (h : MemOk s) : MemOk (s.releaseBlock c b) := by
  unfold State.releaseBlock
  split
  · exact h.ite h.modCore
  · extract_lets mine cs s1
    have h1 : MemOk s1 := h.foldl fun _ _ ht => ht.modCore
    exact (h1.unfuse.ite h1).ite h

theorem MemOk.tryRetireBlock {c bid} (h : MemOk s) : MemOk (s.tryRetireBlock c bid) := by
  unfold State.tryRetireBlock
  split
  · exact h
  · split
    · exact h
    · extract_lets s1
      have h1 : MemOk s1 := h.modCore
      split
      exact (h1.fresh.snd ‹_›).modLaunch.releaseBlock.ctxDrained

theorem MemOk.stopAsync {core gid g m f} (h : MemOk s) : MemOk (s.stopAsync core gid g m f) :=
  h.stepFault.modGroup.stopCtx

theorem MemOk.tryRetire {c gid} (h : MemOk s) : MemOk (s.tryRetire c gid) := by
  unfold State.tryRetire
  split
  · exact h
  · split
    · split
      · split
        · exact h
        · split
          · exact h.stopAsync
          · exact h.same.modCore.tryRetireBlock
      · split
        · exact h
        · split
          · exact h.stopAsync
          · exact h.same.modCore.tryRetireBlock
    · split
      · split
        · exact h
        · split
          · exact h.stopAsync
          · exact h.same.modCore.tryRetireBlock
      · split
        · exact h
        · split
          · exact h.stopAsync
          · exact h.same.modCore.tryRetireBlock

theorem MemOk.releaseBar {c bid} (h : MemOk s) : MemOk (s.releaseBar c bid) := h.ite h.modCore

theorem MemOk.checkBarrier {c bid} (h : MemOk s) : MemOk (s.checkBarrier c bid) := by
  unfold State.checkBarrier
  split
  · exact h
  · exact h.ite h.modCore.releaseBar

theorem MemOk.sweep {c} (h : MemOk s) : MemOk (s.sweep c) := by
  unfold State.sweep
  exact MemOk.unfuse <| MemOk.foldl (h.foldl fun _ _ ht => ht.releaseBar) fun _ _ ht => ht.foldl fun _ _ hu => hu.releaseBlock

theorem MemOk.countExits {c bid n} (h : MemOk s) : MemOk (s.countExits c bid n) := h.modCore.checkBarrier

theorem MemOk.commitEntry {c gid g fused x} (h : MemOk s) : MemOk (s.commitEntry c gid g fused x) := by
  unfold State.commitEntry
  split
  · extract_lets s1
    have h1 : MemOk s1 := h.foldl fun _ _ ht => ht.touch
    exact h.ite (h1.loseCtx.ite h1.issueStores)
  · exact h.ite (h.fenceAct.ite h.same.noteFence.modCore)

theorem MemOk.commitRegion {c gid} (h : MemOk s) : MemOk (s.commitRegion c gid) := by
  unfold State.commitRegion
  split
  · exact h
  · split
    · exact h
    · exact (h.setGroup.foldl (fun _ _ ht => ht.commitEntry)).countExits

theorem MemOk.restartGroup {c gid drop} (h : MemOk s) : MemOk (s.restartGroup c gid drop) := by
  unfold State.restartGroup
  split
  · exact h
  · extract_lets s1 s2 s3 s4
    have h1 : MemOk s1 := h.ite h.cancelOps.dropClause
    have h2 : MemOk s2 := h.ite h1.modGroup
    have h3 : MemOk s3 := h2.modCore.ite h2
    have h4 : MemOk s4 := h3.modGroup.ite h3
    exact h.ite (h4.ite h4.modLaunch)

/-! ## Machine/Lane -/

theorem MemOk.finishClause {c gid w} (h : MemOk s) : MemOk (s.finishClause c gid w) := by
  unfold State.finishClause
  split
  · exact h
  · split
    · exact h
    · exact (h.dropClause.commitRegion.ite h.dropClause).modGroup.settle.tryRetire

theorem MemOk.endClause {c gid} (h : MemOk s) : MemOk (s.endClause c gid) := h.finishClause
theorem MemOk.leaveClause {c gid w} (h : MemOk s) : MemOk (s.leaveClause c gid w) := h.dropClause.modGroup.settle

theorem MemOk.breakClause {c gid w} (h : MemOk s) : MemOk (s.breakClause c gid w) := by
  unfold State.breakClause
  refine MemOk.leaveClause ?_
  split
  · exact h.countCore
  · exact h

theorem MemOk.passStep {c gid len finfo ok faults latch target} (h : MemOk s) :
    MemOk (s.passStep c gid len finfo ok faults latch target) := by
  unfold State.passStep
  split
  · exact h
  · split
    · exact h
    · exact h.setGroup.traceAll.raise

theorem MemOk.passEnd {c gid len finfo ok faults latch target} (h : MemOk s) :
    MemOk (s.passEnd c gid len finfo ok faults latch target) :=
  h.passStep.endClause.ite h.passStep

theorem MemOk.passLast {c gid len finfo ok faults target w early} (h : MemOk s) (hearly : ∀ t, MemOk t → MemOk (early t)) :
    
    MemOk (s.passLast c gid len finfo ok faults target w early) := by
  unfold State.passLast
  extract_lets s1
  have h1 : MemOk s1 := h.passStep
  split
  · exact h1
  · exact h1.finishClause.ite (hearly _ h1)

theorem MemOk.passBreak {c gid len finfo ok faults target w} (h : MemOk s) :
    MemOk (s.passBreak c gid len finfo ok faults target w) :=
  h.passLast fun _ hs1 => hs1.breakClause

theorem MemOk.writeDst {p o ok full lo hi sp} (h : MemOk s) : MemOk (s.writeDst p o ok full lo hi sp) := by
  unfold State.writeDst
  split
  · exact h
  · exact h.ite h.modGroup
  · exact h
  · exact h.ite <| h.push1.ite (h.foldl (fun _ _ ht => ht.push1))
  · exact h.modGroup

theorem MemOk.laneFront {o k} (h : MemOk s) (hk : ∀ p vs ue, MemOk (k p vs ue)) : MemOk (s.laneFront o k) := by
  unfold State.laneFront
  split
  · exact h
  · exact h.passEnd.ite <| h.passEnd.ite <| h.passEnd.ite <| h.passEnd.ite <| h.breakClause.ite <| h.ite (hk _ _ _)

theorem MemOk.popAll {p o} (h : MemOk s) : MemOk (s.popAll p o) := h.foldl fun _ _ ht => ht.popN

theorem MemOk.laneEffect {o p ok full good c post} (h : MemOk s) (hpost : ∀ p good t, MemOk t → MemOk (post p good t)) :
    
    MemOk (s.laneEffect o p ok full good c post) := hpost _ _ _ h.popAll.writeDst.modGroup

theorem MemOk.laneOp {o f sp post} (h : MemOk s) (hpost : ∀ p rs t, MemOk t → MemOk (post p rs t)) :
    MemOk (s.laneOp o f sp post) :=
  h.laneFront fun _ _ _ => (h.ite (h.laneEffect hpost)).passEnd

/-- A lane instruction without further effects. -/
theorem MemOk.laneRun {o f sp} (h : MemOk s) : MemOk (s.laneOp o f sp) := h.laneOp fun _ _ _ ht => ht

theorem MemOk.tally {launch pc opcode exec t} (h : MemOk s) : MemOk (s.tally launch pc opcode exec t) := h.modLaunch
theorem MemOk.tallyPost_ok {i u p rs} (h : MemOk s) : MemOk (tallyPost i u p rs s) := h.tally

/-! ## Machine/Fetch -/

theorem MemOk.codeStep {launch p} (h : MemOk s) : MemOk (s.codeStep launch p) := h.same.ite h
theorem MemOk.codeSeen {launch ctx p} (h : MemOk s) : MemOk (s.codeSeen launch ctx p) := h.modLaunch.l2Read

theorem MemOk.cutClause {c gid} (h : MemOk s) : MemOk (s.cutClause c gid) := by
  unfold State.cutClause
  split
  · exact h
  · split
    · exact h
    · exact h.setGroup.modCore.settle

theorem MemOk.afterCut {c gid left} (h : MemOk s) : MemOk (s.afterCut c gid left) := by
  unfold State.afterCut
  split
  · split
    · exact h.cutClause.ite h
    · exact h
  · exact h.modGroup.cutClause

theorem MemOk.countPass {c ctx w k} (h : MemOk s) : MemOk (s.countPass c ctx w k) := by
  unfold State.countPass
  exact h.countCore.countCore.countCore.modCtx

theorem MemOk.codeFault {c gid g cl ex a} (h : MemOk s) : MemOk (s.codeFault c gid g cl ex a) :=
  h.setGroup.traceAll.raise

theorem MemOk.prepPass {c gid} (h : MemOk s) : (s.prepPass c gid).Ok := by
  unfold State.prepPass
  split
  · exact h
  split
  · exact h
  rename_i g _ cl _
  extract_lets ex p
  split
  · split
    · exact h.passEnd.afterCut
    · exact h.codeFault
  rename_i w _
  extract_lets len none_ hit lits s0 s1 ex1 s2 left
  have h0 : MemOk s0 := h.codeStep.countPass
  have h1 : MemOk s1 := h0.ite h0.modGroup.traceAll
  split
  · exact h1.passEnd.afterCut
  cases lits with
  | inr q =>
    dsimp only
    split
    · exact h1.codeFault
    · exact h1
  | inl ls =>
    dsimp only
    split
    · exact h1.passEnd
    · have h2 : MemOk s2 := h1.same
      split
      · have h3 : MemOk { s2 with free := s2.free + 1 } := h2.same
        split
        · exact h3.cutClause
        · exact h3.modGroup
      · exact h2
    · exact h1

/-! ## Machine/Issue -/

theorem MemOk.testMeet {c gid i n} (h : MemOk s) : MemOk (s.testMeet c gid i n) := by
  induction n generalizing s with
  | zero => exact h
  | succ n ih =>
    unfold State.testMeet
    split
    · exact h
    · rename_i g _
      extract_lets t hold va pop
      have hx {va} := h.xlatNow (die := dieOf c) (ctx := g.ctx) (k := .rd) (who := .group c gid) (va := va)
      have hhold {t b} (ht : MemOk t) : MemOk (hold t b) := ht.modGroup
      split
      · exact hhold h
      · split
        · exact h
        · split
          · exact hhold h
          · split
            · exact (hhold h).raise
            · have hpop {t bs} (ht : MemOk t) : MemOk (pop t bs) := ht.modGroup
              split
              · have h1 := hx.snd ‹_›
                split
                · exact hhold h1
                · extract_lets s2
                  split
                  · exact (hhold h1.l2Read).raise
                  · exact ih (hpop h1.l2Read)
              · exact ih (hpop (hx.snd ‹_›))
              · exact (hhold (hx.snd ‹_›)).modGroup
              · exact (hhold (hx.snd ‹_›)).raise

theorem MemOk.waitWalk {c gid g va} (h : MemOk s) : MemOk (s.waitWalk c gid g va) := h.countCore.startWalk.modGroup

theorem MemOk.recompute {c gid} (h : MemOk s) : MemOk (s.recompute c gid) := by
  unfold State.recompute
  split
  · exact h
  · split
    · exact h.waitWalk
    · exact (h.setGroup.ite h).foldl fun _ _ ht => ht.testMeet

theorem MemOk.startClause {c gid lane cl} (h : MemOk s) : MemOk (s.startClause c gid lane cl) := by
  unfold State.startClause
  extract_lets p launch rotated
  split
  rename_i seq s0 hf
  extract_lets s1 s2
  have h0 : MemOk s0 := h.codeStep.codeSeen.fresh.snd hf
  have h1 : MemOk s1 := h0.countCore.ite h0
  have h2 : MemOk s2 := by
    unfold s2
    split
    · exact h1.tlbMissed
    · exact h1
  exact h2.modGroup.modCore

theorem MemOk.issueFault {c gid pc op f a} (h : MemOk s) : MemOk (s.issueFault c gid pc op f a) := by
  unfold State.issueFault
  split
  · exact h
  · exact h.stepFault.raise.settle

theorem MemOk.raiseTok {c gid fs} (h : MemOk s) : MemOk (s.raiseTok c gid fs) := by
  unfold State.raiseTok
  split
  · exact h
  · exact h.modGroup.raise.settle

theorem MemOk.fullAt {c gid g pc p w} (h : MemOk s) : MemOk (s.fullAt c gid g pc p w) := by
  unfold State.fullAt
  extract_lets h0 t bad
  have ht : MemOk t := h.touch
  split
  · exact ht.issueFault
  · split
    · exact ht.issueFault
    · exact ht.issueFault
    · split
      · exact ht.issueFault
      · split
        · exact h.raiseTok
        · split
          · exact h
          · split
            · exact h.stopAsync
            · split
              · exact h
              · exact h.same.setGroup.touch.startClause

theorem MemOk.issueWith {c gid full mid} (h : MemOk s) (hfull : ∀ t g pc p w, MemOk t → MemOk (full t g pc p w))
    (hmid : ∀ t g pc p w, MemOk t → MemOk (mid t g pc p w)) : MemOk (s.issueWith c gid full mid) := by
  unfold State.issueWith
  extract_lets s1
  have h1 : MemOk s1 := h.recompute
  refine h.ite <| h1.ite ?_
  split
  · exact h1
  split
  · exact h
  · exact h1.waitWalk
  · refine MemOk.issueFault ?_
    split
    · exact h1.touch
    · exact h1.touchLost.ite h1
  · exact hfull _ _ _ _ _ h1
  · exact hmid _ _ _ _ _ h1

theorem MemOk.midAt {c gid g pc p w} (h : MemOk s) : MemOk (s.midAt c gid g pc p w) := by
  unfold State.midAt
  extract_lets t s1
  have hs1 : MemOk s1 := h.touch
  split
  · exact hs1.issueFault
  · exact hs1.issueFault
  · split
    · exact h
    · exact hs1.startClause

theorem MemOk.readBlock {p pl} (h : MemOk s) : MemOk (s.readBlock p pl).2 := h.serveMet

theorem MemOk.hClauseCut {core quad} (h : MemOk s) : OutOk (execHClauseCut core quad s) := by
  unfold execHClauseCut
  extract_lets need
  split
  · exact h
  · split
    · exact h
    · exact h.countCore.modGroup

theorem MemOk.cutLaneFree {core lane} (h : MemOk s) : OutOk (execCutLaneFree core lane s) := by
  unfold execCutLaneFree
  refine h.modCore fun k => ?_
  split <;> rfl

/-! ## Machine/Pass -/

theorem MemOk.prePass {i check all srcs preds noRegion k} (h : MemOk s) (hk : ∀ p vs ue, MemOk (k p vs ue)) :
    MemOk (s.prePass i check all srcs preds noRegion k) := by
  unfold State.prePass
  split
  · exact h
  · exact h.passEnd.ite <| h.passEnd.ite <| h.passEnd.ite (hk _ _ _)

theorem MemOk.fin {p i ok faults latch} (h : MemOk s) : MemOk (s.fin p i ok faults latch) := h.passEnd
theorem MemOk.finBreak {p i ok faults w} (h : MemOk s) : MemOk (s.finBreak p i ok faults w) := h.passBreak
theorem MemOk.finLeave {p i ok} (h : MemOk s) : MemOk (s.finLeave p i ok) := h.passLast fun _ hs1 => hs1.leaveClause

/-! ## Machine/Async -/

theorem MemOk.acceptOp {p op params mask} (h : MemOk s) : MemOk (s.acceptOp p op params mask) :=
  (h.sendAbort.ite h).same.noteThs.modCore.modGroup

theorem MemOk.asyncWith {i a k} (h : MemOk s) (hk : ∀ p o av, MemOk (k p o av)) : MemOk (s.asyncWith i a k) :=
  h.laneFront fun _ _ _ => h.fin.ite (hk _ _ _)

theorem MemOk.resourceBreak {p op arg} (h : MemOk s) : MemOk (s.resourceBreak p op arg) :=
  (h.same.modGroup.ite h.same).breakClause

theorem MemOk.asyncBlock {i a op} (h : MemOk s) : MemOk (s.asyncBlock i a op) := by
  refine h.asyncWith fun p o av => ?_
  extract_lets b v addr pl stop
  refine h.fin.ite <| h.fin.ite <| h.ite ?_
  split
  rename_i params t ht
  extract_lets bad s1
  have h0 : MemOk t := h.readBlock.snd ht
  have h1 : MemOk s1 := h0.touch.ite h0
  have hbad f : MemOk (bad f) := h0.fin
  refine (hbad _).ite <| (hbad _).ite <| (hbad _).ite <| (hbad _).ite <| (hbad _).ite <| (hbad _).ite <| (hbad _).ite ?_
  exact h0.resourceBreak.ite h1.acceptOp.popAll.fin

theorem MemOk.aclr {a} (h : MemOk s) : OutOk (execAclr a s) :=
  h.asyncWith fun _ _ _ => h.fin.ite <| h.fin.ite <| h.popAll.fin.ite (h.resourceBreak.ite h.acceptOp.popAll.fin)

theorem MemOk.mbind {a n} (h : MemOk s) : OutOk (execMbind a n s) :=
  h.asyncWith fun _ _ _ => (h.fin.ite (h.ite h.modCore.popAll.fin)).ite (h.fin.ite h.modCore.popAll.fin)

/-! ## Machine/Integer -/

theorem MemOk.imad {r x} (h : MemOk s) : OutOk (execImad r x s) := by
  unfold execImad
  split <;> exact h.laneRun

/-! ## Machine/Bits -/

theorem MemOk.bilv {r x} (h : MemOk s) : OutOk (execBilv r x s) := by
  unfold execBilv
  split <;> exact h.laneRun

/-! ## Machine/MemOps -/

theorem MemOk.walkBreak {p k pages} (h : MemOk s) : MemOk (s.walkBreak p k pages) :=
  (h.countCore.foldl (fun _ _ ht => ht.startWalk)).breakClause

theorem MemOk.noteUnits {p kind acq rs} (h : MemOk s) : MemOk (s.noteUnits p kind acq rs) := by
  unfold State.noteUnits
  refine h.foldl fun t x ht => ?_
  dsimp only
  split
  · exact ht.noteThs
  · exact ht

theorem MemOk.looks {p e rs} (h : MemOk s) : MemOk (s.looks p e rs) := by
  unfold State.looks
  extract_lets s1
  have hs1 : MemOk s1 := h.tlbMissed.foldl fun _ _ ht => ht.touchLost
  split
  · exact hs1.noteUnits
  · exact hs1

theorem MemOk.touchPlace {p pl} (h : MemOk s) : MemOk (s.touchPlace p pl) := h.touch.ite h

theorem MemOk.issueLoad {p m k tok u} (h : MemOk s) : MemOk (s.issueLoad p m k tok u) := by
  unfold State.issueLoad
  dsimp only
  split
  · exact h.touchPlace.fresh.modCore
  · exact h.fresh.modCore
  · exact h

theorem MemOk.doLoad {i m k p v ue} (h : MemOk s) : MemOk (s.doLoad i m k p v ue) := by
  unfold State.doLoad
  extract_lets units t rs good ok faults tok s1 s2
  split
  · exact h.breakClause
  split
  · exact h.walkBreak
  have h1 : MemOk s1 := h.looks.foldl fun _ _ ht => ht.issueLoad
  have h2 : MemOk s2 := h1.ite h1.modGroup
  exact h2.same.fin.ite (h2.fin.ite h2.finBreak)

theorem MemOk.load {i m k} (h : MemOk s) : MemOk (s.load i m k) := h.prePass fun _ _ _ => h.doLoad

theorem MemOk.doStore {i m sp n p vs ue} (h : MemOk s) : MemOk (s.doStore i m sp n p vs ue) := by
  unfold State.doStore
  extract_lets sv glob past sw rs good parts faults rel strm s0 s1
  split
  · exact h.fin
  split
  · exact h.walkBreak
  have h0 : MemOk s0 := h.looks
  have h1 : MemOk s1 := (h0.ite h0.modGroup).ite (h0.foldl fun _ _ ht => ht.touchPlace).issueStores
  exact h1.fin

theorem MemOk.store {i m sp n} (h : MemOk s) : MemOk (s.store i m sp n) := h.prePass fun _ _ _ => h.doStore

theorem MemOk.issueAtom {p m glob red d sw u} (h : MemOk s) : MemOk (s.issueAtom p m glob red d sw u) := by
  unfold State.issueAtom
  dsimp only
  split
  · exact h.touchPlace.fresh.modCore
  · exact h

theorem MemOk.doAtom {i m glob red p vs ue} (h : MemOk s) : MemOk (s.doAtom i m glob red p vs ue) := by
  unfold State.doAtom
  extract_lets sv rs good ok faults s1
  split
  · exact h.walkBreak
  have h1 : MemOk s1 := h.looks.foldl fun _ _ ht => ht.issueAtom
  exact h.fin.ite (h1.fin.ite h1.modGroup.finBreak)

theorem MemOk.atom {i m glob red} (h : MemOk s) : MemOk (s.atom i m glob red) := h.prePass fun _ _ _ => h.doAtom

theorem MemOk.prefetch {p l1 ea} (h : MemOk s) : MemOk (s.prefetch p l1 ea) := by
  unfold State.prefetch
  split
  · exact h.touch.ite (h.touch.l2Read.fetchLine.ite h.touch.l2Read)
  · exact h

/-! ## Machine/Sync -/

theorem MemOk.raiseRed {c gid m} (h : MemOk s) : MemOk (s.raiseRed c gid m) := by
  unfold State.raiseRed
  split
  · exact h
  · exact h.ite h.stepFault.modGroup.raise.settle

theorem MemOk.putFence {p m kind scope} (h : MemOk s) : MemOk (s.putFence p m kind scope) := h.same.modCore.modGroup

theorem MemOk.fence {u kind scope} (h : MemOk s) : OutOk (execFence u kind scope s) :=
  h.laneFront fun _ _ _ => (h.modGroup.fin.ite (h.modGroup.fenceAct.fin.ite h.modGroup.putFence.finBreak)).raiseRed

theorem MemOk.waitc {u a cls} (h : MemOk s) : OutOk (execWaitc u a cls s) := by
  unfold execWaitc
  extract_lets i o
  refine h.laneFront fun p vs ue => ?_
  extract_lets n
  split
  · exact h.fin
  · split
    · exact h.stopAsync
    · exact (h.l1Acquire.ite h).popAll.fin.ite h.breakClause

theorem MemOk.waitRead {p m r} (h : MemOk s) : MemOk (s.waitRead p m r).2 := by
  unfold State.waitRead
  split
  · extract_lets w
    split
    · exact h
    · split
      · exact h.touchPlace.serveMet.l2Read
      · split <;> exact h.touchPlace.serveMet.l2Read.grant.dropCopies
  · exact h
  · exact h

theorem MemOk.waitReads {p rs} (h : MemOk s) : MemOk (s.waitReads p rs).2 :=
  List.foldlRecOn (motive := fun x : List (Nat × Mask × WRead) × State => MemOk x.2) rs _ h fun _ hx _ _ => hx.waitRead

theorem MemOk.noteWaits {p acq rs good} (h : MemOk s) : MemOk (s.noteWaits p acq rs good) := by
  unfold State.noteWaits
  refine h.foldl fun s x hs => ?_
  dsimp only
  split
  · exact hs.noteNew
  · exact hs

theorem MemOk.waitBreak {p i ok faults} (h : MemOk s) : MemOk (s.waitBreak p i ok faults) := by
  unfold State.waitBreak
  extract_lets s1
  have hs1 : MemOk s1 := h.passStep
  split
  · exact hs1
  · exact hs1.breakClause

theorem MemOk.waita {u nw d a acq cond} (h : MemOk s) : OutOk (execWaita u nw d a acq cond s) := by
  unfold execWaita
  extract_lets i o
  refine h.laneFront fun p vs ue => ?_
  extract_lets rs
  split
  · exact h.walkBreak
  split
  rename_i xs s0 hw
  extract_lets ueF faults good got waiting ok s1 lo s2 s3
  have h0 : MemOk s0 := h.looks.waitReads.snd hw
  have h1 : MemOk s1 := h0.ite h0.noteWaits
  have h2 : MemOk s2 := h1.ite h1.popAll.writeDst
  have h3 : MemOk s3 := h2.l1Acquire.ite h2
  exact h3.fin.ite h3.waitBreak

/-! ## Machine/Complete -/

theorem MemOk.faultBack {c gid m w f pc finfo ea} (h : MemOk s) : MemOk (s.faultBack c gid m w f pc finfo ea) :=
  h.modGroup.raise.settle

theorem MemOk.returnLoad {c l bs bad} (h : MemOk s) : MemOk (s.returnLoad c l bs bad) := by
  unfold State.returnLoad
  extract_lets s1
  have hs1 : MemOk s1 := h.modCore
  split
  · exact hs1.modGroup
  · exact hs1.modGroup.ite hs1.faultBack

theorem MemOk.loadWord {c id n} (h : MemOk s) : MemOk (s.loadWord c id n) := by
  unfold State.loadWord
  split
  · exact h
  · split
    · exact h.ite h.modGroup.modCore
    · exact h

theorem MemOk.loadUpper {c id} (h : MemOk s) : MemOk (s.loadUpper c id) := by
  unfold State.loadUpper
  split
  · exact h
  · exact h.ite h.serveFor.serveHalf

theorem MemOk.loadRace {c id} (h : MemOk s) : MemOk (s.loadRace c id) := h.ite h.modCore

theorem MemOk.loadDataReturn {core id serveOnly} (h : MemOk s) : OutOk (execLoadDataReturn core id serveOnly s) := by
  unfold execLoadDataReturn
  split
  · exact h
  · split
    · exact h
    · extract_lets s1
      have hs1 : MemOk s1 := (h.serveInOrder.ite h.serveFor.serveWhole).ite h
      split
      · exact hs1.sweep
      · split
        · split
          · exact h
          · split
            · exact hs1.returnLoad.sweep
            · exact hs1
        · exact hs1

theorem MemOk.atomSeen {a old} (h : MemOk s) : MemOk (s.atomSeen a old) := h.noteGot

theorem MemOk.atomEvent {c a} (h : MemOk s) : (s.atomEvent c a).Ok := by
  unfold State.atomEvent
  split
  · trivial
  · extract_lets n s1
    have hs1 : MemOk s1 := h.serveFor
    split
    · split
      · exact hs1
      · split
        · trivial
        · split
          · exact hs1.dropLine.foldl fun _ _ ht => ht.surrender
          · split
            · trivial
            · exact (hs1.dropLine.foldl (fun _ _ ht => ht.surrender)).homeWrite.atomSeen
    · split
      · exact hs1
      · exact ((hs1.foldl (fun _ _ ht => ht.keepOld)).ite hs1).scratchSet.atomSeen

theorem MemOk.dropAtom {c id} (h : MemOk s) : MemOk (s.dropAtom c id) := h.modCore

theorem MemOk.atomicResultReturn {core id} (h : MemOk s) : OutOk (execAtomicResultReturn core id s) := by
  unfold execAtomicResultReturn
  split
  · exact h
  · split
    · exact h
    · split
      · exact h
      · split
        · exact h
        · exact (h.atomEvent.bad ‹_›).dropAtom.faultBack.sweep
        · exact (h.atomEvent.done ‹_›).dropAtom.modGroup.sweep

theorem MemOk.recordRed {c a} (h : MemOk s) : MemOk (s.recordRed c a) := h.foldl fun _ _ ht => ht.modGroup

theorem MemOk.reductionTakesEffect {core id} (h : MemOk s) : OutOk (execReductionTakesEffect core id s) := by
  unfold execReductionTakesEffect
  split
  · exact h
  split
  · exact h
  · extract_lets s2
    have h2 : MemOk s2 := (h.atomEvent.bad ‹_›).dropAtom
    exact (h2.recordRed.ite h2.lateFault).sweep
  · exact (h.atomEvent.done ‹_›).dropAtom.sweep

theorem MemOk.fenceComplete {core id} (h : MemOk s) : OutOk (execFenceComplete core id s) := by
  unfold execFenceComplete
  split
  · exact h
  · split
    · exact h
    · extract_lets fused s1
      have hs1 : MemOk s1 := h.foldl fun _ _ ht => ht.fenceAct
      split
      · exact h
      · exact (hs1.modCore.ite (hs1.modCore.foldl (fun _ _ ht => ht.modGroup.raiseRed))).sweep

theorem MemOk.applyGlobal {c w} (h : MemOk s) : MemOk (s.applyGlobal c w) := by
  unfold State.applyGlobal
  extract_lets h0 o s1
  have hs1 : MemOk s1 := h.l1Release.ite h
  split
  · split
    · exact hs1.lateFault
    · exact hs1.dropLine.homeWrite.l2Demote
  · split
    · split
      · exact hs1.l1MakeRoom.lateFault
      · exact hs1.l1MakeRoom.homeWrite
    · exact (hs1.l1MakeRoom.l1Store.foldl (fun _ _ ht => ht.grant)).ite hs1.l1MakeRoom.l1Store

theorem MemOk.applyStore {c w} (h : MemOk s) : MemOk (s.applyStore c w) := by
  unfold State.applyStore
  extract_lets s1 s2
  have h1 : MemOk s1 := h.serveFor
  split
  · have h2 : MemOk s2 := h1.applyGlobal
    split
    · exact h2.modCore fun k => List.foldlRecOn (motive := fun j : Core => j.scratch = k.scratch) _ _ rfl fun _ hj _ _ => hj
    · exact h2
  · have hold := h1.foldl (l := w.whose) (f := fun s (g, m) => s.keepOld c g m w.id w.pa.addr w.bytes.length) fun _ _ ht => ht.keepOld
    exact (hold.ite h1).scratchSet
  · exact h1.accSet

theorem MemOk.storeTakesEffect {core id} (h : MemOk s) : OutOk (execStoreTakesEffect core id s) := by
  unfold execStoreTakesEffect
  split
  · split
    · exact h
    · split
      · exact h
      · extract_lets s1 owes
        have hs1 : MemOk s1 := h.applyStore.modCore
        split
        · exact h
        · exact hs1.sweep
  · extract_lets p s1
    have hs1 : MemOk s1 := h.grant
    split
    · exact h
    · exact hs1

theorem MemOk.l1LineEviction {core host line} (h : MemOk s) : OutOk (execL1LineEviction core host line s) := by
  unfold execL1LineEviction
  extract_lets s1
  have hs1 : MemOk s1 := h.dropLine
  split
  · exact h
  · exact hs1

/-! ## Machine/Engines -/

theorem MemOk.tallyOp {o} (h : MemOk s) : MemOk (s.tallyOp o) := by
  unfold State.tallyOp
  split
  · exact h.tally
  · exact h.tally
  · exact h.tally
  · exact h

theorem MemOk.retireOne {c o} (h : MemOk s) : MemOk (s.retireOne c o) := h.tallyOp.modCore.modGroup

theorem MemOk.retireClass {c gid cls done n} (h : MemOk s) : MemOk (s.retireClass c gid cls done n) := by
  induction n generalizing s with
  | zero => exact h
  | succ n ih =>
    unfold State.retireClass
    split
    · exact (ih h.retireOne).ite h
    · exact h

theorem MemOk.retireWhile {c gid done} (h : MemOk s) : MemOk (s.retireWhile c gid done) :=
  (h.foldl (fun _ _ ht => ht.retireClass)).tryRetire

theorem MemOk.retireOps {c gid} (h : MemOk s) : MemOk (s.retireOps c gid) := h.retireWhile

theorem MemOk.retireEnded {c o} (h : MemOk s) : MemOk (s.retireEnded c o) := by
  unfold State.retireEnded
  split
  · exact h.retireOne.retireOps.ite h
  · exact h

theorem MemOk.modOp {c id f} (h : MemOk s) : MemOk (s.modOp c id f) := h.modCore

theorem MemOk.faultOp {c o sub addr} (h : MemOk s) : MemOk (s.faultOp c o sub addr) :=
  h.cancelAll.modOp.forgetWalks.retireOps

theorem MemOk.faultRun {c o sub addr} {e : ERun} (h : MemOk s) (he : MemOk e.s) : MemOk (s.faultRun c o e sub addr) :=
  ((h.partWrite he).ite h).faultOp

theorem MemOk.accportOpStart {core} (h : MemOk s) : OutOk (execAccportOpStart core s) := by
  unfold execAccportOpStart
  extract_lets k ops
  split
  · exact h
  · split
    · split
      · exact h
      · exact h.modOp
    · exact h

theorem MemOk.mmaBConsumed {core id} (h : MemOk s) : OutOk (execMmaBConsumed core id s) := by
  unfold execMmaBConsumed
  extract_lets k
  split
  · exact h
  · exact (h.modOp.faultOp.ite h.modOp).foldl fun _ _ ht => ht.tryRetire

theorem MemOk.bBufferFree {core} (h : MemOk s) : OutOk (execBBufferFree core s) := by
  unfold execBBufferFree
  split
  · split
    · exact h.modOp
    · exact h
  · exact h

theorem MemOk.consume {tag src n} (h : MemOk s) : MemOk (s.consume tag src n) := h.same
theorem MemOk.collSpoil {c o n} (h : MemOk s) : MemOk (s.collSpoil c o n).s := h.same.writeMem

theorem MemOk.collJoin {c o own got} (h : MemOk s) : (s.collJoin c o own got).Ok := by
  unfold State.collJoin
  extract_lets p v n me want s1
  have hs1 : MemOk s1 := h.foldl fun _ _ ht => ht.consume
  split
  · exact hs1.collSpoil
  · split
    · exact hs1
    · split
      · exact hs1.writeMem
      · split
        · exact h.keepWait hs1.writeMem
        · exact hs1.writeMem

theorem MemOk.collRun {c o} (h : MemOk s) : (s.collRun c o).Ok := by
  unfold State.collRun
  extract_lets p v n
  split
  · exact h.collSpoil
  · split
    · exact h.bad
    · split
      · exact h
      · dsimp only
        split
        · exact h.readMem
        · split
          · exact h.readMem
          · exact h.keepWait h.readMem
    · split
      · exact h
      · exact h.collJoin

theorem MemOk.collSend {c o own} (h : MemOk s) : MemOk (s.collSend c o own) := h.sendFrames.modOp
theorem MemOk.finishOp {c o} (h : MemOk s) : MemOk (s.finishOp c o) := h.modOp.retireOps
theorem MemOk.endFault {c o f va} (h : MemOk s) : MemOk (s.endFault c o f va) := h.loseCtx.ite h.faultOp

theorem MemOk.endUe {c o va} (h : MemOk s) : MemOk (s.endUe c o va).2 := by
  unfold State.endUe
  split <;> exact h.xlatNow.snd ‹_›

theorem MemOk.noteWord {c o va w} (h : MemOk s) : MemOk (s.noteWord c o va w) := by
  unfold State.noteWord
  split
  · exact h.same.note
  · exact h

theorem MemOk.payWord {c o} (h : MemOk s) : MemOk (s.payWord c o) := by
  unfold State.payWord
  split
  · exact h.finishOp
  · split
    · exact h
    · split
      · exact h.endUe.endFault
      · split
        · exact h.ite ((h.gwrite.snd ‹_›).noteWord.finishOp)
        · exact h.keepWait (h.gwrite.snd ‹_›)
        · exact (h.gwrite.snd ‹_›).endFault

theorem MemOk.makeWrites {c ctx ws} (h : MemOk s) : MemOk (s.makeWrites c ctx ws).2 := by
  refine List.foldlRecOn (motive := fun x : List EWrite × State × Bool => MemOk x.2.1) ws _ h fun x hx w _ => ?_
  dsimp only
  split
  · exact hx
  · exact hx.eWrite

theorem MemOk.keepPaid {c o ws} (h : MemOk s) : MemOk (s.keepPaid c o ws) := by
  unfold State.keepPaid
  dsimp only
  exact h.makeWrites.modOp

theorem MemOk.payWhole {c o} {e : ERun} (h : MemOk s) (he : MemOk e.s) : MemOk (s.payWhole c o e) := by
  unfold State.payWhole
  dsimp only
  exact h.keepPaid.ite he.keepWrites.makeWrites.countDie.modOp.payWord

theorem MemOk.collStatus {c o status} (h : MemOk s) : MemOk (s.collStatus c o status) := by
  unfold State.collStatus
  extract_lets sta paid
  split
  · exact h.modOp.payWord
  · split
    · exact h.endUe.endFault
    · split
      · exact h.ite ((h.gwrite.snd ‹_›).modOp.payWord)
      · exact h.keepWait (h.gwrite.snd ‹_›)
      · exact (h.gwrite.snd ‹_›).endFault

theorem MemOk.collEnd {c o status} {e : ERun} (h : MemOk s) (he : MemOk e.s) : MemOk (s.collEnd c o e status) := by
  unfold State.collEnd
  dsimp only
  exact h.keepPaid.ite he.keepWrites.makeWrites.modOp.collStatus

theorem MemOk.asyncOpFinish {core id} (h : MemOk s) : OutOk (execAsyncOpFinish core id s) := by
  unfold execAsyncOpFinish
  split
  · exact h
  · split
    · exact h.payWord
    · split
      · exact h.retireEnded
      · split
        · exact h
        · split
          · split
            · exact h.collStatus
            · exact h.collRun.wait ‹_›
            · exact h
            · exact (h.collRun.send ‹_›).collSend
            · split
              · exact (h.collRun.done ‹_›).loseCtx
              · exact h.collEnd (h.collRun.done ‹_›)
          · extract_lets e
            have he : MemOk e.s := h.payload
            split
            · exact h
            · split
              · exact h.keepWait he
              · exact h.payWhole he

theorem MemOk.opFault {c o e} (h : MemOk s) (he : s.opFault c o = some e) : MemOk e.s := by
  unfold State.opFault at he
  extract_lets e1 at he
  split at he
  · cases he
  · split at he
    · split at he
      · cases he
        exact h.collRun.fault ‹_›
      · cases he
    · split at he
      · exact Option.some.inj he ▸ h.payload
      · cases he

theorem MemOk.asyncOpFault {core id} (h : MemOk s) : OutOk (execAsyncOpFault core id s) := by
  unfold execAsyncOpFault
  split
  · exact h
  · split
    · exact h
    · have he := h.opFault ‹_›
      split
      · exact he.loseCtx
      · split
        · exact h.faultRun he
        · exact h

theorem MemOk.earlyRead {c o} {e : ERun} (h : MemOk e.s) : MemOk (s.earlyRead c o e) := h.modOp.same

theorem MemOk.earlyWrite {c o ws} {e : ERun} (h : MemOk s) (he : MemOk e.s) : MemOk (s.earlyWrite c o e ws) := by
  unfold State.earlyWrite
  dsimp only
  exact h.ite ((he.keepWrites.foldl (fun _ _ ht => ht.eWrite)).modOp)

theorem MemOk.opChunk {c id} (h : MemOk s) : MemOk (s.opChunk c id) := by
  unfold State.opChunk
  split
  · exact h
  · split
    · exact h
    · rename_i o _ _
      extract_lets k reading s0 run row e final f kept
      have h0 : MemOk s0 := h.same
      have hrun : MemOk run.s := h0.startRun
      have hrow : MemOk row.s := MemOk.row hrun
      have hkept : MemOk kept := hrow.modOp
      have hcopy : MemOk (if reading then s0.earlyRead c o row else s.earlyWrite c o e e.writes) :=
        hrow.earlyRead.ite (h.earlyWrite h0.payload)
      have htile n ws : MemOk (if reading then s0.earlyRead c o row else s.earlyWrite c o { row with s := { kept with free := n } } ws) :=
        hrow.earlyRead.ite (h.earlyWrite hkept.same)
      split
      · split
        · exact h
        · split
          · exact (h0.collRun.send ‹_›).earlyRead.ite (h0.collRun.send ‹_›).collSend
          · exact h.earlyWrite h0
          · exact h
      · exact hcopy
      · exact hcopy
      · exact htile _ _
      · exact htile _ _
      · exact htile _ _

theorem MemOk.returnCredit {tag src} (h : MemOk s) : MemOk (s.returnCredit tag src) :=
  h.same.modVd.ite h.same.putFrames

theorem MemOk.meetFrame {tag flits} (h : MemOk s) : MemOk (s.meetFrame tag flits) := by
  unfold State.meetFrame
  extract_lets s1
  have h1 ctx : MemOk (s1 ctx) := h.same.countDie.fabMoved
  exact (h1 _).ite (h1 none).same

theorem MemOk.fabricFrameReceive {tag src payload} (h : MemOk s) :
    OutOk (execFabricFrameReceive tag src payload s) := by
  unfold execFabricFrameReceive
  split
  · exact h
  · extract_lets s1
    have hs1 : MemOk s1 := h.meetFrame
    split
    · exact hs1.same.returnCredit
    · exact hs1

theorem MemOk.fabricAbortReceive {tag} (h : MemOk s) : OutOk (execFabricAbortReceive tag s) := by
  unfold execFabricAbortReceive
  split
  · exact h.meetFrame
  · have hm := h.meetFrame (tag := tag) (flits := 1)
    refine ⟨hm.device, hm.host, fun x hx => ?_⟩
    obtain ⟨y, hy, rfl⟩ := List.mem_map.mp hx
    exact h.scratch y hy

/-! ## Machine/Usage -/

theorem MemOk.ulDrain {v n} (h : MemOk s) : MemOk (s.ulDrain v n) := by
  induction n generalizing s with
  | zero => exact h
  | succ n ih =>
    unfold State.ulDrain
    extract_lets d
    split
    · exact h
    · split
      · exact h
      · exact ih h.ringPut.modVd

theorem MemOk.ulFlow {v} (h : MemOk s) : MemOk (s.ulFlow v) := h.ulDrain.modVd
theorem MemOk.ulPut {v typ ctx data after} (h : MemOk s) : MemOk (s.ulPut v typ ctx data after) := h.setVd.ulFlow
theorem MemOk.ulRec {v typ ctx data} (h : MemOk s) : MemOk (s.ulRec v typ ctx data) := h.ulPut
theorem MemOk.checkpoint {v} (h : MemOk s) : MemOk (s.checkpoint v) := h.ulPut
theorem MemOk.ulState {v} (h : MemOk s) : MemOk (s.ulState v) := h.ulRec.checkpoint
theorem MemOk.ulMap {c} (h : MemOk s) : MemOk (s.ulMap c) := h.ulRec
theorem MemOk.ulDebug {c kind dbg} (h : MemOk s) : MemOk (s.ulDebug c kind dbg) := h.ulRec
theorem MemOk.ulLaunch {v l status} (h : MemOk s) : MemOk (s.ulLaunch v l status) := h.ulRec

/-! ## Machine/Queue -/

theorem MemOk.queueError {q code l} (h : MemOk s) : MemOk (s.queueError q code l) := by
  unfold State.queueError
  extract_lets x v s1 s2 s3
  have h2 : MemOk s2 := h.same
  have h3 : MemOk s3 := by
    unfold s3
    split
    · exact h2.ulLaunch
    · exact h2.ulRec
  exact h3.virq.pirq

theorem MemOk.queueDisable {q} (h : MemOk s) : MemOk (s.queueDisable q) := by
  unfold State.queueDisable
  extract_lets x s1 s2
  have hs1 : MemOk s1 := h.setQueue
  have hs2 : MemOk s2 := hs1.same
  split
  · exact hs2
  · exact hs2.same

theorem MemOk.setTail {q val} (h : MemOk s) : MemOk (s.setTail q val) := h.setQueue.queueError.ite h.setQueue

theorem MemOk.wqEnable {q ctl} (h : MemOk s) : OutOk (execWqEnable q ctl s) := by
  unfold execWqEnable
  extract_lets x c y
  split
  · exact h
  · split
    · exact h.setQueue.setTail
    · exact h.setQueue

theorem MemOk.wqDisable {q ctl} (h : MemOk s) : OutOk (execWqDisable q ctl s) := by
  unfold execWqDisable
  split
  · exact h
  · exact h.queueDisable.modQueue

theorem MemOk.wqtailWrite {win q val} (h : MemOk s) : OutOk (execWqtailWrite win q val s) := by
  unfold execWqtailWrite
  split
  · exact h
  · split
    · exact h.setTail
    · split
      · exact h.setTail
      · exact h.modVd

/-! ## Machine/MemEvents -/

theorem MemOk.pqFlow {v n} (h : MemOk s) : MemOk (s.pqFlow v n) := by
  induction n generalizing s with
  | zero => exact h
  | succ n ih =>
    unfold State.pqFlow
    extract_lets d
    split
    · exact h
    · split
      · exact h
      · exact ih h.touch.ringPut.modVd.virq

theorem MemOk.modWalk {id f} (h : MemOk s) : MemOk (s.modWalk id f) := h.same

theorem MemOk.sendRequest {w} (h : MemOk s) : MemOk (s.sendRequest w) := by
  unfold State.sendRequest
  extract_lets v d
  split
  · exact h.modWalk
  · split
    · exact h
    · exact h.countDie.modWalk.modVd.pqFlow

theorem MemOk.endWalk {id} (h : MemOk s) : MemOk (s.endWalk id) := h.same

theorem MemOk.walkLeaf {w e} (h : MemOk s) : MemOk (s.walkLeaf w e) := by
  unfold State.walkLeaf
  refine (h.foldl (fun s x hs => ?_)).endWalk
  split
  · exact hs.fillTlb.modGroup
  · exact hs.same

theorem MemOk.walkFail {w f} (h : MemOk s) : MemOk (s.walkFail w f) := by
  unfold State.walkFail
  extract_lets f'
  refine h.endWalk.foldl fun s x hs => ?_
  split
  · exact hs.modGroup
  · exact hs.modQueue
  · exact hs.same.ite hs
  · exact hs.same

theorem MemOk.pageWalkComplete {die id} (h : MemOk s) : OutOk (execPageWalkComplete die id s) := by
  unfold execPageWalkComplete
  split
  · exact h
  · extract_lets r
    split
    · exact h
    · split
      · exact h.touchReads.countDie.cacheInner.walkLeaf
      · exact h.touchReads.countDie.walkFail
      · split
        · exact h.touchReads.countDie.walkFail
        · exact h.touchReads.countDie.sendRequest

theorem MemOk.dropReq {v id} (h : MemOk s) : MemOk (s.dropReq v id) := h.modVd

theorem MemOk.requestFails {v id} (h : MemOk s) : MemOk (s.requestFails v id) :=
  h.dropReq.foldl fun _ _ ht => ht.walkFail

theorem MemOk.pageResponse {v val} (h : MemOk s) : OutOk (execPageResponse v val s) := by
  unfold execPageResponse
  extract_lets s d id
  have hs : MemOk s := h.modVd
  split
  · exact hs.same
  · split
    · exact hs
    · split
      · exact hs.dropReq.foldl fun _ _ ht => ht.modWalk
      · exact hs.requestFails

theorem MemOk.pageRequestTimeout {v id} (h : MemOk s) : OutOk (execPageRequestTimeout v id s) := by
  unfold execPageRequestTimeout
  extract_lets d
  split
  · exact h
  · split
    · exact h.requestFails
    · exact h

theorem MemOk.tlbWrite {mode ctx npg} (h : MemOk s) : MemOk (s.tlbWrite mode ctx npg) := h.ite h.same

theorem MemOk.tlbinvDone (h : MemOk s) : OutOk (execTlbinvDone s) := by
  unfold execTlbinvDone
  split
  · exact h
  · exact h.mapCores

theorem MemOk.keepLine {r l} (h : MemOk s) : MemOk (s.keepLine r l) := h.same
theorem MemOk.archive {r} (h : MemOk s) : MemOk (s.archive r) := (h.foldl (fun _ _ ht => ht.keepLine)).same

theorem MemOk.mapRegion {r} (h : MemOk s) : MemOk (s.mapRegion r) := by
  unfold State.mapRegion
  extract_lets s1
  have h1 : MemOk s1 := ⟨cellsFrom_filter _ h.device, h.host, h.scratch⟩
  refine h1.foldl fun t o ht => ?_
  split
  · exact ht
  · exact ⟨cellsSet_wf _ _ ht.device, ht.host, ht.scratch⟩

theorem MemOk.dropOwned {p} (h : MemOk s) : MemOk (s.dropOwned p) := by
  unfold State.dropOwned
  split
  · exact h
  · extract_lets s1 s2
    have h1 : MemOk s1 := h.giveUp.ite h.modCore
    have h2 : MemOk s2 := h1.modCore.ite h1
    exact h2.same

theorem MemOk.lineOut {x} (h : MemOk s) : MemOk (s.lineOut x) := h.lineMoved

theorem MemOk.lineLost {x} (h : MemOk s) : MemOk (s.lineLost x) := by
  refine ⟨?_, h.host, h.scratch⟩
  refine List.foldlRecOn (motive := fun m => Memory.wf m = true) x.was _ h.device fun m hm y _ => ?_
  obtain ⟨o, _ | v⟩ := y
  · exact hm
  · exact cellSet_wf _ _ hm

theorem MemOk.dropLines {r} (h : MemOk s) : MemOk (s.dropLines r) := by
  unfold State.dropLines
  extract_lets ls s1
  have h1 : MemOk s1 := h.foldl fun t x ht => by
    have hp : MemOk (if Config.freeBit t.free then t.lineLost x else t.lineOut x) := ht.lineLost.ite ht.lineOut
    exact hp.same
  exact h1.same

theorem MemOk.setRegion {i r} (h : MemOk s) : MemOk (s.setRegion i r) := h.same

theorem MemOk.clearRegion {i r} (h : MemOk s) : MemOk (s.clearRegion i r) :=
  (h.foldl (fun _ _ ht => ht.dropOwned)).dropLines.archive.setRegion

theorem MemOk.regionEntryWrite {entry word val} (h : MemOk s) : OutOk (execRegionEntryWrite entry word val s) := by
  unfold execRegionEntryWrite
  extract_lets r
  split
  · exact h
  · split
    · split
      · exact h.clearRegion
      · exact h
    · split
      · split
        · exact h.setRegion
        · split
          · exact h.same
          · exact h.mapRegion.same
      · exact h.setRegion
      · exact h.setRegion
      · exact h.setRegion
      · exact h

theorem MemOk.rflushGo {entry} (h : MemOk s) : OutOk (execRflushGo entry s) := by
  unfold execRflushGo
  split
  · exact h
  · exact h.same

theorem MemOk.rflushDone (h : MemOk s) : OutOk (execRflushDone s) := by
  unfold execRflushDone
  extract_lets r notValid s1 src s2
  have h1 : MemOk s1 := h.ite (h.foldl fun _ _ ht => ht.surrender)
  have h2 : MemOk s2 := h1.ite (MemOk.same (h1.foldl fun _ _ ht => ht.lineOut))
  split
  · exact h
  · split
    · exact h
    · have h3 n : MemOk { s2 with rflush := n, rflushLost := false } := h2.same
      exact (h3 _).pirq

theorem MemOk.keyEnd {op slot owner bad act} (h : MemOk s) (hact : ∀ t, MemOk t → MemOk (act t)) :
    MemOk (s.keyEnd op slot owner bad act) := by
  unfold State.keyEnd
  extract_lets fin
  have hfin {t} r (ht : MemOk t) : MemOk (fin t r) := ht.same
  split
  · exact (hfin 0 (hact _ h)).ulRec
  · exact (hfin 0 h).same

theorem MemOk.setKey {slot k} (h : MemOk s) : MemOk (s.setKey slot k) := h.same

/-! ## Machine/Transfer -/

theorem MemOk.touchAll {p rs} (h : MemOk s) : MemOk (s.touchAll p rs) := by
  unfold State.touchAll
  refine h.foldl fun s x hs => ?_
  dsimp only
  split
  · exact hs.touchPlace
  · exact hs

theorem MemOk.link {p u ok} (h : MemOk s) : MemOk (s.link p u ok) := h.modGroup
theorem MemOk.go {p i ok faults target} (h : MemOk s) : MemOk (s.go p i ok faults target) := h.passEnd

theorem MemOk.branch {i f call} (h : MemOk s) : MemOk (s.branch i f call) := by
  unfold State.branch
  refine h.prePass fun p _ _ => ?_
  extract_lets taken g dest
  split
  · exact h.go
  · split
    · exact h
    · split
      · exact h.walkBreak
      · exact (h.touchLost.ite h).go
      · exact (h.tlbMissed.touchPlace.link.ite h.tlbMissed.touchPlace).go
      · exact h

theorem MemOk.jump {i u a mark land link} (h : MemOk s) : MemOk (s.jump i u a mark land link) := by
  unfold State.jump
  extract_lets o
  refine h.laneFront fun p vs ue => ?_
  extract_lets rs
  split
  · exact h.walkBreak
  · exact (h.looks.touchAll.link.ite h.looks.touchAll).go

theorem MemOk.raiseDue {c gid m} (h : MemOk s) : MemOk (s.raiseDue c gid m) := by
  unfold State.raiseDue
  split
  · exact h
  · exact h.ite h.stepFault.modGroup.raise.settle

theorem MemOk.exitNow {c gid m} (h : MemOk s) : MemOk (s.exitNow c gid m) := by
  unfold State.exitNow
  split
  · exact h
  · extract_lets g1
    split
    · exact h.setGroup
    · exact h.setGroup.countExits

theorem MemOk.exit {u} (h : MemOk s) : OutOk (execExit u s) := by
  refine h.prePass fun p _ _ => ?_
  extract_lets waits rest bad ok s1 s2
  have h1 : MemOk s1 := h.exitNow
  have h2 : MemOk s2 := h1.go.ite h1.modGroup.passStep.breakClause
  exact h2.ite h2.raiseDue

theorem MemOk.issuePushes {p rs} (h : MemOk s) : MemOk (s.issuePushes p rs) := h.modCore

theorem MemOk.setm {disp} (h : MemOk s) : OutOk (execSetm disp s) := by
  unfold execSetm
  extract_lets i
  refine h.prePass fun p _ _ => ?_
  extract_lets rs
  split
  · exact h.walkBreak
  · exact h.looks.touchAll.issuePushes.modGroup.fin

theorem MemOk.meetPushDone {core gid slot} (h : MemOk s) : OutOk (execMeetPushDone core gid slot s) := by
  unfold execMeetPushDone
  split
  · exact h
  · extract_lets ctx s0
    have hs0 : MemOk s0 := h.modCore
    split
    · exact hs0.lateFault
    · split
      · exact h
      · exact hs0.homeWrite.dropCopies.modGroup

/-! ## Machine/Member -/

theorem MemOk.movePass {p i target pred} (h : MemOk s) : MemOk (s.movePass p i target pred) := by
  unfold State.movePass
  dsimp only
  split
  · exact h.fresh.passStep
  · exact h.fresh.passStep.dropClause.modGroup.settle

theorem MemOk.traceMoved {c gid g mv} (h : MemOk s) : MemOk (s.traceMoved c gid g mv) :=
  h.foldl fun _ _ ht => (ht.trace.ite ht).trace.ite (ht.trace.ite ht)

theorem MemOk.moveInFlight {c gid t movers mv} (h : MemOk s) : MemOk (s.moveInFlight c gid t movers mv) := h.modCore

theorem MemOk.settleHalts {c gid movers} (h : MemOk s) : MemOk (s.settleHalts c gid movers) := by
  unfold State.settleHalts
  split
  · exact h
  · exact h.ite h.setGroup.traceAll

theorem MemOk.leaveStay {c gid next movers pred re ok} (h : MemOk s) :
    MemOk (s.leaveStay c gid next movers pred re ok) :=
  (h.modGroup.traceAll.commitRegion.ite h.modGroup.traceAll).settleHalts.tryRetire

theorem MemOk.leaveMove {c gid g next movers pred re} (h : MemOk s) :
    MemOk (s.leaveMove c gid g next movers pred re) := by
  unfold State.leaveMove
  split
  · exact h.leaveStay
  · split
    · exact h.leaveStay
    · split
      · exact h.leaveStay
      · exact h.stepFault.stopCtx.ite h.same.setGroup.setGroup.moveInFlight.traceMoved

theorem MemOk.joinMove {c gid g next movers t seq} (h : MemOk s) : MemOk (s.joinMove c gid g next movers t seq) := by
  unfold State.joinMove
  split
  · exact h
  · split
    · exact h.setGroup.settleHalts.stepFault.raise.settle
    · split
      · exact h
      · split
        · exact h
        · exact h.stepFault.stopCtx.ite h.setGroup.setGroup.moveInFlight.traceMoved.tryRetire

theorem MemOk.joinLeaveCopyDone {core gid} (h : MemOk s) : OutOk (execJoinLeaveCopyDone core gid s) := by
  unfold execJoinLeaveCopyDone
  split
  · exact h
  · split
    · extract_lets k st
      split
      · exact h
      · split
        · exact h.setGroup.settleHalts.raiseDue
        · split
          · exact h.leaveMove
          · exact h.joinMove
    · exact h

/-! ## Machine/Evict -/

theorem MemOk.sinterWrite {c gid ctx va bs} (h : MemOk s) : (s.sinterWrite c gid ctx va bs).Ok := by
  unfold State.sinterWrite
  split <;> exact h.gwrite.snd ‹_›

theorem MemOk.sinterRead {c gid ctx va n} (h : MemOk s) : (s.sinterRead c gid ctx va n).Ok := by
  unfold State.sinterRead
  split <;> exact h.gread.snd ‹_›

theorem MemOk.reloadTrap {c gid bix g} (h : MemOk s) : (s.reloadTrap c gid bix g).Ok := by
  unfold State.reloadTrap
  split
  · exact h
  · refine List.foldlRecOn (motive := fun r : SRes Group => r.Ok) _ _ h fun r hr i _ => ?_
    cases r with
    | ok g t =>
      dsimp only
      split
      · exact (MemOk.sinterRead hr).ok ‹_›
      · exact (MemOk.sinterRead hr).fault ‹_›
      · exact (MemOk.sinterRead hr).wait ‹_›
    | wait t => exact hr
    | fault f t => exact hr

theorem MemOk.sinterFault {c gid ctx f} (h : MemOk s) : MemOk (s.sinterFault c gid ctx f) :=
  h.forgetWalks.loseCtx.ite h.forgetWalks.stopCtx

theorem MemOk.abandonMove {c gid} (h : MemOk s) : MemOk (s.abandonMove c gid) := by
  unfold State.abandonMove
  split
  · exact h.modGroup.settleHalts
  · exact h

theorem MemOk.abandonMoves {c gid} (h : MemOk s) : MemOk (s.abandonMoves c gid) :=
  h.foldl fun _ _ ht => ht.abandonMove

theorem MemOk.abandonLnch {c gid} (h : MemOk s) : MemOk (s.abandonLnch c gid) := h.modCore.modGroup

theorem MemOk.withdrawTpc {c gid g} (h : MemOk s) : (s.withdrawTpc c gid g).Ok := by
  unfold State.withdrawTpc
  split
  · refine List.foldlRecOn (motive := fun r : SRes Unit => r.Ok) _ _ h fun r hr i _ => ?_
    cases r with
    | ok _ t => exact MemOk.sinterWrite hr
    | wait t => exact hr
    | fault f t => exact hr
  · exact h

theorem MemOk.withdraw {c gid} (h : MemOk s) : MemOk (s.withdraw c gid) := by
  unfold State.withdraw
  split
  · exact h
  · rename_i g _
    extract_lets drop s1
    have hdrop {t m} (ht : MemOk t) : MemOk (drop t m) := ht.modCore
    have h1 : MemOk s1 := by
      unfold s1
      split
      · exact (hdrop h).modGroup
      · exact h
    split
    · exact (hdrop h1).modGroup
    · exact h1

theorem MemOk.leaveBar {c gid} (h : MemOk s) : (s.leaveBar c gid).Ok := by
  unfold State.leaveBar
  split
  · exact h
  · split
    · exact (h.withdrawTpc.ok ‹_›).withdraw
    · exact h.withdrawTpc

theorem MemOk.beginEvict {c gid forQ} (h : MemOk s) : MemOk (s.beginEvict c gid forQ) := by
  unfold State.beginEvict
  split
  · exact h
  · extract_lets s1 s2 s3 s4
    have h4 : MemOk s4 := h.abandonMoves.abandonLnch.modGroup.modCore.countCore
    exact h4.restartGroup.ite h4

theorem MemOk.evictSome {c part q queue n} (h : MemOk s) : MemOk (s.evictSome c part q queue n) := by
  induction n generalizing s with
  | zero => exact h
  | succ n ih =>
    unfold State.evictSome
    split
    · exact h
    · refine ih ?_
      split
      · exact h.setGroup
      · exact h.beginEvict

theorem MemOk.spilled {c gid len} (h : MemOk s) : MemOk (s.spilled c gid len) := h.modGroup.modCore

theorem MemOk.spillRestart {c gid} (h : MemOk s) : MemOk (s.spillRestart c gid) := by
  unfold State.spillRestart
  extract_lets s1
  have hs1 : MemOk s1 := h.restartGroup
  split
  · exact hs1
  · exact hs1.ite hs1.modCore.modGroup.notifyHalts.retireWhile

theorem MemOk.spillGroup {c gid} (h : MemOk s) : (s.spillGroup c gid).Ok := by
  unfold State.spillGroup
  extract_lets lost
  have hlost {t ctx f} (ht : MemOk t) : (lost t ctx f).Ok := ht.spilled.sinterFault
  split
  · exact h.modCore
  · split
    · exact h
    · have hb := (h.spillRestart (c := c) (gid := gid)).leaveBar (c := c) (gid := gid)
      split
      · exact hb.wait ‹_›
      · exact hlost (hb.fault ‹_›)
      · have h1 := hb.ok ‹_›
        split
        · exact h1
        · split
          · exact hlost h1
          · split
            · exact h1.sinterWrite.wait ‹_›
            · exact hlost (h1.sinterWrite.fault ‹_›)
            · exact (h1.sinterWrite.ok ‹_›).countCore.spilled

theorem MemOk.spillFirst {c l} (h : MemOk s) : MemOk (s.spillFirst c l) := by
  induction l generalizing s with
  | nil => exact h
  | cons sp r ih =>
    unfold State.spillFirst
    split
    · exact h.spillGroup.ok ‹_›
    · exact h.spillGroup.fault ‹_›
    · exact ih (h.keepWait (h.spillGroup.wait ‹_›))

theorem MemOk.sinterRestore {core quad} (h : MemOk s) : OutOk (execSinterRestore core quad s) := by
  unfold execSinterRestore
  split
  · split
    · extract_lets part
      split
      · exact h.setGroup
      · exact h
    · exact h
  · exact h

theorem MemOk.rejectImage {ctx} (h : MemOk s) : MemOk (s.rejectImage ctx) := by
  unfold State.rejectImage
  extract_lets x
  split
  · exact h.setCtx.haltGroups
  · exact h.setCtx.haltGroups
  · exact h

theorem MemOk.sinterRestoreDone {core quad} (h : MemOk s) : OutOk (execSinterRestoreDone core quad s) := by
  unfold execSinterRestoreDone
  split
  · split
    · extract_lets back
      split
      · exact h.keepWait (h.sinterRead.wait ‹_›)
      · exact (h.sinterRead.fault ‹_›).modGroup.sinterFault
      · split
        · exact (h.sinterRead.ok ‹_›).modGroup.rejectImage
        · split
          · exact h.keepWait ((h.sinterRead.ok ‹_›).reloadTrap.wait ‹_›)
          · exact ((h.sinterRead.ok ‹_›).reloadTrap.fault ‹_›).modGroup.sinterFault
          · exact ((h.sinterRead.ok ‹_›).reloadTrap.ok ‹_›).setGroup.modCore.countCore.tryRetire
    · exact h
  · exact h

/-! ## Machine/Dispatcher -/

theorem MemOk.dispFault {q ctx f code l} (h : MemOk s) : MemOk (s.dispFault q ctx f code l) :=
  (h.loseCtx.ite h).queueError

theorem MemOk.noteDisp {l va n e} (h : MemOk s) : MemOk (s.noteDisp l va n e) := by
  unfold State.noteDisp
  split
  · exact h.same.note
  · exact h

theorem MemOk.noteTake {l} (h : MemOk s) : MemOk (s.noteTake l) := h.same.same.note

theorem MemOk.takePacket {q l ws} (h : MemOk s) : MemOk (s.takePacket q l ws) := by
  unfold State.takePacket
  split
  · exact h.queueError
  · exact h.noteTake.same.modQueue

theorem MemOk.packetTake {q} (h : MemOk s) : OutOk (execPacketTake q s) := by
  unfold execPacketTake
  extract_lets x v ctx
  split
  · exact h
  · split
    · exact h.touch.dispFault
    · split
      · exact h
      · split
        · exact h.touch.queueError
        · dsimp only
          split
          · exact h.touch.fresh.queueError
          · split
            · exact h.touch.fresh.takePacket
            · split
              · exact h.keepWait (h.touch.fresh.gread.snd ‹_›)
              · exact (h.touch.fresh.gread.snd ‹_›).dispFault
              · split
                · exact (h.touch.fresh.gread.snd ‹_›).queueError
                · exact (h.touch.fresh.gread.snd ‹_›).takePacket

theorem MemOk.waitCondRead {q i} (h : MemOk s) : OutOk (execWaitCondRead q i s) := by
  unfold execWaitCondRead
  extract_lets x
  split
  · split
    · exact h
    · split
      · exact h
      · split
        · exact h
        · split
          · exact h.keepWait (h.gread.snd ‹_›)
          · exact (h.gread.snd ‹_›).dispFault.modQueue
          · split
            · exact (h.gread.snd ‹_›).noteDisp.modQueue
            · exact h.gread.snd ‹_›
  · exact h

theorem MemOk.claimAcc {c ctx} (h : MemOk s) : MemOk (s.claimAcc c ctx) := by
  unfold State.claimAcc
  extract_lets x mine
  split
  · exact h
  · split
    refine h.modCore fun k => ?_
    dsimp only
    split <;> rfl

theorem MemOk.fuse {c} (h : MemOk s) : MemOk (s.fuse c) :=
  h.ite ((h.foldl (fun _ _ ht => ht.l1Release.l1Acquire)).foldl (fun _ _ ht => ht.modCore))

theorem MemOk.placeBlock {l bix c} (h : MemOk s) : MemOk (s.placeBlock l bix c) := by
  unfold State.placeBlock
  extract_lets x rows
  split
  rename_i bid s0 hf
  extract_lets b s1 s2 s3
  have h0 : MemOk s0 := h.fresh.snd hf
  have h1 : MemOk s1 := h0.forgetRows.modScratch fun _ hk => cellsFrom_filter _ hk
  have h2 : MemOk s2 := (h1.fuse.ite h1).claimAcc
  have h3 : MemOk s3 := h2.foldl fun _ _ ht => by
    split
    · exact ht.setGroup
    · exact ht
  exact h3.l1Acquire.touch

theorem MemOk.activate {c} (h : MemOk s) : MemOk (s.activate c) := h.moveDeadlines.modCtx.ite h

theorem MemOk.placeUnit {q l cs} (h : MemOk s) : MemOk (s.placeUnit q l cs) := by
  unfold State.placeUnit
  extract_lets s1 s2 next s3 s4
  have h1 : MemOk s1 := h.same
  have h2 : MemOk s2 := h1.foldl fun _ _ ht => ht.placeBlock
  have h3 : MemOk s3 := h2.modLaunch
  have h4 : MemOk s4 := h3.modQueue.ite h3
  exact h4.activate

theorem MemOk.claimBanks {q l cs} (h : MemOk s) : MemOk (s.claimBanks q l cs) :=
  h.same.foldl fun _ _ ht => ht.foldl (fun _ _ ht => ht.evictSome)

theorem MemOk.placement (h : MemOk s) : OutOk (execPlacement s) := by
  unfold execPlacement
  split
  · exact h.queueError.modQueue
  · split
    · split
      · split
        · exact h.ite h.placeUnit
        · exact h.same
      · exact h.same
    · split
      · exact h
      · split
        · exact h.claimBanks
        · exact h.ite h.placeUnit

theorem MemOk.dropLaunch {id} (h : MemOk s) : MemOk (s.dropLaunch id) := h.same

theorem MemOk.launchError {l f code} (h : MemOk s) : MemOk (s.launchError l f code) :=
  (h.loseCtx.ite h).dropLaunch.queueError

theorem MemOk.signal {l orig} (h : MemOk s) (horig : MemOk orig) : MemOk (s.signal l orig) := by
  unfold State.signal
  extract_lets fin
  split
  · exact h.ulLaunch.dropLaunch
  · split
    · exact (h.gwrite.snd ‹_›).noteDisp.ulLaunch.dropLaunch
    · exact horig.keepWait (h.gwrite.snd ‹_›)
    · exact (h.gwrite.snd ‹_›).launchError

theorem MemOk.launchComplete {id} (h : MemOk s) : OutOk (execLaunchComplete id s) := by
  unfold execLaunchComplete
  split
  · exact h
  · split
    · exact h
    · split
      · exact h.dropLaunch
      · extract_lets va
        split
        · exact h.signal h
        · split
          · exact (h.gwrite.snd ‹_›).same.signal h
          · exact h.keepWait (h.gwrite.snd ‹_›)
          · exact (h.gwrite.snd ‹_›).launchError

theorem MemOk.watchdogExpiry {id} (h : MemOk s) : OutOk (execWatchdogExpiry id s) := by
  unfold execWatchdogExpiry
  split
  · exact h
  · split
    · exact h.modLaunch.stopCtx
    · exact h

/-! ## Machine/Save -/

theorem MemOk.saveRelease {ctx} (h : MemOk s) : MemOk (s.saveRelease ctx) := h.foldl fun _ _ ht => ht.l1Release

theorem MemOk.saveGroup {c gid} (h : MemOk s) : (s.saveGroup c gid).Ok := by
  unfold State.saveGroup
  split
  · exact h
  · split
    · exact h
    · exact h.setGroup
    · extract_lets lost
      split
      · exact h.abandonMoves.abandonLnch.restartGroup.leaveBar.wait ‹_›
      · exact (h.abandonMoves.abandonLnch.restartGroup.leaveBar.fault ‹_›).modGroup.sinterFault
      · extract_lets s1
        have hs1 : MemOk s1 := (h.abandonMoves.abandonLnch.restartGroup.leaveBar.ok ‹_›).modGroup
        split
        · exact hs1
        · split
          · exact hs1.modGroup.sinterFault
          · split
            · exact hs1
            · split
              · exact hs1.sinterWrite.wait ‹_›
              · exact (hs1.sinterWrite.fault ‹_›).modGroup.sinterFault
              · exact (hs1.sinterWrite.ok ‹_›).countCore.setGroup

theorem MemOk.saveGroups {ctx} (h : MemOk s) : MemOk (s.saveGroups ctx).2 := by
  refine List.foldlRecOn (motive := fun x : Bool × State => MemOk x.2) _ _ h fun x hx y _ => ?_
  dsimp only
  split
  · exact hx.saveGroup.ok ‹_›
  · exact hx.saveGroup.fault ‹_›
  · exact hx.keepWait (hx.saveGroup.wait ‹_›)

theorem MemOk.notifyCtx {ctx} (h : MemOk s) : MemOk (s.notifyCtx ctx) := h.foldl fun _ _ ht => ht.notifyHalts

theorem MemOk.releaseCtx {ctx} (h : MemOk s) : MemOk (s.releaseCtx ctx) := by
  unfold State.releaseCtx
  exact MemOk.foldl (h.forgetSinter.mapCores) fun _ _ ht => ht.unfuse

theorem MemOk.endSave {ctx image} (h : MemOk s) : MemOk (s.endSave ctx image) := h.notifyCtx.releaseCtx.enterStop

theorem MemOk.saveFails {ctx f} (h : MemOk s) : MemOk (s.saveFails ctx f) := by
  unfold State.saveFails
  split
  · exact h.loseCtx
  · exact h.modCtx.endSave
  · exact h.modCtx.endSave

theorem MemOk.savePut {ctx a bs} (h : MemOk s) : (s.savePut ctx a bs).Ok := by
  refine List.foldlRecOn (motive := fun x : SRes Unit × List Byte => x.1.Ok) _ _ h fun x hx y _ => ?_
  dsimp only
  split
  · rename_i t e
    have h2 := (SRes.Ok.ok hx e).touchSpan (ctx := ctx) (p := ⟨false, y.1⟩) (n := y.2)
    split
    · exact h2.unlessHeld h2.homeWrite
    · split
      · exact h2
      · exact h2.homeWrite
  · exact hx

theorem MemOk.putHeader {ctx ncore len} (h : MemOk s) : (s.putHeader ctx ncore len).Ok := by
  unfold State.putHeader
  extract_lets s1
  have hs1 : MemOk s1 := h.touch
  split
  · exact (hs1.savePut.fault ‹_›).saveFails
  · exact hs1.savePut.wait ‹_›
  · exact (hs1.savePut.ok ‹_›).endSave

theorem MemOk.writeSave {ctx r} (h : MemOk s) (e : s.writeSave ctx = r) : r.Ok := by
  subst e
  unfold State.writeSave
  extract_lets x cs
  split
  extract_lets len
  split
  · exact (h.savePut.fault ‹_›).saveFails
  · exact h.savePut.wait ‹_›
  · extract_lets s2
    have h2 : MemOk s2 := (h.savePut.ok ‹_›).same
    split
    · exact h2.saveFails
    · exact h2.putHeader

theorem MemOk.resave {ctx} (h : MemOk s) : (s.resave ctx).Ok := h.putHeader

theorem MemOk.ctxSaveDone {ctx} (h : MemOk s) : OutOk (execCtxSaveDone ctx s) := by
  unfold execCtxSaveDone
  extract_lets x s0
  split
  · exact h
  split
  · split
    · exact h.keepWait (h.resave.wait ‹_›)
    · exact (h.resave.ok ‹_›).modCtx
    · exact (h.resave.fault ‹_›).modCtx
  have h0 : MemOk s0 := h.saveRelease
  split
  · exact h0
  split
  rename_i waits s1 hg
  have h1 : MemOk s1 := h0.saveGroups.snd hg
  split
  · exact h1
  split
  · exact h.keepWait (h1.writeSave (r := .wait _) ‹_›)
  · exact h1.writeSave ‹_›
  · exact h1.writeSave ‹_›

theorem MemOk.savedImage {c ctx g} (h : MemOk s) : (s.savedImage c ctx g).Ok := by
  unfold State.savedImage
  split
  · split
    · exact (h.sinterRead.ok ‹_›).countCore
    · exact h.sinterRead
  · exact h

theorem MemOk.savedImages {ctx l} (h : MemOk s) : (s.savedImages ctx l).Ok := by
  induction l generalizing s with
  | nil => exact h
  | cons x rest ih =>
    obtain ⟨r, g⟩ := x
    unfold State.savedImages
    extract_lets c go
    have hgo {y t} (ht : MemOk t) : (go y t).Ok := by
      unfold go
      split
      · exact (ih ht).ok ‹_›
      · exact ih ht
    split
    · exact h.savedImage.wait ‹_›
    · exact (h.savedImage.fault ‹_›).forgetWalks
    · have h1 := h.savedImage.ok ‹_›
      split
      · exact h1
      · extract_lets y
        split
        · exact h1.reloadTrap.wait ‹_›
        · have h2 := h1.reloadTrap.fault ‹_›
          split
          · exact h2
          · exact hgo h2.forgetWalks
        · exact hgo (h1.reloadTrap.ok ‹_›)

theorem MemOk.restoreBlock {ctx r i b} (h : MemOk s) : MemOk (s.restoreBlock ctx r i b) := by
  unfold State.restoreBlock
  exact (h.same.forgetRows.modCore.foldl (fun _ _ ht => ht.scratchSet)).modCore

theorem MemOk.restoreAcc {ctx r} (h : MemOk s) : MemOk (s.restoreAcc ctx r) := by
  unfold State.restoreAcc
  exact (h.claimAcc.foldl (fun _ _ ht => ht.accSet)).modCore

theorem MemOk.restoreGroups {base r gs} (h : MemOk s) : MemOk (s.restoreGroups base r gs) :=
  h.foldl fun _ _ ht => ht.setGroup

theorem MemOk.recountExits {c ctx} (h : MemOk s) : MemOk (s.recountExits c ctx) := h.modCore

theorem MemOk.restoreCore {ctx gs r} (h : MemOk s) : MemOk (s.restoreCore ctx gs r) := by
  unfold State.restoreCore
  extract_lets base s1 s2 s3
  have h1 : MemOk s1 := h.foldl fun _ _ ht => ht.restoreBlock
  have h2 : MemOk s2 := h1.fuse.ite h1
  have h3 : MemOk s3 := h2.restoreAcc.restoreGroups.recountExits
  exact h3.l1Acquire.touch

theorem MemOk.restoreStops {ctx r} (h : MemOk s) : MemOk (s.restoreStops ctx r) := h.enterStop

theorem MemOk.ctxRestoreDone {ctx} (h : MemOk s) : OutOk (execCtxRestoreDone ctx s) := by
  unfold execCtxRestoreDone
  extract_lets x len s0
  have h0 : MemOk s0 := h.touchSpan
  split
  · exact h
  split
  · exact h0.loseCtx
  split
  · exact h0.restoreStops
  split
  · exact h.keepWait (h0.savedImages.wait ‹_›)
  · have h1 := h0.savedImages.fault ‹_›
    exact h1.loseCtx.ite h1.restoreStops
  · exact (h0.savedImages.ok ‹_›).restoreStops
  · have h1 := h0.savedImages.ok ‹_›
    split
    · exact h1.restoreStops
    split
    · exact h
    · exact (h1.foldl fun _ _ ht => ht.restoreCore).moveDeadlines.modCtx

/-! ## Machine/Contexts -/

theorem MemOk.dropClaims {ctx} (h : MemOk s) : MemOk (s.dropClaims ctx) := h.same

theorem MemOk.evictAll {ctx} (h : MemOk s) : MemOk (s.evictAll ctx) := by
  unfold State.evictAll
  refine h.foldl fun s x hs => ?_
  dsimp only
  split
  · exact hs.beginEvict
  · exact hs.setGroup
  · exact hs

theorem MemOk.preempt {ctx} (h : MemOk s) : OptOk (s.preempt ctx) := by
  unfold State.preempt
  extract_lets x saving
  split
  · exact h.dropClaims.modCtx
  · split
    · exact h.dropClaims.modCtx.evictAll
    · exact h.dropClaims.modCtx.foldl fun _ _ ht => ht.abandonMove
  · trivial

theorem MemOk.resume {ctx} (h : MemOk s) : OptOk (s.resume ctx) := by
  unfold State.resume
  extract_lets x go
  have hgo : MemOk go := h.setCtx
  split
  · exact hgo
  · split
    · exact hgo
    · trivial
  · trivial

theorem MemOk.destroy {ctx} (h : MemOk s) : MemOk (s.destroy ctx) := by
  unfold State.destroy
  extract_lets s1
  have h1 : MemOk s1 := h.dropClaims.foldl fun _ _ ht => ht.queueDisable.ite ht
  exact h1.mapCores

theorem MemOk.ctxResult {ctx op result} (h : MemOk s) : MemOk (s.ctxResult ctx op result) := h.same

theorem MemOk.ctxTry {ctx op r} (h : MemOk s) (hr : OptOk r) : MemOk (s.ctxTry ctx op r) := by
  unfold State.ctxTry
  split
  · exact MemOk.ctxResult hr
  · exact h.ctxResult

theorem MemOk.ctxCreate {ctx} (h : MemOk s) : OutOk (execCtxCreate ctx s) := by
  unfold execCtxCreate
  split
  · exact h.ctxResult
  · exact h.setCtx.moveDeadlines.ctxResult

theorem MemOk.ctxDestroy {ctx} (h : MemOk s) : OutOk (execCtxDestroy ctx s) := by
  unfold execCtxDestroy
  extract_lets c
  split
  · exact h.destroy.ctxResult
  · exact h.destroy.ctxResult
  · exact h.destroy.ctxResult
  · exact h.ctxResult

theorem MemOk.ctxDbggrant {ctx} (h : MemOk s) : OutOk (execCtxDbggrant ctx s) := by
  unfold execCtxDbggrant
  extract_lets c v
  split
  · exact h.ctxResult
  · split
    · exact h.ctxResult
    · exact h.modCtx.ulDebug.ctxResult

theorem MemOk.revoke {c} (h : MemOk s) : MemOk (s.revoke c) := by
  unfold State.revoke
  split
  · exact h
  · exact (h.modCtx.modVd.ite h.modCtx).modGroups.ulDebug

theorem MemOk.ctxDbgrevoke {ctx} (h : MemOk s) : OutOk (execCtxDbgrevoke ctx s) := by
  unfold execCtxDbgrevoke
  split
  · exact h.ctxResult
  · exact h.revoke.ctxResult

theorem MemOk.ctxcmdBadop {ctx op} (h : MemOk s) : OutOk (execCtxcmdBadop ctx op s) := by
  unfold execCtxcmdBadop
  split
  · exact h.ctxResult
  · split
    · exact h.same
    · exact h

theorem MemOk.timeSliceExpiry {ctx} (h : MemOk s) : OutOk (execTimeSliceExpiry ctx s) := by
  unfold execTimeSliceExpiry
  extract_lets x
  split
  · split
    · exact (h.preempt.get ‹_›).same.modCtx
    · exact h
  · exact h

theorem MemOk.autoResume {ctx} (h : MemOk s) : OutOk (execAutoResume ctx s) := by
  unfold execAutoResume
  extract_lets x out
  split
  · split
    · exact h.resume.get ‹_›
    · exact h
  · exact h

theorem MemOk.mapDeadlineExpiry {ctx} (h : MemOk s) : OutOk (execMapDeadlineExpiry ctx s) := by
  unfold execMapDeadlineExpiry
  extract_lets x
  split
  · exact h.ulMap.stopCtx
  · exact h

theorem MemOk.mapgrcWrite {v} (h : MemOk s) : OutOk (execMapgrcWrite v s) := by
  unfold execMapgrcWrite
  extract_lets ms
  split
  · exact h.same
  · exact h

/-! ## Machine/Convert -/

theorem MemOk.drawPost_ok {u p good} (h : MemOk s) : MemOk (drawPost u p good s) := h.modGroup

/-! ## Machine/Cross -/

theorem MemOk.vote {nw d pa mode} (h : MemOk s) : OutOk (execVote nw d pa mode s) := by
  unfold execVote
  extract_lets i
  split <;> exact h.laneRun

/-! ## Machine/Devices -/

theorem MemOk.vdResult {v op result} (h : MemOk s) : MemOk (s.vdResult v op result) := h.modVd
theorem MemOk.vdRefuse {v op} (h : MemOk s) : MemOk (s.vdRefuse v op) := h.modVd

theorem MemOk.vdCreate {v} (h : MemOk s) : OutOk (execVdCreate v s) := by
  unfold execVdCreate
  split
  · exact h
  · split
    · exact h.modVd.ulRec.vdResult
    · exact h.vdRefuse

theorem MemOk.vdStop {v} (h : MemOk s) : OutOk (execVdStop v s) := by
  unfold execVdStop
  split
  · refine MemOk.foldl h.modVd fun t x ht => ?_
    obtain ⟨c, x⟩ := x
    dsimp only
    split
    · cases e : t.preempt c with
      | none => exact ht
      | some u => exact ht.preempt.get e
    · exact ht
  · exact OutOk.ite h h.vdRefuse

theorem MemOk.vdRelease {v} (h : MemOk s) : MemOk (s.vdRelease v) :=
  h.foldl fun _ _ ht => ht.foldl (fun _ _ ht => ht.grant.surrender)

theorem MemOk.vdStopDone {v} (h : MemOk s) : OutOk (execVdStopDone v s) := by
  unfold execVdStopDone
  split
  · split
    · exact h
    · extract_lets s1
      have hs1 : MemOk s1 := h.vdRelease
      split
      · exact h
      · exact hs1.modVd.ulState.vdResult.virq
  · exact h

theorem MemOk.vdResume {v} (h : MemOk s) : OutOk (execVdResume v s) := by
  unfold execVdResume
  split
  · exact h.modVd.ulState.vdResult
  · split
    · exact h
    · exact h.vdRefuse

theorem MemOk.resetWork {v} (h : MemOk s) : MemOk (s.resetWork v) :=
  (h.foldl (fun _ _ ht => ht.loseCtx.destroy)).foldl fun _ _ ht => ht.queueDisable.ite ht

theorem MemOk.vdReset {v} (h : MemOk s) : OutOk (execVdReset v s) := by
  unfold execVdReset
  extract_lets d
  split
  · split
    · exact h
    · exact h.vdRefuse
  · split
    · exact h
    · exact h.vdRefuse
  · exact h.modVd.resetWork

theorem MemOk.unconfigure {v c} (h : MemOk s) : MemOk (s.unconfigure v c) := h.same

theorem MemOk.resetChannels {v} (h : MemOk s) : MemOk (s.resetChannels v) := by
  refine h.foldl fun t c ht => ?_
  have h0 : MemOk { t with free := t.free + 1 } := ht.same
  have h1 {die ctx fs} := h0.putFrames (die := die) (ctx := ctx) (fs := fs)
  exact MemOk.unconfigure h1.same

theorem MemOk.vdResetDone {v} (h : MemOk s) : OutOk (execVdResetDone v s) := by
  unfold execVdResetDone
  split
  · exact h.modVd.resetChannels.modVd.ulState.vdResult.virq
  · exact h

theorem MemOk.usagePut {c x} (h : MemOk s) : MemOk (s.usagePut c x) := h.same.ulRec
theorem MemOk.closeUsage {v} (h : MemOk s) : MemOk (s.closeUsage v) := h.same.foldl fun _ _ ht => ht.ite ht.usagePut

theorem MemOk.vdDestroy {v} (h : MemOk s) : OutOk (execVdDestroy v s) := by
  unfold execVdDestroy
  split
  · split
    · exact h.vdResult
    · exact h.closeUsage.modVd.vdResult
  · split
    · exact h.vdResult
    · exact h.closeUsage.modVd.vdResult
  · split
    · exact h
    · exact h.vdRefuse

theorem MemOk.vdSign {v window} (h : MemOk s) : OutOk (execVdSign v window s) := by
  unfold execVdSign
  split
  · exact h
  · split
    · exact h.vdResult
    · exact h.checkpoint.vdResult

theorem MemOk.vdcmdBadop {v op} (h : MemOk s) : OutOk (execVdcmdBadop v op s) := by
  unfold execVdcmdBadop
  split
  · exact h
  · split
    · exact h.vdResult
    · split
      · exact h.modVd
      · exact h

theorem MemOk.prtoWrite {v val} (h : MemOk s) : OutOk (execPrtoWrite v val s) := by
  unfold execPrtoWrite
  split
  · exact h.modVd
  · exact h

theorem MemOk.usageRecord {c} (h : MemOk s) : MemOk (s.usageRecord c) := h.usagePut.modCtx
theorem MemOk.usagePast (h : MemOk s) : MemOk s.usagePast := h.same.foldl fun _ _ ht => ht.same.ite ht.usagePut

theorem MemOk.usageIntervalTick (h : MemOk s) : OutOk (execUsageIntervalTick s) := by
  unfold execUsageIntervalTick
  split
  · exact h
  · exact h.usagePast.same.foldl fun _ _ ht => (ht.ite ht.usageRecord).ite ht.modCtx

theorem MemOk.checkpointTick {v} (h : MemOk s) : OutOk (execCheckpointTick v s) := by
  unfold execCheckpointTick
  extract_lets d
  split
  · exact h
  · exact h.modVd.checkpoint

theorem MemOk.attestRequest {v dpa} (h : MemOk s) : OutOk (execAttestRequest v dpa s) := by
  unfold execAttestRequest
  extract_lets a
  split
  · exact h
  · exact h.modVd

theorem MemOk.reportPut {a bs} (h : MemOk s) : MemOk (s.reportPut a bs).2 := by
  refine List.foldlRecOn (motive := fun x : Bool × State × List Byte => MemOk x.2.1) _ _ h fun x hx y _ => ?_
  dsimp only
  split
  · exact hx
  · split
    · exact hx
    · exact hx.homeWrite

theorem MemOk.attestReportDone {v} (h : MemOk s) : OutOk (execAttestReportDone v s) := by
  unfold execAttestReportDone
  split
  · exact h
  · dsimp only
    split
    · exact h.fresh.modVd
    · split
      · exact (h.fresh.modVd.reportPut.snd ‹_›).modVd.virq
      · exact h.keepWait h.fresh.reportPut

theorem MemOk.dlepochWrite {v} (h : MemOk s) : OutOk (execDlepochWrite v s) := by
  unfold execDlepochWrite
  split
  · exact h
  · exact h.modVd

theorem MemOk.dirtyTaken {v} (h : MemOk s) : MemOk (s.dirtyTaken v) := by
  unfold State.dirtyTaken
  extract_lets d s1
  have h1 : MemOk s1 := h.modVd.foldl fun _ _ ht => ht.dirtyPut
  exact h.ite ((h1.ite h1.putFrames).foldl fun _ _ ht => ht.sweep)

theorem MemOk.ringHeadWrite {v ring val} (h : MemOk s) : OutOk (execRingHeadWrite v ring val s) := by
  unfold execRingHeadWrite
  extract_lets d fits
  split
  · exact h
  · split
    · split
      · exact h.modVd.dirtyTaken
      · exact h
    · split
      · exact h.modVd.ulFlow
      · exact h
    · split
      · exact h.modVd.pqFlow
      · exact h
    · split
      · exact h.modVd
      · exact h

theorem MemOk.irqstWrite {win val} (h : MemOk s) : OutOk (execIrqstWrite win val s) := by
  unfold execIrqstWrite
  split
  · exact h.same
  · split
    · exact h
    · exact h.modVd

theorem MemOk.chcfgWrite {v c val} (h : MemOk s) : OutOk (execChcfgWrite v c val s) := by
  unfold execChcfgWrite
  extract_lets old w put
  have hput : MemOk put := h.same
  split
  · exact h
  · split
    · split
      · exact hput
      · exact h
    · split
      · exact h
      · exact hput

theorem MemOk.fabricGroupWrite {g off val} (h : MemOk s) : OutOk (execFabricGroupWrite g off val s) := by
  unfold execFabricGroupWrite
  extract_lets x put
  split
  · exact h
  · split
    · exact h.same
    · split
      · exact h.same
      · exact h

/-! ## Machine/Move -/

theorem MemOk.movsw {sr a} (h : MemOk s) : OutOk (execMovsw sr a s) := by
  unfold execMovsw
  refine h.laneOp fun p rs s hs => ?_
  split
  · exact hs.modGroup
  · exact hs

/-! ## Machine/Observe -/

theorem MemOk.clsregWrite {die val} (h : MemOk s) : OutOk (execClsregWrite die val s) := by
  unfold execClsregWrite
  extract_lets g h0
  split
  · exact h.same
  · exact h

theorem MemOk.pwrcapWrite {val} (h : MemOk s) : OutOk (execPwrcapWrite val s) := by
  unfold execPwrcapWrite
  extract_lets cap
  split
  · exact h.same
  · exact h

theorem MemOk.powerMore {hfrac} (h : MemOk s) : MemOk (s.powerMore hfrac) := by
  unfold State.powerMore
  split
  · exact h.same
  · exact h.same.ite h.same
  · exact h.same
  · exact h.same

theorem MemOk.powerLess {hfrac} (h : MemOk s) : MemOk (s.powerLess hfrac) := by
  unfold State.powerLess
  split
  · exact h
  · exact h.same
  · exact h.same
  · exact h.same.ite h.same

theorem MemOk.powerCapMeasure {power move hfrac} (h : MemOk s) : OutOk (execPowerCapMeasure power move hfrac s) := by
  unfold execPowerCapMeasure
  split
  · exact h
  · extract_lets seen s1
    have hs1 : MemOk s1 := h.same
    split
    · exact hs1.powerMore
    · exact hs1.powerLess.ite hs1

theorem MemOk.droopDetected {core} (h : MemOk s) : OutOk (execDroopDetected core s) := by
  unfold execDroopDetected
  split
  · exact h
  · exact h.modCore.countDie

theorem MemOk.droopRecovered {core} (h : MemOk s) : OutOk (execDroopRecovered core s) := by
  unfold execDroopRecovered
  split
  · exact h
  · exact h.modCore

theorem MemOk.fumctlWrite {val} (h : MemOk s) : OutOk (execFumctlWrite val s) := by
  unfold execFumctlWrite
  extract_lets w
  split
  · exact h
  · split
    · exact h
    · split <;> exact h.same

theorem MemOk.fumheadWrite {val} (h : MemOk s) : OutOk (execFumheadWrite val s) := by
  unfold execFumheadWrite
  split
  · exact h.same
  · exact h

theorem MemOk.fumPut {off bs} (h : MemOk s) : MemOk (s.fumPut off bs) := h.hostPut.hostPut

theorem MemOk.fumaroleTick {busy} (h : MemOk s) : OutOk (execFumaroleTick busy s) := by
  unfold execFumaroleTick
  extract_lets n t len s1 s2
  have h1 : MemOk s1 := h.same
  have h2 : MemOk s2 := h1.fumPut
  split
  · exact h
  · split
    · exact h1.same
    · exact h2.same

theorem MemOk.traceSample {core} (h : MemOk s) : OutOk (execTraceSample core s) := by
  unfold execTraceSample
  split
  · exact h
  · split
    · exact h
    · split
      · extract_lets ts
        split
        · split
          · exact h.same.modCore.trace
          · exact h
        · exact h
      · exact h

theorem MemOk.dbgEnd {v cmd op result} (h : MemOk s) : MemOk (s.dbgEnd v cmd op result) := by
  unfold State.dbgEnd
  exact h.modVd

theorem MemOk.dbgOn {v cmd op halt k} (h : MemOk s) (hk : ∀ g t, k g = .ok t → MemOk t) :
    MemOk (s.dbgOn v cmd op halt k) := by
  unfold State.dbgOn
  split
  · exact h
  · split
    · exact h.dbgEnd
    · split
      · exact h.dbgEnd
      · exact (hk _ _ ‹_›).dbgEnd

theorem MemOk.dbgMod {cmd f} (h : MemOk s) : MemOk (s.dbgMod cmd f) := h.modGroup
theorem MemOk.dbgRelease {cmd stepping} (h : MemOk s) : MemOk (s.dbgRelease cmd stepping) := h.dbgMod.modGroup

theorem MemOk.dbgRdreg {v cmd} (h : MemOk s) : OutOk (execDbgRdreg v cmd s) := by
  refine h.dbgOn fun g t e => ?_
  split at e
  · exact Except.ok.inj e ▸ h.modVd
  · cases e

theorem MemOk.markEdited {c v} (h : MemOk s) : MemOk (s.markEdited c v) := by
  unfold State.markEdited
  exact (h.ite h.ulDebug).modCtx

theorem MemOk.dbgWrreg {v cmd} (h : MemOk s) : OutOk (execDbgWrreg v cmd s) := by
  refine h.dbgOn fun g t e => ?_
  dsimp only at e
  split at e
  · cases e
  · exact Except.ok.inj e ▸ h.modGroup.markEdited

theorem MemOk.dbgBp {v cmd op bp} (h : MemOk s) : MemOk (s.dbgBp v cmd op bp) :=
  h.ite <| h.dbgEnd.ite (h.dbgEnd.ite h.modVd.dbgEnd)

theorem MemOk.dbgcmdBadop {v cmd} (h : MemOk s) : OutOk (execDbgcmdBadop v cmd s) := by
  unfold execDbgcmdBadop
  extract_lets op
  split
  · exact h
  · split
    · exact h.dbgEnd
    · split
      · exact h.dbgEnd
      · exact h

/-! ## Machine/Service -/

theorem MemOk.loseHostLines (h : MemOk s) : MemOk s.loseHostLines := by
  unfold State.loseHostLines
  extract_lets ls s1
  have h1 : MemOk s1 := by
    refine h.foldl fun t x ht => ?_
    split
    · have hp bs n : MemOk { t.hostSet (128 * x.line) bs with free := n } := ht.hostSet.same
      exact hp _ _
    · exact ht.same
  exact h1.same

theorem MemOk.freeMemory {d} (h : MemOk s) : MemOk (s.freeMemory d) := by
  refine ⟨?_, h.host, h.scratch⟩
  refine List.foldlRecOn (motive := fun m => Memory.wf m = true) s.written _ h.device fun m hm l _ => ?_
  split
  · exact List.foldlRecOn (motive := fun m => Memory.wf m = true) _ _ hm fun _ hm _ _ => cellSet_wf _ _ hm
  · exact hm

theorem MemOk.markGone (h : MemOk s) : MemOk s.markGone := h.same

theorem MemOk.clearDie {d} (h : MemOk s) : MemOk (s.clearDie d) :=
  h.mapCores (hf := fun _ => by dsimp only; split <;> rfl)

theorem MemOk.loseDie {d} (h : MemOk s) : MemOk (s.loseDie d) := by
  unfold State.loseDie
  extract_lets host cmap s1 s2 s3
  have h1 : MemOk s1 := h.same
  have h2 : MemOk s2 := h1.foldl fun _ _ ht => ht.loseCtx.ite ht
  have h3 : MemOk s3 := h2.clearDie
  exact (h3.loseHostLines.ite h3).markGone

theorem MemOk.dieLoss {die} (h : MemOk s) : OutOk (execDieLoss die s) := by
  unfold execDieLoss
  split
  · exact h
  · exact h.loseDie

theorem MemOk.dieLossPublish {die} (h : MemOk s) : OutOk (execDieLossPublish die s) := by
  unfold execDieLossPublish
  split
  · exact h
  · exact h.publish.pirq

theorem MemOk.hostLinkRetrain (h : MemOk s) : OutOk (execHostLinkRetrain s) := by
  unfold execHostLinkRetrain
  split
  · exact h
  · exact h.same.foldl fun _ _ ht => ht.ite ht.modVd.pqFlow

theorem MemOk.stackLoss {stack} (h : MemOk s) : OutOk (execStackLoss stack s) := by
  unfold execStackLoss
  split
  · exact h
  · exact h.same.publish.markGone

theorem MemOk.testDie {d} (h : MemOk s) : MemOk (s.testDie d) := h.same

theorem MemOk.dieReset {die} (h : MemOk s) : OutOk (execDieReset die s) := by
  unfold execDieReset
  split
  · exact h
  · extract_lets s1
    have h1 : MemOk s1 := (h.ite h.loseDie).testDie
    exact ⟨h1.device, h1.host, fun x hx => h1.scratch x (List.mem_of_mem_filter hx)⟩

theorem MemOk.dieReturn {die} (h : MemOk s) : OutOk (execDieReturn die s) := by
  unfold execDieReturn
  split
  · exact h
  · exact h.freeMemory.publish.pirq

theorem MemOk.lsRun {op kind} (h : MemOk s) : MemOk (s.lsRun op kind) := h.same.same
theorem MemOk.lsEnd {op result} (h : MemOk s) : MemOk (s.lsEnd op result) := h.same.pirq

theorem MemOk.lsCmd {op r k} (h : MemOk s) (hk : ∀ t, MemOk t → MemOk (k t)) : MemOk (s.lsCmd op r k) := by
  unfold State.lsCmd
  split
  · exact h
  split
  · exact h.lsEnd
  · exact hk _ h.lsRun

theorem MemOk.remapEvict {core} (h : MemOk s) : MemOk (s.remapEvict core) := by
  unfold State.remapEvict
  refine h.foldl fun s x hs => ?_
  dsimp only
  split
  · exact hs.beginEvict
  · exact hs.setGroup
  · exact hs

theorem MemOk.lscmdBadop {op} (h : MemOk s) : OutOk (execLscmdBadop op s) := by
  unfold execLscmdBadop
  split
  · exact h
  · split
    · exact h.lsEnd
    · split
      · exact h.same
      · exact h

theorem MemOk.fwRun {kind} (h : MemOk s) : MemOk (s.fwRun kind) := h.same.same
theorem MemOk.retireCore {core p} (h : MemOk s) : MemOk (s.retireCore core p) := h.publish.pirq

theorem MemOk.fwLiveServiceStart {op} (h : MemOk s) : OutOk (execFwLiveServiceStart op s) := by
  unfold execFwLiveServiceStart
  split
  · split
    · exact h
    · split
      · exact h
      · exact h.fwRun.remapEvict
      · exact h.retireCore
  · split
    · exact h
    · exact h.fwRun
  · split
    · exact h
    · exact h.fwRun

theorem MemOk.lsOpComplete {id ok} (h : MemOk s) : OutOk (execLsOpComplete id ok s) := by
  unfold execLsOpComplete
  split
  · exact h
  · extract_lets s1
    have hs1 : MemOk s1 := h.same
    split
    · exact hs1.lsEnd.ite hs1
    · split
      · exact h
      · exact hs1.publish.lsEnd.ite hs1.publish.pirq

/-! ## Machine/Registers -/

theorem MemOk.pmEnd {st code} (h : MemOk s) : MemOk (s.pmEnd st code) := h.same.pirq
theorem MemOk.installQuotas {mask} (h : MemOk s) : MemOk (s.installQuotas mask) := h.mapCores

theorem MemOk.pmEffect (h : MemOk s) : MemOk s.pmEffect := by
  unfold State.pmEffect
  split
  · exact h.pmEnd
  · exact h.installQuotas.pmEnd

theorem MemOk.pmGo {mask} (h : MemOk s) : OutOk (execPmGo mask s) := by
  unfold execPmGo
  extract_lets s0 s1
  split
  · exact h
  · have h0 : MemOk s0 := h.same
    split
    · exact h0.pmEnd
    · have h1 : MemOk s1 := h0.same
      exact h1.ite h1.pmEffect

theorem MemOk.pmCancel {mask} (h : MemOk s) : OutOk (execPmCancel mask s) := by
  unfold execPmCancel
  split
  · exact h.same.pmEnd
  · exact h

theorem MemOk.pmTakeEffect (h : MemOk s) : OutOk (execPmTakeEffect s) := by
  unfold execPmTakeEffect
  split
  · exact h.pmEffect
  · exact h

theorem MemOk.pqnWrite {p b val} (h : MemOk s) : OutOk (execPqnWrite p b val s) := by
  unfold execPqnWrite
  split
  · exact h
  · exact h.same

theorem MemOk.ringWrite {v o val} (h : MemOk s) : MemOk (s.ringWrite v o val) := by
  unfold State.ringWrite
  split
  · exact h.modVd
  · exact h.modVd.ulFlow
  · exact h.modVd.pqFlow
  · exact h.modVd
  · exact h.modVd
  · exact h

theorem MemOk.windowWrite {v off val} (h : MemOk s) : MemOk (s.windowWrite v off val) := by
  unfold State.windowWrite
  split
  · exact h.modVd
  · exact h.modVd
  · exact h.modVd
  · exact h.modVd
  · exact h

theorem MemOk.wqWrite {q o val} (h : MemOk s) : MemOk (s.wqWrite q o val) := h.modQueue.ite h

theorem MemOk.pkgWrite {off val} (h : MemOk s) : MemOk (s.pkgWrite off val) := by
  unfold State.pkgWrite
  split
  · exact h.same
  · exact h.same
  · exact h.same
  · exact h.tlbWrite
  · exact h.same.ite h
  · exact h.same
  · exact h.same
  · exact h.same
  · exact h.same.ite h
  · exact h.same
  · exact h.same.ite h
  · exact h.same
  · exact h.same
  · exact h

theorem MemOk.mgmtWrite {off val} (h : MemOk s) : MemOk (s.mgmtWrite off val) :=
  h.wqWrite.ite <| h.ringWrite.ite <| h.same.ite <| h.modCore.ite <| h.same.ite ((h.ite h.modQueue).ite h.pkgWrite)

theorem MemOk.registerWrite {win off val} (h : MemOk s) : OutOk (execRegisterWrite win off val s) := by
  unfold execRegisterWrite
  split
  · exact h.mgmtWrite
  · split
    · exact h
    · exact h.windowWrite

theorem MemOk.hostWrite {dpa bytes} (h : MemOk s) : OutOk (execHostWrite dpa bytes s) := by
  unfold execHostWrite
  split
  · exact h
  · exact h.homePut

/-! ## Machine/System -/

theorem MemOk.noteArrival {p} (h : MemOk s) : MemOk (s.noteArrival p) := by
  unfold State.noteArrival
  exact h.noteNew

theorem MemOk.bar {a} (h : MemOk s) : OutOk (execBar a s) :=
  h.laneFront fun _ _ _ => h.fin.ite h.serveAll.noteArrival.modCore.finBreak.checkBarrier

theorem MemOk.qcfg {qn a off} (h : MemOk s) : OutOk (execQcfg qn a off s) :=
  h.laneFront fun _ _ _ => h.fin.ite <| (h.fin.ite h.popAll.modCore.fin).ite (h.fin.ite h.popAll.modCore.fin)

theorem MemOk.yld {u stage} (h : MemOk s) : OutOk (execYld u stage s) := by
  unfold execYld
  extract_lets i
  refine h.prePass fun p _ _ => ?_
  extract_lets past
  have hpast last : MemOk (past s last) := h.finLeave.modGroup.ite h.finLeave
  split
  · exact hpast _
  split
  · exact h.stopAsync
  split
  · exact h.fin
  split
  · exact hpast _
  split
  · exact hpast _
  · exact h.ite (hpast _).modGroup

theorem MemOk.lnch {nw d a b} (h : MemOk s) : OutOk (execLnch nw d a b s) := by
  refine h.laneFront fun p vs ue => ?_
  extract_lets bl addr q bad
  refine h.fin.ite <| h.fin.ite <| h.fin.ite <| h.ite ?_
  split
  rename_i packet t ht
  have h1 : MemOk t := h.readBlock.snd ht
  refine h1.fin.ite <| h1.fin.ite ?_
  split
  rename_i id s1 hf
  exact (h1.fresh.snd hf).modCore.popAll.modGroup.finBreak

theorem MemOk.queueStep {ctx l} (h : MemOk s) : (s.queueStep ctx l).Ok := by
  unfold State.queueStep
  extract_lets x v
  split
  · exact h
  · split
    · exact h
    · split
      · extract_lets s1
        have hs1 : MemOk s1 := (h.touch.ite h).queueError
        split <;> exact hs1
      · split
        · trivial
        · exact h.touch.homeWrite.setQueue

theorem MemOk.lnchEnd {s0 c l r} (h : MemOk s0) : MemOk (s0.lnchEnd c l r) := (h.ite h.noteThs).modCore.modGroup
theorem MemOk.lnchProt {c l} (h : MemOk s) : MemOk (s.lnchProt c l) := h.modCore.modGroup.raise.settle

theorem MemOk.lnchQueueStep {core id} (h : MemOk s) : OutOk (execLnchQueueStep core id s) := by
  unfold execLnchQueueStep
  split
  · exact h
  · split
    · exact h
    · extract_lets st s1
      have h1 : MemOk s1 := h.l1Release.modCore
      refine OutOk.ite h (OutOk.ite h ?_)
      split
      · exact h
      · exact (h1.queueStep.lost ‹_›).loseCtx
      · exact (h1.queueStep.prot ‹_›).lnchProt
      · exact (h1.queueStep.done ‹_›).lnchEnd

/-! ## Machine/Trap -/

theorem MemOk.bkpt (h : MemOk s) : OutOk (execBkpt s) :=
  h.prePass fun _ _ _ => h.fin.ite (h.passStep.modGroup.traceAll.endClause.ite h.passStep.modGroup.traceAll)

theorem MemOk.dropAt {c gid ctx va n} (h : MemOk s) : MemOk (s.dropAt c gid ctx va n) := by
  unfold State.dropAt
  split
  · exact h.dropCopies
  · exact h

theorem MemOk.trapWrites {c gid g g1 l} (h : MemOk s) : (s.trapWrites c gid g g1 l).Ok := by
  induction l generalizing s with
  | nil => exact h.missedAll
  | cons i r ih =>
    unfold State.trapWrites
    extract_lets bs
    split
    · exact ih (h.gwrite.snd ‹_›).dropAt
    · exact h.gwrite.snd ‹_›
    · exact h.gwrite.snd ‹_›

theorem MemOk.trapEntry {core gid} (h : MemOk s) : OutOk (execTrapEntry core gid s) := by
  unfold execTrapEntry
  split
  · exact h
  · split
    · exact h
    · split
      · exact h
      · split
        · exact h.raiseDue
        · extract_lets g1
          split
          · exact h.keepWait (h.trapWrites.wait ‹_›)
          · exact (h.trapWrites.fault ‹_›).loseCtx.ite ((h.trapWrites.fault ‹_›).stopCtx)
          · exact (h.trapWrites.ok ‹_›).setGroup

/-! ## Machine/Dispatch -/

/-- Every event and every instruction keeps the memories: the lane instructions, loads, stores, atomics, engine
operations, jumps and branches by the lemma of their shared operation, the others by their own. -/
theorem MemOk.exec_ok {i} (h : MemOk s) : OutOk (exec i s) := by
  cases i with
  | iadd | isub | imul | imulh | imin | imax | iabs | idp4 | and_ | or_ | xor_ | andn | shl | shr | popc | clz
    | brev | bfi | bfx | bdlv | fadd | fsub | fmul | fma | fmin | fmax | fabs | fneg | frcp | frsq | fsqrt
    | fex2 | flg2 | fsin | fcos | ftnh | frnd | fcls | padd | pmul | pfma | pmin | pmax | itst | ftst | plog
    | pval | vchk | selp | shfx | shfd | shfb | scan | redx | first | rank | elect | mov | movs | movx | aff
    | unif | shtag | qtry => exact h.laneRun
  | imad => exact h.imad
  | bilv => exact h.bilv
  | cvt | mxpk => exact h.laneOp fun _ _ _ ht => ht.tallyPost_ok.drawPost_ok.ite ht.tallyPost_ok
  | mxscl | mxupk => exact h.laneOp fun _ _ _ ht => ht.tallyPost_ok
  | vote => exact h.vote
  | ssint | movxw => exact h.laneOp fun _ _ _ ht => ht.foldl (fun _ _ ht => ht.modGroup)
  | movsw => exact h.movsw
  | ldgB8 | ldgB16 | ldgB32 | ldgB64 | ldgB128 | ldgS8 | ldgS16 | ldgAcq | ldsB8 | ldsB16 | ldsB32 | ldsB64
    | ldsB128 | lda => exact h.load
  | stgB8 | stgB16 | stgB32 | stgB64 | stgB128 | stsB8 | stsB16 | stsB32 | stsB64 | stsB128 | sta => exact h.store
  | pfg => exact h.prePass fun _ _ _ => (h.missedAll.foldl (fun _ _ ht => ht.prefetch)).fin
  | atg | ats | redg | reds => exact h.atom
  | fence => exact h.fence
  | waitc => exact h.waitc
  | waita => exact h.waita
  | cpy | gath | mma | adrn | coll => exact h.asyncBlock
  | mbind => exact h.mbind
  | aclr => exact h.aclr
  | bra | call => exact h.branch
  | jmpr | callr | ret => exact h.jump
  | exit => exact h.exit
  | setm => exact h.setm
  | join => exact h.laneFront fun _ _ _ => h.fin.ite h.movePass
  | leave => exact h.prePass fun _ _ _ => h.movePass
  | bar => exact h.bar
  | qcfg => exact h.qcfg
  | yld => exact h.yld
  | nap => exact h.laneFront fun _ _ _ => h.fin.ite h.popAll.finBreak
  | trap => exact h.prePass fun _ _ _ => h.fin
  | rte => exact h.prePass fun _ _ _ => h.go.ite h.modGroup.go
  | cmack => exact h.laneFront fun _ _ _ => h.fin.ite ((h.modCtx.ulMap.ite h).fin)
  | lnch => exact h.lnch
  | rgna => exact h.prePass fun _ _ _ => h.go.ite (h.passStep.dropClause.ite h.passStep.restartGroup)
  | mark => exact h.prePass fun _ _ _ => (h.foldl (fun _ _ ht => ht.trace)).fin
  | dieReset => exact h.dieReset
  | dieReturn => exact h.dieReturn
  | dieLoss => exact h.dieLoss
  | dieLossPublish => exact h.dieLossPublish
  | stackLoss => exact h.stackLoss
  | mapDeadlineExpiry => exact h.mapDeadlineExpiry
  | mapgrcWrite => exact h.mapgrcWrite
  | lscmdBadop => exact h.lscmdBadop
  | fwLiveServiceStart => exact h.fwLiveServiceStart
  | lsOpComplete => exact h.lsOpComplete
  | fullIssue => exact h.issueWith (fun _ _ _ _ _ hs1 => hs1.fullAt) fun _ _ _ _ _ _ => h
  | resumedIssue => exact h.issueWith (fun _ _ _ _ _ _ => h) fun _ _ _ _ _ hs1 => hs1.midAt
  | hClauseCut => exact h.hClauseCut
  | cutLaneFree => exact h.cutLaneFree
  | loadDataReturn => exact h.loadDataReturn
  | atomicResultReturn => exact h.atomicResultReturn
  | reductionTakesEffect => exact h.reductionTakesEffect
  | fenceComplete => exact h.fenceComplete
  | meetPushDone => exact h.meetPushDone
  | waitaWake | napWake => exact h.modGroup
  | joinLeaveCopyDone => exact h.joinLeaveCopyDone
  | trapEntry => exact h.trapEntry
  | l1LineEviction => exact h.l1LineEviction
  | pageWalkComplete => exact h.pageWalkComplete
  | pageResponse => exact h.pageResponse
  | pageRequestTimeout => exact h.pageRequestTimeout
  | tlbinvCtx | tlbinvRange | tlbinvAll => exact h.tlbWrite
  | regionEntryWrite => exact h.regionEntryWrite
  | rflushGo => exact h.rflushGo
  | keyInstall | keyClear => exact h.keyEnd fun _ ht => ht.setKey
  | keySetkek => exact h.keyEnd fun _ ht => ht.modVd
  | wqEnable => exact h.wqEnable
  | wqDisable => exact h.wqDisable
  | wqtailWrite => exact h.wqtailWrite
  | packetTake => exact h.packetTake
  | waitCondRead => exact h.waitCondRead
  | sinterSpillDone => exact h.spillFirst
  | sinterRestore => exact h.sinterRestore
  | sinterRestoreDone => exact h.sinterRestoreDone
  | launchComplete => exact h.launchComplete
  | watchdogExpiry => exact h.watchdogExpiry
  | lnchQueueStep => exact h.lnchQueueStep
  | accportOpStart => exact h.accportOpStart
  | mmaBConsumed => exact h.mmaBConsumed
  | asyncOpFinish => exact h.asyncOpFinish
  | asyncOpFault => exact h.asyncOpFault
  | pmGo => exact h.pmGo
  | pmCancel => exact h.pmCancel
  | pqnWrite => exact h.pqnWrite
  | ctxCreate => exact h.ctxCreate
  | ctxDestroy => exact h.ctxDestroy
  | ctxPreempt => exact h.ctxTry h.preempt
  | ctxResume => exact h.ctxTry h.resume
  | ctxDbggrant => exact h.ctxDbggrant
  | ctxDbgrevoke => exact h.ctxDbgrevoke
  | ctxcmdBadop => exact h.ctxcmdBadop
  | ctxSaveDone => exact h.ctxSaveDone
  | ctxRestoreDone => exact h.ctxRestoreDone
  | timeSliceExpiry => exact h.timeSliceExpiry
  | autoResume => exact h.autoResume
  | vdCreate => exact h.vdCreate
  | vdStop => exact h.vdStop
  | vdStopDone => exact h.vdStopDone
  | vdResume => exact h.vdResume
  | vdReset => exact h.vdReset
  | vdResetDone => exact h.vdResetDone
  | vdDestroy => exact h.vdDestroy
  | vdSign v window => exact h.vdSign (window := window)
  | vdcmdBadop => exact h.vdcmdBadop
  | prtoWrite => exact h.prtoWrite
  | checkpointTick => exact h.checkpointTick
  | attestRequest => exact h.attestRequest
  | attestReportDone => exact h.attestReportDone
  | dlepochWrite => exact h.dlepochWrite
  | ringHeadWrite => exact h.ringHeadWrite
  | irqstWrite => exact h.irqstWrite
  | fabricFrameReceive => exact h.fabricFrameReceive
  | fabricAbortReceive => exact h.fabricAbortReceive
  | chcfgWrite => exact h.chcfgWrite
  | fabricGroupWrite => exact h.fabricGroupWrite
  | clsregWrite => exact h.clsregWrite
  | pwrcapWrite => exact h.pwrcapWrite
  | powerCapMeasure => exact h.powerCapMeasure
  | droopDetected => exact h.droopDetected
  | droopRecovered => exact h.droopRecovered
  | fumctlWrite => exact h.fumctlWrite
  | fumheadWrite => exact h.fumheadWrite
  | fumaroleTick => exact h.fumaroleTick
  | traceSample => exact h.traceSample
  | dbgHalt => exact h.dbgOn fun _ _ e => Except.ok.inj e ▸ h.dbgMod.ite h.dbgMod.trace
  | dbgRun | dbgStep => exact h.dbgOn fun _ _ e => Except.ok.inj e ▸ h.dbgRelease
  | dbgRdreg => exact h.dbgRdreg
  | dbgWrreg => exact h.dbgWrreg
  | dbgBpset | dbgBpclr => exact h.dbgBp
  | dbgcmdBadop => exact h.dbgcmdBadop
  | registerWrite => exact h.registerWrite
  | storeTakesEffect => exact h.storeTakesEffect
  | hostWrite => exact h.hostWrite
  | bBufferFree => exact h.bBufferFree
  | currentBelowLimit => exact h.same.ite h
  | bkpt => exact h.bkpt
  | packageReset => exact ⟨h.device, h.host, fun _ hx => nomatch hx⟩
  | hostLinkRetrain => exact h.hostLinkRetrain
  | lsRemap => exact h.lsCmd fun _ ht => ht.remapEvict
  | lsRecal | lsChspare | lsFwload | lsFwswitch | lsRebin => exact h.lsCmd fun _ ht => ht
  | tlbinvDone => exact h.tlbinvDone
  | rflushDone => exact h.rflushDone
  | placement => exact h.placement
  | pmTakeEffect => exact h.pmTakeEffect
  | usageIntervalTick => exact h.usageIntervalTick
  | currentLimitExceeded => exact h.same

/-! ## Machine/Sched -/

theorem MemOk.runLane {c gid} (h : MemOk s) : OutOk (s.runLane c gid) := by
  unfold State.runLane
  split
  · exact h.prepPass.done ‹_›
  · split
    · exact h.ite (((h.prepPass.run ‹_›).exec_ok.next ‹_›).afterCut)
    · trivial
    · trivial

theorem MemOk.stampReady (h : MemOk s) : MemOk s.stampReady := h.foldl fun _ _ ht => ht.ite ht.modGroup
theorem MemOk.elapse {s0 ns cycles} (h : MemOk s0) : MemOk (s0.elapse ns cycles) := h.stampReady.mapCores

theorem MemOk.atInstant (h : MemOk s) : OptOk s.atInstant := by
  unfold State.atInstant
  split
  · have h0 : MemOk { s with free := s.free + 1 } := h.same
    split
    · exact h0.fumaroleTick.next ‹_›
    · trivial
  · cases e : List.findSome? _ s.cores with
    | none => trivial
    | some t =>
      obtain ⟨x, -, hx⟩ := List.exists_of_findSome?_eq_some e
      obtain ⟨c, k⟩ := x
      dsimp only at hx
      split at hx
      · split at hx
        · cases hx
        · cases hx
          exact h.traceSample.next ‹_›
      · cases hx

theorem MemOk.pass {ns cycles} (h : MemOk s) : MemOk (s.pass ns cycles) := by
  unfold State.pass
  split
  · exact (h.atInstant.get ‹_›).same
  · exact h.elapse.ite h.elapse.same

theorem MemOk.regError {c gid n m} (h : MemOk s) : MemOk (s.regError c gid n m) := by
  unfold State.regError
  split
  · exact h
  · exact h.ite h.modGroup.countCore

theorem MemOk.countTimed {die at_ src n ctx} (h : MemOk s) : MemOk (s.countTimed die at_ src n ctx) := by
  unfold State.countTimed
  extract_lets who
  split
  · exact h
  · exact h.countDie.ite h.countCore

theorem MemOk.runItem {x} (h : MemOk s) : OutOk (s.runItem x) := by
  unfold State.runItem
  split
  · exact h.exec_ok
  · exact h.runLane
  · exact h.pass
  · exact h.same.countDie
  · exact h.modCore.countCore
  · exact h.modCore.countCore
  · exact h.regError
  · exact h.hostPut
  · exact h.loadWord
  · exact h.loadUpper
  · exact h.loadRace
  · exact h.scramble
  · exact h.opChunk
  · exact h.modCore.countCore
  · exact h.modCore
  · exact h.same
  · exact h.same
  · exact h.same
  · exact h.countTimed

theorem MemOk.firstMove {l} (h : MemOk s) : OptOk (s.firstMove l) := by
  induction l with
  | nil => trivial
  | cons i r ih =>
    unfold State.firstMove
    split
    · split
      · exact h.exec_ok.next ‹_›
      · exact ih
    · exact ih

theorem MemOk.firstPass {l} (h : MemOk s) : OptOk (s.firstPass l) := by
  induction l with
  | nil => trivial
  | cons x r ih =>
    obtain ⟨c, g⟩ := x
    unfold State.firstPass
    split
    · split
      · exact h.runLane.next ‹_›
      · exact ih
    · exact ih

theorem MemOk.idleStep (h : MemOk s) : MemOk s.idleStep := by
  unfold State.idleStep
  split
  · exact h.firstMove.get ‹_›
  · split
    · exact h.firstPass.get ‹_›
    · split
      · exact h.firstMove.get ‹_›
      · exact h.pass

/-! ## Machine/Step -/

theorem MemOk.step_ok (h : MemOk s) : OutOk (step s) := by
  unfold step
  split
  · exact h.same.runItem
  · exact h.idleStep

end

/-- Settles O58: `step` keeps the canonical form because every function it calls does. -/
theorem stepsKeepMemory : Obligations.StepsKeepMemory := by
  unfold Obligations.StepsKeepMemory
  intro s t hs hstep
  exact (memOk_iff t).mp (((memOk_iff s).mpr hs).step_ok.next hstep)

/-! # Registers (12 R320, R332) -/

/-- The low 32 bits of a written value are its masked value. -/
theorem toNat_setWidth_and (val : DWord) (m : Word) :
    (val.setWidth 32 &&& m).toNat = (val &&& m.setWidth 64).toNat := by
  have h : val.toNat &&& m.toNat < 2 ^ 32 := Nat.lt_of_le_of_lt Nat.and_le_right m.isLt
  rw [BitVec.toNat_and, BitVec.toNat_and, BitVec.toNat_setWidth, BitVec.toNat_setWidth, Nat.mod_eq_of_lt (b := 2 ^ 64) (by omega),
    ← Nat.mod_eq_of_lt m.isLt, ← Nat.and_mod_two_pow, Nat.mod_eq_of_lt m.isLt, Nat.mod_eq_of_lt h]

/-- The written value is stored under the mask in the field that the read of the same offset returns;
the address arithmetic of the window picks that field by evaluation. -/
theorem mgmtRead_mgmtWrite {s : State} {off : Nat} {val mask : DWord} (hl : s.l2ways.length = 2)
    (hmem : (off, mask) ∈ [(0x10810, 0xFFFF#64), (0x10820, 0x00FFFFFFFFFFF000), (0x10860, 0xFFFFFFFFFFFFFFFF), (0x10868, 0xFFFFFFFF),
      (0x10888, 0xFFFFFFFFFFFFFFFF), (0x40008, 0xFFFFFFFFFFFFFFFF), (0x51008, 0xFFFFFFFFFFFFFFFF), (0x61000, 0x3FF)]) :
    (s.mgmtWrite off val).mgmtRead off = (val &&& mask).toNat := by
  have hall64 : val &&& 0xFFFFFFFFFFFFFFFF = val := BitVec.and_allOnes
  have hall32 : val.setWidth 32 &&& 0xFFFFFFFF = val.setWidth 32 := BitVec.and_allOnes
  simp only [List.mem_cons, Prod.mk.injEq, List.not_mem_nil, or_false] at hmem
  obtain ⟨rfl, rfl⟩ | ⟨rfl, rfl⟩ | ⟨rfl, rfl⟩ | ⟨rfl, rfl⟩ | ⟨rfl, rfl⟩ | ⟨rfl, rfl⟩ | ⟨rfl, rfl⟩ | ⟨rfl, rfl⟩ := hmem
  · exact congrArg BitVec.toNat (listMod_getD_self s.l2ways 0 _ 0 (by omega))
  · rfl
  · exact congrArg BitVec.toNat hall64.symm
  · exact (congrArg BitVec.toNat hall32.symm).trans (toNat_setWidth_and val 0xFFFFFFFF)
  · exact congrArg BitVec.toNat hall64.symm
  · exact congrArg BitVec.toNat hall64.symm
  · exact congrArg BitVec.toNat hall64.symm
  · exact toNat_setWidth_and val 0x3FF

/-- Settles O49: a write stores the masked value in the field that the read of the same offset returns. -/
theorem registersReadBack : Obligations.RegistersReadBack := by
  unfold Obligations.RegistersReadBack
  intro s val
  refine ⟨fun off mask hmem hl => ⟨s.mgmtWrite off val, rfl, mgmtRead_mgmtWrite hl hmem⟩,
    fun v hv => ⟨s.windowWrite v 0x2010 val, if_neg (by omega), ?_⟩⟩
  simp [State.readReg, State.windowWrite, State.modVd, State.setVd, State.vd, VDev.windowRead]

/-- Settles O59, by evaluation of the one state at reset. -/
theorem memoryAtReset : Obligations.MemoryAtReset := by
  unfold Obligations.MemoryAtReset
  exact ⟨by decide, by decide, by decide, by decide⟩

end Sys2Proof.Machine

namespace Sys2Proof.Machine

/-! # A write at a home (06 R187, R188, R190)

The package writes to memory by `State.homePut`. Owners give words up, lines enter the L2, counters
count: what such a write can change is said once, and what else the state holds is then unchanged by `rfl`. -/

/-- `s` with the memories, the L2 and L1s, the byte counts and the event counters of `t`. -/
def State.withHome (s t : State) : State :=
  { s with dmem := t.dmem, hmem := t.hmem, memUe := t.memUe, l2lines := t.l2lines, written := t.written,
           oldWords := t.oldWords, dieCtr := t.dieCtr, ctxs := t.ctxs, cores := t.cores }

/-- A change of no more than a write at a home may change. -/
structure HomeChange (s t : State) : Prop where
  eq : t = s.withHome t

namespace HomeChange
variable {s t u : State}

theorem refl (s : State) : HomeChange s s := ⟨rfl⟩

theorem trans (h : HomeChange s t) (k : HomeChange t u) : HomeChange s u :=
  ⟨k.eq.trans (congrArg (State.withHome · u) h.eq : t.withHome u = (s.withHome t).withHome u)⟩

theorem foldl {α : Type} {l : List α} {f : State → α → State} (hf : ∀ t x, HomeChange t (f t x)) :
    HomeChange s (l.foldl f s) :=
  List.foldlRecOn (motive := HomeChange s) l f (.refl s) fun t ht x _ => ht.trans (hf t x)

theorem ite {c : Prop} [Decidable c] (h : HomeChange s t) (k : HomeChange s u) : HomeChange s (if c then t else u) := by
  split
  · exact h
  · exact k

theorem cmap (h : HomeChange s t) : t.cmap = s.cmap := (congrArg State.cmap h.eq : t.cmap = (s.withHome t).cmap)
theorem pirqst (h : HomeChange s t) : t.pirqst = s.pirqst := (congrArg State.pirqst h.eq : t.pirqst = (s.withHome t).pirqst)

theorem countDie {d src n who} : HomeChange s (s.countDie d src n who) := (refl s).ite ⟨rfl⟩

theorem lineMoved {ctx host wr d} : HomeChange s (s.lineMoved ctx host wr d) := by
  unfold State.lineMoved
  extract_lets t
  have ht : HomeChange s t := (refl s).ite countDie
  split
  · exact ht.trans ⟨rfl⟩
  · exact ht

theorem l2Enter {w dirty host line} : HomeChange s (s.l2Enter w dirty host line) := by
  unfold State.l2Enter
  extract_lets mine d t rest t1 new peers ways
  have ht : HomeChange s t := countDie
  have ht1 : HomeChange s t1 := ht.ite (ht.trans lineMoved)
  split
  · exact ht.trans ⟨rfl⟩
  · split
    · exact ht1.trans ⟨rfl⟩
    · split
      · exact ((ht1.trans lineMoved).ite ht1).trans ⟨rfl⟩
      · exact (ht1.trans lineMoved).ite ht1

theorem l2Dirty {w p n} : HomeChange s (s.l2Dirty w p n) := by
  unfold State.l2Dirty
  extract_lets ls t
  have ht : HomeChange s t := foldl fun _ _ => l2Enter.trans ⟨rfl⟩
  exact ht.ite (ht.trans ⟨rfl⟩)

theorem rawSet {p bs} : HomeChange s (s.rawSet p bs) := ite ⟨rfl⟩ ⟨rfl⟩

theorem clearUe {p n} : HomeChange s (s.clearUe p n) := ⟨rfl⟩

theorem noteOld {p n} : HomeChange s (s.noteOld p n) := (refl s).ite ⟨rfl⟩

theorem writeBack {w} : HomeChange s (s.writeBack w) := by
  unfold State.writeBack
  extract_lets t0 _ t key
  have ht : HomeChange s t := l2Dirty.trans (foldl fun _ _ => rawSet.ite (refl _))
  exact (ht.trans ⟨rfl⟩).ite ((ht.trans clearUe).ite ht)

theorem giveUp {p} : HomeChange s (s.giveUp p) := by
  unfold State.giveUp
  split
  · exact refl s
  · exact (HomeChange.mk rfl).trans writeBack

theorem homePut {p bs} : HomeChange s (s.homePut p bs) :=
  (((noteOld.trans (foldl fun _ _ => giveUp)).trans l2Dirty).trans rawSet).trans clearUe

theorem hostPut {a bs} : HomeChange s (s.hostPut a bs) := homePut

end HomeChange

/-! # Package interrupts (12 R334) -/

@[simp] theorem pirq_cmap (s : State) (cause : Nat) : (s.pirq cause).cmap = s.cmap := by
  unfold State.pirq
  split
  · rfl
  · dsimp only
    split
    · rfl
    · exact HomeChange.hostPut.cmap

/-- A cause that is raised stands in the status. -/
theorem pirq_raised (s : State) {cause : Nat} (h : cause < 32) : (s.pirq cause).pirqst.getLsbD cause = true := by
  have hset : (s.pirqst ||| (1#32 <<< cause)).getLsbD cause = true := by simp [h]
  unfold State.pirq
  split
  · assumption
  · dsimp only
    split
    · exact hset
    · rw [HomeChange.hostPut.pirqst]
      exact hset

/-! # Tables -/

theorem alGet_filter_none {α : Type} {k : Nat} {p : Nat × α → Bool} (h : ∀ v, p (k, v) = false) (l : List (Nat × α)) :
    alGet k (l.filter p) = none := by
  induction l with
  | nil => rfl
  | cons x r ih =>
    obtain ⟨j, v⟩ := x
    rw [List.filter_cons]
    split
    next hp =>
      have hj : j ≠ k := by
        rintro rfl
        simp [h v] at hp
      rw [alGet, if_neg hj, ih]
    next => exact ih

theorem listMod_getD_const {α : Type} (l : List α) (i : Nat) (d : α) : (listMod l i fun _ => d).getD i d = d := by
  by_cases h : i < l.length
  · exact listMod_getD_self l i _ d h
  · simp [Nat.le_of_not_lt h]

theorem foldl_eq_self {α β : Type} {f : α → β → α} {a : α} {l : List β} (h : ∀ b ∈ l, f a b = a) : l.foldl f a = a := by
  induction l with
  | nil => rfl
  | cons b r ih =>
    rw [List.foldl_cons, h b List.mem_cons_self]
    exact ih fun c hc => h c (List.mem_cons_of_mem b hc)

/-! # Published versions (01 R25, R26) -/

section
variable (s : State) (f : Nat → CMap → CMap)

@[simp] theorem publish_cmv : (s.publish f).cmap.cmv = s.cmap.cmv + 1 := rfl
@[simp] theorem publish_dies : (s.publish f).cmap.dies = (f (s.cmap.cmv + 1) s.cmap).dies := rfl
@[simp] theorem publish_stackRecs : (s.publish f).cmap.stackRecs = (f (s.cmap.cmv + 1) s.cmap).stackRecs := rfl

/-- A version's publication time is the present. -/
@[simp] theorem pubtOf_publish : (s.publish f).pubtOf (s.publish f).cmap.cmv = s.time := by
  simp [State.pubtOf, State.publish]

@[simp] theorem freeMemory_cmap (d : Nat) : (s.freeMemory d).cmap = s.cmap := rfl
@[simp] theorem markGone_cmap : s.markGone.cmap = s.cmap := rfl
@[simp] theorem markGone_pubtOf (n : Nat) : s.markGone.pubtOf n = s.pubtOf n := rfl
end

/-! # Dies, stacks and the link (01 R35 to R38, R45; 12 R335) -/

section
variable {s : State} {d : Nat}

/-- Only a die of the map can be other than LIVE. -/
theorem die_lt_of_st (h : (s.die d).st ≠ 1) : d < s.cmap.dies.length := by
  by_contra hd
  rw [State.die, List.getD_eq_default _ _ (Nat.le_of_not_lt hd)] at h
  exact h rfl

theorem execDieLossPublish_publishes (hd : d < 2) (hlen : d < s.cmap.dies.length) (hl : s.dieLost d = true) (hst : (s.die d).st ≠ 2) :
    ∃ t, execDieLossPublish d s = .next t ∧ (t.die d).st = 2 ∧ (t.die d).lostv = s.cmap.cmv + 1 ∧ t.cmap.cmv = s.cmap.cmv + 1 ∧
      t.cmap.linkLanes = 16 ∧ t.pirqst.getLsbD 5 = true := by
  have hgo : ¬ (decide (d ≥ 2) || !s.dieLost d || (s.die d).st == 2) = true := by simpa [hl, hd] using hst
  refine ⟨_, if_neg hgo, ?_, ?_, ?_, ?_, pirq_raised _ (by decide)⟩
  · rw [State.die, pirq_cmap, publish_dies, listMod_getD_self _ _ _ _ (by simpa using hlen)]
  · rw [State.die, pirq_cmap, publish_dies, listMod_getD_self _ _ _ _ (by simpa using hlen)]
  · rw [pirq_cmap, publish_cmv]
  · rw [pirq_cmap]
    rfl

theorem execDieReset_clears (hd : d < 2) :
    ∃ t, execDieReset d s = .next t ∧ (∀ c, dieOf c = d → t.core c = {}) ∧ t.clk (192 * d) = 0 := by
  refine ⟨_, if_neg (by omega), fun c hc => ?_, ?_⟩
  · simp [State.core, alGet_filter_none, hc]
  · have hdie : dieOf (192 * d) = d := by simp [dieOf]
    simp only [State.clk, hdie, listMod_getD_const, Nat.zero_sub]

theorem execDieReturn_returns (hd : d < 2) (hst : (s.die d).st = 2) (ht : (s.die d).tested = true) :
    ∃ t, execDieReturn d s = .next t ∧ (t.die d).st = 1 ∧ t.dieLost d = false ∧ t.cmap.cmv = s.cmap.cmv + 1 ∧ t.pirqst.getLsbD 5 = true := by
  have hgo : ¬ (decide (d ≥ 2) || (s.die d).st != 2 || !(s.die d).tested) = true := by simp [hst, ht, hd]
  have hlen : d < s.cmap.dies.length := die_lt_of_st (by simp [hst])
  refine ⟨_, if_neg hgo, ?_, ?_, ?_, pirq_raised _ (by decide)⟩
  · rw [State.die, pirq_cmap, publish_dies, freeMemory_cmap, listMod_getD_self _ _ _ _ (by simpa using hlen)]
  · rw [State.dieLost, pirq_cmap, publish_dies, freeMemory_cmap, listMod_getD_self _ _ _ _ (by simpa using hlen)]
  · rw [pirq_cmap, publish_cmv, freeMemory_cmap]

theorem execStackLoss_publishes {k : Nat} (hk : k < 16) (hlen : k < s.cmap.stackRecs.length) (hl : s.stackLost k = false) :
    ∃ t, execStackLoss k s = .next t ∧ t.stackLost k = true ∧ t.cmap.cmv = s.cmap.cmv + 1 ∧ t.pubtOf t.cmap.cmv = s.time ∧
      t.cmap.seq = s.cmap.seq + 2 := by
  have hgo : ¬ (decide (k ≥ 16) || s.stackLost k) = true := by simp [hl, hk]
  refine ⟨_, if_neg hgo, ?_, rfl, ?_, rfl⟩
  · rw [State.stackLost, markGone_cmap, publish_stackRecs, listMod_getD_self _ _ _ _ hlen]
    rfl
  · rw [markGone_cmap, markGone_pubtOf, pubtOf_publish]

/-- With no page request outstanding, the retrained link has none to send again. -/
theorem execHostLinkRetrain_idle (hl : s.linkReady = false) (hm : s.mgmtOnly = false) (hr : (s.vdevs.all fun (_, d) => d.reqs.isEmpty) = true) :
    execHostLinkRetrain s = .next { s with linkReady := true } := by
  have hgo : ¬ (s.linkReady || s.mgmtOnly) = true := by simp [hl, hm]
  have hempty : ∀ x ∈ s.vdevs, x.2.reqs.isEmpty = true := List.all_eq_true.mp hr
  unfold execHostLinkRetrain
  rw [if_neg hgo]
  dsimp only
  rw [foldl_eq_self fun x hx => if_pos (hempty x hx)]

/-- In the management-only state the link stays down. -/
theorem execHostLinkRetrain_mgmtOnly (hm : s.mgmtOnly = true) : execHostLinkRetrain s = .next s :=
  if_pos (by simp [hm])
end

theorem execPackageReset_boots (s : State) :
    ∃ t, execPackageReset s = .next t ∧ t.dmem = s.dmem ∧ t.hmem = s.hmem ∧ t.cmap.cmv = 1 ∧ t.ctxs = [] ∧ t.vdevs = [] ∧
      t.queues = [] ∧ t.keys = [] ∧ t.regions = [] ∧ t.parts = [] ∧ t.cmap.bins = s.cmap.bins ∧ t.bootCount = s.bootCount + 1 ∧
      t.cmap.fw = s.cmap.fw.mapIdx (fun c r => r.booted (s.bootCount + 1) c) ∧ (t.mgmtOnly = true ↔ t.linkReady = false) :=
  ⟨_, rfl, rfl, rfl, rfl, rfl, rfl, rfl, rfl, rfl, rfl, rfl, rfl, rfl, iff_of_eq (Bool.not_eq_true' _)⟩

/-- Settles O45, one lemma for each event. -/
theorem diesComeAndGo : Obligations.DiesComeAndGo := by
  unfold Obligations.DiesComeAndGo
  intro s
  refine ⟨fun d hd hl => if_neg (by simp [hd, hl]), fun d => execDieLossPublish_publishes, fun d => execDieReset_clears,
    fun d => execDieReturn_returns, fun k => execStackLoss_publishes, execHostLinkRetrain_idle, execHostLinkRetrain_mgmtOnly,
    execPackageReset_boots s⟩

/-! # Live service (01 R39 to R44) -/

section
variable {s : State}

/-- A command that is written while none runs starts its operation. -/
theorem lsCmd_runs (hb : s.lsBusy = false) (op : Nat) (kind : LsKind) (k : State → State) :
    s.lsCmd op (.inr kind) k = k (s.lsRun op kind) := by simp [State.lsCmd, hb]

/-- One that cannot start ends at once. -/
theorem lsCmd_ends (hb : s.lsBusy = false) (op e : Nat) (k : State → State) :
    s.lsCmd op (.inl e) k = s.lsEnd op e := by simp [State.lsCmd, hb]

section
variable (hb : s.lsBusy = false)
include hb

theorem execLsRemap_runs {p : Nat} (ha : s.lsarg.toNat < 512) (hl : s.liveCore s.lsarg.toNat = true)
    (hr : s.remapping s.lsarg.toNat = false) (hp : s.spareFor s.lsarg.toNat = some p) :
    execLsRemap s = .next ((s.lsRun 1 (.remap s.lsarg.toNat p)).remapEvict s.lsarg.toNat) := by
  have hgo : ¬ (decide (512 ≤ s.lsarg.toNat) || !s.liveCore s.lsarg.toNat) = true := by simp [ha, hl]
  simp only [execLsRemap, if_neg hgo, hr, hp, Bool.false_eq_true, if_false, lsCmd_runs hb]

theorem execLsRemap_noSpare (ha : s.lsarg.toNat < 512) (hl : s.liveCore s.lsarg.toNat = true)
    (hr : s.remapping s.lsarg.toNat = false) (hp : s.spareFor s.lsarg.toNat = none) :
    execLsRemap s = .next (s.lsEnd 1 2) := by
  have hgo : ¬ (decide (512 ≤ s.lsarg.toNat) || !s.liveCore s.lsarg.toNat) = true := by simp [ha, hl]
  simp only [execLsRemap, if_neg hgo, hr, hp, Bool.false_eq_true, if_false, lsCmd_ends hb]

theorem execLsRecal_runs (ha : s.lsarg.toNat < 128) (hst : (s.port s.lsarg.toNat).st ≠ 0) (hn : s.lsHas (onPort s.lsarg.toNat) = false) :
    execLsRecal s = .next (s.lsRun 2 (.recal s.lsarg.toNat)) := by
  have hgo : ¬ (decide (128 ≤ s.lsarg.toNat) || (s.port s.lsarg.toNat).st == 0) = true := by simpa [ha] using hst
  simp only [execLsRecal, if_neg hgo, hn, Bool.false_eq_true, if_false, lsCmd_runs hb, id]

theorem execLsChspare_runs (ha : s.lsarg.toNat < 2 ^ 13) (hz : s.lsarg.toNat / 16 % 16 = 0) (hl : s.stackLost (s.lsarg.toNat % 16) = false)
    (hn : s.lsHas (onStack (s.lsarg.toNat % 16)) = false) (hc : (s.cmap.stackRecs.getD (s.lsarg.toNat % 16) {}).chspr < 2) :
    execLsChspare s = .next (s.lsRun 3 (.chspare (s.lsarg.toNat % 16) (s.lsarg.toNat / 256))) := by
  have hgo : ¬ (decide (s.lsarg.toNat / 2 ^ 13 ≠ 0) || decide (s.lsarg.toNat / 16 % 16 ≠ 0) || s.stackLost (s.lsarg.toNat % 16)) = true := by
    simpa [hz, hl] using ha
  simp only [execLsChspare, if_neg hgo, hn, Bool.false_eq_true, if_false, if_neg (Nat.not_le.mpr hc), lsCmd_runs hb, id]

/-- An image with a good header is loaded if it verifies; BADIMAGE else. -/
theorem execLsFwload_loads {h : List Byte} {n : Nat} (hh : h = s.homeBytes ⟨false, s.lsarg.toNat⟩ 64) (hlen : n = 64 + fieldAt h 16 8 + 7856)
    (ha : s.lsarg.toNat % 4096 = 0) (hd : s.dpaOk s.lsarg.toNat 64 = true) (hi : imageBad h = false) (hdn : s.dpaOk s.lsarg.toNat n = true)
    (hn : s.lsHas (onComp (fieldAt h 8 1)) = false) :
    execLsFwload s = .next (if Config.verifyImage (s.homeBytes ⟨false, s.lsarg.toNat⟩ n) then
      s.lsRun 4 (.fwload (fieldAt h 8 1) (BitVec.ofNat 32 (fieldAt h 12 4))) else s.lsEnd 4 4) := by
  subst hlen hh
  simp only [execLsFwload, ha, hd, hi, hdn, hn, ne_eq, not_true_eq_false, Bool.not_true, Bool.false_eq_true, if_false]
  cases Config.verifyImage _ with
  | true => simp only [Bool.not_true, Bool.false_eq_true, if_false, if_true, lsCmd_runs hb, id]
  | false => simp only [Bool.not_false, Bool.false_eq_true, if_false, if_true, lsCmd_ends hb]

theorem execLsFwswitch_runs (ha : s.lsarg.toNat ≤ 5) (hv : (s.cmap.fw.getD s.lsarg.toNat {}).veralt ≠ 0)
    (hn : s.lsHas (onComp s.lsarg.toNat) = false) : execLsFwswitch s = .next (s.lsRun 5 (.fwswitch s.lsarg.toNat)) := by
  have hgo : ¬ (decide (5 < s.lsarg.toNat) || (s.cmap.fw.getD s.lsarg.toNat {}).veralt == 0) = true := by simpa [ha] using hv
  simp only [execLsFwswitch, if_neg hgo, hn, Bool.false_eq_true, if_false, lsCmd_runs hb, id]

theorem execLsRebin_runs (ha : s.lsarg.toNat < 2 ^ 17) (hz : s.lsarg.toNat / 256 % 256 = 0) (hf : s.lsarg.toNat % 256 ≤ Config.builtFloor) :
    execLsRebin s = .next (s.lsRun 6 (.rebin (s.lsarg.toNat / 65536) (s.lsarg.toNat % 256))) := by
  have hgo : ¬ (decide (s.lsarg.toNat / 2 ^ 17 ≠ 0) || decide (s.lsarg.toNat / 256 % 256 ≠ 0) ||
      decide (Config.builtFloor < s.lsarg.toNat % 256)) = true := by simpa [hz, hf] using ha
  simp only [execLsRebin, if_neg hgo, lsCmd_runs hb, id]

theorem execLscmdBadop_ends {op : BitVec 4} (h : 7 ≤ op.toNat) : execLscmdBadop op s = .next (s.lsEnd op.toNat 6) := by
  simp only [execLscmdBadop, hb, Bool.false_eq_true, if_false, if_pos h]
end

/-! ## Operations that firmware starts -/

theorem execFwRecal_runs {q : Nat} (hq : q < 128) (hst : (s.port q).st ≠ 0) (hn : s.lsHas (onPort q) = false) :
    execFwLiveServiceStart (.recal q) s = .next (s.fwRun (.recal q)) := if_neg (by simpa [hq, hn] using hst)

theorem execFwChspare_runs {k ch : Nat} (hk : k < 16) (hch : ch < 32) (hl : s.stackLost k = false) (hn : s.lsHas (onStack k) = false)
    (hc : (s.cmap.stackRecs.getD k {}).chspr < 2) :
    execFwLiveServiceStart (.chspare k ch) s = .next (s.fwRun (.chspare k ch)) :=
  if_neg (by simpa [hk, hch, hl, hn] using Nat.le_of_lt_succ hc)

theorem execFwRemap_runs {core p q : Nat} (hr : s.remapping core = false) (hp : s.posOf core = some p) (hq : s.spareFor core = some q) :
    execFwLiveServiceStart (.remap core) s = .next ((s.fwRun (.remap core q)).remapEvict core) := by
  simp only [execFwLiveServiceStart, hr, hp, hq, Bool.false_eq_true, if_false]

/-- Without a spare the core is retired. -/
theorem execFwRemap_retires {core p : Nat} (hr : s.remapping core = false) (hp : s.posOf core = some p) (hq : s.spareFor core = none) :
    execFwLiveServiceStart (.remap core) s = .next (s.retireCore core p) := by
  simp only [execFwLiveServiceStart, hr, hp, hq, Bool.false_eq_true, if_false]

/-! ## The end of an operation -/

/-- The state in which an operation no longer runs. -/
def State.lsDone (s : State) (id : Nat) : State := { s with lsops := s.lsops.filter (·.id != id), free := s.free + 1 }

section
variable {id : Nat} {o : LsOp} (ho : s.lsops.find? (·.id == id) = some o)
include ho

theorem execLsOpComplete_publishes (hg : o.gone = false) (hl : s.lsGone o.kind = false) (hw : s.lsWaits o.kind = false) :
    execLsOpComplete id true s = .next (if o.cmd then ((s.lsDone id).publish (s.lsChange o.kind)).lsEnd o.kind.op 0
      else ((s.lsDone id).publish (s.lsChange o.kind)).pirq 4) := by
  simp only [execLsOpComplete, ho, hg, hl, hw, Bool.not_true, Bool.or_false, Bool.false_eq_true, if_false, State.lsDone]

/-- A failed operation, and one whose die or stack is or was lost, publishes nothing. -/
theorem execLsOpComplete_abandons {ok : Bool} (h : ok = false ∨ o.gone = true ∨ s.lsGone o.kind = true) :
    execLsOpComplete id ok s = .next (if o.cmd then (s.lsDone id).lsEnd o.kind.op 5 else s.lsDone id) := by
  have hgone : (!ok || o.gone || s.lsGone o.kind) = true := by simpa [or_assoc] using h
  simp only [execLsOpComplete, ho, if_pos hgone, State.lsDone]
end
end

/-- Settles O46: a lemma for each command, each start by firmware, and each end of an operation. -/
theorem liveServiceRuns : Obligations.LiveServiceRuns := by
  unfold Obligations.LiveServiceRuns
  intro s a
  refine ⟨fun hb => ⟨fun p => execLsRemap_runs hb, execLsRemap_noSpare hb, execLsRecal_runs hb, execLsChspare_runs hb,
      fun h n => execLsFwload_loads hb, execLsFwswitch_runs hb, execLsRebin_runs hb, fun op => execLscmdBadop_ends hb⟩,
    fun q => execFwRecal_runs, fun core p hr hp => ⟨fun q => execFwRemap_runs hr hp, execFwRemap_retires hr hp⟩,
    fun k ch => execFwChspare_runs, fun id o ho => ⟨execLsOpComplete_publishes ho, ?_, ?_⟩⟩
  · exact fun h => execLsOpComplete_abandons ho (.inr h)
  · exact execLsOpComplete_abandons ho (.inl rfl)

/-! # Registers at reset -/

/-- The register of a queue at an offset of its block (09 R254, R255). -/
def Queue.blockRead (q : Queue) (o : Nat) : Nat :=
  match o with
  | 0x00 => q.ctl.toNat | 0x08 => q.base.toNat | 0x10 => q.head.toNat | 0x14 => q.stat | 0x18 => q.tail.toNat | _ => 0

section
variable (s : State) {i o : Nat}

/-- The queues' blocks of the management window. -/
theorem mgmtRead_queue (hi : i < 1024) (ho : o < 32) : s.mgmtRead (0x20000 + 32 * i + o) = (s.queue i).blockRead o := by
  have hidx : (0x20000 + 32 * i + o - 0x20000) / 32 = i := by omega
  have hoff : (0x20000 + 32 * i + o) % 32 = o := by omega
  unfold State.mgmtRead
  rw [if_neg (by omega), if_pos (by omega), hidx, hoff]
  rfl

/-- The census addresses of the queues (13 R348). -/
theorem mgmtRead_census (hi : i < 1024) : s.mgmtRead (0xE4000 + 8 * i) = (s.queue i).censva.toNat := by
  have hidx : (0xE4000 + 8 * i - 0xE4000) / 8 = i := by omega
  unfold State.mgmtRead
  rw [if_neg (by omega), if_neg (by omega), if_neg (by omega), if_neg (by omega), if_neg (by omega), if_neg (by omega),
    if_neg (by omega), if_neg (by omega), if_neg (by omega), if_neg (by omega), if_pos (by omega), hidx]

/-- The virtual devices' blocks of the management window (12 R319). -/
theorem mgmtRead_vd (hi : i < 64) (ho : o < 64) : s.mgmtRead (0x50000 + 64 * i + o) = (s.vd i).blockRead o := by
  have hidx : (0x50000 + 64 * i + o - 0x50000) / 64 = i := by omega
  have hoff : (0x50000 + 64 * i + o) % 64 = o := by omega
  unfold State.mgmtRead
  rw [if_neg (by omega), if_neg (by omega), if_neg (by omega), if_neg (by omega), if_pos (by omega), hidx, hoff]
end

/-- At reset every queue is the disabled one. -/
theorem reset_queue_registers {q : Nat} (hq : q < 1024) :
    let s := State.reset
    s.readReg .pkg (0x20000 + 32 * q) = 0 ∧ s.readReg .pkg (0x20010 + 32 * q) = 0 ∧ s.readReg .pkg (0x20018 + 32 * q) = 0 ∧
      s.readReg .pkg (0x20014 + 32 * q) = 0 ∧ s.readReg .pkg (0xE4000 + 8 * q) = 0 := by
  have hread (o : Nat) (ho : o < 32) : State.reset.mgmtRead (0x20000 + o + 32 * q) = ({} : Queue).blockRead o :=
    (congrArg State.reset.mgmtRead (Nat.add_right_comm ..)).trans (mgmtRead_queue State.reset hq ho)
  exact ⟨hread 0 (by decide), hread 0x10 (by decide), hread 0x18 (by decide), hread 0x14 (by decide), mgmtRead_census State.reset hq⟩

/-- At reset every virtual device is the one that does not exist. -/
theorem reset_vd_registers {v : Nat} (hv : v < 64) :
    let s := State.reset
    s.readReg .pkg (0x50000 + 64 * v + 0x14) = 1000 ∧ s.readReg .pkg (0x50000 + 64 * v + 0x30) = 0 ∧
      s.readReg .pkg (0x50000 + 64 * v + 0x38) = 0 :=
  ⟨mgmtRead_vd State.reset hv (by decide), mgmtRead_vd State.reset hv (by decide), mgmtRead_vd State.reset hv (by decide)⟩

/-- Settles O60: the single registers by evaluation, those of the queues and the virtual devices by their windows. -/
theorem registersAtReset : Obligations.RegistersAtReset := by
  unfold Obligations.RegistersAtReset
  exact ⟨rfl, rfl, by decide, by decide, by decide, fun q => reset_queue_registers, fun v => reset_vd_registers,
    fun _ _ => rfl, fun _ _ => rfl⟩

end Sys2Proof.Machine

namespace Sys2Proof.Machine

/-! # SETM (02 R65, 17 R439)

A pass whose pushes all find their place is one faultless pass. NEST_OVERFLOW is a Stop fault: it strikes while the
other threads commit, and stops the context, which ends the clause but leaves the threads and the pushes alone. -/

/-! ## Stopping a context keeps a group's threads and a core's pushes -/

section
variable {s : State} {c gid : Nat} {g : Group}

theorem group?_setGroup_ne {d j : Nat} (h : ¬(d = c ∧ j = gid)) (x : Group) : (s.setGroup d j x).group? c gid = s.group? c gid := by
  by_cases hd : c = d
  · subst hd
    have hj : gid ≠ j := fun e => h ⟨rfl, e.symm⟩
    simp only [State.group?, core_setGroup, alGet_alSet_ne hj]
  · simp only [State.group?, core_setGroup_ne _ hd]

/-- A group whose clause has ended. -/
def Group.withoutClause (g : Group) : Group := { g with clause := none }

theorem dropClause_self (hg : s.group? c gid = some g) (hed : g.debugEdits = []) :
    (s.dropClause c gid).group? c gid = some g.withoutClause := by
  unfold State.dropClause
  rw [hg]
  dsimp only
  split
  · simp [Group.applyEdits, hed, Group.withoutClause]
  · rename_i hc
    rw [hg, Group.withoutClause, ← hc]

theorem dropClause_ne {d j : Nat} (h : ¬(d = c ∧ j = gid)) : (s.dropClause d j).group? c gid = s.group? c gid := by
  unfold State.dropClause
  split
  · split
    · rename_i cl _
      exact (sameGroups_modCore _ d _ rfl).same c gid |>.trans (group?_setGroup_ne h _)
    · rfl
  · rfl

theorem modCore_pushes (f : Core → Core) (d e : Nat) (hf : ∀ k, (f k).pushes = k.pushes := by intro; rfl) :
    ((s.modCore d f).core e).pushes = (s.core e).pushes := by
  by_cases h : e = d
  · subst h
    simp [State.modCore, hf]
  · simp [State.modCore, core_setCore_ne _ h]

theorem dropClause_pushes (d j e : Nat) : ((s.dropClause d j).core e).pushes = (s.core e).pushes := by
  unfold State.dropClause State.freeLane State.setGroup
  split
  · split
    · exact (modCore_pushes _ d e).trans (modCore_pushes _ d e)
    · rfl
  · rfl

theorem dropClause_ctxs (d j : Nat) : (s.dropClause d j).ctxs = s.ctxs := by
  unfold State.dropClause
  split
  · split <;> rfl
  · rfl

/-- Dropping the clauses of a list of groups drops a group's own if the list names it. -/
theorem foldl_dropClause {ctx : Nat} (l : List (Nat × Nat × Group)) (hg : s.group? c gid = some g) (hed : g.debugEdits = []) :
    (l.foldl (fun s (d, j, x) => if x.ctx = ctx then s.dropClause d j else s) s).group? c gid
      = some (if l.any (fun (d, j, x) => decide (x.ctx = ctx ∧ d = c ∧ j = gid)) then g.withoutClause else g) := by
  induction l generalizing s g with
  | nil => simpa using hg
  | cons y r ih =>
    obtain ⟨d, j, x⟩ := y
    rw [List.foldl_cons, List.any_cons]
    dsimp only
    by_cases hm : x.ctx = ctx ∧ d = c ∧ j = gid
    · obtain ⟨rfl, rfl, rfl⟩ := hm
      simp [ih (dropClause_self hg hed) hed, Group.withoutClause]
    · have hstep : (if x.ctx = ctx then s.dropClause d j else s).group? c gid = some g := by
        split
        · exact (dropClause_ne fun h => hm ⟨‹_›, h⟩).trans hg
        · exact hg
      simp only [ih hstep hed, hm, decide_false, Bool.false_or]

theorem mem_allGroups (hg : s.group? c gid = some g) : (c, gid, g) ∈ s.allGroups := by
  simp only [State.group?, State.core] at hg
  cases hk : alGet c s.cores with
  | none => simp [hk, alGet] at hg
  | some k =>
    simp only [hk, Option.getD_some] at hg
    exact List.mem_flatMap.mpr ⟨(c, k), mem_of_alGet hk, List.mem_map.mpr ⟨(gid, g), mem_of_alGet hg, rfl⟩⟩

/-- The groups of a context that stops have no clause left (11 R307). -/
theorem haltGroups_group (hg : s.group? c gid = some g) (hed : g.debugEdits = []) :
    (s.haltGroups g.ctx).group? c gid = some g.withoutClause := by
  have hany : s.allGroups.any (fun (d, j, x) => decide (x.ctx = g.ctx ∧ d = c ∧ j = gid)) = true :=
    List.any_eq_true.mpr ⟨_, mem_allGroups hg, by simp⟩
  unfold State.haltGroups
  rw [foldl_dropClause _ hg hed, hany, if_pos rfl]

theorem haltGroups_keeps {β : Type} (f : State → β) (hf : ∀ t d j, f (State.dropClause t d j) = f t) (x : Nat) :
    f (s.haltGroups x) = f s := by
  refine foldl_keeps f _ _ (fun t y => ?_) s
  obtain ⟨d, j, y⟩ := y
  dsimp only
  split
  · exact hf ..
  · rfl

/-- What a state keeps of a group and its core when a fault stops the group's context. -/
structure Stopped (s t : State) (c gid : Nat) (g : Group) : Prop where
  group : ∃ h, t.group? c gid = some h ∧ h.clause = none ∧ h.threads = g.threads
  pushes : (t.core c).pushes = (s.core c).pushes

theorem stopCtx_active (x : Nat) (code : FCode) (sub : BitVec 8) (pc : DWord) (loc : Word) (h : (s.ctx x).st = .active) :
    s.stopCtx x code sub pc loc = (s.setCtx x { (s.ctx x).record code sub pc loc with st := .saving }).haltGroups x := by
  simp only [State.stopCtx, h]

theorem stopCtx_stopped (code : FCode) (sub : BitVec 8) (pc : DWord) (loc : Word) (hg : s.group? c gid = some g)
    (hed : g.debugEdits = []) (hst : (s.ctx g.ctx).st = .active) : Stopped s (s.stopCtx g.ctx code sub pc loc) c gid g := by
  rw [stopCtx_active _ _ _ _ _ hst]
  exact ⟨⟨_, haltGroups_group (s := s.setCtx _ _) hg hed, rfl, rfl⟩,
    haltGroups_keeps (fun t => (t.core c).pushes) (fun t d j => dropClause_pushes d j c) _⟩

/-- The first stop of an active context is the one recorded (01 R37). -/
theorem record_first {x : Context} (code : FCode) (sub : BitVec 8) (pc : DWord) (loc : Word) (hst : x.st = .active)
    (hco : x.code = none) : (x.record code sub pc loc).code = some code := by
  simp [Context.record, hst, hco]

theorem stopCtx_code (x : Nat) (code : FCode) (sub : BitVec 8) (pc : DWord) (loc : Word) (hst : (s.ctx x).st = .active)
    (hco : (s.ctx x).code = none) : ((s.stopCtx x code sub pc loc).ctx x).code = some code := by
  rw [stopCtx_active _ _ _ _ _ hst,
    haltGroups_keeps (fun t => (t.ctx x).code) (fun t d j => by simp only [State.ctx, dropClause_ctxs])]
  have hset (y : Context) : (s.setCtx x y).ctx x = y := by simp [State.setCtx, State.ctx]
  rw [hset]
  exact record_first code sub pc loc hst hco

theorem firstStop_of {code : FCode} {fs : List ThFault} (hne : fs ≠ []) (hfs : ∀ f ∈ fs, f.code = code) (hu : code.isUser = false) :
    ∃ f, firstStop fs = some f ∧ f.code = code := by
  have hall : fs.filter (fun f => !f.code.isUser) = fs := by
    rw [List.filter_eq_self]
    intro f hf
    simp [hfs f hf, hu]
  obtain ⟨x, r, rfl⟩ := List.exists_cons_of_ne_nil hne
  rw [firstStop, hall, List.foldl_cons]
  refine List.foldlRecOn (motive := fun a => ∃ f, a = some f ∧ f.code = code) r _ ⟨x, rfl, hfs x (by simp)⟩ ?_
  rintro _ ⟨f, rfl, hf⟩ y hy
  dsimp only
  split
  · exact ⟨y, rfl, hfs y (by simp [hy])⟩
  · exact ⟨f, rfl, hf⟩

/-- Faults of one Stop code strike: the context stops with that code, or with DOUBLE_FAULT in a handler (11 R295, R307). -/
theorem raise_stops {code : FCode} {pf : PassFault} (hg : s.group? c gid = some g) (hed : g.debugEdits = [])
    (hst : (s.ctx g.ctx).st = .active) (hco : (s.ctx g.ctx).code = none) (hne : pf.faults ≠ [])
    (hfs : ∀ f ∈ pf.faults, f.code = code) (hu : code.isUser = false) (hd : code ≠ .dieLost) :
    Stopped s (s.raise c gid pf) c gid g ∧ (g.handler = false → ((s.raise c gid pf).ctx g.ctx).code = some code) := by
  obtain ⟨f, hff, hfc⟩ := firstStop_of hne hfs hu
  have hnd : pf.faults.any (fun f => f.code == .dieLost) = false := by
    rw [List.any_eq_false]
    intro f hf
    simp [hfs f hf, hd]
  obtain ⟨x, r, hx⟩ := List.exists_cons_of_ne_nil hne
  unfold State.raise
  rw [hg, hx]
  dsimp only
  rw [← hx, hnd, if_neg Bool.false_ne_true]
  cases hh : g.handler with
  | true => exact ⟨stopCtx_stopped _ _ _ _ hg hed hst, nofun⟩
  | false =>
    simp only [hff, hfc, Bool.false_eq_true, if_false]
    refine ⟨?_, fun _ => stopCtx_code _ _ _ _ _ hst hco⟩
    obtain ⟨⟨h, h1, h2, h3⟩, h4⟩ := stopCtx_stopped (s := s.setGroup c gid (g.recordFault _)) code 0 pf.pc
      (stopLoc c gid f.slot) (group?_setGroup ..) hed hst
    exact ⟨⟨h, h1, h2, h3⟩, h4.trans (by rw [core_setGroup])⟩
end

/-! ## A pass with a Stop fault -/

theorem th_congr {g h : Group} (e : h.threads = g.threads) (i : Nat) : h.th i = g.th i := by
  rw [Group.th, Group.th, e]

/-- A pass moves the PCs of its committed threads and leaves every MEET and NEST alone. -/
theorem passed_th (g : Group) (cl : Clause) (len : Nat) (ok fm : Mask) (b : BRes) (dest : Nat → DWord) {i : Nat}
    (hi : i < g.threads.length) :
    ((g.passed cl len ok fm b dest).th i).pc = (if ok.getLsbD i then dest i else (g.th i).pc)
      ∧ ((g.passed cl len ok fm b dest).th i).meet = (g.th i).meet ∧ ((g.passed cl len ok fm b dest).th i).nest = (g.th i).nest := by
  have hth : (g.passed cl len ok fm b dest).th i = ((g.modThs ok fun i t => t.goOn (dest i)).modThs fm fun _ t => t.stay).th i := rfl
  rw [hth, modThs_th _ _ _ _ (by simpa [Group.modThs] using hi), modThs_th _ _ _ _ hi]
  cases fm.getLsbD i <;> cases ok.getLsbD i <;> exact ⟨rfl, rfl, rfl⟩

/-- A pass with faults of one Stop code: its threads of `ok` go on, and its group stands with no clause. -/
theorem passEnd_stops {s : State} {p : Pass} {g : Group} {fs : List ThFault} {code : FCode} (len : Nat) (fi : Word) (ok : Mask)
    (b : BRes) (dest : Nat → DWord) (hg : s.group? p.core p.gid = some g) (hr : g.ready p) (hed : p.g.debugEdits = [])
    (hst : (s.ctx p.g.ctx).st = .active) (hco : (s.ctx p.g.ctx).code = none) (hne : fs ≠ [])
    (hfs : ∀ f ∈ fs, f.code = code) (hu : code.isUser = false) (hd : code ≠ .dieLost) :
    Stopped s (s.passEnd p.core p.gid len fi ok fs b dest) p.core p.gid (g.passed p.cl len ok (faultMask fs) b dest)
      ∧ (g.handler = false → ((s.passEnd p.core p.gid len fi ok fs b dest).ctx p.g.ctx).code = some code) := by
  have hstep : s.passStep p.core p.gid len fi ok fs b dest
      = (s.setGroup p.core p.gid (g.passed p.cl len ok (faultMask fs) b dest)).raise p.core p.gid ⟨p.cl.pos, p.cl.pc, fi, fs⟩ := by
    simp only [State.passStep, hg, hr.clause, unstepped_mask hr.unstepped, traceAll_zero]
  have hctx : (g.passed p.cl len ok (faultMask fs) b dest).ctx = p.g.ctx := hr.ctx
  obtain ⟨⟨⟨h, hh, hcl, hth⟩, hpush⟩, hcode⟩ := raise_stops (pf := ⟨p.cl.pos, p.cl.pc, fi, fs⟩)
    (group?_setGroup s p.core p.gid (g.passed p.cl len ok (faultMask fs) b dest)) (hr.edits.trans hed)
    (by rw [hctx]; exact hst) (by rw [hctx]; exact hco) hne hfs hu hd
  rw [← hstep] at hh hpush hcode
  have hover : (s.passStep p.core p.gid len fi ok fs b dest).clauseOver p.core p.gid = false := by
    simp only [State.clauseOver, hh, Option.bind_some, hcl]
  simp only [State.passEnd, hover, Bool.false_eq_true, if_false]
  rw [hctx] at hcode
  exact ⟨⟨⟨h, hh, hcl, hth⟩, hpush.trans (by rw [core_setGroup])⟩, hcode⟩

/-! ## The units of a pass, the good and the bad -/

theorem maskOf_getLsbD (rs : List (Nat × Mask × ARes)) (i : Nat) : (maskOf rs).getLsbD i = rs.any fun x => x.2.1.getLsbD i := by
  have key (m : Mask) : (rs.foldl (fun m x => m ||| x.2.1) m).getLsbD i = (m.getLsbD i || rs.any fun x => x.2.1.getLsbD i) := by
    induction rs generalizing m with
    | nil => simp
    | cons x r ih => rw [List.foldl_cons, ih, List.any_cons, BitVec.getLsbD_or, Bool.or_assoc]
  exact (key 0).trans (by simp)

theorem reached_of_placed {r : ARes} (h : r.placed = true) : r.reached = true := by
  cases r with
  | at_ => rfl
  | map | miss | bad => exact absurd h nofun

theorem mem_goodOf {rs : List (Nat × Mask × ARes)} {x : Nat × Mask × ARes} : x ∈ goodOf rs ↔ x ∈ rs ∧ x.2.2.reached = true := by
  rw [goodOf, List.mem_filter]
  obtain ⟨a, m, r⟩ := x
  cases r <;> rfl

theorem missesOf_nil {rs : List (Nat × Mask × ARes)} (h : ∀ x ∈ rs, ∀ v, x.2.2 ≠ .miss v) : missesOf rs = [] := by
  have hnil : (rs.filterMap fun (x : Nat × Mask × ARes) => match x.2.2 with | .miss v => some v | _ => none) = [] := by
    rw [List.filterMap_eq_nil_iff]
    rintro ⟨a, m, r⟩ hx
    cases r with
    | miss v => exact absurd rfl (h _ hx v)
    | at_ | map | bad => rfl
  exact congrArg List.eraseDups hnil

theorem mem_badOf {rs : List (Nat × Mask × ARes)} {f : ThFault} :
    f ∈ badOf rs ↔ ∃ t m code ea, (t, m, .bad code ea) ∈ rs ∧ f ∈ faultsOf m code ea := by
  rw [badOf, List.mem_flatMap]
  constructor
  · rintro ⟨⟨t, m, r⟩, hx, hf⟩
    cases r with
    | bad code ea => exact ⟨t, m, code, ea, hx, hf⟩
    | at_ | map | miss => simp at hf
  · rintro ⟨t, m, code, ea, hx, hf⟩
    exact ⟨_, hx, hf⟩

theorem oneBit_getLsbD {t i : Nat} (hi : i < 32) : (1#32 <<< t).getLsbD i = decide (t = i) := by
  rw [← BitVec.twoPow_eq, BitVec.getLsbD_twoPow]
  by_cases h : t = i
  · subst h
    simp [hi]
  · simp [h]

theorem mem_faultsOf_oneBit {t : Nat} (ht : t < 32) (code : FCode) (ea : DWord) : ⟨t, code, ea⟩ ∈ faultsOf (1#32 <<< t) code ea :=
  List.mem_map.mpr ⟨t, mem_slotsOf.mpr ⟨ht, by rw [oneBit_getLsbD ht]; simp⟩, rfl⟩

/-! ## The pushes of a SETM -/

section
variable {s : State} {p : Pass}

theorem mem_pushUnits {t : Nat} {m : Mask} {r : ARes} :
    (t, m, r) ∈ s.pushUnits p ↔ t ∈ slotsOf p.ex ∧ m = 1#32 <<< t ∧ r = s.pushAt p t := by
  simp only [State.pushUnits, unitsOf, Bool.false_eq_true, if_false, List.mem_map, Prod.mk.injEq]
  constructor
  · rintro ⟨_, ⟨i, hi, rfl⟩, rfl, rfl, rfl⟩
    exact ⟨hi, rfl, rfl⟩
  · rintro ⟨ht, rfl, rfl⟩
    exact ⟨_, ⟨t, ht, rfl⟩, rfl, rfl, rfl⟩

theorem pushAt_full {i : Nat} (h : (p.g.th i).nest = 255) : s.pushAt p i = .bad .nestOverflow 0 := by
  simp [State.pushAt, h]

theorem slot_of_ex {i : Nat} (hp : s.pass? = some p) (hi : p.ex.getLsbD i = true) : i ∈ slotsOf p.ex :=
  mem_slotsOf.mpr ⟨(ex_lt hp hi).1, hi⟩

/-- The threads that a SETM commits: those whose push has found a place. -/
def State.pushers (s : State) (p : Pass) : Mask := maskOf (goodOf (s.pushUnits p))

theorem pushers_getLsbD {i : Nat} (hp : s.pass? = some p) (hi : p.ex.getLsbD i = true) :
    (s.pushers p).getLsbD i = (s.pushAt p i).reached := by
  have h32 := (ex_lt hp hi).1
  rw [State.pushers, maskOf_getLsbD, Bool.eq_iff_iff, List.any_eq_true]
  constructor
  · rintro ⟨⟨t, m, r⟩, hx, hb⟩
    obtain ⟨hx, hr⟩ := mem_goodOf.mp hx
    obtain ⟨-, rfl, rfl⟩ := mem_pushUnits.mp hx
    rw [oneBit_getLsbD h32, decide_eq_true_eq] at hb
    exact hb ▸ hr
  · intro hr
    have hmem : (i, 1#32 <<< i, s.pushAt p i) ∈ s.pushUnits p := mem_pushUnits.mpr ⟨slot_of_ex hp hi, rfl, rfl⟩
    exact ⟨_, mem_goodOf.mpr ⟨hmem, hr⟩, by simp [oneBit_getLsbD h32]⟩

/-- The state with the pushes of a SETM issued. -/
def State.pushed (s : State) (p : Pass) : State :=
  ((s.looks p none (s.pushUnits p)).touchAll p (goodOf (s.pushUnits p))).issuePushes p (goodOf (s.pushUnits p))

/-- A thread in the meeting scope that a SETM opens (02 R65). -/
def Thread.opensScope (t : Thread) (target : DWord) : Thread := { t with meet := target, nest := t.nest + 1, wait := .setm, starve := 0 }

theorem pushed_group? (c gid : Nat) : (s.pushed p).group? c gid = s.group? c gid :=
  (((sameGroups_looks s p none (s.pushUnits p)).trans (sameGroups_touchAll _ p (goodOf (s.pushUnits p)))).trans
    (sameGroups_modCore _ p.core _ rfl)).same c gid

theorem touch_ctx {β : Type} (f : Context → β) (hf : ∀ x m, f { x with tdm := m } = f x) (s : State) (c d x : Nat) :
    f ((s.touch c d).ctx x) = f (s.ctx x) := by
  by_cases h : x = c
  · subst h
    simp [State.touch, State.modCtx, State.setCtx, State.ctx, hf]
  · simp [State.touch, State.modCtx, State.setCtx, State.ctx, alGet_alSet_ne h]

theorem looks_ctx {β : Type} (f : Context → β) (hf : ∀ x m, f { x with tdm := m } = f x) (rs : List (Nat × Mask × ARes)) (x : Nat) :
    f ((s.looks p none rs).ctx x) = f (s.ctx x) := by
  refine (foldl_keeps (fun t => f (t.ctx x)) _ _ (fun t va => ?_) _).trans ?_
  · unfold State.touchLost
    split
    · exact touch_ctx f hf ..
    · rfl
  · unfold State.tlbMissed State.countCore
    split <;> rfl

theorem touchAll_ctx {β : Type} (f : Context → β) (hf : ∀ x m, f { x with tdm := m } = f x) (rs : List (Nat × Mask × ARes)) (x : Nat) :
    f ((s.touchAll p rs).ctx x) = f (s.ctx x) := by
  refine foldl_keeps (fun t => f (t.ctx x)) _ _ ?_ _
  rintro t ⟨a, m, r⟩
  cases r with
  | at_ ea pl =>
    simp only [State.touchPlace]
    split
    · exact touch_ctx f hf ..
    · rfl
  | map | miss | bad => rfl

/-- Issuing pushes marks dies in the context and leaves the rest of it alone. -/
theorem pushed_ctx {β : Type} (f : Context → β) (hf : ∀ x m, f { x with tdm := m } = f x) (x : Nat) :
    f ((s.pushed p).ctx x) = f (s.ctx x) :=
  (touchAll_ctx f hf _ x).trans (looks_ctx f hf _ x)

theorem looks_pushes (rs : List (Nat × Mask × ARes)) (c : Nat) : ((s.looks p none rs).core c).pushes = (s.core c).pushes := by
  refine (foldl_keeps (fun t => (t.core c).pushes) _ _ (fun t va => by simp only [State.core, touchLost_cores]) _).trans ?_
  unfold State.tlbMissed State.countCore
  split
  · rfl
  · exact modCore_pushes _ p.core c

/-- The push of a unit that found its place. -/
def Pass.pushOf (p : Pass) : Nat × Mask × ARes → Option PPush
  | (t, _, .at_ _ pl) => some ⟨p.gid, t, pl.pa, (p.g.th t).meet⟩
  | _ => none

theorem pushed_pushes :
    ((s.pushed p).core p.core).pushes = (s.core p.core).pushes ++ (goodOf (s.pushUnits p)).filterMap p.pushOf := by
  have hof : p.pushOf = fun (x : Nat × Mask × ARes) => match x.2.2 with
      | .at_ _ pl => some ⟨p.gid, x.1, pl.pa, (p.g.th x.1).meet⟩
      | _ => none := by
    funext ⟨t, m, r⟩
    cases r <;> rfl
  have hbase (rs : List (Nat × Mask × ARes)) :
      (((s.looks p none (s.pushUnits p)).touchAll p rs).core p.core).pushes = (s.core p.core).pushes := by
    simp only [State.core, touchAll_cores]
    exact looks_pushes ..
  rw [hof, ← hbase (goodOf (s.pushUnits p))]
  exact congrArg Core.pushes (core_setCore ..)

/-- A thread whose push found its place has it in flight, with the MEET it had. -/
theorem mem_pushed_pushes {i : Nat} {ea : DWord} {pl : Place} (hi : i ∈ slotsOf p.ex) (h : s.pushAt p i = .at_ ea pl) :
    (⟨p.gid, i, pl.pa, (p.g.th i).meet⟩ : PPush) ∈ ((s.pushed p).core p.core).pushes := by
  rw [pushed_pushes]
  refine List.mem_append_right _ (List.mem_filterMap.mpr ⟨(i, 1#32 <<< i, .at_ ea pl), mem_goodOf.mpr ⟨?_, rfl⟩, rfl⟩)
  exact mem_pushUnits.mpr ⟨hi, rfl, h.symm⟩

/-- A thread whose NEST is 255 pushes nothing. -/
theorem filter_pushed_pushes {i : Nat} (h : (p.g.th i).nest = 255) :
    ((s.pushed p).core p.core).pushes.filter (fun x => x.gid == p.gid && x.slot == i)
      = (s.core p.core).pushes.filter fun x => x.gid == p.gid && x.slot == i := by
  have hnone : ((goodOf (s.pushUnits p)).filterMap p.pushOf).filter (fun x => x.gid == p.gid && x.slot == i) = [] := by
    rw [List.filter_eq_nil_iff]
    intro y hy
    obtain ⟨⟨t, m, r⟩, hx, hyx⟩ := List.mem_filterMap.mp hy
    obtain ⟨-, -, hr⟩ := mem_pushUnits.mp (mem_goodOf.mp hx).1
    cases r with
    | at_ ea pl =>
      simp only [Pass.pushOf, Option.some.injEq] at hyx
      subst hyx
      have hti : t ≠ i := by
        rintro rfl
        rw [pushAt_full h] at hr
        exact absurd hr nofun
      simp [hti]
    | map | miss | bad => exact absurd hyx nofun
  rw [pushed_pushes, List.filter_append, hnone, List.append_nil]

/-! ## The pass of a SETM -/

/-- The group of a pass when a SETM has opened a scope for some of its threads. -/
def Pass.scoped (p : Pass) (disp : BitVec 19) (m : Mask) : Group := p.g.modThs m fun _ t => t.opensScope (dispTarget p disp)

theorem scoped_ready (disp : BitVec 19) (m : Mask) (hr : p.g.ready p) : (p.scoped disp m).ready p :=
  hr.threads m _ (fun _ _ => rfl) fun _ _ => rfl

/-- A SETM that waits for no walk: the threads whose push found its place open their scope, the others fault. -/
theorem exec_setm (disp : BitVec 19) (hp : s.pass? = some p) (hex : p.ex ≠ 0#32) (hm : missesOf (s.pushUnits p) = []) :
    exec (.setm disp) s = .next (((s.pushed p).setGroup p.core p.gid (p.scoped disp (s.pushers p))).fin p (.setm disp)
      (s.pushers p) (badOf (s.pushUnits p))) := by
  have hg : (s.pushed p).group? p.core p.gid = some p.g := (pushed_group? ..).trans (pass_facts hp).1
  have hmod : (s.pushed p).setGroup p.core p.gid (p.scoped disp (s.pushers p)) = _ :=
    (modGroup_of _ (fun g => g.modThs (s.pushers p) fun _ t => t.opensScope (dispTarget p disp)) hg).symm
  show execSetm disp s = _
  rw [execSetm, prePass_ready (check := false) (noRegion := false) (srcs := fun _ => []) (preds := []) _ _ hp hex rfl nofun nofun,
    hmod]
  simp only [← State.pushUnits.eq_1, hm]
  rfl

/-- A SETM whose pushes all find their place is a faultless pass. -/
theorem exec_setm_placed (disp : BitVec 19) (hp : s.pass? = some p) (ho : p.orderly = true)
    (hpl : (s.pushUnits p).all (fun (_, _, r) => r.placed) = true) :
    exec (.setm disp) s = .next ((((s.looks p none (s.pushUnits p)).touchAll p (s.pushUnits p)).issuePushes p (s.pushUnits p)).passes p
      (.setm disp) (p.scoped disp p.ex)) := by
  obtain ⟨hgood, hmiss, hbad⟩ := reached_good (placed_reached hpl)
  have hok : s.pushers p = p.ex := by
    rw [State.pushers, hgood]
    exact maskOf_units (fun t _ => s.pushAt p t) false p.ex
  rw [exec_setm disp hp (orderly_iff ho).1 hmiss, hbad, hok, State.pushed, hgood,
    pass_of _ (group?_setGroup ..) (scoped_ready disp p.ex (ready_self hp ho)) ho, State.passes, State.goesOn, goesTo_setGroup]
  rfl

/-! ## NEST_OVERFLOW (02 R65) -/

section
variable (hall : ∀ i, p.ex.getLsbD i = true → (p.g.th i).nest = 255 ∨ (s.pushAt p i).placed = true)
include hall

/-- The push of a unit overflows or finds its place. -/
theorem pushUnits_cases {t : Nat} {m : Mask} {r : ARes} (h : (t, m, r) ∈ s.pushUnits p) :
    r = .bad .nestOverflow 0 ∨ r.placed = true := by
  obtain ⟨ht, -, rfl⟩ := mem_pushUnits.mp h
  exact (hall t (mem_slotsOf.mp ht).2).imp_left pushAt_full

theorem pushUnits_noMiss : missesOf (s.pushUnits p) = [] := by
  refine missesOf_nil ?_
  rintro ⟨t, m, r⟩ h v rfl
  exact (pushUnits_cases hall h).elim nofun nofun

theorem pushUnits_faults : ∀ f ∈ badOf (s.pushUnits p), f.code = .nestOverflow := by
  intro f hf
  obtain ⟨t, m, code, ea, h, hf⟩ := mem_badOf.mp hf
  obtain ⟨j, -, rfl⟩ := List.mem_map.mp hf
  rcases pushUnits_cases hall h with h | h
  · cases h
    rfl
  · exact absurd h nofun
end

theorem pushUnits_faulty {i : Nat} (hp : s.pass? = some p) (hi : p.ex.getLsbD i = true) (hn : (p.g.th i).nest = 255) :
    badOf (s.pushUnits p) ≠ [] := by
  have hmem : (i, 1#32 <<< i, ARes.bad .nestOverflow 0) ∈ s.pushUnits p :=
    mem_pushUnits.mpr ⟨slot_of_ex hp hi, rfl, (pushAt_full hn).symm⟩
  exact List.ne_nil_of_mem (mem_badOf.mpr ⟨_, _, _, _, hmem, mem_faultsOf_oneBit (ex_lt hp hi).1 _ _⟩)

/-- What a SETM leaves of a thread: one whose NEST is 255 stays as it was, another goes on in its scope. -/
def Pass.setmLeaves (p : Pass) (disp : BitVec 19) (old new : Thread) : Prop :=
  if old.nest = 255 then new.pc = old.pc ∧ new.meet = old.meet ∧ new.nest = old.nest
  else new.pc = p.cl.after 1 ∧ new.meet = dispTarget p disp ∧ new.nest = old.nest + 1

theorem lenOf_setm (disp : BitVec 19) : lenOf (.setm disp) = 1 := rfl

theorem passed_setmLeaves (disp : BitVec 19) (fm : Mask) (b : BRes) {i : Nat} (hp : s.pass? = some p) (hi : p.ex.getLsbD i = true)
    (h : (p.g.th i).nest = 255 ∨ (s.pushAt p i).placed = true) :
    p.setmLeaves disp (p.g.th i) (((p.scoped disp (s.pushers p)).passed p.cl (lenOf (.setm disp)) (s.pushers p) fm b
      fun _ => p.cl.after (lenOf (.setm disp))).th i) := by
  have hlen := (ex_lt hp hi).2
  obtain ⟨hpc, hmeet, hnest⟩ := passed_th (p.scoped disp (s.pushers p)) p.cl (lenOf (.setm disp)) (s.pushers p) fm b
    (fun _ => p.cl.after (lenOf (.setm disp))) (i := i) (by simpa [Pass.scoped, Group.modThs] using hlen)
  rw [Pass.setmLeaves, hpc, hmeet, hnest, Pass.scoped, modThs_th _ _ _ _ hlen, pushers_getLsbD hp hi, lenOf_setm]
  rcases h with hn | hpl
  · rw [if_pos hn, pushAt_full hn]
    exact ⟨rfl, rfl, rfl⟩
  · have hn : (p.g.th i).nest ≠ 255 := fun hn => absurd (pushAt_full hn ▸ hpl) nofun
    rw [if_neg hn, reached_of_placed hpl]
    exact ⟨rfl, rfl, rfl⟩

/-- A SETM at which NEST_OVERFLOW strikes stops the context, after its other threads have committed and pushed. -/
theorem exec_setm_overflows (disp : BitVec 19) (hp : s.pass? = some p) (hun : p.g.unstepped = true) (hed : p.g.debugEdits = [])
    (hst : (s.ctx p.g.ctx).st = .active) (hco : (s.ctx p.g.ctx).code = none)
    (hall : ∀ i, p.ex.getLsbD i = true → (p.g.th i).nest = 255 ∨ (s.pushAt p i).placed = true)
    (hfull : ∃ i, p.ex.getLsbD i = true ∧ (p.g.th i).nest = 255) :
    ∃ t g, exec (.setm disp) s = .next t ∧ t.group? p.core p.gid = some g ∧
      (p.g.handler = false → (t.ctx p.g.ctx).code = some .nestOverflow) ∧
      (t.core p.core).pushes = ((s.pushed p).core p.core).pushes ∧
      ∀ i, p.ex.getLsbD i = true → p.setmLeaves disp (p.g.th i) (g.th i) := by
  obtain ⟨j, hj, hn⟩ := hfull
  obtain ⟨-, hcl, hx⟩ := pass_facts hp
  have hex : p.ex ≠ 0#32 := fun h => by simp [h] at hj
  have hself : p.g.ready p := ⟨hcl, hun, active_ne (hx ▸ hex), rfl, rfl, rfl⟩
  obtain ⟨⟨⟨g, hg, -, hth⟩, hpush⟩, hcode⟩ := passEnd_stops (lenOf (.setm disp)) (finfoWord (headOf (.setm disp))) (s.pushers p)
    (p.g.noLatch p.cl.res (headOf (.setm disp)) (s.pushers p)) (fun _ => p.cl.after (lenOf (.setm disp)))
    (group?_setGroup (s.pushed p) p.core p.gid _) (scoped_ready disp (s.pushers p) hself) hed
    ((pushed_ctx Context.st (fun _ _ => rfl) _).trans hst) ((pushed_ctx Context.code (fun _ _ => rfl) _).trans hco)
    (pushUnits_faulty hp hj hn) (pushUnits_faults hall) rfl nofun
  refine ⟨_, g, exec_setm disp hp hex (pushUnits_noMiss hall), hg, hcode, hpush.trans (by rw [core_setGroup]), fun i hi => ?_⟩
  rw [th_congr hth]
  exact passed_setmLeaves disp _ _ hp hi (hall i hi)
end

/-- Settles O19: the faultless pass by the laws of a pass, the one with NEST_OVERFLOW by what its Stop fault keeps. -/
theorem setmCompletes : Obligations.SetmCompletes := by
  unfold Obligations.SetmCompletes
  intro disp s p hp
  refine ⟨exec_setm_placed disp hp, fun hun hed hst hco hall hfull => ?_⟩
  obtain ⟨t, g, ht, hg, hcode, hpush, hths⟩ := exec_setm_overflows disp hp hun hed hst hco hall hfull
  refine ⟨t, g, ht, hg, hcode, fun i hi => ?_⟩
  have hth := hths i hi
  rw [hpush]
  unfold Pass.setmLeaves at hth
  by_cases hn : (p.g.th i).nest = 255
  · rw [if_pos hn] at hth ⊢
    obtain ⟨hpc, hmeet, hnest⟩ := hth
    exact ⟨hpc, hmeet, hnest, filter_pushed_pushes hn⟩
  · rw [if_neg hn] at hth ⊢
    obtain ⟨hpc, hmeet, hnest⟩ := hth
    exact ⟨hpc, hmeet, hnest, fun ea pl h => mem_pushed_pushes (slot_of_ex hp hi) h⟩

end Sys2Proof.Machine

namespace Sys2Proof.Machine

/-! # The image of a group gives back the group (03 R99 to R101)

An image is read at offsets, and written as one list of bytes after another. `Holds bs o xs` ties the two: it
splits as the list splits, and of a list of `leBytes` it gives the field that is read there. The layout of an
image is then one lemma (`image_layout`), and what the load reads of each part follows from it. -/

/-! ## Bytes, numbers and fields (00 R2) -/

@[simp] theorem leBytes_length (n w : Nat) : (leBytes n w).length = n := by
  induction n generalizing w with
  | zero => rfl
  | succ n ih => simp [leBytes, ih]

theorem leNat_leBytes (n w : Nat) : leNat (leBytes n w) = w % 256 ^ n := by
  induction n generalizing w with
  | zero => simp [leBytes, leNat, Nat.mod_one]
  | succ n ih => rw [leBytes, leNat, ih, Nat.pow_succ', Nat.mod_mul, BitVec.toNat_ofNat]

theorem leNat_replicate_zero (n : Nat) : leNat (List.replicate n 0) = 0 := by
  induction n with
  | zero => rfl
  | succ n ih => rw [List.replicate_succ, leNat, ih]; rfl

/-- The bytes `xs` stand in `bs` from offset `o` up. -/
def Holds (bs : List Byte) (o : Nat) (xs : List Byte) : Prop := xs <+: bs.drop o

namespace Holds
variable {bs xs ys : List Byte} {o n : Nat}

theorem self (bs : List Byte) : Holds bs 0 bs := List.prefix_rfl

theorem left (h : Holds bs o (xs ++ ys)) : Holds bs o xs := (List.prefix_append xs ys).trans h

theorem right (h : Holds bs o (xs ++ ys)) (hn : xs.length = n) : Holds bs (o + n) ys := by
  obtain ⟨r, hr⟩ := h
  refine ⟨r, ?_⟩
  rw [← hn, ← List.drop_drop, ← hr, List.append_assoc, List.drop_left]

/-- A field over just these bytes is their number. -/
theorem field (h : Holds bs o xs) (hn : xs.length = n := by simp) : fieldAt bs o n = leNat xs := by
  rw [fieldAt, ← hn, List.prefix_iff_eq_take.mp h |>.symm]

/-- A number written little-endian reads back. -/
theorem number {w : Nat} (h : Holds bs o (leBytes n w)) (hw : w < 256 ^ n) : fieldAt bs o n = w := by
  rw [h.field, leNat_leBytes, Nat.mod_eq_of_lt hw]

/-- So does a word, at its own width. -/
theorem word {w : Nat} {x : BitVec w} (h : Holds bs o (leBytes n x.toNat)) (hw : 2 ^ w ≤ 256 ^ n) :
    BitVec.ofNat w (fieldAt bs o n) = x := by
  rw [h.number (Nat.lt_of_lt_of_le x.isLt hw), BitVec.ofNat_toNat, BitVec.setWidth_eq]

/-- Entry `i` of a table whose entries have `k` bytes. -/
theorem entry {f : Nat → List Byte} {k i : Nat} (h : Holds bs o ((List.range n).flatMap f)) (hk : ∀ i, (f i).length = k)
    (hi : i < n) : Holds bs (o + k * i) (f i) := by
  induction n with
  | zero => omega
  | succ n ih =>
    rw [List.range_succ, List.flatMap_append, List.flatMap_singleton] at h
    rcases Nat.lt_succ_iff_lt_or_eq.mp hi with hlt | rfl
    · exact ih h.left hlt
    · exact h.right (by simp [List.length_flatMap, hk, Nat.mul_comm])

end Holds

/-! ## Fields of equal width packed into a number -/

theorem packBits_range_succ (k n : Nat) (f : Nat → Nat) :
    packBits ((List.range (n + 1)).map fun i => (k * i, f i)) = packBits ((List.range n).map fun i => (k * i, f i)) + f n * 2 ^ (k * n) := by
  simp [packBits, List.range_succ]

section
variable {k : Nat} {f : Nat → Nat} (hf : ∀ i, f i < 2 ^ k)
include hf

theorem packBits_range_lt (n : Nat) : packBits ((List.range n).map fun i => (k * i, f i)) < 2 ^ (k * n) := by
  induction n with
  | zero => simp [packBits]
  | succ n ih =>
    rw [packBits_range_succ]
    calc _ < 2 ^ (k * n) + f n * 2 ^ (k * n) := by omega
      _ = (f n + 1) * 2 ^ (k * n) := by ring
      _ ≤ 2 ^ k * 2 ^ (k * n) := Nat.mul_le_mul_right _ (hf n)
      _ = 2 ^ (k * (n + 1)) := by rw [← Nat.pow_add]; congr 1; ring

theorem packBits_range_field {n j : Nat} (hj : j < n) :
    packBits ((List.range n).map fun i => (k * i, f i)) / 2 ^ (k * j) % 2 ^ k = f j := by
  induction n with
  | zero => omega
  | succ n ih =>
    rw [packBits_range_succ]
    rcases Nat.lt_succ_iff_lt_or_eq.mp hj with hlt | rfl
    · obtain ⟨d, rfl⟩ := Nat.exists_eq_add_of_lt hlt
      have hsplit : f (j + d + 1) * 2 ^ (k * (j + d + 1)) = f (j + d + 1) * 2 ^ (k * d) * 2 ^ k * 2 ^ (k * j) := by
        rw [show k * (j + d + 1) = k * d + k + k * j by ring, Nat.pow_add, Nat.pow_add]
        ring
      rw [hsplit, Nat.add_mul_div_right _ _ (Nat.two_pow_pos _), Nat.add_mul_mod_self_right, ih hlt]
    · rw [Nat.add_mul_div_right _ _ (Nat.two_pow_pos _), Nat.div_eq_of_lt (packBits_range_lt hf j), Nat.zero_add,
        Nat.mod_eq_of_lt (hf j)]
end

/-! ## Registers -/

theorem Shape.tag_le (sh : Shape) : sh.tag ≤ 2 := by cases sh <;> simp [Shape.tag]

theorem column_val (f : Nat → Word) {t : Nat} (ht : t < 32) : (column f).val t = f t := by
  simp [column, Shape.val, List.getD_eq_getElem?_getD, ht]

theorem Reg.bytes_length (r : Reg) : r.bytes.length = tagBytes r.shape.tag := by
  unfold Reg.bytes
  cases r.shape with
  | uniform w => simp [tagBytes, Shape.tag]
  | affine b d => simp [tagBytes, Shape.tag]
  | general ws => simp [tagBytes, Shape.tag, List.length_flatMap]

/-- A register as an image gives it back: a general column as 32 words. -/
def Reg.stored (r : Reg) : Reg :=
  { shape := match r.shape with | .general _ => column r.shape.val | sh => sh }

@[simp] theorem Reg.stored_tag (r : Reg) : r.stored.shape.tag = r.shape.tag := by
  unfold Reg.stored
  cases r.shape <;> rfl

theorem Reg.stored_val (r : Reg) {t : Nat} (ht : t < 32) : r.stored.shape.val t = r.shape.val t := by
  unfold Reg.stored
  cases r.shape with
  | uniform w => rfl
  | affine b d => rfl
  | general ws => exact column_val _ ht

/-- The registers of a register area read back, each by its own tag. -/
theorem parseRegs_stored {bs : List Byte} (rs : List Reg) {o : Nat} (h : Holds bs o (rs.flatMap Reg.bytes)) :
    parseRegs bs (rs.map (·.shape.tag)) o = rs.map Reg.stored := by
  induction rs generalizing o with
  | nil => rfl
  | cons r rs ih =>
    rw [List.flatMap_cons] at h
    have hr := h.left
    rw [List.map_cons, List.map_cons, parseRegs, ih (h.right r.bytes_length)]
    congr 1
    unfold Reg.bytes at hr
    unfold Reg.stored
    cases hs : r.shape with
    | uniform w =>
      rw [hs] at hr
      simp [Shape.tag, hr.word (by decide)]
    | affine b d =>
      rw [hs] at hr
      simp [Shape.tag, hr.left.word (by decide), (hr.right (leBytes_length ..)).word (by decide)]
    | general ws =>
      rw [hs] at hr
      have hw : (List.range 32).map (fun k => BitVec.ofNat 32 (fieldAt bs (o + 4 * k) 4)) = (List.range 32).map (Shape.general ws).val :=
        List.map_congr_left fun k hk => (hr.entry (fun _ => leBytes_length ..) (List.mem_range.mp hk)).word (by decide)
      simp [Shape.tag, hw, column]

theorem foldl_tagBytes (rs : List Reg) (a : Nat) :
    (rs.map (·.shape.tag)).foldl (fun n t => n + tagBytes t) a = a + (rs.flatMap Reg.bytes).length := by
  induction rs generalizing a with
  | nil => rfl
  | cons r rs ih => rw [List.map_cons, List.foldl_cons, ih, List.flatMap_cons, List.length_append, r.bytes_length, Nat.add_assoc]

/-! ## Threads -/

theorem Thread.bytes_length (t : Thread) : t.bytes.length = 24 := by
  unfold Thread.bytes
  cases t.st <;> simp

/-- The state code of a thread's entry (03 R100). -/
def Thread.code (t : Thread) : Byte := if t.st == .exited then 2 else if t.halted then 3 else 1

theorem Thread.code_cases (t : Thread) (h : t.st ≠ .empty) :
    t.code.toNat ∈ [1, 2, 3] ∧ ((t.code.toNat = 2) ↔ t.st = .exited) := by
  unfold Thread.code
  cases hs : t.st with
  | empty => exact absurd hs h
  | exited => simp
  | active => cases t.halted <;> simp

section
variable {bs : List Byte} {o : Nat} {t : Thread}

theorem Thread.bytes_empty (h : t.st = .empty) : t.bytes = List.replicate 24 0 := by rw [Thread.bytes, h]

theorem Thread.bytes_used (h : t.st ≠ .empty) :
    t.bytes = leBytes 8 t.pc.toNat ++ leBytes 8 t.meet.toNat ++ leBytes 2 t.tix.toNat ++ leBytes 2 t.ssadv.toNat
      ++ leBytes 1 t.nest.toNat ++ leBytes 1 t.code.toNat ++ [0, 0] := by
  unfold Thread.bytes
  cases hs : t.st with
  | empty => exact absurd hs h
  | active | exited => simp [leBytes, Thread.code, hs]

/-- The entry of an empty slot reads as zeros. -/
theorem field_of_empty (h : Holds bs o t.bytes) (ht : t.st = .empty) {k n : Nat} (hk : k + n ≤ 24) : fieldAt bs (o + k) n = 0 := by
  obtain ⟨m, hm⟩ := Nat.exists_eq_add_of_le hk
  rw [Thread.bytes_empty ht, hm, List.replicate_add, List.replicate_add] at h
  rw [(h.left.right (List.length_replicate ..)).field, leNat_replicate_zero]

/-- The fields of a used slot's entry. -/
structure ThreadFields (bs : List Byte) (o : Nat) (t : Thread) : Prop where
  pc : BitVec.ofNat 64 (fieldAt bs o 8) = t.pc
  meet : BitVec.ofNat 64 (fieldAt bs (o + 8) 8) = t.meet
  tix : BitVec.ofNat 16 (fieldAt bs (o + 16) 2) = t.tix
  ssadv : BitVec.ofNat 16 (fieldAt bs (o + 18) 2) = t.ssadv
  nest : BitVec.ofNat 8 (fieldAt bs (o + 20) 1) = t.nest
  code : fieldAt bs (o + 21) 1 = t.code.toNat
  rest : fieldAt bs (o + 22) 2 = 0

theorem threadFields (h : Holds bs o t.bytes) (ht : t.st ≠ .empty) : ThreadFields bs o t := by
  rw [Thread.bytes_used ht] at h
  have h5 := h.left.left
  have h4 := h5.left
  have h3 := h4.left
  have h2 := h3.left
  exact {
    pc := h2.left.word (by decide)
    meet := (h2.right (by simp)).word (by decide)
    tix := (h3.right (by simp)).word (by decide)
    ssadv := (h4.right (by simp)).word (by decide)
    nest := (h5.right (by simp)).word (by decide)
    code := (h.left.right (by simp)).number t.code.isLt
    rest := (h.right (by simp)).field }

theorem threadOk_bytes (h : Holds bs o t.bytes) : threadOk bs o = true := by
  unfold threadOk pz
  by_cases ht : t.st = .empty
  · simp [field_of_empty h ht (k := 21) (n := 1) (by decide), field_of_empty h ht (k := 22) (n := 2) (by decide),
      show fieldAt bs o 24 = 0 from field_of_empty h ht (k := 0) (n := 24) (by decide)]
  · have hf := threadFields h ht
    have hc := (t.code_cases ht).1
    simp only [List.mem_cons, List.not_mem_nil, or_false] at hc
    rw [hf.code, hf.rest]
    rcases hc with hc | hc | hc <;> simp [hc]

/-- An entry gives back its thread's state, and of a used slot the rest. -/
theorem parseThread_bytes (h : Holds bs o t.bytes) (dbg : Bool) :
    (parseThread bs o dbg).st = t.st ∧ (t.st ≠ .empty → (parseThread bs o dbg).pc = t.pc ∧ (parseThread bs o dbg).meet = t.meet ∧
      (parseThread bs o dbg).nest = t.nest ∧ (parseThread bs o dbg).tix = t.tix ∧ (parseThread bs o dbg).ssadv = t.ssadv) := by
  by_cases ht : t.st = .empty
  · refine ⟨?_, fun h => absurd ht h⟩
    rw [ht]
    simp [parseThread, field_of_empty h ht (k := 21) (n := 1) (by decide)]
  · have hf := threadFields h ht
    obtain ⟨hc, h2⟩ := t.code_cases ht
    have h0 : fieldAt bs (o + 21) 1 ≠ 0 := by
      rw [hf.code]
      rintro h0
      simp [h0] at hc
    unfold parseThread
    split
    · exact absurd ‹_› h0
    · refine ⟨?_, fun _ => ⟨hf.pc, hf.meet, hf.nest, hf.tix, hf.ssadv⟩⟩
      show (if fieldAt bs (o + 21) 1 = 2 then TState.exited else .active) = t.st
      rw [hf.code]
      cases hs : t.st with
      | empty => exact absurd hs ht
      | exited => rw [if_pos (h2.mpr hs)]
      | active => rw [if_neg (fun k => by simp [h2.mp k] at hs)]
end

/-! ## The layout of an image -/

/-- The registers of a group's register area. -/
def Group.regList (g : Group) : List Reg := (List.range 64).map g.reg

/-- The end of a group's register area. -/
def Group.regsEnd (g : Group) : Nat := 16 + (g.regList.flatMap Reg.bytes).length

/-- The byte that tells which predicates are uniform (03 R99). -/
def Group.predUnis (g : Group) : Nat := packBits ((List.range 7).map fun i => (1 * i, (g.pred i).uni.toNat))

theorem Group.predUnis_lt (g : Group) : g.predUnis < 2 ^ 7 := packBits_range_lt (k := 1) (fun i => (g.pred i).uni.toNat_lt) 7

/-- Where the parts of an image without a trap record lie (03 R99, R100). -/
structure ImageLayout (g : Group) (bs : List Byte) : Prop where
  tags : Holds bs 0 (leBytes 16 (packBits ((List.range 64).map fun i => (2 * i, (g.reg i).shape.tag))))
  regs : Holds bs 16 (g.regList.flatMap Reg.bytes)
  preds : Holds bs g.regsEnd ((List.range 7).flatMap fun i => leBytes 4 (g.pred i).bits.toNat)
  unis : Holds bs (g.regsEnd + 28) [BitVec.ofNat 8 g.predUnis, 0, 0, 0]
  threads : Holds bs (g.regsEnd + 32) ((List.range 32).flatMap fun i => (g.th i).bytes)
  tile : Holds bs (g.regsEnd + 800) (leBytes 4 g.tile)
  fcr : Holds bs (g.regsEnd + 804) (leBytes 4 g.fcr.toNat)
  fsr : Holds bs (g.regsEnd + 808) (leBytes 4 g.fsr.toNat)
  seed : Holds bs (g.regsEnd + 812) (leBytes 4 g.seed.toNat)
  length : bs.length = g.regsEnd + 816

theorem image_layout {g : Group} (hh : g.handler = false) : ImageLayout g g.image := by
  have himg : g.image = leBytes 16 (packBits ((List.range 64).map fun i => (2 * i, (g.reg i).shape.tag)))
      ++ (g.regList.flatMap Reg.bytes ++ ((List.range 7).flatMap (fun i => leBytes 4 (g.pred i).bits.toNat)
      ++ ([BitVec.ofNat 8 g.predUnis, 0, 0, 0] ++ ((List.range 32).flatMap (fun i => (g.th i).bytes)
      ++ (leBytes 4 g.tile ++ (leBytes 4 g.fcr.toNat ++ (leBytes 4 g.fsr.toNat ++ leBytes 4 g.seed.toNat))))))) := by
    simp [Group.image, hh, Group.regList, Group.predUnis, List.flatMap_map]
  have hpreds : ((List.range 7).flatMap fun i => leBytes 4 (g.pred i).bits.toNat).length = 28 := by
    simp [List.length_flatMap]
  have hths : ((List.range 32).flatMap fun i => (g.th i).bytes).length = 768 := by
    simp [List.length_flatMap, Thread.bytes_length]
  have htags := Holds.self g.image
  conv at htags => arg 3; rw [himg]
  have hregs : Holds g.image 16 (_ ++ _) := htags.right (leBytes_length ..)
  have hpred := hregs.right rfl
  have hunis := hpred.right hpreds
  have hth := hunis.right (n := 4) rfl
  have htile := hth.right hths
  have hfcr := htile.right (leBytes_length ..)
  have hfsr := hfcr.right (leBytes_length ..)
  refine ⟨htags.left, hregs.left, hpred.left, hunis.left, hth.left, htile.left, hfcr.left, hfsr.left, hfsr.right (leBytes_length ..), ?_⟩
  rw [himg]
  simp only [List.length_append, leBytes_length, hpreds, hths, Group.regsEnd, List.length_cons, List.length_nil]
  omega

/-! ## What a load reads of an image -/

section
variable {g : Group} {bs : List Byte} (h : ImageLayout g bs)
include h

theorem imageTags_layout : imageTags bs = g.regList.map (·.shape.tag) := by
  have hf : ∀ i, (g.reg i).shape.tag < 2 ^ 2 := fun i => by have := (g.reg i).shape.tag_le; omega
  have hlt : packBits ((List.range 64).map fun i => (2 * i, (g.reg i).shape.tag)) < 256 ^ 16 := packBits_range_lt hf 64
  rw [imageTags, h.tags.number hlt, Group.regList, List.map_map]
  refine List.map_congr_left fun i hi => ?_
  rw [show 4 ^ i = 2 ^ (2 * i) by rw [Nat.pow_mul]]
  exact packBits_range_field hf (List.mem_range.mp hi)

theorem imageRegsEnd_layout : imageRegsEnd bs = g.regsEnd := by
  rw [imageRegsEnd, imageTags_layout h, foldl_tagBytes, Group.regsEnd]

/-- The byte of the uniform bits. -/
theorem unis_layout : fieldAt bs (g.regsEnd + 28) 1 = g.predUnis := by
  have hu : Holds bs (g.regsEnd + 28) (leBytes 1 g.predUnis ++ [0, 0, 0]) := h.unis
  exact hu.left.number (Nat.lt_of_lt_of_le g.predUnis_lt (by decide))

theorem tile_layout (ht : g.tile ∈ [2, 4, 8, 16, 32]) : fieldAt bs (g.regsEnd + 800) 4 = g.tile := by
  refine h.tile.number ?_
  simp only [List.mem_cons, List.not_mem_nil, or_false] at ht
  omega

theorem thread_layout {i : Nat} (hi : i < 32) : Holds bs (g.regsEnd + 32 + 24 * i) (g.th i).bytes :=
  h.threads.entry (fun i => (g.th i).bytes_length) hi

/-- An image passes every check of R101. -/
theorem imageOk_layout (ht : g.tile ∈ [2, 4, 8, 16, 32]) : imageOk false bs = true := by
  have hu : Holds bs (g.regsEnd + 28) (leBytes 1 g.predUnis ++ [0, 0, 0]) := h.unis
  have hpf : pf bs (g.regsEnd + 28) 7 1 = 0 := by
    have hlt := g.predUnis_lt
    rw [pf, h.unis.field (n := 4) rfl]
    simp only [leNat, BitVec.toNat_ofNat]
    omega
  have hpz : pz bs (g.regsEnd + 29) 3 = true := by
    rw [pz, show g.regsEnd + 29 = g.regsEnd + 28 + 1 from rfl, (hu.right (leBytes_length ..)).field (n := 3) rfl]
    rfl
  have htags : (imageTags bs).all (· != 3) = true := by
    rw [imageTags_layout h, List.all_map, List.all_eq_true]
    intro r _
    have := r.shape.tag_le
    simp only [Function.comp, bne_iff_ne]
    omega
  have hths : (List.range 32).all (fun i => threadOk bs (g.regsEnd + 32 + 24 * i)) = true :=
    List.all_eq_true.mpr fun i hi => threadOk_bytes (thread_layout h (List.mem_range.mp hi))
  have hlen : 16 ≤ g.regsEnd + 816 := by omega
  simpa [imageOk, imageLen, imageRegsEnd_layout h, htags, hpf, hpz, hths, tile_layout h ht, h.length, hlen] using ht
end

/-! ## The group that a load gives -/

section
variable {g : Group} (hh : g.handler = false) (dbg : Bool)
include hh

theorem load_reg {n : Nat} (hn : n < 64) : (g.load g.image dbg).reg n = (g.reg n).stored := by
  have h := image_layout hh
  have hregs : (g.load g.image dbg).regs = g.regList.map Reg.stored := by
    simp only [Group.load, hh, Group.dropTrap, imageTags_layout h, parseRegs_stored g.regList h.regs, Bool.false_eq_true, if_false]
  simp [Group.reg, hregs, Group.regList, List.getD_eq_getElem?_getD, hn]

theorem load_pred {n : Nat} (hn : n < 7) : (g.load g.image dbg).pred n = g.pred n := by
  have h := image_layout hh
  have hbits : BitVec.ofNat 32 (fieldAt g.image (g.regsEnd + 4 * n) 4) = (g.pred n).bits :=
    (h.preds.entry (fun _ => leBytes_length ..) hn).word (by decide)
  have huni : g.predUnis / 2 ^ n % 2 = (g.pred n).uni.toNat := by
    have := packBits_range_field (k := 1) (fun i => (g.pred i).uni.toNat_lt) hn
    rwa [Nat.one_mul] at this
  have hpred : (g.load g.image dbg).preds = (List.range 7).map fun i =>
      { bits := BitVec.ofNat 32 (fieldAt g.image (g.regsEnd + 4 * i) 4), uni := g.predUnis / 2 ^ i % 2 == 1 } := by
    simp only [Group.load, hh, Group.dropTrap, imageRegsEnd_layout h, unis_layout h, Bool.false_eq_true, if_false]
  have hn7 : (n == 7) = false := by simp; omega
  have hb : ((g.pred n).uni.toNat == 1) = (g.pred n).uni := by cases (g.pred n).uni <;> rfl
  calc (g.load g.image dbg).pred n
      = { bits := BitVec.ofNat 32 (fieldAt g.image (g.regsEnd + 4 * n) 4), uni := g.predUnis / 2 ^ n % 2 == 1 } := by
        simp [Group.pred, hn7, hpred, List.getD_eq_getElem?_getD, hn]
    _ = g.pred n := by rw [hbits, huni, hb]

theorem load_th {i : Nat} (hi : i < 32) :
    (g.load g.image dbg).th i = { parseThread g.image (g.regsEnd + 32 + 24 * i) dbg with redUe := (g.th i).redUe, tokErr := (g.th i).tokErr } := by
  have h := image_layout hh
  simp [Group.load, hh, Group.dropTrap, imageRegsEnd_layout h, Group.th, List.getD_eq_getElem?_getD, hi]

theorem load_tile (ht : g.tile ∈ [2, 4, 8, 16, 32]) : (g.load g.image dbg).tile = g.tile := by
  have h := image_layout hh
  simp only [Group.load, hh, Group.dropTrap, imageRegsEnd_layout h, tile_layout h ht, Bool.false_eq_true, if_false]

theorem load_words : (g.load g.image dbg).fcr = g.fcr &&& fcrMask ∧ (g.load g.image dbg).fsr = g.fsr &&& fsrMask
    ∧ (g.load g.image dbg).seed = g.seed := by
  have h := image_layout hh
  simp only [Group.load, hh, Group.dropTrap, imageRegsEnd_layout h, h.fcr.word (by decide), h.fsr.word (by decide), h.seed.word (by decide),
    Bool.false_eq_true, if_false, and_self]
end

/-- A word without bits outside a mask keeps all under it. -/
theorem and_mask_of_clear {x m : Word} (h : x &&& ~~~m = 0) : x &&& m = x := by
  refine BitVec.eq_of_getLsbD_eq fun i hi => ?_
  have hbit : (x &&& ~~~m).getLsbD i = false := by rw [h]; simp
  simpa [hi] using hbit

/-- Settles O39: the layout of an image, then the fields that a load reads at its offsets. -/
theorem imagesRoundTrip : Obligations.ImagesRoundTrip := by
  unfold Obligations.ImagesRoundTrip
  intro g dbg hh _ _ _ ht hfcr hfsr
  have h := image_layout hh
  obtain ⟨hc, hs, hseed⟩ := load_words hh dbg
  refine ⟨imageOk_layout h ht, fun n t hn ht => ?_, fun n hn => load_pred hh dbg hn, hc.trans (and_mask_of_clear hfcr),
    hs.trans (and_mask_of_clear hfsr), hseed, load_tile hh dbg ht, fun i hi => ?_⟩
  · rw [load_reg hh dbg hn]
    exact ⟨(g.reg n).stored_val ht, (g.reg n).stored_tag⟩
  · have hth := parseThread_bytes (thread_layout h hi) dbg
    rw [load_th hh dbg hi]
    generalize parseThread g.image _ dbg = t at hth ⊢
    exact hth

end Sys2Proof.Machine

namespace Sys2Proof.Machine

/-! # Results in the registers (03 R92, R93)

A lane instruction is a form, the results of its threads and the row of 03 R92 that keeps a shape. `LaneForm` ties
the three to the row of results that stands for the instruction, and one lemma (`readyPass_reg`) says what a pass
that completes leaves in the registers: the column that `Reg.write` stores. -/

/-! ## Lane forms -/

/-- An instruction executes the lane form `o` with the results `f` and the shapes `sp`, and meets no fault and no
other exceptions than its row `r` has. -/
structure LaneForm (s : State) (i : Instr) (r : LaneRow) (o : LOp) (f : Pass → List SVal → Nat → TR)
    (sp : Pass → List SVal → Option (Shape × Shape)) (post : Pass → List (Nat × TR) → State → State := fun _ _ s => s) : Prop where
  exec : exec i s = .next (s.laneOp o f sp post)
  instr : o.i = i
  agrees : o.agrees r
  plain : o.noRegion = false ∧ o.dynRegs = fun _ _ _ => []
  thread : ∀ p vs t, (∀ v ∈ vs, v.ue = 0#32) → r.good p vs t = true → (f p vs t).fault = none ∧ (f p vs t).ex = r.exc p vs t

theorem laneReady_of {s : State} {p : Pass} {r : LaneRow} (ho : p.orderly = true) (hc : r.chan = false)
    (hu : (r.u || r.forceUni) = true → r.srcs.all (fun (a, pair) => (p.src a pair).isUni pair) = true
      ∧ r.preds.all (fun q => p.g.predUni q.toNat) = true)
    (hs : ∀ x ∈ r.srcs, (p.src x.1 x.2).ue = 0#32) (hr : ∀ n ∈ r.regs, (s.core p.core).bHeld p.gid p.g n = false)
    (ht : ∀ t ∈ slotsOf p.ex, r.good p (p.svals r.srcs) (r.from_ p t) = true ∧ p.g.fpeOf (r.exc p (p.svals r.srcs) (r.from_ p t)) = false) :
    laneReady s p r = true := by
  have h5 : (!(r.u || r.forceUni) || (r.srcs.all (fun (a, pair) => (p.src a pair).isUni pair) && r.preds.all fun q => p.g.predUni q.toNat)) = true := by
    cases h : r.u || r.forceUni with
    | false => rfl
    | true => simp only [(hu h).1, (hu h).2, Bool.and_self, Bool.or_true]
  simp only [laneReady, Bool.and_eq_true, List.all_eq_true]
  refine ⟨⟨⟨⟨⟨ho, by simp [hc]⟩, h5⟩, fun x hx => ?_⟩, fun n hn => ?_⟩, fun t hst => ?_⟩
  · simp [hs x hx]
  · simp [hr n hn]
  · simp [ht t hst]

theorem svals_ue {p : Pass} {srcs : List (Src × Bool)} (h : ∀ x ∈ srcs, (p.src x.1 x.2).ue = 0#32) : ∀ v ∈ p.svals srcs, v.ue = 0#32 := by
  intro v hv
  simp only [Pass.svals, List.mem_map] at hv
  obtain ⟨x, hx, rfl⟩ := hv
  exact h x hx

/-- The exceptions of no thread raise FPE where there are none. -/
@[simp] theorem fpeOf_zero (g : Group) : g.fpeOf 0 = false := by simp [Group.fpeOf]

/-! ## The registers after a pass -/

/-- The columns of a pass that its whole executing set completes. -/
def LOp.wholeCols (o : LOp) (p : Pass) (r : LaneRow) (f : Pass → List SVal → Nat → TR)
    (sp : Pass → List SVal → Option (Shape × Shape)) : Cols :=
  laneCols o p (p.svals r.srcs) f sp (p.ex == p.g.active) (laneResults o p (p.svals r.srcs) f p.ex)

theorem goesTo_group (s : State) (p : Pass) (i : Instr) (g : Group) (b : BRes) (dest : Nat → DWord) :
    ∃ h, (s.goesTo p i g b dest).group? p.core p.gid = some h ∧ h.regs = g.regs := by
  unfold State.goesTo
  split
  · exact ⟨_, group?_setGroup .., rfl⟩
  · exact ⟨_, (group?_freeLane ..).trans (group?_setGroup ..), rfl⟩

theorem reg_congr {g h : Group} (e : h.regs = g.regs) (n : Nat) : h.reg n = g.reg n := by rw [Group.reg, Group.reg, e]

theorem setReg_reg {g : Group} {n : Nat} (h : n < g.regs.length) (x : Reg) : (g.setReg n x).reg n = x :=
  listMod_getD_self _ _ _ _ h

theorem setReg_reg_ne {g : Group} {n m : Nat} (h : m ≠ n) (x : Reg) : (g.setReg n x).reg m = g.reg m :=
  listMod_getD_ne _ _ _ _ _ h

/-- The destination registers of a form after its write. -/
theorem putG_reg {o : LOp} {g : Group} {n : BitVec 6} {w : Bool} (hd : o.dst = .v (.v n) w) (hn : o.nw = false)
    (ok : Mask) (full : Bool) (lo hi : Shape) (sp : Option (Shape × Shape)) :
    (n.toNat < g.regs.length → (o.putG g ok full lo hi sp).reg n.toNat = (g.reg n.toNat).write o.u full ok (sp.map (·.1)) lo.val) ∧
    (w = true → n.toNat + 1 < g.regs.length →
      (o.putG g ok full lo hi sp).reg (n.toNat + 1) = (g.reg (n.toNat + 1)).write o.u full ok (sp.map (·.2)) hi.val) := by
  unfold LOp.putG
  rw [hd, hn]
  simp only [Bool.false_eq_true, if_false]
  have hne : n.toNat ≠ n.toNat + 1 := by omega
  constructor
  · intro h
    split
    · rw [setReg_reg_ne hne, setReg_reg h]
    · rw [setReg_reg h]
  · intro hw h
    rw [if_pos hw, setReg_reg (by simpa [Group.setReg] using h), setReg_reg_ne hne.symm]

/-- What a pass that completes leaves in its destination registers. -/
structure Written (p : Pass) (r : LaneRow) (c : Cols) (g : Group) : Prop where
  low : ∀ n w, r.dst = .v (.v n) w → r.nw = false → n.toNat < p.g.regs.length →
    g.reg n.toNat = (p.g.reg n.toNat).write r.u (p.ex == p.g.active) p.ex (c.sp.map (·.1)) c.lo.val
  high : ∀ n, r.dst = .v (.v n) true → r.nw = false → n.toNat + 1 < p.g.regs.length →
    g.reg (n.toNat + 1) = (p.g.reg (n.toNat + 1)).write r.u (p.ex == p.g.active) p.ex (c.sp.map (·.2)) c.hi.val

section
variable {s : State} {p : Pass} {i : Instr} {r : LaneRow} {o : LOp} {f : Pass → List SVal → Nat → TR}
  {sp : Pass → List SVal → Option (Shape × Shape)} {post : Pass → List (Nat × TR) → State → State}

/-- A pass that completes, whose further effect is on its group and leaves the registers alone. -/
theorem readyPass_post (F : LaneForm s i r o f sp post) (hp : s.pass? = some p) (h : laneReady s p r = true)
    (hpost : ∀ g : Group, g.ready p → ∃ g', post p (laneResults o p (p.svals r.srcs) f p.ex) (s.setGroup p.core p.gid g)
      = s.setGroup p.core p.gid g' ∧ g'.ready p ∧ g'.regs = g.regs) :
    ∃ t g, Machine.exec i s = .next t ∧ t.group? p.core p.gid = some g ∧ Written p r (o.wholeCols p r f sp) g := by
  obtain ⟨ho, hc, _, hue, _, ht⟩ := laneReady_iff h
  obtain ⟨hg, hcl, _⟩ := pass_facts hp
  obtain ⟨c1, c2, _⟩ := F.agrees.chans hc
  have hf : ∀ t ∈ slotsOf p.ex, (f p (p.svals r.srcs) (r.from_ p t)).fault = none
      ∧ p.g.fpeOf (f p (p.svals r.srcs) (r.from_ p t)).ex = false := fun t hst => by
    obtain ⟨hfault, hex⟩ := F.thread p _ _ (svals_ue hue) (ht t hst).1
    exact ⟨hfault, by rw [hex]; exact (ht t hst).2⟩
  have hpop : s.popAll p o = s := by simp [State.popAll, LOp.pops, c1]
  have hx : Machine.exec i s = .next _ := F.exec.trans
    (congrArg _ (laneOp_ready f sp post hp F.agrees (LOp.free_plain s p F.plain.1 F.plain.2) h hf))
  change Machine.exec i s = .next ((s.laneEffect o p p.ex (p.ex == p.g.active) _ (o.wholeCols p r f sp) post).passEnd
    p.core p.gid _ _ p.ex [] (laneLatch o p (p.svals r.srcs) p.ex (o.wholeCols p r f sp)) _) at hx
  generalize o.wholeCols p r f sp = c at hx ⊢
  obtain ⟨fs, hfold, _⟩ := orFsr_fold (laneResults o p (p.svals r.srcs) f p.ex) (o.putG p.g p.ex (p.ex == p.g.active) c.lo c.hi c.sp)
  obtain ⟨q1, q2, q3, q4, q5, q6⟩ := putG_same o p.g p.ex (p.ex == p.g.active) c.lo c.hi c.sp
  have hrdy : ({ o.putG p.g p.ex (p.ex == p.g.active) c.lo c.hi c.sp with fsr := fs } : Group).ready p :=
    (ready_self hp ho).same q1 q2 q4 q5 q6
  obtain ⟨G, hG, hGr, hregs⟩ := hpost _ hrdy
  rw [State.laneEffect, hpop, writeDst_mod o hg c2, hfold, hG, F.instr, passEnd_of _ _ _ _ (group?_setGroup ..) hGr ho,
    goesTo_setGroup] at hx
  obtain ⟨g, hgrp, hr⟩ := goesTo_group s p i G (laneLatch o p (p.svals r.srcs) p.ex c) fun _ => p.cl.after (lenOf i)
  refine ⟨_, g, hx, hgrp, ?_, ?_⟩
  · intro n w hd hn hlt
    rw [reg_congr (hr.trans hregs), ← F.agrees.u]
    exact (putG_reg (F.agrees.dst.trans hd) (F.agrees.nw.trans hn) ..).1 hlt
  · intro n hd hn hlt
    rw [reg_congr (hr.trans hregs), ← F.agrees.u]
    exact (putG_reg (F.agrees.dst.trans hd) (F.agrees.nw.trans hn) ..).2 rfl hlt
end

section
variable {s : State} {p : Pass} {i : Instr} {r : LaneRow} {o : LOp} {f : Pass → List SVal → Nat → TR}
  {sp : Pass → List SVal → Option (Shape × Shape)}

theorem readyPass_reg (F : LaneForm s i r o f sp) (hp : s.pass? = some p) (h : laneReady s p r = true) :
    ∃ t g, Machine.exec i s = .next t ∧ t.group? p.core p.gid = some g ∧ Written p r (o.wholeCols p r f sp) g :=
  readyPass_post F hp h fun g hg => ⟨g, rfl, hg, rfl⟩

/-! ## The shape of what is written -/

theorem wholeCols_sp (ha : o.agrees r) :
    (o.wholeCols p r f sp).sp = if r.u = false ∧ p.ex = p.g.active then sp p (p.svals r.srcs) else none := by
  unfold LOp.wholeCols laneCols
  rw [ha.u]
  cases hu : r.u with
  | true => simp
  | false =>
    by_cases hf : p.ex = p.g.active
    · simp only [hf, beq_self_eq_true, Bool.false_eq_true, if_false, if_true, and_self]
      split <;> simp_all
    · have hb : (p.ex == p.g.active) = false := by simpa using hf
      simp [hb, hf]

/-- The shapes a register may take after a pass whose own row of 03 R92 is `sp`: uniform when uniform-encoded, that
row's when every active thread executes, general else. -/
structure Tagged (p : Pass) (u : Bool) (sp : Option Shape) (x : Shape) : Prop where
  uniform : u = true → ∃ w, x = .uniform w
  whole : u = false → p.ex = p.g.active → ∀ a, sp = some a → x = a
  general : u = false → p.ex ≠ p.g.active ∨ sp = none → x.tag = 2

theorem write_tagged (old : Reg) {u : Bool} {sp sp' : Option Shape} (val : Nat → Word)
    (hsp : sp' = if u = false ∧ p.ex = p.g.active then sp else none) :
    Tagged p u sp (old.write u (p.ex == p.g.active) p.ex sp' val).shape := by
  subst hsp
  unfold Reg.write
  cases u with
  | true => exact ⟨fun _ => ⟨_, rfl⟩, nofun, nofun⟩
  | false =>
    refine ⟨nofun, fun _ hf a ha => ?_, fun _ hg => ?_⟩
    · simp [hf, ha]
    · have hn : (if false = false ∧ p.ex = p.g.active then sp else none) = none := by
        rcases hg with hg | hg <;> simp [hg]
      rw [hn]
      simp [column, Shape.tag]

/-- The tags that `Written` gives: of the register, and of the high one of a pair. -/
theorem Written.tagged {g : Group} (h : Written p r (o.wholeCols p r f sp) g) (ha : o.agrees r) (hn : r.nw = false) :
    (∀ n w, r.dst = .v (.v n) w → n.toNat < p.g.regs.length → Tagged p r.u ((sp p (p.svals r.srcs)).map (·.1)) (g.reg n.toNat).shape) ∧
    (∀ n, r.dst = .v (.v n) true → n.toNat + 1 < p.g.regs.length →
      Tagged p r.u ((sp p (p.svals r.srcs)).map (·.2)) (g.reg (n.toNat + 1)).shape) := by
  refine ⟨fun n w hd hlt => ?_, fun n hd hlt => ?_⟩
  · rw [h.low n w hd hn hlt, wholeCols_sp ha]
    exact write_tagged _ _ (by split <;> rfl)
  · rw [h.high n hd hn hlt, wholeCols_sp ha]
    exact write_tagged _ _ (by split <;> rfl)

variable {n : BitVec 6} {w : Bool}

/-- The register of a pass that completes, with its tag. -/
theorem readyPass_tagged (F : LaneForm s i r o f sp) (hp : s.pass? = some p) (h : laneReady s p r = true) (hn : r.nw = false)
    (hd : r.dst = .v (.v n) w) (hlt : n.toNat < p.g.regs.length) :
    ∃ t g, Machine.exec i s = .next t ∧ t.group? p.core p.gid = some g ∧
      Tagged p r.u ((sp p (p.svals r.srcs)).map (·.1)) (g.reg n.toNat).shape := by
  obtain ⟨t, g, hx, hg, hw⟩ := readyPass_reg F hp h
  exact ⟨t, g, hx, hg, (hw.tagged F.agrees hn).1 n w hd hlt⟩

/-- A pass of every active thread stores the shape of its row of 03 R92. -/
theorem readyPass_whole (F : LaneForm s i r o f sp) (hp : s.pass? = some p) (h : laneReady s p r = true) (hn : r.nw = false)
    (hd : r.dst = .v (.v n) w) (hlt : n.toNat < p.g.regs.length) (hu : r.u = false) (hact : p.ex = p.g.active) {a b : Shape}
    (hsp : sp p (p.svals r.srcs) = some (a, b)) :
    ∃ t g, Machine.exec i s = .next t ∧ t.group? p.core p.gid = some g ∧ (g.reg n.toNat).shape = a := by
  obtain ⟨t, g, hx, hg, ht⟩ := readyPass_tagged F hp h hn hd hlt
  exact ⟨t, g, hx, hg, ht.whole hu hact a (by rw [hsp]; rfl)⟩

/-- A pass without such a row stores a general column. -/
theorem readyPass_general (F : LaneForm s i r o f sp) (hp : s.pass? = some p) (h : laneReady s p r = true) (hn : r.nw = false)
    (hd : r.dst = .v (.v n) w) (hlt : n.toNat < p.g.regs.length) (hu : r.u = false) (hsp : sp p (p.svals r.srcs) = none) :
    ∃ t g, Machine.exec i s = .next t ∧ t.group? p.core p.gid = some g ∧ (g.reg n.toNat).shape.tag = 2 := by
  obtain ⟨t, g, hx, hg, ht⟩ := readyPass_tagged F hp h hn hd hlt
  exact ⟨t, g, hx, hg, ht.general hu (.inr (by rw [hsp]; rfl))⟩
end

/-- What holds of the one end of a step holds of each account of it. -/
theorem of_same_end {i : Instr} {s t : State} {c gid : Nat} {g : Group} {P : Group → Prop} (hx : exec i s = .next t)
    (hg : t.group? c gid = some g) (h : ∃ t g, exec i s = .next t ∧ t.group? c gid = some g ∧ P g) : P g := by
  obtain ⟨t', g', hx', hg', hP⟩ := h
  cases hx.symm.trans hx'
  cases hg.symm.trans hg'
  exact hP

end Sys2Proof.Machine

namespace Sys2Proof.Machine

/-! ## The forms of the instructions -/

section
variable (s : State)

theorem form_iadd (r : R3) (x : Bool) : LaneForm s (.iadd r x) (row3 r fun a b => if x then clampS (a.toInt + b.toInt) else a + b)
    (op3 (.iadd r x) r) (w2 fun a b => if x then sat32 (a.toInt + b.toInt) else a + b) (addForm (· + ·) x) :=
  ⟨rfl, rfl, op3_agrees .., ⟨rfl, rfl⟩, fun _ _ _ _ _ => ⟨rfl, rfl⟩⟩

theorem form_isub (r : R3) (x : Bool) : LaneForm s (.isub r x) (row3 r fun a b => if x then clampS (a.toInt - b.toInt) else a - b)
    (op3 (.isub r x) r) (w2 fun a b => if x then sat32 (a.toInt - b.toInt) else a - b) (addForm (· - ·) x) :=
  ⟨rfl, rfl, op3_agrees .., ⟨rfl, rfl⟩, fun _ _ _ _ _ => ⟨rfl, rfl⟩⟩

theorem form_imul (r : R3) : LaneForm s (.imul r) (row3 r fun a b => BitVec.ofNat 32 (a.toNat * b.toNat))
    (op3 (.imul r) r) (w2 (· * ·)) mulForm :=
  ⟨rfl, rfl, op3_agrees .., ⟨rfl, rfl⟩, fun _ _ _ _ _ => ⟨rfl, rfl⟩⟩

/-- The row of SHL's results (17 R442). -/
def shlRow (r : R3) (x : Bool) : LaneRow := row3 r fun a n =>
  if x then (if a = 0 then 0 else if 32 ≤ n.toNat then (if a.toInt < 0 then 0x80000000 else 0x7FFFFFFF) else clampS (a.toInt * 2 ^ n.toNat))
  else if 32 ≤ n.toNat then 0 else a <<< n.toNat

theorem form_shl (r : R3) (x : Bool) : LaneForm s (.shl r x) (shlRow r x)
    (op3 (.shl r x) r) (w2 fun a n => if x then shlSat a n else shlW a n) (shlForm x) :=
  ⟨rfl, rfl, op3_agrees .., ⟨rfl, rfl⟩, fun _ _ _ _ _ => ⟨rfl, rfl⟩⟩

/-- The integer instructions keep a shape in IADD, ISUB and IMUL only (03 R92). -/
theorem form_int {i : Instr} {r : LaneRow} (h : intRow i = some r) : ∃ o f sp, LaneForm s i r o f sp ∧
    ((∀ q, i ≠ .iadd q false ∧ i ≠ .isub q false ∧ i ≠ .imul q) → ∀ p vs, sp p vs = none) := by
  unfold intRow at h
  split at h
  case h_1 q x =>
    cases h
    refine ⟨_, _, _, form_iadd s q x, fun hne _ _ => ?_⟩
    cases x with
    | true => rfl
    | false => exact absurd rfl (hne q).1
  case h_2 q x =>
    cases h
    refine ⟨_, _, _, form_isub s q x, fun hne _ _ => ?_⟩
    cases x with
    | true => rfl
    | false => exact absurd rfl (hne q).2.1
  case h_3 q =>
    cases h
    exact ⟨_, _, _, form_imul s q, fun hne => absurd rfl (hne q).2.2⟩
  case h_5 q x =>
    cases x <;> cases h
    all_goals exact ⟨_, _, _, ⟨rfl, rfl, ⟨rfl, rfl, rfl, rfl, rfl, rfl⟩, ⟨rfl, rfl⟩, fun _ _ _ _ _ => ⟨rfl, rfl⟩⟩, fun _ _ _ => rfl⟩
  case h_10 => cases h
  all_goals
    cases h
    exact ⟨_, _, _, ⟨rfl, rfl, ⟨rfl, rfl, rfl, rfl, rfl, rfl⟩, ⟨rfl, rfl⟩, fun _ _ _ _ _ => ⟨rfl, rfl⟩⟩, fun _ _ _ => rfl⟩

/-- The bit instructions keep a shape in SHL only. -/
theorem form_bit {i : Instr} {r : LaneRow} (h : bitRow i = some r) : ∃ o f sp, LaneForm s i r o f sp ∧
    ((∀ q, i ≠ .shl q false) → ∀ p vs, sp p vs = none) := by
  unfold bitRow at h
  split at h
  case h_5 q x =>
    cases h
    refine ⟨_, _, _, form_shl s q x, fun hne _ _ => ?_⟩
    cases x with
    | true => rfl
    | false => exact absurd rfl (hne q)
  case h_12 q x =>
    cases x <;> cases h
    all_goals exact ⟨_, _, _, ⟨rfl, rfl, ⟨rfl, rfl, rfl, rfl, rfl, rfl⟩, ⟨rfl, rfl⟩, fun _ _ _ _ _ => ⟨rfl, rfl⟩⟩, fun _ _ _ => rfl⟩
  case h_14 => cases h
  all_goals
    cases h
    exact ⟨_, _, _, ⟨rfl, rfl, ⟨rfl, rfl, rfl, rfl, rfl, rfl⟩, ⟨rfl, rfl⟩, fun _ _ _ _ _ => ⟨rfl, rfl⟩⟩, fun _ _ _ => rfl⟩

/-- The rounding mode that FRND's B field selects (15 R389). -/
theorem frndMode_eq (m : RM) (sub : BitVec 7) :
    (match sub.toNat with | 0 => m | 1 => .rne | 2 => .rz | 3 => .rd | _ => .ru : RM)
      = if sub = 0 then m else if sub = 1 then .rne else if sub = 2 then .rz else if sub = 3 then .rd else .ru := by
  simp only [← BitVec.toNat_inj]
  split <;> simp_all

/-- The class bit that FCLS's B field selects (15 R384). -/
theorem fclsBit_eq (sub : BitVec 7) (a : Nat) :
    (match sub.toNat with | 0 => NF.f32.classBit a | 1 => NF.f16.classBit (a % 2 ^ 16) | _ => NF.bf16.classBit (a % 2 ^ 16))
      = if sub = 0 then NF.f32.classBit a else if sub = 1 then NF.f16.classBit (a % 2 ^ 16) else NF.bf16.classBit (a % 2 ^ 16) := by
  simp only [← BitVec.toNat_inj]
  split <;> simp_all

/-- The FP32 rows meet no fault of their own and read under R91 when uniform-encoded only. -/
theorem floatRow_plain {i : Instr} {r : LaneRow} (h : floatRow i = some r) : r.forceUni = false ∧ ∀ p vs t, r.good p vs t = true := by
  unfold floatRow at h
  split at h
  case h_19 => cases h
  all_goals
    cases h
    exact ⟨rfl, fun _ _ _ => rfl⟩

/-- An FP32 instruction keeps no shape, and its results are its row's. -/
theorem form_float {i : Instr} {r : LaneRow} (h : floatRow i = some r) : ∃ o f, LaneForm s i r o f (fun _ _ => none) ∧
    o.all = false ∧ ∀ p vs t, (f p vs t).w = r.val p vs t := by
  unfold floatRow at h
  split at h
  case h_19 => cases h
  case h_17 q sub =>
    cases h
    refine ⟨_, _, ⟨rfl, rfl, ⟨rfl, rfl, rfl, rfl, rfl, rfl⟩, ⟨rfl, rfl⟩, fun p vs t _ _ => ⟨rfl, ?_⟩⟩, rfl, fun p vs t => ?_⟩
    · exact congrArg (fun m => (frndEval m p.g.ftz ((sv vs 0).w t).toNat).2) (frndMode_eq p.g.rm sub)
    · exact congrArg (fun m => BitVec.ofNat 64 (frndEval m p.g.ftz ((sv vs 0).w t).toNat).1) (frndMode_eq p.g.rm sub)
  case h_18 q sub =>
    cases h
    refine ⟨_, _, ⟨rfl, rfl, op2_agrees .., ⟨rfl, rfl⟩, fun _ _ _ _ _ => ⟨rfl, rfl⟩⟩, rfl, fun p vs t => ?_⟩
    have hbit : ∀ c, 1#32 <<< c = BitVec.twoPow 32 c := fun c => (BitVec.twoPow_eq ..).symm
    exact congrArg (BitVec.setWidth 64) ((hbit _).trans (congrArg (BitVec.twoPow 32) (fclsBit_eq sub ((sv vs 0).w t).toNat)))
  all_goals
    cases h
    exact ⟨_, _, ⟨rfl, rfl, ⟨rfl, rfl, rfl, rfl, rfl, rfl⟩, ⟨rfl, rfl⟩, fun _ _ _ _ _ => ⟨rfl, rfl⟩⟩, rfl, fun _ _ _ => rfl⟩

/-- A packed instruction keeps no shape. -/
theorem form_packed {i : Instr} {r : LaneRow} (h : packedRow i = some r) : ∃ o f, LaneForm s i r o f fun _ _ => none := by
  unfold packedRow at h
  split at h
  case h_6 => cases h
  all_goals
    cases h
    exact ⟨_, _, rfl, rfl, ⟨rfl, rfl, rfl, rfl, rfl, rfl⟩, ⟨rfl, rfl⟩, fun _ _ _ _ _ => ⟨rfl, rfl⟩⟩

/-- A compare or predicate instruction keeps no shape. -/
theorem form_test {i : Instr} {r : LaneRow} (h : testRow i = some r) : ∃ o f, LaneForm s i r o f fun _ _ => none := by
  unfold testRow at h
  split at h
  case h_7 => cases h
  all_goals
    cases h
    exact ⟨_, _, rfl, rfl, ⟨rfl, rfl, rfl, rfl, rfl, rfl⟩, ⟨rfl, rfl⟩, fun _ _ _ _ _ => ⟨rfl, rfl⟩⟩
end

end Sys2Proof.Machine

namespace Sys2Proof.Machine

/-! ## Cross-thread instructions and moves -/

theorem sv_ue {vs : List SVal} (h : ∀ v ∈ vs, v.ue = 0#32) (n : Nat) : (sv vs n).ue = 0#32 := by
  unfold sv
  rw [List.getD_eq_getElem?_getD]
  cases hn : vs[n]? with
  | none => rfl
  | some v => exact h v (List.mem_of_getElem? hn)

theorem fromSlot_clean {v : SVal} (h : v.ue = 0#32) (i : Nat) : fromSlot v i = .ofWord (v.w i) := by simp [fromSlot, h]

/-- A shuffle of correctable words meets no fault and no exception. -/
theorem shuffle_clean (pick : Pass → Nat → Nat → Option Nat) {p : Pass} {vs : List SVal} (h : ∀ v ∈ vs, v.ue = 0#32) (t : Nat) :
    (shuffle pick p vs t).fault = none ∧ (shuffle pick p vs t).ex = 0 := by
  simp [shuffle, sv_ue h, fromSlot_clean (sv_ue h 0), TR.ofWord]

section
variable (s : State)

theorem form_redx (nw : Bool) (d : Dst) (a : Src) (stp : BitVec 4) {r : LaneRow} (h : crossRow (.redx nw d a stp) = some r) :
    LaneForm s (.redx nw d a stp) r (opX (.redx nw d a stp) nw d [a]) (redxVal stp.toNat) (tileForm (redxVal stp.toNat)) := by
  cases h
  exact ⟨rfl, rfl, ⟨rfl, rfl, rfl, rfl, rfl, rfl⟩, ⟨rfl, rfl⟩, fun _ _ _ _ _ => ⟨rfl, rfl⟩⟩

theorem form_voteReg (nw : Bool) (d : Dst) (pa : BitVec 3) (mode : BitVec 2) {r : LaneRow} (h : crossRow (.vote nw (.reg d) pa mode) = some r) :
    LaneForm s (.vote nw (.reg d) pa mode) r { i := .vote nw (.reg d) pa mode, nw, dst := .v d false, all := true }
      (voteVal pa.toNat mode.toNat) (tileForm (voteVal pa.toNat mode.toNat)) := by
  cases h
  refine ⟨rfl, rfl, ⟨rfl, rfl, rfl, rfl, rfl, rfl⟩, ⟨rfl, rfl⟩, fun p vs t _ _ => ?_⟩
  unfold voteVal
  dsimp only
  split <;> exact ⟨rfl, rfl⟩

theorem form_votePred (nw : Bool) (q : BitVec 3) (pa : BitVec 3) (mode : BitVec 2) {r : LaneRow} (h : crossRow (.vote nw (.pred q) pa mode) = some r) :
    LaneForm s (.vote nw (.pred q) pa mode) r { i := .vote nw (.pred q) pa mode, dst := .pred q, all := true }
      (voteVal pa.toNat mode.toNat) (fun _ _ => none) := by
  cases h
  refine ⟨rfl, rfl, ⟨rfl, rfl, rfl, rfl, rfl, rfl⟩, ⟨rfl, rfl⟩, fun p vs t _ _ => ?_⟩
  unfold voteVal
  dsimp only
  split <;> exact ⟨rfl, rfl⟩

/-- REDX or VOTE, the cross-thread instructions with a row of 03 R92. -/
def Reduces (i : Instr) : Prop := (∃ nw d a stp, i = .redx nw d a stp) ∨ ∃ nw d pa mode, i = .vote nw d pa mode

theorem tileForm_some {val : Pass → List SVal → Nat → TR} {p : Pass} (h : p.g.tile = 32) (vs : List SVal) :
    ∃ w, tileForm val p vs = some (.uniform w, .uniform 0) := ⟨_, if_pos h⟩

theorem tileForm_none {val : Pass → List SVal → Nat → TR} {p : Pass} (h : p.g.tile ≠ 32) (vs : List SVal) : tileForm val p vs = none :=
  if_neg h

theorem crossRow_u {i : Instr} {r : LaneRow} (h : crossRow i = some r) : r.u = false := by
  unfold crossRow at h
  split at h
  case h_10 => cases h
  all_goals
    cases h
    rfl

/-- The cross-thread instructions keep a shape in REDX and VOTE with TILE 32 only. -/
theorem form_cross {i : Instr} {r : LaneRow} (h : crossRow i = some r) : ∃ o f sp, LaneForm s i r o f sp ∧
    (∀ p vs, p.g.tile ≠ 32 ∨ ¬ Reduces i → sp p vs = none) ∧
    (∀ p vs, p.g.tile = 32 → Reduces i → (∃ d, r.dst = .v d false) → ∃ w, sp p vs = some (.uniform w, .uniform 0)) := by
  have hc := h
  unfold crossRow at h
  split at h
  case h_1 | h_2 | h_3 =>
    cases h
    exact ⟨_, _, _, ⟨rfl, rfl, ⟨rfl, rfl, rfl, rfl, rfl, rfl⟩, ⟨rfl, rfl⟩, fun _ _ t hv _ => shuffle_clean _ hv t⟩, fun _ _ _ => rfl,
      fun _ _ _ hr _ => by simp [Reduces] at hr⟩
  case h_4 =>
    cases h
    refine ⟨_, _, _, ⟨rfl, rfl, ⟨rfl, rfl, rfl, rfl, rfl, rfl⟩, ⟨rfl, rfl⟩, fun p vs t _ _ => ⟨rfl, ?_⟩⟩, fun _ _ _ => rfl,
      fun _ _ _ hr _ => by simp [Reduces] at hr⟩
    dsimp only [Pass.running]
    cases (prefixes p.g _ (sv vs 0) (p.tileOf t)).find? fun x => x.1 == t <;> rfl
  case h_5 nw d a stp =>
    exact ⟨_, _, _, form_redx s nw d a stp hc, fun p vs hn => tileForm_none (hn.resolve_right fun k => k (.inl ⟨_, _, _, _, rfl⟩)) vs,
      fun p vs ht _ _ => tileForm_some ht vs⟩
  case h_6 nw d pa mode =>
    cases d with
    | reg d =>
      exact ⟨_, _, _, form_voteReg s nw d pa mode hc, fun p vs hn => tileForm_none (hn.resolve_right fun k => k (.inr ⟨_, _, _, _, rfl⟩)) vs,
        fun p vs ht _ _ => tileForm_some ht vs⟩
    | pred q =>
      refine ⟨_, _, _, form_votePred s nw q pa mode hc, fun _ _ _ => rfl, fun _ _ _ _ hd => ?_⟩
      cases h
      obtain ⟨d, hd⟩ := hd
      cases hd
  case h_9 =>
    cases h
    refine ⟨_, _, _, ⟨rfl, rfl, ⟨rfl, rfl, rfl, rfl, rfl, rfl⟩, ⟨rfl, rfl⟩, fun p vs t _ _ => ?_⟩, fun _ _ _ => rfl,
      fun _ _ _ hr _ => by simp [Reduces] at hr⟩
    split <;> exact ⟨rfl, rfl⟩
  case h_10 => cases h
  all_goals
    cases h
    exact ⟨_, _, _, ⟨rfl, rfl, ⟨rfl, rfl, rfl, rfl, rfl, rfl⟩, ⟨rfl, rfl⟩, fun _ _ _ _ _ => ⟨rfl, rfl⟩⟩, fun _ _ _ => rfl,
      fun _ _ _ hr _ => by simp [Reduces] at hr⟩
end

end Sys2Proof.Machine

namespace Sys2Proof.Machine

/-! ## Shapes of two operands (03 R92) -/

section
variable {p : Pass} {a b : BitVec 6}

theorem Shape.parts_none_iff {sh : Shape} : sh.parts = none ↔ sh.tag = 2 := by cases sh <;> simp [Shape.parts, Shape.tag]

theorem src_form_none (h : (p.g.reg a.toNat).shape.parts = none) : (p.src (.v a) false).form = none := by
  unfold Pass.src Group.srcReg SVal.form SVal.ofShape
  cases hs : (p.g.reg a.toNat).shape with
  | uniform w | affine w d => simp [hs, Shape.parts] at h
  | general ws => simp [hs]

theorem src_form_some {x : Word × Word} (h : (p.g.reg a.toNat).shape.parts = some x) :
    (p.src (.v a) false).form = some (p.g.reg a.toNat).shape := by
  unfold Pass.src Group.srcReg SVal.form SVal.ofShape
  cases hs : (p.g.reg a.toNat).shape with
  | uniform w | affine w d => simp [hs]
  | general ws => simp [hs, Shape.parts] at h

theorem joinForm_parts (f : Word → Word → Word) {A B : Shape} {x d y e : Word} (hA : A.parts = some (x, d)) (hB : B.parts = some (y, e)) :
    joinForm f A B = A.joined B (f x y) (f d e) := by
  cases A <;> cases B <;> simp_all [Shape.parts, joinForm, Shape.joined, Shape.tag]

theorem addForm_parts (f : Word → Word → Word) {x d y e : Word} (hA : (p.g.reg a.toNat).shape.parts = some (x, d))
    (hB : (p.g.reg b.toNat).shape.parts = some (y, e)) :
    addForm f false p [p.src (.v a) false, p.src (.v b) false]
      = some ((p.g.reg a.toNat).shape.joined (p.g.reg b.toNat).shape (f x y) (f d e), .uniform 0) := by
  simp [addForm, sv, src_form_some hA, src_form_some hB, joinForm_parts f hA hB]

theorem addForm_none (f : Word → Word → Word) (h : (p.g.reg a.toNat).shape.parts = none ∨ (p.g.reg b.toNat).shape.parts = none) :
    addForm f false p [p.src (.v a) false, p.src (.v b) false] = none := by
  rcases h with h | h
  · simp [addForm, sv, src_form_none h]
  · simp [addForm, sv, src_form_none h]

theorem mulForm_uniform_right {x d y e : Word} (hA : (p.g.reg a.toNat).shape.parts = some (x, d))
    (hB : (p.g.reg b.toNat).shape.parts = some (y, e)) (ht : (p.g.reg b.toNat).shape.tag = 0) :
    mulForm p [p.src (.v a) false, p.src (.v b) false]
      = some ((p.g.reg a.toNat).shape.joined (p.g.reg a.toNat).shape (x * y) (d * y), .uniform 0) := by
  have h1 := src_form_some hA
  have h2 := src_form_some hB
  cases hb : (p.g.reg b.toNat).shape <;> simp [hb, Shape.tag] at ht
  cases ha : (p.g.reg a.toNat).shape <;> simp_all [mulForm, sv, Shape.parts, Shape.joined, Shape.tag]

theorem mulForm_uniform_left {x d y e : Word} (hA : (p.g.reg a.toNat).shape.parts = some (x, d))
    (hB : (p.g.reg b.toNat).shape.parts = some (y, e)) (ht : (p.g.reg a.toNat).shape.tag = 0) :
    mulForm p [p.src (.v a) false, p.src (.v b) false]
      = some ((p.g.reg b.toNat).shape.joined (p.g.reg b.toNat).shape (x * y) (e * x), .uniform 0) := by
  have h1 := src_form_some hA
  have h2 := src_form_some hB
  cases ha : (p.g.reg a.toNat).shape <;> simp [ha, Shape.tag] at ht
  cases hb : (p.g.reg b.toNat).shape <;> simp_all [mulForm, sv, Shape.parts, Shape.joined, Shape.tag, mul_comm]

theorem mulForm_none (h : (p.g.reg a.toNat).shape.parts = none ∨ (p.g.reg b.toNat).shape.parts = none
      ∨ ((p.g.reg a.toNat).shape.tag = 1 ∧ (p.g.reg b.toNat).shape.tag = 1)) :
    mulForm p [p.src (.v a) false, p.src (.v b) false] = none := by
  rcases h with h | h | ⟨ha, hb⟩
  · simp [mulForm, sv, src_form_none h]
  · simp [mulForm, sv, src_form_none h]
  · cases hA : (p.g.reg a.toNat).shape <;> simp [hA, Shape.tag] at ha
    cases hB : (p.g.reg b.toNat).shape <;> simp [hB, Shape.tag] at hb
    have h1 := src_form_some (p := p) (a := a) (by rw [hA]; rfl)
    have h2 := src_form_some (p := p) (a := b) (by rw [hB]; rfl)
    simp [mulForm, sv, h1, h2, hA, hB]

theorem shlForm_uniform {x d y e : Word} (hA : (p.g.reg a.toNat).shape.parts = some (x, d))
    (hB : (p.g.reg b.toNat).shape.parts = some (y, e)) (ht : (p.g.reg b.toNat).shape.tag = 0) :
    shlForm false p [p.src (.v a) false, p.src (.v b) false]
      = some ((p.g.reg a.toNat).shape.joined (p.g.reg a.toNat).shape (shlW x y) (shlW d y), .uniform 0) := by
  have h1 := src_form_some hA
  have h2 := src_form_some hB
  cases hb : (p.g.reg b.toNat).shape <;> simp [hb, Shape.tag] at ht
  cases ha : (p.g.reg a.toNat).shape <;> simp_all [shlForm, sv, Shape.parts, Shape.joined, Shape.tag]

theorem shlForm_none (h : (p.g.reg a.toNat).shape.tag = 2 ∨ (p.g.reg b.toNat).shape.tag ≠ 0) :
    shlForm false p [p.src (.v a) false, p.src (.v b) false] = none := by
  rcases h with h | h
  · simp [shlForm, sv, src_form_none (Shape.parts_none_iff.mpr h)]
  · cases hB : (p.g.reg b.toNat).shape with
    | uniform w => simp [hB, Shape.tag] at h
    | affine w d =>
      have h2 := src_form_some (p := p) (a := b) (by rw [hB]; rfl)
      simp [shlForm, sv, h2, hB]
    | general ws =>
      have h2 := src_form_none (p := p) (a := b) (by rw [hB]; rfl)
      simp [shlForm, sv, h2]

theorem shlW_eq (x y : Word) : shlW x y = if 32 ≤ y.toNat then 0 else x <<< y.toNat := by
  by_cases h : y.toNat < 32
  · rw [shlW, if_pos h, if_neg (by omega)]
  · rw [shlW, if_neg h, if_pos (by omega)]
end

end Sys2Proof.Machine

namespace Sys2Proof.Machine

/-! ## The tag of a result (03 R92, R93) -/

section
variable (s : State)

/-- The value of SSINT for a thread (17 R444). -/
def ssintVal : Pass → List SVal → Nat → TR := fun p vs t =>
  .ofWord (match ((p.tileOf t).map fun i => (sv vs 1).w i).findIdx? (· == (sv vs 0).w t) with
    | some j => BitVec.ofNat 32 j
    | none => 0xFFFFFFFF)

/-- A thread with the SSADV that an SSINT writes it. -/
def Thread.advanced (vs : List SVal) (p : Pass) (t : Nat) (x : Thread) : Thread :=
  { x with ssadv := BitVec.ofNat 16 (ssAdv ((p.tileOf t).map fun i => ((sv vs 0).w i).toNat) ((p.tileOf t).map fun i => ((sv vs 1).w i).toNat)) }

theorem form_ssint (nw : Bool) (d : Dst) (a b : Src) :
    LaneForm s (.ssint nw d a b) (ssintRow nw d a b) (opX (.ssint nw d a b) nw d [a, b]) ssintVal (fun _ _ => none)
      fun p rs s0 => rs.foldl (fun s1 x => s1.modGroup p.core p.gid fun g =>
        g.modTh x.1 (Thread.advanced (s.readSrcs p (opX (.ssint nw d a b) nw d [a, b])) p x.1)) s0 :=
  ⟨rfl, rfl, ⟨rfl, rfl, rfl, rfl, rfl, rfl⟩, ⟨rfl, rfl⟩, fun _ _ _ _ _ => ⟨rfl, rfl⟩⟩

theorem form_movx (u nw : Bool) (d : Dst) (a : AReg) {r : LaneRow} (h : moveRow s (.movx u nw d a) = some r) :
    ∃ o f, LaneForm s (.movx u nw d a) r o f fun _ _ => none := by
  cases h
  refine ⟨_, _, rfl, rfl, ⟨rfl, rfl, rfl, rfl, rfl, rfl⟩, ⟨rfl, rfl⟩, fun p vs t _ hg => ?_⟩
  simp only [Bool.and_eq_true, Bool.or_eq_true, decide_eq_true_eq, beq_iff_eq, Bool.not_eq_true'] at hg
  obtain ⟨⟨hi, hue⟩, hu⟩ := hg
  have hu' : (u && !(p.g.reg ((sv vs 0).w t).toNat).shape.isUni) = false := by
    rcases hu with hu | hu <;> simp [hu]
  dsimp only
  rw [if_neg (by omega), hu', hue]
  simp [TR.ofWord]

theorem form_unif (n : BitVec 6) (w : Bool) {r : LaneRow} (h : moveRow s (.unif n w) = some r) :
    ∃ o f sp, LaneForm s (.unif n w) r o f sp ∧ r.u = false ∧ r.nw = false ∧ r.dst = .v (.v n) w ∧
      ∀ p vs, ∃ x y, sp p vs = some (.uniform x, .uniform y) := by
  cases h
  refine ⟨_, _, _, ⟨rfl, rfl, ⟨rfl, rfl, rfl, rfl, rfl, rfl⟩, ⟨rfl, rfl⟩, fun p vs t _ hg => ⟨?_, rfl⟩⟩, rfl, rfl, rfl, fun _ _ => ⟨_, _, rfl⟩⟩
  have hn : p.g.unifCheck n.toNat w = none := by simpa using hg
  simp [hn]

/-- AFF's row (14 R360). -/
def affRow (nw : Bool) (d : Dst) (a b : Src) : LaneRow :=
  { nw, dst := .v d false, srcs := [(a, false), (b, false)], forceUni := true
    val := fun p vs t => ((sv vs 0).w (lowSlot p.ex) + BitVec.ofNat 32 t * (sv vs 1).w (lowSlot p.ex)).setWidth 64 }

theorem form_aff (nw : Bool) (d : Dst) (a b : Src) : ∃ o f, LaneForm s (.aff nw d a b) (affRow nw d a b) o f fun p vs =>
    some (.affine ((sv vs 0).w (lowSlot p.ex)) ((sv vs 1).w (lowSlot p.ex)), .uniform 0) :=
  ⟨_, _, rfl, rfl, ⟨rfl, rfl, rfl, rfl, rfl, rfl⟩, ⟨rfl, rfl⟩, fun _ _ _ _ _ => ⟨rfl, rfl⟩⟩

/-- MOV's row (16 R407). -/
def movRow (r : R2) (w : Bool) : LaneRow :=
  { u := r.u, nw := r.nw, dst := .v r.d w, srcs := [(r.a, w)]
    val := fun _ vs t => if w then (sv vs 0).dw t else ((sv vs 0).w t).setWidth 64 }

theorem form_mov (r : R2) (w : Bool) : ∃ o f, LaneForm s (.mov r w) (movRow r w) o f fun _ vs =>
    some (keepShape (sv vs 0).lo (sv vs 0).tag, keepShape (sv vs 0).hi (sv vs 0).tagHi) :=
  ⟨_, _, rfl, rfl, ⟨rfl, rfl, rfl, rfl, rfl, rfl⟩, ⟨rfl, rfl⟩, fun _ _ _ _ _ => ⟨rfl, rfl⟩⟩
end

/-! ## Changing threads of a completed pass -/

theorem modTh_eq_modThs (g : Group) {t : Nat} (ht : t < 32) (f : Thread → Thread) : g.modTh t f = g.modThs (1#32 <<< t) fun _ => f := by
  have hmod : ∀ (l : List Thread) (t : Nat), listMod l t f = l.mapIdx fun i x => if i = t then f x else x := by
    intro l
    induction l with
    | nil => intro t; rfl
    | cons x r ih =>
      intro t
      cases t with
      | zero =>
        have hid : r.mapIdx (fun _ x => x) = r := List.ext_getElem (by simp) fun _ _ _ => by simp
        simp [listMod, hid]
      | succ t => simp [listMod, ih]
  have hbit : ∀ i, (1#32 <<< t).getLsbD i = decide (i = t) := by
    intro i
    by_cases hi : i < 32
    · rw [oneBit_getLsbD hi]
      simp [eq_comm]
    · rw [BitVec.getLsbD_of_ge _ _ (by omega)]
      simp
      omega
  simp only [Group.modTh, Group.modThs, hmod, hbit, decide_eq_true_eq]

/-- Changes of threads that keep what a pass needs leave its group ready, with its registers. -/
theorem foldl_modTh_ready {s : State} {p : Pass} (F : Nat → Thread → Thread) (hF : ∀ t x, (F t x).st = x.st ∧ (F t x).stepping = x.stepping)
    (l : List (Nat × TR)) (hl : ∀ x ∈ l, x.1 < 32) {g : Group} (hg : g.ready p) :
    ∃ g', l.foldl (fun s x => s.modGroup p.core p.gid fun g => g.modTh x.1 (F x.1)) (s.setGroup p.core p.gid g) = s.setGroup p.core p.gid g'
      ∧ g'.ready p ∧ g'.regs = g.regs := by
  induction l generalizing g with
  | nil => exact ⟨g, rfl, hg, rfl⟩
  | cons x r ih =>
    have hx : (g.modTh x.1 (F x.1)).ready p := by
      rw [modTh_eq_modThs g (hl x List.mem_cons_self)]
      exact hg.threads _ _ (fun _ t => (hF x.1 t).1) fun _ t => (hF x.1 t).2
    obtain ⟨g', h1, h2, h3⟩ := ih (fun y hy => hl y (List.mem_cons_of_mem x hy)) hx
    refine ⟨g', ?_, h2, h3⟩
    rw [List.foldl_cons, modGroup_setGroup]
    exact h1

theorem laneResults_slot {o : LOp} {p : Pass} {vs : List SVal} {f : Pass → List SVal → Nat → TR} {m : Mask} :
    ∀ x ∈ laneResults o p vs f m, x.1 < 32 := by
  intro x hx
  obtain ⟨t, ht, rfl⟩ := List.mem_map.mp hx
  exact (mem_slotsOf.mp ht).1

/-! ## The families -/

/-- An instruction of one of the families has a form. -/
theorem form_family (s : State) {i : Instr} {r : LaneRow}
    (h : intRow i = some r ∨ bitRow i = some r ∨ floatRow i = some r ∨ packedRow i = some r ∨ testRow i = some r ∨ crossRow i = some r) :
    ∃ o f sp, LaneForm s i r o f sp := by
  rcases h with h | h | h | h | h | h
  · obtain ⟨o, f, sp, F, -⟩ := form_int s h
    exact ⟨o, f, sp, F⟩
  · obtain ⟨o, f, sp, F, -⟩ := form_bit s h
    exact ⟨o, f, sp, F⟩
  · obtain ⟨o, f, F, -⟩ := form_float s h
    exact ⟨o, f, _, F⟩
  · obtain ⟨o, f, F⟩ := form_packed s h
    exact ⟨o, f, _, F⟩
  · obtain ⟨o, f, F⟩ := form_test s h
    exact ⟨o, f, _, F⟩
  · obtain ⟨o, f, sp, F, -⟩ := form_cross s h
    exact ⟨o, f, sp, F⟩

section
variable {s : State} {p : Pass} {n : BitVec 6} (hp : s.pass? = some p) (hlen : p.g.regs.length = 64)
include hp hlen

/-- A result without a row of 03 R92 is general. -/
theorem general_result {i : Instr} {r : LaneRow} (hr : laneReady s p r = true) (hd : r.dst = .v (.v n) false) (hn : r.nw = false) (hu : r.u = false)
    (h : (intRow i = some r ∧ (∀ q, i ≠ .iadd q false ∧ i ≠ .isub q false ∧ i ≠ .imul q)) ∨ (bitRow i = some r ∧ (∀ q, i ≠ .shl q false)) ∨
      floatRow i = some r ∨ packedRow i = some r ∨ testRow i = some r ∨ (crossRow i = some r ∧ (p.g.tile ≠ 32 ∨ ¬ Reduces i))) :
    ∃ t g, exec i s = .next t ∧ t.group? p.core p.gid = some g ∧ (g.reg n.toNat).shape.tag = 2 := by
  have hlt := (by omega : n.toNat < p.g.regs.length)
  rcases h with ⟨h, hne⟩ | ⟨h, hne⟩ | h | h | h | ⟨h, hne⟩
  · obtain ⟨o, f, sp, F, hsp⟩ := form_int s h
    exact readyPass_general F hp hr hn hd hlt hu (hsp hne ..)
  · obtain ⟨o, f, sp, F, hsp⟩ := form_bit s h
    exact readyPass_general F hp hr hn hd hlt hu (hsp hne ..)
  · obtain ⟨o, f, F, -⟩ := form_float s h
    exact readyPass_general F hp hr hn hd hlt hu rfl
  · obtain ⟨o, f, F⟩ := form_packed s h
    exact readyPass_general F hp hr hn hd hlt hu rfl
  · obtain ⟨o, f, F⟩ := form_test s h
    exact readyPass_general F hp hr hn hd hlt hu rfl
  · obtain ⟨o, f, sp, F, hsp, -⟩ := form_cross s h
    exact readyPass_general F hp hr hn hd hlt hu (hsp p _ hne)

/-- The reductions of a whole tile of 32 are uniform. -/
theorem reduction_result {i : Instr} {r : LaneRow} (hr : laneReady s p r = true) (hd : r.dst = .v (.v n) false) (hn : r.nw = false)
    (h : crossRow i = some r) (hact : p.ex = p.g.active) (ht : p.g.tile = 32) (hi : Reduces i) :
    ∃ t g, exec i s = .next t ∧ t.group? p.core p.gid = some g ∧ ∃ w, (g.reg n.toNat).shape = .uniform w := by
  obtain ⟨o, f, sp, F, -, hsp⟩ := form_cross s h
  obtain ⟨w, hw⟩ := hsp p (p.svals r.srcs) ht hi ⟨_, hd⟩
  obtain ⟨t, g, hx, hg, hs⟩ := readyPass_whole F hp hr hn hd (by omega) (crossRow_u h) hact hw
  exact ⟨t, g, hx, hg, w, hs⟩
end

/-! ## The obligation -/

section
variable {s : State} {p : Pass} {n : BitVec 6} (hp : s.pass? = some p) (hlen : p.g.regs.length = 64)
include hp hlen

theorem family_tags {i : Instr} {r : LaneRow}
    (h : intRow i = some r ∨ bitRow i = some r ∨ floatRow i = some r ∨ packedRow i = some r ∨ testRow i = some r ∨ crossRow i = some r)
    (hr : laneReady s p r = true) (hd : r.dst = .v (.v n) false) (hn : r.nw = false) :
    ∃ t g, exec i s = .next t ∧ t.group? p.core p.gid = some g ∧
      (r.u = true → ∃ w, (g.reg n.toNat).shape = .uniform w) ∧
      (r.u = false → p.ex ≠ p.g.active → (g.reg n.toNat).shape.tag = 2) ∧
      (r.u = false → (intRow i = some r ∧ (∀ q, i ≠ .iadd q false ∧ i ≠ .isub q false ∧ i ≠ .imul q)) ∨
          (bitRow i = some r ∧ (∀ q, i ≠ .shl q false)) ∨ floatRow i = some r ∨ packedRow i = some r ∨ testRow i = some r ∨
          (crossRow i = some r ∧ (p.g.tile ≠ 32 ∨ ((∀ nw d a stp, i ≠ .redx nw d a stp) ∧ ∀ nw d pa mode, i ≠ .vote nw d pa mode))) →
        (g.reg n.toNat).shape.tag = 2) ∧
      (p.ex = p.g.active → crossRow i = some r → p.g.tile = 32 → Reduces i → ∃ w, (g.reg n.toNat).shape = .uniform w) := by
  obtain ⟨o, f, sp, F⟩ := form_family s h
  obtain ⟨t, g, hx, hg, ht⟩ := readyPass_tagged F hp hr hn hd (by omega)
  refine ⟨t, g, hx, hg, ht.uniform, fun hu hne => ht.general hu (.inl hne), fun hu hfam => ?_, fun hact hc htile hi => ?_⟩
  · refine of_same_end (P := fun g => (g.reg n.toNat).shape.tag = 2) hx hg (general_result hp hlen hr hd hn hu ?_)
    refine hfam.imp_right <| .imp_right <| .imp_right <| .imp_right <| .imp_right <| .imp_right <| .imp_right fun hne => ?_
    rintro (⟨nw, d, a, stp, rfl⟩ | ⟨nw, d, pa, mode, rfl⟩)
    · exact hne.1 _ _ _ _ rfl
    · exact hne.2 _ _ _ _ rfl
  · exact of_same_end (P := fun g => ∃ w, (g.reg n.toNat).shape = .uniform w) hx hg (reduction_result hp hlen hr hd hn hc hact htile hi)

/-- A wide multiply-add stores two general columns. -/
theorem imadWide_tags {r : R3} {q : LaneRow} (h : intRow (.imad r true) = some q) (hr : laneReady s p q = true) (hu : r.u = false)
    (hn : r.nw = false) (hd : r.d = .v n) (hlt : n.toNat < 63) :
    ∃ t g, exec (.imad r true) s = .next t ∧ t.group? p.core p.gid = some g ∧
      (g.reg n.toNat).shape.tag = 2 ∧ (g.reg (n.toNat + 1)).shape.tag = 2 := by
  obtain ⟨o, f, sp, F, hsp⟩ := form_int s h
  have hnone : sp p (p.svals q.srcs) = none := hsp (fun q => by simp) ..
  obtain ⟨hqu, hqn, hqd⟩ : q.u = false ∧ q.nw = false ∧ q.dst = .v (.v n) true := by
    cases h
    exact ⟨hu, hn, by rw [hd]⟩
  obtain ⟨t, g, hx, hg, hw⟩ := readyPass_reg F hp hr
  obtain ⟨hlow, hhigh⟩ := hw.tagged F.agrees hqn
  exact ⟨t, g, hx, hg, (hlow n true hqd (by omega)).general hqu (.inr (by rw [hnone]; rfl)),
    (hhigh n hqd (by omega)).general hqu (.inr (by rw [hnone]; rfl))⟩

theorem ssint_tag (a b : Src) (hr : laneReady s p (ssintRow false (.v n) a b) = true) :
    ∃ t g, exec (.ssint false (.v n) a b) s = .next t ∧ t.group? p.core p.gid = some g ∧ (g.reg n.toNat).shape.tag = 2 := by
  have F := form_ssint s false (.v n) a b
  obtain ⟨t, g, hx, hg, hw⟩ := readyPass_post F hp hr fun g hg =>
    foldl_modTh_ready (Thread.advanced (s.readSrcs p (opX (.ssint false (.v n) a b) false (.v n) [a, b])) p) (fun _ _ => ⟨rfl, rfl⟩) _
      laneResults_slot hg
  exact ⟨t, g, hx, hg, ((hw.tagged F.agrees rfl).1 n false rfl (by omega)).general rfl (.inr rfl)⟩

theorem movx_tag (a : AReg) {r : LaneRow} (h : moveRow s (.movx false false (.v n) a) = some r) (hr : laneReady s p r = true) :
    ∃ t g, exec (.movx false false (.v n) a) s = .next t ∧ t.group? p.core p.gid = some g ∧ (g.reg n.toNat).shape.tag = 2 := by
  obtain ⟨o, f, F⟩ := form_movx s false false (.v n) a h
  cases h
  exact readyPass_general F hp hr rfl rfl (by omega) rfl rfl

theorem unif_tags (w : Bool) {r : LaneRow} (h : moveRow s (.unif n w) = some r) (hr : laneReady s p r = true) (hact : p.ex = p.g.active)
    (hlt : n.toNat + w.toNat < 64) :
    ∃ t g, exec (.unif n w) s = .next t ∧ t.group? p.core p.gid = some g ∧ (g.reg n.toNat).shape.tag = 0 ∧
      (g.reg (n.toNat + w.toNat)).shape.tag = 0 := by
  obtain ⟨o, f, sp, F, hu, hn, hd, hsp⟩ := form_unif s n w h
  obtain ⟨x, y, hxy⟩ := hsp p (p.svals r.srcs)
  obtain ⟨t, g, hx, hg, hw⟩ := readyPass_reg F hp hr
  obtain ⟨hlow, hhigh⟩ := hw.tagged F.agrees hn
  have hlo : (g.reg n.toNat).shape.tag = 0 := by
    rw [(hlow n w hd (by omega)).whole hu hact (.uniform x) (by rw [hxy]; rfl)]
    rfl
  refine ⟨t, g, hx, hg, hlo, ?_⟩
  cases w with
  | false => exact hlo
  | true =>
    have hhi := (hhigh n hd (by simp at hlt; omega)).whole hu hact (.uniform y) (by rw [hxy]; rfl)
    simp only [Bool.toNat_true, hhi]
    rfl
end

/-! A pass of every active thread, on two registers. -/

section
variable {s : State} {p : Pass} {n a b : BitVec 6} (hp : s.pass? = some p) (hlen : p.g.regs.length = 64) (hact : p.ex = p.g.active)
  (hr : laneReady s p (row3 ⟨false, false, .v n, .v a, .v b⟩ fun _ _ => 0) = true)
include hp hlen hact hr

/-- What the pass stores: a column of this shape. -/
def Gives (s : State) (p : Pass) (n : BitVec 6) (i : Instr) (sh : Shape) : Prop :=
  ∃ t g, exec i s = .next t ∧ t.group? p.core p.gid = some g ∧ (g.reg n.toNat).shape = sh

omit hp hlen hact hr in
theorem gives_of_tag {i : Instr} {k : Nat} (h : ∃ t g, exec i s = .next t ∧ t.group? p.core p.gid = some g ∧ (g.reg n.toNat).shape.tag = k) :
    ∃ sh, sh.tag = k ∧ Gives s p n i sh := by
  obtain ⟨t, g, hx, hg, ht⟩ := h
  exact ⟨_, ht, t, g, hx, hg, rfl⟩

/-- With a row of 03 R92 that applies, an instruction on two registers gives that row's shape. -/
theorem gives_row3 {i : Instr} {v : Word → Word → Word} {o : LOp} {f : Pass → List SVal → Nat → TR}
    {sp : Pass → List SVal → Option (Shape × Shape)} (F : LaneForm s i (row3 ⟨false, false, .v n, .v a, .v b⟩ v) o f sp) {x y : Shape}
    (hsp : sp p [p.src (.v a) false, p.src (.v b) false] = some (x, y)) : Gives s p n i x :=
  readyPass_whole F hp hr rfl rfl (by omega) rfl hact hsp

omit hact in
/-- With none, a general column. -/
theorem gives_general_row3 {i : Instr} {v : Word → Word → Word} {o : LOp} {f : Pass → List SVal → Nat → TR}
    {sp : Pass → List SVal → Option (Shape × Shape)} (F : LaneForm s i (row3 ⟨false, false, .v n, .v a, .v b⟩ v) o f sp)
    (hsp : sp p [p.src (.v a) false, p.src (.v b) false] = none) : ∃ sh, sh.tag = 2 ∧ Gives s p n i sh :=
  gives_of_tag (readyPass_general F hp hr rfl rfl (by omega) rfl hsp)

section
variable {x y d e : Word} (hA : (p.g.reg a.toNat).shape.parts = some (x, d)) (hB : (p.g.reg b.toNat).shape.parts = some (y, e))
include hA hB

theorem gives_iadd : Gives s p n (.iadd ⟨false, false, .v n, .v a, .v b⟩ false)
    ((p.g.reg a.toNat).shape.joined (p.g.reg b.toNat).shape (x + y) (d + e)) :=
  gives_row3 hp hlen hact hr (form_iadd s _ false) (addForm_parts _ hA hB)

theorem gives_isub : Gives s p n (.isub ⟨false, false, .v n, .v a, .v b⟩ false)
    ((p.g.reg a.toNat).shape.joined (p.g.reg b.toNat).shape (x - y) (d - e)) :=
  gives_row3 hp hlen hact hr (form_isub s _ false) (addForm_parts _ hA hB)

theorem gives_imul_right (ht : (p.g.reg b.toNat).shape.tag = 0) : Gives s p n (.imul ⟨false, false, .v n, .v a, .v b⟩)
    ((p.g.reg a.toNat).shape.joined (p.g.reg a.toNat).shape (x * y) (d * y)) :=
  gives_row3 hp hlen hact hr (form_imul s _) (mulForm_uniform_right hA hB ht)

theorem gives_imul_left (ht : (p.g.reg a.toNat).shape.tag = 0) : Gives s p n (.imul ⟨false, false, .v n, .v a, .v b⟩)
    ((p.g.reg b.toNat).shape.joined (p.g.reg b.toNat).shape (x * y) (e * x)) :=
  gives_row3 hp hlen hact hr (form_imul s _) (mulForm_uniform_left hA hB ht)

theorem gives_shl (ht : (p.g.reg b.toNat).shape.tag = 0) : Gives s p n (.shl ⟨false, false, .v n, .v a, .v b⟩ false)
    ((p.g.reg a.toNat).shape.joined (p.g.reg a.toNat).shape (if 32 ≤ y.toNat then 0 else x <<< y.toNat)
      (if 32 ≤ y.toNat then 0 else d <<< y.toNat)) := by
  rw [← shlW_eq, ← shlW_eq]
  exact gives_row3 hp hlen hact hr (form_shl s _ false) (shlForm_uniform hA hB ht)
end

omit hact in
theorem gives_general_sum (h : (p.g.reg a.toNat).shape.parts = none ∨ (p.g.reg b.toNat).shape.parts = none) :
    ∀ i ∈ [Instr.iadd ⟨false, false, .v n, .v a, .v b⟩ false, .isub ⟨false, false, .v n, .v a, .v b⟩ false, .imul ⟨false, false, .v n, .v a, .v b⟩],
      ∃ sh, sh.tag = 2 ∧ Gives s p n i sh := by
  intro i hi
  simp only [List.mem_cons, List.not_mem_nil, or_false] at hi
  rcases hi with rfl | rfl | rfl
  · exact gives_general_row3 hp hlen hr (form_iadd s _ false) (addForm_none _ h)
  · exact gives_general_row3 hp hlen hr (form_isub s _ false) (addForm_none _ h)
  · exact gives_general_row3 hp hlen hr (form_imul s _) (mulForm_none (h.imp_right .inl))

omit hp hlen hact hr in
theorem shape_val_of_isUni {sh : Shape} (h : sh.isUni = true) (t : Nat) : sh.val t = sh.val 0 := by
  cases sh with
  | uniform w => rfl
  | affine w d =>
    have hd : d = 0 := by simpa [Shape.isUni] using h
    simp [Shape.val, hd]
  | general ws => simp [Shape.isUni] at h

theorem gives_aff (hA : (p.g.reg a.toNat).shape.isUni = true) (hB : (p.g.reg b.toNat).shape.isUni = true) :
    Gives s p n (.aff false (.v n) (.v a) (.v b)) (.affine ((p.g.reg a.toNat).shape.val 0) ((p.g.reg b.toNat).shape.val 0)) := by
  obtain ⟨ho, _, _, hue, hheld, _⟩ := laneReady_iff hr
  have hready : laneReady s p (affRow false (.v n) (.v a) (.v b)) = true :=
    laneReady_of ho rfl (fun _ => ⟨by simp [affRow, Pass.src, Group.srcReg, SVal.isUni, SVal.ofShape, hA, hB], rfl⟩) hue hheld
      fun _ _ => ⟨rfl, fpeOf_zero _⟩
  obtain ⟨o, f, F⟩ := form_aff s false (.v n) (.v a) (.v b)
  exact readyPass_whole F hp hready rfl rfl (by omega) rfl hact (congrArg₂ (fun x y => some (Shape.affine x y, Shape.uniform 0))
    (shape_val_of_isUni hA _) (shape_val_of_isUni hB _))

theorem gives_mov : Gives s p n (.mov ⟨false, false, .v n, .v a⟩ false) (p.g.reg a.toNat).shape := by
  obtain ⟨ho, _, _, hue, hheld, _⟩ := laneReady_iff hr
  have hready : laneReady s p (movRow ⟨false, false, .v n, .v a⟩ false) = true :=
    laneReady_of ho rfl nofun (fun x hx => hue x (by
      rw [List.mem_singleton.mp hx]
      exact List.mem_cons_self)) hheld fun _ _ => ⟨rfl, fpeOf_zero _⟩
  obtain ⟨o, f, F⟩ := form_mov s ⟨false, false, .v n, .v a⟩ false
  exact readyPass_whole F hp hready rfl rfl (by omega) rfl hact (congrArg (fun x => some (x, _)) (if_pos rfl))

omit hp hlen hact hr in
/-- The steps of an integer reduction raise no exception. -/
theorem prefixes_exc (g : Group) {stp : Nat} (h : stp < 8) (v : SVal) (l : List Nat) : ∀ x ∈ prefixes g stp v l, x.2.2 = 0 := by
  have hfirst : ∀ x, (stepFirst g stp x).2 = 0 := fun x => by simp [stepFirst, h]
  have hnext : ∀ run x, (stepNext g stp run x).2 = 0 := fun run x => by interval_cases stp <;> rfl
  cases l with
  | nil => exact nofun
  | cons t r =>
    intro x hx
    rw [prefixes] at hx
    have hx' := List.mem_reverse.mp hx
    refine List.foldlRecOn (motive := fun (acc : List (Nat × Nat × Nat) × Nat) => ∀ x ∈ acc.1, x.2.2 = 0) r _ ?_ ?_ x hx'
    · intro x hx
      rw [List.mem_singleton.mp hx]
      exact hfirst _
    · intro acc ih i _ x hx
      rcases List.mem_cons.mp hx with rfl | hx
      · exact hnext ..
      · exact ih x hx

theorem gives_redx {stp : BitVec 4} (hstp : stp.toNat < 8) (htile : p.g.tile = 32) :
    ∃ w, Gives s p n (.redx false (.v n) (.v a) stp) (.uniform w) := by
  obtain ⟨ho, _, _, hue, hheld, _⟩ := laneReady_iff hr
  have hready : ∀ r, crossRow (.redx false (.v n) (.v a) stp) = some r → laneReady s p r = true := by
    rintro _ ⟨⟩
    refine laneReady_of ho rfl nofun (fun x hx => hue x ?_) hheld fun t _ => ⟨rfl, ?_⟩
    · rw [List.mem_singleton.mp hx]
      exact List.mem_cons_self
    · dsimp only [Pass.running]
      cases hf : (prefixes p.g stp.toNat (sv (p.svals _) 0) (p.tileOf _)).find? fun x => x.1 == _ with
      | none => exact fpeOf_zero _
      | some x =>
        rw [Option.map_some, Option.getD_some, prefixes_exc p.g hstp _ _ x (List.mem_of_find?_eq_some hf)]
        exact fpeOf_zero _
  have F := form_redx s false (.v n) (.v a) stp rfl
  obtain ⟨w, hw⟩ := tileForm_some (val := redxVal stp.toNat) htile (p.svals [(.v a, false)])
  exact ⟨w, readyPass_whole F hp (hready _ rfl) rfl rfl (by omega) rfl hact hw⟩

theorem gives_vote (htile : p.g.tile = 32) (pa : BitVec 3) (mode : BitVec 2) :
    ∃ w, Gives s p n (.vote false (.reg (.v n)) pa mode) (.uniform w) := by
  obtain ⟨ho, _, _, _, hheld, _⟩ := laneReady_iff hr
  have hready : ∀ r, crossRow (.vote false (.reg (.v n)) pa mode) = some r → laneReady s p r = true := by
    rintro _ ⟨⟩
    exact laneReady_of ho rfl nofun nofun hheld fun t _ => ⟨rfl, fpeOf_zero _⟩
  have F := form_voteReg s false (.v n) pa mode rfl
  obtain ⟨w, hw⟩ := tileForm_some (val := voteVal pa.toNat mode.toNat) htile []
  exact ⟨w, readyPass_whole F hp (hready _ rfl) rfl rfl (by omega) rfl hact hw⟩
end

/-- Settles O50: each instruction by its form, and what a pass of that form stores. -/
theorem resultTags : Obligations.ResultTags := by
  unfold Obligations.ResultTags
  intro s p n hp hlen
  refine ⟨fun i r h hr hd hn => family_tags hp hlen h hr hd hn, fun r q h hr hu hn hd hlt => imadWide_tags hp hlen h hr hu hn hd hlt,
    fun a b hr => ssint_tag hp hlen a b hr, fun a r h hr => movx_tag hp hlen a h hr,
    fun w r h hr hact hlt => unif_tags hp hlen w h hr hact hlt, fun hact a b => ?_⟩
  intro A B q gives hr
  exact ⟨fun x y d e hA hB => ⟨gives_iadd hp hlen hact hr hA hB, gives_isub hp hlen hact hr hA hB,
      fun ht => ⟨gives_imul_right hp hlen hact hr hA hB ht, gives_shl hp hlen hact hr hA hB ht⟩, gives_imul_left hp hlen hact hr hA hB⟩,
    gives_general_sum hp hlen hr,
    fun ha hb => gives_general_row3 hp hlen hr (form_imul s _) (mulForm_none (.inr (.inr ⟨ha, hb⟩))),
    fun h => gives_general_row3 hp hlen hr (form_shl s _ false) (shlForm_none h),
    fun hA hB => gives_aff hp hlen hact hr hA hB, gives_mov hp hlen hact hr,
    fun htile => ⟨fun stp hstp => gives_redx hp hlen hact hr hstp htile, gives_vote hp hlen hact hr htile⟩⟩

end Sys2Proof.Machine

namespace Sys2Proof.Machine

/-! # User faults of a pass (11 R294, R295)

User faults leave their threads on the instruction and wait with the group for the end of the clause; the others
commit. Where the context is not stopped by them (`Pass.trappable`), a pass that ends with such faults is one
equation (`passEnd_userFaults`), from which the whole pass with UNIFORM_OPERAND and the part of a pass with FPE follow. -/

/-! ## The end of a pass with User faults -/

section
variable {s : State} {c gid : Nat} {g : Group}

theorem firstStop_user {fs : List ThFault} (h : ∀ f ∈ fs, f.code.isUser = true) : firstStop fs = none := by
  have hnil : fs.filter (fun f => !f.code.isUser) = [] := by
    rw [List.filter_eq_nil_iff]
    intro f hf
    simp [h f hf]
  rw [firstStop, hnil, List.foldl_nil]

/-- User faults outside a handler wait with the group. -/
theorem raise_user {pf : PassFault} (hg : s.group? c gid = some g) (hh : g.handler = false) (hne : pf.faults ≠ [])
    (hu : ∀ f ∈ pf.faults, f.code.isUser = true) : s.raise c gid pf = s.setGroup c gid { g with pend := g.pend ++ [pf] } := by
  have hnd : pf.faults.any (fun f => f.code == .dieLost) = false := by
    rw [List.any_eq_false]
    intro f hf hd
    have := hu f hf
    rw [beq_iff_eq.mp hd] at this
    exact absurd this (by decide)
  obtain ⟨x, r, hx⟩ := List.exists_cons_of_ne_nil hne
  unfold State.raise
  rw [hg, hx]
  dsimp only
  rw [← hx, hnd, hh, firstStop_user hu, if_neg Bool.false_ne_true, if_neg Bool.false_ne_true]

/-- A group with a trap vector settles nothing: its faults wait for the trap entry. -/
theorem settle_of_trapv (hg : s.group? c gid = some g) (ht : g.trapv ≠ 0) : s.settle c gid = s := by
  have hb : (g.trapv == 0) = false := by simpa using ht
  simp only [State.settle, hg]
  split
  · rfl
  · rw [hb, if_neg Bool.false_ne_true]

/-- The end of a clause that leaves its faults to a trap entry. -/
theorem finishClause_of_trapv {cl : Clause} (w : GWait) (hg : s.group? c gid = some g) (hc : g.clause = some cl) (hre : cl.re = false)
    (ht : g.trapv ≠ 0) (hed : g.debugEdits = []) (ha : g.active ≠ 0#32) :
    s.finishClause c gid w = (s.setGroup c gid { g with clause := none, wait := w, ylast := cl.yld }).freeLane c cl.lane := by
  have hae : ({ g with clause := none } : Group).applyEdits = { g with clause := none } := by
    simp [Group.applyEdits, hed]
  have hd : s.dropClause c gid = (s.setGroup c gid { g with clause := none }).freeLane c cl.lane := by
    simp only [State.dropClause, hg, hc, hae]
  simp only [State.finishClause, hg, hc, hre, Bool.false_eq_true, if_false, hd]
  rw [modGroup_of _ (g := { g with clause := none }) _ (by simp)]
  rw [settle_of_trapv (g := { g with clause := none, ylast := cl.yld, wait := w }) (by simp) ht]
  rw [tryRetire_active (g := { g with clause := none, ylast := cl.yld, wait := w }) (by simp) ha]
  rw [freeLane_setGroup, setGroup_setGroup]
end

section
variable {s : State} {p : Pass}

/-- What `trappable` gathers. -/
theorem trappable_iff (h : p.trappable = true) : p.ex ≠ 0#32 ∧ p.g.unstepped = true ∧ p.g.handler = false ∧
    (p.cl.pos < p.cl.count ∨ (p.cl.pos = p.cl.count ∧ p.cl.re = false ∧ p.g.debugEdits = [] ∧ p.g.trapv ≠ 0)) := by
  simp only [Pass.trappable, Bool.and_eq_true, Bool.or_eq_true, decide_eq_true_eq, beq_iff_eq, Bool.not_eq_true'] at h
  obtain ⟨⟨⟨h1, h2⟩, h3⟩, h4⟩ := h
  refine ⟨by simpa using h1, h2, h3, h4.imp_right fun ⟨⟨⟨a, b⟩, c⟩, d⟩ => ⟨a, b, by simpa using c, by simpa using d⟩⟩

/-- A group of a pass that ends with User faults: they wait with it, its threads of `ok` have gone on. -/
def Group.withFaults (g : Group) (p : Pass) (len : Nat) (fi : Word) (ok : Mask) (fs : List ThFault) (b : BRes) (dest : Nat → DWord) : Group :=
  { g.passed p.cl len ok (faultMask fs) b dest with pend := g.pend ++ [⟨p.cl.pos, p.cl.pc, fi, fs⟩] }

/-- A pass with User faults that stop no context: they wait with the group, and the clause goes on or ends. -/
theorem passEnd_userFaults {g : Group} {fs : List ThFault} (len : Nat) (fi : Word) (ok : Mask) (b : BRes) (dest : Nat → DWord)
    (ht : p.trappable = true) (hg : s.group? p.core p.gid = some g) (hr : g.ready p) (hh : g.handler = p.g.handler)
    (htv : g.trapv = p.g.trapv) (hne : fs ≠ []) (hu : ∀ f ∈ fs, f.code.isUser = true) :
    s.passEnd p.core p.gid len fi ok fs b dest =
      if p.cl.pos < p.cl.count then s.setGroup p.core p.gid (g.withFaults p len fi ok fs b dest)
      else (s.setGroup p.core p.gid { g.withFaults p len fi ok fs b dest with clause := none, wait := .none, ylast := p.cl.yld }).freeLane
        p.core p.cl.lane := by
  obtain ⟨_, _, hh0, hpos⟩ := trappable_iff ht
  have hstep : s.passStep p.core p.gid len fi ok fs b dest = s.setGroup p.core p.gid (g.withFaults p len fi ok fs b dest) := by
    simp only [State.passStep, hg, hr.clause, unstepped_mask hr.unstepped, traceAll_zero]
    rw [raise_user (g := g.passed p.cl len ok (faultMask fs) b dest) (group?_setGroup ..) (hh.trans hh0) hne hu, setGroup_setGroup]
    rfl
  have hcl : (g.withFaults p len fi ok fs b dest).clause
    = some { p.cl with pos := p.cl.pos + 1, pc := p.cl.after len, res := (b :: p.cl.res).take 4 } := rfl
  have hover : (s.setGroup p.core p.gid (g.withFaults p len fi ok fs b dest)).clauseOver p.core p.gid
      = decide (p.cl.count < p.cl.pos + 1) := by
    simp only [State.clauseOver, group?_setGroup, Option.bind_some, hcl]
  rw [State.passEnd, hstep, hover]
  rcases hpos with hlt | ⟨heq, hre, hed, htv0⟩
  · rw [if_pos hlt, if_neg (by simp; omega)]
  · have hact : (g.withFaults p len fi ok fs b dest).active ≠ 0#32 := by
      rw [show (g.withFaults p len fi ok fs b dest).active = g.active from passed_active g p.cl len ok (faultMask fs) b dest]
      exact hr.active
    rw [if_neg (by omega : ¬ p.cl.pos < p.cl.count), if_pos (by simp; omega), State.endClause,
      finishClause_of_trapv .none (group?_setGroup ..) hcl hre (htv ▸ htv0 : (g.withFaults p len fi ok fs b dest).trapv ≠ 0)
        (hr.edits.trans hed) hact, setGroup_setGroup]

theorem ready_trappable (hp : s.pass? = some p) (ht : p.trappable = true) : p.g.ready p := by
  obtain ⟨h1, h2, _⟩ := trappable_iff ht
  obtain ⟨_, hc, hx⟩ := pass_facts hp
  exact ⟨hc, h2, active_ne (hx ▸ h1), rfl, rfl, rfl⟩

/-- A pass whose threads all fault leaves the state `faulted`. -/
theorem passEnd_faulted {fs : List ThFault} (i : Instr) (hp : s.pass? = some p) (ht : p.trappable = true) (hne : fs ≠ [])
    (hu : ∀ f ∈ fs, f.code.isUser = true) (dest : Nat → DWord) :
    s.passEnd p.core p.gid (lenOf i) (finfoWord (headOf i)) 0 fs (p.g.noLatch p.cl.res (headOf i) 0) dest = s.faulted p i fs := by
  have hpassed : p.g.passed p.cl (lenOf i) 0 (faultMask fs) (p.g.noLatch p.cl.res (headOf i) 0) dest
      = p.g.passed p.cl (lenOf i) 0 (faultMask fs) (p.g.noLatch p.cl.res (headOf i) 0) fun _ => p.cl.pc := by
    have hz (f : Nat → Thread → Thread) : p.g.modThs 0 f = p.g := modThs_zero ..
    simp only [Group.passed, hz]
  rw [passEnd_userFaults _ _ _ _ _ ht (pass_facts hp).1 (ready_trappable hp ht) rfl rfl hne hu]
  simp only [Group.withFaults, hpassed]
  rfl

theorem faultsOf_ne_nil {m : Mask} (h : m ≠ 0#32) (f : FCode) (a : DWord) : faultsOf m f a ≠ [] := by
  intro h0
  have := lowSlot_mem h
  rw [List.map_eq_nil_iff.mp h0] at this
  simp at this

/-! ## Operands that are not uniform (03 R91) -/

theorem svals_zip (srcs : List (Src × Bool)) : (p.svals srcs).zip srcs = srcs.map fun x => (p.src x.1 x.2, x) := by
  induction srcs with
  | nil => rfl
  | cons x r ih => exact congrArg (List.cons _) ih

/-- A uniform-encoded pass with an operand that is not uniform faults whole. -/
theorem laneOp_nonuniform {r : LaneRow} {o : LOp} (f : Pass → List SVal → Nat → TR) (sp : Pass → List SVal → Option (Shape × Shape))
    (post : Pass → List (Nat × TR) → State → State) (hp : s.pass? = some p) (ht : p.trappable = true) (ha : o.agrees r) (hu : r.u = true)
    (hc : r.chan = false) (hn : (r.srcs.any fun (a, pair) => !(p.src a pair).isUni pair) = true) :
    s.laneOp o f sp post = s.faulted p o.i (faultsOf p.ex .uniformOperand 0) := by
  have hne := (trappable_iff ht).1
  have hch : o.srcs.any (fun (a, _) => a.chan.isSome) = false := by
    simp only [LaneRow.chan, Bool.or_eq_false_iff] at hc
    rw [ha.srcs]
    exact hc.1
  have hbad : o.uniOk p (p.svals o.srcs) = false := by
    obtain ⟨x, hx, hxn⟩ := List.any_eq_true.mp hn
    rw [LOp.uniOk, svals_zip, ha.srcs, Bool.and_eq_false_iff]
    exact .inl (List.all_eq_false.mpr ⟨_, List.mem_map_of_mem hx, by simpa using hxn⟩)
  have hex : (p.ex == 0) = false := by simpa using hne
  unfold State.laneOp State.laneFront
  simp only [hp, hex, readSrcs_plain s p o hch, hbad, ha.u, hu, Bool.true_or, Bool.not_false, Bool.and_true, Bool.true_and, Bool.false_eq_true,
    if_false, if_true]
  refine passEnd_faulted o.i hp ht (faultsOf_ne_nil hne _ _) (fun f hf => ?_) _
  obtain ⟨_, _, rfl⟩ := List.mem_map.mp hf
  rfl
end

end Sys2Proof.Machine

namespace Sys2Proof.Machine

/-! # FPE per thread (05 R153, 11 R294)

The threads whose exceptions are enabled keep the instruction and their part of the destination; the others commit. -/

/-! ## The faults and the results of the threads -/

theorem faultMask_getLsbD (fs : List ThFault) {k : Nat} (hk : k < 32) : (faultMask fs).getLsbD k = fs.any fun f => f.slot == k := by
  have key (m : Mask) : (fs.foldl (fun m f => m ||| (1#32 <<< f.slot)) m).getLsbD k = (m.getLsbD k || fs.any fun f => f.slot == k) := by
    induction fs generalizing m with
    | nil => simp
    | cons f r ih =>
      rw [List.foldl_cons, ih, List.any_cons, BitVec.getLsbD_or, oneBit_getLsbD hk, Bool.or_assoc]
      rfl
  exact (key 0).trans (by simp)

/-- The faults of a pass whose only faults are FPE. -/
def Pass.fpes (p : Pass) (ex : Nat → Nat) : List ThFault :=
  ((slotsOf p.ex).filter fun k => p.g.fpeOf (ex k)).map fun k => ⟨k, .fpe, BitVec.ofNat 64 (ex k)⟩

/-- The threads that meet none. -/
def Pass.fine (p : Pass) (ex : Nat → Nat) : Mask := p.ex &&& ~~~faultMask (p.fpes ex)

section
variable {p : Pass} {ex : Nat → Nat}

theorem mem_fpes {f : ThFault} : f ∈ p.fpes ex ↔ ∃ k ∈ slotsOf p.ex, p.g.fpeOf (ex k) = true ∧ f = ⟨k, .fpe, BitVec.ofNat 64 (ex k)⟩ := by
  simp only [Pass.fpes, List.mem_map, List.mem_filter, and_assoc, eq_comm]

theorem fpes_ne_nil (h : (slotsOf p.ex).any (fun k => p.g.fpeOf (ex k)) = true) : p.fpes ex ≠ [] := by
  obtain ⟨k, hk, hf⟩ := List.any_eq_true.mp h
  exact List.ne_nil_of_mem (mem_fpes.mpr ⟨k, hk, hf, rfl⟩)

theorem fine_getLsbD {k : Nat} (hk : p.ex.getLsbD k = true) (h32 : k < 32) : (p.fine ex).getLsbD k = !p.g.fpeOf (ex k) := by
  have hany : ((p.fpes ex).any fun f => f.slot == k) = p.g.fpeOf (ex k) := by
    rw [Bool.eq_iff_iff, List.any_eq_true]
    constructor
    · rintro ⟨f, hf, hs⟩
      obtain ⟨j, _, hj, rfl⟩ := mem_fpes.mp hf
      rwa [← beq_iff_eq.mp hs]
    · exact fun hf => ⟨_, mem_fpes.mpr ⟨k, mem_slotsOf.mpr ⟨h32, hk⟩, hf, rfl⟩, beq_self_eq_true k⟩
  rw [Pass.fine, BitVec.getLsbD_and, BitVec.getLsbD_not, faultMask_getLsbD _ h32, hany, hk]
  simp [h32]

theorem laneFaults_fpes {rs : Nat → TR} (h : ∀ k ∈ slotsOf p.ex, (rs k).fault = none ∧ (rs k).ex = ex k) :
    laneFaults p ((slotsOf p.ex).map fun k => (k, rs k)) = p.fpes ex := by
  unfold Pass.fpes
  generalize slotsOf p.ex = l at h
  induction l with
  | nil => rfl
  | cons k l ih =>
    obtain ⟨hf, hx⟩ := h k List.mem_cons_self
    have ih := ih fun j hj => h j (List.mem_cons_of_mem _ hj)
    rw [laneFaults] at ih ⊢
    rw [List.map_cons, List.filterMap_cons, ih, List.filter_cons]
    simp only [TR.judge, hf, hx]
    cases p.g.fpeOf (ex k) <;> rfl

/-- The low words of the results of the threads that commit. -/
theorem resShape_filter {m : Mask} {rs : Nat → TR} {k : Nat} (hk : k ∈ slotsOf p.ex) (hm : m.getLsbD k = true) :
    (resShape (((slotsOf p.ex).map fun k => (k, rs k)).filter fun x => m.getLsbD x.1) false).val k = (rs k).w.setWidth 32 := by
  have hfind : (((slotsOf p.ex).filter fun j => m.getLsbD j).map fun j => (j, rs j)).find? (fun x => x.1 == k) = some (k, rs k) :=
    find_slot _ rs k (List.mem_filter.mpr ⟨hk, hm⟩)
  rw [List.filter_map, resShape, column_val _ (mem_slotsOf.mp hk).1]
  exact congrArg (fun x : Option (Nat × TR) => match x with | some (_, r) => r.w.setWidth 32 | none => 0) hfind
end

/-! ## The pass -/

theorem putG_trap (o : LOp) (g : Group) (ok : Mask) (full : Bool) (lo hi : Shape) (sp : Option (Shape × Shape)) :
    (o.putG g ok full lo hi sp).handler = g.handler ∧ (o.putG g ok full lo hi sp).trapv = g.trapv := by
  unfold LOp.putG
  split
  · split
    · exact ⟨rfl, rfl⟩
    · split <;> exact ⟨rfl, rfl⟩
  · exact ⟨rfl, rfl⟩
  · exact ⟨rfl, rfl⟩

/-- A register into which only the threads of `ok` write. -/
theorem write_partial_val (old : Reg) (ok : Mask) (val : Nat → Word) {k : Nat} (hk : k < 32) :
    (old.write false false ok none val).shape.val k = if ok.getLsbD k then val k else old.shape.val k := by
  simp only [Reg.write, Bool.false_eq_true, if_false, column_val _ hk]

/-- What a pass leaves before its end: its threads of `ok` have written register `n`. -/
structure WroteFor (p : Pass) (n : Nat) (ok : Mask) (val : Nat → Word) (g : Group) : Prop where
  ready : g.ready p
  trap : g.handler = p.g.handler ∧ g.trapv = p.g.trapv
  threads : g.threads = p.g.threads
  pend : g.pend = p.g.pend
  reg : ∀ k, p.ex.getLsbD k = true → (g.reg n).shape.val k = if ok.getLsbD k then val k else (p.g.reg n).shape.val k

section
variable {s : State} {p : Pass} {i : Instr} {r : LaneRow} {o : LOp} {f : Pass → List SVal → Nat → TR} {n : BitVec 6}
  (hp : s.pass? = some p) (ht : p.trappable = true) (hu : r.u = false) (hnw : r.nw = false) (hd : r.dst = .v (.v n) false)

include hp hu hnw hd in
/-- The part of the destination that the threads of `ok` write. -/
theorem wroteFor_putG (ha : o.agrees r) (hready : p.g.ready p) (hlen : n.toNat < p.g.regs.length)
    (hw : ∀ p vs t, (f p vs t).w = r.val p vs t) (ok : Mask) (hi : Shape) (fsr : Word) :
    WroteFor p n.toNat ok (fun k => (r.val p (p.svals r.srcs) k).setWidth 32)
      { o.putG p.g ok false (resShape ((laneResults o p (p.svals r.srcs) f p.ex).filter fun x => ok.getLsbD x.1) false) hi none with fsr } := by
  obtain ⟨q1, q2, -, q4, q5, q6⟩ :=
    putG_same o p.g ok false (resShape ((laneResults o p (p.svals r.srcs) f p.ex).filter fun x => ok.getLsbD x.1) false) hi none
  refine ⟨hready.same q1 q2 q4 q5 q6, putG_trap .., q2, q4, fun k hk => ?_⟩
  have hk32 := (ex_lt hp hk).1
  have hou : o.u = false := ha.u.trans hu
  have hput := (putG_reg (ha.dst.trans hd) (ha.nw.trans hnw) ok false
    (resShape ((laneResults o p (p.svals r.srcs) f p.ex).filter fun x => ok.getLsbD x.1) false) hi none).1 hlen
  change ((o.putG p.g ok false _ hi none).reg n.toNat).shape.val k = _
  rw [hput, hou, Option.map_none, write_partial_val _ _ _ hk32]
  split
  case isFalse => rfl
  case isTrue hok =>
    simp only [laneResults, hou, Bool.false_eq_true, if_false]
    rw [resShape_filter (mem_slotsOf.mpr ⟨hk32, hk⟩) hok, hw]

variable (hc : r.chan = false) (hpos : p.cl.pos < p.cl.count) (hlen : n.toNat < p.g.regs.length)
  (hue : ∀ x ∈ r.srcs, (p.src x.1 x.2).ue = 0#32) (hheld : (s.core p.core).bHeld p.gid p.g n.toNat = false)
  (hgood : r.forceUni = false ∧ ∀ p vs t, r.good p vs t = true)

include ht hu hnw hd hc hpos hue hheld hgood in
/-- But for the exceptions, the pass is ready. -/
theorem laneReady_but_exc : laneReady s p { r with exc := fun _ _ _ => 0 } = true := by
  obtain ⟨hex0, hstepped, -⟩ := trappable_iff ht
  refine laneReady_of (by simp [Pass.orderly, hex0, hstepped, hpos]) hc (fun h => by simp [hu, hgood.1] at h) hue (fun m hm => ?_)
    fun _ _ => ⟨hgood.2 .., fpeOf_zero _⟩
  simp only [LaneRow.regs, hd, hnw, Bool.false_eq_true, if_false, List.mem_singleton] at hm
  rwa [hm]

variable (hf : p.fpes (r.exc p (p.svals r.srcs)) ≠ [])

include hp ht hu hnw hd hc hpos hlen hue hheld hgood hf in
/-- A pass that faults in some threads with FPE alone. -/
theorem laneOp_fpe (F : LaneForm s i r o f fun _ _ => none) (hall : o.all = false) (hw : ∀ p vs t, (f p vs t).w = r.val p vs t) :
    ∃ (s1 : State) (g : Group) (b : BRes), s1.group? p.core p.gid = some g ∧
      WroteFor p n.toNat (p.fine (r.exc p (p.svals r.srcs))) (fun k => (r.val p (p.svals r.srcs) k).setWidth 32) g ∧
      exec i s = .next (s1.passEnd p.core p.gid (lenOf i) (finfoWord (headOf i)) (p.fine (r.exc p (p.svals r.srcs)))
        (p.fpes (r.exc p (p.svals r.srcs))) b fun _ => p.cl.after (lenOf i)) := by
  obtain ⟨hg, -, -⟩ := pass_facts hp
  obtain ⟨c1, c2, c3⟩ := F.agrees.chans hc
  have hfront := laneFront_ready (o := o) (r := { r with exc := fun _ _ _ => 0 }) hp
    ⟨F.agrees.u, F.agrees.nw, F.agrees.dst, F.agrees.srcs, F.agrees.preds, F.agrees.uni⟩
    (LOp.free_plain s p F.plain.1 F.plain.2) (laneReady_but_exc ht hu hnw hd hc hpos hue hheld hgood)
  have hou : o.u = false := F.agrees.u.trans hu
  have hfs : laneFaults p (laneResults o p (p.svals r.srcs) f p.ex) = p.fpes (r.exc p (p.svals r.srcs)) := by
    simp only [laneResults, hou, Bool.false_eq_true, if_false]
    exact laneFaults_fpes fun k _ => F.thread p _ k (svals_ue hue) (hgood.2 ..)
  have hrest : p.ex &&& ~~~(0#32 : Mask) = p.ex := by
    rw [show ~~~(0#32 : Mask) = BitVec.allOnes 32 from rfl, BitVec.and_allOnes]
  have hfo : faultsOf 0#32 .memUe 0 = [] := by simp [faultsOf]
  have hemp : (p.fpes (r.exc p (p.svals r.srcs))).isEmpty = false := by simpa using hf
  have hpop : s.popAll p o = s := by simp [State.popAll, LOp.pops, c1]
  have hfine : p.ex &&& ~~~faultMask (p.fpes (r.exc p (p.svals r.srcs))) = p.fine (r.exc p (p.svals r.srcs)) := rfl
  rw [F.exec, State.laneOp, hfront, F.agrees.srcs]
  simp only [hrest, hfo, List.nil_append, hfs, hall, c3, Bool.or_self, Bool.false_and, Bool.false_eq_true, if_false, hemp, Bool.and_false,
    F.instr]
  rw [hfine]
  generalize p.fine (r.exc p (p.svals r.srcs)) = ok
  split
  case isTrue h0 =>
    refine ⟨s, p.g, _, hg, ⟨ready_trappable hp ht, ⟨rfl, rfl⟩, rfl, rfl, fun k _ => ?_⟩, rfl⟩
    rw [beq_iff_eq.mp h0]
    simp
  case isFalse =>
    have hcols (good) : laneCols o p (p.svals r.srcs) f (fun _ _ => none) false good
        = ⟨resShape good false, if o.dst.wide then resShape good true else .uniform 0, none⟩ := by
      simp [laneCols, hou]
    rw [State.laneEffect, hpop, writeDst_mod o hg c2, hcols]
    dsimp only
    obtain ⟨fsr, hfold, -⟩ := orFsr_fold ((laneResults o p (p.svals r.srcs) f p.ex).filter fun x => ok.getLsbD x.1) (o.putG p.g ok false
      (resShape ((laneResults o p (p.svals r.srcs) f p.ex).filter fun x => ok.getLsbD x.1) false)
      (if o.dst.wide then resShape ((laneResults o p (p.svals r.srcs) f p.ex).filter fun x => ok.getLsbD x.1) true else .uniform 0) none)
    rw [hfold]
    exact ⟨_, _, _, group?_setGroup .., wroteFor_putG hp hu hnw hd F.agrees (ready_trappable hp ht) hlen hw .., rfl⟩

include hp ht hu hnw hd hc hpos hlen hue hheld hf in
/-- The threads with FPE stay and keep their words, the others commit. -/
theorem float_fpe (h : floatRow i = some r) :
    ∃ t g f, exec i s = .next t ∧ t.group? p.core p.gid = some g ∧ g.pend = p.g.pend ++ [f] ∧ f.pos = p.cl.pos ∧ f.pc = p.cl.pc ∧
      ∀ k, p.ex.getLsbD k = true →
        let ex := r.exc p (p.svals r.srcs) k
        if p.g.fpeOf ex then ⟨k, .fpe, BitVec.ofNat 64 ex⟩ ∈ f.faults ∧ (g.th k).pc = (p.g.th k).pc ∧
          (g.reg n.toNat).shape.val k = (p.g.reg n.toNat).shape.val k
        else (g.th k).pc = p.cl.after (lenOf i) ∧ (g.reg n.toNat).shape.val k = (r.result p k).setWidth 32 := by
  obtain ⟨o, f, F, hall, hw⟩ := form_float s h
  obtain ⟨s1, g1, b, hg1, W, hx⟩ := laneOp_fpe hp ht hu hnw hd hc hpos hlen hue hheld (floatRow_plain h) hf F hall hw
  have huser : ∀ f ∈ p.fpes (r.exc p (p.svals r.srcs)), f.code.isUser = true := by
    intro f hf
    obtain ⟨_, _, _, rfl⟩ := mem_fpes.mp hf
    rfl
  rw [passEnd_userFaults _ _ _ _ _ ht hg1 W.ready W.trap.1 W.trap.2 hf huser, if_pos hpos] at hx
  refine ⟨_, _, _, hx, group?_setGroup .., congrArg (· ++ _) W.pend, rfl, rfl, fun k hk => ?_⟩
  obtain ⟨hk32, hkth⟩ := ex_lt hp hk
  have hbit := fine_getLsbD (ex := r.exc p (p.svals r.srcs)) hk hk32
  have hpc := (passed_th g1 p.cl (lenOf i) (p.fine (r.exc p (p.svals r.srcs))) (faultMask (p.fpes (r.exc p (p.svals r.srcs)))) b
    (fun _ => p.cl.after (lenOf i)) (i := k) (by rwa [W.threads])).1
  have hreg := W.reg k hk
  rw [th_congr W.threads] at hpc
  dsimp only
  split
  case isTrue hfk =>
    rw [hbit, hfk] at hpc hreg
    exact ⟨mem_fpes.mpr ⟨k, mem_slotsOf.mpr ⟨hk32, hk⟩, hfk, rfl⟩, hpc, hreg⟩
  case isFalse hfk =>
    rw [hbit, Bool.eq_false_iff.mpr hfk] at hpc hreg
    exact ⟨hpc, by rw [result_false hu]; exact hreg⟩
end

/-- Settles O53: an operand that is not uniform by the front of the form, FPE by the threads that meet it. -/
theorem operandFaults : Obligations.OperandFaults := by
  unfold Obligations.OperandFaults
  intro i r s p hp ht
  constructor
  · intro h hu hn hc
    obtain ⟨o, f, sp, F⟩ := form_family s (h.imp_right <| .imp_right <| .imp_right <| .imp_right .inl)
    rw [F.exec, laneOp_nonuniform f sp _ hp ht F.agrees hu hc hn, F.instr]
  · intro n h hu hnw hd hc hpos hlen hue hheld hf
    exact float_fpe hp ht hu hnw hd hc hpos (by omega) (fun x hx => beq_iff_eq.mp (List.all_eq_true.mp hue x hx)) hheld (fpes_ne_nil hf) h

end Sys2Proof.Machine

namespace Sys2Proof.Machine

/-! # A slot that a core lists twice

The clause boundary of `MapAndPlaceRead` speaks of every state, and the groups of a core are a list by slot. Where
the list holds a slot twice, the slot's group is the first entry. A full issue at an address that a lost die homes
discards the context of that group (11 R307), and the slot's group is then the second entry: one of another context, in
the clause that it had before. -/

/-- A group of context 0 without a clause, whose walk for its issue address has ended in DIE_LOST. -/
def struckGroup : Group :=
  { ctx := 0, launch := 0, blk := 0, threads := [{ st := .active, pc := 0x10000 }], walkFaults := [(0x10, .dieLost)] }

/-- A group of context 1 in a clause whose boundary was at map version 7. -/
def clauseGroup : Group :=
  { ctx := 1, launch := 0, blk := 0,
    clause := some { hdr := 0, cls := 0, count := 1, pos := 1, pc := 0, next := 0, yld := false, re := false, pa := (false, 0), res := [], lane := 0,
                     cmv := 7 } }

/-- Slot 0 of core 0 twice. -/
def twiceInSlot : State :=
  { cores := [(0, { groups := [(0, struckGroup), (0, clauseGroup)] })], ctxs := [(0, { st := .active }), (1, { st := .active })] }

/-- The state after a full issue of slot 0. -/
def twiceIssued : State :=
  twiceInSlot.issueWith 0 0 (fun s1 g pc p w => s1.fullAt 0 0 g pc p w) fun _ _ _ _ _ => twiceInSlot

theorem fullIssue_twiceInSlot : exec (.fullIssue 0 0) twiceInSlot = .next twiceIssued := rfl

theorem twiceIssued_group : twiceIssued.group? 0 0 = some clauseGroup := by decide +kernel

/-- Refutes O52: after the issue the slot's group is in a clause of map version 7, and the map in force is not at it. -/
theorem not_mapAndPlaceRead : ¬ Obligations.MapAndPlaceRead := by
  unfold Obligations.MapAndPlaceRead
  rintro ⟨-, boundary, -⟩
  have hcmv : (7 : Nat) = twiceInSlot.cmap.cmv :=
    boundary twiceInSlot twiceIssued 0 0 struckGroup clauseGroup _ rfl rfl fullIssue_twiceInSlot twiceIssued_group rfl
  exact absurd hcmv (by decide)

end Sys2Proof.Machine

namespace Sys2Proof

/-! # The encoder and the decoder (04 R104 to R124) -/

/-! ## Bit fields (00 R2) -/

theorem fld_lt (w lo n : Nat) : fld w lo n < 2 ^ n := Nat.mod_lt _ (Nat.two_pow_pos n)

@[simp] theorem toNat_ofNat_fld (w lo n : Nat) : (BitVec.ofNat n (fld w lo n)).toNat = fld w lo n := by
  rw [BitVec.toNat_ofNat, Nat.mod_eq_of_lt (fld_lt w lo n)]

theorem fld_one_eq_toNat_iff {w i : Nat} {b : Bool} : fld w i 1 = b.toNat ↔ bitAt w i = b := by
  cases b <;> simp [bitAt, fld]

theorem fld_eq_toNat_iff {w lo n : Nat} {v : BitVec n} : fld w lo n = v.toNat ↔ BitVec.ofNat n (fld w lo n) = v := by
  rw [← BitVec.toNat_inj, toNat_ofNat_fld]

/-! ## A word from its fields

A layout lists the width and the value of each field of a word, the least significant first. -/

/-- The number with the fields of a layout and `t` above them. -/
def pack : List (Nat × Nat) → Nat → Nat
  | [], t => t
  | (n, v) :: fs, t => v + 2 ^ n * pack fs t

/-- Whether the word `w` has the fields of a layout from bit `lo` on. -/
def HasFields (w : Nat) : Nat → List (Nat × Nat) → Prop
  | _, [] => True
  | lo, (n, v) :: fs => fld w lo n = v ∧ HasFields w (lo + n) fs

/-- Whether each value of a layout fits its width. -/
def Fits : List (Nat × Nat) → Prop
  | [] => True
  | (n, v) :: fs => v < 2 ^ n ∧ Fits fs

/-- The number of bits of a layout. -/
def layoutWidth : List (Nat × Nat) → Nat
  | [] => 0
  | (n, _) :: fs => n + layoutWidth fs

theorem div_eq_pack_iff {w t : Nat} : ∀ {fs : List (Nat × Nat)} {lo : Nat}, Fits fs →
    (w / 2 ^ lo = pack fs t ↔ HasFields w lo fs ∧ w / 2 ^ (lo + layoutWidth fs) = t)
  | [], lo, _ => (iff_of_eq (true_and _)).symm
  | (n, v) :: fs, lo, ⟨hv, hfs⟩ => by
    have ih := div_eq_pack_iff (w := w) (t := t) (lo := lo + n) hfs
    rw [pow_add, ← Nat.div_div_eq_div_mul] at ih
    rw [pack, HasFields, layoutWidth, ← Nat.add_assoc, and_assoc, ← ih, fld]
    rw [and_comm, Nat.div_mod_unique (Nat.two_pow_pos n), and_iff_left hv, eq_comm]

/-! ## Operand codes (04 R121) -/

theorem ofNat_eq_iff {n k : Nat} {v : BitVec n} (hk : k < 2 ^ n) : BitVec.ofNat n k = v ↔ v.toNat = k := by
  rw [← BitVec.toNat_inj, BitVec.toNat_ofNat, Nat.mod_eq_of_lt hk, eq_comm]

theorem vregOf_eq_some_iff {c : Nat} {v : BitVec 6} : vregOf c = some v ↔ v.toNat = c := by
  have := v.isLt
  grind [vregOf, ofNat_eq_iff]

theorem chanOf_eq_some_iff {c : Nat} {q : BitVec 4} : chanOf c = some q ↔ 0x50 + q.toNat = c := by
  have := q.isLt
  grind [chanOf, ofNat_eq_iff]

theorem dstOf_eq_some_iff {c : Nat} {d : Dst} : dstOf c = some d ↔ d.code = c := by
  cases d with
  | v n => have := n.isLt; grind [dstOf, Dst.code, ofNat_eq_iff]
  | zero => grind [dstOf, Dst.code]
  | q n => have := n.isLt; grind [dstOf, Dst.code, ofNat_eq_iff]

theorem aregOf_eq_some_iff {c : Nat} {a : AReg} : aregOf c = some a ↔ a.code = c := by
  cases a with
  | v n => have := n.isLt; grind [aregOf, AReg.code, ofNat_eq_iff]
  | byp n => have := n.isLt; grind [aregOf, AReg.code, ofNat_eq_iff]

theorem stDataOf_eq_some_iff {c : Nat} {d : StData} : stDataOf c = some d ↔ d.code = c := by
  cases d with
  | v n => have := n.isLt; grind [stDataOf, StData.code, ofNat_eq_iff]
  | byp n => have := n.isLt; grind [stDataOf, StData.code, ofNat_eq_iff]
  | zero => grind [stDataOf, StData.code]

theorem append_eq_iff {lo hi : Word} {w : DWord} : hi ++ lo = w ↔ w.extractLsb' 0 32 = lo ∧ w.extractLsb' 32 32 = hi := by
  constructor
  · rintro rfl
    constructor <;> ext <;> grind
  · rintro ⟨rfl, rfl⟩
    ext
    grind

theorem srcOf_code (a : Src) (r : List Word) : srcOf a.code (a.lits ++ r) = some (a, r) := by
  cases a with
  | v n => simp [srcOf, Src.code, Src.lits, n.isLt]
  | byp n =>
    have := n.isLt
    simp [srcOf, Src.code, Src.lits, show 64 + n.toNat < 68 by omega]
  | lit32 w => rfl
  | lit64 w => simp [srcOf, Src.code, Src.lits, append_eq_iff]
  | zero => rfl
  | slot => rfl
  | q n =>
    have := n.isLt
    simp [srcOf, Src.code, Src.lits, show ¬80 + n.toNat < 64 by omega, show ¬80 + n.toNat < 68 by omega,
      show ¬80 + n.toNat = 68 by omega, show ¬80 + n.toNat = 69 by omega, show ¬80 + n.toNat = 70 by omega,
      show ¬80 + n.toNat = 71 by omega, show 80 + n.toNat < 96 by omega]

theorem lits_lit64 (lo hi : Word) : (Src.lit64 (hi ++ lo)).lits = [lo, hi] := by
  obtain ⟨hlo, hhi⟩ := append_eq_iff.mp (rfl : hi ++ lo = hi ++ lo)
  rw [Src.lits, hlo, hhi]

theorem srcOf_inv {c : Nat} {ls r : List Word} {a : Src} (h : srcOf c ls = some (a, r)) : a.code = c ∧ ls = a.lits ++ r := by
  unfold srcOf at h
  split_ifs at h with hv hb hl hd hz hs hq
  · cases h; exact ⟨by simp [Src.code, hv], rfl⟩
  · cases h; exact ⟨by simp [Src.code]; omega, rfl⟩
  · split at h
    · cases h; exact ⟨(beq_iff_eq.mp hl).symm, rfl⟩
    · cases h
  · split at h
    · cases h; exact ⟨(beq_iff_eq.mp hd).symm, by rw [lits_lit64]; rfl⟩
    · cases h
  · cases h; exact ⟨(beq_iff_eq.mp hz).symm, rfl⟩
  · cases h; exact ⟨(beq_iff_eq.mp hs).symm, rfl⟩
  · cases h; exact ⟨by simp [Src.code]; grind, rfl⟩

theorem srcOf_eq_some_iff {c : Nat} {ls r : List Word} {a : Src} : srcOf c ls = some (a, r) ↔ a.code = c ∧ ls = a.lits ++ r :=
  ⟨srcOf_inv, fun ⟨hc, hl⟩ => hc ▸ hl ▸ srcOf_code a r⟩

theorem Src.code_lt (a : Src) : a.code < 128 := by
  cases a <;> simp only [Src.code] <;> omega

theorem Dst.code_lt (d : Dst) : d.code < 128 := by
  cases d <;> simp only [Dst.code] <;> omega

theorem AReg.code_lt (a : AReg) : a.code < 68 := by
  cases a <;> simp only [AReg.code] <;> omega

theorem StData.code_lt (d : StData) : d.code < 128 := by
  cases d <;> simp only [StData.code] <;> omega

theorem litsOf_eq_zero {c : Nat} (h : c ≠ 0x44) (h' : c ≠ 0x45) : litsOf c = 0 := by
  simp [litsOf, h, h']

theorem Src.length_lits (a : Src) : a.lits.length = litsOf a.code := by
  cases a with
  | v n | byp n | q n => exact (litsOf_eq_zero (by simp only [Src.code]; omega) (by simp only [Src.code]; omega)).symm
  | lit32 w | lit64 w | zero | slot => rfl

theorem dstOf_code (d : Dst) : dstOf d.code = some d := dstOf_eq_some_iff.mpr rfl

theorem aregOf_code (a : AReg) : aregOf a.code = some a := aregOf_eq_some_iff.mpr rfl

theorem vregOf_toNat (v : BitVec 6) : vregOf v.toNat = some v := vregOf_eq_some_iff.mpr rfl

theorem stDataOf_code (d : StData) : stDataOf d.code = some d := stDataOf_eq_some_iff.mpr rfl

theorem chanOf_code (q : BitVec 4) : chanOf (0x50 + q.toNat) = some q := chanOf_eq_some_iff.mpr rfl

theorem litsOf_zero : litsOf 0 = 0 := rfl

theorem litsOf_of_lt {c : Nat} (h : c < 0x44) : litsOf c = 0 := litsOf_eq_zero (by omega) (by omega)

theorem Off.code_lt (o : Off) : o.code < 64 := by
  cases o <;> simp only [Off.code] <;> omega

section
variable {w : Nat} {ls : List Word} {i : Instr}

theorem offOf_eq_some_iff {o : Off} : offOf w ls = some o ↔ fld w 0 6 = o.code ∧ o.lits <+: ls ∧ o.ok = true := by
  cases o <;> cases ls <;> grind [offOf, Off.code, Off.lits, Off.ok, fld_eq_toNat_iff]

/-! ## The decoders that several opcodes share

The layout of an instruction's fields stands for the bits below its opcode (04 R116 to R120). -/

/-- The fields of a word with three operands. -/
abbrev R3.layout (r : R3) (x : Bool) : List (Nat × Nat) :=
  [(1, x.toNat), (7, r.b.code), (7, r.a.code), (7, r.d.code), (1, r.nw.toNat), (1, r.u.toNat)]

/-- The fields of a word with two operands, and `b` in the place of the third. -/
abbrev R2.layout (r : R2) (b : Nat) (x : Bool) : List (Nat × Nat) :=
  [(1, x.toNat), (7, b), (7, r.a.code), (7, r.d.code), (1, r.nw.toNat), (1, r.u.toNat)]

/-- The fields of a compare. -/
abbrev Cmp.layout (c : Cmp) (x : Bool) : List (Nat × Nat) :=
  [(1, x.toNat), (7, c.b.code), (7, c.a.code), (3, c.p.toNat), (4, c.cond.toNat), (1, false.toNat), (1, c.u.toNat)]

theorem mkR3_eq_some_iff {r : R3} : mkR3 w ls = some r ↔ HasFields w 0 (r.layout (xBit w)) ∧ r.a.lits ++ r.b.lits <+: ls := by
  simp only [mkR3, HasFields, Nat.reduceAdd, fld_one_eq_toNat_iff]
  constructor
  · grind [uBit, nwBit, xBit, srcOf_eq_some_iff, dstOf_eq_some_iff]
  · rintro ⟨⟨-, hb, ha, hd, hn, hu, -⟩, t, rfl⟩
    rw [ha, hb, hd, dstOf_code, List.append_assoc, srcOf_code, uBit, hu, nwBit, hn]
    simp only [srcOf_code]

theorem mkR2_eq_some_iff {r : R2} : mkR2 w ls = some r ↔ HasFields w 0 (r.layout (fld w 1 7) (xBit w)) ∧ r.a.lits <+: ls := by
  simp only [mkR2, HasFields, Nat.reduceAdd, fld_one_eq_toNat_iff]
  constructor
  · grind [uBit, nwBit, xBit, srcOf_eq_some_iff, dstOf_eq_some_iff]
  · rintro ⟨⟨-, -, ha, hd, hn, hu, -⟩, t, rfl⟩
    rw [ha, hd, dstOf_code, srcOf_code, uBit, hu, nwBit, hn]

theorem fld_0_8_eq_zero_iff : fld w 0 8 = 0 ↔ fld w 1 7 = 0 ∧ xBit w = false := by
  have : fld w 0 8 = fld w 0 1 + 2 * fld w 1 7 := by simp only [fld, pow_zero, Nat.div_one]; omega
  have hx : fld w 0 1 = 0 ↔ xBit w = false := fld_one_eq_toNat_iff (b := false)
  rw [← hx, this]
  omega

theorem decX2_eq_some_iff {f : Bool → Dst → Src → Nat → Option Instr} : decX2 w ls f = some i ↔
    ∃ nw d a s, f nw d a s = some i ∧ HasFields w 0 (R2.layout ⟨false, nw, d, a⟩ s false) ∧ a.lits <+: ls := by
  simp only [decX2, Option.ite_none_left_eq_some, Option.bind_eq_some_iff, mkR2_eq_some_iff, HasFields, Nat.reduceAdd,
    fld_one_eq_toNat_iff]
  constructor
  · grind [xBit, uBit]
  · rintro ⟨nw, d, a, s, h⟩
    exact ⟨by grind [xBit, uBit], ⟨false, nw, d, a⟩, by grind [xBit]⟩

theorem decCmp_eq_some_iff {f : Cmp → Bool → Option Instr} : decCmp w ls f = some i ↔
    ∃ c x, f c x = some i ∧ HasFields w 0 (c.layout x) ∧ c.a.lits ++ c.b.lits <+: ls := by
  simp only [decCmp, Option.ite_none_left_eq_some, HasFields, Nat.reduceAdd, fld_one_eq_toNat_iff, fld_eq_toNat_iff]
  constructor
  · grind [xBit, uBit, nwBit, srcOf_eq_some_iff]
  · rintro ⟨⟨u, cond, p, a, b⟩, x, h, ⟨rfl, hb, ha, rfl, rfl, hn, rfl, -⟩, t, rfl⟩
    rw [ha, hb, List.append_assoc, srcOf_code]
    simpa only [srcOf_code, nwBit, hn] using ⟨Bool.false_ne_true, h⟩

theorem decAsync_eq_some_iff {f : Src → Bool → Option Instr} : decAsync w ls f = some i ↔
    ∃ a x, f a x = some i ∧ HasFields w 0 [(1, x.toNat), (7, 0), (7, a.code), (9, 0x100)] ∧ a.lits <+: ls := by
  simp only [decAsync, Option.ite_none_right_eq_some, HasFields, Nat.reduceAdd, fld_one_eq_toNat_iff, Option.bind_eq_some_iff]
  grind [xBit, srcOf_eq_some_iff, srcOf_code, List.IsPrefix]

theorem decA_eq_some_iff {f : Bool → Src → Instr} : decA w ls f = some i ↔
    ∃ u a, i = f u a ∧ HasFields w 0 [(8, 0), (7, a.code), (8, 0), (1, u.toNat)] ∧ a.lits <+: ls := by
  simp only [decA, Option.ite_none_right_eq_some, HasFields, Nat.reduceAdd, fld_one_eq_toNat_iff, Option.map_eq_some_iff]
  grind [uBit, srcOf_eq_some_iff, srcOf_code, List.IsPrefix]

end

/-! ## Spellings of instructions, and the forms of opcodes -/

section
variable {w : Nat} {ls : List Word} {i : Instr}

theorem pack_fields {op : Nat} {fs : List (Nat × Nat)} (hf : Fits fs) (hw : layoutWidth fs = 24) :
    HasFields (pack fs op) 0 fs ∧ pack fs op / 2 ^ 24 = op := by
  have h := (div_eq_pack_iff (w := pack fs op) (lo := 0) hf).mp (Nat.div_one _)
  rwa [hw, Nat.zero_add] at h

theorem fld_pack_opcode {op : Nat} {fs : List (Nat × Nat)} (hop : op < 2 ^ 8) (hf : Fits fs) (hw : layoutWidth fs = 24) :
    fld (pack fs op) 24 8 = op := by
  rw [fld, (pack_fields hf hw).2, Nat.mod_eq_of_lt hop]

/-- An instruction with the fields of its word below the opcode, the least significant first, and its literals. -/
structure Spelling where
  instr : Instr
  fields : List (Nat × Nat)
  lits : List Word

/-- Whether `op` is an assigned opcode of format `φ` (04 R123). -/
abbrev HasFormat (op : Nat) (φ : Fmt) : Prop := op < 2 ^ 8 ∧ assigned op = true ∧ fmtOf op = φ

/-- Whether a spelling with opcode `op` is what the encoder writes. -/
structure Spelling.Of (p : Spelling) (op : Nat) : Prop where
  words : encode p.instr = wordsOf (pack p.fields op) p.lits
  fits : Fits p.fields
  width : layoutWidth p.fields = 24
  op_lt : op < 2 ^ 8
  op_assigned : assigned op = true
  count : litCount (pack p.fields op) = p.lits.length

namespace Spelling.Of
variable {op : Nat} {p : Spelling}

theorem hasFields (S : p.Of op) : HasFields (pack p.fields op) 0 p.fields := (pack_fields S.fits S.width).1

theorem opcode (S : p.Of op) : fld (pack p.fields op) 24 8 = op := fld_pack_opcode S.op_lt S.fits S.width

theorem word_lt (S : p.Of op) : pack p.fields op < 2 ^ 32 := by
  have h := (pack_fields (op := op) S.fits S.width).2
  have := S.op_lt
  omega

theorem encode_eq (S : p.Of op) (hw : w < 2 ^ 32) (ho : fld w 24 8 = op) (hf : HasFields w 0 p.fields)
    (hp : p.lits <+: ls) (hl : ls.length = litCount w) : encode p.instr = wordsOf w ls := by
  have hop : w / 2 ^ (0 + layoutWidth p.fields) = op := by
    rw [S.width, ← ho, fld, Nat.zero_add, Nat.mod_eq_of_lt (by omega)]
  have hpack : w = pack p.fields op := (Nat.div_one w).symm.trans ((div_eq_pack_iff S.fits).mpr ⟨hf, hop⟩)
  rw [S.words, ← hpack, hp.eq_of_length (by rw [hl, hpack, S.count])]

theorem ofR {op a b d : Nat} {u nw x : Bool} (hop : HasFormat op .r)
    (he : encode p.instr = wordsOf (encR op u nw d a b x) p.lits) (hp : encR op u nw d a b x = pack p.fields op)
    (hf : Fits p.fields) (hw : layoutWidth p.fields = 24) (ha : a < 2 ^ 7) (hb : b < 2 ^ 7)
    (hl : p.lits.length = litsOf a + if isSubfn op then 0 else litsOf b) : p.Of op where
  words := hp ▸ he
  fits := hf
  width := hw
  op_lt := hop.1
  op_assigned := hop.2.1
  count := by
    have ho := fld_pack_opcode hop.1 hf hw
    have := x.toNat_lt
    have hA : fld (pack p.fields op) 8 7 = a := by rw [← hp]; simp only [fld, encR]; omega
    have hB : fld (pack p.fields op) 1 7 = b := by rw [← hp]; simp only [fld, encR]; omega
    simp only [litCount, ho, hop, hA, hB, hl, Bool.not_true, Bool.false_eq_true, ite_false]

theorem ofM {op t d a : Nat} {u : Bool} {o : Off} (hop : HasFormat op .m)
    (he : encode p.instr = wordsOf (encM op u t d a o.code) p.lits) (hp : encM op u t d a o.code = pack p.fields op)
    (hf : Fits p.fields) (hw : layoutWidth p.fields = 24) (hk : o.ok = true) (hl : p.lits = o.lits) : p.Of op where
  words := hp ▸ he
  fits := hf
  width := hw
  op_lt := hop.1
  op_assigned := hop.2.1
  count := by
    have ho := fld_pack_opcode hop.1 hf hw
    have hO : fld (pack p.fields op) 0 6 = o.code := by
      have := o.code_lt
      rw [← hp]; simp only [fld, encM]; omega
    simp only [litCount, ho, hop, hO, hl, Bool.not_true, Bool.false_eq_true, ite_false]
    cases o with
    | imm v => rw [Off.ok, bne_iff_ne] at hk; simp [Off.code, Off.lits, hk]
    | lit l => rfl

theorem ofNoLits {op n : Nat} (hop : op < 2 ^ 8 ∧ assigned op = true ∧ (fmtOf op = .ma ∨ fmtOf op = .b))
    (he : encode p.instr = wordsOf n []) (hp : n = pack p.fields op)
    (hf : Fits p.fields) (hw : layoutWidth p.fields = 24) (hl : p.lits = []) : p.Of op where
  words := hl ▸ hp ▸ he
  fits := hf
  width := hw
  op_lt := hop.1
  op_assigned := hop.2.1
  count := by
    have ho := fld_pack_opcode hop.1 hf hw
    obtain ⟨-, ha, hm | hb⟩ := hop <;> simp [litCount, *]

end Spelling.Of

/-- What an opcode's decoder `dec` reads are the spellings `sp`, and the encoder writes these. -/
structure Form {α : Type} (op : Nat) (dec : Nat → List Word → Option Instr) (sp : α → Spelling) : Prop where
  reads : ∀ w ls i, dec w ls = some i ↔ ∃ v, i = (sp v).instr ∧ HasFields w 0 (sp v).fields ∧ (sp v).lits <+: ls
  writes : ∀ v, (sp v).Of op

theorem Form.encode_eq {α : Type} {op : Nat} {dec : Nat → List Word → Option Instr} {sp : α → Spelling} (F : Form op dec sp)
    (hw : w < 2 ^ 32) (ho : fld w 24 8 = op) (hl : ls.length = litCount w) (h : dec w ls = some i) : encode i = wordsOf w ls := by
  obtain ⟨v, rfl, hf, hp⟩ := (F.reads w ls i).mp h
  exact (F.writes v).encode_eq hw ho hf hp hl

/-- What the decoder reads from a word and its literals under the opcode `op`. -/
def decodeAt (op w : Nat) (ls : List Word) : Option Instr :=
  if op < 0x20 then decodeInt op w ls
  else if op < 0x40 then decodeFp op w ls
  else if op < 0x80 then decodeMove op w ls
  else if op < 0xB0 then decodeMem op w ls
  else decodeSys op w ls

theorem decodeRaw_eq_decodeAt (w : Nat) (ls : List Word) : decodeRaw w ls = decodeAt (fld w 24 8) w ls := rfl

/-- The words of an instruction decode to it, with as many literals as its first word announces. -/
def RoundTrips (i : Instr) : Prop :=
  decode ((encode i).headD 0).toNat (encode i).tail = .ok i ∧ litCount ((encode i).headD 0).toNat = (encode i).tail.length

theorem Form.roundTrips {α : Type} {op : Nat} {dec : Nat → List Word → Option Instr} {sp : α → Spelling} (F : Form op dec sp)
    (v : α) (hwf : (sp v).instr.wf = true) (hd : ∀ w ls, decodeAt op w ls = dec w ls := by intros; rfl) :
    RoundTrips (sp v).instr := by
  have S := F.writes v
  have hraw : decodeRaw (pack (sp v).fields op) (sp v).lits = some (sp v).instr := by
    rw [decodeRaw_eq_decodeAt, S.opcode, hd]
    exact (F.reads _ _ _).mpr ⟨v, rfl, S.hasFields, List.prefix_rfl⟩
  simp only [RoundTrips, S.words, wordsOf, List.headD_cons, List.tail_cons, BitVec.toNat_ofNat, Nat.mod_eq_of_lt S.word_lt, decode,
    S.opcode, S.op_assigned, hraw, hwf, if_true, S.count, and_self]

/-! ## The forms of the decoders that several opcodes share -/

theorem form_dec3x {op : Nat} {f : R3 → Bool → Instr}
    (he : ∀ r x, encode (f r x) = enc3 op r x := by intros; rfl)
    (hop : HasFormat op .r := by decide) (hs : isSubfn op = false := by rfl) :
    Form op (dec3x · · f) fun (r, x) => ⟨f r x, r.layout x, r.a.lits ++ r.b.lits⟩ where
  reads w ls i := by
    simp only [Prod.exists, dec3x, Option.map_eq_some_iff, mkR3_eq_some_iff, HasFields, Nat.reduceAdd, fld_one_eq_toNat_iff]
    grind [xBit]
  writes := fun (r, x) => .ofR hop (he r x) (by simp only [encR, pack]; omega)
    ⟨x.toNat_lt, r.b.code_lt, r.a.code_lt, r.d.code_lt, r.nw.toNat_lt, r.u.toNat_lt, trivial⟩ rfl r.a.code_lt r.b.code_lt
    (by simp only [List.length_append, Src.length_lits, hs, Bool.false_eq_true, ite_false])

theorem form_dec3 {op : Nat} {f : R3 → Instr}
    (he : ∀ r, encode (f r) = enc3 op r false := by intros; rfl)
    (hop : HasFormat op .r := by decide) (hs : isSubfn op = false := by rfl) :
    Form op (dec3 · · f) fun r => ⟨f r, r.layout false, r.a.lits ++ r.b.lits⟩ where
  reads w ls i := by
    simp only [dec3, Option.ite_none_left_eq_some, Option.map_eq_some_iff, mkR3_eq_some_iff, HasFields, Nat.reduceAdd,
      fld_one_eq_toNat_iff]
    grind [xBit]
  writes r := .ofR hop (he r) (by simp only [encR, pack]; omega)
    ⟨by decide, r.b.code_lt, r.a.code_lt, r.d.code_lt, r.nw.toNat_lt, r.u.toNat_lt, trivial⟩ rfl r.a.code_lt r.b.code_lt
    (by simp only [List.length_append, Src.length_lits, hs, Bool.false_eq_true, ite_false])

theorem form_decX3 {op : Nat} {f : Bool → Dst → Src → Src → Instr}
    (he : ∀ nw d a b, encode (f nw d a b) = encX3 op nw d a b := by intros; rfl)
    (hop : HasFormat op .r := by decide) (hs : isSubfn op = false := by rfl) :
    Form op (decX3 · · f) fun (nw, d, a, b) => ⟨f nw d a b, R3.layout ⟨false, nw, d, a, b⟩ false, a.lits ++ b.lits⟩ where
  reads w ls i := by
    simp only [Prod.exists, decX3, Option.ite_none_left_eq_some, Option.map_eq_some_iff, mkR3_eq_some_iff, HasFields, Nat.reduceAdd,
      fld_one_eq_toNat_iff]
    exact ⟨by grind [xBit, uBit], fun ⟨nw, d, a, b, h⟩ =>
      ⟨by grind [xBit, uBit], ⟨false, nw, d, a, b⟩, by grind [xBit]⟩⟩
  writes := fun (nw, d, a, b) => .ofR hop (he nw d a b) (by simp only [encR, pack]; omega)
    ⟨by decide, b.code_lt, a.code_lt, d.code_lt, nw.toNat_lt, Bool.toNat_lt _, trivial⟩ rfl a.code_lt b.code_lt
    (by simp only [List.length_append, Src.length_lits, hs, Bool.false_eq_true, ite_false])

theorem form_dec2x {op : Nat} {f : R2 → Bool → Instr}
    (he : ∀ r x, encode (f r x) = enc2 op r 0 x := by intros; rfl) (hop : HasFormat op .r := by decide) :
    Form op (dec2x · · f) fun (r, x) => ⟨f r x, r.layout 0 x, r.a.lits⟩ where
  reads w ls i := by
    simp only [Prod.exists, dec2x, Option.ite_none_right_eq_some, Option.map_eq_some_iff, mkR2_eq_some_iff, HasFields, Nat.reduceAdd,
      fld_one_eq_toNat_iff]
    grind [xBit]
  writes := fun (r, x) => .ofR hop (he r x) (by simp only [encR, pack]; omega)
    ⟨x.toNat_lt, by decide, r.a.code_lt, r.d.code_lt, r.nw.toNat_lt, r.u.toNat_lt, trivial⟩ rfl r.a.code_lt (by decide)
    (by simp [Src.length_lits, litsOf])

theorem form_dec2 {op : Nat} {f : R2 → Instr}
    (he : ∀ r, encode (f r) = enc2 op r 0 false := by intros; rfl) (hop : HasFormat op .r := by decide) :
    Form op (dec2 · · f) fun r => ⟨f r, r.layout 0 false, r.a.lits⟩ where
  reads w ls i := by
    simp only [dec2, Option.ite_none_right_eq_some, Option.map_eq_some_iff, mkR2_eq_some_iff, HasFields, Nat.reduceAdd,
      fld_one_eq_toNat_iff, beq_iff_eq, fld_0_8_eq_zero_iff]
    grind [xBit]
  writes r := .ofR hop (he r) (by simp only [encR, pack]; omega)
    ⟨by decide, by decide, r.a.code_lt, r.d.code_lt, r.nw.toNat_lt, r.u.toNat_lt, trivial⟩ rfl r.a.code_lt (by decide)
    (by simp [Src.length_lits, litsOf])

theorem form_decSub {op : Nat} {f : R2 → BitVec 7 → Instr}
    (he : ∀ r sub, encode (f r sub) = enc2 op r sub.toNat false := by intros; rfl)
    (hop : HasFormat op .r := by decide) (hs : isSubfn op = true := by rfl) :
    Form op (decSub · · f) fun (r, sub) => ⟨f r sub, r.layout sub.toNat false, r.a.lits⟩ where
  reads w ls i := by
    simp only [Prod.exists, decSub, Option.ite_none_left_eq_some, Option.map_eq_some_iff, mkR2_eq_some_iff, HasFields, Nat.reduceAdd,
      fld_one_eq_toNat_iff, fld_eq_toNat_iff]
    grind [xBit]
  writes := fun (r, sub) => .ofR hop (he r sub) (by simp only [encR, pack]; omega)
    ⟨by decide, sub.isLt, r.a.code_lt, r.d.code_lt, r.nw.toNat_lt, r.u.toNat_lt, trivial⟩ rfl r.a.code_lt sub.isLt
    (by simp only [Src.length_lits, hs, ite_true, Nat.add_zero])

/-- A cross-thread instruction with a subfunction: its values `v` stand in the B field as `sub v`. -/
theorem form_decX2 {α : Type} {op : Nat} {g : Bool → Dst → Src → Nat → Option Instr}
    {f : Bool → Dst → Src → α → Instr} {sub : α → Nat}
    (hg : ∀ {nw d a s i}, g nw d a s = some i ↔ ∃ v, i = f nw d a v ∧ s = sub v) (hlt : ∀ v, sub v < 2 ^ 7)
    (he : ∀ nw d a v, encode (f nw d a v) = encX2 op nw d a (sub v) := by intros; rfl)
    (hop : HasFormat op .r := by decide) (hs : isSubfn op = true := by rfl) :
    Form op (decX2 · · g) fun (nw, d, a, v) => ⟨f nw d a v, R2.layout ⟨false, nw, d, a⟩ (sub v) false, a.lits⟩ where
  reads w ls i := by
    simp only [Prod.exists, decX2_eq_some_iff, hg]
    grind
  writes := fun (nw, d, a, v) => .ofR hop (he nw d a v) (by simp only [encR, pack]; omega)
    ⟨by decide, hlt v, a.code_lt, d.code_lt, nw.toNat_lt, Bool.toNat_lt _, trivial⟩ rfl a.code_lt (hlt v)
    (by simp only [Src.length_lits, hs, ite_true, Nat.add_zero])

theorem form_decLd {op : Nat} {f : Ld → Instr}
    (he : ∀ m, encode (f m) = encLd op m := by intros; rfl) (hop : HasFormat op .m := by decide) :
    Form op (decLd · · f) fun (m : { m : Ld // m.off.ok = true }) =>
      ⟨f m, [(6, m.1.off.code), (7, m.1.a.code), (7, m.1.d.toNat), (3, m.1.t.toNat), (1, m.1.u.toNat)], m.1.off.lits⟩ where
  reads w ls i := by
    simp only [Subtype.exists, exists_prop, decLd, HasFields, Nat.reduceAdd, fld_one_eq_toNat_iff, fld_eq_toNat_iff]
    constructor
    · grind [uBit, vregOf_eq_some_iff, aregOf_eq_some_iff, offOf_eq_some_iff]
    · rintro ⟨⟨u, t, d, a, o⟩, hk, rfl, ⟨ho, ha, hd, rfl, rfl, -⟩, hp⟩
      rw [hd, ha, vregOf_toNat, aregOf_code, offOf_eq_some_iff.mpr ⟨ho, hp, hk⟩]
      rfl
  writes m := .ofM hop (he m) (by simp only [encM, pack]; omega)
    ⟨m.1.off.code_lt, m.1.a.code_lt.trans (by decide), m.1.d.isLt.trans (by decide), m.1.t.isLt, m.1.u.toNat_lt, trivial⟩
    rfl m.2 rfl

theorem form_decSt {op : Nat} {f : St → Instr}
    (he : ∀ m, encode (f m) = encSt op m := by intros; rfl) (hop : HasFormat op .m := by decide) :
    Form op (decSt · · f) fun (m : { m : St // m.off.ok = true }) =>
      ⟨f m, [(6, m.1.off.code), (7, m.1.a.code), (7, m.1.d.code), (3, m.1.t.toNat), (1, m.1.u.toNat)], m.1.off.lits⟩ where
  reads w ls i := by
    simp only [Subtype.exists, exists_prop, decSt, HasFields, Nat.reduceAdd, fld_one_eq_toNat_iff, fld_eq_toNat_iff]
    constructor
    · grind [uBit, stDataOf_eq_some_iff, aregOf_eq_some_iff, offOf_eq_some_iff]
    · rintro ⟨⟨u, t, d, a, o⟩, hk, rfl, ⟨ho, ha, hd, rfl, rfl, -⟩, hp⟩
      rw [hd, ha, stDataOf_code, aregOf_code, offOf_eq_some_iff.mpr ⟨ho, hp, hk⟩]
      rfl
  writes m := .ofM hop (he m) (by simp only [encM, pack]; omega)
    ⟨m.1.off.code_lt, m.1.a.code_lt.trans (by decide), m.1.d.code_lt, m.1.t.isLt, m.1.u.toNat_lt, trivial⟩ rfl m.2 rfl

theorem form_decAtm {op : Nat} {f : Atm → Instr}
    (he : ∀ m, encode (f m) = wordsOf (encMA op m) [] := by intros; rfl) (hop : HasFormat op .ma := by decide) :
    Form op (fun w _ => decAtm w f) fun m =>
      ⟨f m, [(4, m.off.toNat), (7, m.a.code), (7, m.d.toNat), (1, m.w.toNat), (4, m.aop.toNat), (1, m.u.toNat)], []⟩ where
  reads w ls i := by
    simp only [decAtm, HasFields, Nat.reduceAdd, fld_one_eq_toNat_iff, fld_eq_toNat_iff, List.nil_prefix, and_true]
    constructor
    · grind [uBit, vregOf_eq_some_iff, aregOf_eq_some_iff]
    · rintro ⟨⟨u, aop, w', d, a, o⟩, rfl, rfl, ha, hd, rfl, rfl, rfl⟩
      rw [hd, ha, vregOf_toNat, aregOf_code]
      rfl
  writes m := .ofNoLits ⟨hop.1, hop.2.1, .inl hop.2.2⟩ (he m) (by simp only [encMA, pack]; omega)
    ⟨m.off.isLt, m.a.code_lt.trans (by decide), m.d.isLt.trans (by decide), m.w.toNat_lt, m.aop.isLt, m.u.toNat_lt, trivial⟩
    rfl rfl

theorem form_decBra {op : Nat} {f : Bra → Instr}
    (he : ∀ b, encode (f b) = wordsOf (encB op b.u b.p.toNat b.s b.disp.toNat) [] := by intros; rfl)
    (hop : HasFormat op .b := by decide) :
    Form op (fun w _ => decBra w f) fun b => ⟨f b, [(19, b.disp.toNat), (1, b.s.toNat), (3, b.p.toNat), (1, b.u.toNat)], []⟩ where
  reads w ls i := by
    simp only [decBra, HasFields, Nat.reduceAdd, fld_one_eq_toNat_iff, fld_eq_toNat_iff, List.nil_prefix, and_true]
    constructor
    · grind [uBit]
    · rintro ⟨⟨u, p, s, disp⟩, rfl, rfl, rfl, rfl, rfl⟩
      rfl
  writes b := .ofNoLits ⟨hop.1, hop.2.1, .inr hop.2.2⟩ (he b) (by simp only [encB, pack]; omega)
    ⟨b.disp.isLt, b.s.toNat_lt, b.p.isLt, b.u.toNat_lt, trivial⟩ rfl rfl

theorem form_decU {op : Nat} {f : Bool → Instr}
    (he : ∀ u, encode (f u) = wordsOf (encR op u false 0 0 0 false) [] := by intros; rfl) (hop : HasFormat op .r := by decide) :
    Form op (fun w _ => decU w f) fun u => ⟨f u, [(23, 0), (1, u.toNat)], []⟩ where
  reads w ls i := by
    simp only [decU, Option.ite_none_right_eq_some, HasFields, Nat.reduceAdd, fld_one_eq_toNat_iff, List.nil_prefix, and_true]
    grind [uBit]
  writes u := .ofR hop (he u) (by simp only [encR, pack, Bool.toNat_false]; omega) ⟨by decide, u.toNat_lt, trivial⟩ rfl (by decide)
    (by decide) (by simp [litsOf])

theorem form_decA {op : Nat} {f : Bool → Src → Instr}
    (he : ∀ u a, encode (f u a) = encA op u a 0 false := by intros; rfl) (hop : HasFormat op .r := by decide) :
    Form op (decA · · f) fun (u, a) => ⟨f u a, [(8, 0), (7, a.code), (8, 0), (1, u.toNat)], a.lits⟩ where
  reads w ls i := by simp only [Prod.exists, decA_eq_some_iff]
  writes := fun (u, a) => .ofR hop (he u a) (by simp only [encR, pack, Bool.toNat_false]; omega)
    ⟨by decide, a.code_lt, by decide, u.toNat_lt, trivial⟩ rfl a.code_lt (by decide) (by simp [Src.length_lits, litsOf])

theorem form_decA_of_not_uBit {op : Nat} {f : Src → Instr}
    (he : ∀ a, encode (f a) = encA op false a 0 false := by intros; rfl) (hop : HasFormat op .r := by decide) :
    Form op (fun w ls => if uBit w then none else decA w ls fun _ a => f a) fun a =>
      ⟨f a, [(8, 0), (7, a.code), (8, 0), (1, false.toNat)], a.lits⟩ where
  reads w ls i := by
    simp only [Option.ite_none_left_eq_some, decA_eq_some_iff, HasFields, Nat.reduceAdd, fld_one_eq_toNat_iff]
    grind [uBit]
  writes a := .ofR hop (he a) (by simp only [encR, pack, Bool.toNat_false]; omega)
    ⟨by decide, a.code_lt, by decide, by decide, trivial⟩ rfl a.code_lt (by decide) (by simp [Src.length_lits, litsOf])

theorem form_decAsync {op : Nat} {f : Src → Bool → Instr}
    (he : ∀ a x, encode (f a x) = encA op true a 0 x := by intros; rfl) (hop : HasFormat op .r := by decide) :
    Form op (decAsync · · fun a x => some (f a x)) fun (a, x) =>
      ⟨f a x, [(1, x.toNat), (7, 0), (7, a.code), (9, 0x100)], a.lits⟩ where
  reads w ls i := by
    simp only [Prod.exists, decAsync_eq_some_iff, Option.some.injEq]
    grind
  writes := fun (a, x) => .ofR hop (he a x) (by simp only [encR, pack, Bool.toNat_true, Bool.toNat_false]; omega)
    ⟨x.toNat_lt, by decide, a.code_lt, by decide, trivial⟩ rfl a.code_lt (by decide) (by simp [Src.length_lits, litsOf])

theorem form_decAsync_of_not_xBit {op : Nat} {f : Src → Instr}
    (he : ∀ a, encode (f a) = encA op true a 0 false := by intros; rfl) (hop : HasFormat op .r := by decide) :
    Form op (decAsync · · fun a x => if x then none else some (f a)) fun a =>
      ⟨f a, [(1, false.toNat), (7, 0), (7, a.code), (9, 0x100)], a.lits⟩ where
  reads w ls i := by
    simp only [decAsync_eq_some_iff, Option.ite_none_left_eq_some, Option.some.injEq]
    grind
  writes a := .ofR hop (he a) (by simp only [encR, pack, Bool.toNat_true, Bool.toNat_false]; omega)
    ⟨by decide, by decide, a.code_lt, by decide, trivial⟩ rfl a.code_lt (by decide) (by simp [Src.length_lits, litsOf])

theorem form_decCmp {op : Nat} {f : Cmp → Bool → Instr}
    (he : ∀ c x, encode (f c x) = encCmp op c x := by intros; rfl)
    (hop : HasFormat op .r := by decide) (hs : isSubfn op = false := by rfl) :
    Form op (decCmp · · fun c x => some (f c x)) fun (c, x) => ⟨f c x, c.layout x, c.a.lits ++ c.b.lits⟩ where
  reads w ls i := by
    simp only [Prod.exists, decCmp_eq_some_iff, Option.some.injEq]
    grind
  writes := fun (c, x) => .ofR hop (he c x) (by simp only [encR, pack, Bool.toNat_false]; omega)
    ⟨x.toNat_lt, c.b.code_lt, c.a.code_lt, c.p.isLt, c.cond.isLt, by decide, c.u.toNat_lt, trivial⟩ rfl c.a.code_lt c.b.code_lt
    (by simp only [List.length_append, Src.length_lits, hs, Bool.false_eq_true, ite_false])

theorem form_decCmp_of_not_xBit {op : Nat} {f : Cmp → Instr}
    (he : ∀ c, encode (f c) = encCmp op c false := by intros; rfl)
    (hop : HasFormat op .r := by decide) (hs : isSubfn op = false := by rfl) :
    Form op (decCmp · · fun c x => if x then none else some (f c)) fun c => ⟨f c, c.layout false, c.a.lits ++ c.b.lits⟩ where
  reads w ls i := by
    simp only [decCmp_eq_some_iff, Option.ite_none_left_eq_some, Option.some.injEq]
    grind
  writes c := .ofR hop (he c) (by simp only [encR, pack, Bool.toNat_false]; omega)
    ⟨by decide, c.b.code_lt, c.a.code_lt, c.p.isLt, c.cond.isLt, by decide, c.u.toNat_lt, trivial⟩ rfl c.a.code_lt c.b.code_lt
    (by simp only [List.length_append, Src.length_lits, hs, Bool.false_eq_true, ite_false])

theorem form_number {op : Nat} {f : Bool → BitVec 7 → Instr}
    (he : ∀ u n, encode (f u n) = wordsOf (encR op u false 0 0 n.toNat false) [] := by intros; rfl)
    (hop : HasFormat op .r := by decide) (hs : isSubfn op = true := by rfl) :
    Form op (fun w _ => if fld w 8 15 != 0 || xBit w then none else some (f (uBit w) (BitVec.ofNat 7 (fld w 1 7)))) fun (u, n) =>
      ⟨f u n, [(1, false.toNat), (7, n.toNat), (15, 0), (1, u.toNat)], []⟩ where
  reads w ls i := by
    simp only [Prod.exists, HasFields, Nat.reduceAdd, fld_one_eq_toNat_iff, fld_eq_toNat_iff, List.nil_prefix, and_true]
    grind [uBit, xBit]
  writes := fun (u, n) => .ofR hop (he u n) (by simp only [encR, pack, Bool.toNat_false]; omega)
    ⟨by decide, n.isLt, by decide, u.toNat_lt, trivial⟩ rfl (by decide) n.isLt (by simp [hs, litsOf])

/-! ## Cross-thread instructions with a subfunction in the B field (04 R116) -/

theorem imm_iff {n s : Nat} {g : BitVec n → Instr} : (if s < 2 ^ n then some (g (BitVec.ofNat n s)) else none) = some i ↔
    ∃ v, i = g v ∧ s = v.toNat := by
  rw [Option.ite_none_right_eq_some, Option.some_inj]
  constructor
  · rintro ⟨hs, rfl⟩
    exact ⟨_, rfl, (BitVec.toNat_ofNat .. |>.trans (Nat.mod_eq_of_lt hs)).symm⟩
  · rintro ⟨v, rfl, rfl⟩
    exact ⟨v.isLt, by rw [BitVec.ofNat_toNat, BitVec.setWidth_eq]⟩

theorem scan_iff {s : Nat} {g : Bool → BitVec 4 → Instr} :
    (if s < 32 then some (g (decide (16 ≤ s)) (BitVec.ofNat 4 s)) else none) = some i ↔
      ∃ v : Bool × BitVec 4, i = g v.1 v.2 ∧ s = v.1.toNat * 16 + v.2.toNat := by
  rw [Option.ite_none_right_eq_some, Option.some_inj]
  constructor
  · rintro ⟨hs, rfl⟩
    refine ⟨(decide (16 ≤ s), BitVec.ofNat 4 s), rfl, ?_⟩
    rw [BitVec.toNat_ofNat]
    by_cases h : 16 ≤ s <;> simp only [h, decide_true, decide_false, Bool.toNat_true, Bool.toNat_false] <;> omega
  · rintro ⟨⟨exc, v⟩, rfl, rfl⟩
    have hv : BitVec.ofNat 4 (exc.toNat * 16 + v.toNat) = v := BitVec.eq_of_toNat_eq (by rw [BitVec.toNat_ofNat]; omega)
    have hx : decide (16 ≤ exc.toNat * 16 + v.toNat) = exc := by
      cases exc <;> simp only [Bool.toNat_true, Bool.toNat_false, decide_eq_true_eq, decide_eq_false_iff_not] <;> omega
    have := exc.toNat_lt
    exact ⟨by dsimp only; omega, by rw [hv, hx]⟩

theorem mxpk_iff {s : Nat} {g : BitVec 2 → BitVec 4 → Instr} :
    (if s < 64 then some (g (BitVec.ofNat 2 (s / 16)) (BitVec.ofNat 4 s)) else none) = some i ↔
      ∃ v : BitVec 2 × BitVec 4, i = g v.1 v.2 ∧ s = v.1.toNat * 16 + v.2.toNat := by
  rw [Option.ite_none_right_eq_some, Option.some_inj]
  constructor
  · rintro ⟨hs, rfl⟩
    refine ⟨(BitVec.ofNat 2 (s / 16), BitVec.ofNat 4 s), rfl, ?_⟩
    rw [BitVec.toNat_ofNat, BitVec.toNat_ofNat]
    omega
  · rintro ⟨⟨r, v⟩, rfl, rfl⟩
    have hr : BitVec.ofNat 2 ((r.toNat * 16 + v.toNat) / 16) = r := BitVec.eq_of_toNat_eq (by rw [BitVec.toNat_ofNat]; omega)
    have hv : BitVec.ofNat 4 (r.toNat * 16 + v.toNat) = v := BitVec.eq_of_toNat_eq (by rw [BitVec.toNat_ofNat]; omega)
    exact ⟨by omega, by rw [hr, hv]⟩

theorem first_iff {s : Nat} {g : Bool → Instr} :
    (if s < 2 then some (g (s == 1)) else none) = some i ↔ ∃ v, i = g v ∧ s = v.toNat := by
  rw [Option.ite_none_right_eq_some, Option.some_inj]
  constructor
  · rintro ⟨hs, rfl⟩
    refine ⟨_, rfl, ?_⟩
    interval_cases s <;> rfl
  · rintro ⟨v, rfl, rfl⟩
    cases v <;> exact ⟨by decide, rfl⟩

theorem form_mxscl : Form 0x38 (decodeFp 0x38) fun (nw, d, a, f) =>
    ⟨.mxscl nw d a f, R2.layout ⟨false, nw, d, a⟩ f.toNat false, a.lits⟩ :=
  form_decX2 (op := 0x38) (f := .mxscl) (imm_iff (n := 4)) fun v => v.isLt.trans (by decide)

theorem form_mxupk : Form 0x3A (decodeFp 0x3A) fun (nw, d, a, f) =>
    ⟨.mxupk nw d a f, R2.layout ⟨false, nw, d, a⟩ f.toNat false, a.lits⟩ :=
  form_decX2 (op := 0x3A) (f := .mxupk) (imm_iff (n := 4)) fun v => v.isLt.trans (by decide)

theorem form_redx : Form 0x54 (decodeMove 0x54) fun (nw, d, a, s) =>
    ⟨.redx nw d a s, R2.layout ⟨false, nw, d, a⟩ s.toNat false, a.lits⟩ :=
  form_decX2 (op := 0x54) (f := .redx) (imm_iff (n := 4)) fun v => v.isLt.trans (by decide)

theorem form_rank : Form 0x57 (decodeMove 0x57) fun (nw, d, a, s) =>
    ⟨.rank nw d a s, R2.layout ⟨false, nw, d, a⟩ s.toNat false, a.lits⟩ :=
  form_decX2 (op := 0x57) (f := .rank) (imm_iff (n := 2)) fun v => v.isLt.trans (by decide)

theorem form_first : Form 0x56 (decodeMove 0x56) fun (nw, d, a, last) =>
    ⟨.first nw d a last, R2.layout ⟨false, nw, d, a⟩ last.toNat false, a.lits⟩ :=
  form_decX2 (op := 0x56) (f := .first) first_iff fun v => v.toNat_lt.trans (by decide)

theorem form_mxpk : Form 0x39 (decodeFp 0x39) fun (nw, d, a, (v : BitVec 2 × BitVec 4)) =>
    ⟨.mxpk nw d a v.1 v.2, R2.layout ⟨false, nw, d, a⟩ (v.1.toNat * 16 + v.2.toNat) false, a.lits⟩ :=
  form_decX2 (op := 0x39) (f := fun nw d a (v : BitVec 2 × BitVec 4) => .mxpk nw d a v.1 v.2) mxpk_iff
    fun v => by omega

theorem form_scan : Form 0x53 (decodeMove 0x53) fun (nw, d, a, (v : Bool × BitVec 4)) =>
    ⟨.scan nw d a v.1 v.2, R2.layout ⟨false, nw, d, a⟩ (v.1.toNat * 16 + v.2.toNat) false, a.lits⟩ :=
  form_decX2 (op := 0x53) (f := fun nw d a (v : Bool × BitVec 4) => .scan nw d a v.1 v.2) scan_iff
    fun v => by have := v.1.toNat_lt; omega

/-! ## The forms of opcodes with a layout of their own -/

/-- The fields of a VOTE, by its destination. -/
def voteFields (nw : Bool) (pa : BitVec 3) (mode : BitVec 2) : VoteDst → List (Nat × Nat)
  | .reg d =>
    [(1, false.toNat), (2, mode.toNat), (1, false.toNat), (4, 0), (3, pa.toNat), (4, 0), (7, d.code), (1, nw.toNat), (1, false.toNat)]
  | .pred p =>
    [(1, false.toNat), (2, mode.toNat), (1, true.toNat), (4, 0), (3, pa.toNat), (4, 0), (3, p.toNat), (4, 0), (1, nw.toNat),
      (1, false.toNat)]

theorem form_vote : Form 0x55 (decodeMove 0x55) fun (nw, d, pa, mode) => ⟨.vote nw d pa mode, voteFields nw pa mode d, []⟩ where
  reads w ls i := by
    simp only [Prod.exists, decodeMove, Option.ite_none_left_eq_some]
    constructor
    · rintro ⟨hz, h⟩
      split at h
      next h3 =>
        rw [Option.ite_none_left_eq_some, Option.some_inj] at h
        refine ⟨_, .pred _, _, _, h.2.symm, ?_, List.nil_prefix⟩
        simp only [voteFields, HasFields, Nat.reduceAdd, fld_one_eq_toNat_iff, fld_eq_toNat_iff]
        grind [uBit, nwBit, xBit]
      next h3 =>
        obtain ⟨d, hd, rfl⟩ := Option.map_eq_some_iff.mp h
        refine ⟨_, .reg d, _, _, rfl, ?_, List.nil_prefix⟩
        simp only [voteFields, HasFields, Nat.reduceAdd, fld_one_eq_toNat_iff, fld_eq_toNat_iff]
        grind [uBit, nwBit, xBit, dstOf_eq_some_iff]
    · rintro ⟨nw, d, pa, mode, rfl, hf, -⟩
      cases d <;> simp only [voteFields, HasFields, Nat.reduceAdd, fld_one_eq_toNat_iff, fld_eq_toNat_iff] at hf <;>
        grind [uBit, nwBit, xBit, dstOf_code]
  writes
    | (nw, .reg d, pa, mode) => .ofR (by decide) rfl (by simp only [encR, voteFields, pack, Bool.toNat_false]; omega)
        ⟨by decide, mode.isLt, by decide, by decide, pa.isLt, by decide, d.code_lt, nw.toNat_lt, by decide, trivial⟩
        rfl (by omega) (by omega) (by simp [isSubfn, litsOf_of_lt (pa.isLt.trans (by decide))])
    | (nw, .pred p, pa, mode) => .ofR (by decide) rfl (by simp only [encR, voteFields, pack, Bool.toNat_false, Bool.toNat_true]; omega)
        ⟨by decide, mode.isLt, by decide, by decide, pa.isLt, by decide, p.isLt, by decide, nw.toNat_lt, by decide, trivial⟩
        rfl (by omega) (by omega) (by simp [isSubfn, litsOf_of_lt (pa.isLt.trans (by decide))])

theorem form_cvt : Form 0x37 (decodeFp 0x37) fun (r, pair, rnd, x) =>
    ⟨.cvt r pair rnd x,
      [(1, x.toNat), (2, rnd.toNat), (5, pair.toNat), (7, r.a.code), (7, r.d.code), (1, r.nw.toNat), (1, r.u.toNat)], r.a.lits⟩ where
  reads w ls i := by
    simp only [Prod.exists, decodeFp, mkR2_eq_some_iff, Option.map_eq_some_iff, HasFields, Nat.reduceAdd, fld_one_eq_toNat_iff,
      fld_eq_toNat_iff]
    grind [uBit, nwBit, xBit]
  writes := fun (r, pair, rnd, x) => .ofR (by decide) rfl (by simp only [encR, pack]; omega)
    ⟨x.toNat_lt, rnd.isLt, pair.isLt, r.a.code_lt, r.d.code_lt, r.nw.toNat_lt, r.u.toNat_lt, trivial⟩ rfl r.a.code_lt (by omega)
    (by simp [isSubfn, litsOf, Src.length_lits])

theorem form_plog : Form 0x42 (decodeMove 0x42) fun (u, op, p, pa, pb) =>
    ⟨.plog u op p pa pb,
      [(1, false.toNat), (3, pb.toNat), (4, 0), (3, pa.toNat), (4, 0), (3, p.toNat), (4, op.toNat), (1, false.toNat),
        (1, u.toNat)], []⟩ where
  reads w ls i := by
    simp only [Prod.exists, decodeMove, HasFields, Nat.reduceAdd, fld_one_eq_toNat_iff, fld_eq_toNat_iff, List.nil_prefix, and_true]
    grind [uBit, nwBit, xBit]
  writes := fun (u, op, p, pa, pb) => .ofR (by decide) rfl (by simp only [encR, pack, Bool.toNat_false]; omega)
    ⟨by decide, pb.isLt, by decide, pa.isLt, by decide, p.isLt, op.isLt, by decide, u.toNat_lt, trivial⟩ rfl (by omega) (by omega)
    (by simp [litsOf_of_lt (pa.isLt.trans (by decide)), litsOf_of_lt (pb.isLt.trans (by decide))])

theorem form_pval : Form 0x43 (decodeMove 0x43) fun (u, nw, d, pa, x) =>
    ⟨.pval u nw d pa x, [(1, x.toNat), (7, 0), (3, pa.toNat), (4, 0), (7, d.code), (1, nw.toNat), (1, u.toNat)], []⟩ where
  reads w ls i := by
    simp only [Prod.exists, decodeMove, Option.ite_none_left_eq_some, Option.map_eq_some_iff, HasFields, Nat.reduceAdd,
      fld_one_eq_toNat_iff, fld_eq_toNat_iff, List.nil_prefix, and_true]
    grind [uBit, nwBit, xBit, dstOf_eq_some_iff, dstOf_code]
  writes := fun (u, nw, d, pa, x) => .ofR (by decide) rfl (by simp only [encR, pack]; omega)
    ⟨x.toNat_lt, by decide, pa.isLt, by decide, d.code_lt, nw.toNat_lt, u.toNat_lt, trivial⟩ rfl (by omega) (by omega)
    (by simp [litsOf_of_lt (pa.isLt.trans (by decide)), litsOf_zero])

theorem form_vchk : Form 0x44 (decodeMove 0x44) fun (u, p, a, x) =>
    ⟨.vchk u p a x, [(1, x.toNat), (7, 0), (7, a.code), (3, p.toNat), (4, 0), (1, false.toNat), (1, u.toNat)], a.lits⟩ where
  reads w ls i := by
    simp only [Prod.exists, decodeMove, Option.ite_none_left_eq_some, Option.map_eq_some_iff, HasFields, Nat.reduceAdd,
      fld_one_eq_toNat_iff, fld_eq_toNat_iff]
    grind [uBit, nwBit, xBit, srcOf_eq_some_iff, srcOf_code, List.IsPrefix]
  writes := fun (u, p, a, x) => .ofR (by decide) rfl (by simp only [encR, pack, Bool.toNat_false]; omega)
    ⟨x.toNat_lt, by decide, a.code_lt, p.isLt, by decide, by decide, u.toNat_lt, trivial⟩ rfl a.code_lt (by omega)
    (by simp [isSubfn, litsOf, Src.length_lits])

theorem form_elect : Form 0x58 (decodeMove 0x58) fun (nw, d, slot) =>
    ⟨.elect nw d slot, [(1, false.toNat), (1, slot.toNat), (6, 0), (7, 0), (7, d.code), (1, nw.toNat), (1, false.toNat)], []⟩ where
  reads w ls i := by
    simp only [Prod.exists, decodeMove, Option.ite_none_left_eq_some, Option.map_eq_some_iff, HasFields, Nat.reduceAdd,
      fld_one_eq_toNat_iff, List.nil_prefix, and_true]
    grind [uBit, nwBit, xBit, dstOf_eq_some_iff, dstOf_code]
  writes := fun (nw, d, slot) => .ofR (by decide) rfl (by simp only [encR, pack, Bool.toNat_false]; omega)
    ⟨by decide, slot.toNat_lt, by decide, by decide, d.code_lt, nw.toNat_lt, by decide, trivial⟩
    rfl (by omega) (slot.toNat_lt.trans (by decide))
    (by simp [isSubfn, litsOf])

theorem form_movs : Form 0x61 (decodeMove 0x61) fun (u, nw, d, sr) =>
    ⟨.movs u nw d sr, [(1, false.toNat), (7, sr.toNat), (7, 0), (7, d.code), (1, nw.toNat), (1, u.toNat)], []⟩ where
  reads w ls i := by
    simp only [Prod.exists, decodeMove, Option.ite_none_left_eq_some, Option.map_eq_some_iff, HasFields, Nat.reduceAdd,
      fld_one_eq_toNat_iff, fld_eq_toNat_iff, List.nil_prefix, and_true]
    grind [uBit, nwBit, xBit, dstOf_eq_some_iff, dstOf_code]
  writes := fun (u, nw, d, sr) => .ofR (by decide) rfl (by simp only [encR, pack, Bool.toNat_false]; omega)
    ⟨by decide, sr.isLt, by decide, d.code_lt, nw.toNat_lt, u.toNat_lt, trivial⟩ rfl (by omega) (by omega)
    (by simp [isSubfn, litsOf])

theorem form_movsw : Form 0x62 (decodeMove 0x62) fun (sr, a) =>
    ⟨.movsw sr a, [(1, false.toNat), (7, sr.toNat), (7, a.code), (9, 0x100)], a.lits⟩ where
  reads w ls i := by
    simp only [Prod.exists, decodeMove, Option.ite_none_left_eq_some, Option.map_eq_some_iff, HasFields, Nat.reduceAdd,
      fld_one_eq_toNat_iff, fld_eq_toNat_iff]
    grind [uBit, nwBit, xBit, srcOf_eq_some_iff, srcOf_code, List.IsPrefix]
  writes := fun (sr, a) => .ofR (by decide) rfl (by simp only [encR, pack, Bool.toNat_false, Bool.toNat_true]; omega)
    ⟨by decide, sr.isLt, a.code_lt, by decide, trivial⟩ rfl a.code_lt (by omega)
    (by simp [isSubfn, litsOf, Src.length_lits])

theorem form_movx : Form 0x63 (decodeMove 0x63) fun (u, nw, d, a) =>
    ⟨.movx u nw d a, [(8, 0), (7, a.code), (7, d.code), (1, nw.toNat), (1, u.toNat)], []⟩ where
  reads w ls i := by
    simp only [Prod.exists, decodeMove, HasFields, Nat.reduceAdd, fld_one_eq_toNat_iff, List.nil_prefix, and_true]
    grind [uBit, nwBit, xBit, dstOf_eq_some_iff, dstOf_code, aregOf_eq_some_iff, aregOf_code]
  writes := fun (u, nw, d, a) => .ofR (by decide) rfl (by simp only [encR, pack, Bool.toNat_false]; omega)
    ⟨by decide, a.code_lt.trans (by decide), d.code_lt, nw.toNat_lt, u.toNat_lt, trivial⟩
    rfl (a.code_lt.trans (by decide)) (by decide)
    (by simp [litsOf_of_lt a.code_lt, litsOf_zero])

theorem form_movxw : Form 0x64 (decodeMove 0x64) fun (u, a, b) =>
    ⟨.movxw u a b, [(1, false.toNat), (7, b.code), (7, a.code), (8, 0), (1, u.toNat)], b.lits⟩ where
  reads w ls i := by
    simp only [Prod.exists, decodeMove, HasFields, Nat.reduceAdd, fld_one_eq_toNat_iff]
    grind [uBit, nwBit, xBit, aregOf_eq_some_iff, aregOf_code, srcOf_eq_some_iff, srcOf_code, List.IsPrefix]
  writes := fun (u, a, b) => .ofR (by decide) rfl (by simp only [encR, pack, Bool.toNat_false]; omega)
    ⟨by decide, b.code_lt, a.code_lt.trans (by decide), by decide, u.toNat_lt, trivial⟩ rfl (a.code_lt.trans (by decide)) b.code_lt
    (by simp [litsOf_of_lt a.code_lt, isSubfn, Src.length_lits])

theorem form_unif : Form 0x66 (decodeMove 0x66) fun (d, w') =>
    ⟨.unif d w', [(1, w'.toNat), (14, 0), (7, d.toNat), (2, 0)], []⟩ where
  reads w ls i := by
    simp only [Prod.exists, decodeMove, Option.ite_none_left_eq_some, Option.map_eq_some_iff, HasFields, Nat.reduceAdd,
      fld_one_eq_toNat_iff, List.nil_prefix, and_true]
    grind [uBit, nwBit, xBit, vregOf_eq_some_iff, vregOf_toNat]
  writes := fun (d, w') => .ofR (by decide) rfl (by simp only [encR, pack, Bool.toNat_false]; omega)
    ⟨w'.toNat_lt, by decide, d.isLt.trans (by decide), by decide, trivial⟩ rfl (by omega) (by omega)
    (by simp [isSubfn, litsOf])

theorem form_shtag : Form 0x67 (decodeMove 0x67) fun (nw, d, a) =>
    ⟨.shtag nw d a, [(8, 0), (7, a.toNat), (7, d.code), (1, nw.toNat), (1, false.toNat)], []⟩ where
  reads w ls i := by
    simp only [Prod.exists, decodeMove, HasFields, Nat.reduceAdd, fld_one_eq_toNat_iff, List.nil_prefix, and_true]
    grind [uBit, nwBit, xBit, dstOf_eq_some_iff, dstOf_code, vregOf_eq_some_iff, vregOf_toNat]
  writes := fun (nw, d, a) => .ofR (by decide) rfl (by simp only [encR, pack, Bool.toNat_false]; omega)
    ⟨by decide, a.isLt.trans (by decide), d.code_lt, nw.toNat_lt, by decide, trivial⟩ rfl (by omega) (by omega)
    (by simp [litsOf_of_lt (a.isLt.trans (by decide)), litsOf_zero])

theorem form_fence : Form 0xA8 (decodeMem 0xA8) fun (u, kind, scope) =>
    ⟨.fence u kind scope, [(1, false.toNat), (3, scope.toNat), (2, kind.toNat), (2, 0), (15, 0), (1, u.toNat)], []⟩ where
  reads w ls i := by
    simp only [Prod.exists, decodeMem, HasFields, Nat.reduceAdd, fld_one_eq_toNat_iff, fld_eq_toNat_iff, List.nil_prefix, and_true]
    grind [uBit, nwBit, xBit]
  writes := fun (u, kind, scope) => .ofR (by decide) rfl (by simp only [encR, pack, Bool.toNat_false]; omega)
    ⟨by decide, scope.isLt, kind.isLt, by decide, by decide, u.toNat_lt, trivial⟩ rfl (by omega) (by omega)
    (by simp [isSubfn, litsOf])

theorem form_waitc : Form 0xA9 (decodeMem 0xA9) fun (u, a, cls) =>
    ⟨.waitc u a cls, [(1, false.toNat), (2, cls.toNat), (5, 0), (7, a.code), (8, 0), (1, u.toNat)], a.lits⟩ where
  reads w ls i := by
    simp only [Prod.exists, decodeMem, Option.ite_none_left_eq_some, Option.map_eq_some_iff, HasFields, Nat.reduceAdd,
      fld_one_eq_toNat_iff, fld_eq_toNat_iff]
    grind [uBit, nwBit, xBit, srcOf_eq_some_iff, srcOf_code, List.IsPrefix]
  writes := fun (u, a, cls) => .ofR (by decide) rfl (by simp only [encR, pack, Bool.toNat_false]; omega)
    ⟨by decide, cls.isLt, by decide, a.code_lt, by decide, u.toNat_lt, trivial⟩ rfl a.code_lt (by omega)
    (by simp [isSubfn, litsOf, Src.length_lits])

theorem form_waita : Form 0xAA (decodeMem 0xAA) fun (u, nw, d, a, acq, cond) =>
    ⟨.waita u nw d a acq cond,
      [(1, false.toNat), (3, cond.toNat), (1, acq.toNat), (3, 0), (7, a.code), (7, d.code), (1, nw.toNat),
        (1, u.toNat)], a.lits⟩ where
  reads w ls i := by
    simp only [Prod.exists, decodeMem, HasFields, Nat.reduceAdd, fld_one_eq_toNat_iff, fld_eq_toNat_iff]
    grind [uBit, nwBit, xBit, srcOf_eq_some_iff, srcOf_code, List.IsPrefix, dstOf_eq_some_iff, dstOf_code]
  writes := fun (u, nw, d, a, acq, cond) => .ofR (by decide) rfl (by simp only [encR, pack, Bool.toNat_false]; omega)
    ⟨by decide, cond.isLt, acq.toNat_lt, by decide, a.code_lt, d.code_lt, nw.toNat_lt, u.toNat_lt, trivial⟩
    rfl a.code_lt (by have := acq.toNat_lt; omega)
    (by simp [isSubfn, litsOf, Src.length_lits])

theorem form_setm : Form 0xD6 (decodeSys 0xD6) fun disp =>
    ⟨.setm disp, [(19, disp.toNat), (5, 15)], []⟩ where
  reads w ls i := by
    simp only [decodeSys, HasFields, Nat.reduceAdd, fld_eq_toNat_iff, List.nil_prefix, and_true]
    grind [uBit, nwBit, xBit]
  writes disp := .ofNoLits (by decide) rfl (by simp only [encB, pack, Bool.toNat_false, Bool.toNat_true]; omega)
    ⟨disp.isLt, by decide, trivial⟩ rfl rfl

theorem form_leave : Form 0xE1 (decodeSys 0xE1) fun p =>
    ⟨.leave p, [(15, 0), (3, p.toNat), (6, 0)], []⟩ where
  reads w ls i := by
    simp only [decodeSys, HasFields, Nat.reduceAdd, fld_eq_toNat_iff, List.nil_prefix, and_true]
    grind [uBit, nwBit, xBit]
  writes p := .ofR (by decide) rfl (by simp only [encR, pack, Bool.toNat_false]; omega)
    ⟨by decide, p.isLt, by decide, trivial⟩ rfl (by omega) (by omega)
    (by simp [isSubfn, litsOf])

theorem form_qcfg : Form 0xE3 (decodeSys 0xE3) fun (c, a, x) =>
    ⟨.qcfg c a x, [(1, x.toNat), (7, 0), (7, a.code), (7, 0x50 + c.toNat), (1, false.toNat), (1, true.toNat)], a.lits⟩ where
  reads w ls i := by
    simp only [Prod.exists, decodeSys, HasFields, Nat.reduceAdd, fld_one_eq_toNat_iff]
    grind [uBit, nwBit, xBit, chanOf_eq_some_iff, chanOf_code, srcOf_eq_some_iff, srcOf_code, List.IsPrefix]
  writes := fun (c, a, x) => .ofR (by decide) rfl (by simp only [encR, pack, Bool.toNat_false, Bool.toNat_true]; omega)
    ⟨x.toNat_lt, by decide, a.code_lt, by omega, by decide, by decide, trivial⟩ rfl a.code_lt (by omega)
    (by simp [isSubfn, litsOf, Src.length_lits])

theorem form_qtry : Form 0xE4 (decodeSys 0xE4) fun (u, p, c, b, x) =>
    ⟨.qtry u p c b x, [(1, x.toNat), (7, b.code), (7, 0x50 + c.toNat), (3, p.toNat), (5, 0), (1, u.toNat)], b.lits⟩ where
  reads w ls i := by
    simp only [Prod.exists, decodeSys, HasFields, Nat.reduceAdd, fld_one_eq_toNat_iff, fld_eq_toNat_iff]
    grind [uBit, nwBit, xBit, chanOf_eq_some_iff, chanOf_code, srcOf_eq_some_iff, srcOf_code, List.IsPrefix]
  writes := fun (u, p, c, b, x) => .ofR (by decide) rfl (by simp only [encR, pack, Bool.toNat_false]; omega)
    ⟨x.toNat_lt, b.code_lt, by omega, p.isLt, by decide, u.toNat_lt, trivial⟩ rfl (by omega) b.code_lt
    (by simp [litsOf_eq_zero (show 0x50 + c.toNat ≠ 0x44 by omega) (by omega), isSubfn, Src.length_lits])

theorem form_yld : Form 0xE5 (decodeSys 0xE5) fun (u, stage) =>
    ⟨.yld u stage, [(1, false.toNat), (1, stage.toNat), (21, 0), (1, u.toNat)], []⟩ where
  reads w ls i := by
    simp only [Prod.exists, decodeSys, HasFields, Nat.reduceAdd, fld_one_eq_toNat_iff, List.nil_prefix, and_true]
    grind [uBit, nwBit, xBit]
  writes := fun (u, stage) => .ofR (by decide) rfl (by simp only [encR, pack, Bool.toNat_false]; omega)
    ⟨by decide, stage.toNat_lt, by decide, u.toNat_lt, trivial⟩ rfl (by omega) (stage.toNat_lt.trans (by decide))
    (by simp [isSubfn, litsOf])

theorem form_nap : Form 0xE6 (decodeSys 0xE6) fun (u, a, cnt) =>
    ⟨.nap u a cnt, [(1, false.toNat), (1, cnt.toNat), (6, 0), (7, a.code), (8, 0), (1, u.toNat)], a.lits⟩ where
  reads w ls i := by
    simp only [Prod.exists, decodeSys, Option.ite_none_left_eq_some, Option.map_eq_some_iff, HasFields, Nat.reduceAdd,
      fld_one_eq_toNat_iff]
    grind [uBit, nwBit, xBit, srcOf_eq_some_iff, srcOf_code, List.IsPrefix]
  writes := fun (u, a, cnt) => .ofR (by decide) rfl (by simp only [encR, pack, Bool.toNat_false]; omega)
    ⟨by decide, cnt.toNat_lt, by decide, a.code_lt, by decide, u.toNat_lt, trivial⟩ rfl a.code_lt (cnt.toNat_lt.trans (by decide))
    (by simp [isSubfn, litsOf, Src.length_lits])

theorem form_rte : Form 0xF1 (decodeSys 0xF1) fun skip =>
    ⟨.rte skip, [(1, skip.toNat), (23, 0)], []⟩ where
  reads w ls i := by
    simp only [decodeSys, HasFields, Nat.reduceAdd, fld_one_eq_toNat_iff, List.nil_prefix, and_true]
    grind [uBit, nwBit, xBit]
  writes skip := .ofR (by decide) rfl (by simp only [encR, pack, Bool.toNat_false]; omega)
    ⟨skip.toNat_lt, by decide, trivial⟩ rfl (by omega) (by omega)
    (by simp [isSubfn, litsOf])

theorem form_bkpt : Form 0xF2 (decodeSys 0xF2) fun (_ : Unit) =>
    ⟨.bkpt, [(24, 0)], []⟩ where
  reads w ls i := by
    simp only [decodeSys, HasFields, List.nil_prefix, and_true]
    grind [uBit, nwBit, xBit]
  writes := fun (_ : Unit) => .ofR (by decide) rfl (by simp only [encR, pack, Bool.toNat_false]; omega)
    ⟨by decide, trivial⟩ rfl (by omega) (by omega)
    (by simp [isSubfn, litsOf])

theorem form_pfg : Form 0x8F (decodeMem 0x8F) fun (u, l1, a, (o : Subtype (Off.ok · = true))) =>
    ⟨.pfg u l1 a o, [(6, o.1.code), (7, a.code), (7, 0), (1, l1.toNat), (2, 0), (1, u.toNat)], o.1.lits⟩ where
  reads w ls i := by
    simp only [Prod.exists, Subtype.exists, decodeMem, HasFields, Nat.reduceAdd, fld_one_eq_toNat_iff]
    constructor
    · grind [uBit, aregOf_eq_some_iff, offOf_eq_some_iff]
    · rintro ⟨u, l1, a, o, hk, rfl, ⟨ho, ha, hd, rfl, hz, rfl, -⟩, hp⟩
      rw [ha, aregOf_code, offOf_eq_some_iff.mpr ⟨ho, hp, hk⟩, hd, hz]
      rfl
  writes := fun (u, l1, a, o) => .ofM (by decide) rfl (by simp only [encM, pack]; omega)
    ⟨o.1.code_lt, a.code_lt.trans (by decide), by decide, l1.toNat_lt, by decide, u.toNat_lt, trivial⟩ rfl o.2 rfl

theorem form_lnch : Form 0xF4 (decodeSys 0xF4) fun (nw, d, a, b) =>
    ⟨.lnch nw d a b, R3.layout ⟨true, nw, d, a, b⟩ false, a.lits ++ b.lits⟩ where
  reads w ls i := by
    simp only [Prod.exists, decodeSys, Option.ite_none_left_eq_some, Option.map_eq_some_iff, mkR3_eq_some_iff, HasFields,
      Nat.reduceAdd, fld_one_eq_toNat_iff]
    exact ⟨by grind [xBit, uBit], fun ⟨nw, d, a, b, h⟩ =>
      ⟨by grind [xBit, uBit], ⟨true, nw, d, a, b⟩, by grind [xBit]⟩⟩
  writes := fun (nw, d, a, b) => .ofR (by decide) rfl (by simp only [encR, pack]; omega)
    ⟨by decide, b.code_lt, a.code_lt, d.code_lt, nw.toNat_lt, Bool.toNat_lt _, trivial⟩ rfl a.code_lt b.code_lt
    (by simp only [List.length_append, Src.length_lits]; rfl)

end

/-! ## From words to the instruction and back

The cases are the rows of each decoder, in its order. -/

section
variable {w op : Nat} {ls : List Word} {i : Instr} (hw : w < 2 ^ 32) (ho : fld w 24 8 = op) (hl : ls.length = litCount w)
include hw ho hl

theorem encode_of_decodeInt (h : decodeInt op w ls = some i) : encode i = wordsOf w ls := by
  unfold decodeInt at h
  split at h
  case h_1 | h_2 | h_4 | h_5 | h_6 | h_7 | h_9 | h_14 | h_15 | h_20 | h_21 | h_22 =>
    exact (form_dec3x).encode_eq hw ho hl h
  case h_3 | h_10 | h_11 | h_12 | h_13 | h_19 => exact (form_dec3).encode_eq hw ho hl h
  case h_8 => exact (form_dec2x).encode_eq hw ho hl h
  case h_16 | h_17 | h_18 => exact (form_dec2).encode_eq hw ho hl h
  case h_23 => cases h

theorem encode_of_decodeFp (h : decodeFp op w ls = some i) : encode i = wordsOf w ls := by
  unfold decodeFp at h
  split at h
  case h_1 | h_2 | h_3 | h_4 | h_5 | h_6 => exact (form_dec3).encode_eq hw ho hl h
  case h_7 | h_8 | h_9 | h_10 | h_11 | h_12 | h_13 | h_14 | h_15 | h_16 =>
    exact (form_dec2).encode_eq hw ho hl h
  case h_17 | h_18 => exact (form_decSub).encode_eq hw ho hl h
  case h_19 | h_20 | h_21 | h_22 | h_23 => exact (form_dec3x).encode_eq hw ho hl h
  case h_24 => exact form_cvt.encode_eq hw ho hl h
  case h_25 => exact form_mxscl.encode_eq hw ho hl h
  case h_26 => exact form_mxpk.encode_eq hw ho hl h
  case h_27 => exact form_mxupk.encode_eq hw ho hl h
  case h_28 => cases h

theorem encode_of_decodeMove (h : decodeMove op w ls = some i) : encode i = wordsOf w ls := by
  unfold decodeMove at h
  split at h
  case h_1 => exact (form_decCmp).encode_eq hw ho hl h
  case h_2 => exact (form_decCmp_of_not_xBit).encode_eq hw ho hl h
  case h_3 => exact form_plog.encode_eq hw ho hl h
  case h_4 => exact form_pval.encode_eq hw ho hl h
  case h_5 => exact form_vchk.encode_eq hw ho hl h
  case h_6 | h_7 | h_8 | h_9 | h_10 | h_11 | h_12 | h_13 => exact (form_dec3).encode_eq hw ho hl h
  case h_14 | h_15 | h_16 | h_23 | h_29 => exact (form_decX3).encode_eq hw ho hl h
  case h_17 => exact form_scan.encode_eq hw ho hl h
  case h_18 => exact form_redx.encode_eq hw ho hl h
  case h_19 => exact form_vote.encode_eq hw ho hl h
  case h_20 => exact form_first.encode_eq hw ho hl h
  case h_21 => exact form_rank.encode_eq hw ho hl h
  case h_22 => exact form_elect.encode_eq hw ho hl h
  case h_24 => exact (form_dec2x).encode_eq hw ho hl h
  case h_25 => exact form_movs.encode_eq hw ho hl h
  case h_26 => exact form_movsw.encode_eq hw ho hl h
  case h_27 => exact form_movx.encode_eq hw ho hl h
  case h_28 => exact form_movxw.encode_eq hw ho hl h
  case h_30 => exact form_unif.encode_eq hw ho hl h
  case h_31 => exact form_shtag.encode_eq hw ho hl h
  case h_32 => cases h

theorem encode_of_decodeMem (h : decodeMem op w ls = some i) : encode i = wordsOf w ls := by
  unfold decodeMem at h
  split at h
  case h_1 | h_2 | h_3 | h_4 | h_5 | h_6 | h_7 | h_8 | h_15 | h_16 | h_17 | h_18 | h_19 | h_20 =>
    exact (form_decLd).encode_eq hw ho hl h
  case h_9 | h_10 | h_11 | h_12 | h_13 | h_21 | h_22 | h_23 | h_24 | h_25 | h_26 =>
    exact (form_decSt).encode_eq hw ho hl h
  case h_14 => exact form_pfg.encode_eq hw ho hl h
  case h_27 | h_28 | h_29 | h_30 => exact (form_decAtm).encode_eq hw ho hl h
  case h_31 => exact form_fence.encode_eq hw ho hl h
  case h_32 => exact form_waitc.encode_eq hw ho hl h
  case h_33 => exact form_waita.encode_eq hw ho hl h
  case h_34 => cases h

theorem encode_of_decodeSys (h : decodeSys op w ls = some i) : encode i = wordsOf w ls := by
  unfold decodeSys at h
  split at h
  case h_1 | h_2 | h_3 | h_5 | h_6 | h_7 => exact (form_decAsync_of_not_xBit).encode_eq hw ho hl h
  case h_4 => exact (form_decAsync).encode_eq hw ho hl h
  case h_8 | h_9 => exact (form_decBra).encode_eq hw ho hl h
  case h_10 | h_11 | h_25 => exact (form_decA).encode_eq hw ho hl h
  case h_12 | h_13 | h_27 => exact (form_decU).encode_eq hw ho hl h
  case h_14 => exact form_setm.encode_eq hw ho hl h
  case h_15 | h_17 => exact (form_decA_of_not_uBit).encode_eq hw ho hl h
  case h_16 => exact form_leave.encode_eq hw ho hl h
  case h_18 => exact form_qcfg.encode_eq hw ho hl h
  case h_19 => exact form_qtry.encode_eq hw ho hl h
  case h_20 => exact form_yld.encode_eq hw ho hl h
  case h_21 => exact form_nap.encode_eq hw ho hl h
  case h_22 | h_28 => exact (form_number).encode_eq hw ho hl h
  case h_23 => exact form_rte.encode_eq hw ho hl h
  case h_24 => exact form_bkpt.encode_eq hw ho hl h
  case h_26 => exact form_lnch.encode_eq hw ho hl h
  case h_29 => cases h

end

theorem decode_eq_ok_iff {w : Nat} {ls : List Word} {i : Instr} :
    decode w ls = .ok i ↔ assigned (fld w 24 8) = true ∧ i.wf = true ∧ decodeRaw w ls = some i := by
  unfold decode
  grind

/-- What decodes, below the operand checks, is written as the words that it was read from. -/
theorem encode_of_decodeRaw {w : Nat} {ls : List Word} {i : Instr} (hw : w < 2 ^ 32) (hl : ls.length = litCount w)
    (h : decodeRaw w ls = some i) : encode i = wordsOf w ls := by
  rw [decodeRaw_eq_decodeAt] at h
  unfold decodeAt at h
  split_ifs at h
  · exact encode_of_decodeInt hw rfl hl h
  · exact encode_of_decodeFp hw rfl hl h
  · exact encode_of_decodeMove hw rfl hl h
  · exact encode_of_decodeMem hw rfl hl h
  · exact encode_of_decodeSys hw rfl hl h

/-! ## The words of each instruction decode to it -/

theorem Off.ok_of_okLds {o : Off} (h : o.okLds = true) : o.ok = true := by
  cases o with
  | imm _ => exact h
  | lit _ => rfl

theorem Off.ok_of_ok24 {o : Off} (h : o.ok24 = true) : o.ok = true := by
  cases o with
  | imm _ => exact h
  | lit _ => rfl

theorem Ld.off_ok_of_okG {m : Ld} {n : Nat} (h : m.okG n = true) : m.off.ok = true := by
  rw [Ld.okG, Bool.and_eq_true] at h
  exact h.2

theorem Ld.off_ok_of_okS {m : Ld} {n : Nat} (h : m.okS n = true) : m.off.ok = true := by
  rw [Ld.okS, Bool.and_eq_true] at h
  exact Off.ok_of_okLds h.2

theorem St.off_ok_of_okG {m : St} {n : Nat} (h : m.okG n = true) : m.off.ok = true := by
  rw [St.okG, Bool.and_eq_true] at h
  exact h.2

theorem St.off_ok_of_okS {m : St} {n : Nat} (h : m.okS n = true) : m.off.ok = true := by
  rw [St.okS, Bool.and_eq_true] at h
  exact Off.ok_of_ok24 h.2

/-- The predicate of SELP stands in its opcode (04 R123). -/
theorem decodeAt_selp (p : BitVec 3) (w : Nat) (ls : List Word) : decodeAt (0x48 + p.toNat) w ls = dec3 w ls (.selp · p) := by
  obtain ⟨⟨k, hk⟩⟩ := p
  interval_cases k <;> rfl

theorem form_selp (p : BitVec 3) :
    Form (0x48 + p.toNat) (dec3 · · (.selp · p)) fun r => ⟨.selp r p, r.layout false, r.a.lits ++ r.b.lits⟩ :=
  form_dec3 (fun _ => rfl) (by revert p; decide) (by revert p; decide)

theorem roundTrips (i : Instr) (hwf : i.wf = true) (hne : encode i ≠ []) : RoundTrips i := by
  cases i with
  | iadd r x => exact (form_dec3x (f := .iadd)).roundTrips (r, x) hwf
  | isub r x => exact (form_dec3x (f := .isub)).roundTrips (r, x) hwf
  | imul r => exact (form_dec3 (f := .imul)).roundTrips r hwf
  | imulh r x => exact (form_dec3x (f := .imulh)).roundTrips (r, x) hwf
  | imad r x => exact (form_dec3x (f := .imad)).roundTrips (r, x) hwf
  | imin r x => exact (form_dec3x (f := .imin)).roundTrips (r, x) hwf
  | imax r x => exact (form_dec3x (f := .imax)).roundTrips (r, x) hwf
  | iabs r x => exact (form_dec2x (f := .iabs)).roundTrips (r, x) hwf
  | idp4 r x => exact (form_dec3x (f := .idp4)).roundTrips (r, x) hwf
  | and_ r => exact (form_dec3 (f := .and_)).roundTrips r hwf
  | or_ r => exact (form_dec3 (f := .or_)).roundTrips r hwf
  | xor_ r => exact (form_dec3 (f := .xor_)).roundTrips r hwf
  | andn r => exact (form_dec3 (f := .andn)).roundTrips r hwf
  | shl r x => exact (form_dec3x (f := .shl)).roundTrips (r, x) hwf
  | shr r x => exact (form_dec3x (f := .shr)).roundTrips (r, x) hwf
  | popc r => exact (form_dec2 (f := .popc)).roundTrips r hwf
  | clz r => exact (form_dec2 (f := .clz)).roundTrips r hwf
  | brev r => exact (form_dec2 (f := .brev)).roundTrips r hwf
  | bfi r => exact (form_dec3 (f := .bfi)).roundTrips r hwf
  | bfx r x => exact (form_dec3x (f := .bfx)).roundTrips (r, x) hwf
  | bilv r x => exact (form_dec3x (f := .bilv)).roundTrips (r, x) hwf
  | bdlv r x => exact (form_dec3x (f := .bdlv)).roundTrips (r, x) hwf
  | fadd r => exact (form_dec3 (f := .fadd)).roundTrips r hwf
  | fsub r => exact (form_dec3 (f := .fsub)).roundTrips r hwf
  | fmul r => exact (form_dec3 (f := .fmul)).roundTrips r hwf
  | fma r => exact (form_dec3 (f := .fma)).roundTrips r hwf
  | fmin r => exact (form_dec3 (f := .fmin)).roundTrips r hwf
  | fmax r => exact (form_dec3 (f := .fmax)).roundTrips r hwf
  | fabs r => exact (form_dec2 (f := .fabs)).roundTrips r hwf
  | fneg r => exact (form_dec2 (f := .fneg)).roundTrips r hwf
  | frcp r => exact (form_dec2 (f := .frcp)).roundTrips r hwf
  | frsq r => exact (form_dec2 (f := .frsq)).roundTrips r hwf
  | fsqrt r => exact (form_dec2 (f := .fsqrt)).roundTrips r hwf
  | fex2 r => exact (form_dec2 (f := .fex2)).roundTrips r hwf
  | flg2 r => exact (form_dec2 (f := .flg2)).roundTrips r hwf
  | fsin r => exact (form_dec2 (f := .fsin)).roundTrips r hwf
  | fcos r => exact (form_dec2 (f := .fcos)).roundTrips r hwf
  | ftnh r => exact (form_dec2 (f := .ftnh)).roundTrips r hwf
  | frnd r sub => exact (form_decSub (f := .frnd)).roundTrips (r, sub) hwf
  | fcls r sub => exact (form_decSub (f := .fcls)).roundTrips (r, sub) hwf
  | padd r x => exact (form_dec3x (f := .padd)).roundTrips (r, x) hwf
  | pmul r x => exact (form_dec3x (f := .pmul)).roundTrips (r, x) hwf
  | pfma r x => exact (form_dec3x (f := .pfma)).roundTrips (r, x) hwf
  | pmin r x => exact (form_dec3x (f := .pmin)).roundTrips (r, x) hwf
  | pmax r x => exact (form_dec3x (f := .pmax)).roundTrips (r, x) hwf
  | cvt r pair rnd x => exact form_cvt.roundTrips (r, pair, rnd, x) hwf
  | mxscl nw d a f => exact form_mxscl.roundTrips (nw, d, a, f) hwf
  | mxpk nw d a rnd f => exact form_mxpk.roundTrips (nw, d, a, rnd, f) hwf
  | mxupk nw d a f => exact form_mxupk.roundTrips (nw, d, a, f) hwf
  | itst c x => exact (form_decCmp (f := .itst)).roundTrips (c, x) hwf
  | ftst c => exact (form_decCmp_of_not_xBit (f := .ftst)).roundTrips c hwf
  | plog u op p pa pb => exact form_plog.roundTrips (u, op, p, pa, pb) hwf
  | pval u nw d pa x => exact form_pval.roundTrips (u, nw, d, pa, x) hwf
  | vchk u p a x => exact form_vchk.roundTrips (u, p, a, x) hwf
  | selp r p => exact (form_selp p).roundTrips r hwf (decodeAt_selp p)
  | shfx nw d a b => exact (form_decX3 (f := .shfx)).roundTrips (nw, d, a, b) hwf
  | shfd nw d a b => exact (form_decX3 (f := .shfd)).roundTrips (nw, d, a, b) hwf
  | shfb nw d a b => exact (form_decX3 (f := .shfb)).roundTrips (nw, d, a, b) hwf
  | scan nw d a exc s => exact form_scan.roundTrips (nw, d, a, exc, s) hwf
  | redx nw d a s => exact form_redx.roundTrips (nw, d, a, s) hwf
  | vote nw d pa mode => exact form_vote.roundTrips (nw, d, pa, mode) hwf
  | first nw d a last => exact form_first.roundTrips (nw, d, a, last) hwf
  | rank nw d a sub => exact form_rank.roundTrips (nw, d, a, sub) hwf
  | elect nw d slot => exact form_elect.roundTrips (nw, d, slot) hwf
  | ssint nw d a b => exact (form_decX3 (f := .ssint)).roundTrips (nw, d, a, b) hwf
  | mov r w => exact (form_dec2x (f := .mov)).roundTrips (r, w) hwf
  | movs u nw d sr => exact form_movs.roundTrips (u, nw, d, sr) hwf
  | movsw sr a => exact form_movsw.roundTrips (sr, a) hwf
  | movx u nw d a => exact form_movx.roundTrips (u, nw, d, a) hwf
  | movxw u a b => exact form_movxw.roundTrips (u, a, b) hwf
  | aff nw d a b => exact (form_decX3 (f := .aff)).roundTrips (nw, d, a, b) hwf
  | unif d w => exact form_unif.roundTrips (d, w) hwf
  | shtag nw d a => exact form_shtag.roundTrips (nw, d, a) hwf
  | ldgB8 m => exact (form_decLd (f := .ldgB8)).roundTrips ⟨m, Ld.off_ok_of_okG hwf⟩ hwf
  | ldgB16 m => exact (form_decLd (f := .ldgB16)).roundTrips ⟨m, Ld.off_ok_of_okG hwf⟩ hwf
  | ldgB32 m => exact (form_decLd (f := .ldgB32)).roundTrips ⟨m, Ld.off_ok_of_okG hwf⟩ hwf
  | ldgB64 m => exact (form_decLd (f := .ldgB64)).roundTrips ⟨m, Ld.off_ok_of_okG hwf⟩ hwf
  | ldgB128 m => exact (form_decLd (f := .ldgB128)).roundTrips ⟨m, Ld.off_ok_of_okG hwf⟩ hwf
  | ldgS8 m => exact (form_decLd (f := .ldgS8)).roundTrips ⟨m, Ld.off_ok_of_okG hwf⟩ hwf
  | ldgS16 m => exact (form_decLd (f := .ldgS16)).roundTrips ⟨m, Ld.off_ok_of_okG hwf⟩ hwf
  | ldgAcq m => exact (form_decLd (f := .ldgAcq)).roundTrips ⟨m, Ld.off_ok_of_okG (Bool.and_eq_true_iff.mp hwf).1⟩ hwf
  | stgB8 m => exact (form_decSt (f := .stgB8)).roundTrips ⟨m, St.off_ok_of_okG hwf⟩ hwf
  | stgB16 m => exact (form_decSt (f := .stgB16)).roundTrips ⟨m, St.off_ok_of_okG hwf⟩ hwf
  | stgB32 m => exact (form_decSt (f := .stgB32)).roundTrips ⟨m, St.off_ok_of_okG hwf⟩ hwf
  | stgB64 m => exact (form_decSt (f := .stgB64)).roundTrips ⟨m, St.off_ok_of_okG hwf⟩ hwf
  | stgB128 m => exact (form_decSt (f := .stgB128)).roundTrips ⟨m, St.off_ok_of_okG hwf⟩ hwf
  | pfg u l1 a off => exact form_pfg.roundTrips (u, l1, a, ⟨off, (Bool.and_eq_true_iff.mp hwf).2⟩) hwf
  | ldsB8 m => exact (form_decLd (f := .ldsB8)).roundTrips ⟨m, Ld.off_ok_of_okS hwf⟩ hwf
  | ldsB16 m => exact (form_decLd (f := .ldsB16)).roundTrips ⟨m, Ld.off_ok_of_okS hwf⟩ hwf
  | ldsB32 m => exact (form_decLd (f := .ldsB32)).roundTrips ⟨m, Ld.off_ok_of_okS hwf⟩ hwf
  | ldsB64 m => exact (form_decLd (f := .ldsB64)).roundTrips ⟨m, Ld.off_ok_of_okS hwf⟩ hwf
  | ldsB128 m => exact (form_decLd (f := .ldsB128)).roundTrips ⟨m, Ld.off_ok_of_okS hwf⟩ hwf
  | lda m => exact (form_decLd (f := .lda)).roundTrips ⟨m, Off.ok_of_ok24 (Bool.and_eq_true_iff.mp hwf).2⟩ hwf
  | stsB8 m => exact (form_decSt (f := .stsB8)).roundTrips ⟨m, St.off_ok_of_okS hwf⟩ hwf
  | stsB16 m => exact (form_decSt (f := .stsB16)).roundTrips ⟨m, St.off_ok_of_okS hwf⟩ hwf
  | stsB32 m => exact (form_decSt (f := .stsB32)).roundTrips ⟨m, St.off_ok_of_okS hwf⟩ hwf
  | stsB64 m => exact (form_decSt (f := .stsB64)).roundTrips ⟨m, St.off_ok_of_okS hwf⟩ hwf
  | stsB128 m => exact (form_decSt (f := .stsB128)).roundTrips ⟨m, St.off_ok_of_okS hwf⟩ hwf
  | sta m => exact (form_decSt (f := .sta)).roundTrips ⟨m, Off.ok_of_ok24 (Bool.and_eq_true_iff.mp hwf).2⟩ hwf
  | atg m => exact (form_decAtm (f := .atg)).roundTrips m hwf
  | ats m => exact (form_decAtm (f := .ats)).roundTrips m hwf
  | redg m => exact (form_decAtm (f := .redg)).roundTrips m hwf
  | reds m => exact (form_decAtm (f := .reds)).roundTrips m hwf
  | fence u kind scope => exact form_fence.roundTrips (u, kind, scope) hwf
  | waitc u a cls => exact form_waitc.roundTrips (u, a, cls) hwf
  | waita u nw d a acq cond => exact form_waita.roundTrips (u, nw, d, a, acq, cond) hwf
  | cpy a => exact (form_decAsync_of_not_xBit (f := .cpy)).roundTrips a hwf
  | gath a => exact (form_decAsync_of_not_xBit (f := .gath)).roundTrips a hwf
  | mma a => exact (form_decAsync_of_not_xBit (f := .mma)).roundTrips a hwf
  | mbind a n => exact (form_decAsync (f := .mbind)).roundTrips (a, n) hwf
  | aclr a => exact (form_decAsync_of_not_xBit (f := .aclr)).roundTrips a hwf
  | adrn a => exact (form_decAsync_of_not_xBit (f := .adrn)).roundTrips a hwf
  | coll a => exact (form_decAsync_of_not_xBit (f := .coll)).roundTrips a hwf
  | bra f => exact (form_decBra (f := .bra)).roundTrips f hwf
  | call f => exact (form_decBra (f := .call)).roundTrips f hwf
  | jmpr u a => exact (form_decA (f := .jmpr)).roundTrips (u, a) hwf
  | callr u a => exact (form_decA (f := .callr)).roundTrips (u, a) hwf
  | ret u => exact (form_decU (f := .ret)).roundTrips u hwf
  | exit u => exact (form_decU (f := .exit)).roundTrips u hwf
  | setm disp => exact form_setm.roundTrips disp hwf
  | join a => exact (form_decA_of_not_uBit (f := .join)).roundTrips a hwf
  | leave p => exact form_leave.roundTrips p hwf
  | bar a => exact (form_decA_of_not_uBit (f := .bar)).roundTrips a hwf
  | qcfg c a off => exact form_qcfg.roundTrips (c, a, off) hwf
  | qtry u p c b w => exact form_qtry.roundTrips (u, p, c, b, w) hwf
  | yld u stage => exact form_yld.roundTrips (u, stage) hwf
  | nap u a cnt => exact form_nap.roundTrips (u, a, cnt) hwf
  | trap u n => exact (form_number (f := .trap)).roundTrips (u, n) hwf
  | rte skip => exact form_rte.roundTrips skip hwf
  | bkpt => exact form_bkpt.roundTrips () hwf
  | cmack u a => exact (form_decA (f := .cmack)).roundTrips (u, a) hwf
  | lnch nw d a b => exact form_lnch.roundTrips (nw, d, a, b) hwf
  | rgna u => exact (form_decU (f := .rgna)).roundTrips u hwf
  | mark u n => exact (form_number (f := .mark)).roundTrips (u, n) hwf
  | _ => exact absurd rfl hne

end Sys2Proof

namespace Sys2Proof.Machine

/-- Settles O56: to the words by the form of each constructor, from the words by the form of each opcode. -/
theorem encodingsRoundTrip : Obligations.EncodingsRoundTrip := by
  unfold Obligations.EncodingsRoundTrip
  refine ⟨roundTrips, fun w ls i hl h => ?_⟩
  obtain ⟨-, hwf, hraw⟩ := decode_eq_ok_iff.mp h
  exact ⟨hwf, (encode_of_decodeRaw w.isLt hl hraw).trans (by rw [wordsOf, BitVec.ofNat_toNat, BitVec.setWidth_eq])⟩

end Sys2Proof.Machine

namespace Sys2Proof.Machine

/-- Settles O55, by evaluation of the decoder at each of the words. -/
theorem wordsDecode : Obligations.WordsDecode := by
  unfold Obligations.WordsDecode
  decide

end Sys2Proof.Machine

namespace Sys2Proof.Machine

/-! # A step and the decoded instruction (02 R56, 04 R104, R105, R124) -/

/-- A step runs the item at the head of the agenda, which has then left it. -/
theorem step_of_agenda {s : State} {x : Sched} {rest : List Sched} (h : s.agenda = x :: rest) :
    step s = { s with agenda := rest }.runItem x := by
  simp only [step, h]

section
variable {s : State} {c gid w : Nat} {g : Group} {cl : Clause} {ls : List Word} {i : Instr}

/-- A pass of a clause that is not cut, whose instruction and literals are fetched and decode without a fault, for
threads that no breakpoint stops: it is prepared by its counts alone. -/
theorem prepPass_of_decode (hg : s.group? c gid = some g) (hcl : g.clause = some cl)
    (hw : s.codeWord g.launch (cl.codePa cl.pc) = some w)
    (hls : s.codeLits g.launch { cl.codePa cl.pc with addr := (cl.codePa cl.pc).addr + 4 } (litCount w) = .inl ls)
    (hi : decode w ls = .ok i) (hf : decodeFault cl w (.ok i) = none) (hcut : cl.cut = false) (hex : g.atPc cl.pc ≠ 0)
    (hbp : s.bpHits g cl.pc (g.atPc cl.pc) (allOrNone w) = 0) :
    s.prepPass c gid = .run i
      { (s.codeStep g.launch (cl.codePa cl.pc)).countPass c g.ctx w (slotCount (g.atPc cl.pc)) with focus := some (c, gid) } 0 := by
  have hall : g.atPc cl.pc &&& ~~~0 = g.atPc cl.pc := BitVec.and_allOnes
  have hne : (g.atPc cl.pc == 0) = false := by simpa using hex
  unfold State.prepPass
  simp only [hg, hcl, hw, hls, hi, hf, hcut, hbp, hall, hne, beq_self_eq_true, Bool.false_eq_true, if_true, if_false]

/-- A pass prepared with no thread left behind is the execution of its instruction, and is undone if it waits. -/
theorem runLane_of_run {s1 s2 : State} (hp : s.prepPass c gid = .run i s1 0) (he : exec i s1 = .next s2) :
    s.runLane c gid = .next (if s1.stalled s2 c gid then s else s2.afterCut c gid 0) := by
  simp only [State.runLane, hp, he]

end

/-- Settles O57: the agenda's head by the definition of a step, a pass by its preparation and its execution. -/
theorem stepsRunTheDecodedInstruction : Obligations.StepsRunTheDecodedInstruction := by
  unfold Obligations.StepsRunTheDecodedInstruction
  intro s rest
  dsimp only
  constructor
  · intro i h
    exact step_of_agenda h
  · intro c gid g cl w ls i s2 h hg hcl hw hls hi hf hcut hex hbp he
    exact (step_of_agenda h).trans (runLane_of_run (prepPass_of_decode hg hcl hw hls hi hf hcut hex hbp) he)

end Sys2Proof.Machine

namespace Sys2Proof.Machine

/-! # Clauses are issued and cut (04 R110, R113, 02 R60, 09 R270, 10 R285) -/

/-! ## An issue that the group may make -/

section
variable {s : State} {c gid : Nat} {g : Group} {pc : DWord} {p : PA} {w : Nat}

/-- A full issue that finds a header. -/
theorem exec_fullIssue_of_hdr (h1 : s.mayIssue c gid = true) (h2 : (s.recompute c gid).mayIssue c gid = true)
    (hg : (s.recompute c gid).group? c gid = some g) (hf : (s.recompute c gid).issueFetch c gid = .hdr pc p w) :
    exec (.fullIssue c gid) s = .next ((s.recompute c gid).fullAt c gid g pc p w) := by
  show execFullIssue c gid s = _
  simp [execFullIssue, State.issueWith, h1, h2, hg, hf]

/-- A resumed issue that finds an instruction inside a clause. -/
theorem exec_resumedIssue_of_mid (h1 : s.mayIssue c gid = true) (h2 : (s.recompute c gid).mayIssue c gid = true)
    (hg : (s.recompute c gid).group? c gid = some g) (hf : (s.recompute c gid).issueFetch c gid = .mid pc p w) :
    exec (.resumedIssue c gid) s = .next ((s.recompute c gid).midAt c gid g pc p w) := by
  show execResumedIssue c gid s = _
  simp [execResumedIssue, State.issueWith, h1, h2, hg, hf]

end

/-! ## The start of a clause -/

theorem sameGroups_fresh (s : State) : SameGroups s s.fresh.2 := .cores rfl

theorem sameGroups_codeStep (s : State) (launch : Nat) (p : PA) : SameGroups s (s.codeStep launch p) := by
  unfold State.codeStep
  split
  · exact .cores rfl
  · exact .refl s

theorem sameGroups_codeSeen (s : State) (launch ctx : Nat) (p : PA) : SameGroups s (s.codeSeen launch ctx p) :=
  (SameGroups.cores (State.modLaunch_cores ..)).trans (sameGroups_l2Read ..)

theorem sameGroups_tlbMissed (s : State) (c ctx : Nat) (extra : List TlbE) (vas : List Nat) :
    SameGroups s (s.tlbMissed c ctx extra vas) := sameGroups_countCore ..

/-- A group that has started a clause on a lane, under the map version `cmv`. -/
def Group.started (g : Group) (cl : Clause) (lane cmv : Nat) : Group :=
  { g.starvation cl.pc with clause := some { cl with lane, cmv }, wait := .none, ylast := false, readyAt := none }

/-- Starting a clause counts and fetches, which leaves the groups alone, and changes its own group. -/
theorem startClause_group? {s : State} {c gid : Nat} {g : Group} (hg : s.group? c gid = some g) (lane : Nat) (cl : Clause) :
    (s.startClause c gid lane cl).group? c gid = some (g.started cl lane s.cmap.cmv) := by
  unfold State.startClause
  extract_lets p launch rotated
  have h0 := (sameGroups_codeStep s launch p).trans
    ((sameGroups_codeSeen _ launch (((s.group? c gid).map (·.ctx)).getD 0) p).trans (sameGroups_fresh _))
  generalize ((s.codeStep launch p).codeSeen launch (((s.group? c gid).map (·.ctx)).getD 0) p).fresh = r at h0
  obtain ⟨seq, s0⟩ := r
  dsimp -zeta only
  extract_lets s1 s2
  have h1 : SameGroups s0 s1 := by
    unfold s1
    split
    · exact sameGroups_countCore ..
    · exact .refl _
  have h2 : s2.group? c gid = some g := by
    unfold s2
    rw [hg]
    exact ((h0.trans h1).trans (sameGroups_tlbMissed ..)).same c gid |>.trans hg
  rw [(sameGroups_modCore _ _ _ rfl).same, modGroup_of _ _ h2, group?_setGroup]
  rfl

/-- What an issue at an address leaves of a thread: its count of starvation alone changes. -/
theorem starvation_th_pc (g : Group) (pc : DWord) (i : Nat) : ((g.starvation pc).th i).pc = (g.th i).pc := by
  by_cases hl : i < g.threads.length
  · simp only [Group.th, Group.starvation, List.getD_eq_getElem?_getD, List.getElem?_mapIdx, List.getElem?_eq_getElem hl,
      Option.map_some, Option.getD_some]
  · simp [Group.th, Group.starvation, List.getElem?_eq_none (Nat.le_of_not_lt hl)]

/-! ## A full issue -/

/-- The clause that a full issue at a header starts. -/
def headerClause (pc : DWord) (p : PA) (w e lane : Nat) : Clause :=
  { hdr := pc, cls := hdrClass w, count := hdrCount w, pos := 1, pc := pc + 4, next := lineAddr pc e,
    yld := hdrYld w, re := hdrRE w, pa := (p.host, p.addr), res := [], lane, issue := pc }

/-- A group whose threads on a header have been sent to position 1, in the region that an RB header opens. -/
def Group.atHeader (g : Group) (pc : DWord) (w seq : Nat) : Group :=
  let g1 := if hdrRB w then g.beginRegion pc seq else g
  g1.modThs (g1.atPc pc) fun _ t => { t with pc := pc + 4 }

section
variable {s : State} {c gid : Nat} {g : Group} {pc : DWord} {p : PA} {w e lane : Nat}

/-- A full issue that no check of its header stops, and that has a lane, starts the header's clause. -/
theorem fullAt_of_lane (hok : hdrOk w = true)
    (he : lineSkip (s.lineWord g.launch pc p) (hdrCount w) (pc.toNat % 256 / 4 + 1) = .inl e)
    (hrb : hdrRB w = true → g.handler = false ∧ (g.region = none ∨ g.restart = true) ∧ g.asyncFaults = [])
    (htok : g.tokFaults w = []) (hrdy : g.hdrReady w = true) (hlane : s.laneFor c gid g = some lane) :
    s.fullAt c gid g pc p w =
      (((s.fresh.2).setGroup c gid (g.atHeader pc w s.nextId)).touch g.ctx (s.homeDie p)).startClause c gid lane
        (headerClause pc p w e lane) := by
  have hnest : (hdrRB w && (g.handler || (g.region.isSome && !g.restart))) = false := by
    cases h : hdrRB w
    · rfl
    · obtain ⟨hh, hr, -⟩ := hrb h
      obtain hr | hr := hr <;> simp [hh, hr]
  unfold State.fullAt
  simp only [hok, he, hnest, htok, hrdy, hlane, Bool.not_true, Bool.false_eq_true, if_false, List.isEmpty_nil]
  cases h : hdrRB w
  · simp only [Group.atHeader, h]
    rfl
  · obtain ⟨-, -, ha⟩ := hrb h
    simp only [Group.atHeader, h, ha]
    rfl

end

/-- The threads of a group, after its region begins: their generators restart. -/
theorem beginRegion_th (g : Group) (pc : DWord) (seq i : Nat) (hi : i < g.threads.length) :
    (g.beginRegion pc seq).th i = { g.th i with srCtr := 0 } := by
  simp [Group.th, Group.beginRegion, hi]

/-- A thread that a region takes in stands on its header still. -/
theorem atPc_beginRegion {g : Group} {pc : DWord} (seq : Nat) {i : Nat} (h : (g.atPc pc).getLsbD i = true) :
    ((g.beginRegion pc seq).atPc pc).getLsbD i = true := by
  have hth := beginRegion_th g pc seq i (atPc_lt h)
  have hin : (g.beginRegion pc seq).parked.getLsbD i = false := by
    simp [Group.parked, Group.beginRegion, h]
  have hhandler : (g.beginRegion pc seq).handler = g.handler := rfl
  have hdone : (g.beginRegion pc seq).rteDone = g.rteDone := rfl
  simp only [Group.atPc, maskWhere_getLsbD, Group.eligibleAt, Bool.and_eq_true] at h
  obtain ⟨hi, ⟨⟨hready, -⟩, hback⟩, hpc⟩ := h
  simp only [Group.atPc, maskWhere_getLsbD, Group.eligibleAt, hth, hin, hhandler, hdone, hi, hready, hback, hpc, Bool.not_false,
    Bool.and_self]

/-- The threads on a header go to position 1. -/
theorem atHeader_th_pc {g : Group} {pc : DWord} (w seq : Nat) {i : Nat} (h : (g.atPc pc).getLsbD i = true) :
    ((g.atHeader pc w seq).th i).pc = pc + 4 := by
  unfold Group.atHeader
  extract_lets g1
  have hat : (g1.atPc pc).getLsbD i = true := by
    unfold g1
    split
    · exact atPc_beginRegion seq h
    · exact h
  rw [modThs_th _ _ _ _ (atPc_lt hat), if_pos hat]

/-- The region that an RB header opens has the threads on it as members. -/
theorem atHeader_region (g : Group) (pc : DWord) {w : Nat} (seq : Nat) (h : hdrRB w = true) :
    ∃ r, (g.atHeader pc w seq).region = some r ∧ r.rgpc = pc ∧ r.members = g.atPc pc ∧ (g.atHeader pc w seq).engIdx = 0 := by
  simp [Group.atHeader, h, Group.modThs, Group.beginRegion]

/-! ## A resumed issue -/

/-- The clause that a resumed issue starts, at a position of the clause with header word `hw` at index `h`. -/
def resumedClause (g : Group) (pc : DWord) (p : PA) (h hw pos e lane : Nat) (earlier : List (Nat × Nat)) : Clause :=
  { hdr := lineAddr pc h, cls := hdrClass hw, count := hdrCount hw, pos, pc, next := lineAddr pc e,
    yld := hdrYld hw, re := hdrRE hw, pa := (p.host, p.addr - 4 * (pc.toNat % 256 / 4 - h)),
    res := g.lateLatches (earlier.map (·.2)), lane, issue := pc }

/-- A resumed issue whose line has an owner for its word, and that has a lane, starts the rest of the owner's clause. -/
theorem midAt_of_own {s : State} {c gid : Nat} {g : Group} {pc : DWord} {p : PA} (w : Nat) {h hw pos e lane : Nat}
    {earlier : List (Nat × Nat)}
    (ho : lineOwner (s.lineWord g.launch pc p) (pc.toNat % 256 / 4) 65 0 = .own h hw pos e earlier)
    (hlane : s.laneFor c gid g = some lane) :
    s.midAt c gid g pc p w =
      (s.touch g.ctx (s.homeDie p)).startClause c gid lane (resumedClause g pc p h hw pos e lane earlier) := by
  simp only [State.midAt, ho, hlane]
  rfl

/-! ## Cuts -/

section
variable {s : State} {c : Nat}

/-- A quadrant without a free lane, and with fewer cuts in flight than ready G groups, cuts the H clause that
started last. -/
theorem execHClauseCut_of_latest {q a b n : Nat} {g : Group} {cl : Clause} (hfree : (s.core c).freeLane q = none)
    (hneed : (s.core c).cutsInFlight q < (s.waitingG c q).length) (hl : latest (s.hClauses c q) = some (a, b, n))
    (hg : s.group? c n = some g) (hcl : g.clause = some cl) :
    execHClauseCut c q s =
      .next ((s.countCore c 8 1 (s.carries g.ctx)).setGroup c n { g with clause := some { cl with cut := true } }) := by
  have hcount : (s.countCore c 8 1 (s.carries g.ctx)).group? c n = some g := (group?_countCore ..).trans hg
  simp only [execHClauseCut, hfree, Option.isSome_none, Bool.false_or, decide_eq_true_eq, Nat.not_le.mpr hneed, if_false, hl,
    hg, Option.bind_some, modGroup_of _ _ hcount, hcl, Option.map_some]

/-- The lane of a cut clause becomes free, and the groups that waited for it wait no more. -/
theorem execCutLaneFree_of_draining {lane : Nat} {cut : Bool} (h : (s.core c).lanes.getD lane .free = .draining cut) :
    execCutLaneFree c lane s = .next (s.setCore c { s.core c with
      lanes := listMod (s.core c).lanes lane fun _ => .free
      groups := (s.core c).groups.map fun (n, g) => (n, if g.wait = .drain lane then { g with wait := .none } else g) }) := by
  simp only [execCutLaneFree, State.modCore, h]

/-- A lane that drains is a lane of the core. -/
theorem draining_lt {ls : List Lane} {lane : Nat} {cut : Bool} (h : ls.getD lane .free = .draining cut) : lane < ls.length := by
  by_contra hn
  rw [List.getD_eq_default _ _ (Nat.le_of_not_lt hn)] at h
  cases h

end

/-- Settles O31: an issue that no check stops starts a clause, which changes its own group alone; a cut and a freed
lane by their definitions. -/
theorem clausesIssue : Obligations.ClausesIssue := by
  unfold Obligations.ClausesIssue
  refine ⟨?_, ?_, ?_⟩
  · intro s c gid g pc p w lane
    dsimp only
    intro h1 h2 hg hlane
    constructor
    · intro e hf hok he hrb htok hrdy
      have hrun := (exec_fullIssue_of_hdr h1 h2 hg hf).trans (congrArg _ (fullAt_of_lane hok he hrb htok hrdy hlane))
      refine ⟨_, _, _, hrun, startClause_group? (((sameGroups_touch ..).same c gid).trans (group?_setGroup ..)) _ _, rfl,
        rfl, rfl, rfl, rfl, rfl, rfl, rfl, rfl, rfl, rfl, ?_, ?_⟩
      · intro i _ hi
        exact (starvation_th_pc ..).trans (atHeader_th_pc w _ hi)
      · exact atHeader_region g pc _
    · intro h hw pos e earlier hf ho
      have hrun := (exec_resumedIssue_of_mid h1 h2 hg hf).trans (congrArg _ (midAt_of_own w ho hlane))
      exact ⟨_, _, _, hrun, startClause_group? (((sameGroups_touch ..).same c gid).trans hg) _ _, rfl,
        rfl, rfl, rfl, rfl, rfl, rfl, rfl, rfl⟩
  · intro s c q a b n g cl hfree hneed hl hg hcl
    exact execHClauseCut_of_latest hfree hneed hl hg hcl
  · intro s c lane b h
    exact ⟨_, execCutLaneFree_of_draining h, listMod_length .., listMod_getD_self _ _ _ _ (draining_lt h),
      fun i hi => listMod_getD_ne _ _ _ _ _ hi⟩

end Sys2Proof.Machine

namespace Sys2Proof.Machine

/-! # Scratchpad stores and atomics, acquires (06 R164, R186, 14 R363, 17 R446) -/

/-! ## What changes no scratchpad -/

/-- Two states hold the same in every scratchpad. -/
structure SameScratch (s t : State) : Prop where
  same : ∀ c, (t.core c).scratch = (s.core c).scratch

namespace SameScratch
variable {s t u : State}

theorem refl (s : State) : SameScratch s s := ⟨fun _ => rfl⟩
theorem trans (h : SameScratch s t) (k : SameScratch t u) : SameScratch s u := ⟨fun c => (k.same c).trans (h.same c)⟩

theorem cores (h : t.cores = s.cores) : SameScratch s t := ⟨fun c => by simp only [State.core, h]⟩

theorem modCore (s : State) (c : Nat) (f : Core → Core) (hf : ∀ k, (f k).scratch = k.scratch := by intro; rfl) :
    SameScratch s (s.modCore c f) := by
  refine ⟨fun d => ?_⟩
  by_cases hd : d = c
  · subst hd
    simp [State.modCore, hf]
  · simp [State.modCore, core_setCore_ne _ hd]

theorem foldl {α : Type} (l : List α) (f : State → α → State) (h : ∀ s x, SameScratch s (f s x)) (s : State) :
    SameScratch s (l.foldl f s) :=
  List.foldlRecOn (motive := SameScratch s) l f (refl s) fun t ht x _ => ht.trans (h t x)

theorem ite {c : Prop} [Decidable c] (h : SameScratch s t) (k : SameScratch s u) : SameScratch s (if c then t else u) := by
  split
  · exact h
  · exact k

theorem scratchGet (h : SameScratch s t) (c a n : Nat) : t.scratchGet c a n = s.scratchGet c a n := by
  rw [State.scratchGet, h.same, State.scratchGet]

theorem countCore (s : State) (c src n : Nat) (who : Option (Bool × Nat)) : SameScratch s (s.countCore c src n who) :=
  (refl s).ite (modCore s c _)

theorem l1Acquire (s : State) (c : Nat) : SameScratch s (s.l1Acquire c) := modCore s c _

theorem l2Read (s : State) (w : Work) (p : PA) (n : Nat) : SameScratch s (s.l2Read w p n) :=
  foldl _ _ (fun s _ => .cores (l2Enter_cores s ..)) s

theorem fetchLine (s : State) (c : Nat) (p : PA) : SameScratch s (s.fetchLine c p) :=
  (refl s).ite ((modCore s c _).trans (foldl _ _ (fun t _ => (refl t).ite (modCore t c _)) _))

theorem l1Load (s : State) (c : Nat) (p : PA) (n : Nat) : SameScratch s (s.l1Load c p n).2 := (refl s).ite (fetchLine s c p)

theorem loadPart (s : State) (c : Nat) (l : PLoad) (o n : Nat) : SameScratch s (s.loadPart c l o n).2.2.2 := by
  unfold State.loadPart
  extract_lets pa cured
  cases l.space
  · dsimp only
    split
    · exact refl s
    · have hcount := countCore s c
      split
      · exact hcount ..
      · cases s.l1Bypassed c (s.loader c l).2 with
        | true => exact (hcount ..).trans (l2Read ..)
        | false => exact ((hcount ..).trans (l1Load ..)).ite (((hcount ..).trans (l1Load ..)).trans (l2Read ..))
  · exact refl s
  · exact refl s

theorem serveHalf (s : State) (c : Nat) (l : PLoad) (up : Bool) : SameScratch s (s.serveHalf c l up) := by
  unfold State.serveHalf
  extract_lets s0 n o f
  have h0 : SameScratch s s0 := (l1Acquire ..).ite (refl s)
  split
  rename_i bs ue e s1 hp
  extract_lets mine bad s2 got s3
  have h1 : SameScratch s0 s1 := by
    have h := loadPart s0 c l o n
    rwa [hp] at h
  have h2 : SameScratch s1 s2 := (cores (s := s1) (t := { s1 with free := s1.free + 16 }) rfl).ite (refl s1)
  have h3 : SameScratch s2 s3 := by
    unfold s3
    cases got with
    | none => exact refl s2
    | some bs => exact cores rfl
  exact (((h0.trans h1).trans h2).trans h3).trans (modCore s3 c _)

theorem serveWhole (s : State) (c : Nat) (l : PLoad) : SameScratch s (s.serveWhole c l) := by
  have h (t : State) (x : PLoad) : SameScratch t (t.serve c x) := serveHalf ..
  unfold State.serveWhole
  extract_lets s1
  split
  · exact ((h s l).trans (h s1 _)).ite (h s l)
  · exact h s l

theorem serveFor (s : State) (c : Nat) (ts : List (Nat × Mask)) (p : Place) (before : Nat) :
    SameScratch s (s.serveFor c ts p before) := foldl _ _ (fun s l => serveWhole s c l) s
end SameScratch

/-! ## A scratchpad after a write -/

section
variable {s : State}

theorem cellsGet_eq_map (m : List Host.Cell) (a n : Nat) : cellsGet m a n = (List.range n).map fun i => cellGet m (a + i) := by
  induction n generalizing a with
  | zero => rfl
  | succ n ih =>
    rw [cellsGet, ih, List.range_succ_eq_map, List.map_cons, List.map_map]
    exact congrArg _ (List.map_congr_left fun i _ => congrArg (cellGet m) (by show a + 1 + i = a + (i + 1); omega))

/-- Bytes that were written are read back. -/
theorem cellsGet_cellsSet {m : List Host.Cell} (a : Nat) (bs : List Byte) (h : Memory.wf m = true) :
    cellsGet (cellsSet m a bs) a bs.length = bs := by
  rw [cellsGet_eq_map]
  refine List.ext_getElem (by simp) fun i h1 h2 => ?_
  rw [List.getElem_map, List.getElem_range, cellGet_cellsSet_in a bs h i h2, List.getD_eq_getElem _ _ h2]

theorem scratch_scratchSet (s : State) (c a : Nat) (bs : List Byte) :
    ((s.scratchSet c a bs).core c).scratch = cellsSet (s.core c).scratch a bs := by
  simp [State.scratchSet, State.modCore]

theorem scratchGet_scratchSet (h : MemOk s) (c a : Nat) (bs : List Byte) :
    (s.scratchSet c a bs).scratchGet c a bs.length = bs := by
  rw [State.scratchGet, scratch_scratchSet, cellsGet_cellsSet a bs h.core]

/-- A scratchpad store of the own core that nothing holds back takes effect at once (06 R164, 17 R446). -/
theorem storeScratch_byte (hw : MemOk s) {c a j : Nat} {w : Storer} {bs : List Byte} (hj : j < bs.length)
    (hh : s.storeHeld c w.gid w.mask ⟨.scratch, c, ⟨false, a⟩, bs.length⟩ = false) :
    cellGet ((s.storeScratch c w c a bs).core c).scratch (a + j) = bs.getD j 0 := by
  have hnow : s.storeScratch c w c a bs = ((s.serveMet c w.gid w.mask ⟨.scratch, c, ⟨false, a⟩, bs.length⟩ s.nextId).keepOld
      c w.gid w.mask s.nextId a bs.length).scratchSet c a bs := by
    simp [State.storeScratch, hh]
  rw [hnow, scratch_scratchSet]
  exact cellGet_cellsSet_in a bs hw.serveMet.keepOld.core j hj

/-- A scratchpad atomic finds the old value of its word and leaves the new one (14 R363). -/
theorem atomEvent_scratch (hw : MemOk s) {t : State} {c : Nat} {a : PAtom} {old : Nat} (hs : a.space = .scratch)
    (h : s.atomEvent c a = .done old t) :
    old = leNat (s.scratchGet a.tgtCore a.pa.addr a.nbytes) ∧
      t.scratchGet a.tgtCore a.pa.addr a.nbytes = leBytes a.nbytes (a.newValue old) := by
  unfold State.atomEvent at h
  extract_lets n s1 _ _ _ _ found s2 at h
  rw [hs] at h
  split at h
  · cases h
  · dsimp only at h
    split at h
    · cases h
    · obtain ⟨rfl, rfl⟩ := AtomRes.done.inj h
      have hs2 : MemOk s2 := (MemOk.foldl hw.serveFor fun _ _ ht => ht.keepOld).ite hw.serveFor
      have hput := scratchGet_scratchSet hs2 a.tgtCore a.pa.addr (leBytes n (a.newValue found))
      rw [leBytes_length] at hput
      exact ⟨congrArg leNat ((SameScratch.serveFor s ..).scratchGet ..), hput⟩

/-! ## Acquires -/

theorem l1Acquire_owned (s : State) (c : Nat) : ∀ w ∈ ((s.l1Acquire c).core c).l1, w.st ≠ .unowned := by
  intro w hw
  rw [State.l1Acquire, State.modCore, core_setCore] at hw
  simpa using (List.mem_filter.mp hw).2

/-- A fence that acquires ends with the acquire of its L1 (06 R186). -/
theorem fenceAct_acquires (c gid : Nat) (m : Mask) (before : Nat) {kind : BitVec 2} {scope : BitVec 3} {fused : Bool}
    (hk : fenceAcq kind = true) (hs : scopeActs fused scope = true) :
    ∃ t : State, s.fenceAct c gid m before kind scope fused = t.l1Acquire (s.l1Of c) := by
  simp only [State.fenceAct, hk, hs, Bool.not_true, Bool.false_eq_true, if_false, if_true]
  exact ⟨_, rfl⟩
end

/-- Settles O12: the bytes of a store and of an atomic are read back, and an acquire comes last in its fence. -/
theorem storesAndAcquiresTakeEffect : Obligations.StoresAndAcquiresTakeEffect := by
  unfold Obligations.StoresAndAcquiresTakeEffect
  refine ⟨fun s c w a bs j hw hj hh => storeScratch_byte ((memOk_iff s).mpr hw) hj hh,
    fun s t c a old hw hs h => atomEvent_scratch ((memOk_iff s).mpr hw) hs h, fun s c gid m before kind scope fused hk hs => ?_⟩
  obtain ⟨t, ht⟩ := fenceAct_acquires (s := s) c gid m before hk hs
  rw [ht]
  exact l1Acquire_owned t _

end Sys2Proof.Machine

namespace Sys2Proof.Machine

/-! # Issued accesses end (06 R185, R187, 14 R363 to R365, 15 R387, R399, 16 R429, 17 R439, R447) -/

section
variable {s : State} {c id : Nat}

/-! ## Loads -/

/-- A load that has its value writes it, if no register that it goes to is held. -/
theorem execLoadDataReturn_of_data {l : PLoad} {g : Group} {bs : List Byte} {bad : List Nat}
    (hf : (s.core c).loads.find? (·.id == id) = some l) (hg : s.group? c l.gid = some g) (hd : l.data = some (bs, bad))
    (hb : (destRegs l.dst l.nbytes).any (fun n => (s.core c).bHeld l.gid g n) = false) :
    execLoadDataReturn c id false s = .next ((s.returnLoad c l bs bad).sweep c) := by
  simp only [execLoadDataReturn, hf, hd, hg, hb, Option.isNone_some, Bool.false_and, Bool.false_eq_true, if_false]

/-- The good data of a load without a token goes to its registers, and its threads wait no more. -/
theorem returnLoad_plain {l : PLoad} {g : Group} {bs : List Byte} (hg : s.group? c l.gid = some g) (ht : l.tok = none) :
    let s1 := s.modCore c fun k => { k with loads := k.loads.filter (·.id != l.id) }
    s.returnLoad c l bs [] = s1.setGroup c l.gid ((g.putLoad l bs []).wakeThs l.mask .load) := by
  intro s1
  have hg1 : s1.group? c l.gid = some g := ((sameGroups_modCore s c _ rfl).same ..).trans hg
  simp only [State.returnLoad, ht, List.isEmpty_nil, if_true]
  exact modGroup_of s1 _ hg1

/-- The good data of a token load goes to its registers, and its token counts one less. -/
theorem returnLoad_token {l : PLoad} {g : Group} {bs : List Byte} {t : Nat} (hg : s.group? c l.gid = some g) (ht : l.tok = some t) :
    let s1 := s.modCore c fun k => { k with loads := k.loads.filter (·.id != l.id) }
    s.returnLoad c l bs [] = s1.setGroup c l.gid
      ({ g.putLoad l bs [] with tokens := listMod (g.putLoad l bs []).tokens t (· - 1) }.wakeExit (s1.core c) l.gid l.mask) := by
  intro s1
  have hg1 : s1.group? c l.gid = some g := ((sameGroups_modCore s c _ rfl).same ..).trans hg
  simp only [State.returnLoad, ht, List.isEmpty_nil, if_true]
  exact modGroup_of s1 _ hg1

/-- A load that nothing holds back takes its value. -/
theorem execLoadDataReturn_serves {l : PLoad} (hf : (s.core c).loads.find? (·.id == id) = some l) (hd : l.data = none)
    (hh : s.loadHeld c l = false) (hm : s.metHeld c l.whose l.place id = false) :
    execLoadDataReturn c id true s = .next ((s.serveInOrder c l).sweep c) := by
  simp only [execLoadDataReturn, hf, hd, hh, hm, Option.isNone_none, Bool.or_self, Bool.and_false, Bool.false_eq_true, if_false, if_true]

/-! ## Atomics and reductions -/

theorem execAtomicResultReturn_of_done {a : PAtom} {g : Group} {old : Nat} {t : State}
    (hf : (s.core c).atoms.find? (fun a => a.id == id && !a.red) = some a) (hg : s.group? c a.gid = some g)
    (hb : a.dests.any (fun n => (s.core c).bHeld a.gid g n) = false) (he : s.atomEvent c a = .done old t) :
    execAtomicResultReturn c id s = .next (((t.dropAtom c id).modGroup c a.gid fun g => g.putOld a old).sweep c) := by
  simp only [execAtomicResultReturn, hf, hg, hb, he, Bool.false_eq_true, if_false]

theorem execReductionTakesEffect_of_done {a : PAtom} {old : Nat} {t : State}
    (hf : (s.core c).atoms.find? (fun a => a.id == id && a.red) = some a) (he : s.atomEvent c a = .done old t) :
    execReductionTakesEffect c id s = .next ((t.dropAtom c id).sweep c) := by
  simp only [execReductionTakesEffect, hf, he]

/-! ## Fences -/

theorem ite_foldl {α β : Type} (b : Bool) (f : β → α → β) (l : List α) (x : β) :
    (if b then x else l.foldl f x) = l.foldl (fun x y => if b then x else f x y) x := by
  cases b with
  | true => exact (foldl_eq_self fun _ _ => rfl).symm
  | false => rfl

/-- The L1 actions of a fence that completes, and its threads go on unless it stands for a release in the background. -/
theorem execFenceComplete_of_ready {f : PFence} (hf : (s.core c).fences.find? (·.id == id) = some f)
    (hr : (s.core c).fenceReady f = true) (hh : (fenceRel f.kind && s.releaseHeld c f.whose f.id) = false) :
    let fused := s.fenceFused c f.gid
    let t := f.whose.foldl (fun s (gid, m) => s.fenceAct c gid m f.id f.kind f.scope fused) s
    (fenceRel f.kind && scopeActs fused f.scope && t.l1Owes (t.l1Of c) f.ctx) = false → execFenceComplete c id s =
      .next ((f.whose.foldl (fun s (gid, m) => if f.bg then s else (s.modGroup c gid fun g => g.wakeThs m .fence).raiseRed c gid m)
        (t.modCore c fun k => { k with fences := k.fences.filter (·.id != id) })).sweep c) := by
  intro fused t ho
  have hc : ¬ ((!(s.core c).fenceReady f || (fenceRel f.kind && s.releaseHeld c f.whose f.id)) = true) := by
    rw [hr, hh]
    exact Bool.false_ne_true
  simp only [execFenceComplete, hf]
  refine (if_neg hc).trans ((if_neg (by rw [ho]; exact Bool.false_ne_true)).trans ?_)
  exact congrArg (fun u : State => Host.Outcome.next (u.sweep c)) (ite_foldl f.bg _ f.whose _)

/-! ## MEET pushes, stores, evictions -/

theorem execMeetPushDone_of {gid slot : Nat} {x : PPush} {g : Group}
    (hf : (s.core c).pushes.find? (fun x => x.gid == gid && x.slot == slot) = some x) (hg : s.group? c gid = some g)
    (hc : s.checkPa (s.ctx g.ctx).vd x.pa = none) :
    let t := ((s.modCore c fun k => { k with pushes := k.pushes.erase x }).homeWrite (s.workOf g.ctx) x.pa
      (leBytes 8 x.val.toNat)).dropCopies (s.l1Of c) x.pa 8
    s.heldMore t = false → s.hbmHolds (s.clsOf g.ctx) x.pa 8 = false →
      execMeetPushDone c gid slot s = .next (t.modGroup c gid fun g => g.wakeThs (1#32 <<< slot) .setm) := by
  intro t hh hs
  simp only [execMeetPushDone, hf, hg, Option.map_some, Option.getD_some, hc]
  exact if_neg (by rw [Bool.or_eq_true, not_or]; exact ⟨by rw [hh]; exact Bool.false_ne_true, by rw [hs]; exact Bool.false_ne_true⟩)

theorem execStoreTakesEffect_of_queued {w : PStore} (hf : (s.core c).stores.find? (·.id == id) = some w)
    (hw : (s.core c).storeWaits c w = false) (hl : s.storeLate c w = false) (hs : s.storeStopped c w = false)
    (ho : w.rel = true → (s.l1Release (s.l1Of c)).l1Owes (s.l1Of c) w.ctx = false) :
    let t := (s.applyStore c w).modCore c fun k => { k with stores := k.stores.filter (·.id != w.id) }
    s.heldMore t = false → execStoreTakesEffect c (2 * id) s = .next (t.sweep c) := by
  intro t hh
  have hid : 2 * id / 2 = id := by omega
  have ho' : (w.rel && (s.l1Release (s.l1Of c)).l1Owes (s.l1Of c) w.ctx) = false := by
    cases hrel : w.rel with
    | true => exact ho hrel
    | false => rfl
  simp only [execStoreTakesEffect, Nat.mul_mod_right, hid, hf, hw, hl, hs, ho', Bool.or_self, Bool.or_false, Bool.false_eq_true, if_false,
    if_true]
  exact if_neg (by rw [hh]; exact Bool.false_ne_true)

/-- A line that has left an L1 has no word there (06 R185). -/
theorem dropLine_gone (s : State) (c : Nat) (p : PA) {w : L1Word} (hw : w ∈ ((s.dropLine c p).core c).l1) :
    ¬ (w.pa.host = p.host ∧ w.pa.addr / 128 = p.addr / 128) := by
  rw [State.dropLine, State.modCore, core_setCore] at hw
  simpa [← not_and_or] using (List.mem_filter.mp hw).2

theorem execL1LineEviction_of {host : Bool} {line : Nat} (hh : s.heldMore (s.dropLine (s.l1Of c) ⟨host, 128 * line⟩) = false)
    (hs : s.lineStopped (s.l1Of c) ⟨host, 128 * line⟩ = false) :
    execL1LineEviction c host line s = .next (s.dropLine (s.l1Of c) ⟨host, 128 * line⟩) := by
  simp only [execL1LineEviction, hh, hs, Bool.or_self, Bool.false_eq_true, if_false]
end

/-- Settles O29: each access ends as its event's equation has it. -/
theorem accessesEnd : Obligations.AccessesEnd := by
  unfold Obligations.AccessesEnd
  intro s c id
  refine ⟨fun l g bs hf hg hd hb => ?_, fun l => execLoadDataReturn_serves, fun a g old t => execAtomicResultReturn_of_done,
    fun a old t => execReductionTakesEffect_of_done, fun f => execFenceComplete_of_ready, fun gid slot x g => execMeetPushDone_of,
    fun w => execStoreTakesEffect_of_queued, fun host line => ?_⟩
  · intro s1
    have hrun := execLoadDataReturn_of_data hf hg hd hb
    exact ⟨fun ht => hrun.trans (by rw [returnLoad_plain hg ht]), fun t ht => hrun.trans (by rw [returnLoad_token hg ht])⟩
  · intro t hh hs
    refine ⟨execL1LineEviction_of hh hs, fun w hw h => dropLine_gone s _ _ hw ⟨h.1, ?_⟩⟩
    rw [h.2, Nat.mul_div_cancel_left _ (by decide)]

end Sys2Proof.Machine

namespace Sys2Proof.Machine

/-! # Page walks, page requests and invalidations (06 R173, R177 to R183) -/

theorem alGet_map {α β : Type} (f : α → β) (k : Nat) (l : List (Nat × α)) :
    alGet k (l.map fun x => (x.1, f x.2)) = (alGet k l).map f := by
  induction l with
  | nil => rfl
  | cons x r ih =>
    simp only [List.map_cons, alGet]
    split
    · rfl
    · exact ih

section
variable {s : State}

@[simp] theorem vd_modVd (s : State) (v : Nat) (f : VDev → VDev) : (s.modVd v f).vd v = f (s.vd v) := by
  simp [State.modVd, State.setVd, State.vd]

/-! ## Walks -/

/-- How a walk that nothing holds back ends is what its reads come to (06 R173, R182). -/
theorem execPageWalkComplete_of {die id : Nat} {w : Walk}
    (hf : s.walks.find? (fun w => w.id == id && w.die == die && w.request.isNone) = some w)
    (hs : s.walkStopped w.ctx (s.walk die w.ctx (w.vpage * 4096)).reads = false) :
    let r := s.walk die w.ctx (w.vpage * 4096)
    let s1 := (s.touchReads w.ctx r.reads).countDie die 0x109 1 (s.carries w.ctx)
    (∀ e, r.res = .leaf e → execPageWalkComplete die id s = .next ((s1.cacheInner die r.inner).walkLeaf w e)) ∧
    (∀ f, r.res = .fault f → execPageWalkComplete die id s = .next (s1.walkFail w f)) ∧
    (r.res = .request → execPageWalkComplete die id s =
      if 2 ≤ w.resolved then .next (s1.walkFail w .page) else .next (s1.sendRequest w)) := by
  refine ⟨fun e h => ?_, fun f h => ?_, fun h => ?_⟩ <;>
    simp only [execPageWalkComplete, hf, hs, h, Bool.false_eq_true, if_false]

/-! ## Responses and time-outs -/

/-- What a response of another generation does (06 R183). -/
theorem execPageResponse_late {v : Nat} {val : DWord} (h : val.toNat / 2 ^ 32 ≠ (s.vd v).gen.toNat) :
    execPageResponse v val s =
      .next { s.modVd v (fun d => { d with prsp := val &&& 0xFFFFFFFF0000FF03 }) with latepr := s.latepr + 1 } := by
  simp only [execPageResponse, vd_modVd]
  exact if_pos h

/-- What a response of this generation does to the request that it names (06 R182). -/
theorem execPageResponse_meets {v : Nat} {val : DWord} {r : PageReq} (hr : r ∈ (s.vd v).reqs)
    (hg : val.toNat / 2 ^ 32 = (s.vd v).gen.toNat) (hi : r.id = val.toNat / 256 % 256) :
    let s0 := s.modVd v fun d => { d with prsp := val &&& 0xFFFFFFFF0000FF03 }
    execPageResponse v val s = if val.toNat % 4 = 0 then
        .next ((s0.walksOn v (val.toNat / 256 % 256)).foldl
          (fun s w => s.modWalk w.id fun w => { w with resolved := w.resolved + 1, request := none })
          (s0.dropReq v (val.toNat / 256 % 256)))
      else .next (s0.requestFails v (val.toNat / 256 % 256)) := by
  have hall : (s.vd v).reqs.all (fun r => r.id != val.toNat / 256 % 256) = false :=
    List.all_eq_false.mpr ⟨r, hr, by simp [hi]⟩
  simp only [execPageResponse, vd_modVd, hg, ne_eq, not_true_eq_false, if_false, hall, Bool.false_eq_true]

theorem execPageRequestTimeout_of {v id : Nat} {r : PageReq} (h : (s.vd v).reqs.find? (·.id == id) = some r)
    (ht : r.sent + 1000000 * (s.vd v).prto.toNat < s.time) : execPageRequestTimeout v id s = .next (s.requestFails v id) := by
  simp only [execPageRequestTimeout, h, ht, if_true]

/-! ## Invalidations -/

/-- The state with an invalidation running (06 R179). -/
def State.invalidating (s : State) (mode ctx npg : Nat) : State := { s with
  tlbinvc := BitVec.ofNat 64 (packBits [(0, mode), (16, ctx), (32, npg), (63, 1)])
  tlbRun := some (mode, ctx, s.tlbinva.toNat / 4096 % 2 ^ 44, npg) }

/-- A command that is written while none runs starts, but for a range of no pages. -/
theorem tlbWrite_starts {mode ctx npg : Nat} (hb : s.tlbBusy = false) (hm : mode ≠ 0) (hn : mode = 3 → npg ≠ 0) :
    s.tlbWrite mode ctx npg = s.invalidating mode ctx npg := by
  have hc : ¬ ((s.tlbBusy || (mode == 3 && npg == 0)) = true) := by simpa [hb] using hn
  simp only [State.tlbWrite, if_neg hc, if_neg hm]
  rfl

/-- A group without the kept translations that an invalidation drops. -/
def Group.invalidated (r : Nat × Nat × Nat × Nat) (g : Group) : Group :=
  { g with walkHits := g.walkHits.filter fun e => !e.dropped r }

/-- A core whose TLB, and whose groups, keep no translation that an invalidation drops. -/
def Core.invalidated (r : Nat × Nat × Nat × Nat) (k : Core) : Core :=
  { k with tlb := k.tlb.filter fun e => !e.dropped r, groups := k.groups.map fun x => (x.1, x.2.invalidated r) }

theorem dropped_of_mem_filter {α : Type} {r : Nat × Nat × Nat × Nat} {f : α → TlbE} {l : List α} {x : α}
    (h : x ∈ l.filter fun y => !(f y).dropped r) : (f x).dropped r = false := by
  simpa using (List.mem_filter.mp h).2

theorem invalidated_tlb {r : Nat × Nat × Nat × Nat} {k : Core} {e : TlbE} (h : e ∈ (k.invalidated r).tlb) : e.dropped r = false :=
  dropped_of_mem_filter (f := id) h

theorem invalidated_walkHits {r : Nat × Nat × Nat × Nat} {k : Core} {gid : Nat} {g : Group}
    (h : alGet gid (k.invalidated r).groups = some g) : ∀ e ∈ g.walkHits, e.dropped r = false := by
  have hx : (alGet gid k.groups).map (Group.invalidated r) = some g := (alGet_map ..).symm.trans h
  obtain ⟨x, -, rfl⟩ := Option.map_eq_some_iff.mp hx
  exact fun e he => dropped_of_mem_filter (f := id) he

/-- The cores after an invalidation, those included that the table does not name. -/
theorem core_invalidated {t : State} {r : Nat × Nat × Nat × Nat}
    (h : t.cores = s.cores.map fun x => (x.1, x.2.invalidated r)) (c : Nat) : t.core c = (s.core c).invalidated r := by
  rw [State.core, h, alGet_map (Core.invalidated r), State.core]
  cases alGet c s.cores <;> rfl

/-- After an invalidation no TLB holds a translation that it drops, and the walk caches are empty (06 R180). -/
theorem execTlbinvDone_drops {r : Nat × Nat × Nat × Nat} (h : s.tlbRun = some r) :
    ∃ t, execTlbinvDone s = .next t ∧ t.tlbRun = none ∧ t.tlbinvc.getLsbD 63 = false ∧ t.walkCache = [] ∧
      (∀ x ∈ t.l2tlb, x.2.dropped r = false) ∧ (∀ x ∈ t.walkKept, x.2.dropped r = false) ∧
      ∀ c, (∀ e ∈ (t.core c).tlb, e.dropped r = false) ∧
        ∀ gid g, t.group? c gid = some g → ∀ e ∈ g.walkHits, e.dropped r = false := by
  have hcore := @core_invalidated s
  unfold execTlbinvDone
  rw [h]
  refine ⟨_, rfl, rfl, by simp, rfl, fun x => dropped_of_mem_filter (f := Prod.snd), fun x => dropped_of_mem_filter (f := Prod.snd),
    fun c => ⟨fun e he => ?_, fun gid g hg => ?_⟩⟩
  · rw [hcore (r := r) rfl] at he
    exact invalidated_tlb he
  · rw [State.group?, hcore (r := r) rfl] at hg
    exact invalidated_walkHits hg
end

/-- Settles O33: walks, responses and time-outs by their equations, an invalidation by what it filters out. -/
theorem translationsEnd : Obligations.TranslationsEnd := by
  unfold Obligations.TranslationsEnd
  refine ⟨fun s => ⟨fun die id w hf => ?_, fun v val => ?_, fun v id r => execPageRequestTimeout_of⟩,
    fun s => ⟨fun hb ctx npg val => ?_, fun r => execTlbinvDone_drops⟩⟩
  · intro r s1 hs
    obtain ⟨hleaf, hfault, hreq⟩ := execPageWalkComplete_of hf hs
    exact ⟨hleaf, hfault, fun h hn => (hreq h).trans (if_neg (by omega)), fun h hn => (hreq h).trans (if_pos hn)⟩
  · intro id s0
    refine ⟨execPageResponse_late, fun r hr hg hi => ?_⟩
    have hm := execPageResponse_meets hr hg hi
    exact ⟨fun h0 => hm.trans (if_pos h0), fun h0 => hm.trans (if_neg h0)⟩
  · intro run
    have hrun (mode ctx npg : Nat) (hm : mode ≠ 0) (hn : mode = 3 → npg ≠ 0) :
        Host.Outcome.next (s.tlbWrite mode ctx npg) = (.next (run mode ctx npg) : Out) :=
      congrArg _ (tlbWrite_starts hb hm hn)
    refine ⟨hrun _ _ _ (by decide) nofun, hrun _ _ _ (by decide) nofun, fun hn => hrun _ _ _ (by decide) fun _ h => hn ?_,
      fun hm hn => hrun _ _ _ hm hn⟩
    exact BitVec.eq_of_toNat_eq h

end Sys2Proof.Machine

namespace Sys2Proof.Machine

/-! # The region table, its flush and host writes (06 R188, R192 to R196) -/

/-! ## Writes of the region table -/

section
variable {s : State} {n : Nat}

/-- A valid entry takes no write but the one that clears it (06 R195). -/
theorem execRegionEntryWrite_valid (hn : n < 64) (hv : (s.region n).valid = true) (word : Nat) (val : DWord) :
    execRegionEntryWrite n word val s =
      if word = 0 && !val.getLsbD 0 then .next (s.clearRegion n (s.region n)) else .next s := by
  simp only [execRegionEntryWrite, hv, ge_iff_le, Nat.not_le.mpr hn, if_true, if_false]

@[simp] theorem region_setRegion (s : State) (n : Nat) (r : RegionE) : (s.setRegion n r).region n = r := by
  simp [State.setRegion, State.region]

theorem clearRegion_valid (s : State) (n : Nat) (r : RegionE) : ((s.clearRegion n r).region n).valid = false := by
  simp [State.clearRegion]

/-! ## The flush of a region -/

theorem lineMoved_l2lines (s : State) (ctx : Option Nat) (host wr : Bool) (d : Nat) : (s.lineMoved ctx host wr d).l2lines = s.l2lines := by
  unfold State.lineMoved State.countDie
  extract_lets t
  have ht : t.l2lines = s.l2lines := by
    show (if host then s else _ : State).l2lines = _
    split
    · rfl
    · split <;> rfl
  split
  · exact ht
  · exact ht

/-- Writing lines back takes none out of the L2. -/
theorem foldl_lineOut_l2lines (s : State) (ls : List L2Line) : (ls.foldl State.lineOut s).l2lines = s.l2lines :=
  foldl_keeps State.l2lines ls State.lineOut (fun t _ => lineMoved_l2lines t ..) s

/-- A state in which the L1s have surrendered the owned words of a region, its L2 lines are written back, and none
of them is left in the L2 (06 R196). -/
def State.regionFlushed (s : State) (r : RegionE) : State :=
  let t1 := (s.ownedIn r).foldl (fun s p => s.surrender p) s
  let t := (t1.l2lines.filter fun x => !x.host && x.dirty && r.covers (128 * x.line)).foldl State.lineOut t1
  { t with l2lines := t.l2lines.filter fun x => x.host || !r.covers (128 * x.line) }

/-- The end of the flush of a valid entry (06 R196). -/
theorem execRflushDone_of_valid (hb : s.rflushBusy = true) (hv : s.rflush.toNat / 256 % 256 ≠ 1)
    (hh : s.heldMore (s.regionFlushed (s.region (s.rflush.toNat % 64))) = false) :
    execRflushDone s = .next ({ s.regionFlushed (s.region (s.rflush.toNat % 64)) with
      rflush := BitVec.ofNat 64 (packBits [(0, s.rflush.toNat % 64), (8, if s.rflushLost then 2 else 0)])
      rflushLost := false } |>.pirq 3) := by
  simp only [State.regionFlushed, foldl_lineOut_l2lines] at hh ⊢
  simp only [execRflushDone, hb, hv, Bool.not_true, Bool.false_eq_true, if_false, hh]

end

/-- Settles O34: each write, flush and host write by its case of the model. -/
theorem regionsChange : Obligations.RegionsChange := by
  unfold Obligations.RegionsChange
  intro s
  refine ⟨fun n word val hn => ⟨fun hv => ?_, fun hv => ?_⟩, fun n hb => ?_, fun hb hv => ?_, fun dpa bs hl => ?_⟩
  · have hlt : ¬ n ≥ 64 := Nat.not_le.mpr hn
    refine ⟨?_, ?_, ?_, ?_, ?_, ?_⟩
    · rintro rfl h0
      simp only [exec, execRegionEntryWrite, hlt, hv, h0, if_false, if_true, Bool.false_eq_true, Bool.not_false]
    · rintro rfl h0 code hc
      simp only [exec, execRegionEntryWrite, hlt, hv, h0, hc, if_false, Bool.false_eq_true, Bool.not_true]
    · rintro rfl h0 hc
      simp only [exec, execRegionEntryWrite, hlt, hv, h0, hc, if_false, Bool.false_eq_true, Bool.not_true]
    all_goals
      rintro rfl
      simp only [exec, execRegionEntryWrite, hlt, hv, if_false, Bool.false_eq_true]
  · have hw := execRegionEntryWrite_valid hn hv word val
    constructor
    · rintro rfl h0
      rw [h0] at hw
      exact ⟨_, hw, clearRegion_valid ..⟩
    · intro h
      refine hw.trans (if_neg ?_)
      rcases h with h | h <;> simp [h]
  · exact if_neg (by rw [hb]; exact Bool.false_ne_true)
  · exact execRflushDone_of_valid hb hv
  · exact if_neg (by rw [hl]; exact Bool.false_ne_true)

end Sys2Proof.Machine

namespace Sys2Proof.Machine

/-! # A virtual device that a state lists twice

The attestation clause of `VirtualDeviceRegisters` speaks of every state, and the virtual devices are a list by number.
Whether a paused dirty log holds a write (`State.heldMore`) is asked of every entry of the list against the
first entry of its number. Where a second entry has more held pages than the first, every write counts as
held: the report is then never written, though no dirty log is enabled. -/

section
variable {s : State}

theorem HomeChange.vdevs {t : State} (h : HomeChange s t) : t.vdevs = s.vdevs :=
  (congrArg State.vdevs h.eq : t.vdevs = (s.withHome t).vdevs)

/-- No dirty log is enabled if none of the listed ones is. -/
theorem vd_dlring_off (h : (s.vdevs.all fun (_, d) => !ringEn d.dlring) = true) (v : Nat) : ringEn (s.vd v).dlring = false := by
  unfold State.vd
  cases hv : alGet v s.vdevs with
  | none => rfl
  | some d => simpa using List.all_eq_true.mp h _ (mem_of_alGet hv)

/-- While no dirty log is enabled nothing is logged (12 R328). -/
theorem logSpan_off (h : (s.vdevs.all fun (_, d) => !ringEn d.dlring) = true) (p : PA) (n : Nat) : s.logSpan p n = s := by
  refine foldl_eq_self fun i _ => ?_
  unfold State.logDirty
  split
  · rfl
  · split
    · rfl
    · exact if_pos (by simp [vd_dlring_off h])

/-- A write at a home leaves the virtual devices alone while no dirty log is enabled. -/
theorem homeWrite_vdevs (h : (s.vdevs.all fun (_, d) => !ringEn d.dlring) = true) (w : Work) (p : PA) (bs : List Byte) :
    (s.homeWrite w p bs).vdevs = s.vdevs := by
  have hput : HomeChange s ((((wordsTouched p.addr bs.length).foldl (fun s w => s.surrender ⟨p.host, 4 * w⟩)
      (s.noteOld p bs.length)).l2Dirty w p bs.length).rawSet p bs |>.clearUe p bs.length) :=
    (((HomeChange.noteOld.trans (HomeChange.foldl fun _ _ => HomeChange.giveUp)).trans HomeChange.l2Dirty).trans HomeChange.rawSet).trans
      HomeChange.clearUe
  exact (congrArg State.vdevs (logSpan_off (hput.vdevs ▸ h) p bs.length)).trans hput.vdevs

theorem heldMore_of_vdevs {t : State} (h : t.vdevs = s.vdevs) : s.heldMore t = s.heldMore s := by
  simp only [State.heldMore, h]

theorem report_ne_nil (v : Nat) {nonce : List Byte} (id : Nat) (sig : List Byte) (hn : nonce.length = 32) :
    s.attestBody v nonce id ++ sig ≠ [] := by
  intro h
  have hlen := congrArg List.length h
  simp [State.attestBody, hn] at hlen

/-- A report whose first page is held is not written. -/
theorem reportPut_held {a : Nat} {bs : List Byte} (hb : bs ≠ []) (h : ∀ xs, s.heldMore (s.homeWrite {} ⟨false, a⟩ xs) = true) :
    (s.reportPut a bs).1 = false := by
  have hspan : pageSpans (bs.length / 4096 + 2) a bs.length = (a, min bs.length (4096 - a % 4096))
      :: pageSpans (bs.length / 4096 + 1) (a + min bs.length (4096 - a % 4096)) (bs.length - min bs.length (4096 - a % 4096)) :=
    if_neg (by simpa using hb)
  simp only [State.reportPut, hspan, List.foldl_cons, h, Bool.not_true, Bool.false_eq_true, if_false, if_true]
  refine List.foldlRecOn (motive := fun x : Bool × State × List Byte => x.1 = false) _ _ rfl ?_
  rintro ⟨ok, t, rest⟩ hok ⟨a, k⟩ -
  cases hok
  rfl
end

/-- Device 1 listed twice, the second time with a held page, while device 0 has an attestation to answer. -/
def twiceListed : State :=
  { vdevs := [(0, { attest := some (0, List.replicate 32 0) }), (1, {}), (1, { heldPages := [0] })]
    regions := [(0, { valid := true, stkset := 1, size := 0x10000 })] }

/-- `twiceListed` at the end of the attestation. -/
def twiceListedAttests : State := ({ twiceListed with nextId := twiceListed.nextId + 1 } : State).modVd 0 fun d => { d with attest := none }

theorem twiceListed_dpaOk : twiceListed.dpaOk 64 18452 = true := by decide +kernel

/-- Every write of the report counts as held. -/
theorem twiceListed_holds (a : Nat) (xs : List Byte) :
    twiceListedAttests.heldMore (twiceListedAttests.homeWrite {} ⟨false, a⟩ xs) = true :=
  (heldMore_of_vdevs (homeWrite_vdevs (by decide) ..)).trans (by decide)

theorem twiceListed_report_held {bs : List Byte} (hb : bs ≠ []) : (twiceListedAttests.reportPut 64 bs).1 = false :=
  reportPut_held hb (twiceListed_holds 64)

/-- Refutes O44: the report of device 0 is not written, for device 1 is listed twice. -/
theorem not_virtualDeviceRegisters : ¬ Obligations.VirtualDeviceRegisters := by
  unfold Obligations.VirtualDeviceRegisters
  intro h
  obtain ⟨-, -, -, -, -, attests, -⟩ := h twiceListed 0 (by decide)
  obtain ⟨s3, hput, -⟩ := attests 0 (List.replicate 32 0) rfl rfl rfl twiceListed_dpaOk rfl
  refine Bool.false_ne_true ((twiceListed_report_held ?_).symm.trans (congrArg Prod.fst hput))
  exact report_ne_nil _ _ _ List.length_replicate

end Sys2Proof.Machine

namespace Sys2Proof.Machine

/-! # Where accesses go and how they fault (04 R117, R118, 06 R161 to R175) -/

theorem wrap_lt (k : Nat) (a : Int) : wrap k a < 2 ^ k := by
  have h1 : 0 ≤ a % (2 ^ k : Nat) := Int.emod_nonneg _ (by simp)
  have h2 : a % (2 ^ k : Nat) < (2 ^ k : Nat) := Int.emod_lt_of_pos _ (by simp)
  unfold wrap
  omega

/-- A swizzled window address stays in the window (06 R163). -/
theorem swizzle_lt {sw a : Nat} (h : a < 2 ^ 24) : swizzle sw a < 2 ^ 24 := by
  have hbits (x : Nat) (hx : x ≤ a / 2 ^ 10) : a ^^^ (x * 32) < 2 ^ 24 := Nat.xor_lt_two_pow h (by omega)
  unfold swizzle
  split
  · exact h
  · split
    · exact hbits _ (by omega)
    · exact hbits _ (Nat.mod_le ..)

section
variable {s : State} {p : Pass}

/-! ## Global addresses -/

theorem resGlobal_placed {k : AK} {n : Nat} {a ea : DWord} {pl : Place} (h : s.resGlobal p k n a = .at_ ea pl) :
    ea = a ∧ ea.toNat % n = 0 ∧ pl.n = n ∧ pl.space = .global := by
  unfold State.resGlobal at h
  split at h
  · cases h
  · rename_i hal
    split at h
    · cases h
      exact ⟨rfl, by simpa using hal, rfl, rfl⟩
    all_goals cases h

theorem resGlobal_misaligned (k : AK) {n : Nat} {a : DWord} (h : a.toNat % n ≠ 0) : s.resGlobal p k n a = .bad .align a := if_pos h

/-- An aligned access takes the fault of its translation. -/
theorem resGlobal_fault {k : AK} {n : Nat} {a : DWord} {f : FCode} (hal : a.toNat % n = 0)
    (h : s.xlatG p.core p.g k a.toNat = .fault f) : s.resGlobal p k n a = .bad f a := by
  simp only [State.resGlobal, hal, h, ne_eq, not_true_eq_false, if_false]

theorem xlatG_fault {c : Nat} {g : Group} {k : AK} {va : Nat} {f : FCode}
    (h : s.translate c g.ctx g.walkHits k va = .fault f) : s.xlatG c g k va = .fault f := by
  simp only [State.xlatG, h]

/-- A walk that ended in a fault answers the group's access to the page (06 R177). -/
theorem xlatG_walkFault {c : Nat} {g : Group} {k : AK} {va x : Nat} {f : FCode} (h : s.translate c g.ctx g.walkHits k va = .miss)
    (hf : g.walkFaults.find? (·.1 == va / 4096) = some (x, f)) : s.xlatG c g k va = .fault f := by
  simp only [State.xlatG, h, hf]

theorem translate_high (c ctx : Nat) (extra : List TlbE) (k : AK) {va : Nat} (h : 2 ^ 56 ≤ va) :
    s.translate c ctx extra k va = .fault .page := if_pos h

theorem translate_map (c : Nat) {ctx : Nat} (extra : List TlbE) {k : AK} {va : Nat} (h : va < 2 ^ 56)
    (hm : (s.ctx ctx).inMap va = true) (hk : k ≠ .rd) : s.translate c ctx extra k va = .fault .prot := by
  simp only [State.translate, ge_iff_le, Nat.not_le.mpr h, hm, beq_iff_eq, hk, if_true, if_false]

/-- A translation that the L1 TLB or the group has decides the access (06 R174, R176). -/
theorem translate_found {c ctx : Nat} {extra : List TlbE} (k : AK) {va : Nat} {e : TlbE} (h : va < 2 ^ 56)
    (hm : (s.ctx ctx).inMap va = false) (he : tlbFind ((s.core c).tlb ++ extra) ctx va = some e) :
    s.translate c ctx extra k va = s.grantXlat (s.ctx ctx).vd k e va := by
  simp only [State.translate, ge_iff_le, Nat.not_le.mpr h, hm, he, Bool.false_eq_true, if_false]

theorem grantXlat_denied {v : Nat} {k : AK} {e : TlbE} (va : Nat) (h : k.allowed e = false) : s.grantXlat v k e va = .fault .prot := by
  simp only [State.grantXlat, h, Bool.not_false, if_true]

theorem grantXlat_refused {v : Nat} {k : AK} {e : TlbE} {va : Nat} {f : FCode} (h : k.allowed e = true)
    (hf : s.checkPa v (e.pa va) = some f) : s.grantXlat v k e va = .fault f := by
  simp only [State.grantXlat, h, hf, Bool.not_true, Bool.false_eq_true, if_false]

/-! ## The home of an address -/

theorem checkPa_unmapped (v : Nat) {a : Nat} (h : s.regionAt a = none) : s.checkPa v ⟨false, a⟩ = some .prot := by
  simp only [State.checkPa, h, Bool.false_eq_true, if_false]

/-- The checks of an address in a valid region, in their order: its owner, its die, its stack (06 R175, 01 R35, R38). -/
theorem checkPa_mapped (v : Nat) {a : Nat} {r : RegionE} (h : s.regionAt a = some r) : s.checkPa v ⟨false, a⟩ =
    if r.owner.toNat != v then some .prot else if s.dieLost ((r.locate a).1 / 8) then some .dieLost
    else if s.stackLost (r.locate a).1 then some .memLost else none := by
  simp only [State.checkPa, h, Bool.false_eq_true, if_false]

/-! ## Scratchpad and accumulator addresses -/

theorem resScratch_placed {sw n a : Nat} {ea : DWord} {pl : Place} (h : s.resScratch p sw n a = .at_ ea pl) :
    ea.toNat = swizzle sw (a % 2 ^ 24) ∧ ea.toNat % n = 0 ∧ pl.space = .scratch ∧
      s.scratchAt p.core (s.blockOf p.core p.g) ea.toNat n = some (pl.core, pl.pa.addr) := by
  have hlt : swizzle sw (a % 2 ^ 24) < 2 ^ 64 := (swizzle_lt (Nat.mod_lt _ (by decide))).trans (by decide)
  have hea : (BitVec.ofNat 64 (swizzle sw (a % 2 ^ 24))).toNat = swizzle sw (a % 2 ^ 24) := by
    rw [BitVec.toNat_ofNat, Nat.mod_eq_of_lt hlt]
  unfold State.resScratch at h
  extract_lets e at h
  split at h
  · cases h
  · rename_i hal
    split at h
    · rename_i c x hc
      cases h
      rw [hea]
      exact ⟨rfl, not_not.mp hal, rfl, hc⟩
    · cases h

theorem resScratch_misaligned {sw n a : Nat} (h : swizzle sw (a % 2 ^ 24) % n ≠ 0) :
    s.resScratch p sw n a = .bad .align (BitVec.ofNat 64 (swizzle sw (a % 2 ^ 24))) := if_pos h

theorem resScratch_outside {sw n a : Nat} (hal : swizzle sw (a % 2 ^ 24) % n = 0)
    (h : s.scratchAt p.core (s.blockOf p.core p.g) (swizzle sw (a % 2 ^ 24)) n = none) :
    s.resScratch p sw n a = .bad .scratchRange (BitVec.ofNat 64 (swizzle sw (a % 2 ^ 24))) := by
  simp only [State.resScratch, hal, h, ne_eq, not_true_eq_false, if_false]

theorem resAcc_placed {w : Nat} {ea : DWord} {pl : Place} (h : s.resAcc p w = .at_ ea pl) :
    ea.toNat = w % 2 ^ 24 ∧ s.accOk p.g.ctx ea.toNat = true ∧ pl.pa.addr = 4 * ea.toNat := by
  have hea : (BitVec.ofNat 64 (w % 2 ^ 24)).toNat = w % 2 ^ 24 := by
    rw [BitVec.toNat_ofNat, Nat.mod_eq_of_lt ((Nat.mod_lt _ (by decide)).trans (by decide : 2 ^ 24 < 2 ^ 64))]
  unfold State.resAcc at h
  split at h
  · rename_i hok
    cases h
    rw [hea]
    exact ⟨rfl, hok, rfl⟩
  · cases h

theorem resAcc_outside {w : Nat} (h : s.accOk p.g.ctx (w % 2 ^ 24) = false) :
    s.resAcc p w = .bad .accRange (BitVec.ofNat 64 (w % 2 ^ 24)) := if_neg (by rw [h]; exact Bool.false_ne_true)

end

end Sys2Proof.Machine
namespace Sys2Proof.Machine

/-! # A load, store or atomic whose threads all fault (11 R293 to R295) -/

/-! ## The units of its pass -/

section
variable {rs : List (Nat × Mask × ARes)}

theorem goodOf_bad (h : ∀ u ∈ rs, ∃ f ea, u.2.2 = .bad f ea) : goodOf rs = [] := by
  refine List.filter_eq_nil_iff.mpr ?_
  rintro ⟨t, m, r⟩ hu
  obtain ⟨f, ea, rfl⟩ := h _ hu
  exact Bool.false_ne_true

theorem missesOf_bad (h : ∀ u ∈ rs, ∃ f ea, u.2.2 = .bad f ea) : missesOf rs = [] :=
  missesOf_nil fun u hu v hv => by
    obtain ⟨f, ea, hf⟩ := h u hu
    cases hf.symm.trans hv

theorem badOf_codes {f : FCode} (h : ∀ u ∈ rs, ∃ ea, u.2.2 = .bad f ea) : ∀ x ∈ badOf rs, x.code = f := by
  intro x hx
  obtain ⟨t, m, code, ea, hu, hf⟩ := mem_badOf.mp hx
  obtain ⟨ea', he⟩ := h _ hu
  cases he
  obtain ⟨j, -, rfl⟩ := List.mem_map.mp hf
  rfl
end

/-- A unit of a pass has a thread. -/
theorem unitsOf_mask_ne {u : Bool} {m x : Mask} {j : Nat} (h : (j, x) ∈ unitsOf u m) : x ≠ 0#32 := by
  unfold unitsOf at h
  split at h
  · split at h
    · cases h
    · rename_i hz
      cases List.mem_singleton.mp h
      simpa using hz
  · obtain ⟨i, hi, he⟩ := List.mem_map.mp h
    cases he
    intro h0
    have hbit := oneBit_getLsbD (t := j) (i := j) (mem_slotsOf.mp hi).1
    simp [h0] at hbit

section
variable {s : State} {p : Pass} {i : Instr} {us : List (Nat × Mask × ARes)}

/-- The units of an access are those of its pass, each with what its address comes to. -/
theorem accessUnits_form {b : Bool} (h : s.accessUnits p i = some (b, us)) :
    ∃ (u : Bool) (r : Nat → ARes), us = (unitsOf u p.ex).map fun (j, x) => (j, x, r j) := by
  unfold State.accessUnits at h
  split at h <;> cases h <;> exact ⟨_, _, rfl⟩

/-- The faults of an access whose units all fault are some. -/
theorem accessUnits_bad_ne_nil {b : Bool} (h : s.accessUnits p i = some (b, us)) (hex : p.ex ≠ 0#32)
    (hb : ∀ u ∈ us, ∃ f ea, u.2.2 = .bad f ea) : badOf us ≠ [] := by
  obtain ⟨u, r, rfl⟩ := accessUnits_form h
  obtain ⟨⟨j, x⟩, l, hl⟩ := List.exists_cons_of_ne_nil (unitsOf_ne (u := u) hex)
  have hj : (j, x) ∈ unitsOf u p.ex := hl ▸ List.mem_cons_self
  have hu : (j, x, r j) ∈ (unitsOf u p.ex).map fun (j, x) => (j, x, r j) := List.mem_map_of_mem hj
  obtain ⟨f, ea, hf⟩ := hb _ hu
  dsimp only at hf
  rw [hf] at hu
  obtain ⟨y, hy⟩ := List.exists_mem_of_ne_nil _ (faultsOf_ne_nil (unitsOf_mask_ne hj) f ea)
  exact List.ne_nil_of_mem (mem_badOf.mpr ⟨j, x, f, ea, hu, hy⟩)
end

/-! ## What such a pass changes before it ends -/

/-- The groups stand as they were, and so does what the contexts have of stops. -/
structure Unissued (s t : State) : Prop where
  groups : SameGroups s t
  st : ∀ x, (t.ctx x).st = (s.ctx x).st
  code : ∀ x, (t.ctx x).code = (s.ctx x).code

section
variable {s : State} {p : Pass}

theorem Unissued.refl (s : State) : Unissued s s := ⟨.refl s, fun _ => rfl, fun _ => rfl⟩

theorem Unissued.draws {t : State} (h : Unissued s t) (n : Nat) : Unissued s { t with free := t.free + n } :=
  ⟨h.groups.trans (.cores rfl), h.st, h.code⟩

/-- No event is recorded of units that all fault. -/
theorem looks_bad (e : Option (EvKind × Option Nat)) {rs : List (Nat × Mask × ARes)} (h : goodOf rs = []) :
    s.looks p e rs = s.looks p none rs := by
  cases e with
  | none => rfl
  | some k => simp only [State.looks, h, State.noteUnits, List.zipIdx_nil, List.foldl_nil]

theorem unissued_looks (e : Option (EvKind × Option Nat)) {rs : List (Nat × Mask × ARes)} (h : goodOf rs = []) :
    Unissued s (s.looks p e rs) := by
  rw [looks_bad e h]
  exact ⟨sameGroups_looks .., looks_ctx Context.st (fun _ _ => rfl) rs, looks_ctx Context.code (fun _ _ => rfl) rs⟩

theorem maskOf_nil : maskOf [] = 0#32 := rfl

theorem placedParts_nil (n : Nat) (lo hi : SVal) : placedParts n lo hi [] = [] := rfl

theorem issueStores_nil (s : State) (c ctx launch gid : Nat) (pc : DWord) (rel strm : Bool) :
    s.issueStores c ctx launch gid pc rel strm [] = s := rfl

/-- The pass ends with the faults of its units and none of its threads goes on. -/
def Faults (s : State) (p : Pass) (i : Instr) (us : List (Nat × Mask × ARes)) (o : State) : Prop :=
  ∃ t latch, Unissued s t ∧ o = t.fin p i 0 (badOf us) latch

theorem load_faults (i : Instr) {m : Ld} {k : LdKind} (hp : s.pass? = some p) (hex : p.ex ≠ 0#32)
    (ho : operandsOk m.u [(p.loadAddr m k, k.space == .global)] = true)
    (ht : (decide (6 ≤ m.t.toNat) || decide (p.g.tokens.getD m.t.toNat 0 + chanWords m.u p.ex ≤ 255)) = true)
    (hb : ∀ u ∈ s.loadUnits p m k, ∃ f ea, u.2.2 = .bad f ea) : Faults s p i (s.loadUnits p m k) (s.load i m k) := by
  have hgood := goodOf_bad hb
  have hmiss := missesOf_bad hb
  have hroom : (decide (m.t.toNat < 6) && decide (255 < p.g.tokens.getD m.t.toNat 0 + chanWords m.u p.ex)) = false := by
    simp only [Bool.or_eq_true, decide_eq_true_eq] at ht
    simp only [Bool.and_eq_false_iff, decide_eq_false_iff_not]
    omega
  have hlook := unissued_looks (s := s) (p := p) (some (.read, if k.acq then some 4 else none)) hgood
  rw [State.load, prePass_ready (check := m.u) (noRegion := false) i _ hp hex ho (fun _ => rfl) nofun]
  unfold State.doLoad
  extract_lets units t rs good ok faults tok s1 s2
  have hrs : rs = s.loadUnits p m k := by
    simp only [rs, units, ex_and_not_zero]
    rfl
  have hg : good = [] := (congrArg goodOf hrs).trans hgood
  clear_value rs good
  subst hrs hg
  simp only [s2, s1, faults, ok, hmiss, t, maskOf_nil, hroom, faultsOf_zero, List.nil_append, List.foldl_nil, List.isEmpty_nil,
    Bool.false_eq_true, if_false, if_true]
  split
  · exact ⟨_, _, hlook.draws 32, rfl⟩
  · exact ⟨_, _, hlook, rfl⟩

theorem store_faults (i : Instr) {m : St} {sp : Space} {n : Nat} (hp : s.pass? = some p) (hex : p.ex ≠ 0#32)
    (ho : operandsOk m.u (storeSrcs m sp n p) = true)
    (hr : (sp == .global && match p.g.region with | some r => decide (256 ≤ r.storeCount) | none => false) = false)
    (hb : ∀ u ∈ s.storeUnits p m sp n, ∃ f ea, u.2.2 = .bad f ea) : Faults s p i (s.storeUnits p m sp n) (s.store i m sp n) := by
  have hgood := goodOf_bad hb
  have hmiss := missesOf_bad hb
  have hlook := unissued_looks (s := s) (p := p) none hgood
  rw [State.store, prePass_ready (check := m.u) (noRegion := false) i _ hp hex ho (fun _ => rfl) nofun]
  unfold State.doStore
  extract_lets sv glob past sw rs good parts faults rel strm s0 s1
  have hrs : rs = s.storeUnits p m sp n := by
    simp only [rs, ex_and_not_zero]
    rfl
  have hpast : past = false := hr
  have hg : good = [] := (congrArg goodOf hrs).trans hgood
  clear_value rs good
  subst hrs hg
  simp only [s1, s0, parts, faults, hmiss, hpast, maskOf_nil, placedParts_nil, issueStores_nil, faultsOf_zero,
    List.nil_append, List.foldl_nil, List.isEmpty_nil, Bool.false_eq_true, if_false, if_true, ite_self]
  exact ⟨_, _, hlook, rfl⟩

theorem atom_faults (i : Instr) {m : Atm} {glob : Bool} (red : Bool) (hp : s.pass? = some p) (hex : p.ex ≠ 0#32)
    (ho : operandsOk m.u (atomSrcs m glob p) = true)
    (hb : ∀ u ∈ s.atomUnits p m glob, ∃ f ea, u.2.2 = .bad f ea) : Faults s p i (s.atomUnits p m glob) (s.atom i m glob red) := by
  have hgood := goodOf_bad hb
  have hmiss := missesOf_bad hb
  have hlook := unissued_looks (s := s) (p := p) (some (.rmw, none)) hgood
  rw [State.atom, prePass_ready (check := m.u) (noRegion := false) i _ hp hex ho (fun _ => rfl) nofun]
  unfold State.doAtom
  extract_lets sv rs good ok faults s1
  have hrs : rs = s.atomUnits p m glob := by
    simp only [rs, ex_and_not_zero]
    rfl
  have hg : good = [] := (congrArg goodOf hrs).trans hgood
  clear_value rs good
  subst hrs hg
  simp only [s1, faults, hmiss, faultsOf_zero, State.regionAtom, List.flatMap_nil, List.append_nil,
    List.nil_append, List.foldl_nil]
  split
  · exact ⟨_, _, .refl s, rfl⟩
  · exact ⟨_, _, hlook, if_pos (Bool.or_true _)⟩

/-! ## Which instructions load, store and act atomically -/

theorem exec_of_loadOf {i : Instr} {m : Ld} {k : LdKind} (h : loadOf i = some (m, k)) : exec i s = .next (s.load i m k) := by
  unfold loadOf at h
  split at h <;> cases h <;> rfl

theorem exec_of_storeOf {i : Instr} {m : St} {sp : Space} {n : Nat} (h : storeOf i = some (m, sp, n)) :
    exec i s = .next (s.store i m sp n) := by
  unfold storeOf at h
  split at h <;> cases h <;> rfl

theorem exec_of_atomOf {i : Instr} {m : Atm} {glob red : Bool} (h : atomOf i = some (m, glob, red)) :
    exec i s = .next (s.atom i m glob red) := by
  unfold atomOf at h
  split at h <;> cases h <;> rfl

/-- An access that gets as far as its addresses and whose units all fault ends with these faults. -/
theorem exec_access_faults {i : Instr} {us : List (Nat × Mask × ARes)} (hp : s.pass? = some p) (hex : p.ex ≠ 0#32)
    (h : s.accessUnits p i = some (true, us)) (hb : ∀ u ∈ us, ∃ f ea, u.2.2 = .bad f ea) :
    ∃ o, exec i s = .next o ∧ Faults s p i us o := by
  unfold State.accessUnits at h
  split at h
  · rename_i m k hl
    simp only [Option.some.injEq, Prod.mk.injEq, Bool.and_eq_true] at h
    obtain ⟨⟨ho, ht⟩, rfl⟩ := h
    exact ⟨_, exec_of_loadOf hl, load_faults i hp hex ho ht hb⟩
  · rename_i m sp n hs _
    simp only [Option.some.injEq, Prod.mk.injEq, Bool.and_eq_true, Bool.not_eq_true'] at h
    obtain ⟨⟨ho, hr⟩, rfl⟩ := h
    exact ⟨_, exec_of_storeOf hs, store_faults i hp hex ho hr hb⟩
  · rename_i m glob red ha _ _
    simp only [Option.some.injEq, Prod.mk.injEq] at h
    obtain ⟨ho, rfl⟩ := h
    exact ⟨_, exec_of_atomOf ha, atom_faults i red hp hex ho hb⟩
  · cases h
end

end Sys2Proof.Machine
namespace Sys2Proof.Machine

/-! ## A fault that stops a context whose groups may have debugger edits waiting (11 R295, R307) -/

theorem Group.edit_clause (g : Group) (e : Nat × Nat × DWord) : (g.edit e).clause = g.clause := by
  unfold Group.edit
  dsimp only
  split
  · rfl
  · split
    · rfl
    · repeat' split
      all_goals rfl

theorem Group.applyEdits_clause (g : Group) : g.applyEdits.clause = g.clause := by
  unfold Group.applyEdits
  split
  · rfl
  · exact List.foldlRecOn (motive := fun h : Group => h.clause = g.clause) _ _ rfl fun h hh e _ => (h.edit_clause e).trans hh

/-- A group slot that runs no clause. -/
def State.clauseless (s : State) (c gid : Nat) : Prop := (s.group? c gid).bind (·.clause) = none

section
variable {s : State} {c gid : Nat}

theorem clauseless_over (h : s.clauseless c gid) : s.clauseOver c gid = false := by
  rw [State.clauseless] at h
  simp only [State.clauseOver, h]

theorem dropClause_clauseless (s : State) (c gid : Nat) : (s.dropClause c gid).clauseless c gid := by
  unfold State.dropClause State.clauseless
  split
  · split
    · simp [Group.applyEdits_clause]
    · simp [*]
  · simp [*]

theorem clauseless_dropClause (h : s.clauseless c gid) (d j : Nat) : (s.dropClause d j).clauseless c gid := by
  by_cases hm : d = c ∧ j = gid
  · obtain ⟨rfl, rfl⟩ := hm
    exact dropClause_clauseless s d j
  · rw [State.clauseless, dropClause_ne hm]
    exact h

theorem haltStep_clauseless {x : Nat} (h : s.clauseless c gid) (l : List (Nat × Nat × Group)) :
    (l.foldl (fun s (d, j, y) => if y.ctx = x then s.dropClause d j else s) s).clauseless c gid := by
  refine List.foldlRecOn (motive := fun t : State => t.clauseless c gid) l _ h ?_
  rintro t ht ⟨d, j, y⟩ -
  dsimp only
  split
  · exact clauseless_dropClause ht d j
  · exact ht

/-- The groups of a context that halts run no clause. -/
theorem haltGroups_clauseless {g : Group} (hg : s.group? c gid = some g) : (s.haltGroups g.ctx).clauseless c gid := by
  obtain ⟨l, r, hl⟩ := List.append_of_mem (mem_allGroups hg)
  rw [State.haltGroups, hl, List.foldl_append, List.foldl_cons]
  exact haltStep_clauseless (by dsimp only; rw [if_pos rfl]; exact dropClause_clauseless ..) r

/-- A context that a first stop of a code struck at an address. -/
structure Context.stoppedBy (x : Context) (code : FCode) (pc : DWord) : Prop where
  st : x.st = .saving
  code : x.code = some code
  stoppc : x.stoppc = pc

theorem stopCtx_stoppedBy {x : Nat} (code : FCode) (sub : BitVec 8) (pc : DWord) (loc : Word) (hst : (s.ctx x).st = .active)
    (hco : (s.ctx x).code = none) : ((s.stopCtx x code sub pc loc).ctx x).stoppedBy code pc := by
  have hset (y : Context) : (s.setCtx x y).ctx x = y := by simp [State.setCtx, State.ctx]
  rw [stopCtx_active _ _ _ _ _ hst,
    haltGroups_keeps (fun t => t.ctx x) (fun t d j => by simp only [State.ctx, dropClause_ctxs]), hset]
  constructor <;> simp [Context.record, hst, hco]

theorem stopCtx_clauseless {g : Group} (code : FCode) (sub : BitVec 8) (pc : DWord) (loc : Word) (hg : s.group? c gid = some g)
    (hst : (s.ctx g.ctx).st = .active) : (s.stopCtx g.ctx code sub pc loc).clauseless c gid := by
  rw [stopCtx_active _ _ _ _ _ hst]
  exact haltGroups_clauseless (s := s.setCtx _ _) hg

/-- Faults of one Stop code strike a group outside a handler: its context stops at their address. -/
theorem raise_stoppedBy {g : Group} {code : FCode} {pf : PassFault} (hg : s.group? c gid = some g) (hh : g.handler = false)
    (hst : (s.ctx g.ctx).st = .active) (hco : (s.ctx g.ctx).code = none) (hne : pf.faults ≠ [])
    (hfs : ∀ f ∈ pf.faults, f.code = code) (hu : code.isUser = false) (hd : code ≠ .dieLost) :
    ((s.raise c gid pf).ctx g.ctx).stoppedBy code pf.pc ∧ (s.raise c gid pf).clauseless c gid := by
  obtain ⟨f, hff, rfl⟩ := firstStop_of hne hfs hu
  have hnd : pf.faults.any (fun f => f.code == .dieLost) = false := by
    rw [List.any_eq_false]
    intro f' hf
    simp [hfs f' hf, hd]
  obtain ⟨x, r, hx⟩ := List.exists_cons_of_ne_nil hne
  unfold State.raise
  rw [hg, hx]
  dsimp only
  rw [← hx, hnd, hh, hff]
  exact ⟨stopCtx_stoppedBy _ _ _ _ hst hco, stopCtx_clauseless (g := g.recordFault _) _ _ _ _ (group?_setGroup ..) hst⟩
end

/-- A pass that ends with faults of one Stop code outside a handler stops its context at its address. -/
theorem passEnd_stoppedBy {s : State} {p : Pass} {g : Group} {fs : List ThFault} {code : FCode} (len : Nat) (fi : Word) (ok : Mask)
    (b : BRes) (dest : Nat → DWord) (hg : s.group? p.core p.gid = some g) (hr : g.ready p) (hh : g.handler = false)
    (hst : (s.ctx p.g.ctx).st = .active) (hco : (s.ctx p.g.ctx).code = none) (hne : fs ≠ [])
    (hfs : ∀ f ∈ fs, f.code = code) (hu : code.isUser = false) (hd : code ≠ .dieLost) :
    ((s.passEnd p.core p.gid len fi ok fs b dest).ctx p.g.ctx).stoppedBy code p.cl.pc := by
  have hstep : s.passStep p.core p.gid len fi ok fs b dest
      = (s.setGroup p.core p.gid (g.passed p.cl len ok (faultMask fs) b dest)).raise p.core p.gid ⟨p.cl.pos, p.cl.pc, fi, fs⟩ := by
    simp only [State.passStep, hg, hr.clause, unstepped_mask hr.unstepped, traceAll_zero]
  have hctx : (g.passed p.cl len ok (faultMask fs) b dest).ctx = p.g.ctx := hr.ctx
  obtain ⟨hstop, hcl⟩ := raise_stoppedBy (pf := ⟨p.cl.pos, p.cl.pc, fi, fs⟩)
    (group?_setGroup s p.core p.gid (g.passed p.cl len ok (faultMask fs) b dest)) hh
    (by rw [hctx]; exact hst) (by rw [hctx]; exact hco) hne hfs hu hd
  rw [hctx] at hstop
  simp only [State.passEnd, hstep, clauseless_over hcl, Bool.false_eq_true, if_false]
  exact hstop

end Sys2Proof.Machine

namespace Sys2Proof.Machine

section
variable {s : State} {p : Pass} {i : Instr} {us : List (Nat × Mask × ARes)}

/-- The group of a pass without committed threads keeps the addresses of its executing ones. -/
theorem passed_none_pc (hp : s.pass? = some p) (cl : Clause) (len : Nat) (fm : Mask) (b : BRes) (dest : Nat → DWord) {j : Nat}
    (hj : p.ex.getLsbD j = true) : ((p.g.passed cl len 0 fm b dest).th j).pc = (p.g.th j).pc :=
  (passed_th p.g cl len 0 fm b dest (ex_lt hp hj).2).1.trans (if_neg (by simp))

/-- Where a pass that ends with User faults alone leaves its group: on its instruction, the faults pending. -/
theorem faults_pend {t : State} {fs : List ThFault} (latch : BRes) (hp : s.pass? = some p) (hu : Unissued s t)
    (ht : p.trappable = true) (hne : fs ≠ []) (huser : ∀ f ∈ fs, f.code.isUser = true) :
    ∃ g, (t.fin p i 0 fs latch).group? p.core p.gid = some g ∧
      g.pend = p.g.pend ++ [⟨p.cl.pos, p.cl.pc, finfoWord (headOf i), fs⟩] ∧
      ∀ j, p.ex.getLsbD j = true → (g.th j).pc = (p.g.th j).pc := by
  have hg : t.group? p.core p.gid = some p.g := (hu.groups.same ..).trans (pass_facts hp).1
  rw [State.fin, passEnd_userFaults _ _ _ _ _ ht hg (ready_trappable hp ht) rfl rfl hne huser]
  have hpc (j) := passed_none_pc hp p.cl (lenOf i) (faultMask fs) latch (fun _ => p.cl.after (lenOf i)) (j := j)
  split
  · exact ⟨_, group?_setGroup .., rfl, hpc⟩
  · exact ⟨_, (group?_freeLane ..).trans (group?_setGroup ..), rfl, hpc⟩

/-- An access whose threads all fault ALIGN stays on its instruction with the faults pending (04 R117, 11 R294). -/
theorem access_misaligned_pends (hp : s.pass? = some p) (ha : s.accessUnits p i = some (true, us)) (ht : p.trappable = true)
    (hb : ∀ u ∈ us, ∃ ea, u.2.2 = .bad .align ea) :
    ∃ t g, exec i s = .next t ∧ t.group? p.core p.gid = some g ∧
      g.pend = p.g.pend ++ [⟨p.cl.pos, p.cl.pc, finfoWord (headOf i), badOf us⟩] ∧
      ∀ j, p.ex.getLsbD j = true → (g.th j).pc = (p.g.th j).pc := by
  have hex := (trappable_iff ht).1
  have hbad : ∀ u ∈ us, ∃ f ea, u.2.2 = .bad f ea := fun u hu => ⟨.align, hb u hu⟩
  obtain ⟨o, ho, t, latch, hun, rfl⟩ := exec_access_faults hp hex ha hbad
  obtain ⟨g, hg⟩ := faults_pend (i := i) latch hp hun ht (accessUnits_bad_ne_nil ha hex hbad)
    fun f hf => by rw [badOf_codes hb f hf]; rfl
  exact ⟨_, g, ho, hg⟩

/-- An access whose threads all fault with one Stop code stops its context on its instruction (11 R295). -/
theorem access_fault_stops {f : FCode} (hp : s.pass? = some p) (ha : s.accessUnits p i = some (true, us)) (hu : f.isUser = false)
    (hd : f ≠ .dieLost) (hex : p.ex ≠ 0) (hstep : p.g.unstepped = true) (hh : p.g.handler = false)
    (hst : (s.ctx p.g.ctx).st = .active) (hco : (s.ctx p.g.ctx).code = none) (hb : ∀ u ∈ us, ∃ ea, u.2.2 = .bad f ea) :
    ∃ t, exec i s = .next t ∧ (t.ctx p.g.ctx).stoppedBy f p.cl.pc := by
  have hbad : ∀ u ∈ us, ∃ f ea, u.2.2 = .bad f ea := fun u hu => ⟨f, hb u hu⟩
  obtain ⟨hg, hcl, hx⟩ := pass_facts hp
  obtain ⟨o, ho, t, latch, hun, rfl⟩ := exec_access_faults hp hex ha hbad
  exact ⟨_, ho, passEnd_stoppedBy _ _ _ _ _ ((hun.groups.same ..).trans hg) ⟨hcl, hstep, active_ne (hx ▸ hex), rfl, rfl, rfl⟩ hh
    ((hun.st _).trans hst) ((hun.code _).trans hco) (accessUnits_bad_ne_nil ha hex hbad) (badOf_codes hb) hu hd⟩

end

theorem addressStop_codes : ∀ f ∈ [FCode.scratchRange, .accRange, .page, .prot, .memLost], f.isUser = false ∧ f ≠ .dieLost := by
  decide

/-- Settles O9: what each address comes to is read off `resolve`, space by space; an access whose units all fault
issues nothing, so its pass ends with these faults alone, which pend (ALIGN) or stop the context. -/
theorem addressesFormed : Obligations.AddressesFormed := by
  have wrap24 (a : Int) : wrap 24 a % 2 ^ 24 = wrap 24 a := Nat.mod_eq_of_lt (wrap_lt 24 a)
  refine ⟨fun s p k sw n off v i ea pl h => resGlobal_placed h, fun s p k sw n off v i ea pl h => ?_,
    fun s p k sw n off v i ea pl h => ?_, fun s p k sw n off v i => ⟨?_, ?_, ?_, ?_⟩, ?_, fun s p k sw n off v i => ⟨?_, ?_⟩,
    fun s p k sw n off v i h => ?_, fun i s p us hp ha => ⟨access_misaligned_pends hp ha, ?_⟩⟩
  · have := resScratch_placed h
    rwa [wrap24] at this
  · have := resAcc_placed h
    rwa [wrap24] at this
  · exact resGlobal_misaligned k
  · exact fun hal hhi => resGlobal_fault hal (xlatG_fault (translate_high _ _ _ k hhi))
  · exact fun hal hlt hm hk => resGlobal_fault hal (xlatG_fault (translate_map _ _ hlt hm hk))
  · refine fun hal hlt hm => ⟨fun e he => ⟨fun ha => ?_, fun f ha hf => ?_⟩, fun f hmiss hf => ?_⟩
    · exact resGlobal_fault hal (xlatG_fault ((translate_found k hlt hm he).trans (grantXlat_denied _ ha)))
    · exact resGlobal_fault hal (xlatG_fault ((translate_found k hlt hm he).trans (grantXlat_refused ha hf)))
    · exact resGlobal_fault hal (xlatG_walkFault hmiss hf)
  · refine fun s v a => ⟨checkPa_unmapped v, fun r hr => ?_⟩
    rw [checkPa_mapped v hr]
    exact ⟨fun ho => by simp [ho], fun ho hd => by simp [ho, hd], fun ho hd hs => by simp [ho, hd, hs]⟩
  · have := resScratch_misaligned (s := s) (p := p) (sw := sw) (n := n) (a := wrap 24 ((v.w i).toNat + offNear off n))
    rwa [wrap24] at this
  · have := resScratch_outside (s := s) (p := p) (sw := sw) (n := n) (a := wrap 24 ((v.w i).toNat + offNear off n))
    rwa [wrap24] at this
  · have := resAcc_outside (s := s) (p := p) (w := wrap 24 ((v.w i).toNat + offNear off 1))
    rw [wrap24] at this
    exact this h
  · intro f hf hex hstep hh hst hco hb
    obtain ⟨hu, hd⟩ := addressStop_codes f hf
    obtain ⟨t, ht, hstop⟩ := access_fault_stops hp ha hu hd hex hstep hh hst hco hb
    exact ⟨t, ht, hstop.st, hstop.code, hstop.stoppc⟩

end Sys2Proof.Machine

namespace Sys2Proof.Machine

/-! # Engine operations are accepted (08 R226 to R231, R239, R246) -/

theorem alGet_mapKey {α β : Type} (f : Nat → α → β) (k : Nat) (l : List (Nat × α)) :
    alGet k (l.map fun x => (x.1, f x.1 x.2)) = (alGet k l).map (f k) := by
  induction l with
  | nil => rfl
  | cons x r ih =>
    simp only [List.map_cons, alGet]
    split
    · next hk => exact congrArg (fun n => some (f n x.2)) hk
    · exact ih

section
variable {s : State} {p : Pass} {a : Src} {op : EOp} {ps : List Byte} {i : Instr} {g : Group}

/-! ## The front and the end of an engine instruction -/

/-- The form of an engine instruction: its row's, for the instruction. -/
def engineForm (i : Instr) (a : Src) : LOp := { i, u := true, srcs := [(a, false)] }

theorem engineForm_agrees (i : Instr) (a : Src) : (engineForm i a).agrees (asyncRow a) := ⟨rfl, rfl, rfl, rfl, rfl, rfl⟩

/-- A ready engine instruction reads its operand and goes on to its own effect. -/
theorem asyncWith_ready (k : Pass → LOp → Nat → State) (hp : s.pass? = some p) (h : laneReady s p (asyncRow a) = true) :
    s.asyncWith i a k = k p (engineForm i a) (p.word a).toNat :=
  laneFront_ready hp (engineForm_agrees i a) (LOp.free_plain s p rfl rfl) h fun p vs ue =>
    if ue != 0 then s.fin p i 0 (faultsOf ue .memUe 0) else k p (engineForm i a) ((sv vs 0).w (lowSlot p.ex)).toNat

/-- An engine instruction that was ready in `t` has nothing to pop, so its threads go on from whatever its effect left. -/
theorem engine_passes {t : State} (hg : s.group? p.core p.gid = some g) (hr : g.ready p) (h : laneReady t p (asyncRow a) = true) :
    (s.popAll p (engineForm i a)).fin p i p.ex [] = s.passes p i g := by
  obtain ⟨ho, hchan, _⟩ := laneReady_iff h
  have hpop : s.popAll p (engineForm i a) = s := by
    simp [State.popAll, LOp.pops, ((engineForm_agrees i a).chans hchan).1]
  rw [hpop]
  exact pass_of i hg hr ho

/-! ## Acceptance (08 R227, R228) -/

theorem group?_withOp (s : State) (p : Pass) (o : EngOp) (gid : Nat) : (s.withOp p o).group? p.core gid = s.group? p.core gid := by
  unfold State.withOp
  refine (group?_addCore _ _ _ _ ?_).trans ?_
  · exact fun _ => rfl
  · exact (SameGroups.cores (noteThs_cores { s with nextId := s.nextId + 1 } ..)).same ..

theorem ready_counts (h : g.ready p) (op : EOp) (draws : Bool) : (g.counts op draws).ready p := by
  cases op <;> exact h.same rfl rfl rfl rfl rfl

/-- An operation behind no fault of its class joins the core's operations, and its group counts it. -/
theorem acceptOp_of (hg : s.group? p.core p.gid = some p.g) (hf : s.classFaulted p.core p.gid p.g op.cls = false) (mask : Word) :
    s.acceptOp p op ps mask = (s.withOp p (s.accepted p op ps mask)).setGroup p.core p.gid (p.g.counts op (asyncDraws op ps)) := by
  have hgw := (group?_withOp s p (s.accepted p op ps mask) p.gid).trans hg
  rw [← modGroup_of _ (fun g => g.counts op (asyncDraws op ps)) hgw]
  simp only [State.acceptOp, hf, Bool.false_and, Bool.false_eq_true, if_false, Bool.not_false, Bool.and_true]
  rfl

/-- A ready instruction whose operation is accepted: the threads go on. -/
theorem acceptOp_passes {t : State} (hg : s.group? p.core p.gid = some p.g)
    (hf : s.classFaulted p.core p.gid p.g op.cls = false) (hr : p.g.ready p) (h : laneReady t p (asyncRow a) = true) (mask : Word) :
    ((s.acceptOp p op ps mask).popAll p (engineForm i a)).fin p i p.ex []
      = (s.withOp p (s.accepted p op ps mask)).passes p i (p.g.counts op (asyncDraws op ps)) := by
  rw [acceptOp_of hg hf, engine_passes (group?_setGroup ..) (ready_counts hr op _) h]
  exact goesTo_setGroup ..

theorem readBlock_blockPlace (s : State) (p : Pass) (a : Src) :
    s.readBlock p ⟨.scratch, p.core, ⟨false, (s.blockOf p.core p.g).local ((p.word a).toNat % 2 ^ 24)⟩, 64⟩
      = (s.params p a, s.blockRead p a) := rfl

/-- An operation with a parameter block that passes the checks of R227 is accepted. -/
theorem asyncBlock_accepts (hp : s.pass? = some p) (h : asyncReady s p a op = true) :
    let ps := s.params p a
    let t := s.blockRead p a
    s.asyncBlock i a op = ((if op = .coll then t.touch p.g.ctx (dieOf p.core) else t).withOp p (t.accepted p op ps 0)).passes
      p i (p.g.counts op (asyncDraws op ps)) := by
  intro ps t
  simp only [asyncReady, Bool.and_eq_true, Bool.not_eq_true', beq_iff_eq, and_assoc] at h
  obtain ⟨hlane, hregion, halign, halloc, hheld, hue, hfields, haligned, hextents, htiles, hbound, hroom, hfault⟩ := h
  have hregion' : (op == .coll && p.g.region.isSome) = false := by simpa [imp_iff_not_or] using hregion
  have hbound' : (op == .mma && !((s.blockRead p a).core p.core).quartetBound p.g.blk (quartetOf (s.params p a))) = false := by
    simpa [imp_iff_not_or] using hbound
  have hg : t.group? p.core p.gid = some p.g := ((sameGroups_serveMet ..).same ..).trans (pass_facts hp).1
  have hr := ready_self hp (laneReady_iff hlane).1
  have hchecked : s.asyncBlock i a op = (((if op = .coll then t.touch p.g.ctx (dieOf p.core) else t).acceptOp p op ps 0).popAll
      p (engineForm i a)).fin p i p.ex [] := by
    rw [State.asyncBlock, asyncWith_ready _ hp hlane]
    simp only [State.blockPlace] at hheld
    simp only [readBlock_blockPlace, halign, halloc, hheld, hue, hfields, haligned, hextents, htiles, hregion', hbound', hroom,
      ne_eq, not_true_eq_false, Bool.not_true, Bool.false_eq_true, if_false, beq_iff_eq]
    rfl
  rw [hchecked]
  split
  · exact acceptOp_passes (s := t.touch p.g.ctx (dieOf p.core)) hg hfault hr hlane 0
  · exact acceptOp_passes hg hfault hr hlane 0

/-! ## ACLR (08 R246) -/

theorem execAclr_of_zero (hp : s.pass? = some p) (h : laneReady s p (asyncRow a) = true) (h0 : p.word a = 0) :
    execAclr a s = .next (s.passes p (.aclr a) p.g) := by
  have hend := engine_passes (i := .aclr a) (pass_facts hp).1 (ready_self hp (laneReady_iff h).1) h
  simpa [execAclr, asyncWith_ready _ hp h, h0] using hend

theorem execAclr_accepts (hp : s.pass? = some p) (h : laneReady s p (asyncRow a) = true) (h0 : p.word a ≠ 0)
    (hlt : (p.word a).toNat < 2 ^ 16) (ht : ∀ t, t < 16 → (p.word a).getLsbD t = true → t < s.accTiles p.g.ctx)
    (hroom : s.hasRoom p.core p.g .aclr 0 = true) (hf : s.classFaulted p.core p.gid p.g 2 = false) :
    execAclr a s = .next ((s.withOp p (s.accepted p .aclr [] (p.word a))).passes p (.aclr a) (p.g.counts .aclr false)) := by
  have hn : (p.word a).toNat ≠ 0 := fun h => h0 (BitVec.eq_of_toNat_eq h)
  have htiles : ((List.range 16).any fun t => (p.word a).toNat.testBit t && decide (s.accTiles p.g.ctx ≤ t)) = false := by
    simp only [List.any_eq_false, List.mem_range, Bool.and_eq_true, decide_eq_true_eq, not_and, not_le]
    exact ht
  have hpast : ¬ (p.word a).toNat ≥ 2 ^ 16 := by omega
  rw [execAclr, asyncWith_ready _ hp h]
  simp only [hpast, htiles, hn, hroom, if_false, Bool.false_eq_true, Bool.not_true, BitVec.ofNat_toNat, BitVec.setWidth_eq]
  exact congrArg Host.Outcome.next (acceptOp_passes (op := .aclr) (pass_facts hp).1 hf (ready_self hp (laneReady_iff h).1) h _)

/-! ## MBIND (08 R239, 16 R405) -/

theorem group?_modCore (s : State) (c gid : Nat) (f : Core → Core) : (s.modCore c f).group? c gid = alGet gid (f (s.core c)).groups := by
  simp [State.modCore, State.group?]

/-- The group of a slot once a word is bound. -/
def Group.boundIn (w : Word) (gid : Nat) (g : Group) : Group :=
  if (quartetMembers w).contains gid then { g with quartet := some w } else g

/-- A group once a word is unbound. -/
def Group.unboundFrom (w : Word) (g : Group) : Group := if g.quartet == some w then { g with quartet := none } else g

theorem group?_bind (s : State) (c gid : Nat) (w : Word) :
    (s.modCore c fun k => k.bind w).group? c gid = (s.group? c gid).map (Group.boundIn w gid) :=
  (group?_modCore ..).trans (alGet_mapKey (Group.boundIn w) gid (s.core c).groups)

theorem group?_unbind (s : State) (c gid : Nat) (w : Word) :
    (s.modCore c fun k => k.unbind w).group? c gid = (s.group? c gid).map (Group.unboundFrom w) :=
  (group?_modCore ..).trans (alGet_map (Group.unboundFrom w) gid (s.core c).groups)

theorem ready_boundIn (h : g.ready p) (w : Word) (gid : Nat) : (g.boundIn w gid).ready p := by
  unfold Group.boundIn
  split
  · exact h.same rfl rfl rfl rfl rfl
  · exact h

theorem ready_unboundFrom (h : g.ready p) (w : Word) : (g.unboundFrom w).ready p := by
  unfold Group.unboundFrom
  split
  · exact h.same rfl rfl rfl rfl rfl
  · exact h

theorem execMbind_binds (hp : s.pass? = some p) (h : laneReady s p (asyncRow a) = true)
    (hok : (s.core p.core).bindOk p.g.blk (p.word a) = true) :
    execMbind a false s = .next ((s.modCore p.core fun k => k.bind (p.word a)).passes p (.mbind a false)
      (p.g.boundIn (p.word a) p.gid)) := by
  have hg := (group?_bind s p.core p.gid (p.word a)).trans (congrArg _ (pass_facts hp).1)
  have hr := ready_boundIn (ready_self hp (laneReady_iff h).1) (p.word a) p.gid
  rw [execMbind, asyncWith_ready _ hp h]
  simp only [BitVec.ofNat_toNat, BitVec.setWidth_eq, hok, Bool.not_true, Bool.false_eq_true, if_false]
  exact congrArg Host.Outcome.next (engine_passes hg hr h)

theorem execMbind_unbinds (hp : s.pass? = some p) (h : laneReady s p (asyncRow a) = true)
    (hb : (s.core p.core).quartetBound p.g.blk (p.word a) = true) (hfree : (s.core p.core).quartetBusy (p.word a) = false) :
    execMbind a true s = .next ((s.modCore p.core fun k => k.unbind (p.word a)).passes p (.mbind a true)
      (if p.g.quartet = some (p.word a) then { p.g with quartet := none } else p.g)) := by
  have hif : p.g.unboundFrom (p.word a) = if p.g.quartet = some (p.word a) then { p.g with quartet := none } else p.g := by
    simp only [Group.unboundFrom, beq_iff_eq]
  have hg := (group?_unbind s p.core p.gid (p.word a)).trans (congrArg _ (pass_facts hp).1)
  have hr := ready_unboundFrom (ready_self hp (laneReady_iff h).1) (p.word a)
  rw [execMbind, asyncWith_ready _ hp h]
  simp only [BitVec.ofNat_toNat, BitVec.setWidth_eq, hb, hfree, ← hif, Bool.not_true, Bool.false_eq_true, if_false, if_true]
  exact congrArg Host.Outcome.next (engine_passes hg hr h)

end

/-- Settles O16: an accepted operation by what the checks and `acceptOp` come to, ACLR and MBIND by their equations. -/
theorem enginesAccept : Obligations.EnginesAccept := by
  unfold Obligations.EnginesAccept
  refine ⟨?_, fun a s p hp h => ⟨execAclr_of_zero hp h, execAclr_accepts hp h, execMbind_binds hp h, execMbind_unbinds hp h⟩⟩
  intro accepts a
  have haccepts {i : Instr} {op : EOp} (hx : ∀ s, exec i s = .next (s.asyncBlock i a op)) : accepts i a op :=
    fun s p hp h => (hx s).trans (congrArg _ (asyncBlock_accepts hp h))
  exact ⟨haccepts fun _ => rfl, haccepts fun _ => rfl, haccepts fun _ => rfl, haccepts fun _ => rfl, haccepts fun _ => rfl⟩

end Sys2Proof.Machine

namespace Sys2Proof.Machine

/-! # Engine operations run, finish and fault (08 R228, R241, R245, R246, R250) -/

section
variable {s : State} {c id : Nat} {o : EngOp}

/-! ## Starts, B operands and B buffers -/

theorem execAccportOpStart_starts {r : List EngOp}
    (hidle : ((s.core c).ops.filter fun o => o.op == .aclr || o.op == .adrn).any (·.st == .started) = false)
    (hnext : ((s.core c).ops.filter fun o => o.op == .aclr || o.op == .adrn).filter (·.st == .accepted) = o :: r)
    (hmt : (s.core c).mtBlocked o (o.tiles.take 1) = false) :
    execAccportOpStart c s = .next (s.modOp c o.id fun o => { o with st := .started }) := by
  simp only [execAccportOpStart, hidle, hnext, hmt, Bool.false_eq_true, if_false]

theorem execMmaBConsumed_of_good
    (hf : (s.core c).ops.find? (fun o => o.id == id && o.op == .mma && o.st == .accepted && o.bcols.isNone) = some o)
    (hue : (s.core c).bUe (quartetOf o.params) (mmaRegs o.params) (dimN o.params) = false) :
    execMmaBConsumed c id s = .next ((quartetMembers (quartetOf o.params)).foldl (fun s m => s.tryRetire c m)
      (s.modOp c id fun x => { x with bcols := some ((List.range (dimN o.params)).map fun j =>
        (s.core c).bColumn (quartetOf o.params) (mmaRegs o.params) j) })) := by
  simp only [execMmaBConsumed, hf, hue, Bool.false_eq_true, if_false]

theorem execBBufferFree_frees {r : List EngOp} (hf : (s.core c).ops.filter (fun o => o.bbuf) = o :: r) (hb : o.bcols.isSome = true)
    (hmt : (s.core c).mtBlocked o (o.tiles.drop 1) = false) :
    execBBufferFree c s = .next (s.modOp c o.id fun o => { o with bbuf := false }) := by
  simp only [execBBufferFree, hf, hb, hmt, Bool.not_false, Bool.and_self, if_true]

/-! ## The end of an operation -/

theorem id_of_find (hf : (s.core c).ops.find? (·.id == id) = some o) : o.id = id := by
  simpa using List.find?_some hf

/-- A paid operation ends as its completion word has it. -/
theorem execAsyncOpFinish_of_paid (hf : (s.core c).ops.find? (·.id == id) = some o) (hst : o.st = .paid) :
    execAsyncOpFinish c id s = .next (s.payWord c o) := by
  simp only [execAsyncOpFinish, hf, hst, beq_self_eq_true, if_true]

theorem execAsyncOpFinish_wordless (hf : (s.core c).ops.find? (·.id == id) = some o) (hst : o.st = .paid) (hw : o.cword = none) :
    execAsyncOpFinish c id s =
      .next ((s.modOp c id fun o => { o with st := .finished, bbuf := false }).retireOps c o.gid) := by
  simp only [execAsyncOpFinish_of_paid hf hst, State.payWord, hw, State.finishOp, id_of_find hf]

theorem execAsyncOpFinish_word {va w : Nat} {t : State} {bs : List Byte} (hf : (s.core c).ops.find? (·.id == id) = some o)
    (hst : o.st = .paid) (hw : o.cword = some (va, w)) (hold : (s.core c).olderDone o = true) (hue : (s.endUe c o va).1 = false)
    (hput : s.gwrite (dieOf c) o.ctx (.op c id) va (leBytes 4 w) = (.ok bs, t)) (hh : s.heldMore t = false) :
    execAsyncOpFinish c id s = .next ((t.noteWord c o va w).finishOp c o) := by
  rw [← id_of_find hf] at hput
  simp only [execAsyncOpFinish_of_paid hf hst, State.payWord, hw, hold, hue, hput, hh, Bool.not_true, Bool.false_eq_true, if_false]

/-- An operation that is not live retires behind the older ones of its group and class (08 R228, R250). -/
theorem execAsyncOpFinish_ended {x : EngOp} {r : List EngOp} (hf : (s.core c).ops.find? (·.id == id) = some o) (hst : o.st ≠ .paid)
    (hlive : o.live = false) (hx : (s.core c).opsOf o.gid o.cls = x :: r) :
    execAsyncOpFinish c id s = .next (if x.id = o.id then (s.retireOne c o).retireOps c o.gid else s) := by
  simp only [execAsyncOpFinish, hf, beq_iff_eq, hst, hlive, State.retireEnded, hx, Bool.not_false, if_false, if_true]

/-- What lets an operation go on (07 R217, 08 R245). -/
theorem opReady_iff : s.opReady c o = true ↔ o.live = true ∧ o.st ≠ .paid ∧ (s.core c).mayFinish o = true ∧
    s.opHeld c o = false ∧ (o.op = .coll → s.collFirst o = true) := by
  simp only [State.opReady, Bool.and_eq_true, Bool.or_eq_true, Bool.not_eq_true', bne_iff_ne, ← imp_iff_not_or, and_assoc]

theorem execAsyncOpFinish_payload (hf : (s.core c).ops.find? (·.id == id) = some o) (hr : s.opReady c o = true) (hop : o.op ≠ .coll)
    (hlost : (s.payload c o).lost = false) (hfault : (s.payload c o).fault = none) (hwait : (s.payload c o).wait = false) :
    execAsyncOpFinish c id s = .next (s.payWhole c o (s.payload c o)) := by
  obtain ⟨hlive, hst, -⟩ := opReady_iff.mp hr
  simp only [execAsyncOpFinish, hf, beq_iff_eq, hst, hlive, hr, hop, hlost, hfault, hwait, Bool.not_true, Bool.false_eq_true, if_false,
    Option.isSome_none, Bool.or_self]

/-- A COLL whose payload is written goes on to its status word (08 R249). -/
theorem execAsyncOpFinish_collStatus {status : Nat} (hf : (s.core c).ops.find? (·.id == id) = some o) (hr : s.opReady c o = true)
    (hop : o.op = .coll) (h : o.status = some status) : execAsyncOpFinish c id s = .next (s.collStatus c o status) := by
  obtain ⟨hlive, hst, -⟩ := opReady_iff.mp hr
  simp only [execAsyncOpFinish, hf, beq_iff_eq, hst, hlive, hr, hop, h, Bool.not_true, Bool.false_eq_true, if_false, if_true]

/-- A COLL that has taken its peers' elements writes its payload. -/
theorem execAsyncOpFinish_collEnd {e : ERun} {status : Nat} (hf : (s.core c).ops.find? (·.id == id) = some o)
    (hr : s.opReady c o = true) (hop : o.op = .coll) (h : o.status = none) (hrun : s.collRun c o = .done e status)
    (hlost : e.lost = false) : execAsyncOpFinish c id s = .next (s.collEnd c o e status) := by
  obtain ⟨hlive, hst, -⟩ := opReady_iff.mp hr
  simp only [execAsyncOpFinish, hf, beq_iff_eq, hst, hlive, hr, hop, h, hrun, hlost, Bool.not_true, Bool.false_eq_true, if_false, if_true]

/-- A COLL that has read its own elements sends them. -/
theorem execAsyncOpFinish_collSend {e : ERun} {own : List Byte} (hf : (s.core c).ops.find? (·.id == id) = some o)
    (hr : s.opReady c o = true) (hop : o.op = .coll) (h : o.status = none) (hrun : s.collRun c o = .send e own) :
    execAsyncOpFinish c id s = .next (e.s.collSend c o own) := by
  obtain ⟨hlive, hst, -⟩ := opReady_iff.mp hr
  simp only [execAsyncOpFinish, hf, beq_iff_eq, hst, hlive, hr, hop, h, hrun, Bool.not_true, Bool.false_eq_true, if_false, if_true]

theorem execAsyncOpFault_of {e : ERun} {sub : BitVec 8} {addr : DWord} (hf : (s.core c).ops.find? (·.id == id) = some o)
    (hx : s.opFault c o = some e) (hlost : e.lost = false) (he : e.fault = some (sub, addr)) :
    execAsyncOpFault c id s = .next (s.faultRun c o e sub addr) := by
  simp only [execAsyncOpFault, hf, hx, hlost, he, Bool.false_eq_true, if_false]

end

/-! # Frames from the fabric (12 R336, R340) -/

section
variable {s : State} {tag : BitVec 16}

theorem execFabricFrameReceive_kept {src : Nat} {payload : List Byte} (hu : s.tagUsed tag = true) (hl : payload.length ≤ 4032) :
    execFabricFrameReceive tag src payload s = .next (({ s.meetFrame tag (1 + (payload.length + 63) / 64) with
      frames := s.frames ++ [{ tag, src, payload }] } : State).returnCredit tag src) := by
  simp only [execFabricFrameReceive, gt_iff_lt, Nat.not_lt.mpr hl, hu, if_false, if_true]

/-- A frame whose tag is not configured is counted, for no context, and dropped. -/
theorem meetFrame_dropped (hu : s.tagUsed tag = false) (flits : Nat) : s.meetFrame tag flits =
    { ({ s with free := s.free + 1 } : State).countDie s.hostDie 0x10D flits none with fabdrop := s.fabdrop + 1 } := by
  simp only [State.meetFrame, hu, Bool.false_eq_true, if_false]
  rfl

theorem execFabricFrameReceive_dropped {src : Nat} {payload : List Byte} (hu : s.tagUsed tag = false) (hl : payload.length ≤ 4032) :
    execFabricFrameReceive tag src payload s = .next (s.meetFrame tag (1 + (payload.length + 63) / 64)) := by
  simp only [execFabricFrameReceive, gt_iff_lt, Nat.not_lt.mpr hl, hu, Bool.false_eq_true, if_false]

theorem execFabricAbortReceive_dropped (hu : s.tagUsed tag = false) : execFabricAbortReceive tag s = .next (s.meetFrame tag 1) := by
  simp only [execFabricAbortReceive, hu, Bool.not_false, if_true]

/-- Whether an ABORT on a tag ends an operation. -/
def State.abortHits (s : State) (tag : BitVec 16) (o : EngOp) : Bool :=
  o.op == .coll && o.live && o.st != .paid && s.collTag (s.ctx o.ctx).vd o.coll == tag

/-- A core after an ABORT on a tag: the operations that it ends are marked. -/
def Core.aborts (s : State) (tag : BitVec 16) (k : Core) : Core :=
  { k with ops := k.ops.map fun o => if s.abortHits tag o then { o with aborted := true } else o }

theorem aborts_marks {k : Core} {o : EngOp} (ho : o ∈ (k.aborts s tag).ops) (hh : s.abortHits tag o = true) : o.aborted = true := by
  obtain ⟨x, _, rfl⟩ := List.mem_map.mp ho
  by_cases hx : s.abortHits tag x = true
  · rw [if_pos hx]
  · rw [if_neg hx] at hh
    exact absurd hh hx

theorem execFabricAbortReceive_of_used (hu : s.tagUsed tag = true) : execFabricAbortReceive tag s =
    .next { s.meetFrame tag 1 with
      frames := s.frames.filter fun f => f.tag != tag
      cores := s.cores.map fun x => (x.1, x.2.aborts s tag) } := by
  simp only [execFabricAbortReceive, hu, Bool.not_true, Bool.false_eq_true, if_false]
  rfl

theorem core_mapCores {t : State} {f : Core → Core} (ht : t.cores = s.cores.map fun x => (x.1, f x.2)) (h : f {} = {}) (c : Nat) :
    t.core c = f (s.core c) := by
  rw [State.core, State.core, ht, alGet_map]
  cases alGet c s.cores with
  | none => exact h.symm
  | some k => rfl

end

/-- Settles O32: each event of an engine by its equation; an ABORT marks every operation that its tag hits. -/
theorem enginesRun : Obligations.EnginesRun := by
  unfold Obligations.EnginesRun
  refine ⟨fun s c => ⟨fun o r => execAccportOpStart_starts, fun id o => execMmaBConsumed_of_good, fun o r => execBBufferFree_frees,
    fun id o hf => ⟨execAsyncOpFinish_wordless hf, fun hst va w t bs => execAsyncOpFinish_word hf hst,
      fun hst hlive x r => execAsyncOpFinish_ended hf hst hlive, fun hlive hst hm hh hfirst => ?_⟩⟩,
    fun s tag src payload => ⟨execFabricFrameReceive_kept, ?_, fun hu => ?_⟩⟩
  · have hr := opReady_iff.mpr ⟨hlive, hst, hm, hh, hfirst⟩
    exact ⟨execAsyncOpFinish_payload hf hr, fun status => execAsyncOpFinish_collStatus hf hr,
      fun e status => execAsyncOpFinish_collEnd hf hr, fun e own => execAsyncOpFinish_collSend hf hr,
      fun e sub addr => execAsyncOpFault_of hf⟩
  · intro dropped hu
    exact ⟨(execFabricAbortReceive_dropped hu).trans (congrArg _ (meetFrame_dropped hu 1)),
      fun hl => (execFabricFrameReceive_dropped hu hl).trans (congrArg _ (meetFrame_dropped hu _))⟩
  · refine ⟨_, execFabricAbortReceive_of_used hu, rfl, fun c o ho hop hlive hst htag => ?_⟩
    rw [core_mapCores (s := s) rfl rfl c] at ho
    refine aborts_marks ho ?_
    simp only [State.abortHits, hop, hlive, bne_iff_ne.mpr hst, htag, beq_self_eq_true, Bool.and_self]

end Sys2Proof.Machine

namespace Sys2Proof.Machine

/-! # Work queues (09 R256, R262) -/

section
variable {s : State} {q : Nat} {ctl : DWord}

/-! ## A queue after a write -/

@[simp] theorem queue_setQueue (s : State) (q : Nat) (x : Queue) : (s.setQueue q x).queue q = x := by
  simp only [State.queue, State.setQueue, alGet_alSet, Option.getD_some]

/-- A queue that is disabled keeps its ring, WQHEAD and WQTAIL. -/
theorem queue_queueDisable (s : State) (q : Nat) : (s.queueDisable q).queue q =
    { s.queue q with ctl := (s.queue q).ctl &&& ~~~(1 : DWord), st := .disabled, cur := none, walkFaults := [] } := by
  simp only [State.queueDisable]
  cases (s.queue q).cur with
  | none => exact queue_setQueue ..
  | some p => exact queue_setQueue ..

theorem wqEn_cleared (w : DWord) : wqEn (w &&& ~~~(1 : DWord)) = false := by
  simp [wqEn]

/-! ## WQCTL -/

/-- The fields that WQ_ENABLE compares, as the model tests them. -/
theorem fieldsAgree_iff (y : Context) (c : DWord) : (y.st != .free && y.vd == wqOwner c && y.cls == wqClass c) = true ↔
    y.st ≠ .free ∧ y.vd = wqOwner c ∧ y.cls = wqClass c := by
  simp only [Bool.and_eq_true, bne_iff_ne, beq_iff_eq, and_assoc]

/-- A write that sets EN of a disabled queue decides on the fields that it writes. -/
theorem execWqEnable_of_off (hq : q < 1024) (hoff : wqEn (s.queue q).ctl = false) (hon : wqEn ctl = true) :
    let c := ctl &&& wqctlMask
    let y := s.ctx (wqCtx c)
    execWqEnable q ctl s = if y.st ≠ .free ∧ y.vd = wqOwner c ∧ y.cls = wqClass c
      then .next ((s.setQueue q { s.queue q with ctl := c, st := .active }).setTail q (s.queue q).tail)
      else .next (s.setQueue q { s.queue q with ctl := c &&& ~~~(1 : DWord), code := 8 }) := by
  simp only [execWqEnable, ge_iff_le, Nat.not_le.mpr hq, hoff, hon, fieldsAgree_iff, decide_false, Bool.not_true, Bool.or_self,
    Bool.false_eq_true, if_false]

theorem execWqDisable_of_off (hq : q < 1024) (hoff : wqEn ctl = false) : execWqDisable q ctl s =
    .next ((s.queueDisable q).modQueue q fun y => { y with ctl := (s.queue q).ctlAfter ctl &&& ~~~(1 : DWord) }) := by
  simp only [execWqDisable, ge_iff_le, Nat.not_le.mpr hq, hoff, decide_false, Bool.or_self, Bool.false_eq_true, if_false]

/-! ## WQTAIL -/

theorem setTail_of_fits {val : Word} (h : (val - (s.queue q).head).toNat ≤ wqSize (s.queue q).ctl ∨ (s.queue q).st ≠ .active) :
    s.setTail q val = s.setQueue q { s.queue q with tail := val } := by
  refine if_neg fun hover => ?_
  obtain ⟨hst, hlt⟩ := Bool.and_eq_true_iff.mp hover
  exact h.elim (Nat.not_le.mpr (of_decide_eq_true hlt)) (absurd (beq_iff_eq.mp hst))

theorem setTail_past_ring {val : Word} (h : wqSize (s.queue q).ctl < (val - (s.queue q).head).toNat) (hst : (s.queue q).st = .active) :
    s.setTail q val = (s.setQueue q { s.queue q with tail := val }).queueError q 6 none :=
  if_pos (Bool.and_eq_true_iff.mpr ⟨beq_iff_eq.mpr hst, decide_eq_true h⟩)

theorem execWqtailWrite_pkg (hq : q < 1024) (val : Word) : execWqtailWrite .pkg q val s = .next (s.setTail q val) :=
  if_neg (Nat.not_le.mpr hq)

theorem execWqtailWrite_vd (hq : q < 1024) (val : Word) (v : Nat) : execWqtailWrite (.vd v) q val s =
    if wqOwner (s.queue q).ctl = v then .next (s.setTail q val) else .next (s.modVd v fun d => { d with dbdrop := d.dbdrop + 1 }) :=
  if_neg (Nat.not_le.mpr hq)

end

/-- Settles O36: WQCTL by what its write decides on, the disabled queue by its fields, WQTAIL by whether the ring holds
its value. -/
theorem queuesChange : Obligations.QueuesChange := by
  unfold Obligations.QueuesChange
  intro s q ctl hq
  refine ⟨fun hoff hon hst hvd hcls => (execWqEnable_of_off hq hoff hon).trans (if_pos ⟨hst, hvd, hcls⟩),
    fun hoff hon hbad => (execWqEnable_of_off hq hoff hon).trans (if_neg hbad), execWqDisable_of_off hq, ?_, fun val v => ⟨?_, ?_, ?_, ?_⟩⟩
  · simp only [queue_queueDisable, wqEn_cleared, and_self]
  · exact fun hfits => (execWqtailWrite_pkg hq val).trans (congrArg _ (setTail_of_fits hfits))
  · exact fun hlt hst => (execWqtailWrite_pkg hq val).trans (congrArg _ (setTail_past_ring hlt hst))
  · exact fun hown => ((execWqtailWrite_vd hq val v).trans (if_pos hown)).trans (execWqtailWrite_pkg hq val).symm
  · exact fun hown => (execWqtailWrite_vd hq val v).trans (if_neg hown)

end Sys2Proof.Machine

namespace Sys2Proof.Machine

/-! # The dispatcher (09 R258 to R263) -/

section
variable {s : State} {q : Nat} {l : Launch}

/-! ## Packets and wait conditions -/

/-- The record of a taken packet changes nothing that a queue or a launch holds. -/
theorem noteTake_same (s : State) (l : Launch) : ∃ h n, s.noteTake l = { s with hist := h, nextId := n } := by
  obtain ⟨h, e⟩ := note_same ({ s.fresh.2 with hist := if (s.launches.map (·.id)).isEmpty then [] else s.fresh.2.hist } : State)
    { id := s.fresh.1, ctx := l.ctx, who := [.disp l.id], kind := .take l.queue l.pkt (s.launches.map (·.id)) }
  exact ⟨h, _, e⟩

theorem takePacket_of_room (h : s.capacityFail l = none) (ws : List WaitCond) :
    (s.takePacket q l ws).launches = s.launches ++ [l] ∧ (s.takePacket q l ws).queue q =
      { s.queue q with head := (s.queue q).head + 1, cur := some { launch := l.id, waits := ws, age := s.time }, walkFaults := [] } := by
  obtain ⟨hist, n, hnote⟩ := noteTake_same s l
  simp only [State.takePacket, h, hnote]
  exact ⟨rfl, queue_setQueue ..⟩

/-- A good packet that waits for nothing is taken. -/
theorem execPacketTake_of_good {p : PA} {s0 : State} {bs : List Byte} (hp : (s.queue q).slotPa (s.queue q).head.toNat = p)
    (hs0 : s.touch (wqCtx (s.queue q).ctl) (s.homeDie p) = s0) (hbs : s0.homeBytes p 64 = bs)
    (hst : (s.queue q).st = .active) (hmgmt : s.mgmtOnly = false) (hcur : (s.queue q).cur = none) (hheld : (s.queue q).held ≠ 0)
    (hvd : (s.vd (wqOwner (s.queue q).ctl)).st = .active) (hpa : s0.checkPa (wqOwner (s.queue q).ctl) p = none)
    (hhbm : s0.hbmHolds (s.clsOf (wqCtx (s.queue q).ctl)) p 64 = false) (hue : s0.ueBytes p 64 = false) (hgood : pktBad bs = false)
    (hwaits : pf bs 0 16 4 = 0) : execPacketTake q s =
      .next (({ s0 with nextId := s0.nextId + 1 } : State).takePacket q (launchOf s0.nextId q (s.queue q) bs) []) := by
  have hgo : ((s.queue q).st != .active || s.mgmtOnly || (s.queue q).cur.isSome || decide ((s.queue q).held = 0)
      || (s.vd (wqOwner (s.queue q).ctl)).st != .active) = false := by
    simp [hst, hmgmt, hcur, hheld, hvd]
  simp only [execPacketTake, hgo, hp, hs0, hpa, hhbm, hue, hbs, hgood, hwaits, State.fresh, Bool.false_eq_true, if_false, if_true]

/-- An unlatched condition whose word is read is latched if it holds. -/
theorem execWaitCondRead_of_read {i : Nat} {p : CurPkt} {w : WaitCond} {bs : List Byte} {t : State} (hst : (s.queue q).st = .active)
    (hcur : (s.queue q).cur = some p) (hw : p.waits[i]? = some w) (hlatch : w.latched = false) (hl : s.launch? p.launch = some l)
    (hread : s.gread s.dispDie l.ctx (.disp q) w.addr.toNat 4 = (.ok bs, t)) : execWaitCondRead q i s =
      if w.holds (BitVec.ofNat 32 (leNat bs)) then
        .next ((t.noteDisp l w.addr.toNat 4 { id := 0, ctx := 0, who := [], kind := .syncRead, got := bs, acq := some 4 }).modQueue q fun x =>
          { x with cur := some { p with waits := listMod p.waits i fun w => { w with latched := true } } })
      else .next t := by
  simp only [execWaitCondRead, hst, hcur, hw, hlatch, hl, hread, Bool.false_eq_true, if_false]

/-! ## Placement -/

theorem execPlacement_of_misfit (h : s.misfit = some (q, l)) :
    execPlacement s = .next ((s.queueError q 7 (some l)).modQueue q fun x => { x with head := l.pkt }) := by
  simp only [execPlacement, h]

/-- Without a misfit or a claim that is ready, the best candidate is served. -/
theorem execPlacement_of_candidate {cs : List Nat} (hfit : s.misfit = none) (hclaim : s.firstClaim s.readyClaims = none)
    (hcand : s.firstCandidate (s.queues.map (·.1)) = some (q, l, cs)) : execPlacement s =
      if s.unitFree l cs = false then .next (s.claimBanks q l cs)
      else .next (if s.fuseHeld l cs then s else s.placeUnit q l cs) := by
  simp only [execPlacement, hfit, hclaim, hcand, Bool.not_eq_true']

/-! ## Completion and the watchdog -/

theorem execLaunchComplete_of_discarded {id : Nat} (hl : s.launch? id = some l) (hdone : s.launchDone l = true)
    (hturn : s.signalBehind l = false) (hd : l.discarded = true) : execLaunchComplete id s = .next (s.dropLaunch id) := by
  simp only [execLaunchComplete, hl, hdone, hturn, hd, Bool.not_true, Bool.or_self, Bool.false_eq_true, if_false, if_true]

/-- A launch that is done and has no census goes on to its signal. -/
theorem execLaunchComplete_of_noCensus {id : Nat} (hl : s.launch? id = some l) (hdone : s.launchDone l = true)
    (hturn : s.signalBehind l = false) (hd : l.discarded = false) (hcen : (s.queue l.queue).censva = 0) :
    execLaunchComplete id s = .next (s.signal l s) := by
  have hva : (s.queue l.queue).censva.toNat = 0 := by rw [hcen]; rfl
  simp only [execLaunchComplete, hl, hdone, hturn, hd, hva, Bool.not_true, Bool.or_self, Bool.false_eq_true, if_false, if_true]

theorem signal_of_unsignalled (h : l.sig = false) (orig : State) :
    s.signal l orig = (s.ulLaunch (s.ctx l.ctx).vd l 0).dropLaunch l.id := by
  simp only [State.signal, h, Bool.not_false, if_true]

theorem signal_of_written {bs : List Byte} {t : State} (h : l.sig = true)
    (hput : s.gwrite s.dispDie l.ctx (.disp l.queue) l.sigaddr.toNat (leBytes 8 l.sigval.toNat) = (.ok bs, t)) (orig : State) :
    let t1 := t.noteDisp l l.sigaddr.toNat 8 { id := 0, ctx := 0, who := [], kind := .syncWrite, put := leBytes 8 l.sigval.toNat, rel := some 4 }
    s.signal l orig = (t1.ulLaunch (t1.ctx l.ctx).vd l 0).dropLaunch l.id := by
  simp only [State.signal, h, hput, Bool.not_true, Bool.false_eq_true, if_false]

theorem signal_of_fault {f : FCode} {a : Nat} {t : State} (h : l.sig = true)
    (hput : s.gwrite s.dispDie l.ctx (.disp l.queue) l.sigaddr.toNat (leBytes 8 l.sigval.toNat) = (.fault f a, t)) (orig : State) :
    s.signal l orig = t.launchError l f 5 := by
  simp only [State.signal, h, hput, Bool.not_true, Bool.false_eq_true, if_false]

theorem execWatchdogExpiry_of_due {id : Nat} (hl : s.launch? id = some l) (hfirst : l.first.isSome = true) (hon : l.wdog ≠ 0)
    (hrun : l.wdog * 1000000 ≤ l.run) (hgoal : l.retired < l.goal) : execWatchdogExpiry id s =
      .next ((s.modLaunch id fun l => { l with wdog := 0 }).stopCtx l.ctx .watchdog 0 0 0) := by
  simp only [execWatchdogExpiry, hl, hfirst, ne_eq, hon, hrun, hgoal, not_false_eq_true, decide_true, Bool.and_self, if_true]

end

/-- Settles O37: each event of the dispatcher by its equation. -/
theorem dispatcherWorks : Obligations.DispatcherWorks := by
  unfold Obligations.DispatcherWorks
  intro s
  refine ⟨?taken, ?latched, fun q l => execPlacement_of_misfit, ?placed, ?completed, fun id l => execWatchdogExpiry_of_due⟩
  case taken =>
    intro q x p s0 bs l s1 hst hmgmt hcur hheld hvd hpa hhbm hue hgood hwaits hroom
    exact ⟨_, execPacketTake_of_good rfl rfl rfl hst hmgmt hcur hheld hvd hpa hhbm hue hgood hwaits, takePacket_of_room hroom []⟩
  case latched =>
    intro q i p w l bs t hst hcur hw hlatch hl hread
    have hexec := execWaitCondRead_of_read hst hcur hw hlatch hl hread
    exact ⟨fun hoff => hexec.trans (if_neg (Bool.eq_false_iff.mp hoff)),
      fun hon => hexec.trans (if_pos hon)⟩
  case placed =>
    intro q l cs hfit hclaim hcand
    have hexec := execPlacement_of_candidate hfit hclaim hcand
    refine ⟨fun hfree hfuse => ?_, fun htaken => hexec.trans (if_pos htaken)⟩
    rw [hfree, hfuse] at hexec
    exact hexec
  case completed =>
    intro id l hl hdone hturn
    have hsignal := execLaunchComplete_of_noCensus hl hdone hturn
    exact ⟨execLaunchComplete_of_discarded hl hdone hturn,
      fun hd hcen hsig => (hsignal hd hcen).trans (congrArg _ (signal_of_unsignalled hsig s)),
      fun bs t hd hcen hsig hput => (hsignal hd hcen).trans (congrArg _ (signal_of_written hsig hput s)),
      fun f a t hd hcen hsig hput => (hsignal hd hcen).trans (congrArg _ (signal_of_fault hsig hput s))⟩

end Sys2Proof.Machine

namespace Sys2Proof.Machine

/-! # Harvest groups are evicted and return (10 R280, R281, R283) -/

section
variable {s s1 t : State} {c q : Nat}

/-! ## Spills (10 R281) -/

/-- A ready group is spilled as it stands after its restart and its leaving the barrier. -/
theorem spillGroup_of_ready {gid : Nat} {g0 g : Group} (hg0 : s.group? c gid = some g0) (hready : s.spillReady c gid g0 = true)
    (hleave : (s.spillRestart c gid).leaveBar c gid = .ok () s1) (hg : s1.group? c gid = some g) (hue : g.imageUe = false)
    (hwrite : s1.sinterWrite c gid g.ctx (s.spillVa c g.ctx gid) g.image = .ok () t) : s.spillGroup c gid =
      .ok () ((t.countCore c 10 g.image.length (some (false, (s.ctx g.ctx).part))).spilled c gid g.image.length) := by
  simp only [State.spillGroup, hg0, hready, hleave, hg, hue, hwrite, Bool.not_true, Bool.false_eq_true, if_false]

theorem spillGroup_of_waiting {gid : Nat} {g0 : Group} (hg0 : s.group? c gid = some g0) (hready : s.spillReady c gid g0 = false) :
    s.spillGroup c gid = .wait s := by
  simp only [State.spillGroup, hg0, hready, Bool.not_false, if_true]

theorem spillFirst_of_spilled {sp : Spill} (h : s.spillGroup c sp.gid = .ok () t) (r : List Spill) : s.spillFirst c (sp :: r) = t := by
  simp only [State.spillFirst, h]

/-- A group that waits is passed over for the next of the list. -/
theorem spillFirst_of_waiting {sp : Spill} (h : s.spillGroup c sp.gid = .wait t) (r : List Spill) :
    s.spillFirst c (sp :: r) = (s.keepWait t).spillFirst c r := by
  simp only [State.spillFirst, h]

/-- The quadrant's Sinter engine works through the spills of the quadrant in their order. -/
theorem execSinterSpillDone_of_spills {l : List Spill} (h : (s.core c).spills.filter (·.quad == q) = l) :
    execSinterSpillDone c q s = .next (s.spillFirst c l) := by
  rw [execSinterSpillDone, h]

/-! ## Restores (10 R283) -/

section
variable {n len : Nat} {g : Group} (hfirst : (s.core c).firstEvicted q = some (n, g))
include hfirst

theorem execSinterRestore_of_free (hres : g.residency = .evicted len) (hst : (s.ctx g.ctx).st = .active) (hmap : s.remapping c = false)
    (hbank : 0 < s.banksFree c (s.ctx g.ctx).part q none) (hclaim : s.claimed c q = false) :
    execSinterRestore c q s = .next (s.setGroup c n { g with residency := .restoring len }) := by
  have hgo : ((s.ctx g.ctx).st == .active && !s.remapping c && decide (0 < s.banksFree c (s.ctx g.ctx).part q none) && !s.claimed c q) = true := by
    simp [hst, hmap, hbank, hclaim]
  simp only [execSinterRestore, hfirst, hres, hgo, if_true]

theorem execSinterRestoreDone_of_read {bs : List Byte} {g1 : Group} {s2 : State} (hres : g.residency = .restoring len)
    (hread : s.sinterRead c n g.ctx (s.spillVa c g.ctx n) len = .ok bs s1) (hok : imageOk g.handler bs = true)
    (htrap : s1.reloadTrap c n (s.blockOf c g).bix (g.load bs (s.ctx g.ctx).dbgVd.isSome) = .ok g1 s2) :
    execSinterRestoreDone c q s = .next ((((s2.setGroup c n g1).modCore c fun k =>
      { k with evicted := k.evicted.erase n }).countCore c 10 len (s.carries g.ctx)).tryRetire c n) := by
  simp only [execSinterRestoreDone, hfirst, hres, hread, hok, htrap, Bool.not_true, Bool.false_eq_true, if_false]

end
end

/-- Settles O38: a spill by what the head of the quadrant's list answers, a return by the group that was evicted first. -/
theorem groupsAreEvicted : Obligations.GroupsAreEvicted := by
  unfold Obligations.GroupsAreEvicted
  intro s c q
  refine ⟨?spilled, ?passedOver, fun n g len hfirst => ⟨execSinterRestore_of_free hfirst,
    fun bs s1 g1 s2 => execSinterRestoreDone_of_read hfirst⟩⟩
  case spilled =>
    intro sp r g0 g s1 t hspills hg0 hready hleave hg hue hwrite
    have hspill := spillGroup_of_ready hg0 hready hleave hg hue hwrite
    exact (execSinterSpillDone_of_spills hspills).trans (congrArg _ (spillFirst_of_spilled hspill r))
  case passedOver =>
    intro sp r g0 hspills hg0 hready
    have hwait := spillGroup_of_waiting hg0 hready
    exact (execSinterSpillDone_of_spills hspills).trans (congrArg _ (spillFirst_of_waiting hwait r))

end Sys2Proof.Machine

namespace Sys2Proof.Machine

/-! # Partition mode changes (10 R276 to R278) -/

/-! ## Quotas -/

/-- Setting some keys of a table, each to a value of its own, sets those keys. -/
theorem alGet_foldl_alSet {α : Type} (p : Nat → Bool) (v : Nat → α) (k : Nat) (ks : List Nat) (l : List (Nat × α)) :
    alGet k (ks.foldl (fun l j => if p j then alSet j (v j) l else l) l) = if k ∈ ks ∧ p k = true then some (v k) else alGet k l := by
  induction ks generalizing l with
  | nil => simp
  | cons j r ih =>
    rw [List.foldl_cons, ih]
    by_cases hkj : k = j
    · subst hkj
      cases p k with
      | false => simp
      | true => simp
    · have hsame : alGet k (if p j then alSet j (v j) l else l) = alGet k l := by
        split
        · exact alGet_alSet_ne hkj ..
        · rfl
      simp only [hsame, List.mem_cons, hkj, false_or]

section
variable {s : State} {p : Nat} {mask : BitVec 16}

/-- A partition of MASK takes its next quotas. -/
theorem part_installQuotas (hp : p < 16) (hm : mask.getLsbD p = true) :
    (s.installQuotas mask).part p = { s.part p with a := (s.part p).na, b := (s.part p).nb } := by
  have hin : p ∈ List.range 16 ∧ mask.getLsbD p = true := ⟨List.mem_range.mpr hp, hm⟩
  rw [State.part, State.installQuotas, alGet_foldl_alSet, if_pos hin, Option.getD_some]

/-- A write of a next quota reaches a partition that is not CLOSING. -/
theorem execPqnWrite_of_open (hp : p < 16) (hopen : s.closing.getLsbD p = false) (b : Bool) (val : DWord) : execPqnWrite p b val s =
    .next { s with parts := alSet p (if b then { s.part p with nb := val &&& pqbMask } else { s.part p with na := val &&& pqaMask }) s.parts } :=
  if_neg (Bool.eq_false_iff.mp (by rw [hopen, decide_eq_false (Nat.not_le.mpr hp), Bool.or_self]))

theorem part_of_alSet {l : List (Nat × Part)} {x : Part} (h : s.parts = alSet p x l) : s.part p = x := by
  rw [State.part, h, alGet_alSet, Option.getD_some]

/-! ## The end of a mode change (10 R278) -/

/-- An interrupt changes its status and what a write at a home may. -/
theorem pirq_homeChange (s : State) (cause : Nat) : ∃ st, HomeChange { s with pirqst := st } (s.pirq cause) := by
  unfold State.pirq
  split
  · exact ⟨s.pirqst, .refl s⟩
  · exact ⟨_, (HomeChange.refl _).ite .hostPut⟩

/-- A mode change ends with its STATE, none CLOSING, and the quotas as they are. -/
theorem pmEnd_ends (s : State) (st : BitVec 2) (code : Nat) :
    (s.pmEnd st code).pmSt = st ∧ (s.pmEnd st code).closing = 0 ∧ (s.pmEnd st code).parts = s.parts := by
  obtain ⟨_, h⟩ := pirq_homeChange { s with pmSt := st, pmCode := BitVec.ofNat 4 code, closing := 0 } 1
  rw [State.pmEnd, h.eq]
  exact ⟨rfl, rfl, rfl⟩

/-! ## Commands (10 R276) -/

theorem execPmGo_of_refused {code : Nat} (hst : s.pmSt ≠ 1) (htest : ({ s with pmctl := pmctlWord mask } : State).pmTest mask = some code) :
    execPmGo mask s = .next (({ s with pmctl := pmctlWord mask } : State).pmEnd 3 code) := by
  simp only [execPmGo, hst, htest, if_false]

/-- Whether a pending claim is of a partition outside MASK. -/
def State.claimOpen (s : State) (mask : BitVec 16) (cl : Claim) : Bool :=
  match s.launch? cl.launch with
  | some l => !mask.getLsbD (s.ctx l.ctx).part
  | none => false

/-- The state in which a change of MASK is PENDING: the claims of its partitions are dropped. -/
def State.pmPending (s : State) (mask : BitVec 16) : State :=
  { s with pmctl := pmctlWord mask, pmSt := 1, pmCode := 0, closing := mask, claims := s.claims.filter (s.claimOpen mask) }

/-- A change that the tests allow is PENDING while a block of its partitions is resident, and else takes effect at once. -/
theorem execPmGo_of_allowed (hst : s.pmSt ≠ 1) (htest : ({ s with pmctl := pmctlWord mask } : State).pmTest mask = none) :
    execPmGo mask s = .next (if (s.pmPending mask).closingBusy then s.pmPending mask else (s.pmPending mask).pmEffect) := by
  simp only [execPmGo, hst, htest, if_false]
  rfl

theorem execPmTakeEffect_of_allowed (hst : s.pmSt = 1) (hfree : s.closingBusy = false) (htest : s.pmTest s.closing = none) :
    execPmTakeEffect s = .next ((s.installQuotas s.closing).pmEnd 2 0) := by
  have heffect : s.pmEffect = (s.installQuotas s.closing).pmEnd 2 0 := by simp only [State.pmEffect, htest]
  rw [← heffect]
  exact if_pos (by simp [hst, hfree])

end

/-- Settles O42: GO by what its tests answer, the end of a change by the quotas that it installs, PQN by its partition. -/
theorem modesChange : Obligations.ModesChange := by
  unfold Obligations.ModesChange
  intro s mask
  refine ⟨fun code => execPmGo_of_refused, ?pending, fun hst => if_pos hst, ?effect, ?quotas⟩
  case pending =>
    intro hst htest hresident
    have hbusy : (s.pmPending mask).closingBusy = true := hresident
    exact ⟨_, (execPmGo_of_allowed hst htest).trans (congrArg _ (if_pos hbusy)), rfl, rfl, rfl, rfl⟩
  case effect =>
    intro hst hfree htest
    obtain ⟨hend, hclosing, hparts⟩ := pmEnd_ends (s.installQuotas s.closing) 2 0
    refine ⟨_, execPmTakeEffect_of_allowed hst hfree htest, hend, hclosing, fun p hp hm => ?_⟩
    have hpart : ((s.installQuotas s.closing).pmEnd 2 0).part p = (s.installQuotas s.closing).part p := by rw [State.part, hparts, State.part]
    rw [hpart, part_installQuotas hp hm]
    exact ⟨rfl, rfl⟩
  case quotas =>
    intro p val hp hopen
    exact ⟨_, _, execPqnWrite_of_open hp hopen false val, execPqnWrite_of_open hp hopen true val, part_of_alSet rfl, part_of_alSet rfl⟩

end Sys2Proof.Machine

namespace Sys2Proof.Machine

/-! # Power control, Fumarole and trace samples (10 R290, R292, 13 R341 to R346, R353 to R356) -/

section
variable {s : State}

/-! ## Power -/

/-- The state in which a measurement has been taken: PWR is the mean of the last ten (13 R355). -/
def State.measured (s : State) (power : Nat) : State :=
  { s with pwrTicks := s.pwrTicks + 1, pwrSeen := (power :: s.pwrSeen).take 10, pwr := meanOf ((power :: s.pwrSeen).take 10) % 65536 }

/-- A measurement that is due moves the controller by whether it is above an enabled cap. -/
theorem execPowerCapMeasure_of_due (hdue : (s.pwrTicks + 1) * 100000 ≤ s.time) (power : Nat) (move : Bool) (h : BitVec 8) :
    execPowerCapMeasure power move h s = if s.pwrcap.getLsbD 31 = true ∧ s.pwrcap.toNat % 65536 < power
      then .next ((s.measured power).powerMore h)
      else .next (if move then (s.measured power).powerLess h else s.measured power) := by
  simp only [execPowerCapMeasure, Nat.not_lt.mpr hdue, if_false, Bool.and_eq_true, decide_eq_true_eq, State.measured]

/-- A droop stretches the clock of its core, and its counted event changes no core. -/
theorem execDroopDetected_stretches {c : Nat} (hl : s.liveCore c = true) :
    ∃ t, execDroopDetected c s = .next t ∧ (t.core c).stretched = true := by
  refine ⟨_, if_neg (by simp [hl]), ?_⟩
  rw [State.core, countDie_cores, ← State.core, State.modCore, core_setCore]

theorem execDroopRecovered_ends {c : Nat} (hl : s.liveCore c = true) :
    ∃ t, execDroopRecovered c s = .next t ∧ (t.core c).stretched = false := by
  refine ⟨_, if_neg (by simp [hl]), ?_⟩
  rw [State.modCore, core_setCore]

/-! ## Fumarole (13 R343 to R346) -/

/-- A write with a permitted K that sets EN begins a new run of records. -/
theorem execFumctlWrite_of_enable {val : DWord} (hlo : 10 ≤ fumK (val &&& fumMask)) (hhi : fumK (val &&& fumMask) ≤ 24)
    (hoff : fumEn s.fumctl = false) (hon : fumEn (val &&& fumMask) = true) : execFumctlWrite val s =
      .next { s with fumctl := val &&& fumMask, fumtail := 0, fumhead := 0, fumtick := 0, fumfrom := s.time } := by
  have hk : ¬ (fumK (val &&& fumMask) < 10 ∨ 24 < fumK (val &&& fumMask)) := by omega
  simp only [execFumctlWrite, hk, hoff, hon, Bool.false_and, Bool.not_false, Bool.and_self, Bool.false_eq_true, if_false, if_true]

/-- The state in which the record of the next tick has been written. -/
def State.tickWritten (s : State) : State :=
  ({ s with fumtick := s.fumtick + 1 } : State).fumPut s.fumtail.toNat (s.fumRecord (s.fumtick + 1) s.tickAt)

theorem tickWritten_homeChange (s : State) : HomeChange { s with fumtick := s.fumtick + 1 } s.tickWritten :=
  HomeChange.hostPut.trans .hostPut

theorem tickWritten_fumtick (s : State) : s.tickWritten.fumtick = s.fumtick + 1 := by
  rw [(tickWritten_homeChange s).eq, State.withHome]

section
variable (hon : fumEn s.fumctl = true) (hdue : s.tickAt ≤ s.time)
include hon hdue

/-- A record that the ring has no room for is dropped whole. -/
theorem execFumaroleTick_of_full (hfull : fumSize s.fumctl < (s.fumtail - s.fumhead).toNat + (576 + 136 * s.liveCores.length)) :
    execFumaroleTick false s = .next { s with fumtick := s.fumtick + 1, fumdrop := s.fumdrop + 1 } := by
  simp only [execFumaroleTick, hon, Nat.not_lt.mpr hdue, hfull, decide_false, decide_true, Bool.not_true, Bool.or_true, Bool.or_self,
    Bool.false_eq_true, if_false, if_true]

/-- A record that fits is written, and FUMTAIL moves past it. -/
theorem execFumaroleTick_of_room (hroom : (s.fumtail - s.fumhead).toNat + (576 + 136 * s.liveCores.length) ≤ fumSize s.fumctl) :
    execFumaroleTick false s = .next { s.tickWritten with fumtail := s.fumtail + BitVec.ofNat 64 (576 + 136 * s.liveCores.length) } := by
  simp only [execFumaroleTick, hon, Nat.not_lt.mpr hdue, Nat.not_lt.mpr hroom, decide_false, Bool.not_true, Bool.or_self,
    Bool.false_eq_true, if_false, State.tickWritten]

end

/-! ## Trace samples (13 R353) -/

theorem samplePeriod_of_enabled {d : VDev} (hon : d.trsamp.toNat / 32 % 2 = 1) (hlo : 8 ≤ d.trsamp.toNat % 32)
    (hhi : d.trsamp.toNat % 32 ≤ 20) : d.samplePeriod = some (2 ^ (d.trsamp.toNat % 32)) :=
  if_pos ⟨hon, hlo, hhi⟩

/-- In a cycle of the period that has no sample yet, a thread of the lowest lane's pass is sampled. -/
theorem execTraceSample_of_due {c gid v n : Nat} {g : Group} {cl : Clause} (hlane : (s.core c).lowestLane = some gid)
    (hg : s.group? c gid = some g) (hv : (s.ctx g.ctx).dbgVd = some v) (hcl : g.clause = some cl) (hn : (s.vd v).samplePeriod = some n)
    (hdue : s.clk c % n = 0) (hone : (s.core c).sampled ≠ some (s.clk c)) (hts : slotsOf (g.atPc cl.pc) ≠ []) :
    execTraceSample c s = .next ((({ s with free := s.free + 1 } : State).modCore c fun k => { k with sampled := some (s.clk c) }).trace c gid
      ((slotsOf (g.atPc cl.pc)).getD (Config.freeIdx s.free (slotsOf (g.atPc cl.pc)).length) 0) 3 0) := by
  simp only [execTraceSample, hlane, hg, hv, hcl, hn, hdue, hone, hts, ne_eq, not_false_eq_true, and_self, if_true]

end

/-- Settles O47: each write by its range, a measurement by the cap, a tick by the ring's room, a sample by its cycle. -/
theorem powerAndFumarole : Obligations.PowerAndFumarole := by
  unfold Obligations.PowerAndFumarole
  intro s
  refine ⟨fun d val hlo hhi hh => if_pos ⟨hlo, hhi, hh⟩, fun val hlo hhi => if_pos ⟨hlo, hhi⟩, ?measured, rfl, rfl,
    fun c hl => ⟨execDroopDetected_stretches hl, execDroopRecovered_ends hl⟩, fun val => execFumctlWrite_of_enable,
    fun val hin => if_pos hin, ?ticked, ?sampled⟩
  case measured =>
    intro power h hdue
    have hexec := execPowerCapMeasure_of_due hdue power
    refine ⟨fun hon hover move => (hexec move h).trans (if_pos ⟨hon, hover⟩), fun hwithin => ?_⟩
    have hno : ¬ (s.pwrcap.getLsbD 31 = true ∧ s.pwrcap.toNat % 65536 < power) := fun ⟨hon, hover⟩ =>
      hwithin.elim (Nat.not_le.mpr hover) (Bool.eq_false_iff.mp · hon)
    exact ⟨(hexec false h).trans (if_neg hno), (hexec true h).trans (if_neg hno)⟩
  case ticked =>
    rintro len rfl hon hdue
    exact ⟨execFumaroleTick_of_full hon hdue, fun hroom => ⟨_, execFumaroleTick_of_room hon hdue hroom, rfl, tickWritten_fumtick s⟩⟩
  case sampled =>
    intro c gid g v cl hlane hg hv hcl w ts hon hlo hhi hdue hts hone
    exact execTraceSample_of_due hlane hg hv hcl (samplePeriod_of_enabled hon hlo hhi) hdue hone hts

end Sys2Proof.Machine

namespace Sys2Proof.Machine

/-! # Trap entry (11 R296, R297) -/

section
variable {g : Group} {f : PassFault}

/-- Every thread that the fault record names is in FMASK. -/
theorem takeTrap_fmask {x : ThFault} (hx : x ∈ f.faults) (hs : x.slot < 32) : (g.takeTrap f).fmask.getLsbD x.slot = true := by
  change (maskWhere fun i => (f.faults.find? (·.slot == i)).isSome).getLsbD x.slot = true
  rw [maskWhere_getLsbD, decide_eq_true hs, Bool.true_and, List.find?_isSome]
  exact ⟨x, hx, beq_self_eq_true _⟩

/-- The handler set goes to TRAPV and waits for nothing; every other thread stays as it is. -/
theorem takeTrap_th {i : Nat} (hi : i < g.threads.length) :
    (g.takeTrap f).th i = if g.handlerSet.getLsbD i then { g.th i with pc := g.trapv, wait := .none } else g.th i :=
  modThs_th _ _ _ _ hi

/-- TPC takes the address of every thread of the handler set. -/
theorem takeTrap_tpc {i : Nat} (hi : i < 32) (hs : g.handlerSet.getLsbD i = true) : (g.takeTrap f).tpc.getD i 0 = (g.th i).pc := by
  change ((List.range 32).map fun i => if g.handlerSet.getLsbD i then (g.th i).pc else g.tpc.getD i 0).getD i 0 = _
  rw [List.getD_eq_getElem?_getD, List.getElem?_map, List.getElem?_range hi, Option.map_some, Option.getD_some, if_pos hs]

end

/-- An entry that waits for nothing, meets no recorded error and whose trap area takes what is written sets the group. -/
theorem execTrapEntry_of_ready {s t : State} {c gid : Nat} {g : Group} {f : PassFault} (hg : s.group? c gid = some g)
    (hf : g.firstFault = some f) (hready : s.trapReady c gid g = true) (hdue : g.dueMask g.active = 0)
    (hw : s.trapWrites c gid g (g.takeTrap f) (slotsOf g.handlerSet) = .ok t) :
    execTrapEntry c gid s = .next (t.setGroup c gid (g.takeTrap f)) := by
  simp [execTrapEntry, hg, hf, hready, hdue, hw]

/-- Settles O25: the entry as one equation, and the group that it sets field by field. -/
theorem trapEntryTakesTheTrap : Obligations.TrapEntryTakesTheTrap := by
  unfold Obligations.TrapEntryTakesTheTrap
  intro c gid s t g f hg hf hready hdue hw
  refine ⟨execTrapEntry_of_ready hg hf hready hdue hw, rfl, rfl, rfl, rfl, fun _ => takeTrap_fmask,
    fun i hi h32 hs => ⟨?_, takeTrap_tpc h32 hs⟩⟩
  rw [takeTrap_th hi, if_pos hs]

end Sys2Proof.Machine

namespace Sys2Proof.Machine

/-! # Return from the handler (11 R301, 16 R434) -/

/-! ## RTE -/

/-- The front of a pass that reads no operand goes on to the instruction's own effect. -/
theorem prePass_plain {s : State} {p : Pass} (i : Instr) (k : Pass → List SVal → Mask → State) (hp : s.pass? = some p) (hin : p.ex ≠ 0#32) :
    s.prePass i false false (fun _ => []) [] false k = k p [] 0#32 :=
  prePass_ready i k hp hin rfl (fun h => absurd h Bool.false_ne_true) fun h => absurd h Bool.false_ne_true

/-- The group of a pass whose threads have executed RTE or RTE.SKIP in the handler. -/
def Pass.returning (p : Pass) (skip : Bool) : Group :=
  { p.g.modThs p.ex (fun _ t => { t with starve := 0 }) with
    rteDone := p.g.rteDone ||| p.ex, rteSkip := if skip then p.g.rteSkip ||| p.ex else p.g.rteSkip }

theorem returning_ready {p : Pass} (hr : p.g.ready p) (skip : Bool) : (p.returning skip).ready p :=
  (hr.threads p.ex (fun _ t => { t with starve := 0 }) (fun _ _ => rfl) fun _ _ => rfl).same rfl rfl rfl rfl rfl

/-- RTE in the handler records its threads, which stay on it. -/
theorem execRte_records {s : State} {p : Pass} (skip : Bool) (hp : s.pass? = some p) (ho : p.orderly = true) (hh : p.g.handler = true) :
    execRte skip s = .next (s.goesTo p (.rte skip) (p.returning skip) (p.noRes (.rte skip)) fun _ => p.cl.pc) := by
  rw [execRte, prePass_plain _ _ hp (orderly_iff ho).1]
  rw [if_neg (by simp [hh]), modGroup_of s _ (pass_facts hp).1]
  change Host.Outcome.next ((s.setGroup p.core p.gid (p.returning skip)).go p (.rte skip) p.ex [] fun _ => p.cl.pc) = _
  rw [go_of _ _ (group?_setGroup ..) (returning_ready (ready_self hp ho) skip) ho, goesTo_setGroup]

/-! ## The return -/

/-- Where a returning thread goes: its saved PC, past the instruction there for one of FMASK that skips. -/
theorem returnTrap_pc {g : Group} (f : DWord → DWord) {i : Nat} (hi : i < g.threads.length) (hs : g.hset.getLsbD i = true)
    (ha : g.active.getLsbD i = true) : ((g.returnTrap f).th i).pc =
      if g.fmask.getLsbD i && g.rteSkip.getLsbD i then f (g.tpc.getD i 0) else g.tpc.getD i 0 := by
  have hm : (g.hset &&& g.active).getLsbD i = true := by rw [BitVec.getLsbD_and, hs, ha, Bool.true_and]
  refine (congrArg Thread.pc (modThs_th g (g.hset &&& g.active) _ i hi)).trans ?_
  rw [if_pos hm]

/-! ## The frontier after a return -/

theorem listMod_eq_self {α : Type} {l : List α} {i : Nat} {f : α → α} (h : ∀ x, l[i]? = some x → f x = x) : listMod l i f = l := by
  induction l generalizing i with
  | nil => rfl
  | cons x r ih =>
    cases i with
    | zero => rw [listMod, h x rfl]
    | succ n => rw [listMod, ih fun y hy => h y hy]

/-- A thread that is not held and stands at no meet is left as it is. -/
theorem testMeet_of_clear {s : State} {c gid i : Nat} {g : Group} (hh : (g.th i).held = false)
    (hm : (g.th i).st = .active → (g.th i).pc ≠ (g.th i).meet) (fuel : Nat) :
    (s.setGroup c gid g).testMeet c gid i fuel = s.setGroup c gid g := by
  cases fuel with
  | zero => rfl
  | succ n =>
    have hclear : ((g.th i).st != .active || (g.th i).pc != (g.th i).meet) = true := by
      by_cases ha : (g.th i).st = .active
      · simp [hm ha]
      · simp [ha]
    have hsame : g.modTh i (fun t => { t with held := false, starve := t.starve }) = g := by
      refine congrArg (fun ts => { g with threads := ts }) (listMod_eq_self fun t ht => ?_)
      have hth : g.th i = t := by rw [Group.th, List.getD_eq_getElem?_getD, ht]; rfl
      rw [← hth, ← hh]
    simp only [State.testMeet, group?_setGroup, hclear, if_true, modGroup_setGroup]
    exact congrArg (s.setGroup c gid) hsame

/-- A return that waits for no walk leaves the frontier as its saved addresses have it, where these hold no thread at
a meet. -/
theorem recompute_of_return {s : State} {c gid : Nat} {g : Group} (hg : s.group? c gid = some g) (hready : g.rteReady = true)
    (hwalk : s.skipMiss c g = none) (hclear : ∀ i, ((g.returnTrap (s.insnAfter c g)).th i).held = false ∧
      (((g.returnTrap (s.insnAfter c g)).th i).st = .active →
        ((g.returnTrap (s.insnAfter c g)).th i).pc ≠ ((g.returnTrap (s.insnAfter c g)).th i).meet)) :
    s.recompute c gid = s.setGroup c gid (g.returnTrap (s.insnAfter c g)) := by
  simp only [State.recompute, hg, hready, if_true, hwalk]
  exact List.foldlRecOn (motive := fun t => t = s.setGroup c gid (g.returnTrap (s.insnAfter c g))) _ _ rfl
    fun t ht i _ => ht ▸ testMeet_of_clear (hclear i).1 (hclear i).2 257

/-- Settles O26: RTE as one equation; the threads that a return moves; and the issue after it, whose frontier is the
returned group. -/
theorem rteReturns : Obligations.RteReturns := by
  unfold Obligations.RteReturns
  refine ⟨fun skip s p => execRte_records skip, fun g f => ⟨rfl, rfl, fun i => returnTrap_pc f⟩, ?issue⟩
  case issue =>
    intro s c gid g hg hready hwalk h t hclear
    have hrec : s.recompute c gid = t := recompute_of_return hg hready hwalk hclear
    have hgt : (s.recompute c gid).group? c gid = some h := hrec ▸ group?_setGroup ..
    refine ⟨hrec, fun hmay hmayt pc p w => ⟨fun hf => ?_, fun hf => ?_⟩⟩
    · rw [exec_fullIssue_of_hdr hmay (hrec ▸ hmayt) hgt (hrec ▸ hf), hrec]
    · rw [exec_resumedIssue_of_mid hmay (hrec ▸ hmayt) hgt (hrec ▸ hf), hrec]

end Sys2Proof.Machine

namespace Sys2Proof.Machine

/-! # Faults that suspend the context (11 R295, R299, R305) -/

/-! ## A suspended context -/

theorem Group.edit_ctx (g : Group) (e : Nat × Nat × DWord) : (g.edit e).ctx = g.ctx := by
  unfold Group.edit
  dsimp only
  repeat' split
  all_goals rfl

theorem Group.applyEdits_ctx (g : Group) : g.applyEdits.ctx = g.ctx := by
  unfold Group.applyEdits
  split
  · rfl
  · exact List.foldlRecOn (motive := fun h : Group => h.ctx = g.ctx) _ _ rfl fun h hh e _ => (h.edit_ctx e).trans hh

/-- The end of a clause leaves every group slot to its context. -/
theorem dropClause_groupCtx (s : State) (d j c gid : Nat) : ((s.dropClause d j).group? c gid).map (·.ctx) = (s.group? c gid).map (·.ctx) := by
  by_cases hm : d = c ∧ j = gid
  · obtain ⟨rfl, rfl⟩ := hm
    unfold State.dropClause
    split
    · rename_i x hx
      split
      · simp [hx, Group.applyEdits_ctx]
      · rfl
    · rfl
  · rw [dropClause_ne hm]

/-- A context that a stop of a code has suspended at an address: no group of it runs a clause. -/
structure State.Suspended (s : State) (x : Nat) (code : FCode) (pc : DWord) : Prop where
  st : (s.ctx x).st = .saving
  reason : (s.ctx x).reason = .fault
  code : (s.ctx x).code = some code
  stoppc : (s.ctx x).stoppc = pc
  idle : ∀ c gid g, s.group? c gid = some g → g.ctx = x → g.clause = none

section
variable {s : State} {c gid : Nat} {g : Group}

/-- No group of a context that halts runs a clause. -/
theorem haltGroups_idle (x : Nat) (hg : (s.haltGroups x).group? c gid = some g) (hx : g.ctx = x) : g.clause = none := by
  have hctx := haltGroups_keeps (s := s) (fun t => (t.group? c gid).map (·.ctx)) (fun t d j => dropClause_groupCtx t d j c gid) x
  rw [hg, Option.map_some] at hctx
  obtain ⟨g0, hg0, hx0⟩ := Option.map_eq_some_iff.mp hctx.symm
  have hcl := haltGroups_clauseless hg0
  rw [hx0, hx, State.clauseless, hg] at hcl
  exact hcl

@[simp] theorem ctx_setCtx (s : State) (c : Nat) (x : Context) : (s.setCtx c x).ctx c = x := by
  simp [State.ctx, State.setCtx]

/-- The first stop of an active context suspends it (11 R305, R307). -/
theorem stopCtx_suspends {x : Nat} (code : FCode) (sub : BitVec 8) (pc : DWord) (loc : Word) (hst : (s.ctx x).st = .active)
    (hco : (s.ctx x).code = none) : (s.stopCtx x code sub pc loc).Suspended x code pc := by
  have hctx : (s.stopCtx x code sub pc loc).ctx x = { (s.ctx x).record code sub pc loc with st := .saving } := by
    rw [stopCtx_active _ _ _ _ _ hst, haltGroups_keeps (fun t => t.ctx x) (fun t d j => by simp only [State.ctx, dropClause_ctxs]), ctx_setCtx]
  refine ⟨by rw [hctx], ?_, ?_, ?_, fun c gid g hg hx => ?_⟩
  case refine_4 =>
    rw [stopCtx_active _ _ _ _ _ hst] at hg
    exact haltGroups_idle x hg hx
  all_goals
    rw [hctx]
    simp [Context.record, hst, hco]

/-- A Stop fault outside a handler suspends the context, and any fault in one does, with DOUBLE_FAULT (11 R295, R299). -/
theorem raise_suspends {code : FCode} {pf : PassFault} (hg : s.group? c gid = some g) (hst : (s.ctx g.ctx).st = .active)
    (hco : (s.ctx g.ctx).code = none) (hne : pf.faults ≠ []) (hfs : ∀ f ∈ pf.faults, f.code = code) (hd : code ≠ .dieLost)
    (hu : g.handler = false → code.isUser = false) :
    (s.raise c gid pf).Suspended g.ctx (if g.handler then .doubleFault else code) pf.pc ∧ (s.raise c gid pf).clauseless c gid := by
  have hnd : pf.faults.any (fun f => f.code == .dieLost) = false := by
    rw [List.any_eq_false]
    intro f hf
    simp [hfs f hf, hd]
  obtain ⟨x, r, hx⟩ := List.exists_cons_of_ne_nil hne
  unfold State.raise
  rw [hg, hx]
  dsimp only
  rw [← hx, hnd, if_neg Bool.false_ne_true]
  cases hh : g.handler with
  | true => exact ⟨stopCtx_suspends _ _ _ _ hst hco, stopCtx_clauseless _ _ _ _ hg hst⟩
  | false =>
    obtain ⟨f, hff, rfl⟩ := firstStop_of hne hfs (hu hh)
    rw [hff]
    exact ⟨stopCtx_suspends _ _ _ _ hst hco, stopCtx_clauseless (g := g.recordFault _) _ _ _ _ (group?_setGroup ..) hst⟩

end

section
variable {s : State} {p : Pass} {g : Group} {fs : List ThFault}

/-- The faults of a pass strike once its threads of `ok` have gone on. -/
theorem passStep_raises (len : Nat) (fi : Word) (ok : Mask) (b : BRes) (dest : Nat → DWord) (hg : s.group? p.core p.gid = some g)
    (hr : g.ready p) : s.passStep p.core p.gid len fi ok fs b dest =
      (s.setGroup p.core p.gid (g.passed p.cl len ok (faultMask fs) b dest)).raise p.core p.gid ⟨p.cl.pos, p.cl.pc, fi, fs⟩ := by
  simp only [State.passStep, hg, hr.clause, unstepped_mask hr.unstepped, traceAll_zero]

/-- A pass with faults that suspend its context ends there. -/
theorem passEnd_suspends {code : FCode} (len : Nat) (fi : Word) (ok : Mask) (b : BRes) (dest : Nat → DWord)
    (hg : s.group? p.core p.gid = some g) (hr : g.ready p) (hst : (s.ctx p.g.ctx).st = .active) (hco : (s.ctx p.g.ctx).code = none)
    (hne : fs ≠ []) (hfs : ∀ f ∈ fs, f.code = code) (hd : code ≠ .dieLost) (hu : g.handler = false → code.isUser = false) :
    (s.passEnd p.core p.gid len fi ok fs b dest).Suspended p.g.ctx (if g.handler then .doubleFault else code) p.cl.pc := by
  have hctx : (g.passed p.cl len ok (faultMask fs) b dest).ctx = p.g.ctx := hr.ctx
  obtain ⟨hstop, hcl⟩ := raise_suspends (s := s.setGroup p.core p.gid (g.passed p.cl len ok (faultMask fs) b dest))
    (pf := ⟨p.cl.pos, p.cl.pc, fi, fs⟩) (group?_setGroup ..) (by rw [hctx]; exact hst) (by rw [hctx]; exact hco) hne hfs hd hu
  rw [State.passEnd, passStep_raises len fi ok b dest hg hr, clauseless_over hcl, if_neg Bool.false_ne_true, ← hctx]
  exact hstop

end

/-! ## TRAP in a handler, and without a trap vector -/

section
variable {s : State} {p : Pass}

/-- The group of a pass that some thread executes stands ready to end it. -/
theorem ready_executing (hp : s.pass? = some p) (hex : p.ex ≠ 0#32) (hun : p.g.unstepped = true) : p.g.ready p := by
  obtain ⟨_, hcl, hx⟩ := pass_facts hp
  exact ⟨hcl, hun, active_ne (hx ▸ hex), rfl, rfl, rfl⟩

theorem faultsOf_code {m : Mask} {code : FCode} {a : DWord} : ∀ f ∈ faultsOf m code a, f.code = code := by
  intro f hf
  obtain ⟨_, _, rfl⟩ := List.mem_map.mp hf
  rfl

/-- TRAP is a pass whose threads all fault. -/
theorem execTrap_faults (hp : s.pass? = some p) (hex : p.ex ≠ 0#32) (u : Bool) (n : BitVec 7) :
    execTrap u n s = .next (s.fin p (.trap u n) 0 (faultsOf p.ex .trap 0)) := by
  rw [execTrap, prePass_plain _ _ hp hex]

/-- A clause that has ended with a TRAP pending and no trap vector suspends the context (11 R295). -/
theorem settle_suspends {c gid : Nat} {g : Group} {pf : PassFault} (hg : s.group? c gid = some g) (hpend : g.pend = [pf])
    (htv : g.trapv = 0) (hst : (s.ctx g.ctx).st = .active) (hco : (s.ctx g.ctx).code = none) (hed : g.debugEdits = [])
    (hfs : ∀ f ∈ pf.faults, f.code = .trap) :
    (s.settle c gid).Suspended g.ctx .trap pf.pc ∧ (s.settle c gid).group? c gid = some (g.recordFault pf).withoutClause := by
  have hfirst : g.firstFault = some pf := by rw [Group.firstFault, hpend]; rfl
  have hst' : ((s.setGroup c gid (g.recordFault pf)).ctx g.ctx).st = .active := hst
  have hcode : ((pf.faults.find? (·.slot == lowSlot (faultMask pf.faults))).map (·.code)).getD .trap = .trap := by
    cases hf : pf.faults.find? (·.slot == lowSlot (faultMask pf.faults)) with
    | none => rfl
    | some f => exact hfs f (List.mem_of_find?_eq_some hf)
  simp only [State.settle, hg, hfirst, htv, beq_self_eq_true, if_true, hcode]
  refine ⟨stopCtx_suspends _ _ _ _ hst' hco, ?_⟩
  rw [stopCtx_active _ _ _ _ _ hst']
  exact haltGroups_group (s := (s.setGroup c gid (g.recordFault pf)).setCtx _ _) (g := g.recordFault pf) (group?_setGroup ..) hed

/-- The end of a clause of no region, with no edit waiting: its group is settled, and retires if it may. -/
theorem finishClause_settles {c gid : Nat} {g : Group} {cl : Clause} (w : GWait) (hg : s.group? c gid = some g) (hc : g.clause = some cl)
    (hre : cl.re = false) (hed : g.debugEdits = []) : s.finishClause c gid w =
      (((s.setGroup c gid { g with clause := none, ylast := cl.yld, wait := w }).freeLane c cl.lane).settle c gid).tryRetire c gid := by
  have hae : ({ g with clause := none } : Group).applyEdits = { g with clause := none } := by
    simp [Group.applyEdits, hed]
  have hd : s.dropClause c gid = (s.setGroup c gid { g with clause := none }).freeLane c cl.lane := by
    simp only [State.dropClause, hg, hc, hae]
  simp only [State.finishClause, hg, hc, hre, Bool.false_eq_true, if_false, hd]
  rw [modGroup_of _ (g := { g with clause := none }) _ (by simp), freeLane_setGroup, setGroup_setGroup]

/-- The end of a clause with a TRAP pending and no trap vector. -/
theorem endClause_suspends {c gid : Nat} {g : Group} {cl : Clause} {pf : PassFault} (hg : s.group? c gid = some g)
    (hc : g.clause = some cl) (hre : cl.re = false) (hed : g.debugEdits = []) (hact : g.active ≠ 0#32) (hpend : g.pend = [pf])
    (htv : g.trapv = 0) (hst : (s.ctx g.ctx).st = .active) (hco : (s.ctx g.ctx).code = none) (hfs : ∀ f ∈ pf.faults, f.code = .trap) :
    (s.endClause c gid).Suspended g.ctx .trap pf.pc := by
  obtain ⟨hsus, hgrp⟩ := settle_suspends (s := (s.setGroup c gid { g with clause := none, ylast := cl.yld, wait := .none }).freeLane c cl.lane)
    ((group?_freeLane ..).trans (group?_setGroup ..)) hpend htv hst hco hed hfs
  rw [State.endClause, finishClause_settles .none hg hc hre hed, tryRetire_active hgrp hact]
  exact hsus

theorem withFaults_active (g : Group) (p : Pass) (len : Nat) (fi : Word) (ok : Mask) (fs : List ThFault) (b : BRes) (dest : Nat → DWord) :
    (g.withFaults p len fi ok fs b dest).active = g.active := passed_active g p.cl len ok (faultMask fs) b dest

theorem withFaults_pend (g : Group) (p : Pass) (len : Nat) (fi : Word) (ok : Mask) (fs : List ThFault) (b : BRes) (dest : Nat → DWord) :
    (g.withFaults p len fi ok fs b dest).pend = g.pend ++ [⟨p.cl.pos, p.cl.pc, fi, fs⟩] := rfl

/-- User faults outside a handler wait for the end of the clause. -/
theorem passStep_pends {fs : List ThFault} (len : Nat) (fi : Word) (ok : Mask) (b : BRes) (dest : Nat → DWord)
    (hp : s.pass? = some p) (hr : p.g.ready p) (hh : p.g.handler = false) (hne : fs ≠ []) (hu : ∀ f ∈ fs, f.code.isUser = true) :
    s.passStep p.core p.gid len fi ok fs b dest = s.setGroup p.core p.gid (p.g.withFaults p len fi ok fs b dest) := by
  rw [passStep_raises len fi ok b dest (pass_facts hp).1 hr,
    raise_user (g := p.g.passed p.cl len ok (faultMask fs) b dest) (group?_setGroup ..) hh hne hu, setGroup_setGroup]
  rfl

end

/-! ## An uncorrectable operand (03 R102) -/

/-- The integer and bit instructions read every operand word and meet no fault of their own, whatever their operands. -/
theorem form_intBit (s : State) {i : Instr} {r : LaneRow} (h : intRow i = some r ∨ bitRow i = some r) : ∃ o f sp, LaneForm s i r o f sp ∧
    o.lazyUe = false ∧ r.forceUni = false ∧ ∀ p vs t, (f p vs t).fault = none ∧ (f p vs t).ex = 0 := by
  rcases h with h | h
  case' inl => unfold intRow at h; split at h; case' h_5 q x => cases x
  case' inr => unfold bitRow at h; split at h; case' h_12 q x => cases x
  all_goals cases h
  all_goals exact ⟨_, _, _, ⟨rfl, rfl, ⟨rfl, rfl, rfl, rfl, rfl, rfl⟩, ⟨rfl, rfl⟩,
    fun _ _ _ _ _ => ⟨rfl, rfl⟩⟩, rfl, rfl, fun _ _ _ => ⟨rfl, rfl⟩⟩

/-- The slots in which some operand holds an uncorrectable word. -/
def badSlots (vs : List SVal) : Mask := vs.foldl (fun m v => m ||| v.ue) 0

theorem badSlots_getLsbD (vs : List SVal) (k : Nat) : (badSlots vs).getLsbD k = vs.any fun v => v.ue.getLsbD k := by
  have key (m : Mask) : (vs.foldl (fun m v => m ||| v.ue) m).getLsbD k = (m.getLsbD k || vs.any fun v => v.ue.getLsbD k) := by
    induction vs generalizing m with
    | nil => simp
    | cons v l ih => rw [List.foldl_cons, ih, List.any_cons, BitVec.getLsbD_or, Bool.or_assoc]
  exact (key 0).trans (by simp)

section
variable {s : State} {p : Pass} {i : Instr} {r : LaneRow} {o : LOp} {f : Pass → List SVal → Nat → TR}
  {sp : Pass → List SVal → Option (Shape × Shape)}

/-- Executing threads among those that read an uncorrectable word. -/
theorem badSlots_executing {srcs : List (Src × Bool)} (h : (srcs.any fun (a, pair) => ((p.src a pair).ue &&& p.ex) != 0) = true) :
    p.ex &&& badSlots (p.svals srcs) ≠ 0#32 := by
  obtain ⟨x, hx, hbad⟩ := List.any_eq_true.mp h
  intro hz
  refine (by simpa using hbad : (p.src x.1 x.2).ue &&& p.ex ≠ 0#32) (BitVec.eq_of_getLsbD_eq fun k hk => ?_)
  have hk : (p.ex &&& badSlots (p.svals srcs)).getLsbD k = false := by rw [hz]; simp
  rw [BitVec.getLsbD_and, badSlots_getLsbD] at hk
  rw [BitVec.getLsbD_and, BitVec.getLsbD_zero]
  cases hv : (p.src x.1 x.2).ue.getLsbD k with
  | false => rfl
  | true =>
    have hany : (p.svals srcs).any (fun v => v.ue.getLsbD k) = true := List.any_eq_true.mpr ⟨_, List.mem_map_of_mem hx, hv⟩
    rw [hany, Bool.and_true] at hk
    rw [hk, Bool.and_false]

/-- The front of a lane pass without channels hands the threads with uncorrectable words to the instruction. -/
theorem laneFront_ue (hp : s.pass? = some p) (hex : p.ex ≠ 0#32) (F : LaneForm s i r o f sp) (hlazy : o.lazyUe = false) (hu : r.u = false)
    (hfu : r.forceUni = false) (hc : r.chan = false) (hheld : (r.regs.all fun n => !(s.core p.core).bHeld p.gid p.g n) = true)
    (k : Pass → List SVal → Mask → State) : s.laneFront o k = k p (p.svals r.srcs) (p.ex &&& badSlots (p.svals r.srcs)) := by
  obtain ⟨c1, c2, c3⟩ := F.agrees.chans hc
  have hch : o.srcs.any (fun (a, _) => a.chan.isSome) = false := by
    simp only [LaneRow.chan, Bool.or_eq_false_iff] at hc
    rw [F.agrees.srcs]
    exact hc.1
  have hfree : (r.regs.any fun n => (s.core p.core).bHeld p.gid p.g n) = false := by
    rw [List.any_eq_false]
    intro n hn
    simpa using List.all_eq_true.mp hheld n hn
  have hz : (p.ex == 0) = false := by simpa using hex
  unfold State.laneFront badSlots
  simp only [hp, hz, readSrcs_plain s p o hch, F.agrees.srcs, F.agrees.u, hu, F.agrees.uni,
    hfu, hlazy, c1, c2, c3, F.plain.1, F.plain.2, F.agrees.regs,
    hfree, Bool.or_self, Bool.false_and, Bool.false_eq_true, if_false, List.append_nil, Option.toList_none, List.any_nil]

/-- A state before the end of a pass: its group stands ready to end it, and no context has changed. -/
structure BeforeEnd (s : State) (p : Pass) (t : State) : Prop where
  group : ∃ g, t.group? p.core p.gid = some g ∧ g.ready p ∧ g.handler = p.g.handler
  ctxs : t.ctxs = s.ctxs

theorem BeforeEnd.ite {t u : State} {c : Prop} [Decidable c] (h : BeforeEnd s p t) (k : BeforeEnd s p u) :
    BeforeEnd s p (if c then t else u) := by
  split
  · exact h
  · exact k

/-- What a lane pass without channels writes for its committed threads leaves the pass to be ended. -/
theorem beforeEnd_laneEffect (hp : s.pass? = some p) (hr : p.g.ready p) (c1 : o.chanSrcs = []) (c2 : o.chanDst = none) (ok : Mask)
    (full : Bool) (good : List (Nat × TR)) (c : Cols) : BeforeEnd s p (s.laneEffect o p ok full good c fun _ _ s => s) := by
  have hpop : s.popAll p o = s := by simp [State.popAll, LOp.pops, c1]
  obtain ⟨q1, q2, -, q4, q5, q6⟩ := putG_same o p.g ok full c.lo c.hi c.sp
  obtain ⟨fsr, hfold, -⟩ := orFsr_fold good (o.putG p.g ok full c.lo c.hi c.sp)
  rw [State.laneEffect, hpop, writeDst_mod o (pass_facts hp).1 c2, hfold]
  exact ⟨⟨_, group?_setGroup .., hr.same q1 q2 q4 q5 q6, (putG_trap ..).1⟩, rfl⟩

/-- A lane pass with uncorrectable operand words ends with MEM_UE in their threads and with no other fault. -/
theorem laneOp_ue (hp : s.pass? = some p) (hr : p.g.ready p) (hex : p.ex ≠ 0#32) (F : LaneForm s i r o f sp) (hlazy : o.lazyUe = false)
    (hu : r.u = false) (hfu : r.forceUni = false) (hc : r.chan = false)
    (hheld : (r.regs.all fun n => !(s.core p.core).bHeld p.gid p.g n) = true) (hf : ∀ p vs t, (f p vs t).fault = none ∧ (f p vs t).ex = 0) :
    ∃ t ok b, BeforeEnd s p t ∧ exec i s = .next (t.passEnd p.core p.gid (lenOf i) (finfoWord (headOf i)) ok
      (faultsOf (p.ex &&& badSlots (p.svals r.srcs)) .memUe 0) b fun _ => p.cl.after (lenOf i)) := by
  obtain ⟨c1, c2, -⟩ := F.agrees.chans hc
  have hnone (m : Mask) : laneFaults p (laneResults o p (p.svals r.srcs) f m) = [] := by
    refine laneFaults_none fun x hx => ?_
    obtain ⟨t, -, rfl⟩ := List.mem_map.mp hx
    obtain ⟨hfault, hexc⟩ := hf p (p.svals r.srcs) (if o.u then lowSlot p.ex else t)
    exact ⟨hfault, by rw [hexc, fpeOf_zero]⟩
  rw [F.exec, State.laneOp, laneFront_ue hp hex F hlazy hu hfu hc hheld]
  simp only [hnone, List.append_nil, F.instr]
  exact ⟨_, _, _, .ite ⟨⟨p.g, (pass_facts hp).1, hr, rfl⟩, rfl⟩ (beforeEnd_laneEffect hp hr c1 c2 ..), rfl⟩
end

/-! ## The three ways -/

section
variable {s : State} {p : Pass} (hp : s.pass? = some p) (hex : p.ex ≠ 0#32) (hun : p.g.unstepped = true)
  (hst : (s.ctx p.g.ctx).st = .active) (hco : (s.ctx p.g.ctx).code = none)
include hp hex hun hst hco

/-- An integer or bit instruction with an uncorrectable operand word, outside a handler. -/
theorem exec_ue_suspends {i : Instr} {r : LaneRow} (h : intRow i = some r ∨ bitRow i = some r) (hu : r.u = false) (hc : r.chan = false)
    (hh : p.g.handler = false) (hheld : (r.regs.all fun n => !(s.core p.core).bHeld p.gid p.g n) = true)
    (hbad : (r.srcs.any fun (a, pair) => ((p.src a pair).ue &&& p.ex) != 0) = true) :
    ∃ t, exec i s = .next t ∧ t.Suspended p.g.ctx .memUe p.cl.pc := by
  obtain ⟨o, f, sp, F, hlazy, hfu, hf⟩ := form_intBit s h
  obtain ⟨t, ok, b, ⟨⟨g, hg, hr, hgh⟩, hctxs⟩, hx⟩ := laneOp_ue hp (ready_executing hp hex hun) hex F hlazy hu hfu hc hheld hf
  have hctx : t.ctx p.g.ctx = s.ctx p.g.ctx := by rw [State.ctx, hctxs, ← State.ctx]
  have hsus := passEnd_suspends (lenOf i) (finfoWord (headOf i)) ok b (fun _ => p.cl.after (lenOf i)) hg hr (hctx ▸ hst) (hctx ▸ hco)
    (faultsOf_ne_nil (badSlots_executing hbad) .memUe 0) faultsOf_code (by decide) fun _ => rfl
  rw [hgh, hh] at hsus
  exact ⟨_, hx, hsus⟩

/-- A fault in handler mode. -/
theorem exec_trap_doubleFaults (hh : p.g.handler = true) (u : Bool) (n : BitVec 7) :
    ∃ t, exec (.trap u n) s = .next t ∧ t.Suspended p.g.ctx .doubleFault p.cl.pc := by
  have hsus := passEnd_suspends (lenOf (.trap u n)) (finfoWord (headOf (.trap u n))) 0
    (p.g.noLatch p.cl.res (headOf (.trap u n)) 0) (fun _ => p.cl.after (lenOf (.trap u n))) (pass_facts hp).1
    (ready_executing hp hex hun) hst hco (faultsOf_ne_nil hex .trap 0) faultsOf_code (by decide) fun h => by simp [hh] at h
  rw [hh] at hsus
  exact ⟨_, execTrap_faults hp hex u n, hsus⟩

/-- A User fault of a group without a trap vector, at the end of its clause. -/
theorem exec_trap_unvectored (hh : p.g.handler = false) (htv : p.g.trapv = 0) (hpe : p.g.pend = []) (hed : p.g.debugEdits = [])
    (hpos : p.cl.pos = p.cl.count) (hre : p.cl.re = false) (u : Bool) (n : BitVec 7) :
    ∃ t, exec (.trap u n) s = .next t ∧ t.Suspended p.g.ctx .trap p.cl.pc := by
  refine ⟨_, execTrap_faults hp hex u n, ?_⟩
  generalize Instr.trap u n = i
  have hr := ready_executing hp hex hun
  rw [State.fin, State.passEnd, passStep_pends _ _ _ _ _ hp hr hh (faultsOf_ne_nil hex .trap 0) fun f hf => by rw [faultsOf_code f hf]; rfl,
    show State.clauseOver _ p.core p.gid = true by simp [State.clauseOver, Group.withFaults, Group.passed, hpos], if_pos rfl]
  refine endClause_suspends (pf := ⟨p.cl.pos, p.cl.pc, finfoWord (headOf i), faultsOf p.ex .trap 0⟩)
    (g := p.g.withFaults p (lenOf i) (finfoWord (headOf i)) 0 (faultsOf p.ex .trap 0) (p.g.noLatch p.cl.res (headOf i) 0)
      fun _ => p.cl.after (lenOf i)) (group?_setGroup ..) rfl hre hed ?active ?pend htv hst hco faultsOf_code
  case active => exact (withFaults_active ..).symm ▸ hr.active
  case pend => rw [withFaults_pend, hpe, List.nil_append]

end

/-- Settles O54: MEM_UE and DOUBLE_FAULT strike with their pass, TRAP without a vector at the end of its clause. -/
theorem stopsSuspendTheContext : Obligations.StopsSuspendTheContext := by
  unfold Obligations.StopsSuspendTheContext
  intro s p hp hex hun hst hco
  have stops {i : Instr} {code : FCode} : (∃ t, exec i s = .next t ∧ t.Suspended p.g.ctx code p.cl.pc) →
      ∃ t, exec i s = .next t ∧ (t.ctx p.g.ctx).st = .saving ∧ (t.ctx p.g.ctx).reason = .fault ∧ (t.ctx p.g.ctx).code = some code ∧
        (t.ctx p.g.ctx).stoppc = p.cl.pc ∧ ∀ c gid g, t.group? c gid = some g → g.ctx = p.g.ctx → g.clause = none :=
    fun ⟨t, hx, h⟩ => ⟨t, hx, h.st, h.reason, h.code, h.stoppc, h.idle⟩
  exact ⟨fun i r hrow hu hc hh hheld hbad => stops (exec_ue_suspends hp hex hun hst hco hrow hu hc hh hheld hbad),
    fun hh u n => stops (exec_trap_doubleFaults hp hex hun hst hco hh u n),
    fun hh htv hpe hed hpos hre u n => stops (exec_trap_unvectored hp hex hun hst hco hh htv hpe hed hpos hre u n)⟩

end Sys2Proof.Machine

namespace Sys2Proof.Machine

/-! # Context commands (11 R303, R305, R308, R309, R316) -/

section
variable {s : State} {ctx : BitVec 12} {c : Nat}

theorem ctxResult_ctx (s : State) (ctx : BitVec 12) (op result c : Nat) : (s.ctxResult ctx op result).ctx c = s.ctx c := rfl

theorem execCtxCreate_of_good (h : s.createFails ctx.toNat = none) : execCtxCreate ctx s =
    .next (((s.setCtx ctx.toNat (s.newCtx (s.homeBytes ⟨false, s.ctxarg.toNat⟩ 128))).moveDeadlines ctx.toNat).ctxResult ctx 1 0) := by
  simp only [execCtxCreate, h]

theorem execCtxCreate_of_bad {r : Nat} (h : s.createFails ctx.toNat = some r) : execCtxCreate ctx s = .next (s.ctxResult ctx 1 r) := by
  simp only [execCtxCreate, h]

theorem execCtxDestroy_of_stopped (h : (s.ctx ctx.toNat).st = .idle ∨ (s.ctx ctx.toNat).st = .saved ∨ (s.ctx ctx.toNat).st = .stopped) :
    execCtxDestroy ctx s = .next ((s.destroy ctx.toNat).ctxResult ctx 2 0) := by
  rcases h with h | h | h <;> simp only [execCtxDestroy, h]

theorem execCtxDestroy_of_active (h : (s.ctx ctx.toNat).st = .active) : execCtxDestroy ctx s = .next (s.ctxResult ctx 2 5) := by
  simp only [execCtxDestroy, h]

/-! ## PREEMPT (11 R305, R308, R309) -/

/-- A G context drains: its groups give up their moves. -/
theorem preempt_of_activeG (hst : (s.ctx c).st = .active) (hcls : (s.ctx c).cls = false) : s.preempt c =
    some ((s.allGroups.filter fun (_, _, g) => g.ctx = c).foldl (fun s (k, gid, _) => s.abandonMove k gid)
      ((s.dropClaims c).modCtx c fun x => { x with st := .draining })) := by
  simp only [State.preempt, hst, hcls, Bool.false_eq_true, if_false]

theorem preempt_of_idle (hst : (s.ctx c).st = .idle) : s.preempt c =
    some ((s.dropClaims c).modCtx c fun x => { x with st := .saving, image := false, reason := .none }) := by
  simp only [State.preempt, hst]

/-- An H context is saved at once: its groups are evicted. -/
theorem preempt_of_activeH (hst : (s.ctx c).st = .active) (hcls : (s.ctx c).cls = true) : s.preempt c =
    some (((s.dropClaims c).modCtx c fun x => { x with st := .saving, image := false, reason := .none }).evictAll c) := by
  simp only [State.preempt, hst, hcls, if_true]

theorem execCtxPreempt_of_some {t : State} (h : s.preempt ctx.toNat = some t) : execCtxPreempt ctx s = .next (t.ctxResult ctx 3 0) := by
  simp only [execCtxPreempt, State.ctxTry, h]

/-! ## RESUME (11 R305, 01 R33) -/

/-- A context whose restore has begun (11 R305, 01 R33). -/
def Context.resumed (x : Context) (cmv : Nat) : Context :=
  { x with st := .restoring, auto := false, reason := .none, code := none, sub := 0, stoppc := 0, stoploc := 0
           ackv := if x.code = some .mapUnack then cmv else x.ackv }

theorem resume_of_image (h : (s.ctx c).st = .saved ∨ ((s.ctx c).st = .stopped ∧ (s.ctx c).image = true ∧ (s.ctx c).code ≠ some .dieLost)) :
    s.resume c = some (s.setCtx c ((s.ctx c).resumed s.cmap.cmv)) := by
  rcases h with hst | ⟨hst, himg, hcode⟩
  · simp [State.resume, hst, Context.resumed]
  · simp [State.resume, hst, himg, hcode, Context.resumed]

theorem resume_of_none (h : (s.ctx c).st = .active ∨ ((s.ctx c).st = .stopped ∧ (s.ctx c).image = false)) : s.resume c = none := by
  rcases h with hst | ⟨hst, himg⟩
  · simp [State.resume, hst]
  · simp [State.resume, hst, himg]

theorem execCtxResume_of_some {t : State} (h : s.resume ctx.toNat = some t) : execCtxResume ctx s = .next (t.ctxResult ctx 4 0) := by
  simp only [execCtxResume, State.ctxTry, h]

theorem execCtxResume_of_none (h : s.resume ctx.toNat = none) : execCtxResume ctx s = .next (s.ctxResult ctx 4 5) := by
  simp only [execCtxResume, State.ctxTry, h]

/-! ## Debug rights (11 R316) -/

theorem execCtxDbggrant_of_device (hst : (s.ctx ctx.toNat).st ≠ .free) (hv : (s.vd (s.ctxarg.toNat % 64)).st ≠ .free) :
    execCtxDbggrant ctx s = .next (((s.modCtx ctx.toNat fun x => { x with dbgVd := some (s.ctxarg.toNat % 64), editLogged := false }).ulDebug
      ctx.toNat 0 (s.ctxarg.toNat % 64)).ctxResult ctx 5 0) := by
  simp [execCtxDbggrant, hst, hv]

theorem execCtxDbgrevoke_of_context (hst : (s.ctx ctx.toNat).st ≠ .free) :
    execCtxDbgrevoke ctx s = .next ((s.revoke ctx.toNat).ctxResult ctx 6 0) := by
  simp [execCtxDbgrevoke, hst]

end

/-- Settles O40: each command by the state of its context. -/
theorem contextCommands : Obligations.ContextCommands := by
  unfold Obligations.ContextCommands
  intro s ctx c
  refine ⟨execCtxCreate_of_good, fun r => execCtxCreate_of_bad, execCtxDestroy_of_stopped, execCtxDestroy_of_active,
    fun hst hcls => execCtxPreempt_of_some (preempt_of_activeG hst hcls), fun hst => execCtxPreempt_of_some (preempt_of_idle hst),
    fun hst hcls => execCtxPreempt_of_some (preempt_of_activeH hst hcls), fun h => ⟨_, execCtxResume_of_some (resume_of_image h), ?resumed⟩,
    fun h => execCtxResume_of_none (resume_of_none h), ?grant, execCtxDbgrevoke_of_context, fun op hop => if_pos hop⟩
  case resumed =>
    rw [ctxResult_ctx, ctx_setCtx]
    exact ⟨rfl, rfl, rfl, rfl⟩
  case grant =>
    rintro v rfl
    exact execCtxDbggrant_of_device

end Sys2Proof.Machine

namespace Sys2Proof.Machine

/-! # Saves, restores, slices and map deadlines (11 R305, R309, R313, R314, 01 R30, R33) -/

section
variable {s : State} {c : Nat}

/-! ## Saves -/

/-- A stop that struck a restore leaves the image that is there. -/
theorem execCtxSaveDone_of_image {t : State} (hst : (s.ctx c).st = .saving) (hq : s.quiet c = true) (himg : (s.ctx c).image = true)
    (h : s.resave c = .ok () t) : execCtxSaveDone c s = .next (t.modCtx c fun y =>
      { y with saved := (s.ctx c).saved, unplaced := (s.ctx c).unplaced, halted := (s.ctx c).halted }) := by
  simp [execCtxSaveDone, hst, hq, himg, h]

/-- Once its words are released and its groups have taken the state they are saved in, a context is written. -/
theorem execCtxSaveDone_of_written {s1 t : State} (hst : (s.ctx c).st = .saving) (hq : s.quiet c = true) (himg : (s.ctx c).image = false)
    (hrel : ((s.saveRelease c).cores.any fun (_, k) => k.l1.any fun w => w.of c && w.st != .unowned) = false)
    (hgs : (s.saveRelease c).saveGroups c = (false, s1)) (hst1 : (s1.ctx c).st = .saving) (h : s1.writeSave c = .ok () t) :
    execCtxSaveDone c s = .next t := by
  simp only [execCtxSaveDone, hst, hq, himg, hrel, hgs, hst1, h, bne_self_eq_false, Bool.not_true, Bool.or_self, Bool.false_eq_true, if_false]

/-! ## Restores -/

theorem moveDeadlines_cores (s : State) (c : Nat) : (s.moveDeadlines c).cores = s.cores := by
  unfold State.moveDeadlines
  dsimp only
  split <;> rfl

/-- A save that passes its checks, of live cores and with room for all of it, is put back, and the context runs. -/
theorem execCtxRestoreDone_of_room {s0 s1 : State} {cs : List SCore} {gs : List (Nat × SGroup × Group)} (hst : (s.ctx c).st = .restoring)
    (h0 : s.touchSpan c ⟨false, (s.ctx c).savea⟩ ((s.saveLen c).getD 256) = s0)
    (hlost : s0.saveFault c ((s.saveLen c).getD 256) ≠ some .dieLost)
    (hread : s0.readSave c = some cs) (himg : s0.savedImages c (cs.flatMap fun r => r.groups.map (r, ·)) = .ok (some gs) s1)
    (hroom : cs.all (fun r => s.liveCore r.core && s1.coreFits c r) = true) :
    execCtxRestoreDone c s = .next (((cs.foldl (fun s r => s.restoreCore c gs r) s1).moveDeadlines c).modCtx c fun y => { y with
      st := if cs.all (fun r => r.blocks.isEmpty) then .idle else .active
      image := false, saved := [], unplaced := [], halted := false, activeSince := s.time, ranInterval := true }) := by
  have hlive : (cs.any fun r => !s.liveCore r.core) = false := by
    rw [List.any_eq_false]
    intro r hr
    simp [(Bool.and_eq_true_iff.mp (List.all_eq_true.mp hroom r hr)).1]
  have hfits : (cs.all fun r => s1.coreFits c r) = true := by
    rw [List.all_eq_true]
    exact fun r hr => (Bool.and_eq_true_iff.mp (List.all_eq_true.mp hroom r hr)).2
  simp only [execCtxRestoreDone, hst, h0, hlost, hread, himg, hlive, hfits, bne_self_eq_false, Bool.not_true, Bool.false_eq_true, if_false]

/-! ## Slices and automatic resume -/

/-- An H context whose slice is over gives way, and is to resume by itself. -/
theorem execTimeSliceExpiry_of_due {t : State} (hst : (s.ctx c).st = .active) (hcls : (s.ctx c).cls = true) (hslice : (s.ctx c).slice ≠ 0)
    (hdue : (s.ctx c).activeSince + 1000 * (s.ctx c).slice ≤ s.time) (hw : s.sliceWanted c = true) (hp : s.preempt c = some t) :
    execTimeSliceExpiry c s = .next (t.fresh.2.modCtx c fun x => { x with auto := true, switchSeq := t.fresh.1 }) := by
  simp [execTimeSliceExpiry, hst, hcls, hslice, hdue, hw, hp]

/-- The context switched out first of those that a packet would have back resumes. -/
theorem execAutoResume_of_first {t : State} (hst : (s.ctx c).st = .saved) (hauto : (s.ctx c).auto = true) (hw : s.wantsBack c = true)
    (hfirst : s.ctxs.all (fun (d, y) => !(y.st == .saved && y.auto && decide (y.switchSeq < (s.ctx c).switchSeq) && s.wantsBack d)) = true)
    (hr : s.resume c = some t) : execAutoResume c s = .next t := by
  simp only [execAutoResume, hst, hauto, hw, hfirst, hr, beq_self_eq_true, Bool.and_self, if_true]

/-! ## Map deadlines -/

theorem execMapDeadlineExpiry_of_overdue (hst : (s.ctx c).st = .active ∨ (s.ctx c).st = .draining) (h : s.overdue (s.ctx c) = true) :
    execMapDeadlineExpiry c s = .next ((s.ulMap c).stopCtx c .mapUnack 0 0 0) := by
  rcases hst with hst | hst <;> simp [execMapDeadlineExpiry, hst, h]

end

/-- Settles O41: the end of each move as one equation. -/
theorem contextsMove : Obligations.ContextsMove := by
  unfold Obligations.ContextsMove
  intro s c
  refine ⟨fun hst hq => ⟨fun t => execCtxSaveDone_of_image hst hq, fun s1 t hgs himg hst1 h hrel =>
      execCtxSaveDone_of_written hst hq himg hrel hgs hst1 h⟩, ?restore, fun hst hcls hslice hdue hw => ?slice,
    fun hst hauto hw hfirst => ?auto, execMapDeadlineExpiry_of_overdue, fun v => ⟨fun h => if_pos h, fun h => if_neg h⟩⟩
  case restore =>
    intro cs gs s1 hst len s0 hlost hread himg hroom
    refine ⟨_, execCtxRestoreDone_of_room hst rfl hlost hread himg hroom, ?_⟩
    rw [State.modCtx, ctx_setCtx]
    exact ⟨rfl, rfl, moveDeadlines_cores ..⟩
  case slice =>
    refine ⟨_, execTimeSliceExpiry_of_due hst hcls hslice hdue hw (preempt_of_activeH hst hcls), ?_⟩
    rw [State.modCtx, ctx_setCtx]
  case auto =>
    refine ⟨_, execAutoResume_of_first hst hauto hw hfirst (resume_of_image (.inl hst)), ?_⟩
    rw [ctx_setCtx]
    exact ⟨rfl, rfl⟩

end Sys2Proof.Machine

namespace Sys2Proof.Machine

/-! # Key commands (12 R322) -/

section
variable {s : State} {slot owner : BitVec 6}

theorem noVd_of_device (h : (s.vd owner.toNat).st ≠ .free) : s.noVd owner = [] := if_neg (mt eq_of_beq h)

/-- With a device, an argument and a key-encryption key, a failed unwrap is the one cause that a free slot leaves to refuse
an install. -/
theorem execKeyInstall_of_arg {bs : List Byte} {kek : BitVec 256} (hst : (s.vd owner.toNat).st ≠ .free)
    (hslot : s.slotCauses slot owner = []) (harg : s.keyArg 72 = some bs) (hkek : (s.vd owner.toNat).kek = some kek) :
    execKeyInstall slot owner s = .next (s.keyEnd 1 slot owner (if (unwrapKey kek bs).isNone then [3] else [])
      fun s => s.setKey slot { owner := some owner.toNat, key := (unwrapKey kek bs).getD 0 }) := by
  simp [execKeyInstall, hslot, harg, hkek, noVd_of_device hst]

theorem execKeyClear_of_free (hst : (s.vd owner.toNat).st ≠ .free) (hslot : s.slotCauses slot owner = []) :
    execKeyClear slot owner s = .next (s.keyEnd 2 slot owner [] fun s => s.setKey slot {}) := by
  simp only [execKeyClear, hslot, noVd_of_device hst, List.append_nil]

theorem execKeySetkek_of_arg {bs : List Byte} (hst : (s.vd owner.toNat).st ≠ .free) (harg : s.keyArg 1088 = some bs) :
    execKeySetkek slot owner s = .next (s.keyEnd 3 slot owner [] fun s =>
      s.modVd owner.toNat fun d => { d with kek := some (Config.decapsulate d.report bs) }) := by
  simp [execKeySetkek, harg, noVd_of_device hst]

end

/-- Settles O35: without another cause an install is decided by its unwrap, and the other commands end OK. -/
theorem keysChange : Obligations.KeysChange := by
  unfold Obligations.KeysChange
  intro s slot owner done hst
  refine ⟨fun bs kek hslot harg hkek => (execKeyInstall_of_arg hst hslot harg hkek).trans ?_,
    execKeyClear_of_free hst, fun bs => execKeySetkek_of_arg hst⟩
  cases unwrapKey kek bs with
  | none => rfl
  | some key => rfl

end Sys2Proof.Machine

namespace Sys2Proof.Machine

/-! # Commands of virtual devices (12 R319, R321, R330, R331) -/

/-! ## What records and interrupts leave of a virtual device -/

/-- The state, generation, key-encryption key and page requests of a virtual device: what its commands change, and no
record of its log, checkpoint or interrupt does. -/
def VDev.life (d : VDev) : VState × Word × Option (BitVec 256) × List PageReq := (d.st, d.gen, d.kek, d.reqs)

section
variable {s : State} {v : Nat}

theorem HomeChange.vd {t : State} (h : HomeChange s t) (v : Nat) : t.vd v = s.vd v := by
  simp only [State.vd, h.vdevs]

theorem ringPut_vd (s : State) (r : DWord) (n : Nat) (bs : List Byte) (v : Nat) : (s.ringPut r n bs).vd v = s.vd v :=
  HomeChange.vd .homePut v

/-- Slots that enter the ring are written at its home, and move its tail alone. -/
theorem ulDrain_life (s : State) (v n : Nat) : ((s.ulDrain v n).vd v).life = (s.vd v).life := by
  induction n generalizing s with
  | zero => rfl
  | succ n ih =>
    unfold State.ulDrain
    extract_lets d
    split
    · rfl
    · split
      · rfl
      · rw [ih, vd_modVd, ringPut_vd]
        rfl

theorem ulFlow_life (s : State) (v : Nat) : ((s.ulFlow v).vd v).life = (s.vd v).life := by
  rw [State.ulFlow, vd_modVd]
  exact ulDrain_life ..

theorem ulPut_life (s : State) (v typ ctx : Nat) (data : List Byte) (after : List Byte → List Byte) :
    ((s.ulPut v typ ctx data after).vd v).life = (s.vd v).life := by
  refine (ulFlow_life ..).trans ?_
  rw [State.vd, State.setVd, alGet_alSet]
  rfl

theorem ulState_life (s : State) (v : Nat) : ((s.ulState v).vd v).life = (s.vd v).life := by
  rw [State.ulState, State.checkpoint, ulPut_life, State.ulRec, ulPut_life]

theorem vdResult_life (s : State) (v op result : Nat) : ((s.vdResult v op result).vd v).life = (s.vd v).life := by
  rw [State.vdResult, vd_modVd]
  rfl

theorem virq_life (s : State) (v cause : Nat) : ((s.virq v cause).vd v).life = (s.vd v).life := by
  unfold State.virq
  extract_lets d s1
  have h1 : (s1.vd v).life = (s.vd v).life := (congrArg VDev.life (vd_modVd s v _)).trans rfl
  split
  · rfl
  · split
    · exact h1
    · rw [HomeChange.hostPut.vd]
      exact h1

/-! ## Commands by state -/

/-- A device that a CREATE at a time makes, before the first record of its log. -/
def VDev.created (d : VDev) (time : Nat) : VDev :=
  { d with st := .active, gen := 1, ulseq := 0, ulprev := List.replicate 32 0, ckptAt := time / 1000000000 }

theorem execVdCreate_of_free (hv : v < 64) (hst : (s.vd v).st = .free) :
    let s1 := s.modVd v fun d => d.created s.time
    execVdCreate v s = .next ((s1.ulRec v 1 noCtx s1.identity).vdResult v 1 0) := by
  simp only [execVdCreate, Nat.not_le.mpr hv, hst, if_false]
  rfl

/-- The record of a CREATE leaves the device that it makes. -/
theorem execVdCreate_life (hv : v < 64) (hst : (s.vd v).st = .free) :
    ∃ t, execVdCreate v s = .next t ∧ (t.vd v).life = ((s.vd v).created s.time).life ∧ (t.vd v).cmd = vdcmdWord 1 0 false := by
  refine ⟨_, execVdCreate_of_free hv hst, ?_, ?_⟩
  · rw [vdResult_life, State.ulRec, ulPut_life, vd_modVd]
  · rw [State.vdResult, vd_modVd]

/-- A STOP of an ACTIVE device without contexts has none to pre-empt. -/
theorem execVdStop_of_empty (hst : (s.vd v).st = .active) (hempty : s.ctxsOf v = []) :
    execVdStop v s = .next (s.modVd v fun d => { d with st := .stopping, cmd := vdcmdWord 2 0 true }) := by
  have hnone : (s.modVd v fun d => { d with st := .stopping, cmd := vdcmdWord 2 0 true }).ctxsOf v = [] := hempty
  simp only [execVdStop, hst, hnone, List.foldl_nil]

theorem execVdStopDone_of_settled (hst : (s.vd v).st = .stopping) (hsettled : s.vdSettled v = true)
    (hheld : s.heldMore (s.vdRelease v) = false) : execVdStopDone v s =
    .next (((((s.vdRelease v).modVd v fun d => { d with st := .stopped }).ulState v).vdResult v 2 0).virq v 4) := by
  simp only [execVdStopDone, hst, hsettled, hheld, Bool.not_true, Bool.false_eq_true, if_false]

theorem execVdResume_of_stopped (hst : (s.vd v).st = .stopped) : execVdResume v s =
    .next (((s.modVd v fun d => { d with st := .active }).ulState v).vdResult v 3 0) := by
  simp only [execVdResume, hst]

theorem execVdReset_of_device (hfree : (s.vd v).st ≠ .free) (hresetting : (s.vd v).st ≠ .resetting) : execVdReset v s =
    .next ((s.modVd v fun d => { d with
      st := .resetting, cmd := vdcmdWord 4 (if (s.vd v).st = .stopping then 4 else 0) true }).resetWork v) := by
  unfold execVdReset
  extract_lets d
  split
  case h_1 h => exact absurd h hfree
  case h_2 h => exact absurd h hresetting
  case h_3 => rfl

/-- The reset of channels sends frames and drops others; the virtual devices stay. -/
theorem resetChannels_vdevs (s : State) (v : Nat) : (s.resetChannels v).vdevs = s.vdevs := by
  refine foldl_keeps State.vdevs _ _ (fun t c => ?_) s
  have hcount {u : State} {d src n : Nat} {who} : (u.countDie d src n who).vdevs = u.vdevs := HomeChange.countDie.vdevs
  exact hcount

/-- A device after the steps 3 to 6 of its reset. -/
def VDev.afterReset (d : VDev) : VDev :=
  { d with gen := nextGen d.gen, reqs := [], kek := none, dlring := ringOff d.dlring, pqring := ringOff d.pqring
           dlpause := false, heldPages := [], credits := [], st := .active }

/-- The end of a reset leaves its device as the reset's steps make it, beside its log and its interrupts. -/
theorem execVdResetDone_life (hst : (s.vd v).st = .resetting) :
    ∃ t, execVdResetDone v s = .next t ∧ (t.vd v).life = (s.vd v).afterReset.life := by
  unfold execVdResetDone
  rw [hst]
  refine ⟨_, rfl, ?_⟩
  rw [virq_life, vdResult_life, ulState_life, vd_modVd, State.vd, resetChannels_vdevs, ← State.vd, vd_modVd]
  rfl

theorem execVdDestroy_of_allowed (hst : (s.vd v).st = .active ∨ (s.vd v).st = .stopped) : execVdDestroy v s =
    if s.vdInUse v then .next (s.vdResult v 5 3)
    else .next (((s.closeUsage v).modVd v fun d => { d with st := .free, kek := none }).vdResult v 5 0) := by
  rcases hst with hst | hst <;> simp only [execVdDestroy, hst]

theorem execVdSign_of_idle (hv : v < 64) (hbusy : (s.vd v).busy = false) (w : Bool) : execVdSign v w s =
    if (s.vd v).st == .free then .next (s.vdResult v 6 1) else .next ((s.checkpoint v).vdResult v 6 0) :=
  if_neg (by simp [hv, hbusy])

theorem execVdcmdBadop_of_idle {op : BitVec 4} (hv : v < 64) (hbusy : (s.vd v).busy = false) (hop : 7 ≤ op.toNat) :
    execVdcmdBadop v op s = .next (s.vdResult v op.toNat 2) :=
  (if_neg (by simp [hv, hbusy])).trans (if_pos hop)

end

/-- Settles O43: each command by the state of its device; a created and a reset device by what the records and interrupts
that follow leave of it. -/
theorem virtualDevicesChange : Obligations.VirtualDevicesChange := by
  unfold Obligations.VirtualDevicesChange
  intro s v hv
  refine ⟨fun hst => ?created, execVdStop_of_empty, execVdStopDone_of_settled,
    execVdResume_of_stopped, execVdReset_of_device, fun hst => ?reset,
    fun hst => ⟨fun huse => (execVdDestroy_of_allowed hst).trans (if_pos huse),
      fun huse => (execVdDestroy_of_allowed hst).trans (if_neg (Bool.eq_false_iff.mp huse))⟩,
    fun hbusy hst w => (execVdSign_of_idle hv hbusy w).trans (if_neg (mt eq_of_beq hst)),
    fun hbusy hst w => (execVdSign_of_idle hv hbusy w).trans (if_pos (beq_iff_eq.mpr hst)),
    fun op => execVdcmdBadop_of_idle hv⟩
  case created =>
    obtain ⟨t, ht, hlife, hcmd⟩ := execVdCreate_life hv hst
    simp only [VDev.life, Prod.mk.injEq] at hlife
    obtain ⟨hact, hgen, -, -⟩ := hlife
    exact ⟨t, ht, hact, hgen, hcmd⟩
  case reset =>
    obtain ⟨t, ht, hlife⟩ := execVdResetDone_life hst
    simp only [VDev.life, Prod.mk.injEq] at hlife
    exact ⟨t, ht, hlife⟩

end Sys2Proof.Machine
